-- ==== Sys2Proof/Word.lean ====
section
/-! DEFINITION. The word types of the machine and their plainest arithmetic: bits, bytes in little-endian order (R3),
and the canonical sparse map that holds every large piece of state. -/

namespace Sys2Proof

/-- A scalar register, a context register, an immediate (class S of R123). -/
abbrev Word := BitVec 64
/-- One lane of a vector, one scratchpad word, one accumulator word. -/
abbrev Lane := BitVec 32
/-- A vector register: 128 lanes, lane i at bits [32i+31:32i] (R49). -/
abbrev Vec := BitVec 4096
/-- A mask register, one bit per lane. -/
abbrev Mask := BitVec 128
abbrev Byte := BitVec 8

/-- Lane i of a vector (R163). -/
def Vec.lane (v : Vec) (i : Nat) : Lane := v.extractLsb' (32 * i) 32

/-- The natural number a list of digits of `w` bits stands for, least significant first. -/
def digits (w : Nat) : List Nat → Nat
  | [] => 0
  | d :: ds => d % 2 ^ w + 2 ^ w * digits w ds

/-- A vector built from its lanes, lane 0 first; missing lanes are 0. -/
def Vec.ofLanes (ls : List Lane) : Vec := BitVec.ofNat 4096 (digits 32 (ls.map BitVec.toNat))

/-- The 128 lanes of a vector, lane 0 first. -/
def Vec.lanes (v : Vec) : List Lane := (List.range 128).map v.lane

/-- A vector with the same value in every lane. -/
def Vec.splat (x : Lane) : Vec := Vec.ofLanes (List.replicate 128 x)

/-- A vector whose lane i is `f i`. -/
def Vec.tab (f : Nat → Lane) : Vec := Vec.ofLanes ((List.range 128).map f)

/-- The low `n` bytes of a number, least significant first (R3: little-endian). -/
def bytesOf (n : Nat) (x : Nat) : List Byte := (List.range n).map fun i => BitVec.ofNat 8 (x >>> (8 * i))

/-- The number a byte string stands for, little-endian. -/
def natOf (bs : List Byte) : Nat := digits 8 (bs.map BitVec.toNat)

/-- `n` bytes of a byte string from offset `o`, as a number. -/
def field (bs : List Byte) (o n : Nat) : Nat := natOf ((bs.drop o).take n)

/-- Bits [hi:lo] of a number. -/
def bits (x hi lo : Nat) : Nat := (x >>> lo) % 2 ^ (hi + 1 - lo)

/-- `w` low bits of `x` read as a two's complement integer. -/
def sextNat (w x : Nat) : Int :=
  let y := x % 2 ^ w
  if 2 * y < 2 ^ w then y else (y : Int) - 2 ^ w

/-- An integer reduced modulo 2^w. -/
def wrapInt (w : Nat) (x : Int) : Nat := (x % (2 ^ w : Int)).toNat

/-- The least multiple of `m` not below `x`. -/
def alignUp (x m : Nat) : Nat := (x + m - 1) / m * m

def ceilDiv (x m : Nat) : Nat := (x + m - 1) / m

def b2n (b : Bool) : Nat := if b then 1 else 0

/-- A sparse map from numbers: pairs in strictly rising key order, with no entry equal to the default value, so that
equal maps are equal lists. -/
abbrev NMap (α : Type) := List (Nat × α)

namespace NMap
variable {α : Type} [Inhabited α] [DecidableEq α]

/-- The value at a key; an unlisted key holds the default. -/
def get : NMap α → Nat → α
  | [], _ => default
  | (j, a) :: m, k => if j = k then a else get m k

/-- The map with the key removed. -/
def erase (m : NMap α) (k : Nat) : NMap α := m.filter fun e => e.1 != k

/-- The map with an entry at the key, whatever its value. -/
def insert : NMap α → Nat → α → NMap α
  | [], k, v => [(k, v)]
  | (j, a) :: m, k, v =>
    if j = k then (k, v) :: m else if k < j then (k, v) :: (j, a) :: m else (j, a) :: insert m k v

/-- The map with the value at the key; writing the default removes the entry. -/
def set (m : NMap α) (k : Nat) (v : α) : NMap α := if v = default then erase m k else insert m k v

def modify (m : NMap α) (k : Nat) (f : α → α) : NMap α := m.set k (f (m.get k))

/-- The canonical form: keys strictly rising and no default value listed. -/
def wf : NMap α → Bool
  | [] => true
  | [(_, a)] => decide (a ≠ default)
  | (j, a) :: (k, b) :: m => decide (a ≠ default) && decide (j < k) && wf ((k, b) :: m)

/-- Consecutive values from key `k`. -/
def setMany (m : NMap α) (k : Nat) : List α → NMap α
  | [] => m
  | v :: vs => setMany (m.set k v) (k + 1) vs

/-- `n` consecutive values from key `k`. -/
def getMany (m : NMap α) (k n : Nat) : List α := (List.range n).map fun i => m.get (k + i)

end NMap

/-- `l` with position `i` replaced; out of range, unchanged. -/
def listSet {α : Type} (l : List α) (i : Nat) (a : α) : List α := l.set i a

end Sys2Proof
end

