-- ==== Sys2Proof/Syntax.lean ====
section
/-! DEFINITION. The rows of the part's table of operations and events: one constructor of `Instr` per row. An engine
row carries the operands captured when its bundle issued (R185), a trowel row its encoded fields (R262), an event the
data that comes with it from outside or the agent it names. A trigger row carries nothing: its operands are the operand
ports of its unit for the one bundle (R129), a `Fire`, which the machine holds while it performs the trigger. -/

namespace Sys2Proof

/-- A value on its way from a source port, with its class (R123). -/
inductive Val where
  | s (x : Word)
  | v (x : Vec)
  | p (x : Bool)
  | m (x : Mask)
  deriving DecidableEq, Repr, Inhabited

/-- The header fields that triggers read (R121). -/
structure Header where
  rnd  : BitVec 3 := 0
  sat  : Bool := false
  fa   : BitVec 4 := 0
  fb   : BitVec 4 := 0
  join : Bool := false
  deriving DecidableEq, Repr, Inhabited

/-- One move slot (R122). -/
structure Slot where
  guard : BitVec 3
  neg   : Bool
  src   : BitVec 10
  dst   : BitVec 10
  deriving DecidableEq, Repr, Inhabited

/-- One bundle: the header (R121) and eight move slots (R120, R122). -/
structure Bundle where
  kind  : BitVec 3
  hdr   : Header
  imm16 : BitVec 16
  imm32 : BitVec 32
  slots : List Slot
  deriving DecidableEq, Repr, Inhabited

/-- A source port, as its code names it (R124). -/
inductive Src where
  | s (n : Nat)
  | v (n : Nat)
  | p (n : Nat)
  | m (n : Nat)
  | r (unit : Nat)
  | h (unit : Nat)
  | creg (code : Nat)
  | short (x : BitVec 8)
  | imm32z
  | imm32s
  | imm16z
  | imm16s
  | imm48
  deriving DecidableEq, Repr, Inhabited

/-- A destination port, as its code names it (R126). -/
inductive Dst where
  | s (n : Nat)
  | v (n : Nat)
  | p (n : Nat)
  | m (n : Nat)
  | operand (unit i : Nat)
  | creg (code : Nat)
  | trigger (unit op : Nat)
  deriving DecidableEq, Repr, Inhabited

/-- The registers that a trigger reads without a port, as the bundle's sources are read (R131, R147, R148, R154): s31,
c.tpc, c.lc, c.lcx, the predicates, c.rrb, and the vector register that `st.vg` names. -/
structure SrcRegs where
  s31  : Word := 0
  tpc  : Word := 0
  lc   : Word := 0
  lcx  : Word := 0
  p    : BitVec 8 := 0
  rrb  : Word := 0
  vreg : Vec := 0
  deriving DecidableEq, Repr, Inhabited

/-- The operands of one trigger of one bundle: the context, the second unit of a pair (sa1, ls1, vf1), the header,
the operand ports o1 (A), o2 (D), o3 (C), aux, and the trigger's own value B (R129). -/
structure Fire where
  ctx : Nat
  alt : Bool := false
  hdr : Header := {}
  a   : Val := .s 0
  d   : Val := .s 0
  c   : Val := .s 0
  aux : Val := .s 0
  b   : Val := .s 0
  src : SrcRegs := {}
  /-- the bundle has been found free of uncorrectable data (R130) -/
  sound : Bool := false
  deriving DecidableEq, Repr, Inhabited

/-- The operands of one engine command, as its bundle gave them and as R185 captures them at the trigger: the context
and its part, the token, the consumed commands (R187; the first `named` of them in the order of aux's fields, then those a fence implies), the commands of the closure of R108, the copy template and the
local records read at issue, the sequence number of R195 and the device time. `id` names the command, since a token
number is used again. -/
structure Cmd where
  id      : Nat
  ctx     : Nat := 0
  tok     : Nat := 0
  hdr     : Header := {}
  a       : Word := 0
  d       : Word := 0
  c       : Word := 0
  b       : Word := 0
  node    : Nat := 0
  part    : Nat := 0
  asid    : Nat := 0
  groups  : List Nat := []
  uses    : List Nat := []
  named   : Nat := 0
  closure : List Nat := []
  tmpl    : List Byte := []
  local0  : List Byte := []
  seq     : Nat := 0
  time    : Nat := 0
  deriving DecidableEq, Repr, Inhabited

/-- What a package says about the start of a gang (R348); with its proposal the groups in which it has parts, which tell every package
where the totals of a group are formed (R384) (log 44). -/
inductive GangWord where
  | proposal (tick : Nat) (groups : List Nat)
  | refused
  | failed
  deriving DecidableEq, Repr, Inhabited

/-- How a doorbell store reaches a queue register (R340, R381): by the host's BAR2, or inside the package. -/
inductive StorePath where
  | host (fn : Nat)
  | inside
  deriving DecidableEq, Repr, Inhabited

/-- What reaches the package from outside by no row of the table (log 99): the host's write to a byte string of its own memory (R379), its
read of a device register through BAR0 (R378), of a doorbell block (R379), its accesses to a function's MSI-X table and pending bits
(R378), a command processor's write to memory (R357), a read over the management bus (R395), a time master's falling silent (R385). -/
inductive Outside where
  | memoryWrite (key : Nat) (data : List Byte)
  | registerRead (a : Nat)
  | doorbellRead (fn q offset : Nat)
  | vectorRead (fn offset n : Nat)
  | vectorWrite (fn offset : Nat) (data : List Byte)
  | firmwareStore (pair dpa : Nat) (data : List Byte)
  | managementRead (which : Nat)
  | masterSilent (source : Nat)
  deriving DecidableEq, Repr, Inhabited

/-- Where an error was found and corrected, or not corrected. A tile below 4,608 is a tile's DRAM (R352, R361): `row` is then also
the sector of the plane, modulo 128. Tile 4,608 + n is the scratchpad of core n with codeword `row` (R82, R83), tile 4,680 + n its
accumulator with word `row` (R84). Tile 4,752 + ti is a latch of tile ti, the active one where `plane` is 0, else the shadow one, and tile
9,360 + ti the sequencer of the macro that holds tile ti (R217, R351). Tile 13,968 is the memory-side cache with sector `row` of
the capacity tier (R91, R351). -/
structure ErrorSite where
  tile        : Nat
  plane       : Nat
  row         : Nat
  bank        : Nat
  lane        : Nat
  correctable : Bool
  deriving DecidableEq, Repr, Inhabited

/-- A time master's word (R385): its package and its time. -/
structure TimeWord where
  source : Nat
  time   : Nat
  deriving DecidableEq, Repr, Inhabited

/-- A message that arrives over an edge port (R383, R384). -/
structure LinkMessage where
  source   : Nat
  target   : Nat
  kind     : Nat
  sequence : Nat
  data     : List Byte
  deriving DecidableEq, Repr, Inhabited

/-- The steps of the part, one constructor per row of the table: the rows with operands of their own in the table's
order, then the triggers. -/
inductive Instr where
  /-- BUNDLE_ISSUE (R130): A context issues one bundle: guards and sources are read, moves write their destinations and triggers fire. -/
  | bundleIssue (x : Nat) (b : Bundle)
  /-- ENTRY_LANDING (R43): An in-flight entry lands its result, register write or memory write at the context's issue cycle n + L. -/
  | entryLanding (x : Nat)
  /-- BRANCH_EFFECT (R145): A br operation takes effect at issue cycle n + 3, redirecting fetch or changing loop state. -/
  | branchEffect (x : Nat)
  /-- CONTEXT_CHOOSE (R41): The core chooses which ready context issues in this clock cycle, retrying blocked bundles or holding. -/
  | contextChoose (core : Nat)
  /-- QUANTUM_EXPIRY (R41): A context that has issued the quantum of consecutive issue cycles yields to an equal or higher priority context. -/
  | quantumExpiry (core : Nat)
  /-- AGING_EXPIRY (R41): A ready context not issued for 1,024 issue cycles of the core is chosen before all others. -/
  | agingExpiry (core : Nat)
  /-- SLEEP_WAKE (R40): A sleeping context becomes ready once c.dtime reaches its wake time. -/
  | sleepWake (x : Nat)
  /-- WAIT_TIMEOUT (R309): The watchdog count of a blocked bundle reaches WDOG_CTL and raises the wait-timeout trap. -/
  | waitTimeout (x : Nat)
  /-- PART_BIND (R32): A free context is bound to the first queued part by priority, take order and part number, with R36 entry state. -/
  | partBind (x : Nat)
  /-- KERNEL_IMAGE_LOAD (R37): The launch unit loads a node's kernel image, templates and argument block once its footprint is free. -/
  | kernelImageLoad (core node : Nat)
  /-- PART_END (R35): A draining part ends once every engine command and accepted sys operation has completed. -/
  | partEnd (x : Nat)
  /-- NODE_START (R31): A node starts when every predecessor has completed, acquiring their completions. -/
  | nodeStart (node : Nat)
  /-- NODE_COMPLETE (R348): A node completes after all parts end: release performed, completion record posted and MSI-X sent. -/
  | nodeComplete (node : Nat)
  /-- NODE_COMMIT (R349): A restartable node's stage pages replace their output pages whole before completion. -/
  | nodeCommit (node : Nat)
  /-- RECORD_TAKE (R341): The queue manager takes one launch record from the next eligible queue and advances Q_HEAD. -/
  | recordTake
  /-- GANG_PROPOSAL_RECEIVE (R348): A gang proposal arrives from another package and the agreed tick is updated. -/
  | gangProposalReceive (node pkg : Nat) (m : GangWord)
  /-- GANG_TIMEOUT (R348): A gang partner has not proposed within the timeout and the gang is refused with reason 7. -/
  | gangTimeout (node : Nat)
  /-- GANG_START_TICK (R47): Device time reaches the agreed gang tick and binding of the gang node's parts may begin. -/
  | gangStartTick (node : Nat)
  /-- PREEMPT_HINT (R350): A part queued for PREEMPT_HINT.wait clock cycles behind a lower-priority bound part posts a hint event. -/
  | preemptHint (core : Nat)
  /-- ENGINE_COMMAND_START (R187): An engine command begins its accesses once every token it consumes has completed. -/
  | engineCommandStart (id : Nat)
  /-- TOKEN_COMPLETE (R188): An engine command completes its token with an 8-bit status after its writes are performed. -/
  | tokenComplete (id : Nat)
  /-- TILE_TAKE (R219): A matrix command takes a tile released by another command it was waiting for. -/
  | tileTake (id : Nat)
  /-- NOTICE_OFFER (R203): A kick notice arrives at the receiving core and is accepted into its ring slot or refused. -/
  | noticeOffer (nid : Nat)
  /-- NOTICE_REOFFER (R203): A refused notice's back-off interval expires and it is offered again. -/
  | noticeReoffer (nid : Nat)
  /-- EPISODE_COMPLETE (R211): A barrier or collective episode completes once every member part has arrived or ended. -/
  | episodeComplete (node group number : Nat)
  /-- ACQW_TIMEOUT (R208): Device time reaches an ec.acqw deadline and the command completes with timeout set. -/
  | acqwTimeout (id : Nat)
  /-- BU_DRIVE_STEP (R267): One driven column access advances every trowel unit of the channel by one instruction. -/
  | buDriveStep (ch : Nat)
  /-- SYS_RECORD_WRITE (R313): An accepted asynchronous sys operation performs its effect and writes its 16-byte sys record. -/
  | sysRecordWrite (x : Nat)
  /-- HOST_ATS_INVALIDATE (R382): A host ATS invalidation completes after every access that used the removed translation is performed. -/
  | hostAtsInvalidate (asid va : Nat)
  /-- FAULT_RECORD_POST (R355): A fault record is written whole and FAULT_TAIL advances once the ring has room. -/
  | faultRecordPost (source : Nat)
  /-- EVENT_LOG_APPEND (R358): Hardware appends an event-log entry once the log has room, freezing dispatch while full. -/
  | eventLogAppend
  /-- CP_MISMATCH (R357): The lockstep checker finds a differing write, sets mis and suppresses the pair's output. -/
  | cpMismatch (pair : Nat)
  /-- CORRECTED_ERROR (R361): A corrected error is counted on its row, bank or lane group and reported. -/
  | correctedError (site : ErrorSite)
  /-- REPAIR_STEP_COMPLETE (R361): A repair step ends and its resource stops being repair-pending. -/
  | repairStepComplete (tile : Nat)
  /-- REPAIR_COMPLETE (R361): A repair completes: count reset, budget lowered, record kind 0x08 posted. -/
  | repairComplete (tile : Nat)
  /-- PLANE_REMAP_COMPLETE (R362): A plane remapped to a reserve plane is served through its remap entry; record kind 0x06. -/
  | planeRemapComplete (tile : Nat)
  /-- MOVE_COMPLETE (R364): A page move finishes copying its 16 planes and sets done and status. -/
  | moveComplete
  /-- MOVE_QUIET (R364): quiet becomes 1 once every earlier access to the held page is performed or held. -/
  | moveQuiet
  /-- SKIM_PAGE (R367): The skim engine hashes one page and copies it when its hash differs. -/
  | skimPage
  /-- SKIM_PASS_END (R367): A skim pass ends, sets done and posts one interrupt. -/
  | skimPassEnd
  /-- HOST_WINDOW_READ (R380): A host read of a function's BAR4 window is translated and served or refused. -/
  | hostWindowRead (fn offset n : Nat)
  /-- HOST_WINDOW_WRITE (R380): A host write through a BAR4 window is translated and performed or dropped. -/
  | hostWindowWrite (fn offset : Nat) (data : List Byte)
  /-- Q_TAIL_STORE (R341): A store of Q_TAIL by doorbell or sys.mst posts records, or is ignored when it would overfill the ring. -/
  | qTailStore (q v : Nat) (how : StorePath)
  /-- Q_CPL_HEAD_STORE (R340): A store of Q_CPL_HEAD consumes completion records and frees ring room. -/
  | qCplHeadStore (q v : Nat) (how : StorePath)
  /-- HOST_LINK_DOWN (R382): The host link fails after retry; affected accesses complete with 0x07 and a kind 0x0C record is posted. -/
  | hostLinkDown
  /-- HOST_POISONED_COMPLETION (R382): A poisoned host completion completes its access with 0x07 and is counted. -/
  | hostPoisonedCompletion (id : Nat)
  /-- HOST_PTM_REQUEST (R385): The port answers a PTM request relating the host clock to device time. -/
  | hostPtmRequest (time : Nat)
  /-- EDGE_PORT_FAIL (R383): A package-edge port fails after retry, clears up and posts a kind 0x0A record. -/
  | edgePortFail (port : Nat)
  /-- ULALM_MESSAGE_RECEIVE (R383): A Ulalm message arrives on an edge port and is delivered or forwarded by dimension order. -/
  | ulalmMessageReceive (port : Nat) (m : LinkMessage)
  /-- DIE_LINK_FAIL (R351): A die-to-die or die-to-hub link fails after retry: package fault, launch disabled, live nodes failed. -/
  | dieLinkFail (link : Nat)
  /-- TIME_SYNC_MESSAGE (R385): A package receives the master's time over the control class and steers its rate. -/
  | timeSyncMessage (port : Nat) (time : TimeWord)
  /-- RESET_N_RELEASE (R387): Release of RESET_N or PERST_N starts bring-up by the boot ROM. -/
  | resetNRelease (failStep : Nat)
  /-- POWER_CAP_EXCEED (R393): The 1 ms average power exceeds PWR_CAP and the clock steps down. -/
  | powerCapExceed (reading : Nat)
  /-- POWER_HEADROOM (R393): With headroom under the cap the clock steps up again. -/
  | powerHeadroom (reading : Nat)
  /-- TEMP_HOT (R394): At 105 degrees C the clock goes to its floor and hot reads 1. -/
  | tempHot (reading : Nat)
  /-- TEMP_COOL (R394): Below 100 degrees C the hot throttle ends. -/
  | tempCool (reading : Nat)
  /-- THERM_TRIP (R394): At 120 degrees C the package drives THERM_TRIP_N low. -/
  | thermTrip (reading : Nat)
  /-- CLU_PWR_TRANSITION_END (R390): A cluster power transition completes and busy clears. -/
  | cluPwrTransitionEnd (cluster : Nat)
  /-- LAUNCH_CTL_WRITE (R339): A write of LAUNCH_CTL with enable = 1 is checked against the harvest map and accepted or refused. -/
  | launchCtlWrite (v : Nat)
  /-- Q_CTL_ENABLE (R340): Enabling a queue zeroes its tail, head and completion pointers. -/
  | qCtlEnable (q v : Nat)
  /-- FAULT_CTL_ENABLE (R353): Enabling the fault ring zeroes its tail, head and lost count. -/
  | faultCtlEnable (v : Nat)
  /-- EVLOG_CTL_ENABLE (R353): Enabling the event log zeroes its tail and head. -/
  | evlogCtlEnable (v : Nat)
  /-- FAULT_HEAD_WRITE (R355): Firmware advances FAULT_HEAD, giving the fault ring room. -/
  | faultHeadWrite (v : Nat)
  /-- EVLOG_HEAD_WRITE (R358): Firmware advances EVLOG_HEAD, giving the event log room. -/
  | evlogHeadWrite (v : Nat)
  /-- CP_STAT_CLEAR (R359): A W1C write clears a mis bit, resuming dispatch when frozen reads 0. -/
  | cpStatClear (v : Nat)
  /-- NODE_ABORT_ROLLBACK (R356): NODE_ABORT action 1 stops the node's contexts, cancels its commands and re-queues it. -/
  | nodeAbortRollback (v : Nat)
  /-- NODE_ABORT_FAIL (R356): NODE_ABORT action 2 stops the node, discards its stage and completes it with status 1. -/
  | nodeAbortFail (v : Nat)
  /-- TRANS_RESOLVE_RETRY (R330): TRANS_RESOLVE action 0 lets a held access walk again. -/
  | transResolveRetry (v : Nat)
  /-- TRANS_RESOLVE_FAIL (R330): TRANS_RESOLVE action 1 completes the held access's command with 0x04 or 0x05. -/
  | transResolveFail (v : Nat)
  /-- POISON_CLR (R335): A write of POISON_CLR removes the poison mark of a page-table word. -/
  | poisonClr (v : Nat)
  /-- REPAIR_RESOLVE_REMAP (R363): REPAIR_RESOLVE action 0 remaps a failed plane below the floor and releases held accesses. -/
  | repairResolveRemap (v : Nat)
  /-- REPAIR_RESOLVE_RELEASE (R363): REPAIR_RESOLVE action 1 releases held accesses to walk again. -/
  | repairResolveRelease (v : Nat)
  /-- REPAIR_RESOLVE_FAIL (R363): REPAIR_RESOLVE action 2 completes every held access with 0x06. -/
  | repairResolveFail (v : Nat)
  /-- MOVE_PAGE_HOLD_SET (R364): Writing hold = 1 holds every later access translating through the page's leaf. -/
  | movePageHoldSet (v : Nat)
  /-- MOVE_PAGE_HOLD_CLEAR (R364): Writing hold = 0 releases held accesses, which walk again. -/
  | movePageHoldClear (v : Nat)
  /-- MOVE_CTL_GO (R364): go starts copying the page's planes to the new delta, or ends with status 6 when not quiet. -/
  | moveCtlGo (v : Nat)
  /-- SKIM_CTL_GO (R367): go starts a skim pass over the configured page range. -/
  | skimCtlGo (v : Nat)
  /-- SPAD_FAIL_WRITE (R82): Marking a scratchpad bank failed makes reads reconstruct it from the other banks. -/
  | spadFailWrite (core v : Nat)
  /-- PKG_RESET_WRITE (R389): A write of key 0xA5C3 to PKG_RESET resets the package and starts bring-up. -/
  | pkgResetWrite (v : Nat)
  /-- CLU_PWR_LOWER (R391): A write lowering a cluster's power state is accepted only when its cores are quiescent, else refused. -/
  | cluPwrLower (cluster v : Nat)
  /-- CLU_PWR_RAISE (R391): A write raising a cluster's power state is always accepted and starts the transition. -/
  | cluPwrRaise (cluster v : Nat)
  /-- REGISTER_WRITE (R5): A write to a register without behaviour of its own sets its RW fields as its map gives. -/
  | registerWrite (addr v : Nat)
  /-- EC_COPY (R198): Expert copy by template with optional transform and stamp. -/
  | ecCopy (c : Cmd)
  /-- EC_COPYL (R193): Linear copy of C bytes with optional sequence stamp. -/
  | ecCopyl (c : Cmd)
  /-- EC_RETILE (R199): Writes a columned region and its side slots, then its layout identifier. -/
  | ecRetile (c : Cmd)
  /-- EC_KICK (R202): Sends a kick notice to a core's notice ring. -/
  | ecKick (c : Cmd)
  /-- EC_PULL (R204): Reads a notice sender's buffer into the receiver and acknowledges unless kept. -/
  | ecPull (c : Cmd)
  /-- EC_AMO (R205): Returning atomic on a device element with a return record. -/
  | ecAmo (c : Cmd)
  /-- EC_AMOR (R207): Return-free commutative vector atomic that may be combined. -/
  | ecAmor (c : Cmd)
  /-- EC_ACQ (R208): Reads a sync word once with acquire. -/
  | ecAcq (c : Cmd)
  /-- EC_ACQW (R208): Reads a sync word until a condition holds, with acquire, or a deadline. -/
  | ecAcqw (c : Cmd)
  /-- EC_REL (R209): Release storing or adding to a sync word after covered writes are performed. -/
  | ecRel (c : Cmd)
  /-- EC_BIND (R210): Binds a region to a sync object. -/
  | ecBind (c : Cmd)
  /-- EC_UNBIND (R210): Removes a live binding of exactly this base and length. -/
  | ecUnbind (c : Cmd)
  /-- EC_BAR (R212): Arrives at a group barrier episode. -/
  | ecBar (c : Cmd)
  /-- EC_COLL (R213): Arrives at a collective sum, min, max, prefix or broadcast. -/
  | ecColl (c : Cmd)
  /-- EC_PREF (R200): Prefetches device memory into the memory-side cache. -/
  | ecPref (c : Cmd)
  /-- EC_STAMPW (R200): Waits for its closure to be performed and writes a sequence stamp. -/
  | ecStampw (c : Cmd)
  /-- EC_FENCE_E (R108): Engine fence making its closure's writes performed for a scope. -/
  | ecFenceE (c : Cmd)
  /-- ECX_WLD (R220): Fills the shadow latches of a rectangle from one plane slot. -/
  | ecxWld (c : Cmd)
  /-- ECX_MX (R227): Matrix macro streaming activations through the active latches into accumulator lines. -/
  | ecxMx (c : Cmd)
  /-- ECX_MXS (R230): Swaps latches then runs as ecx.mx. -/
  | ecxMxs (c : Cmd)
  /-- ECX_MXSEL (R234): Macro whose weights come from KV pages named by a selection list. -/
  | ecxMxsel (c : Cmd)
  /-- ECX_SWAP (R222): Exchanges active and shadow latches of every tile. -/
  | ecxSwap (c : Cmd)
  /-- ECX_CBT (R233): Loads entries of the die's cb2 or cb3 codebook table. -/
  | ecxCbt (c : Cmd)
  /-- ECX_KVAPP (R250): Appends tokens to a KV sequence, quantising, signing and bucketing them, then releases vlen. -/
  | ecxKvapp (c : Cmd)
  /-- ECX_KVSEL (R254): Selects tokens from hashed buckets into a selection list. -/
  | ecxKvsel (c : Cmd)
  /-- ECX_KVTRUNC (R257): Truncates a KV sequence, unreferencing pages and bumping the epoch. -/
  | ecxKvtrunc (c : Cmd)
  /-- ECX_KVFORK (R258): Forks a child sequence sharing a parent's prefix pages. -/
  | ecxKvfork (c : Cmd)
  /-- ECX_SIG (R247): Signs query vectors under a stencil slot's projection state. -/
  | ecxSig (c : Cmd)
  /-- ECX_SIGLD (R246): Loads or empties a stencil slot's projection state in every stencil unit. -/
  | ecxSigld (c : Cmd)
  /-- ECX_BU_LOAD (R266): Installs a trowel program in all 64 units of the channel. -/
  | ecxBuLoad (c : Cmd)
  /-- ECX_BU_MODE (R270): Enters or leaves broadcast compute mode for an ASID. -/
  | ecxBuMode (c : Cmd)
  /-- ECX_BU_DRIVE (R268): Drives a step list of column accesses through the channel's trowel units. -/
  | ecxBuDrive (c : Cmd)
  /-- ECX_CHK (R273): Writes page hashes of device pages. -/
  | ecxChk (c : Cmd)
  /-- TW_NOP (R263): Trowel no-operation taking an idle step. -/
  | twNop
  /-- TW_LD (R263): Loads the step's burst into rd. -/
  | twLd (rd : BitVec 5)
  /-- TW_ST (R263): Writes ra to the step's burst. -/
  | twSt (ra : BitVec 5)
  /-- TW_ADD_I32 (R263): Lane-wise 32-bit add. -/
  | twAddI32 (rd ra rb : BitVec 5)
  /-- TW_SUB_I32 (R263): Lane-wise 32-bit subtract. -/
  | twSubI32 (rd ra rb : BitVec 5)
  /-- TW_MUL_I32 (R263): Lane-wise 32-bit multiply. -/
  | twMulI32 (rd ra rb : BitVec 5)
  /-- TW_ADD_F32 (R263): Lane-wise f32 add by rne. -/
  | twAddF32 (rd ra rb : BitVec 5)
  /-- TW_SUB_F32 (R263): Lane-wise f32 subtract by rne. -/
  | twSubF32 (rd ra rb : BitVec 5)
  /-- TW_MUL_F32 (R263): Lane-wise f32 multiply by rne. -/
  | twMulF32 (rd ra rb : BitVec 5)
  /-- TW_FMA_F32 (R263): Lane-wise fused multiply-add, one rounding. -/
  | twFmaF32 (rd ra rb rc : BitVec 5)
  /-- TW_MIN (R263): Lane-wise minimum, i32 or f32 by fn[0]. -/
  | twMin (rd ra rb : BitVec 5) (f : Bool)
  /-- TW_MAX (R263): Lane-wise maximum, i32 or f32 by fn[0]. -/
  | twMax (rd ra rb : BitVec 5) (f : Bool)
  /-- TW_AND (R263): Lane-wise and. -/
  | twAnd (rd ra rb : BitVec 5)
  /-- TW_OR (R263): Lane-wise or. -/
  | twOr (rd ra rb : BitVec 5)
  /-- TW_XOR (R263): Lane-wise xor. -/
  | twXor (rd ra rb : BitVec 5)
  /-- TW_SHL_REG (R263): Shift left by each lane of rb. -/
  | twShlReg (rd ra rb : BitVec 5)
  /-- TW_SHL_IMM (R263): Shift left by an immediate amount. -/
  | twShlImm (rd ra : BitVec 5) (s : BitVec 5)
  /-- TW_SHR_REG (R263): Logical shift right by each lane of rb. -/
  | twShrReg (rd ra rb : BitVec 5)
  /-- TW_SHR_IMM (R263): Logical shift right by an immediate amount. -/
  | twShrImm (rd ra : BitVec 5) (s : BitVec 5)
  /-- TW_SRA_REG (R263): Arithmetic shift right by each lane of rb. -/
  | twSraReg (rd ra rb : BitVec 5)
  /-- TW_SRA_IMM (R263): Arithmetic shift right by an immediate amount. -/
  | twSraImm (rd ra : BitVec 5) (s : BitVec 5)
  /-- TW_CMP (R265): Compares lanes and combines the result into msk. -/
  | twCmp (ra rb : BitVec 5) (m : BitVec 2) (c : BitVec 3)
  /-- TW_SEL (R263): Lane-wise msk ? a : b. -/
  | twSel (rd ra rb : BitVec 5)
  /-- TW_HMIX (R263): Mixes each 64-bit pair of a xor b by mix64. -/
  | twHmix (rd ra rb : BitVec 5)
  /-- TW_LOOP (R264): Opens the outer loop with count n. -/
  | twLoop (n : BitVec 16)
  /-- TW_LOOPX (R264): Opens the inner loop with count n. -/
  | twLoopx (n : BitVec 16)
  /-- TW_ENDL (R264): Closes the innermost loop without taking a step. -/
  | twEndl
  /-- TW_HALT (R264): Halts the unit without taking a step. -/
  | twHalt
  /-- RESET_N_ASSERT (R395): Assertion of RESET_N, or of PERST_N which acts as RESET_N, puts the package into reset, losing every state except the flash repair log. -/
  | resetNAssert
  /-- MEMORY_SIDE_CACHE_FILL_LANDS (R117): A pending fill of a memory-side cache line from the capacity tier lands, never overwriting bytes that a write has already written. -/
  | memorySideCacheFillLands (line : Nat)
  /-- EDGE_PORT_TRAINED (R377): An enabled package-edge port finishes training and its EDGE_STAT up bit becomes 1. -/
  | edgePortTrained (port : Nat)
  /-- SA_ADD (R143): Adds A and B modulo 2^64. -/
  | saAdd
  /-- SA_SUB (R143): Subtracts B from A modulo 2^64. -/
  | saSub
  /-- SA_AND (R143): Bitwise and of A and B. -/
  | saAnd
  /-- SA_OR (R143): Bitwise or of A and B. -/
  | saOr
  /-- SA_XOR (R143): Bitwise xor of A and B. -/
  | saXor
  /-- SA_ANDN (R143): A and not B. -/
  | saAndn
  /-- SA_SHL (R143): A shifted left by B[5:0]. -/
  | saShl
  /-- SA_SHR (R143): A shifted right logically by B[5:0]. -/
  | saShr
  /-- SA_SRA (R143): A shifted right arithmetically by B[5:0]. -/
  | saSra
  /-- SA_ROL (R143): A rotated left by B[5:0]. -/
  | saRol
  /-- SA_MIN_I (R143): Signed minimum of A and B. -/
  | saMinI
  /-- SA_MAX_I (R143): Signed maximum of A and B. -/
  | saMaxI
  /-- SA_MIN_N (R143): Unsigned minimum of A and B. -/
  | saMinN
  /-- SA_MAX_N (R143): Unsigned maximum of A and B. -/
  | saMaxN
  /-- SA_EQ (R143): 1 if A equals B, else 0. -/
  | saEq
  /-- SA_NE (R143): 1 if A differs from B, else 0. -/
  | saNe
  /-- SA_LT_I (R143): 1 if A < B signed. -/
  | saLtI
  /-- SA_LT_N (R143): 1 if A < B unsigned. -/
  | saLtN
  /-- SA_LE_I (R143): 1 if A <= B signed. -/
  | saLeI
  /-- SA_LE_N (R143): 1 if A <= B unsigned. -/
  | saLeN
  /-- SA_SEL (R143): C != 0 ? A : B. -/
  | saSel
  /-- SA_PASS (R143): Delivers B. -/
  | saPass
  /-- SA_SXT (R143): B sign-extended from its low A[6:0] bits. -/
  | saSxt
  /-- SA_ZXT (R143): B zero-extended from its low A[6:0] bits. -/
  | saZxt
  /-- SA_CLZ (R143): Count of leading zero bits of B. -/
  | saClz
  /-- SA_CTZ (R143): Count of trailing zero bits of B. -/
  | saCtz
  /-- SA_POPC (R143): Count of one bits of B. -/
  | saPopc
  /-- SA_BREV (R143): B with its 64 bits reversed. -/
  | saBrev
  /-- SA_ADDSH (R143): A + (B << C[5:0]) modulo 2^64. -/
  | saAddsh
  /-- SA_BFX (R143): Extracts the bit field of A that B describes. -/
  | saBfx
  /-- SA_BFI (R143): Inserts D's low bits into the field of A that B describes. -/
  | saBfi
  /-- SM_MUL (R144): Low 64 bits of A times B. -/
  | smMul
  /-- SM_MULH_I (R144): High 64 bits of the signed 128-bit product. -/
  | smMulhI
  /-- SM_MULH_N (R144): High 64 bits of the unsigned 128-bit product. -/
  | smMulhN
  /-- SM_MAD (R144): Low 64 bits of A times B plus C. -/
  | smMad
  /-- SM_MULW_I (R144): Signed 128-bit product into sm.r and sm.h. -/
  | smMulwI
  /-- SM_MULW_N (R144): Unsigned 128-bit product into sm.r and sm.h. -/
  | smMulwN
  /-- SM_DIV_I (R144): Signed quotient truncated toward zero, latency 18. -/
  | smDivI
  /-- SM_DIV_N (R144): Unsigned quotient, latency 18. -/
  | smDivN
  /-- SM_REM_I (R144): Signed remainder with the sign of A. -/
  | smRemI
  /-- SM_REM_N (R144): Unsigned remainder. -/
  | smRemN
  /-- BR_JMP (R147): Redirects fetch to B at n + 3. -/
  | brJmp
  /-- BR_CALL (R147): Writes the link into s31 at n + 1 and redirects to B at n + 3. -/
  | brCall
  /-- BR_RET (R147): Redirects to s31 at n + 3. -/
  | brRet
  /-- BR_BRZ (R147): Redirects to B if A = 0. -/
  | brBrz
  /-- BR_BRNZ (R147): Redirects to B if A != 0. -/
  | brBrnz
  /-- BR_LOOP (R148): Modulo-scheduled loop close: counts c.lc, shifts stage predicates, rotates c.rrb and branches. -/
  | brLoop
  /-- BR_LOOPX (R148): Counts down c.lcx and branches while it was nonzero. -/
  | brLoopx
  /-- BR_SETLC (R148): Sets c.lc and the stage predicates p4 = 1, p5 to p7 = 0. -/
  | brSetlc
  /-- BR_SETLCX (R148): Sets c.lcx. -/
  | brSetlcx
  /-- BR_ROT (R148): Shifts stage predicates and decrements c.rrb. -/
  | brRot
  /-- BR_END (R149): Begins the part's drain at n + 3. -/
  | brEnd
  /-- BR_YIELD (R149): Makes the context ready but not running at n + 3. -/
  | brYield
  /-- BR_TRAP (R150): Raises the user trap at n + 3, setting c.tpc and c.tinfo and fetching from c.tvec. -/
  | brTrap
  /-- BR_RETT (R147): Redirects to c.tpc at n + 3. -/
  | brRett
  /-- BR_SLEEP (R149): Puts the context to sleep until device time B. -/
  | brSleep
  /-- LS_LD_B (R151): Loads one byte, zero-extended. -/
  | lsLdB
  /-- LS_LD_H (R151): Loads two bytes, zero-extended. -/
  | lsLdH
  /-- LS_LD_W (R151): Loads a 32-bit word, zero-extended. -/
  | lsLdW
  /-- LS_LD_D (R151): Loads a 64-bit doubleword. -/
  | lsLdD
  /-- LS_LDF_W (R151): Loads a word once it is full, blocking until then. -/
  | lsLdfW
  /-- LS_LDC_W (R151): Loads a full word and sets it empty. -/
  | lsLdcW
  /-- LS_LDF_D (R151): Loads a doubleword once both words are full. -/
  | lsLdfD
  /-- LS_LDC_D (R151): Loads two full words and sets them empty. -/
  | lsLdcD
  /-- LS_ST_B (R151): Stores a byte and sets its word full. -/
  | lsStB
  /-- LS_ST_H (R151): Stores two bytes and sets the word full. -/
  | lsStH
  /-- LS_ST_W (R151): Stores a word and sets it full. -/
  | lsStW
  /-- LS_ST_D (R151): Stores a doubleword and sets both words full. -/
  | lsStD
  /-- LS_STP_W (R151): Stores a word once it is empty and sets it full. -/
  | lsStpW
  /-- LS_STP_D (R151): Stores a doubleword once both words are empty and sets them full. -/
  | lsStpD
  /-- LS_STN_W (R151): Stores a word leaving its tag unchanged. -/
  | lsStnW
  /-- LS_LD_V (R151): Loads 128 consecutive words into h. -/
  | lsLdV
  /-- LS_LDF_V (R151): Loads a vector once all 128 words are full. -/
  | lsLdfV
  /-- LS_LDC_V (R151): Loads a full vector and sets its words empty. -/
  | lsLdcV
  /-- LS_ST_V (R151): Stores 128 words and sets them full. -/
  | lsStV
  /-- LS_STP_V (R151): Stores a vector once all words are empty and sets them full. -/
  | lsStpV
  /-- LS_STN_V (R151): Stores a vector leaving tags unchanged. -/
  | lsStnV
  /-- LS_LD_VS (R151): Loads a vector through the swizzled view. -/
  | lsLdVs
  /-- LS_ST_VS (R151): Stores a vector through the swizzled view. -/
  | lsStVs
  /-- LS_LD_VB (R151): Loads one word and broadcasts it to every lane. -/
  | lsLdVb
  /-- LS_LD_VG (R154): Gathers one word per active lane. -/
  | lsLdVg
  /-- LS_ST_VG (R154): Scatters a vector register's lanes to per-lane addresses. -/
  | lsStVg
  /-- LS_LD_TG (R155): Reads the 32 tags of a tag block. -/
  | lsLdTg
  /-- LS_ST_TG (R155): Writes the 32 tags of a tag block. -/
  | lsStTg
  /-- LS_LD_ACC (R151): Loads an accumulator line into h. -/
  | lsLdAcc
  /-- LS_LDF_ACC (R151): Loads an accumulator line once its full bit is set. -/
  | lsLdfAcc
  /-- LS_ST_ACC (R156): Writes an accumulator line by overwrite, f32 add, i32 add or f32 max. -/
  | lsStAcc
  /-- LS_LD_SC (R157): Loads 8 bytes into c.sc. -/
  | lsLdSc
  /-- VF_ADD_F32 (R165): Lane-wise f32 add. -/
  | vfAddF32
  /-- VF_SUB_F32 (R165): Lane-wise f32 subtract. -/
  | vfSubF32
  /-- VF_MUL_F32 (R165): Lane-wise f32 multiply. -/
  | vfMulF32
  /-- VF_FMA_F32 (R165): Lane-wise fused a*b+c rounded once. -/
  | vfFmaF32
  /-- VF_FMS (R165): Lane-wise fused a*b-c. -/
  | vfFms
  /-- VF_FNMA (R165): Lane-wise fused -(a*b)+c. -/
  | vfFnma
  /-- VF_MIN_F32 (R165): Lane-wise f32 minimum. -/
  | vfMinF32
  /-- VF_MAX_F32 (R165): Lane-wise f32 maximum. -/
  | vfMaxF32
  /-- VF_ABS_F32 (R165): Clears each lane's sign bit. -/
  | vfAbsF32
  /-- VF_NEG_F32 (R165): Inverts each lane's sign bit. -/
  | vfNegF32
  /-- VF_SCL_F32 (R165): Scales a lane by 2^k. -/
  | vfSclF32
  /-- VF_ADD_BF16 (R165): Element-wise bf16 add. -/
  | vfAddBf16
  /-- VF_MUL_BF16 (R165): Element-wise bf16 multiply. -/
  | vfMulBf16
  /-- VF_FMA_BF16 (R165): Element-wise bf16 fused multiply-add. -/
  | vfFmaBf16
  /-- VF_DOT_BF16 (R165): Pairwise bf16 dot product plus f32 lane, rounded once. -/
  | vfDotBf16
  /-- VF_ADD_F16 (R165): Element-wise f16 add. -/
  | vfAddF16
  /-- VF_MUL_F16 (R165): Element-wise f16 multiply. -/
  | vfMulF16
  /-- VF_FMA_F16 (R165): Element-wise f16 fused multiply-add. -/
  | vfFmaF16
  /-- VF_DOT_F16 (R165): Pairwise f16 dot product plus f32 lane. -/
  | vfDotF16
  /-- VF_CMP_EQ_F32 (R165): Lane mask of a = b. -/
  | vfCmpEqF32
  /-- VF_CMP_LT_F32 (R165): Lane mask of a < b. -/
  | vfCmpLtF32
  /-- VF_CMP_LE_F32 (R165): Lane mask of a <= b. -/
  | vfCmpLeF32
  /-- VF_CMP_UN_F32 (R165): Lane mask of either operand NaN. -/
  | vfCmpUnF32
  /-- VF_AMX (R67): Passes B unchanged and updates c.amax with its largest magnitude. -/
  | vfAmx
  /-- VF_CLS (R166): Delivers one class bit per lane. -/
  | vfCls
  /-- VI_ADD_I32 (R168): Lane-wise 32-bit add. -/
  | viAddI32
  /-- VI_SUB_I32 (R168): Lane-wise 32-bit subtract. -/
  | viSubI32
  /-- VI_MUL_I32 (R168): Lane-wise 32-bit multiply, latency 4. -/
  | viMulI32
  /-- VI_AND (R168): Lane-wise and. -/
  | viAnd
  /-- VI_OR (R168): Lane-wise or. -/
  | viOr
  /-- VI_XOR (R168): Lane-wise xor. -/
  | viXor
  /-- VI_ANDN (R168): Lane-wise a and not b. -/
  | viAndn
  /-- VI_SHL (R168): Lane-wise shift left by b[4:0]. -/
  | viShl
  /-- VI_SHR (R168): Lane-wise logical shift right. -/
  | viShr
  /-- VI_SRA (R168): Lane-wise arithmetic shift right. -/
  | viSra
  /-- VI_MIN_I32 (R168): Lane-wise signed minimum. -/
  | viMinI32
  /-- VI_MAX_I32 (R168): Lane-wise signed maximum. -/
  | viMaxI32
  /-- VI_MIN_N32 (R168): Lane-wise unsigned minimum. -/
  | viMinN32
  /-- VI_MAX_N32 (R168): Lane-wise unsigned maximum. -/
  | viMaxN32
  /-- VI_EQ_I32 (R168): Lane mask of a = b. -/
  | viEqI32
  /-- VI_LT_I32 (R168): Lane mask of a < b signed. -/
  | viLtI32
  /-- VI_LT_N32 (R168): Lane mask of a < b unsigned. -/
  | viLtN32
  /-- VI_SEL (R168): Lane-wise c ? a : b. -/
  | viSel
  /-- VI_BC (R168): Broadcasts one lane within each cluster. -/
  | viBc
  /-- VI_IOTA (R168): Lane i := b[0] + i. -/
  | viIota
  /-- VI_ADD_I16 (R168): Half-lane 16-bit add. -/
  | viAddI16
  /-- VI_SUB_I16 (R168): Half-lane 16-bit subtract. -/
  | viSubI16
  /-- VI_ADDS_I8 (R168): Byte-wise saturating signed add. -/
  | viAddsI8
  /-- VI_MAND (R168): Mask and. -/
  | viMand
  /-- VI_MOR (R168): Mask or. -/
  | viMor
  /-- VI_MXOR (R168): Mask xor. -/
  | viMxor
  /-- VI_MNOT (R168): Mask not. -/
  | viMnot
  /-- VI_MPOP (R168): Counts nonzero lanes into every lane. -/
  | viMpop
  /-- VI_MFIRST (R168): Lowest nonzero lane index, or 128. -/
  | viMfirst
  /-- VI_MLAST (R168): Highest nonzero lane index, or 128. -/
  | viMlast
  /-- VI_POPC_I32 (R168): Lane-wise population count. -/
  | viPopcI32
  /-- VI_CLZ_I32 (R168): Lane-wise leading-zero count. -/
  | viClzI32
  /-- VC_CVT (R171): Converts elements from FA to FB by the element map and header rounding. -/
  | vcCvt
  /-- VC_CVTW_LO (R170): Widening conversion of the low window. -/
  | vcCvtwLo
  /-- VC_CVTW_HI (R170): Widening conversion of the high window. -/
  | vcCvtwHi
  /-- VC_PACK (R171): Converts two sources into one narrower result. -/
  | vcPack
  /-- VC_F2I (R171): Converts floats to i8 or i32. -/
  | vcF2i
  /-- VC_I2F (R171): Converts integers to a float format. -/
  | vcI2f
  /-- VC_QMX (R172): Quantises to a block format, delivering scales in h. -/
  | vcQmx
  /-- VC_DQMX (R173): Expands a window of a block format using c.sc. -/
  | vcDqmx
  /-- VC_CBD (R174): Decodes codebook indices through the die's table. -/
  | vcCbd
  /-- VC_RINT (R171): Rounds each element to an integral value in FA. -/
  | vcRint
  /-- VC_CVTA (R171): Converts as cvt and updates c.amax over the sources. -/
  | vcCvta
  /-- VC_SETSC (R175): Writes c.sc from lanes 0 and 1. -/
  | vcSetsc
  /-- VC_SRSEED (R175): Writes c.srs from lanes 0 and 1. -/
  | vcSrseed
  /-- SF_EXP2 (R177): Correctly rounded 2^x. -/
  | sfExp2
  /-- SF_LOG2 (R177): Correctly rounded log2 x. -/
  | sfLog2
  /-- SF_RCP (R177): Correctly rounded 1/x. -/
  | sfRcp
  /-- SF_RSQRT (R177): Correctly rounded 1/sqrt x. -/
  | sfRsqrt
  /-- SF_SQRT (R177): Correctly rounded sqrt x. -/
  | sfSqrt
  /-- SF_EXP (R177): Correctly rounded e^x. -/
  | sfExp
  /-- SF_TANH (R177): Correctly rounded tanh x. -/
  | sfTanh
  /-- SF_SIGM (R177): Correctly rounded logistic sigmoid. -/
  | sfSigm
  /-- SF_ERF (R177): Correctly rounded erf x. -/
  | sfErf
  /-- SF_SINPI (R177): Correctly rounded sin(pi x). -/
  | sfSinpi
  /-- SF_COSPI (R177): Correctly rounded cos(pi x). -/
  | sfCospi
  /-- SF_SILU (R177): Correctly rounded x/(1+e^-x). -/
  | sfSilu
  /-- XC_RSUM_F32 (R179): Fixed-tree f32 sum of all lanes into every lane. -/
  | xcRsumF32
  /-- XC_RMAX_F32 (R179): f32 maximum of all lanes. -/
  | xcRmaxF32
  /-- XC_RMIN_F32 (R179): f32 minimum of all lanes. -/
  | xcRminF32
  /-- XC_RSUM_I32 (R179): i32 sum of all lanes. -/
  | xcRsumI32
  /-- XC_RMAX_I32 (R179): Signed maximum of all lanes. -/
  | xcRmaxI32
  /-- XC_RMIN_I32 (R179): Signed minimum of all lanes. -/
  | xcRminI32
  /-- XC_SCAN_F32 (R179): Inclusive f32 prefix sum by the fixed tree. -/
  | xcScanF32
  /-- XC_SCAN_I32 (R179): Inclusive i32 prefix sum. -/
  | xcScanI32
  /-- XC_PERM (R180): Permutes lanes by the indices in A. -/
  | xcPerm
  /-- XC_ROTL (R180): Rotates lanes left by a[0][6:0]. -/
  | xcRotl
  /-- XC_BCL (R180): Broadcasts one lane to all lanes. -/
  | xcBcl
  /-- XC_CMPR (R180): Compresses selected lanes to the low lanes. -/
  | xcCmpr
  /-- XC_EXPD (R180): Expands low lanes into the selected lanes. -/
  | xcExpd
  /-- XC_SORT (R182): Stable sort of 128 n32 keys with payloads into h. -/
  | xcSort
  /-- XC_SEG (R181): Marks segment heads of sorted keys. -/
  | xcSeg
  /-- XC_SEGSUM_F32 (R181): Segmented f32 prefix sums by segment heads in A. -/
  | xcSegsumF32
  /-- XC_CPY (R180): Copies whole clusters by index. -/
  | xcCpy
  /-- EC_WAIT (R189): Blocks until named tokens complete; traps on an unacknowledged fault. -/
  | ecWait
  /-- EC_TEST (R190): Reads a token's completion and status without blocking. -/
  | ecTest
  /-- EC_TMPL (R197): Loads a copy template from the scratchpad. -/
  | ecTmpl
  /-- CK_S (R159): Compares two scalars, trapping on mismatch. -/
  | ckS
  /-- CK_V (R159): Compares two vectors, trapping on mismatch. -/
  | ckV
  /-- CK_VM (R159): Compares masked vector lanes. -/
  | ckVm
  /-- CK_G (R160): Vector compare that suppresses the landing bundle's stores and branches on mismatch. -/
  | ckG
  /-- CK_SG (R160): Scalar compare that suppresses the landing bundle's stores and branches on mismatch. -/
  | ckSg
  /-- SYS_FENCE (R107): Orders the context's accesses and performs its pending stores at a scope. -/
  | sysFence
  /-- SYS_CRD (R312): Reads a context or core control register. -/
  | sysCrd
  /-- SYS_CWR (R312): Writes a register of a frozen or unbound context, or a core control register. -/
  | sysCwr
  /-- SYS_MLD (R314): Asynchronously reads a device register into a sys record. -/
  | sysMld
  /-- SYS_MST (R314): Asynchronously writes a device register. -/
  | sysMst
  /-- SYS_SNAP (R318): Writes an image of a frozen context, evicting it when asked. -/
  | sysSnap
  /-- SYS_SNAPLD (R322): Restores a context image into an unbound context. -/
  | sysSnapld
  /-- SYS_FREEZE (R315): Freezes a target context or its engine queue. -/
  | sysFreeze
  /-- SYS_THAW (R315): Thaws a context, its engine queue, or every context of a node. -/
  | sysThaw
  /-- SYS_TLBI (R317): Invalidates translations of all, one ASID or one page. -/
  | sysTlbi
  /-- SYS_HALT (R316): Freezes the issuing context or its whole core at n + 1. -/
  | sysHalt
  /-- SYS_GRP (R317): Writes a group-table entry. -/
  | sysGrp
  /-- SYS_LAUNCH (R317): Posts a launch record to a firmware queue. -/
  | sysLaunch
  deriving DecidableEq, Repr, Inhabited

end Sys2Proof
end

