-- ==== Sys2Proof/Config.lean ====
section
/-! DEFINITION. What an implementation fixes and what the spec leaves open. Every constant here is opaque: it has no body
that a proof could use, so a statement proved of the model holds whatever the constant is. -/

namespace Sys2Proof.Config

/-! ## Free values, drawn with a counter that the state holds (log 2) -/

/-- A number the spec leaves open, for each draw. -/
opaque freeNat : Nat → Nat
/-- A choice the spec leaves open, for each draw. -/
opaque freeBool : Nat → Bool
/-- A byte the spec leaves open, for each draw. -/
opaque freeByte : Nat → Byte

/-! ## What moves the machine along when nothing is scheduled (log 1) -/

/-- The event that happens next, when `Env.schedule` names none. -/
opaque freeEvent : Nat → Instr
/-- What reaches the package from outside with an event, when `Env.inputs` names nothing (log 99). -/
opaque freeInput : Nat → Option Outside
/-- Nanoseconds of device time (R7) that pass before an event. -/
opaque freeTime : Nat → Nat
/-- Clock cycles (R7) that pass before an event. -/
opaque freeClock : Nat → Nat

/-! ## What fuses, straps and sensors fix (log 13) -/

/-- Registers that the spec says come from fuses or straps: the value at a device-register address. -/
opaque fuseReg : Nat → Word
/-- The die that is the home of a line of the memory-side cache, fixed by a hash of its address (R91). -/
opaque homeDie : Nat → Nat
/-- Whether a physical core's row is harvested (R12, R26). -/
opaque harvested : Nat → Bool
/-- What a sensor register reads at a draw. -/
opaque telemetry : Nat → Nat → Word

end Sys2Proof.Config
end

