-- ==== Sys2Proof/Machine/Numbers.lean ====
section
/-! DEFINITION. Number formats and exact arithmetic (R48 to R64): a value is decoded to an exact dyadic number, computed on
exactly, and rounded once into its target format. -/

namespace Sys2Proof.Machine

/-- An exact value: (-1)^neg * m * 2^e, an infinity, or NaN (R50, R51: a NaN carries nothing). -/
inductive FVal where
  | nan
  | inf (neg : Bool)
  | fin (neg : Bool) (m : Nat) (e : Int)
  deriving DecidableEq, Repr, Inhabited

/-- A floating format: exponent and mantissa widths, bias, whether the all-ones exponent holds infinities, and whether the
format has NaN (R48). -/
structure Fmt where
  ebits : Nat
  mbits : Nat
  bias  : Int
  inf   : Bool
  nan   : Bool
  deriving DecidableEq, Repr, Inhabited

def f32 : Fmt := ⟨8, 23, 127, true, true⟩
def bf16 : Fmt := ⟨8, 7, 127, true, true⟩
def f16 : Fmt := ⟨5, 10, 15, true, true⟩

/-- The floating element format of a code of R48; none for the integer and codebook codes. -/
def fmtOf : Nat → Option Fmt
  | 0 => some f32
  | 1 => some bf16
  | 2 => some f16
  | 3 => some ⟨4, 3, 7, false, true⟩
  | 4 => some ⟨5, 2, 15, true, true⟩
  | 5 => some ⟨3, 4, 3, false, true⟩
  | 6 => some ⟨4, 3, 7, false, true⟩
  | 7 => some ⟨5, 2, 15, true, true⟩
  | 8 => some ⟨3, 2, 3, false, false⟩
  | 9 => some ⟨2, 3, 1, false, false⟩
  | 10 => some ⟨2, 1, 1, false, false⟩
  | _ => none

/-- The element width of a format code (R48); cb2 and cb3 count the bits of one index. -/
def fmtWidth : Nat → Nat
  | 0 => 32 | 1 => 16 | 2 => 16 | 3 => 8 | 4 => 8 | 5 => 8 | 6 => 8 | 7 => 8 | 8 => 6 | 9 => 6 | 10 => 4 | 11 => 8
  | 12 => 4 | 13 => 16 | 14 => 24 | 15 => 32 | _ => 0

namespace Fmt
def width (f : Fmt) : Nat := 1 + f.ebits + f.mbits
/-- Exponent of the smallest normal magnitude. -/
def emin (f : Fmt) : Int := 1 - f.bias
/-- The largest finite encoding without its sign (R48). -/
def maxBits (f : Fmt) : Nat :=
  if f.inf then (2 ^ f.ebits - 1) * 2 ^ f.mbits - 1
  else if f.nan then 2 ^ (f.ebits + f.mbits) - 2
  else 2 ^ (f.ebits + f.mbits) - 1
/-- The canonical NaN (R51); only formats with NaN have one. -/
def nanBits (f : Fmt) : Nat :=
  if f.inf then (2 ^ f.ebits - 1) * 2 ^ f.mbits + 2 ^ (f.mbits - 1) else 2 ^ (f.ebits + f.mbits) - 1
def signBit (f : Fmt) (neg : Bool) : Nat := if neg then 2 ^ (f.ebits + f.mbits) else 0
def infBits (f : Fmt) (neg : Bool) : Nat := f.signBit neg + (2 ^ f.ebits - 1) * 2 ^ f.mbits
def maxOf (f : Fmt) (neg : Bool) : Nat := f.signBit neg + f.maxBits

/-- The value of an encoding (R50). -/
def decode (f : Fmt) (x : Nat) : FVal :=
  let neg := x / 2 ^ (f.ebits + f.mbits) % 2 = 1
  let e := x / 2 ^ f.mbits % 2 ^ f.ebits
  let m := x % 2 ^ f.mbits
  if e = 2 ^ f.ebits - 1 ∧ f.inf then if m = 0 then .inf neg else .nan
  else if e = 2 ^ f.ebits - 1 ∧ f.nan ∧ m = 2 ^ f.mbits - 1 then .nan
  else if e = 0 then .fin neg m (1 - f.bias - f.mbits)
  else .fin neg (2 ^ f.mbits + m) ((e : Int) - f.bias - f.mbits)

/-- The encoding of k * 2^u, a value on the grid of the format; u is the exponent of its last place. -/
def pack (f : Fmt) (neg : Bool) (k : Nat) (u : Int) : Nat :=
  if k = 0 then f.signBit neg
  else
    let l := (Nat.log2 k : Int) + u
    if l < f.emin then f.signBit neg + k
    else
      let sig := if Nat.log2 k ≤ f.mbits then k * 2 ^ (f.mbits - Nat.log2 k) else k / 2 ^ (Nat.log2 k - f.mbits)
      f.signBit neg + (l + f.bias).toNat * 2 ^ f.mbits + (sig - 2 ^ f.mbits)
end Fmt

/-! ## Flags (R65) -/

def fNV : Nat := 1
def fDZ : Nat := 2
def fOF : Nat := 4
def fUF : Nat := 8
def fNX : Nat := 16
def fSV : Nat := 32
def fNS : Nat := 64

/-! ## Rounding (R59) -/

/-- How a trigger rounds and saturates: RND, SAT, and the random bits of an element (R58, R62). -/
structure Mode where
  rnd : Nat := 0
  sat : Bool := false
  rb  : Nat := 0
  deriving DecidableEq, Repr, Inhabited

/-- A magnitude rounded to the grid step 2^u: the multiple of the step, whether anything was lost, and whether the choice
was the value away from zero. -/
structure Grid where
  k  : Nat
  inexact : Bool
  up : Bool
  deriving DecidableEq, Repr, Inhabited

/-- The rounding of m * 2^e to the step 2^u (R59). -/
def roundGrid (md : Mode) (neg : Bool) (m : Nat) (e u : Int) : Grid :=
  if u ≤ e then ⟨m * 2 ^ (e - u).toNat, false, false⟩
  else
    let d := 2 ^ (u - e).toNat
    let lo := m / d
    let rem := m % d
    if rem = 0 then ⟨lo, false, false⟩
    else
      let up : Bool := match md.rnd with
        | 0 => decide (2 * rem > d) || (decide (2 * rem = d) && decide (lo % 2 = 1))
        | 1 => false
        | 2 => neg
        | 3 => !neg
        | 4 => decide (2 * rem ≥ d)
        | 5 => decide (lo % 2 = 0)
        | _ => decide (md.rb < rem * 65536 / d)
      ⟨if up then lo + 1 else lo, true, up⟩

/-- A delivered encoding and its flags. -/
structure Rounded where
  bits  : Nat
  flags : Nat
  deriving DecidableEq, Repr, Inhabited

/-- The result of an overflow whose sign is `neg` (R60). Under sr a value that lies exactly on the grid beyond the largest finite one makes
neither lo nor hi chosen: the model takes the row of lo (DESIGN CHOICE, log 103). -/
def overflowed (f : Fmt) (md : Mode) (neg up : Bool) : Rounded :=
  let toMax : Bool := match md.rnd with
    | 0 => false
    | 1 => true
    | 2 => !neg
    | 3 => neg
    | 4 => false
    | 5 => true
    | _ => !up
  if md.sat then ⟨f.maxOf neg, fOF + fNX + fSV⟩
  else if !f.inf && !f.nan then ⟨f.maxOf neg, fOF + fNX + fSV⟩
  else if toMax then ⟨f.maxOf neg, fOF + fNX⟩
  else if f.inf then ⟨f.infBits neg, fOF + fNX⟩
  else ⟨f.nanBits, fOF + fNX⟩

/-- The one rounding of a value into a floating format (R59, R60) (log 27). -/
def roundTo (f : Fmt) (md : Mode) : FVal → Rounded
  | .nan => if f.nan then ⟨f.nanBits, 0⟩ else ⟨0, fNV⟩
  | .inf neg =>
    if md.sat then ⟨f.maxOf neg, fSV⟩
    else if f.inf then ⟨f.infBits neg, 0⟩
    else if f.nan then ⟨f.nanBits, 0⟩
    else ⟨f.maxOf neg, fSV⟩
  | .fin neg m e =>
    if m = 0 then ⟨f.signBit neg, 0⟩
    else
      let u := max ((Nat.log2 m : Int) + e) f.emin - f.mbits
      let g := roundGrid md neg m e u
      match f.decode f.maxBits with
      | .fin _ mm me =>
        let beyond : Bool := if me ≤ u then decide (g.k * 2 ^ (u - me).toNat > mm) else decide (g.k > mm * 2 ^ (me - u).toNat)
        if beyond then overflowed f md neg g.up
        else
          let small := g.k ≠ 0 ∧ (Nat.log2 g.k : Int) + u < f.emin
          ⟨f.pack neg g.k u, if g.inexact then (if small then fUF + fNX else fNX) else 0⟩
      | _ => ⟨0, 0⟩

/-- The one rounding of a value into a two's complement integer of `w` bits (R61). Where a result out of range is clamped or reduced NX is
set only where the rounding was inexact, of which the rule says nothing (DESIGN CHOICE, log 103). -/
def roundInt (w : Nat) (md : Mode) : FVal → Rounded
  | .nan => ⟨0, fNV⟩
  | .inf neg =>
    if md.sat then ⟨if neg then 2 ^ (w - 1) else 2 ^ (w - 1) - 1, fNV + fSV⟩ else ⟨0, fNV⟩
  | .fin neg m e =>
    let g := roundGrid md neg m e 0
    let x : Int := if neg then -(g.k : Int) else g.k
    let nx := if g.inexact then fNX else 0
    let lo : Int := -(2 ^ (w - 1) : Nat)
    let hi : Int := (2 ^ (w - 1) : Nat) - 1
    if x < lo then if md.sat then ⟨wrapInt w lo, nx + fSV⟩ else ⟨wrapInt w x, nx + fNV⟩
    else if hi < x then if md.sat then ⟨wrapInt w hi, nx + fSV⟩ else ⟨wrapInt w x, nx + fNV⟩
    else ⟨wrapInt w x, nx⟩

/-- Rounding by rne, which all arithmetic but the converting triggers uses (R58). -/
def rne (f : Fmt) (x : FVal) : Rounded := roundTo f {} x

/-! ## Exact arithmetic (R64) -/

namespace FVal

def isNan : FVal → Bool
  | .nan => true
  | _ => false

def isZero : FVal → Bool
  | .fin _ m _ => m == 0
  | _ => false

def neg : FVal → FVal
  | .nan => .nan
  | .inf s => .inf !s
  | .fin s m e => .fin (!s) m e

def abs : FVal → FVal
  | .nan => .nan
  | .inf _ => .inf false
  | .fin _ m e => .fin false m e

/-- The signed integer v with value v * 2^e, for e at most the value's exponent. -/
def toInt (e : Int) : FVal → Int
  | .fin s m f => let x : Int := (m * 2 ^ (f - e).toNat : Nat); if s then -x else x
  | _ => 0

def exp : FVal → Int
  | .fin _ _ e => e
  | _ => 0

def sign : FVal → Bool
  | .fin s _ _ => s
  | .inf s => s
  | .nan => false

/-- An integer times 2^e; zero is positive. -/
def ofInt (x : Int) (e : Int) : FVal := .fin (decide (x < 0)) x.natAbs e

/-- The product, and whether it was invalid (0 * infinity). -/
def mul : FVal → FVal → FVal × Bool
  | .nan, _ => (.nan, false)
  | _, .nan => (.nan, false)
  | .inf s, .inf t => (.inf (s ^^ t), false)
  | .inf s, .fin t m _ => if m = 0 then (.nan, true) else (.inf (s ^^ t), false)
  | .fin s m _, .inf t => if m = 0 then (.nan, true) else (.inf (s ^^ t), false)
  | .fin s m e, .fin t n f => (.fin (s ^^ t) (m * n) (e + f), false)

/-- The exact sum of several values, and whether it was invalid (infinities of both signs). A zero sum is -0.0 when every
term is -0.0, else +0.0. -/
def sum (xs : List FVal) : FVal × Bool :=
  let pos := xs.contains (.inf false)
  let negs := xs.contains (.inf true)
  if pos && negs then (.nan, true)
  else if xs.any isNan then (.nan, false)
  else if pos then (.inf false, false)
  else if negs then (.inf true, false)
  else
    let e := xs.foldl (fun a x => if x.isZero then a else min a x.exp) (xs.foldl (fun a x => max a x.exp) 0)
    let t := xs.foldl (fun a x => a + (if x.isZero then 0 else x.toInt e)) 0
    if t = 0 then (.fin (xs.all fun x => x.isZero && x.sign) 0 0, false) else (ofInt t e, false)

def add (x y : FVal) : FVal × Bool := sum [x, y]

/-- a * b + c before its rounding. An invalid product counts even beside a NaN addend (R167). -/
def fma (a b c : FVal) : FVal × Bool :=
  let (p, bad) := mul a b
  let (r, bad') := add p c
  (r, bad || bad')

/-- The exact value times 2^k. -/
def scale (k : Int) : FVal → FVal
  | .fin s m e => .fin s m (e + k)
  | x => x

/-- x < y for values neither of which is NaN; -0.0 equals +0.0. -/
def lt : FVal → FVal → Bool
  | .nan, _ => false
  | _, .nan => false
  | .inf s, .inf t => s && !t
  | .inf s, .fin _ _ _ => s
  | .fin _ _ _, .inf t => !t
  | .fin s m e, .fin t n f =>
    let g := min e f
    decide (toInt g (.fin s m e) < toInt g (.fin t n f))

/-- x = y as numbers; false with a NaN. -/
def eq (x y : FVal) : Bool := !x.isNan && !y.isNan && !lt x y && !lt y x

def le (x y : FVal) : Bool := lt x y || eq x y

/-- min and max of R64: NaN if either is NaN, and -0.0 below +0.0. -/
def min2 (x y : FVal) : FVal :=
  if x.isNan || y.isNan then .nan
  else if lt x y then x else if lt y x then y else if x.sign then x else y

def max2 (x y : FVal) : FVal :=
  if x.isNan || y.isNan then .nan
  else if lt x y then y else if lt y x then x else if x.sign then y else x

end FVal

/-- Rounding of an exact result by rne, with NV where the operation was invalid (R64, R167; log 98). -/
def finish (f : Fmt) (r : FVal × Bool) : Rounded :=
  let q := rne f r.1
  ⟨q.bits, q.flags ||| (if r.2 then fNV else 0)⟩

/-! ## binary32 on lanes -/

def Lane.val (x : Lane) : FVal := f32.decode x.toNat
def laneOf (r : Rounded) : Lane := BitVec.ofNat 32 r.bits

def addF32 (a b : Lane) : Rounded := finish f32 (FVal.add (Lane.val a) (Lane.val b))
def mulF32 (a b : Lane) : Rounded := finish f32 (FVal.mul (Lane.val a) (Lane.val b))
def fmaF32 (a b c : Lane) : Rounded := finish f32 (FVal.fma (Lane.val a) (Lane.val b) (Lane.val c))
/-- The encoding of a value that is one of the operands; NaN becomes canonical. -/
def exactF32 (x : FVal) : Lane := laneOf (rne f32 x)
def minF32 (a b : Lane) : Lane := exactF32 (FVal.min2 (Lane.val a) (Lane.val b))
def maxF32 (a b : Lane) : Lane := exactF32 (FVal.max2 (Lane.val a) (Lane.val b))

/-! ## Elements of a packed string (R49) and block formats (R52 to R54) -/

/-- Element i of width w of a bit string. -/
def element (w : Nat) (x : Nat) (i : Nat) : Nat := x >>> (w * i) % 2 ^ w

/-- The value of an element of a format of R48 other than the codebooks, without its block scale. -/
def elementValue (fmt x : Nat) : FVal :=
  match fmtOf fmt with
  | some f => f.decode x
  | none => FVal.ofInt (sextNat (fmtWidth fmt) x) 0

/-- A value times its block's E8M0 scale (R52, R53). -/
def scaled (sc : Nat) (x : FVal) : FVal := if sc = 0xFF then .nan else x.scale ((sc : Int) - 127)

/-- A value rounded into any format of R48 but the codebooks. -/
def convertTo (fmt : Nat) (md : Mode) (x : FVal) : Rounded :=
  match fmtOf fmt with
  | some f => roundTo f md x
  | none => roundInt (fmtWidth fmt) md x

/-- The canonical NaN of a format, or +0 in a format without NaN. -/
def nanOf (fmt : Nat) : Nat :=
  match fmtOf fmt with
  | some f => if f.nan then f.nanBits else 0
  | none => 0

/-! ## Codebook weights (R55, R56) -/

/-- Weight j of an index whose entry is `ent`, whose seven sign bits are `signs` and whose offset is `o` sixteenths. -/
def codebookWeight (ent signs o j : Nat) : FVal :=
  let mag := (bits ent (4 * j + 3) (4 * j)) * 8 + o
  let neg := if j < 7 then signs >>> j % 2 = 1
    else ((List.range 7).foldl (fun a i => a + signs >>> i % 2) 0) % 2 = 1
  .fin neg mag (-4)

/-- Weight j of a cb2 index, its table given as a function of the entry number (R55). -/
def cb2Weight (t : Nat → Nat) (x j : Nat) : FVal :=
  codebookWeight (t (bits x 15 8)) (bits x 7 1) (4 * (x % 2)) j

/-- Weight j of a cb3 index (R56). -/
def cb3Weight (t : Nat → Nat) (x j : Nat) : FVal :=
  codebookWeight (t (bits x 23 11)) (bits x 10 4) (bits x 3 0) j

/-! ## The stochastic-rounding generator (R62) -/

/-- The last three steps of the generator's hash, which trowel units name mix64 (R263). -/
def mix64 (z : Word) : Word :=
  let z := (z ^^^ (z >>> 30)) * 0xBF58476D1CE4E5B9
  let z := (z ^^^ (z >>> 27)) * 0x94D049BB133111EB
  z ^^^ (z >>> 31)

def srsAdvance (s : Word) : Word := s + 0x9E3779B97F4A7C15

/-- The 16 random bits of element e. -/
def laneBits (s : Word) (e : Nat) : Nat :=
  (mix64 (s ^^^ (BitVec.ofNat 64 e * 0xD6E8FEB86659FD93)) >>> 48).toNat

end Sys2Proof.Machine
end

