-- ==== Sys2Proof/WellFormed.lean ====
section
/-! DEFINITION. Well-formed instructions: the terms of `Instr` that an encoding can hold. -/

namespace Sys2Proof

/-- A trowel register field names w0 to w23 (R262). -/
def wreg (r : BitVec 5) : Bool := r < 24

/-- A bundle holds eight slots (R120). -/
def Bundle.wf (b : Bundle) : Bool := b.slots.length == 8

/-- Whether an encoding can hold the instruction: trowel register fields below 24, a combination code of `cmp` other than
3 (R265), and bundles of eight slots. Steps without an encoding hold any operands. -/
def Instr.wf : Instr → Bool
  | .bundleIssue _ b => b.wf
  | .twLd rd => wreg rd
  | .twSt ra => wreg ra
  | .twAddI32 rd ra rb => wreg rd && wreg ra && wreg rb
  | .twSubI32 rd ra rb => wreg rd && wreg ra && wreg rb
  | .twMulI32 rd ra rb => wreg rd && wreg ra && wreg rb
  | .twAddF32 rd ra rb => wreg rd && wreg ra && wreg rb
  | .twSubF32 rd ra rb => wreg rd && wreg ra && wreg rb
  | .twMulF32 rd ra rb => wreg rd && wreg ra && wreg rb
  | .twFmaF32 rd ra rb rc => wreg rd && wreg ra && wreg rb && wreg rc
  | .twMin rd ra rb _ => wreg rd && wreg ra && wreg rb
  | .twMax rd ra rb _ => wreg rd && wreg ra && wreg rb
  | .twAnd rd ra rb => wreg rd && wreg ra && wreg rb
  | .twOr rd ra rb => wreg rd && wreg ra && wreg rb
  | .twXor rd ra rb => wreg rd && wreg ra && wreg rb
  | .twShlReg rd ra rb => wreg rd && wreg ra && wreg rb
  | .twShlImm rd ra _ => wreg rd && wreg ra
  | .twShrReg rd ra rb => wreg rd && wreg ra && wreg rb
  | .twShrImm rd ra _ => wreg rd && wreg ra
  | .twSraReg rd ra rb => wreg rd && wreg ra && wreg rb
  | .twSraImm rd ra _ => wreg rd && wreg ra
  | .twCmp ra rb m _ => wreg ra && wreg rb && m != 3
  | .twSel rd ra rb => wreg rd && wreg ra && wreg rb
  | .twHmix rd ra rb => wreg rd && wreg ra && wreg rb
  | _ => true

end Sys2Proof
end

