-- ==== Sys2Proof/Decode.lean ====
section
/-! DEFINITION. Decoding, total on any bits and rejecting by name: ports (R124, R126), trigger codes (R136), bundles
(R120 to R122, R133), trowel words (R262 to R265); and the encoder written from the same tables. -/

namespace Sys2Proof

/-- Why bits name no instruction, or make a bundle illegal. -/
inductive Reject where
  | kind
  | rounding
  | reservedSource
  | reservedDestination
  | readOnlyRegister
  | sameDestination
  | issueInterval
  | reservedOpcode
  | reservedRegister
  | unusedField
  | length
  deriving DecidableEq, Repr, Inhabited

/-! ## Ports -/

/-- The source port a code names; none for a reserved code (R124). -/
def decodeSrc (code : BitVec 10) : Option Src :=
  let n := code.toNat
  if n < 0x020 then some (.s n)
  else if n < 0x060 then some (.v (n - 0x020))
  else if n < 0x061 then none
  else if n < 0x068 then some (.p (n - 0x060))
  else if n < 0x070 then some (.m (n - 0x068))
  else if n < 0x080 then if n = 0x073 ∨ n = 0x07E then none else some (.r (n - 0x070))
  else if n = 0x082 ∨ n = 0x084 ∨ n = 0x085 ∨ n = 0x089 ∨ n = 0x08B then some (.h (n - 0x080))
  else if n < 0x0C0 then none
  else if n < 0x0DB then some (.creg n)
  else if n < 0x100 then none
  else if n < 0x200 then some (.short (code.extractLsb' 0 8))
  else if n = 0x200 then some .imm32z
  else if n = 0x201 then some .imm32s
  else if n = 0x202 then some .imm16z
  else if n = 0x203 then some .imm16s
  else if n = 0x204 then some .imm48
  else none

/-- The code of a source port (R124). -/
def encodeSrc : Src → BitVec 10
  | .s n => BitVec.ofNat 10 n
  | .v n => BitVec.ofNat 10 (0x020 + n)
  | .p n => BitVec.ofNat 10 (0x060 + n)
  | .m n => BitVec.ofNat 10 (0x068 + n)
  | .r f => BitVec.ofNat 10 (0x070 + f)
  | .h f => BitVec.ofNat 10 (0x080 + f)
  | .creg n => BitVec.ofNat 10 n
  | .short x => BitVec.ofNat 10 (0x100 + x.toNat)
  | .imm32z => 0x200
  | .imm32s => 0x201
  | .imm16z => 0x202
  | .imm16s => 0x203
  | .imm48 => 0x204

/-- The number of operations of each functional unit (R136). -/
def unitOps (f : Nat) : Nat :=
  match f with
  | 0 => 31 | 1 => 31 | 2 => 10 | 3 => 15 | 4 => 32 | 5 => 32 | 6 => 25 | 7 => 25
  | 8 => 32 | 9 => 13 | 10 => 12 | 11 => 17 | 12 => 20 | 13 => 16 | 14 => 5 | 15 => 13
  | _ => 0

/-- Whether a context register is read-only (R128). -/
def cregReadOnly (code : Nat) : Bool := code < 0x0D0 || code == 0x0D7

/-- The destination port a code names; rejected when reserved (R126) or a read-only register (R128). -/
def decodeDst (code : BitVec 10) : Except Reject Dst :=
  let n := code.toNat
  if n < 0x020 then .ok (.s n)
  else if n < 0x060 then .ok (.v (n - 0x020))
  else if n < 0x061 then .error .reservedDestination
  else if n < 0x068 then .ok (.p (n - 0x060))
  else if n < 0x070 then .ok (.m (n - 0x068))
  else if n < 0x080 then .error .reservedDestination
  else if n < 0x0C0 then .ok (.operand ((n - 0x080) / 4) (n % 4))
  else if n < 0x0DB then if cregReadOnly n then .error .readOnlyRegister else .ok (.creg n)
  else if n < 0x200 then .error .reservedDestination
  else if n % 32 < unitOps ((n - 0x200) / 32) then .ok (.trigger ((n - 0x200) / 32) (n % 32))
  else .error .reservedDestination

/-- The code of a destination port (R126, R136). -/
def encodeDst : Dst → BitVec 10
  | .s n => BitVec.ofNat 10 n
  | .v n => BitVec.ofNat 10 (0x020 + n)
  | .p n => BitVec.ofNat 10 (0x060 + n)
  | .m n => BitVec.ofNat 10 (0x068 + n)
  | .operand f i => BitVec.ofNat 10 (0x080 + 4 * f + i)
  | .creg n => BitVec.ofNat 10 n
  | .trigger f op => BitVec.ofNat 10 (0x200 + 32 * f + op)

/-! ## Trigger codes -/

/-- The operations of sa, in the order of their codes (R136). -/
def saOps : List Instr :=
  [.saAdd, .saSub, .saAnd, .saOr, .saXor, .saAndn, .saShl, .saShr] ++
  [.saSra, .saRol, .saMinI, .saMaxI, .saMinN, .saMaxN, .saEq, .saNe] ++
  [.saLtI, .saLtN, .saLeI, .saLeN, .saSel, .saPass, .saSxt, .saZxt] ++
  [.saClz, .saCtz, .saPopc, .saBrev, .saAddsh, .saBfx, .saBfi]

/-- The operations of sm, in the order of their codes (R136). -/
def smOps : List Instr :=
  [.smMul, .smMulhI, .smMulhN, .smMad, .smMulwI, .smMulwN, .smDivI, .smDivN] ++
  [.smRemI, .smRemN]

/-- The operations of br, in the order of their codes (R136). -/
def brOps : List Instr :=
  [.brJmp, .brCall, .brRet, .brBrz, .brBrnz, .brLoop, .brLoopx, .brSetlc] ++
  [.brSetlcx, .brRot, .brEnd, .brYield, .brTrap, .brRett, .brSleep]

/-- The operations of ls, in the order of their codes (R136). -/
def lsOps : List Instr :=
  [.lsLdB, .lsLdH, .lsLdW, .lsLdD, .lsLdfW, .lsLdcW, .lsLdfD, .lsLdcD] ++
  [.lsStB, .lsStH, .lsStW, .lsStD, .lsStpW, .lsStpD, .lsStnW, .lsLdV] ++
  [.lsLdfV, .lsLdcV, .lsStV, .lsStpV, .lsStnV, .lsLdVs, .lsStVs, .lsLdVb] ++
  [.lsLdVg, .lsStVg, .lsLdTg, .lsStTg, .lsLdAcc, .lsLdfAcc, .lsStAcc, .lsLdSc]

/-- The operations of vf, in the order of their codes (R136). -/
def vfOps : List Instr :=
  [.vfAddF32, .vfSubF32, .vfMulF32, .vfFmaF32, .vfFms, .vfFnma, .vfMinF32, .vfMaxF32] ++
  [.vfAbsF32, .vfNegF32, .vfSclF32, .vfAddBf16, .vfMulBf16, .vfFmaBf16, .vfDotBf16, .vfAddF16] ++
  [.vfMulF16, .vfFmaF16, .vfDotF16, .vfCmpEqF32, .vfCmpLtF32, .vfCmpLeF32, .vfCmpUnF32, .vfAmx] ++
  [.vfCls]

/-- The operations of vi, in the order of their codes (R136). -/
def viOps : List Instr :=
  [.viAddI32, .viSubI32, .viMulI32, .viAnd, .viOr, .viXor, .viAndn, .viShl] ++
  [.viShr, .viSra, .viMinI32, .viMaxI32, .viMinN32, .viMaxN32, .viEqI32, .viLtI32] ++
  [.viLtN32, .viSel, .viBc, .viIota, .viAddI16, .viSubI16, .viAddsI8, .viMand] ++
  [.viMor, .viMxor, .viMnot, .viMpop, .viMfirst, .viMlast, .viPopcI32, .viClzI32]

/-- The operations of vc, in the order of their codes (R136). -/
def vcOps : List Instr :=
  [.vcCvt, .vcCvtwLo, .vcCvtwHi, .vcPack, .vcF2i, .vcI2f, .vcQmx, .vcDqmx] ++
  [.vcCbd, .vcRint, .vcCvta, .vcSetsc, .vcSrseed]

/-- The operations of sf, in the order of their codes (R136). -/
def sfOps : List Instr :=
  [.sfExp2, .sfLog2, .sfRcp, .sfRsqrt, .sfSqrt, .sfExp, .sfTanh, .sfSigm] ++
  [.sfErf, .sfSinpi, .sfCospi, .sfSilu]

/-- The operations of xc, in the order of their codes (R136). -/
def xcOps : List Instr :=
  [.xcRsumF32, .xcRmaxF32, .xcRminF32, .xcRsumI32, .xcRmaxI32, .xcRminI32, .xcScanF32, .xcScanI32] ++
  [.xcPerm, .xcRotl, .xcBcl, .xcCmpr, .xcExpd, .xcSort, .xcSeg, .xcSegsumF32] ++
  [.xcCpy]

/-- The operations of ck, in the order of their codes (R136). -/
def ckOps : List Instr :=
  [.ckS, .ckV, .ckVm, .ckG, .ckSg]

/-- The operations of sys, in the order of their codes (R136). -/
def sysOps : List Instr :=
  [.sysFence, .sysCrd, .sysCwr, .sysMld, .sysMst, .sysSnap, .sysSnapld, .sysFreeze] ++
  [.sysThaw, .sysTlbi, .sysHalt, .sysGrp, .sysLaunch]

/-- What an engine unit's operation is: a step of its own at the trigger, or a command with captured operands (R184). -/
inductive EngineOp where
  | now (i : Instr)
  | command (mk : Cmd → Instr)

/-- The operations of ec, in the order of their codes (R136). -/
def ecOps : List EngineOp :=
  [.command .ecCopy, .command .ecCopyl, .command .ecRetile, .command .ecKick, .command .ecPull] ++
  [.command .ecAmo, .command .ecAmor, .command .ecAcq, .command .ecAcqw, .command .ecRel] ++
  [.command .ecBind, .command .ecUnbind, .command .ecBar, .command .ecColl, .now .ecWait] ++
  [.now .ecTest, .now .ecTmpl, .command .ecPref, .command .ecStampw, .command .ecFenceE]

/-- The operations of ecx, in the order of their codes (R136). -/
def ecxOps : List EngineOp :=
  [.command .ecxWld, .command .ecxMx, .command .ecxMxs, .command .ecxMxsel, .command .ecxSwap] ++
  [.command .ecxCbt, .command .ecxKvapp, .command .ecxKvsel, .command .ecxKvtrunc, .command .ecxKvfork] ++
  [.command .ecxSig, .command .ecxSigld, .command .ecxBuLoad, .command .ecxBuMode, .command .ecxBuDrive] ++
  [.command .ecxChk]

/-- The step that operation `op` of unit `f` (not an engine unit) is (R136). -/
def triggerStep (f op : Nat) : Option Instr :=
  match f with
  | 0 => saOps[op]? | 1 => saOps[op]? | 2 => smOps[op]? | 3 => brOps[op]? | 4 => lsOps[op]? | 5 => lsOps[op]?
  | 6 => vfOps[op]? | 7 => vfOps[op]? | 8 => viOps[op]? | 9 => vcOps[op]? | 10 => sfOps[op]? | 11 => xcOps[op]?
  | 14 => ckOps[op]? | 15 => sysOps[op]? | _ => none

/-- The step or command that operation `op` of engine unit `f` is (R136). -/
def engineStep (f op : Nat) : Option EngineOp :=
  match f with
  | 12 => ecOps[op]? | 13 => ecxOps[op]? | _ => none

/-- The trigger code 0x200 + 32f + op of a step that a bundle fires (R136); none for every other step. Of a
pair of units it is the first unit's code; the second unit's is 32 more. -/
def triggerCode : Instr → Option Nat
  | .bundleIssue _ _ => none
  | .entryLanding _ => none
  | .branchEffect _ => none
  | .contextChoose _ => none
  | .quantumExpiry _ => none
  | .agingExpiry _ => none
  | .sleepWake _ => none
  | .waitTimeout _ => none
  | .partBind _ => none
  | .kernelImageLoad _ _ => none
  | .partEnd _ => none
  | .nodeStart _ => none
  | .nodeComplete _ => none
  | .nodeCommit _ => none
  | .recordTake => none
  | .gangProposalReceive _ _ _ => none
  | .gangTimeout _ => none
  | .gangStartTick _ => none
  | .preemptHint _ => none
  | .engineCommandStart _ => none
  | .tokenComplete _ => none
  | .tileTake _ => none
  | .noticeOffer _ => none
  | .noticeReoffer _ => none
  | .episodeComplete _ _ _ => none
  | .acqwTimeout _ => none
  | .buDriveStep _ => none
  | .sysRecordWrite _ => none
  | .hostAtsInvalidate _ _ => none
  | .faultRecordPost _ => none
  | .eventLogAppend => none
  | .cpMismatch _ => none
  | .correctedError _ => none
  | .repairStepComplete _ => none
  | .repairComplete _ => none
  | .planeRemapComplete _ => none
  | .moveComplete => none
  | .moveQuiet => none
  | .skimPage => none
  | .skimPassEnd => none
  | .hostWindowRead _ _ _ => none
  | .hostWindowWrite _ _ _ => none
  | .qTailStore _ _ _ => none
  | .qCplHeadStore _ _ _ => none
  | .hostLinkDown => none
  | .hostPoisonedCompletion _ => none
  | .hostPtmRequest _ => none
  | .edgePortFail _ => none
  | .ulalmMessageReceive _ _ => none
  | .dieLinkFail _ => none
  | .timeSyncMessage _ _ => none
  | .resetNRelease _ => none
  | .powerCapExceed _ => none
  | .powerHeadroom _ => none
  | .tempHot _ => none
  | .tempCool _ => none
  | .thermTrip _ => none
  | .cluPwrTransitionEnd _ => none
  | .launchCtlWrite _ => none
  | .qCtlEnable _ _ => none
  | .faultCtlEnable _ => none
  | .evlogCtlEnable _ => none
  | .faultHeadWrite _ => none
  | .evlogHeadWrite _ => none
  | .cpStatClear _ => none
  | .nodeAbortRollback _ => none
  | .nodeAbortFail _ => none
  | .transResolveRetry _ => none
  | .transResolveFail _ => none
  | .poisonClr _ => none
  | .repairResolveRemap _ => none
  | .repairResolveRelease _ => none
  | .repairResolveFail _ => none
  | .movePageHoldSet _ => none
  | .movePageHoldClear _ => none
  | .moveCtlGo _ => none
  | .skimCtlGo _ => none
  | .spadFailWrite _ _ => none
  | .pkgResetWrite _ => none
  | .cluPwrLower _ _ => none
  | .cluPwrRaise _ _ => none
  | .registerWrite _ _ => none
  | .saAdd => some 0x200
  | .saSub => some 0x201
  | .saAnd => some 0x202
  | .saOr => some 0x203
  | .saXor => some 0x204
  | .saAndn => some 0x205
  | .saShl => some 0x206
  | .saShr => some 0x207
  | .saSra => some 0x208
  | .saRol => some 0x209
  | .saMinI => some 0x20A
  | .saMaxI => some 0x20B
  | .saMinN => some 0x20C
  | .saMaxN => some 0x20D
  | .saEq => some 0x20E
  | .saNe => some 0x20F
  | .saLtI => some 0x210
  | .saLtN => some 0x211
  | .saLeI => some 0x212
  | .saLeN => some 0x213
  | .saSel => some 0x214
  | .saPass => some 0x215
  | .saSxt => some 0x216
  | .saZxt => some 0x217
  | .saClz => some 0x218
  | .saCtz => some 0x219
  | .saPopc => some 0x21A
  | .saBrev => some 0x21B
  | .saAddsh => some 0x21C
  | .saBfx => some 0x21D
  | .saBfi => some 0x21E
  | .smMul => some 0x240
  | .smMulhI => some 0x241
  | .smMulhN => some 0x242
  | .smMad => some 0x243
  | .smMulwI => some 0x244
  | .smMulwN => some 0x245
  | .smDivI => some 0x246
  | .smDivN => some 0x247
  | .smRemI => some 0x248
  | .smRemN => some 0x249
  | .brJmp => some 0x260
  | .brCall => some 0x261
  | .brRet => some 0x262
  | .brBrz => some 0x263
  | .brBrnz => some 0x264
  | .brLoop => some 0x265
  | .brLoopx => some 0x266
  | .brSetlc => some 0x267
  | .brSetlcx => some 0x268
  | .brRot => some 0x269
  | .brEnd => some 0x26A
  | .brYield => some 0x26B
  | .brTrap => some 0x26C
  | .brRett => some 0x26D
  | .brSleep => some 0x26E
  | .lsLdB => some 0x280
  | .lsLdH => some 0x281
  | .lsLdW => some 0x282
  | .lsLdD => some 0x283
  | .lsLdfW => some 0x284
  | .lsLdcW => some 0x285
  | .lsLdfD => some 0x286
  | .lsLdcD => some 0x287
  | .lsStB => some 0x288
  | .lsStH => some 0x289
  | .lsStW => some 0x28A
  | .lsStD => some 0x28B
  | .lsStpW => some 0x28C
  | .lsStpD => some 0x28D
  | .lsStnW => some 0x28E
  | .lsLdV => some 0x28F
  | .lsLdfV => some 0x290
  | .lsLdcV => some 0x291
  | .lsStV => some 0x292
  | .lsStpV => some 0x293
  | .lsStnV => some 0x294
  | .lsLdVs => some 0x295
  | .lsStVs => some 0x296
  | .lsLdVb => some 0x297
  | .lsLdVg => some 0x298
  | .lsStVg => some 0x299
  | .lsLdTg => some 0x29A
  | .lsStTg => some 0x29B
  | .lsLdAcc => some 0x29C
  | .lsLdfAcc => some 0x29D
  | .lsStAcc => some 0x29E
  | .lsLdSc => some 0x29F
  | .vfAddF32 => some 0x2C0
  | .vfSubF32 => some 0x2C1
  | .vfMulF32 => some 0x2C2
  | .vfFmaF32 => some 0x2C3
  | .vfFms => some 0x2C4
  | .vfFnma => some 0x2C5
  | .vfMinF32 => some 0x2C6
  | .vfMaxF32 => some 0x2C7
  | .vfAbsF32 => some 0x2C8
  | .vfNegF32 => some 0x2C9
  | .vfSclF32 => some 0x2CA
  | .vfAddBf16 => some 0x2CB
  | .vfMulBf16 => some 0x2CC
  | .vfFmaBf16 => some 0x2CD
  | .vfDotBf16 => some 0x2CE
  | .vfAddF16 => some 0x2CF
  | .vfMulF16 => some 0x2D0
  | .vfFmaF16 => some 0x2D1
  | .vfDotF16 => some 0x2D2
  | .vfCmpEqF32 => some 0x2D3
  | .vfCmpLtF32 => some 0x2D4
  | .vfCmpLeF32 => some 0x2D5
  | .vfCmpUnF32 => some 0x2D6
  | .vfAmx => some 0x2D7
  | .vfCls => some 0x2D8
  | .viAddI32 => some 0x300
  | .viSubI32 => some 0x301
  | .viMulI32 => some 0x302
  | .viAnd => some 0x303
  | .viOr => some 0x304
  | .viXor => some 0x305
  | .viAndn => some 0x306
  | .viShl => some 0x307
  | .viShr => some 0x308
  | .viSra => some 0x309
  | .viMinI32 => some 0x30A
  | .viMaxI32 => some 0x30B
  | .viMinN32 => some 0x30C
  | .viMaxN32 => some 0x30D
  | .viEqI32 => some 0x30E
  | .viLtI32 => some 0x30F
  | .viLtN32 => some 0x310
  | .viSel => some 0x311
  | .viBc => some 0x312
  | .viIota => some 0x313
  | .viAddI16 => some 0x314
  | .viSubI16 => some 0x315
  | .viAddsI8 => some 0x316
  | .viMand => some 0x317
  | .viMor => some 0x318
  | .viMxor => some 0x319
  | .viMnot => some 0x31A
  | .viMpop => some 0x31B
  | .viMfirst => some 0x31C
  | .viMlast => some 0x31D
  | .viPopcI32 => some 0x31E
  | .viClzI32 => some 0x31F
  | .vcCvt => some 0x320
  | .vcCvtwLo => some 0x321
  | .vcCvtwHi => some 0x322
  | .vcPack => some 0x323
  | .vcF2i => some 0x324
  | .vcI2f => some 0x325
  | .vcQmx => some 0x326
  | .vcDqmx => some 0x327
  | .vcCbd => some 0x328
  | .vcRint => some 0x329
  | .vcCvta => some 0x32A
  | .vcSetsc => some 0x32B
  | .vcSrseed => some 0x32C
  | .sfExp2 => some 0x340
  | .sfLog2 => some 0x341
  | .sfRcp => some 0x342
  | .sfRsqrt => some 0x343
  | .sfSqrt => some 0x344
  | .sfExp => some 0x345
  | .sfTanh => some 0x346
  | .sfSigm => some 0x347
  | .sfErf => some 0x348
  | .sfSinpi => some 0x349
  | .sfCospi => some 0x34A
  | .sfSilu => some 0x34B
  | .xcRsumF32 => some 0x360
  | .xcRmaxF32 => some 0x361
  | .xcRminF32 => some 0x362
  | .xcRsumI32 => some 0x363
  | .xcRmaxI32 => some 0x364
  | .xcRminI32 => some 0x365
  | .xcScanF32 => some 0x366
  | .xcScanI32 => some 0x367
  | .xcPerm => some 0x368
  | .xcRotl => some 0x369
  | .xcBcl => some 0x36A
  | .xcCmpr => some 0x36B
  | .xcExpd => some 0x36C
  | .xcSort => some 0x36D
  | .xcSeg => some 0x36E
  | .xcSegsumF32 => some 0x36F
  | .xcCpy => some 0x370
  | .ecCopy _ => some 0x380
  | .ecCopyl _ => some 0x381
  | .ecRetile _ => some 0x382
  | .ecKick _ => some 0x383
  | .ecPull _ => some 0x384
  | .ecAmo _ => some 0x385
  | .ecAmor _ => some 0x386
  | .ecAcq _ => some 0x387
  | .ecAcqw _ => some 0x388
  | .ecRel _ => some 0x389
  | .ecBind _ => some 0x38A
  | .ecUnbind _ => some 0x38B
  | .ecBar _ => some 0x38C
  | .ecColl _ => some 0x38D
  | .ecWait => some 0x38E
  | .ecTest => some 0x38F
  | .ecTmpl => some 0x390
  | .ecPref _ => some 0x391
  | .ecStampw _ => some 0x392
  | .ecFenceE _ => some 0x393
  | .ecxWld _ => some 0x3A0
  | .ecxMx _ => some 0x3A1
  | .ecxMxs _ => some 0x3A2
  | .ecxMxsel _ => some 0x3A3
  | .ecxSwap _ => some 0x3A4
  | .ecxCbt _ => some 0x3A5
  | .ecxKvapp _ => some 0x3A6
  | .ecxKvsel _ => some 0x3A7
  | .ecxKvtrunc _ => some 0x3A8
  | .ecxKvfork _ => some 0x3A9
  | .ecxSig _ => some 0x3AA
  | .ecxSigld _ => some 0x3AB
  | .ecxBuLoad _ => some 0x3AC
  | .ecxBuMode _ => some 0x3AD
  | .ecxBuDrive _ => some 0x3AE
  | .ecxChk _ => some 0x3AF
  | .ckS => some 0x3C0
  | .ckV => some 0x3C1
  | .ckVm => some 0x3C2
  | .ckG => some 0x3C3
  | .ckSg => some 0x3C4
  | .sysFence => some 0x3E0
  | .sysCrd => some 0x3E1
  | .sysCwr => some 0x3E2
  | .sysMld => some 0x3E3
  | .sysMst => some 0x3E4
  | .sysSnap => some 0x3E5
  | .sysSnapld => some 0x3E6
  | .sysFreeze => some 0x3E7
  | .sysThaw => some 0x3E8
  | .sysTlbi => some 0x3E9
  | .sysHalt => some 0x3EA
  | .sysGrp => some 0x3EB
  | .sysLaunch => some 0x3EC
  | .twNop => none
  | .twLd _ => none
  | .twSt _ => none
  | .twAddI32 _ _ _ => none
  | .twSubI32 _ _ _ => none
  | .twMulI32 _ _ _ => none
  | .twAddF32 _ _ _ => none
  | .twSubF32 _ _ _ => none
  | .twMulF32 _ _ _ => none
  | .twFmaF32 _ _ _ _ => none
  | .twMin _ _ _ _ => none
  | .twMax _ _ _ _ => none
  | .twAnd _ _ _ => none
  | .twOr _ _ _ => none
  | .twXor _ _ _ => none
  | .twShlReg _ _ _ => none
  | .twShlImm _ _ _ => none
  | .twShrReg _ _ _ => none
  | .twShrImm _ _ _ => none
  | .twSraReg _ _ _ => none
  | .twSraImm _ _ _ => none
  | .twCmp _ _ _ _ => none
  | .twSel _ _ _ => none
  | .twHmix _ _ _ => none
  | .twLoop _ => none
  | .twLoopx _ => none
  | .twEndl => none
  | .twHalt => none
  | .resetNAssert => none
  | .memorySideCacheFillLands _ => none
  | .edgePortTrained _ => none

/-! ## Bundles -/

/-- Slot k of a bundle's 256 bits: bits [191 - 24k : 168 - 24k] (R120, R122). -/
def decodeSlot (w : BitVec 256) (k : Nat) : Slot :=
  let x : BitVec 24 := w.extractLsb' (168 - 24 * k) 24
  { guard := x.extractLsb' 21 3, neg := x.getLsbD 20, src := x.extractLsb' 10 10, dst := x.extractLsb' 0 10 }

/-- The bundle of 256 bits (R120 to R122). -/
def decodeBundle (w : BitVec 256) : Bundle :=
  { kind := w.extractLsb' 253 3
    hdr := { rnd := w.extractLsb' 250 3, sat := w.getLsbD 249, fa := w.extractLsb' 245 4, fb := w.extractLsb' 241 4,
             join := w.getLsbD 240 }
    imm16 := w.extractLsb' 224 16, imm32 := w.extractLsb' 192 32
    slots := (List.range 8).map (decodeSlot w) }

def encodeSlot (s : Slot) : BitVec 24 := s.guard ++ BitVec.ofBool s.neg ++ s.src ++ s.dst

/-- The 64 header bits (R121). -/
def encodeHeader (b : Bundle) : BitVec 64 :=
  b.kind ++ b.hdr.rnd ++ BitVec.ofBool b.hdr.sat ++ b.hdr.fa ++ b.hdr.fb ++ BitVec.ofBool b.hdr.join ++ b.imm16 ++
    b.imm32

/-- The 256 bits of a bundle of eight slots (R120). -/
def encodeBundle (b : Bundle) : BitVec 256 :=
  match b.slots with
  | [a0, a1, a2, a3, a4, a5, a6, a7] =>
    encodeHeader b ++ encodeSlot a0 ++ encodeSlot a1 ++ encodeSlot a2 ++ encodeSlot a3 ++ encodeSlot a4 ++
      encodeSlot a5 ++ encodeSlot a6 ++ encodeSlot a7
  | _ => 0

/-- A never slot: guard 000 and negate 1 (R122). -/
def Slot.never (s : Slot) : Bool := s.guard == 0 && s.neg

/-- The canonical empty slot 0x10_0000 (R122). -/
def Slot.empty : Slot := { guard := 0, neg := true, src := 0, dst := 0 }

/-- The case of R133 that a slot's own fields decide. -/
def Slot.check (s : Slot) : Except Reject Unit :=
  if s.never then .ok ()
  else match decodeSrc s.src with
    | none => .error .reservedSource
    | some _ => match decodeDst s.dst with
      | .error e => .error e
      | .ok _ => .ok ()

/-- The cases of R133 that the bundle's bits decide. -/
def Bundle.check (b : Bundle) : Except Reject Unit :=
  if b.kind ≠ 0 then .error .kind
  else if b.hdr.rnd = 7 then .error .rounding
  else b.slots.forM Slot.check

/-- The bundle stored in 32 bytes, little-endian (R120). -/
def bundleOfBytes (bs : List Byte) : Bundle := decodeBundle (BitVec.ofNat 256 (natOf bs))

/-! ## Trowel words -/

/-- The register form and the loop form of a trowel word (R262 to R265) (log 92). -/
def decodeTrowel (w : BitVec 32) : Except Reject Instr :=
  let op := (w.extractLsb' 27 5).toNat
  let rd : BitVec 5 := w.extractLsb' 22 5
  let ra : BitVec 5 := w.extractLsb' 17 5
  let rb : BitVec 5 := w.extractLsb' 12 5
  let rc : BitVec 5 := w.extractLsb' 7 5
  let fn : BitVec 7 := w.extractLsb' 0 7
  let s : BitVec 5 := w.extractLsb' 0 5
  let need (unused : Bool) (regs : List (BitVec 5)) (i : Instr) : Except Reject Instr :=
    if !unused then .error .unusedField
    else if regs.all (· < 24) then .ok i else .error .reservedRegister
  let three (mk : BitVec 5 → BitVec 5 → BitVec 5 → Instr) : Except Reject Instr :=
    need (rc == 0 && fn == 0) [rd, ra, rb] (mk rd ra rb)
  let shift (reg imm : BitVec 5 → BitVec 5 → BitVec 5 → Instr) : Except Reject Instr :=
    if fn.getLsbD 5 then need (rb == 0 && rc == 0) [rd, ra] (imm rd ra s)
    else need (rc == 0 && s == 0) [rd, ra, rb] (reg rd ra rb)
  match op with
  | 0 => need (rd == 0 && ra == 0 && rb == 0 && rc == 0 && fn == 0) [] .twNop
  | 1 => need (ra == 0 && rb == 0 && rc == 0 && fn == 0) [rd] (.twLd rd)
  | 2 => need (rd == 0 && rb == 0 && rc == 0 && fn == 0) [ra] (.twSt ra)
  | 3 => three .twAddI32
  | 4 => three .twSubI32
  | 5 => three .twMulI32
  | 6 => three .twAddF32
  | 7 => three .twSubF32
  | 8 => three .twMulF32
  | 9 => need (fn == 0) [rd, ra, rb, rc] (.twFmaF32 rd ra rb rc)
  | 10 => need (rc == 0 && fn >>> 1 == 0) [rd, ra, rb] (.twMin rd ra rb (fn.getLsbD 0))
  | 11 => need (rc == 0 && fn >>> 1 == 0) [rd, ra, rb] (.twMax rd ra rb (fn.getLsbD 0))
  | 12 => three .twAnd
  | 13 => three .twOr
  | 14 => three .twXor
  | 15 => if fn.getLsbD 6 then .error .unusedField else shift .twShlReg .twShlImm
  | 16 => if fn.getLsbD 6 then shift .twSraReg .twSraImm else shift .twShrReg .twShrImm
  | 17 =>
    if fn.extractLsb' 3 2 = (3 : BitVec 2) then .error .reservedOpcode
    else need (rd == 0 && rc == 0 && fn >>> 5 == 0) [ra, rb] (.twCmp ra rb (fn.extractLsb' 3 2) (fn.extractLsb' 0 3))
  | 18 => three .twSel
  | 19 => three .twHmix
  | 20 => need (w.extractLsb' 16 11 == 0) [] (.twLoop (w.extractLsb' 0 16))
  | 21 => need (w.extractLsb' 16 11 == 0) [] (.twLoopx (w.extractLsb' 0 16))
  | 22 => need (w.extractLsb' 0 27 == 0) [] .twEndl
  | 23 => need (w.extractLsb' 0 27 == 0) [] .twHalt
  | _ => .error .reservedOpcode

/-- A word of the register form (R262). -/
def regForm (op : Nat) (rd ra rb rc : BitVec 5) (fn : BitVec 7) : BitVec 32 :=
  BitVec.ofNat 5 op ++ rd ++ ra ++ rb ++ rc ++ fn

/-- A word of the loop form (R262). -/
def loopForm (op : Nat) (n : BitVec 16) : BitVec 32 := BitVec.ofNat 5 op ++ (0 : BitVec 11) ++ n

/-- The word of a trowel instruction (R262 to R265); none for every other step (log 92). -/
def encodeTrowel : Instr → Option (BitVec 32)
  | .twNop => some (regForm 0 0 0 0 0 0)
  | .twLd rd => some (regForm 1 rd 0 0 0 0)
  | .twSt ra => some (regForm 2 0 ra 0 0 0)
  | .twAddI32 rd ra rb => some (regForm 3 rd ra rb 0 0)
  | .twSubI32 rd ra rb => some (regForm 4 rd ra rb 0 0)
  | .twMulI32 rd ra rb => some (regForm 5 rd ra rb 0 0)
  | .twAddF32 rd ra rb => some (regForm 6 rd ra rb 0 0)
  | .twSubF32 rd ra rb => some (regForm 7 rd ra rb 0 0)
  | .twMulF32 rd ra rb => some (regForm 8 rd ra rb 0 0)
  | .twFmaF32 rd ra rb rc => some (regForm 9 rd ra rb rc 0)
  | .twMin rd ra rb f => some (regForm 10 rd ra rb 0 ((0 : BitVec 6) ++ BitVec.ofBool f))
  | .twMax rd ra rb f => some (regForm 11 rd ra rb 0 ((0 : BitVec 6) ++ BitVec.ofBool f))
  | .twAnd rd ra rb => some (regForm 12 rd ra rb 0 0)
  | .twOr rd ra rb => some (regForm 13 rd ra rb 0 0)
  | .twXor rd ra rb => some (regForm 14 rd ra rb 0 0)
  | .twShlReg rd ra rb => some (regForm 15 rd ra rb 0 0)
  | .twShlImm rd ra s => some (regForm 15 rd ra 0 0 ((1 : BitVec 2) ++ s))
  | .twShrReg rd ra rb => some (regForm 16 rd ra rb 0 0)
  | .twShrImm rd ra s => some (regForm 16 rd ra 0 0 ((1 : BitVec 2) ++ s))
  | .twSraReg rd ra rb => some (regForm 16 rd ra rb 0 0x40)
  | .twSraImm rd ra s => some (regForm 16 rd ra 0 0 ((3 : BitVec 2) ++ s))
  | .twCmp ra rb m c => some (regForm 17 0 ra rb 0 ((0 : BitVec 2) ++ m ++ c))
  | .twSel rd ra rb => some (regForm 18 rd ra rb 0 0)
  | .twHmix rd ra rb => some (regForm 19 rd ra rb 0 0)
  | .twLoop n => some (loopForm 20 n)
  | .twLoopx n => some (loopForm 21 n)
  | .twEndl => some (regForm 22 0 0 0 0 0)
  | .twHalt => some (regForm 23 0 0 0 0 0)
  | _ => none

/-! ## The encoder and the host's reading of table words -/

/-- The bytes of an encoded instruction in the order memory holds them: a trowel word of 4 bytes or a bundle of 32,
both little-endian (R3, R120, R262). The other steps have no words of their own. -/
def encode (i : Instr) : List Byte :=
  match i with
  | .bundleIssue _ b => bytesOf 32 (encodeBundle b).toNat
  | _ => match encodeTrowel i with
    | some w => bytesOf 4 w.toNat
    | none => []

/-- The instruction that bytes of one word length name: 4 bytes a trowel word, 32 a bundle of context 0. -/
def decodeBytes (bs : List Byte) : Except Reject Instr :=
  if bs.length = 4 then decodeTrowel (BitVec.ofNat 32 (natOf bs))
  else if bs.length = 32 then .ok (.bundleIssue 0 (bundleOfBytes bs))
  else .error .length

/-- The instruction read from an instruction whose bits are `w` (bit 0 the least significant bit of the first word). -/
def decodeTableWord (nbits w : Nat) : Option Instr := (decodeBytes (bytesOf (nbits / 8) w)).toOption

end Sys2Proof
end

