-- ==== Sys2Proof/Machine/State.lean ====
section
/-! DEFINITION. The machine's state as plain data, the reasons a step can stop, and the state after device reset. Large
tables are sparse maps (`NMap`) whose unlisted keys hold the default of their value. -/

namespace Sys2Proof.Machine

/-! ## Reasons to stop -/

/-- The machine stops because the spec gives no effect. -/
inductive Fault where
  /-- `sys.snapld` of an image that a program changed after its capture: R321 gives the outcome no definition. Raised by
  SYS_RECORD_WRITE. Safe: the model says nothing of what follows. -/
  | alteredImage
  /-- The bytes at the fetch address are no trowel instruction; no loaded program holds such a word (R264, R266). Raised
  by the step that fetches it. Safe: it cannot follow a load. -/
  | reservedTrowelWord
  deriving DecidableEq, Repr, Inhabited

/-- The model gives a row no meaning. -/
inductive Refusal where
  /-- A row of the table without a meaning yet. Safe: nothing can be proved of it. -/
  | notModelled (mnemonic : String)
  deriving DecidableEq, Repr, Inhabited

/-! ## Memory -/

/-- Bytes by address in canonical form: addresses strictly rising, no byte that an unlisted address reads as. -/
abbrev Memory := List Host.Cell

/-! ## Contexts -/

/-- The state of a context (R39). -/
inductive Phase where
  | unbound
  | ready
  | running
  | blocked
  | sleeping
  | draining
  | frozen
  deriving DecidableEq, Repr, Inhabited

/-- The states of an engine token (R319). -/
inductive TokState where
  | free
  | outstanding
  | parked
  | complete
  deriving DecidableEq, Repr, Inhabited

/-- An engine token k0 to k63 of a context (R186, R319). `cmd` names the command that produced it; `flags` are those of a
selection list's header (R255). -/
structure Token where
  state  : TokState := .free
  status : Nat := 0
  acked  : Bool := false
  unit   : Nat := 0
  op     : Nat := 0
  cmd    : Nat := 0
  flags  : Nat := 0
  deriving DecidableEq, Repr, Inhabited

/-- A store on its way to the core's storage (R153): bytes by linear address, tags by word, accumulator words by index
with the mode of R156, line full bits by line. `swz` says which stream it belongs to, `joins` how many view-join bundles
its context had issued up to its trigger, `both` from which count of them on it is ordered before the accesses of the
other stream too (R75), `whole` that it rewrites whole codewords (R83). -/
structure LStore where
  swz    : Bool := false
  joins  : Nat := 0
  both   : Option Nat := none
  whole  : Bool := false
  bytes  : List Host.Cell := []
  tags   : List (Nat × Bool) := []
  mode   : Nat := 0
  acc    : List (Nat × Lane) := []
  lines  : List (Nat × Bool) := []
  deriving DecidableEq, Repr, Inhabited

/-- What an in-flight entry is (R320). -/
inductive EntryKind where
  | result
  | store
  | branch
  | check
  | sysop
  deriving DecidableEq, Repr, Inhabited

/-- The registers that an entry writes by itself (R320). -/
inductive Fixed where
  | s31
  | lc
  | lcx
  | pred (n : Nat)
  | rrb
  | sc
  deriving DecidableEq, Repr, Inhabited

/-- An in-flight entry of a context (R43, R320): unit, operation, issue cycles left until it lands, the order of its
trigger, what it delivers or writes when it lands. For a branch, `target` is the address of a redirection that will be
taken, or the operand of `sleep` and `trap`; `done` says that the control part has taken effect and only register writes
are left to land. For a store, `done` says that it has been performed. `trig` is the address of the triggering bundle. -/
structure Entry where
  unit   : Nat
  op     : Nat
  left   : Nat
  order  : Nat
  kind   : EntryKind
  flags  : Lane := 0
  amax   : Option Lane := none
  ns     : Bool := false
  target : Option Nat := none
  done   : Bool := false
  trig   : Nat := 0
  fixed  : List (Fixed × Word) := []
  r      : Option Val := none
  h      : Option Vec := none
  store  : Option LStore := none
  a      : Word := 0
  d      : Word := 0
  b      : Word := 0
  deriving DecidableEq, Repr, Inhabited

/-- A notice (R201 to R203): the sender as 512 * package + context, the target package and core (physical in this package,
logical in another), its 32 bytes, its buffer, the kick it belongs to. `sent` says that an offer to another package has not been answered. -/
structure Notice where
  id       : Nat := 0
  sender   : Nat := 0
  pkg      : Nat := 0
  core     : Nat := 0
  bytes    : List Byte := []
  addr     : Nat := 0
  len      : Nat := 0
  node     : Nat := 0
  cmd      : Nat := 0
  accepted : Bool := false
  refusedAt : Option Nat := none
  sent     : Bool := false
  deriving DecidableEq, Repr, Inhabited

/-- An accepted asynchronous sys operation (R313): its operation, operands A, D, C, B, the ASID and the node of its part.
`done` says that its effect has been made, with `value` and `status` for the record still to be written. -/
structure SysOp where
  op      : Nat
  a       : Word
  d       : Word
  c       : Word
  b       : Word
  asid    : Nat := 0
  node    : Nat := 0
  done    : Bool := false
  value   : Word := 0
  status  : Nat := 0
  deriving DecidableEq, Repr, Inhabited

/-- A hardware context (R29, R39, R128) with what a snapshot holds of it (R319). -/
structure Ctx where
  /-- state of R39 -/
  phase    : Phase := .unbound
  /-- state left at a freeze (R308, R319) -/
  left     : Phase := .unbound
  /-- address of the next bundle -/
  pc       : Nat := 0
  s        : NMap Word := []
  v        : NMap Vec := []
  /-- bit n is pn -/
  p        : BitVec 8 := 0
  m        : NMap Mask := []
  /-- context registers by code (R128) -/
  creg     : NMap Word := []
  /-- scalar result ports by code (R127) -/
  rport    : NMap Word := []
  /-- vector result ports by code (R127) -/
  vport    : NMap Vec := []
  tokens   : NMap Token := []
  /-- token cursor (R186) -/
  cursor   : Nat := 0
  /-- sequence counter, 24 bits (R195) -/
  seq      : Nat := 0
  /-- copy templates; the empty list is an invalid template (R196) -/
  tmpl     : NMap (List Byte) := []
  /-- in-flight entries in the order of their triggers -/
  flight   : List Entry := []
  nextOrder : Nat := 0
  /-- view-join bundles issued (R75) -/
  joins    : Nat := 0
  /-- issue cycles during which a new `div` or `rem`, or a new `sort`, is illegal (R132) -/
  divHold  : Nat := 0
  sortHold : Nat := 0
  /-- address of the trigger of a check whose mismatch has landed with the bundle at hand, and 1 where it guards (R160) -/
  check    : Option (Nat × Nat) := none
  /-- a store landing with the bundle at hand has found an accumulator word uncorrectable (R156) -/
  spoiled  : Bool := false
  /-- wake time of `br.sleep` -/
  wake     : Nat := 0
  /-- blocked clock cycles (R309), and the clock at which the present block was last counted -/
  watchdog : Nat := 0
  blockedAt : Nat := 0
  /-- issue cycles of the core during which the context was ready without issuing (R41) -/
  waited   : Nat := 0
  /-- S-class cause of the freeze (R310) -/
  cause    : Nat := 0
  /-- the engine queue is frozen (R315) -/
  queueFrozen : Bool := false
  /-- replay window: the kicks whose refused notices wait in it (R203) -/
  window   : List Nat := []
  /-- accepted asynchronous sys operations in order (R313) -/
  sysq     : List SysOp := []
  /-- live node of the bound part, and the part's number, ASID and mode as it was bound (R36, R306); the registers c.part,
  c.asid and c.mode are copies of these, which `sys.cwr` may change (R312) -/
  node     : Option Nat := none
  part     : Nat := 0
  asid     : Nat := 0
  smode    : Bool := false
  /-- engine commands that completed with a fault status no wait or test has named (R35) -/
  unseen   : List Nat := []
  /-- frozen by a core halt that keeps binding off (R316) -/
  halted   : Bool := false
  /-- arrivals made at each group since binding (R211) -/
  arrived  : NMap Nat := []
  /-- the commands of the part before these numbers are ordered by a `sys.fence` before every later command, and before every later
  command for every die (R96, R107) -/
  fenceMark : Nat := 0
  fenceWide : Nat := 0
  /-- commands whose completion is ordered before what the part does next (R102, R109) (log 55) -/
  after     : List Nat := []
  deriving DecidableEq, Repr, Inhabited

/-! ## Cores -/

/-- That a performed write is ordered before accesses of a context (R75, R80, R102): before those of its linear and of its swizzled
stream from these counts of view-join bundles on, and with its next view-join bundle before those of the stream named. `far` says that
the order left the writer's core as R225 asks of an injector's read (log 22). -/
structure Knows where
  ctx     : Nat
  lin     : Option Nat := none
  swz     : Option Nat := none
  linJoin : Bool := false
  swzJoin : Bool := false
  far     : Bool := false
  deriving DecidableEq, Repr, Inhabited

/-- What a change of a tag carries to whoever next finds the tag so (R76, R80, R110): that the write was ordered before the change
for linear accesses, for swizzled ones, and as R225 asks (log 22). -/
structure Flag where
  core : Nat
  word : Nat
  lin  : Bool
  swz  : Bool
  far  : Bool
  deriving DecidableEq, Repr, Inhabited

/-- What an engine command carries of a performed write: the same, by the write's number (R100, R110) (log 22). -/
structure Carry where
  write : Nat
  lin   : Bool
  swz   : Bool
  far   : Bool
  deriving DecidableEq, Repr, Inhabited

/-- A performed write to scratchpad words that an access through the other view, a fetch or a pull need not yet observe (R73, R75,
R111, R153 rule 6): its number, the bytes and tags before it, who is ordered after it, the tags whose last change is ordered after it
(R80), the contexts whose fetch sees it (R73), the node of its writer and the nodes whose completion conveys it (R113). `any` marks an
engine write, which both views see at once (R76, R101) (log 22). -/
structure Stale where
  number : Nat := 0
  swz    : Bool
  any    : Bool := false
  old    : List Host.Cell
  tags   : List (Nat × Bool) := []
  known  : List Knows := []
  flags  : List Flag := []
  fetch  : List Nat := []
  node   : Nat := 0
  nodes  : List Nat := []
  deriving DecidableEq, Repr, Inhabited

/-- A dealt part in a core's queue (R32, R347), with the clock at which it entered and whether its hint has been posted
(R350). -/
structure QPart where
  node   : Nat
  part   : Nat
  since  : Nat := 0
  hinted : Bool := false
  deriving DecidableEq, Repr, Inhabited

/-- A kernel image resident on a core (R343, R344): its node, entry bundle, trap vector, declared templates, and its footprint as it
was loaded. -/
structure Resident where
  node  : Nat
  entry : Nat := 0
  tvec  : Nat := 0
  tmpl  : NMap (List Byte) := []
  foot  : List (Nat × Nat) := []
  deriving DecidableEq, Repr, Inhabited

/-- A row core's shared storage and scheduling state. -/
structure Core where
  /-- scratchpad bytes by linear address, 0 when unlisted (R70) -/
  spad     : Memory := []
  /-- full tags by word (R77) -/
  tags     : NMap Bool := []
  /-- accumulator words by index (R70), 64 to a line -/
  acc      : NMap Lane := []
  /-- line full bits (R77) -/
  lines    : NMap Bool := []
  /-- poisoned codewords (R83) and uncorrectable accumulator words (R84) -/
  poison   : NMap Bool := []
  badAcc   : NMap Bool := []
  stale    : List Stale := []
  /-- what a set tag conveys of commands that are ordered before its setting, by word (R80, R102, R109) (log 55) -/
  conveyed : NMap (List Nat) := []
  /-- the context that last issued, the one that holds issue, and its consecutive issue cycles (R41) -/
  last     : Nat := 3
  running  : Option Nat := none
  quantum  : Nat := 0
  /-- dealt parts, and parts (node, part) kept back when the queue of 16 is full (R347) -/
  queue    : List QPart := []
  backlog  : List (Nat × Nat) := []
  /-- resident images (R344) -/
  images   : List Resident := []
  /-- kicks that hold an entry of the kick queue (R40, R202) -/
  kickq    : List Nat := []
  /-- notice-ring delivery index (R201) and accepted-notice counts by sending context (R201) -/
  ringIdx  : Nat := 0
  accepted : NMap Nat := []
  deriving DecidableEq, Repr, Inhabited

/-- A snapshot image that hardware wrote (R319, R321): context number, what was captured, whether with the core area, of which
part and node, when, and whether an abort has made it void (R356). -/
structure Image where
  x     : Nat
  ctx   : Ctx
  asid  : Nat
  node  : Nat
  part  : Nat
  evict : Bool := false
  time  : Nat := 0
  wdog  : Nat := 0
  core  : Option Core := none
  void  : Bool := false
  /-- what the part knew of performed writes, by their numbers (R75; log 22) -/
  known : List (Nat × Knows) := []
  /-- the sectors of which it had observed newer bytes than a replica holds (R106, R116) -/
  past  : List Nat := []
  deriving DecidableEq, Repr, Inhabited

/-! ## Engine commands -/

/-- Where a command stands (R185 to R187, R318): `arrived` is a barrier or collective arrival that waits for its episode. -/
inductive CmdPhase where
  | queued
  | started
  | waiting
  | arrived
  | parked
  deriving DecidableEq, Repr, Inhabited

/-- A walk's leaf (R327, R329): its value, its level, the address its word was read at, the function of an ATS slot (R324,
R382), and where the shape record of a columned leaf's region is read. -/
structure Leaf where
  entry : Nat := 0
  level : Nat := 0
  at_   : Nat := 0
  ats   : Option Nat := none
  shapeAt : Nat := 0
  deriving DecidableEq, Repr, Inhabited

/-- A write of an engine that is not performed yet: bytes of device memory by address, with the virtual address of the first of them
by which it walks again when a failed plane has held it (R363), and whether the page is a cached one of the capacity tier (`priv`); bytes
of side slots; bytes of a core's scratchpad with the words set full; bytes of a core's accumulator; words combined into a core's accumulator, then line bits; bytes of another package's
scratchpad; a contribution of a return-free atomic. -/
inductive PWrite where
  | dev (va : Option Nat) (priv : Bool) (cells : List Host.Cell)
  /-- bytes by virtual address in an output region of a restartable node, with their page's leaf (R114, R349) -/
  | staged (leaf : Leaf) (cells : List Host.Cell)
  /-- bytes of the side slot of the plane at a virtual address, by their places; in an output region of a restartable node, whose stage
  page carries them (R114), with the page's leaf and by their offsets -/
  | side (va : Option Nat) (stage : Option Leaf) (cells : List Host.Cell)
  /-- a word of a codeword that its command rewrites whole (R83) -/
  | code (core : Nat) (cells : List Host.Cell) (full : List Nat)
  /-- an entry of a codebook table (R57, R233) -/
  | cbt (entry : Nat) (v : Lane)
  | spad (core : Nat) (cells : List Host.Cell) (full : List Nat)
  | accBytes (core : Nat) (cells : List Host.Cell)
  | acc (core : Nat) (add : Nat) (words : List (Nat × Lane)) (lines : List Nat)
  | remote (pkg core : Nat) (cells : List Host.Cell)
  /-- a return-free contribution to an element, not applied yet (R119, R207); in an output region of a restartable node `key` is its
  virtual address (R114) -/
  | amo (va : Nat) (stage : Option Leaf) (priv : Bool) (key type op : Nat) (v : Word)
  deriving DecidableEq, Repr, Inhabited

/-- The contents of a tile's latch (R217). -/
structure Latch where
  valid   : Bool := false
  fmt     : Nat := 0
  layout  : Nat := 0
  base    : Nat := 0
  slot    : Nat := 0
  asid    : Nat := 0
  weights : List Byte := []
  side    : List Byte := []
  /-- a parity error that no macro has found yet (R217, R351) -/
  parity  : Bool := false
  deriving DecidableEq, Repr, Inhabited

/-- What has become of an access of a command: not made yet, made with what it answered, failed with a status, or held with a group of
held accesses (R97, R188, R330) (log 25). -/
inductive Answer where
  | open_
  | held (group : Nat)
  | bytes (bs : List Byte)
  | failed (status : Nat)
  deriving DecidableEq, Repr, Inhabited

/-- A shape record (R89). -/
structure Shape where
  at_    : Nat := 0
  base   : Nat := 0
  die    : Nat := 0
  c0     : Nat := 0
  kt     : Nat := 0
  nt     : Nat := 0
  planes : Nat := 0
  rows   : Nat := 0
  p0     : Nat := 0
  layout : Nat := 0
  asid   : Nat := 0
  /-- the reserved fields: bits [63:36] of the row mask, bytes 34 to 63 -/
  reserved : Nat := 0
  deriving DecidableEq, Repr, Inhabited

/-- An engine command between its trigger and the end of its token's use. -/
structure Command where
  instr    : Instr := .recordTake
  cmd      : Cmd := { id := 0 }
  unit     : Nat := 0
  op       : Nat := 0
  phase    : CmdPhase := .queued
  /-- accepted by its engine (R187, R315) -/
  accepted : Bool := true
  status   : Nat := 0
  writes   : List PWrite := []
  /-- writes made after all of `writes` (R199: the layout identifier; R253: a list's header) -/
  late     : List PWrite := []
  /-- a sequence stamp still to be written, its eight bytes left open (R112, R195) -/
  stamp    : Option PWrite := none
  /-- pages translated for accesses not all performed, as (asid, virtual page) (R332, R364) -/
  pages    : List (Nat × Nat) := []
  /-- the leaves by which a drive's region was translated, once for the command (R268, R332) -/
  leaves   : List (Nat × Nat × Leaf) := []
  /-- by plane slot of a drive's steps, the virtual address and the place of burst 0 in every column, as so translated (R268) -/
  places   : List (Nat × List (Nat × Nat)) := []
  /-- what it makes of its accesses: all that are left at its next step, or a free choice of them; the answers of those made, in the
  order of its meaning and of its parts that do not depend on each other (R97, R100) (log 25) -/
  whole    : Bool := true
  log      : List Answer := []
  parts    : List (List Answer) := []
  /-- view-join bundles issued up to the trigger, the performed writes it must see in either stream (R75, R191), and what it carries
  of performed writes (R100, R110) -/
  joins    : Nat := 0
  seenLin  : List Nat := []
  seenSwz  : List Nat := []
  carry    : List Carry := []
  /-- commands of other contexts that are ordered before it (R102, R109) (log 55) -/
  after    : List Nat := []
  /-- the number of the next performed write at its issue (R111) -/
  mark     : Nat := 0
  /-- the packages of its writes to others that are still on their way there (R101) -/
  away     : List Nat := []
  /-- the commands of its part before this number are ordered before it for every die (R96, R107) -/
  wide     : Nat := 0
  /-- a record it read at its issue was poisoned (R83) -/
  badRecord : Bool := false
  /-- the device ranges that records fix at its issue as its possible writes, none where one could not be read (R104) (log 54) -/
  spans    : Option (List (Nat × Nat)) := some []
  /-- address of the triggering bundle (R354) -/
  trig     : Nat := 0
  /-- words of codewords that it rewrites whole which it has rewritten so far, by core and codeword, bit i for word i (R83) (log 32) -/
  mended   : List (Nat × Nat × Nat) := []
  /-- sectors that it writes in part of which some byte has been performed, by address, of a stage page by virtual address (R194) -/
  begun    : List (Bool × Nat) := []
  /-- lines of accumulators of which an add has found a word uncorrectable (R229) -/
  spoiled  : List (Nat × Nat) := []
  /-- the shape record of a weight load's region as read at its start (R332) -/
  region   : Option Shape := none
  /-- writes of it were held at a failed plane and walk again before they are performed (R363) -/
  again    : Bool := false
  /-- commands of `uses` that have completed, with their statuses (R200) -/
  ended    : List (Nat × Nat) := []
  /-- tiles it holds (R219); the latches have been swapped (R230); vectors or steps done (R231, R267) -/
  tiles    : List Nat := []
  swapped  : Bool := false
  progress : Nat := 0
  /-- what the latches of its tiles recorded when it was suspended (R231) -/
  saved    : List (Nat × Latch × Latch) := []
  /-- the last value an `ec.acqw` read, and that its deadline has passed (R208) -/
  lastRead : Nat := 0
  timedOut : Bool := false
  /-- flag bits of a list header (R255) -/
  detail   : Nat := 0
  /-- the phase it had when it was parked (R318) -/
  wasPhase : CmdPhase := .queued
  /-- parked: a completion that has arrived meanwhile (R318) -/
  arrivedEnd : Option Nat := none
  deriving DecidableEq, Repr, Inhabited

/-- An access held by translation, protection, a failed plane or a move hold (R330, R363, R364): the command or the node
whose launch reads it belongs to, the record that names it once posted. `kind` is the record kind, 0 for a move hold. -/
structure Held where
  group  : Nat := 0
  cmd    : Option Nat := none
  node   : Option Nat := none
  core   : Nat := 0
  kind   : Nat := 0
  asid   : Nat := 0
  page   : Nat := 0
  dpa    : Nat := 0
  rec_   : Option Nat := none
  deriving DecidableEq, Repr, Inhabited

/-- The outcome of a walk (R329, R335). -/
inductive Walk where
  | leaf (l : Leaf)
  | trans
  | poisoned (dpa : Nat)
  | hostDown
  deriving DecidableEq, Repr, Inhabited

/-- A cached outcome of a walk (R332) (log 40). -/
structure TlbEntry where
  asid : Nat
  page : Nat
  walk : Walk
  deriving DecidableEq, Repr, Inhabited

/-- A live binding of an ASID (R103, R210). -/
structure Binding where
  asid : Nat
  base : Nat
  len  : Nat
  word : Nat
  deriving DecidableEq, Repr, Inhabited

/-- A sector of a cached capacity-tier line as the die that is not the line's home holds it (R91, R116): its bytes, the contexts that
have observed newer ones, and the writes to its line since it was filled, by command, node and part. -/
structure Replica where
  sector : Nat
  bytes  : List Byte
  past   : List Nat := []
  by_    : List (Nat × Nat × Nat) := []
  deriving DecidableEq, Repr, Inhabited

/-- A line of the memory-side cache (R91, R92, R117): dirty bytes, whether a fill is pending. -/
structure CacheLine where
  dirty   : List Nat := []
  node    : Nat := 0
  pending : Bool := false
  deriving DecidableEq, Repr, Inhabited

/-- An arrival at a group's episode (R211 to R213). `own` is a status of its own. One without a command is what another package says of
its part of the episode (R384): `empty` that no part arrived there, `part` the root of a broadcast where it arrived there (log 44). -/
structure Arrival where
  node   : Nat
  group  : Nat
  number : Nat
  part   : Nat
  lcore  : Nat
  pkg    : Nat := 0
  cmd    : Option Nat := none
  coll   : Bool := false
  own    : Nat := 0
  count  : Nat := 0
  op     : Nat := 0
  type   : Nat := 0
  root   : Nat := 0
  data   : List Lane := []
  empty  : Bool := false
  deriving DecidableEq, Repr, Inhabited

/-- A package's share of a gang's node that has completed: the groups in which it had parts, and the gang's packages (R211, R384)
(log 44). -/
structure Share where
  node   : Nat
  pkg    : Nat
  groups : List Nat := []
  pkgs   : Nat := 0
  members : List (Nat × Nat) := []
  deriving DecidableEq, Repr, Inhabited

/-! ## Tiles and channels -/

/-- `owner` is the command that holds the tile (R219). -/
structure Tile where
  active : Latch := {}
  shadow : Latch := {}
  owner  : Option Nat := none
  deriving DecidableEq, Repr, Inhabited

/-- The registers of one trowel unit that differ between the units of a channel (R259). -/
structure Trowel where
  w   : NMap (BitVec 2048) := []
  msk : BitVec 64 := 0
  deriving DecidableEq, Repr, Inhabited

/-- The step a channel is taking (R267), with the place of its burst in each of the 64 bank columns. -/
structure DriveStep where
  kind : Nat
  slot : Nat
  burst : Nat
  cmd  : Nat
  places : List Nat := []
  deriving DecidableEq, Repr, Inhabited

/-- A channel and its 64 trowel units (R259, R269, R270). The units advance in lockstep, so the program, its counter and
its loops are held once (log 14). `leave` is a pending departure from the mode at the next step boundary. -/
structure Channel where
  mode    : Option Nat := none
  holder  : Option Nat := none
  prog    : List (BitVec 32) := []
  pc      : Nat := 0
  lvl     : Nat := 0
  lc0     : Nat := 0
  lc1     : Nat := 0
  top0    : Nat := 0
  top1    : Nat := 0
  halted  : Bool := true
  units   : NMap Trowel := []
  step    : Option DriveStep := none
  mismatch : Bool := false
  deriving DecidableEq, Repr, Inhabited

/-- A stencil slot of every stencil unit: the projection state as read, with its ASID and address (R246). -/
structure Stencil where
  valid : Bool := false
  asid  : Nat := 0
  addr  : Nat := 0
  bytes : List Byte := []
  deriving DecidableEq, Repr, Inhabited

/-! ## Nodes -/

/-- The states of a live node (R348). -/
inductive NodePhase where
  | waiting
  | agreeing
  | running
  | committing
  | ending
  deriving DecidableEq, Repr, Inhabited

/-- A live node (R30, R342, R348); one whose identifier is 0 is not live. -/
structure Node where
  id       : Nat := 0
  queue    : Nat := 0
  order    : Nat := 0
  phase    : NodePhase := .waiting
  priority : Nat := 0
  resident : Bool := false
  restart  : Bool := false
  smode    : Bool := false
  cbright  : Bool := false
  gang     : Bool := false
  asid     : Nat := 0
  nparts   : Nat := 0
  image    : Nat := 0
  args     : Nat := 0
  alen     : Nat := 0
  aplace   : Nat := 0
  cores    : Nat := 0
  groups   : List Nat := []
  seed     : Nat := 0
  preds    : List Nat := []
  tick     : Nat := 0
  pkgs     : Nat := 0
  outputs  : List (Nat × Nat) := []
  /-- take time, time of the own proposal, proposals by package, the agreed tick (R348) -/
  taken    : Nat := 0
  proposedAt : Option Nat := none
  proposals : List (Nat × Nat) := []
  agreed   : Option Nat := none
  /-- the groups in which other packages of its gang have parts, by package and group (R384) (log 44) -/
  members  : List (Nat × Nat) := []
  /-- parts that have ended, physical cores that parts have run on -/
  ended    : List Nat := []
  ran      : List Nat := []
  /-- the footprint of the image's header and sections as they were last read -/
  foot     : List (Nat × Nat) := []
  rollbacks : Nat := 0
  /-- first unobserved engine fault (R35) as the completion record names it, and the reason of a failure -/
  unseen   : Option Nat := none
  fail     : Option Nat := none
  /-- page address and stage-pool page (R349) -/
  stage    : List (Nat × Nat) := []
  /-- commands ordered before what its parts have done (R109) (log 55) -/
  after    : List Nat := []
  /-- snapshot images void after an abort (R356), by the rollbacks made when they were taken -/
  aborted  : Bool := false
  /-- predecessors that were satisfied when their queue was enabled anew (R348) -/
  met      : List Nat := []
  deriving DecidableEq, Repr, Inhabited

/-- A launch record that the queue manager has taken while a read of it is held (R345) (log 70). -/
structure TakenRec where
  id     : Nat
  queue  : Nat
  order  : Nat
  fw     : Bool
  bytes  : List Byte
  time   : Nat
  rollbacks : Nat := 0
  met    : List Nat := []
  deriving DecidableEq, Repr, Inhabited

/-- A completion record on its way to its ring (R348, R363): its node, its bytes, and status and reason for the event log. -/
structure Owed where
  id    : Nat
  bytes : List Byte
  word  : Nat
  deriving DecidableEq, Repr, Inhabited

/-! ## Faults -/

/-- A fault record before it is posted (R354); `source` is the place whose records stay in order (R355), `group` the held
accesses that it names. -/
structure FaultRec where
  source : Nat := 0
  time   : Nat := 0
  kind   : Nat
  flags  : Nat := 0
  code   : Nat := 0
  node   : Nat := 0
  asid   : Nat := 0
  pcore  : Nat := 0x7F
  ctx    : Nat := 0
  tile   : Nat := 0xFFFF
  va     : Nat := 0
  dpa    : Nat := 0
  tpc    : Nat := 0
  lpc    : Nat := 0
  detail : Nat := 0
  group  : Option Nat := none
  deriving DecidableEq, Repr, Inhabited

/-- An event waiting to be logged (R358). -/
structure LogEvent where
  time : Nat
  kind : Nat
  a    : Nat := 0
  b    : Nat := 0
  deriving DecidableEq, Repr, Inhabited

/-- A repair under way (R361, R362): tile, category, the index of the resource that reached its threshold, the plane where the error
was, steps left, and for a plane remap the resource's category. -/
structure Repair where
  tile     : Nat
  category : Nat
  index    : Nat
  plane    : Nat := 0
  steps    : Nat
  pending  : Bool := true
  remap    : Option Nat := none
  deriving DecidableEq, Repr, Inhabited

/-- A failed plane: the resource that had no spare, and the record that its accesses join (R362, R363). -/
structure FailedPlane where
  tile  : Nat
  plane : Nat
  category : Nat := 0
  index : Nat := 0
  group : Nat
  rec_  : Option Nat := none
  deriving DecidableEq, Repr, Inhabited

/-- A page move under way (R364). -/
structure PageMove where
  asid  : Nat
  page  : Nat
  delta : Nat
  deriving DecidableEq, Repr, Inhabited

/-- A skim pass under way (R367): the next page, whether its D has been cleared already, pages copied, pages skipped for uncorrectable
data. -/
structure Skim where
  next   : Nat := 0
  cleared : Bool := false
  copied : Nat := 0
  errors : Nat := 0
  deriving DecidableEq, Repr, Inhabited

/-! ## What leaves the package -/

/-- What the package sends or shows outside: an MSI-X message, an interrupt to the command processors, a hint, a message to
another package, the answer to a host read (`none` is Unsupported Request), the answer to a PTM request, the completion of a host's ATS
invalidation (R382), the answer to a read over the management bus (R395), the time that a master sends (R385). -/
inductive OutMsg where
  | msix (fn vector : Nat)
  | interrupt (cause : Nat)
  | hint (node part core : Nat)
  | message (pkg : Nat) (m : LinkMessage)
  | hostData (bytes : Option (List Byte))
  | ptm (dtime : Nat)
  | invalidated (asid va : Nat)
  | management (bytes : List Byte)
  | time (dtime : Nat)
  deriving DecidableEq, Repr, Inhabited

/-- What the host has posted and the port has not performed yet (R381): bytes of a window write, the bytes of a window read as they are
found, with the pages that they were translated by, and a doorbell store behind window writes. -/
inductive HostReq where
  | write (pages : List (Nat × Nat)) (cells : List Host.Cell)
  | read (pages : List (Nat × Nat)) (bytes : List (Nat × Option Byte))
  | store (tail : Bool) (q v fn : Nat)
  deriving DecidableEq, Repr, Inhabited

/-! ## The package -/

/-- The next part of a step that is indivisible: a row, a trigger with its operands, the issue of an engine command with the
templates before its bundle (R197), and the two fetches (log 3). -/
inductive Micro where
  | run (i : Instr)
  | fire (f : Fire) (i : Instr)
  | issue (f : Fire) (unit op : Nat) (tmpl : NMap (List Byte))
  | bundle (x : Nat)
  | trowel (ch : Nat)
  deriving DecidableEq, Repr, Inhabited

structure Pkg where
  micro  : List Micro := []
  /-- operands of the trigger being performed (R129) -/
  fire   : Fire := { ctx := 0 }
  /-- channel whose trowel units the instruction acts on -/
  focus  : Nat := 0
  fresh  : Nat := 0
  /-- the number of the next performed write to a scratchpad (log 22) -/
  nextWrite : Nat := 1
  ctx    : NMap Ctx := []
  core   : NMap Core := []
  /-- device memory by DPA: bonded DRAM, host memory, CXL memory (R325) -/
  mem    : Memory := []
  /-- side slots: byte b of the side slot of plane p of tile ti at 256 (24,576 ti + p) + b (R15) -/
  side   : Memory := []
  /-- uncorrectable sectors by DPA / 32 (R352), page-table words marked poisoned by DPA / 8 (R335) -/
  badSector : NMap Bool := []
  poisonTbl : NMap Bool := []
  tlb    : List TlbEntry := []
  binds  : List Binding := []
  replicas : List Replica := []
  lines  : NMap CacheLine := []
  held   : List Held := []
  nextGroup : Nat := 1
  cmds   : NMap Command := []
  nextCmd : Nat := 1
  /-- commands that each command consumed (R108, R187) -/
  edges  : NMap (List Nat) := []
  notices : List Notice := []
  nextNotice : Nat := 1
  arrivals : List Arrival := []
  shares : List Share := []
  tiles  : NMap Tile := []
  stencil : NMap Stencil := []
  /-- codebook tables (R57): entry e of die d's cb2 table at 16384 d + e, of its cb3 table at 16384 d + 8192 + e -/
  cbt    : NMap Lane := []
  chans  : NMap Channel := []
  nodes  : NMap Node := []
  nextOrder : Nat := 1
  taking : List TakenRec := []
  /-- completion records that wait for a failed plane, oldest first (R363) (log 70) -/
  owed   : List Owed := []
  /-- the queue last taken from (R341; log 7), records posted to each queue since enable -/
  lastQueue : Nat := 1023
  posted : NMap Nat := []
  /-- group table by entry, 32 bytes each when written (R346; log 8) -/
  groups : NMap (List Byte) := []
  /-- device registers by address (R386), those that hold a value of their own -/
  reg    : NMap Word := []
  /-- the snapshot images that hardware wrote (R321; log 9) -/
  images : List Image := []
  /-- what packages have said of gangs whose record has not been taken here (R348) -/
  early  : List (Nat × Nat × GangWord) := []
  faultq : List FaultRec := []
  logq   : List LogEvent := []
  repairs : List Repair := []
  failed : List FailedPlane := []
  /-- corrected events by resource (R361) -/
  counts : NMap Nat := []
  move   : Option PageMove := none
  skim   : Option Skim := none
  /-- edge ports that have failed since the last reset (R383) -/
  deadPorts : List Nat := []
  /-- the time masters heard, each with the port over which it was heard, and whether device time has been taken from one (R385) -/
  masters : List (Nat × Nat) := []
  timed  : Bool := false
  /-- messages sent on towards other packages, whose senders a failing port is told to (R383) (log 84) -/
  forwarded : List LinkMessage := []
  /-- host accesses not performed yet (R381), ATS invalidations not complete yet (R382) (logs 82, 83) -/
  hostq  : List HostReq := []
  atsWait : List (Nat × Nat) := []
  /-- RESET_N asserted (R387, R395); THERM_TRIP_N driven low (R394) -/
  inReset : Bool := true
  /-- a package fault has happened since the last reset (R351) -/
  broken : Bool := false
  tripped : Bool := false
  /-- arithmetic clock in steps of 68.75 MHz above 275 MHz (R392) below the top -/
  slow   : Nat := 0
  /-- MSI-X vectors that the host has masked, and those pending (R378, R379; log 11), by 1024 * function + vector; the bytes of the tables,
  16,384 a function (log 99) -/
  masked : NMap Bool := []
  pendingVec : NMap Bool := []
  vectors : Memory := []
  /-- repair log of the module flash (R388; log 10) -/
  flash  : List FaultRec := []
  /-- what has left the package, newest last (log 4) -/
  out    : List OutMsg := []
  deriving DecidableEq, Repr, Inhabited

/-- Time and the choice of events: nothing but a step and device reset changes it. -/
structure Env where
  /-- device time in nanoseconds (R7, R8) -/
  dtime    : Nat := 0
  /-- clock cycles (R7) -/
  clock    : Nat := 0
  /-- draw counter of the step (log 2) -/
  tick     : Nat := 0
  /-- the events to happen next, and what reaches the package from outside with each (logs 1, 99) -/
  schedule : List Instr := []
  inputs   : List (Option Outside) := []
  /-- the rate correction of device time in ppm (R385) -/
  steer    : Int := 0
  deriving DecidableEq, Repr, Inhabited

structure State where
  env : Env := {}
  pkg : Pkg := {}
  deriving DecidableEq, Repr, Inhabited

/-- The device registers whose reset value is not 0 (R310, R337, R360, R389), in the order of their addresses: PWR_CAP,
SCHED_CTL and KICK_BACKOFF of every core, CORE_MAP, REPAIR_WINDOW, REPAIR_THRESH, RESERVE_FLOOR. -/
def resetRegs : NMap Word :=
  [(0x018, 2800)] ++
  ((List.range 72).flatMap fun n => [(0x01000008 + 0x1000 * n, (0x100 : Word)), (0x01000018 + 0x1000 * n, 0x100)]) ++
  ((List.range 9).map fun k => (0x03000040 + 8 * k, (0xFFFFFFFFFFFFFFFF : Word))) ++
  [(0x04000050, 0x4000), (0x04000058, 0x40408), (0x04000060, 4)]

/-- The machine right after device reset: RESET_N is still asserted (R387). -/
def State.reset : State := { pkg := { reg := resetRegs } }

end Sys2Proof.Machine
end

