-- ==== Sys2Proof/Machine/Operands.lean ====
section
/-! DEFINITION. Operand forms: the conversions between classes (R125), register renaming (R137), the value of every source
port (R124, R128) and the write of every destination that is not a trigger (R126). -/

namespace Sys2Proof

/-- Conversion to class S (R125). -/
def Val.toS : Val → Word
  | .s x => x
  | .v x => (x.lane 0).setWidth 64
  | .p x => if x then 1 else 0
  | .m x => if x.getLsbD 0 then 0x00000000FFFFFFFF else 0

/-- Conversion to class V (R125). -/
def Val.toV : Val → Vec
  | .s x => Vec.splat (x.setWidth 32)
  | .v x => x
  | .p x => Vec.splat (if x then 1 else 0)
  | .m x => Vec.tab fun i => if x.getLsbD i then 0xFFFFFFFF else 0

/-- Conversion to class P (R125). -/
def Val.toP : Val → Bool
  | .s x => x != 0
  | .v x => x.lane 0 != 0
  | .p x => x
  | .m x => x.getLsbD 0

/-- A mask whose bit i is `f i`. -/
def Mask.tab (f : Nat → Bool) : Mask := BitVec.ofNat 128 (digits 1 ((List.range 128).map fun i => b2n (f i)))

/-- Conversion to class M (R125). -/
def Val.toM : Val → Mask
  | .s x => if x.setWidth 32 = (0 : Lane) then 0 else BitVec.allOnes 128
  | .v x => Mask.tab fun i => x.lane i != 0
  | .p x => if x then BitVec.allOnes 128 else 0
  | .m x => x

namespace Machine

/-- The bits a move or a landing keeps of a context register (R65, R128); reserved bits stay 0. -/
def cregMask (code : Nat) : Word :=
  match code with
  | 0x0C0 => 0x3 | 0x0C1 => 0x7F | 0x0C2 => 0x7F | 0x0C3 => 0x1F | 0x0C4 => 0x1 | 0x0C5 => 0x3F
  | 0x0C6 => 0xFFFF | 0x0C7 => 0xFFFF | 0x0C9 => 0xFFFF | 0x0CA => 0xFFFFFFFF | 0x0CB => 0x1
  | 0x0CC => 0x1FF | 0x0CD => 0x1FF | 0x0CE => 0x1FF | 0x0CF => 0x1FF
  | 0x0D0 => 0x7F | 0x0D1 => 0xFFFFFFFF | 0x0D4 => 0xFFFFFFFF | 0x0D5 => 0xFFFFFFFF | 0x0D6 => 0x1F
  | 0x0D8 => 0xFFFFFFE0 | 0x0DA => 0xFFFFFFE0
  | _ => 0xFFFFFFFFFFFFFFFF

namespace Ctx

/-- A context register by its code; c.dtime is not stored (R128). -/
def cr (c : Ctx) (code : Nat) : Word := c.creg.get code
def setCr (c : Ctx) (code : Nat) (x : Word) : Ctx := { c with creg := c.creg.set code (x &&& cregMask code) }

def fflags (c : Ctx) : Word := c.cr 0x0D0
def amax (c : Ctx) : Word := c.cr 0x0D1
def sc (c : Ctx) : Word := c.cr 0x0D2
def srs (c : Ctx) : Word := c.cr 0x0D3
def lc (c : Ctx) : Word := c.cr 0x0D4
def lcx (c : Ctx) : Word := c.cr 0x0D5
def rrb (c : Ctx) : Nat := (c.cr 0x0D6).toNat
def tvec (c : Ctx) : Nat := (c.cr 0x0D8).toNat
def tpc (c : Ctx) : Nat := (c.cr 0x0DA).toNat
/-- The group-table indices that c.g0 to c.g3 name (R128) (log 21). -/
def groups (c : Ctx) : List Nat :=
  ([0x0CC, 0x0CD, 0x0CE, 0x0CF].map c.cr).filterMap fun g => if g.getLsbD 8 then some (g.toNat % 256) else none

/-- The physical vector register that vn names (R137). -/
def phys (c : Ctx) (n : Nat) : Nat := if n < 32 then n else 32 + (n - 32 + c.rrb) % 32

end Ctx

/-- Ports of class V: vf0, vf1, vi, vc, sf, xc, and every h port but sm.h (R127). -/
def vectorPort (code : Nat) : Bool := (0x076 ≤ code && code ≤ 0x07B) || (0x083 ≤ code && code ≤ 0x08B)

/-- The value of a source port (R124), with device time as c.dtime. -/
def readSrc (dtime : Nat) (c : Ctx) (b : Bundle) : Src → Val
  | .s n => .s (c.s.get n)
  | .v n => .v (c.v.get (c.phys n))
  | .p n => .p (c.p.getLsbD n)
  | .m n => .m (c.m.get n)
  | .r f => if vectorPort (0x070 + f) then .v (c.vport.get (0x070 + f)) else .s (c.rport.get (0x070 + f))
  | .h f => if vectorPort (0x080 + f) then .v (c.vport.get (0x080 + f)) else .s (c.rport.get (0x080 + f))
  | .creg code => if code = 0x0D7 then .s (BitVec.ofNat 64 dtime) else .s (c.cr code)
  | .short x => .s (x.signExtend 64)
  | .imm32z => .s (b.imm32.setWidth 64)
  | .imm32s => .s (b.imm32.signExtend 64)
  | .imm16z => .s (b.imm16.setWidth 64)
  | .imm16s => .s (b.imm16.signExtend 64)
  | .imm48 => .s ((b.imm16 ++ b.imm32).setWidth 64)

/-- The predicates with pn set to `x`. -/
def setPred (p : BitVec 8) (n : Nat) (x : Bool) : BitVec 8 :=
  if x then p ||| ((1 : BitVec 8) <<< n) else p &&& ~~~((1 : BitVec 8) <<< n)

/-- The write of a destination that is a register (R125, R126); triggers and operand ports write nothing. The renaming is
that of the context the bundle's sources are read from (R130). -/
def writeDst (src : Ctx) (c : Ctx) (x : Val) : Dst → Ctx
  | .s n => { c with s := c.s.set n x.toS }
  | .v n => { c with v := c.v.set (src.phys n) x.toV }
  | .p n => { c with p := setPred c.p n x.toP }
  | .m n => { c with m := c.m.set n x.toM }
  | .creg code => c.setCr code x.toS
  | .operand _ _ => c
  | .trigger _ _ => c

/-- A guard is met: never by a never slot (R122). -/
def Slot.active (c : Ctx) (s : Slot) : Bool :=
  if s.guard = 0 then !s.neg else c.p.getLsbD s.guard.toNat != s.neg

/-- An active move with its value. -/
structure Move where
  dst : Dst
  val : Val
  deriving DecidableEq, Repr, Inhabited

/-- The active moves of a bundle with the values their sources have (R130); codes that name no port move nothing. -/
def moves (dtime : Nat) (c : Ctx) (b : Bundle) : List Move :=
  b.slots.filterMap fun s =>
    if Slot.active c s then
      match decodeSrc s.src, decodeDst s.dst with
      | some src, .ok dst => some ⟨dst, readSrc dtime c b src⟩
      | _, _ => none
    else none

/-- What the bundle's moves left in operand port i of unit f; 0 when none did (R129). -/
def port (ms : List Move) (f i : Nat) : Val :=
  match ms.find? (fun m => m.dst == .operand f i) with
  | some m => m.val
  | none => .s 0

/-- The registers triggers read without a port, before any move of the bundle (R131). -/
def srcRegs (c : Ctx) (vn : Nat) : SrcRegs :=
  { s31 := c.s.get 31, tpc := c.cr 0x0DA, lc := c.lc, lcx := c.lcx, p := c.p, rrb := c.cr 0x0D6,
    vreg := c.v.get (c.phys vn) }

/-- The operands of a trigger of unit f of context x whose own value is `v`; `c` is the context before the moves (log 26). -/
def fireOf (x : Nat) (c : Ctx) (h : Header) (ms : List Move) (f : Nat) (v : Val) : Fire :=
  { ctx := x, alt := f = 1 || f = 5 || f = 7, hdr := h, a := port ms f 0, d := port ms f 1, c := port ms f 2,
    aux := port ms f 3, b := v, src := srcRegs c ((port ms f 2).toS.toNat % 64) }

end Machine
end Sys2Proof
end

