-- ==== Sys2Proof/Machine/Flags.lean ====
section
/-! DEFINITION. The arithmetic flags and the running maximum (R65 to R67): computed at issue, applied when the entry lands. -/

namespace Sys2Proof.Machine

/-- The flags of several results together. -/
def orFlags (rs : List Rounded) : Nat := rs.foldl (fun a r => a ||| r.flags) 0

/-- c.fflags after an entry's flags have landed: they are sticky (R66). -/
def landFlags (fl : Lane) (c : Ctx) : Ctx := c.setCr 0x0D0 (c.fflags ||| fl.setWidth 64)

/-- c.amax after a candidate has landed (R67): the larger magnitude. -/
def landAmax (cand : Option Lane) (c : Ctx) : Ctx :=
  match cand with
  | none => c
  | some x => if FVal.lt (Lane.val (c.amax.setWidth 32)) (Lane.val x) then c.setCr 0x0D1 (x.setWidth 64) else c

/-- The largest magnitude among elements that are not NaN, as binary32 (R67). -/
def amaxOf (xs : List FVal) : Option Lane :=
  let ys := xs.filter fun x => !x.isNan
  match ys with
  | [] => none
  | y :: rest => some (exactF32 (rest.foldl (fun a x => if FVal.lt a x.abs then x.abs else a) y.abs))

/-- Whether a NaN reached `vf.amx` or `vc.cvta` (R67). -/
def sawNan (xs : List FVal) : Bool := xs.any FVal.isNan

end Sys2Proof.Machine
end

