-- ==== Sys2Proof/Machine/Ops.lean ====
section
/-! DEFINITION. The named operations over the state: access to contexts and cores, free values, local storage with its two
streams (R70 to R84, R153), in-flight entries, taking an S-class trap (R308) and a U-class trap (R150), and the return. -/

namespace Sys2Proof.Machine

abbrev Out := Host.Outcome State Fault Refusal

/-- The next state with another package. -/
def State.put (s : State) (p : Pkg) : Out := .next { s with pkg := p }

/-! ## Memory -/

/-- The byte at an address; an unlisted one is 0 (R70, R387; log 6 for memory outside the package). -/
def Memory.get (m : Memory) (a : Nat) : Byte := NMap.get m a
/-- The memory with one byte written. -/
def Memory.set (m : Memory) (a : Nat) (b : Byte) : Memory := NMap.set m a b
/-- `n` bytes from `a` on. -/
def Memory.getMany (m : Memory) (a n : Nat) : List Byte := NMap.getMany m a n
/-- The memory with bytes written from `a` on. -/
def Memory.setMany (m : Memory) (a : Nat) (bs : List Byte) : Memory := NMap.setMany m a bs
/-- The memory with several bytes written. -/
def Memory.setCells (m : Memory) (cs : List Host.Cell) : Memory := cs.foldl (fun m c => m.set c.1 c.2) m
/-- The canonical form. -/
def Memory.wf (m : Memory) : Bool := NMap.wf m

/-! ## Access -/

/-- The physical core of a context number 4 * pcore + ctx. -/
def coreOf (x : Nat) : Nat := x / 4

namespace Pkg

def c (p : Pkg) (x : Nat) : Ctx := p.ctx.get x
def setC (p : Pkg) (x : Nat) (c : Ctx) : Pkg := { p with ctx := p.ctx.set x c }
def modC (p : Pkg) (x : Nat) (f : Ctx → Ctx) : Pkg := p.setC x (f (p.c x))
def k (p : Pkg) (n : Nat) : Core := p.core.get n
def setK (p : Pkg) (n : Nat) (k : Core) : Pkg := { p with core := p.core.set n k }
def modK (p : Pkg) (n : Nat) (f : Core → Core) : Pkg := p.setK n (f (p.k n))
/-- The next free value is drawn past the present one. -/
def drawn (p : Pkg) (n : Nat) : Pkg := { p with fresh := p.fresh + n }
/-- The next parts of the step under way. -/
def push (p : Pkg) (ms : List Micro) : Pkg := { p with micro := ms ++ p.micro }
def pushEnd (p : Pkg) (ms : List Micro) : Pkg := { p with micro := p.micro ++ ms }

/-- The priority of a context: its node's (R30). -/
def priority (p : Pkg) (x : Nat) : Nat :=
  match (p.c x).node with
  | some n => (p.nodes.get n).priority
  | none => 0

/-- The node identifier of a context's part, 0 without one. -/
def nodeId (p : Pkg) (x : Nat) : Nat :=
  match (p.c x).node with
  | some n => (p.nodes.get n).id
  | none => 0

end Pkg

/-- The addresses of linear scratchpad (R70). -/
def spadSize : Nat := 0x800000

/-! ## In-flight entries -/

/-- A new entry of a context, triggered at the present issue cycle. -/
def addEntry (x : Nat) (e : Entry) (p : Pkg) : Pkg :=
  p.modC x fun c => { c with flight := c.flight ++ [{ e with order := c.nextOrder }], nextOrder := c.nextOrder + 1 }

/-- A result on its way to the ports of a unit after `l` issue cycles (R43, R127). -/
def deliver (x unit op l : Nat) (r : Option Val) (h : Option Vec) (flags : Nat) (p : Pkg) : Pkg :=
  addEntry x { unit := unit, op := op, left := l, order := 0, kind := .result, r := r, h := h,
               flags := BitVec.ofNat 32 flags } p

/-! ## The streams of local accesses (R75) -/

/-- A pending store is ordered before an access of stream `swz` triggered after `joins` view-join bundles. -/
def LStore.before (st : LStore) (swz : Bool) (joins : Nat) : Bool :=
  st.swz == swz || (match st.both with | some j => decide (j ≤ joins) | none => false)

/-- A context knows a performed write: the write is ordered before its accesses of the stream. -/
def Knows.covers (kn : Knows) (x : Nat) (swz : Bool) (joins : Nat) : Bool :=
  kn.ctx == x && (match if swz then kn.swz else kn.lin with | some j => decide (j ≤ joins) | none => false)

/-- A performed write must be observed by the access (R153 rule 6, R76, R75, R80) (log 22). -/
def Stale.seen (e : Stale) (x : Nat) (swz : Bool) (joins : Nat) : Bool :=
  e.any || e.swz == swz || e.known.any fun kn => kn.covers x swz joins

/-- The choice, for one word and one unordered write, whether an access observes it (log 22). -/
def sees (fresh i w : Nat) : Bool := Config.freeBool (fresh + 0x400000 * i + w)

/-- The draws that one access may take. -/
def accessDraws (p : Pkg) (x : Nat) : Nat :=
  0x400000 * ((p.k (coreOf x)).stale.length + (p.c x).flight.length + 1)

/-- Some of the bytes of word w. -/
def touches (w : Nat) (cells : List Host.Cell) : Bool := cells.any fun c => c.1 / 4 == w

/-- The word's four bytes with the listed bytes laid over them. -/
def overlay (w : Nat) (cells : List Host.Cell) (bs : List Byte) : List Byte :=
  (List.range 4).map fun i =>
    match cells.find? fun c => c.1 == 4 * w + i with
    | some c => c.2
    | none => bs.getD i 0

/-- The bytes of a word as an access that need not see every performed write observes them: newest write first, the bytes of one that is
not seen are undone where no newer write that is seen gave them; `set` are the bytes that have their value (R75, R153 rule 6). -/
def viewBytes (fresh : Nat) (visible : Stale → Bool) (w : Nat) : Nat → List Stale → List Nat → List Byte → List Byte
  | _, [], _, bs => bs
  | i, e :: es, set, bs =>
    if !touches w e.old then viewBytes fresh visible w (i + 1) es set bs
    else if visible e || sees fresh i w then viewBytes fresh visible w (i + 1) es (e.old.map (·.1) ++ set) bs
    else viewBytes fresh visible w (i + 1) es set (overlay w (e.old.filter fun c => !set.contains c.1) bs)

/-- The tag of a word seen the same way, with the same choices. -/
def viewTag (fresh : Nat) (visible : Stale → Bool) (w : Nat) : Nat → List Stale → Bool → Bool
  | _, [], t => t
  | i, e :: es, t =>
    match e.tags.find? fun q => q.1 == w with
    | some q =>
      if !visible e && !sees fresh i w then viewTag fresh visible w (i + 1) es q.2 else t
    | none => viewTag fresh visible w (i + 1) es t

/-- The pending stores of a context in the order of their triggers. -/
def pending (c : Ctx) : List LStore :=
  c.flight.filterMap fun e => if e.kind = .store && !e.done then e.store else none

/-- A pending store is observed by an access of its own context: when ordered before it, and else by choice (R75). -/
def observed (fresh i w : Nat) (swz : Bool) (joins : Nat) (st : LStore) : Bool :=
  st.before swz joins || sees fresh i w

/-- Word w of the scratchpad as context x observes it through a stream (R75, R153 rule 4). -/
def Pkg.wordAt (p : Pkg) (x : Nat) (swz : Bool) (joins : Nat) (w : Nat) : Lane :=
  let k := p.k (coreOf x)
  let base := viewBytes p.fresh (fun e => e.seen x swz joins) w 0 k.stale.reverse [] (k.spad.getMany (4 * w) 4)
  let pend := pending (p.c x)
  let bs := ((List.range pend.length).zip pend).foldl
    (fun bs q => if touches w q.2.bytes && observed p.fresh (k.stale.length + q.1) w swz joins q.2
      then overlay w q.2.bytes bs else bs) base
  BitVec.ofNat 32 (natOf bs)

/-- The tag of word w as context x observes it. -/
def Pkg.tagAt (p : Pkg) (x : Nat) (swz : Bool) (joins : Nat) (w : Nat) : Bool :=
  let k := p.k (coreOf x)
  let base := viewTag p.fresh (fun e => e.seen x swz joins) w 0 k.stale.reverse (k.tags.get w)
  let pend := pending (p.c x)
  ((List.range pend.length).zip pend).foldl
    (fun t q => match q.2.tags.find? fun g => g.1 == w with
      | some g => if observed p.fresh (k.stale.length + q.1) w swz joins q.2 then g.2 else t
      | none => t) base

/-- Word w as the fetch of context x finds it: a write that no fence of the context has followed may be seen or not (R73) (log 23). -/
def Pkg.fetchWord (p : Pkg) (x w : Nat) : Lane :=
  let k := p.k (coreOf x)
  let base := viewBytes p.fresh (fun e => e.fetch.contains x) w 0 k.stale.reverse [] (k.spad.getMany (4 * w) 4)
  let pend := pending (p.c x)
  let bs := ((List.range pend.length).zip pend).foldl
    (fun bs q => if touches w q.2.bytes && sees p.fresh (k.stale.length + q.1) w then overlay w q.2.bytes bs else bs) base
  BitVec.ofNat 32 (natOf bs)

/-- The 32 bytes of the bundle at an address; at one that is no multiple of 4, which R120 leaves open, those from the word below on
(log 23). -/
def Pkg.fetchBundle (p : Pkg) (x addr : Nat) : Bundle :=
  bundleOfBytes ((List.range 8).flatMap fun i => bytesOf 4 (p.fetchWord x (addr / 4 + i)).toNat)

/-- The line full bit as a context observes it: its own pending `st.tg` first. -/
def Pkg.lineAt (p : Pkg) (x l : Nat) : Bool :=
  (pending (p.c x)).foldl (fun t st => match st.lines.find? fun g => g.1 == l with | some g => g.2 | none => t)
    ((p.k (coreOf x)).lines.get l)

/-! ## Performing stores -/

/-- A write is ordered before the accesses of a stream that a context triggers after so many view-join bundles. -/
def Stale.knownTo (e : Stale) (x : Nat) (swz : Bool) (joins : Nat) : Bool := e.known.any fun kn => kn.covers x swz joins
/-- The order in which a write stands before what a context does has left the writer's core as R225 asks. -/
def Stale.farTo (e : Stale) (x joins : Nat) : Bool := e.knownTo x true joins || e.known.any fun kn => kn.ctx == x && kn.far

/-- The flags of words of a core whose tags change are gone, and those of the change are set. A store that sets a full tag full again is
the last change of the tag (R80) (DESIGN CHOICE, log 22). -/
def Stale.reflag (core : Nat) (ws : List Nat) (set : Option (Bool × Bool × Bool)) (e : Stale) : Stale :=
  let kept := e.flags.filter fun f => !(f.core == core && ws.contains f.word)
  match set with
  | none => if e.flags.isEmpty then e else { e with flags := kept }
  | some b => { e with flags := kept ++ ws.map fun w => ⟨core, w, b.1, b.2.1, b.2.2⟩ }

/-- A tag change by an access of context x: the writes ordered before the access are now ordered before whoever next finds
the tag (R80). -/
def carryFlags (x : Nat) (swz : Bool) (joins : Nat) (ws : List Nat) (e : Stale) : Stale :=
  let lin := e.knownTo x swz joins
  e.reflag (coreOf x) ws (if lin || e.farTo x joins then some (lin, e.knownTo x true joins, e.farTo x joins) else none)

/-- Every core's performed writes are changed alike. -/
def Pkg.modStale (p : Pkg) (f : Stale → Stale) : Pkg :=
  { p with core := p.core.map fun q => (q.1, { q.2 with stale := q.2.stale.map f }) }

/-- A codeword's sixteen words all rewritten (R83) (log 32). -/
def clearPoison (whole : Bool) (cells : List Host.Cell) (m : NMap Bool) : NMap Bool :=
  if whole then cells.foldl (fun m c => if c.1 % 64 = 0 then m.set (c.1 / 64) false else m) m else m

/-- An accumulator word after a store of mode m (R156). -/
def accStore (m : Nat) (old new : Lane) : Lane :=
  match m with
  | 0 => new
  | 1 => laneOf (addF32 old new)
  | 2 => old + new
  | _ => maxF32 old new

/-- For which accesses of its own context a performed store is ordered before (R75). -/
def LStore.knows (x : Nat) (st : LStore) : Knows :=
  if st.swz then { ctx := x, lin := st.both, swz := some 0, linJoin := st.both.isNone }
  else { ctx := x, lin := some 0, swz := st.both, swzJoin := st.both.isNone }

/-- The storage after a store of context x, the n-th write, with what other views may still see of the old. Of two stores that
nothing orders the one performed last gives a byte its value (R75) (log 22). -/
def Core.apply (n node x : Nat) (st : LStore) (k : Core) : Core :=
  let entry : List Stale :=
    if st.bytes.isEmpty && st.tags.isEmpty then []
    else [{ number := n, swz := st.swz, old := st.bytes.map fun c => (c.1, k.spad.get c.1),
            tags := st.tags.map fun g => (g.1, k.tags.get g.1), known := [st.knows x], node := node }]
  { k with
    spad := k.spad.setCells st.bytes
    tags := st.tags.foldl (fun m g => m.set g.1 g.2) k.tags
    acc := st.acc.foldl (fun m a => m.set a.1 (accStore st.mode (m.get a.1) a.2)) k.acc
    badAcc := if st.mode = 0 then st.acc.foldl (fun m a => m.set a.1 false) k.badAcc else k.badAcc
    lines := st.lines.foldl (fun m g => m.set g.1 g.2) k.lines
    poison := clearPoison st.whole st.bytes k.poison
    stale := k.stale ++ entry }

/-- Tags of a core that change convey the commands given (R80, R102, R109) (log 55). -/
def conveyTags (n : Nat) (ws ids : List Nat) (p : Pkg) : Pkg :=
  if ws.isEmpty then p else p.modK n fun k => { k with conveyed := ws.foldl (fun m w => m.set w ids) k.conveyed }

/-- A store of context x is performed (R75, R77, R80, R83, R84). -/
def applyStore (x : Nat) (st : LStore) (p : Pkg) : Pkg :=
  let p := if st.tags.isEmpty then p else p.modStale (carryFlags x st.swz st.joins (st.tags.map (·.1)))
  let p := conveyTags (coreOf x) (st.tags.map (·.1)) (p.c x).after p
  { p.modK (coreOf x) (Core.apply p.nextWrite ((p.c x).node.getD 0) x st) with nextWrite := p.nextWrite + 1 }

/-- The pending stores that must be performed when the store `st` of the same context is: those ordered before it, and
those in `also` (R153 rules 2 and 3). -/
def performWhere (x : Nat) (which : Entry → LStore → Bool) (p : Pkg) : Pkg :=
  let c := p.c x
  let due := c.flight.filter fun e => e.kind = .store && !e.done && (match e.store with | some st => which e st | none => false)
  let p := due.foldl (fun p e => match e.store with
    | some st => applyStore x st p
    | none => p) p
  let mark (e : Entry) : Entry := if due.any (fun d => d.order == e.order) then { e with done := true } else e
  p.modC x fun c => { c with flight := c.flight.map mark }

/-- Every pending store of the context is performed: an engine trigger, a fence, a block, a sleep or a yield (R153) (log 31). -/
def performAll (x : Nat) (p : Pkg) : Pkg := performWhere x (fun _ _ => true) p

/-- The pending stores ordered before an access of the context that writes (R153 rule 2). -/
def performBefore (x : Nat) (swz : Bool) (joins order : Nat) (p : Pkg) : Pkg :=
  performWhere x (fun e st => decide (e.order < order) && st.before swz joins) p

/-- A store entry at its landing: performed with those ordered before it, unless it has been. -/
def landStore (x : Nat) (e : Entry) (p : Pkg) : Pkg :=
  match e.store with
  | some st => performWhere x (fun d ds => decide (d.order = e.order) || (decide (d.order < e.order) && ds.before st.swz st.joins)) p
  | none => p

/-- The write that last changed a word's tag. -/
def lastTag (k : Core) (w : Nat) : Option Nat := (k.stale.reverse.find? fun e => e.tags.any fun g => g.1 == w).map (·.number)

/-- A tagged access of context x that found its words as it waited for: the writes ordered before the tag's last change are
ordered before the context's later accesses (R80), and so is the write that changed it; those of the other stream need a view-join
bundle of x (log 22). So are the commands that the tags convey (R102) (log 55). -/
def acquireTags (x : Nat) (ws : List Nat) (p : Pkg) : Pkg :=
  let last := ws.filterMap (lastTag (p.k (coreOf x)))
  let learn (e : Stale) : Stale :=
    let fs := e.flags.filter fun f => f.core == coreOf x && ws.contains f.word
    let own := e.number != 0 && last.contains e.number
    if fs.isEmpty && !own then e
    else { e with known := e.known ++ [{ ctx := x, lin := if own || fs.any (·.lin) then some 0 else none, swzJoin := true,
                                         far := fs.any (·.far) }] }
  let ids := ws.flatMap (p.k (coreOf x)).conveyed.get
  let p := p.modStale learn
  if ids.isEmpty then p else p.modC x fun c => { c with after := (c.after ++ ids).eraseDups }

/-- What a context knows after its n-th view-join bundle. -/
def Knows.join (x n : Nat) (kn : Knows) : Knows :=
  if kn.ctx = x then
    { kn with lin := if kn.linJoin && kn.lin.isNone then some n else kn.lin, linJoin := false
              swz := if kn.swzJoin && kn.swz.isNone then some n else kn.swz, swzJoin := false }
  else kn

/-- A view-join bundle of context x, the n-th (R75) (log 22). -/
def joinViews (x n : Nat) (p : Pkg) : Pkg :=
  let p := p.modStale fun e => { e with known := e.known.map (Knows.join x n) }
  p.modC x fun c => { c with flight := c.flight.map fun e =>
    { e with store := e.store.map fun st => if st.both.isNone then { st with both := some n } else st } }

/-- A fence of context x: its fetch sees every write performed so far (R73) (log 23). -/
def fenceFetch (x : Nat) (p : Pkg) : Pkg :=
  p.modK (coreOf x) fun k => { k with stale := k.stale.map fun e => { e with fetch := x :: e.fetch } }

/-- An engine's write to a core's scratchpad, of a command of a node that carries what it does of earlier writes and is ordered after the
commands `after`: both views see it at once (R76, R101), a fetch after a fence (R73); each full word is set full with it (R77), and a
whole codeword loses its poison (R83) (log 24). -/
def engineWriteBy (carry : List Carry) (after : List Nat) (node n : Nat) (cells : List Host.Cell) (full : List Nat) (p : Pkg) : Pkg :=
  let sets (e : Stale) : Option (Bool × Bool × Bool) := (carry.find? fun c => c.write == e.number).map fun c => (c.lin, c.swz, c.far)
  let p := if full.isEmpty then p else p.modStale fun e => e.reflag n full (sets e)
  let p := conveyTags n full after p
  { p.modK n fun k =>
      let whole := (cells.map fun c => c.1 / 64).eraseDups.filter fun w =>
        (List.range 64).all fun i => cells.any fun c => c.1 == 64 * w + i
      { k with
        spad := k.spad.setCells cells
        tags := full.foldl (fun m w => m.set w true) k.tags
        poison := whole.foldl (fun m w => m.set w false) k.poison
        stale := k.stale ++ (if cells.isEmpty && full.isEmpty then [] else
          [{ number := p.nextWrite, swz := false, any := true, old := cells.map fun c => (c.1, k.spad.get c.1),
             tags := full.map fun w => (w, k.tags.get w), node := node }]) }
    with nextWrite := p.nextWrite + 1 }

/-- The same of hardware that acts for no command (log 24). -/
def engineWrite (n : Nat) (cells : List Host.Cell) (full : List Nat) (p : Pkg) : Pkg := engineWriteBy [] [] 0 n cells full p

/-- A codeword that one store of sixteen words has rewritten whole loses its poison (R83). -/
def mendCodeword (n w : Nat) (p : Pkg) : Pkg := p.modK n fun k => { k with poison := k.poison.set w false }

/-- The cells of consecutive bytes. -/
def cellsAt (a : Nat) (bs : List Byte) : List Host.Cell := (List.range bs.length).zip bs |>.map fun q => (a + q.1, q.2)

/-- The words that bytes from `a` on touch. -/
def wordsOf (a n : Nat) : List Nat := (List.range ((a + n - 1) / 4 - a / 4 + 1)).map fun i => a / 4 + i

/-! ## Traps -/

/-- The redirections of a context that have not taken effect: a branch entry not yet due whose control part redirects
(R145). -/
def redirects (e : Entry) : Bool :=
  e.kind = .branch && !e.done && (decide (e.op ≤ 6) || e.op == 13 || e.op == 12)

/-- Pending redirections are cancelled by a U-class trap; their register writes stay (R150). -/
def cancelRedirects (c : Ctx) : Ctx :=
  { c with flight := c.flight.map fun e => if redirects e then { e with done := true } else e }

/-- A record of an S-class trap (R354). -/
def trapRecord (dtime : Nat) (p : Pkg) (x cause tpc lpc : Nat) (queue : Bool) (va : Nat) : FaultRec :=
  { source := x, time := dtime, kind := 3, flags := if queue then 5 else 2, code := cause, node := p.nodeId x,
    asid := (p.c x).asid, pcore := coreOf x, ctx := x % 4 + (if queue then 4 else 0), va := va, tpc := tpc, lpc := lpc }

/-- A context stops issuing, with its resume address unchanged (R308). -/
def freezeCtx (x cause : Nat) (p : Pkg) : Pkg :=
  let p := p.modC x fun c =>
    { c with left := c.phase, phase := .frozen, cause := cause }
  p.modK (coreOf x) fun k => if k.running = some x then { k with running := none, quantum := 0 } else k

/-- Taking an S-class trap (R307, R308): the context is frozen with its cause, its resume address is `pc`, the watchdog
count is cleared (R309), and the fault record is on its way. In-flight entries stay. -/
def sTrap (env : Env) (x cause pc tpc lpc : Nat) (p : Pkg) : Pkg :=
  let r := trapRecord env.dtime p x cause tpc lpc false 0
  let p := freezeCtx x cause p
  let p := p.modC x fun c => { c with pc := pc, watchdog := 0 }
  { p with faultq := p.faultq ++ [r] }

/-- Taking a U-class trap at the bundle `tpc` (R37, R150, R189, R309): c.tpc and c.tinfo are written, pending redirections
are cancelled, and the next bundle is the handler's; with c.tvec = 0 it is the S-class cause 0x26 instead, whose record carries a check
mismatch that has landed with the bundle (R160, R307). -/
def uTrap (env : Env) (x cause unit detail tpc : Nat) (p : Pkg) : Pkg :=
  let c := p.c x
  if c.tvec = 0 then sTrap env x 0x26 tpc ((c.check.map (·.1)).getD tpc) tpc (p.modC x fun c => { c with check := none })
  else
    p.modC x fun c =>
      let c := cancelRedirects c
      let c := c.setCr 0x0DA (BitVec.ofNat 64 tpc)
      let c := c.setCr 0x0D9 (BitVec.ofNat 64 (detail % 2 ^ 48 * 2 ^ 16 + unit % 256 * 2 ^ 8 + cause))
      { c with pc := c.tvec, watchdog := 0,
               phase := match c.phase with | .blocked => .ready | ph => ph
               waited := match c.phase with | .blocked => 0 | _ => c.waited }

/-- The address a return from a U-class trap redirects to: c.tpc as the bundle's sources read it (R147) (log 26). -/
def trapReturn (r : SrcRegs) : Nat := r.tpc.toNat

/-- A context blocks: its pending stores are performed (R153) and the clock of its watchdog starts (R309). -/
def blockCtx (env : Env) (x : Nat) (p : Pkg) : Pkg :=
  let p := performAll x p
  let p := p.modC x fun c => { c with phase := .blocked, blockedAt := env.clock }
  p.modK (coreOf x) fun k => if k.running = some x then { k with running := none, quantum := 0 } else k

/-- The clock cycles for which a context's next bundle has been blocked (R309). -/
def watchdogCount (env : Env) (c : Ctx) : Nat :=
  if c.phase = .blocked then c.watchdog + (env.clock - c.blockedAt) else c.watchdog

/-- A blocked or sleeping context becomes ready (R39). -/
def readyCtx (env : Env) (x : Nat) (p : Pkg) : Pkg :=
  p.modC x fun c => { c with phase := .ready, watchdog := watchdogCount env c, waited := 0 }

end Sys2Proof.Machine
end

