-- ==== Sys2Proof/Machine/Branch.lean ====
section
/-! DEFINITION. The control unit br (R145 to R150): each trigger makes an entry that takes effect three issue cycles later, and
the event of that effect. -/

namespace Sys2Proof.Machine

/-- The address of the bundle whose triggers are being performed. -/
def bundleAddr (c : Ctx) : Nat := c.pc - 32

/-- A branch target is valid (R146). -/
def targetOk (t : Nat) : Bool := t % 32 == 0 && decide (t < spadSize)

/-- The redirection that takes effect `left` issue cycles on (R145). -/
def pendingRedirect (c : Ctx) (left : Nat) : Option Entry := c.flight.find? fun e => redirects e && e.left == left && e.target.isSome

/-- The address it gives the bundle there; a `trap` without a handler, which freezes the context, gives none (R37, R150). -/
def pendingTarget (c : Ctx) (left : Nat) : Option Nat :=
  match pendingRedirect c left with
  | some e => if e.op = 12 then (if c.tvec = 0 then none else some c.tvec) else e.target
  | none => none

/-- A `trap` that goes to the handler there cancels the redirections after it (R150). -/
def trapsAt (c : Ctx) (left : Nat) : Bool := c.tvec != 0 && (pendingRedirect c left).any fun e => e.op == 12

/-- The address of the next bundle, or of the one after it, as the redirections in flight give it (R145). -/
def landsAt (c : Ctx) (left : Nat) : Nat :=
  let a1 := (pendingTarget c 1).getD c.pc
  if left ≤ 1 then a1 else (if trapsAt c 1 then none else pendingTarget c 2).getD (a1 + 32)

/-- The address that the bundle three issue cycles on has without the present trigger (R145, R147). -/
def linkAddr (c : Ctx) : Nat := landsAt c 2 + 32

/-- The address of the bundle that a context between bundles would issue next, before the effect of a `trap` (R145, R319) (log 66). -/
def resumeAddr (c : Ctx) : Nat :=
  match pendingRedirect c 1 with
  | some e => if e.op = 12 then c.pc else e.target.getD c.pc
  | none => c.pc

/-- A br trigger: its control part, its register writes at n + 3, and the branch-target fault of a redirection that will be
taken (R146) (log 26). -/
def brTrigger (op : Nat) (taken : Bool) (target : Option Nat) (fixed : List (Fixed × Word)) (s : State) : Out :=
  let x := s.pkg.fire.ctx
  let pc := bundleAddr (s.pkg.c x)
  let bad := taken && !(targetOk (target.getD 0))
  if bad then s.put (sTrap s.env x 0x23 pc pc pc s.pkg)
  else s.put (addEntry x { unit := 3, op := op, left := 3, order := 0, kind := .branch,
                           target := if taken || decide (op ∈ [12, 14]) then target else none, trig := pc, fixed := fixed } s.pkg)

/-- c.lc, p4 to p7 and c.rrb as `loop` writes them, and whether it is taken (R148). -/
def loopResult (r : SrcRegs) (a : Word) : Bool × List (Fixed × Word) :=
  let old := r.lc
  let e := a.toNat % 4
  let n4 := old != 0
  let n5 := r.p.getLsbD 4
  let n6 := r.p.getLsbD 5
  let n7 := r.p.getLsbD 6
  let taken := n4 || (decide (1 ≤ e) && n5) || (decide (2 ≤ e) && n6) || (decide (e = 3) && n7)
  (taken, (if n4 then [(Fixed.lc, old - 1)] else []) ++
    [(.pred 4, if n4 then 1 else 0), (.pred 5, if n5 then 1 else 0), (.pred 6, if n6 then 1 else 0),
     (.pred 7, if n7 then 1 else 0), (.rrb, (r.rrb - 1) &&& 0x1F)])

def execBrJmp (s : State) : Out := brTrigger 0 true (some s.pkg.fire.b.toS.toNat) [] s

def execBrCall (s : State) : Out :=
  let x := s.pkg.fire.ctx
  let c := s.pkg.c x
  let t := s.pkg.fire.b.toS.toNat
  if targetOk t then
    let link : Entry := { unit := 3, op := 1, left := 1, order := 0, kind := .result, trig := bundleAddr c,
                          fixed := [(.s31, BitVec.ofNat 64 (linkAddr c))] }
    brTrigger 1 true (some t) [] { s with pkg := addEntry x link s.pkg }
  else brTrigger 1 true (some t) [] s

def execBrRet (s : State) : Out := brTrigger 2 true (some s.pkg.fire.src.s31.toNat) [] s
def execBrBrz (s : State) : Out := brTrigger 3 (s.pkg.fire.a.toS == 0) (some s.pkg.fire.b.toS.toNat) [] s
def execBrBrnz (s : State) : Out := brTrigger 4 (s.pkg.fire.a.toS != 0) (some s.pkg.fire.b.toS.toNat) [] s

def execBrLoop (s : State) : Out :=
  let f := s.pkg.fire
  let r := loopResult f.src f.a.toS
  brTrigger 5 r.1 (some f.b.toS.toNat) r.2 s

def execBrLoopx (s : State) : Out :=
  let f := s.pkg.fire
  let taken := f.src.lcx != 0
  brTrigger 6 taken (some f.b.toS.toNat) (if taken then [(.lcx, f.src.lcx - 1)] else []) s

def execBrSetlc (s : State) : Out :=
  brTrigger 7 false none [(.lc, s.pkg.fire.b.toS), (.pred 4, 1), (.pred 5, 0), (.pred 6, 0), (.pred 7, 0)] s

def execBrSetlcx (s : State) : Out := brTrigger 8 false none [(.lcx, s.pkg.fire.b.toS)] s

def execBrRot (s : State) : Out :=
  let r := s.pkg.fire.src
  let bit (b : Bool) : Word := if b then 1 else 0
  brTrigger 9 false none [(.pred 7, bit (r.p.getLsbD 6)), (.pred 6, bit (r.p.getLsbD 5)), (.pred 5, bit (r.p.getLsbD 4)),
    (.pred 4, bit (r.lc != 0)), (.rrb, (r.rrb - 1) &&& 0x1F)] s

def execBrEnd (s : State) : Out := brTrigger 10 false none [] s
def execBrYield (s : State) : Out := brTrigger 11 false none [] s
def execBrTrap (s : State) : Out := brTrigger 12 false (some (s.pkg.fire.b.toS.toNat % 2 ^ 48)) [] s
def execBrRett (s : State) : Out := brTrigger 13 true (some (trapReturn s.pkg.fire.src)) [] s
def execBrSleep (s : State) : Out := brTrigger 14 false (some s.pkg.fire.b.toS.toNat) [] s

/-! ## The effect (R145, R149, R150) -/

/-- The branch entry that is due at the context's next bundle (log 30). -/
def dueBranch (c : Ctx) : Option Entry := c.flight.find? fun e => e.kind = .branch && !e.done && e.left == 1

/-- The context gives up issue. -/
def releaseIssue (x : Nat) (p : Pkg) : Pkg :=
  p.modK (coreOf x) fun k => if k.running = some x then { k with running := none, quantum := 0 } else k

/-- The beginning of a drain (R35): nothing more issues, and every entry in flight is discarded. -/
def beginDrain (x : Nat) (p : Pkg) : Pkg :=
  releaseIssue x (p.modC x fun c => { c with phase := .draining, flight := [], check := none })

/-- The entry's control part has taken effect; its register writes are left to land with the bundle (R131). -/
def markDone (order : Nat) (c : Ctx) : Ctx :=
  let mark (e : Entry) : Entry := if e.order = order && e.kind = .branch then { e with done := true } else e
  { c with flight := c.flight.map mark }

/-- The control part of a branch entry at its issue cycle n + 3. -/
def branchEffect (env : Env) (x : Nat) (e : Entry) (p : Pkg) : Pkg :=
  let p := p.modC x (markDone e.order)
  match e.op with
  | 10 => beginDrain x p
  | 11 => releaseIssue x ((performAll x p).modC x fun c => { c with phase := .ready, waited := 0 })
  | 12 => uTrap env x 0x01 3 (e.target.getD 0) (p.c x).pc p
  | 14 =>
    if e.target.getD 0 ≤ env.dtime then p
    else releaseIssue x ((performAll x p).modC x fun c => { c with phase := .sleeping, wake := e.target.getD 0 })
  | _ => match e.target with
    | some t => p.modC x fun c => { c with pc := t }
    | none => p

/-- BRANCH_EFFECT: without a branch entry due, nothing happens. -/
def execBranchEffect (x : Nat) (s : State) : Out :=
  match dueBranch (s.pkg.c x) with
  | some e => s.put (branchEffect s.env x e s.pkg)
  | none => .next s

end Sys2Proof.Machine
end

