-- ==== Sys2Proof/Machine/LoadStore.lean ====
section
/-! DEFINITION. The load and store units ls0 and ls1 (R70 to R80, R151 to R158). -/

namespace Sys2Proof.Machine

/-! ## Addresses (R71, R152, R154) -/

/-- The effective address (R152). -/
def ea (f : Fire) : Nat := (f.a.toS + f.b.toS).toNat

/-- `n` bytes of linear scratchpad at an aligned address. -/
def linearOk (n align a : Nat) : Bool := decide (a + n ≤ spadSize) && a % align == 0
/-- A 512-byte block named through the swizzled view. -/
def swizzledOk (a : Nat) : Bool := decide (0x1000000 ≤ a) && decide (a + 512 ≤ 0x1800000) && a % 512 == 0
/-- An accumulator address with an alignment. -/
def accOk (align a : Nat) : Bool := decide (0x2000000 ≤ a) && decide (a < 0x2200000) && a % align == 0

/-- The storage word that a swizzled offset names (R74). -/
def swz (o : Nat) : Nat := o ^^^ (o / 64 % 16 * 4)

/-- Lane i of a gather or scatter is active (R154). -/
def laneActive (f : Fire) (i : Nat) : Bool := !((f.d.toV.lane i).getLsbD 31)
/-- The address of lane i (R154). -/
def laneAddr (f : Fire) (i : Nat) : Nat :=
  (f.a.toS + f.b.toS + BitVec.ofNat 64 ((f.d.toV.lane i).toNat % 2 ^ 31)).toNat
def activeLanes (f : Fire) : List Nat := (List.range 128).filter (laneActive f)

/-- Whether the address of ls operation `op` is in its range and aligned (R71). -/
def lsOk (op : Nat) (f : Fire) : Bool :=
  let a := ea f
  match op with
  | 0 => linearOk 1 1 a | 8 => linearOk 1 1 a
  | 1 => linearOk 2 2 a | 9 => linearOk 2 2 a
  | 2 => linearOk 4 4 a | 4 => linearOk 4 4 a | 5 => linearOk 4 4 a | 10 => linearOk 4 4 a | 12 => linearOk 4 4 a
  | 14 => linearOk 4 4 a | 23 => linearOk 4 4 a
  | 3 => linearOk 8 8 a | 6 => linearOk 8 8 a | 7 => linearOk 8 8 a | 11 => linearOk 8 8 a | 13 => linearOk 8 8 a
  | 31 => linearOk 8 8 a
  | 15 => linearOk 512 512 a | 16 => linearOk 512 512 a | 17 => linearOk 512 512 a | 18 => linearOk 512 512 a
  | 19 => linearOk 512 512 a | 20 => linearOk 512 512 a
  | 21 => swizzledOk a | 22 => swizzledOk a
  | 24 => (activeLanes f).all fun i => linearOk 4 4 (laneAddr f i)
  | 25 => (activeLanes f).all fun i => linearOk 4 4 (laneAddr f i)
  | 26 => linearOk 128 128 a || accOk 8192 a
  | 27 => linearOk 128 128 a || accOk 8192 a
  | _ => accOk 256 a

/-- The scratchpad words that an ls operation touches. -/
def lsWords (op : Nat) (f : Fire) : List Nat :=
  let a := ea f
  match op with
  | 0 => [a / 4] | 1 => [a / 4] | 2 => [a / 4] | 4 => [a / 4] | 5 => [a / 4] | 8 => [a / 4] | 9 => [a / 4] | 10 => [a / 4]
  | 12 => [a / 4] | 14 => [a / 4] | 23 => [a / 4]
  | 3 => [a / 4, a / 4 + 1] | 6 => [a / 4, a / 4 + 1] | 7 => [a / 4, a / 4 + 1] | 11 => [a / 4, a / 4 + 1]
  | 13 => [a / 4, a / 4 + 1] | 31 => [a / 4, a / 4 + 1]
  | 21 => (List.range 128).map fun i => swz (a - 0x1000000 + 4 * i) / 4
  | 22 => (List.range 128).map fun i => swz (a - 0x1000000 + 4 * i) / 4
  | 24 => (activeLanes f).map fun i => laneAddr f i / 4
  | 25 => (activeLanes f).map fun i => laneAddr f i / 4
  | 26 => if a < spadSize then (List.range 32).map fun i => a / 4 + i else []
  | 27 => if a < spadSize then (List.range 32).map fun i => a / 4 + i else []
  | 28 => [] | 29 => [] | 30 => []
  | _ => (List.range 128).map fun i => a / 4 + i

/-- The accumulator line that an address names (R70). -/
def lineOf (a : Nat) : Nat := (a - 0x2000000) / 256

/-- Loads and tagged accesses, which consume poison; stores do not (R83, R158). `st.tg`, which R78 counts among the tagged accesses
and R153 among the stores, is taken as a store (log 33). -/
def lsConsumes (op : Nat) : Bool := decide (op ∈ [0, 1, 2, 3, 4, 5, 6, 7, 12, 13, 15, 16, 17, 19, 21, 23, 24, 26, 31])

/-- Word w is poisoned as context x observes it through a stream: not where a pending store of its own that rewrites the codeword
comes before, or one of `more` that its bundle makes before the access (R83, R152, R153 rule 4) (log 32). -/
def Pkg.poisonedAt (p : Pkg) (x : Nat) (swz : Bool) (joins : Nat) (more : List LStore) (w : Nat) : Bool :=
  let k := p.k (coreOf x)
  k.poison.get (w / 16) && !(pending (p.c x) ++ more).zipIdx.any fun q =>
    q.1.whole && (q.1.bytes.any fun c => c.1 / 64 == w / 16) && observed p.fresh (k.stale.length + q.2) w swz joins q.1

/-- An accumulator word is uncorrectable once stores of a context have been made in order: an overwrite clears it (R84). -/
def badAfter (sts : List LStore) (i : Nat) (bad : Bool) : Bool :=
  sts.foldl (fun b st => b && !(st.mode == 0 && st.acc.any fun a => a.1 == i)) bad

/-- The access meets uncorrectable data, after the context's pending stores and those of `more` (R83, R84). -/
def lsPoisoned (op : Nat) (f : Fire) (more : List LStore) (p : Pkg) : Bool :=
  let k := p.k (coreOf f.ctx)
  let c := p.c f.ctx
  if op = 28 ∨ op = 29 then
    (List.range 64).any fun j => let i := 64 * lineOf (ea f) + j; k.badAcc.get i && badAfter (pending c ++ more) i true
  else lsConsumes op && (lsWords op f).any (p.poisonedAt f.ctx (op == 21) c.joins more)

/-- The condition that a blocking ls trigger waits for (R40), as its context observes the storage (R153). -/
def lsReady (op : Nat) (f : Fire) (p : Pkg) : Bool :=
  let j := (p.c f.ctx).joins
  if op ∈ [4, 5, 6, 7, 16, 17] then (lsWords op f).all fun w => p.tagAt f.ctx false j w
  else if op ∈ [12, 13, 19] then (lsWords op f).all fun w => !p.tagAt f.ctx false j w
  else if op = 29 then p.lineAt f.ctx (lineOf (ea f))
  else true

/-! ## Loads -/

/-- An ls trigger whose address is accepted; any other raises the local-address fault (R72), and uncorrectable data its own, which a
bundle that issues has been found free of (R83, R130). -/
def lsTrigger (op : Nat) (act : Fire → Pkg → Pkg) (s : State) : Out :=
  let f := s.pkg.fire
  let pc := bundleAddr (s.pkg.c f.ctx)
  if !lsOk op f then s.put (sTrap s.env f.ctx 0x22 pc pc pc s.pkg)
  else if !f.sound && lsPoisoned op f [] s.pkg then s.put (sTrap s.env f.ctx 0x25 pc pc pc s.pkg)
  else s.put (act f s.pkg)

/-- The bytes at an address of linear scratchpad, as context x observes them. -/
def loadBytes (p : Pkg) (x a n : Nat) : List Byte :=
  let j := (p.c x).joins
  let bs := (wordsOf a n).flatMap fun w => bytesOf 4 (p.wordAt x false j w).toNat
  (bs.drop (a % 4)).take n

/-- A scalar load of n bytes. -/
def loadScalar (op n : Nat) (f : Fire) (p : Pkg) : Pkg :=
  let v := BitVec.ofNat 64 (natOf (loadBytes p f.ctx (ea f) n))
  (deliver f.ctx (4 + b2n f.alt) op 4 (some (.s v)) none 0 p).drawn (accessDraws p f.ctx)

/-- The words of a list, as a vector. -/
def loadLanes (op l : Nat) (swzd : Bool) (ws : List Nat) (f : Fire) (p : Pkg) : Pkg :=
  let j := (p.c f.ctx).joins
  let v := Vec.ofLanes (ws.map fun w => p.wordAt f.ctx swzd j w)
  (deliver f.ctx (4 + b2n f.alt) op l none (some v) 0 p).drawn (accessDraws p f.ctx)

/-- A tag change at issue by a tagged access, after the stores ordered before it (R153). -/
def tagNow (f : Fire) (st : LStore) (p : Pkg) : Pkg :=
  let c := p.c f.ctx
  applyStore f.ctx { st with joins := c.joins } (performBefore f.ctx false c.joins c.nextOrder p)

/-- A tagged load: the words were found full (R40, R77), and for `ldc` are set empty. -/
def taggedLoad (op : Nat) (consume : Bool) (load : Fire → Pkg → Pkg) (f : Fire) (p : Pkg) : Pkg :=
  let ws := lsWords op f
  let p := load f (acquireTags f.ctx ws p)
  if consume then tagNow f { tags := ws.map fun w => (w, false) } p else p

def execLsLdB (s : State) : Out := lsTrigger 0 (loadScalar 0 1) s
def execLsLdH (s : State) : Out := lsTrigger 1 (loadScalar 1 2) s
def execLsLdW (s : State) : Out := lsTrigger 2 (loadScalar 2 4) s
def execLsLdD (s : State) : Out := lsTrigger 3 (loadScalar 3 8) s
def execLsLdfW (s : State) : Out := lsTrigger 4 (taggedLoad 4 false (loadScalar 4 4)) s
def execLsLdcW (s : State) : Out := lsTrigger 5 (taggedLoad 5 true (loadScalar 5 4)) s
def execLsLdfD (s : State) : Out := lsTrigger 6 (taggedLoad 6 false (loadScalar 6 8)) s
def execLsLdcD (s : State) : Out := lsTrigger 7 (taggedLoad 7 true (loadScalar 7 8)) s

def execLsLdV (s : State) : Out := lsTrigger 15 (fun f => loadLanes 15 6 false (lsWords 15 f) f) s
def execLsLdfV (s : State) : Out :=
  lsTrigger 16 (taggedLoad 16 false fun f => loadLanes 16 6 false (lsWords 16 f) f) s
def execLsLdcV (s : State) : Out :=
  lsTrigger 17 (taggedLoad 17 true fun f => loadLanes 17 6 false (lsWords 17 f) f) s
def execLsLdVs (s : State) : Out := lsTrigger 21 (fun f => loadLanes 21 6 true (lsWords 21 f) f) s
def execLsLdVb (s : State) : Out :=
  lsTrigger 23 (fun f => loadLanes 23 6 false (List.replicate 128 (ea f / 4)) f) s

/-- A gather: active lanes take their word, the others 0 (R154). -/
def gather (f : Fire) (p : Pkg) : Pkg :=
  let j := (p.c f.ctx).joins
  let v := Vec.tab fun i => if laneActive f i then p.wordAt f.ctx false j (laneAddr f i / 4) else 0
  (deliver f.ctx (4 + b2n f.alt) 24 10 none (some v) 0 p).drawn (accessDraws p f.ctx)

def execLsLdVg (s : State) : Out := lsTrigger 24 gather s

/-- The 32 tags of a block, bit i the word's or line's (R78, R155). Each word found full orders as a tagged load's does (R80) (log 22). -/
def readTagBlock (f : Fire) (p : Pkg) : Pkg :=
  let a := ea f
  let j := (p.c f.ctx).joins
  let bit (i : Nat) : Bool :=
    if a < spadSize then p.tagAt f.ctx false j (a / 4 + i) else p.lineAt f.ctx (lineOf a + i)
  let v := digits 1 ((List.range 32).map fun i => b2n (bit i))
  let full := if a < spadSize then ((List.range 32).filter bit).map (a / 4 + ·) else []
  (deliver f.ctx (4 + b2n f.alt) 26 4 (some (.s (BitVec.ofNat 64 v))) none 0 (acquireTags f.ctx full p)).drawn (accessDraws p f.ctx)

def execLsLdTg (s : State) : Out := lsTrigger 26 readTagBlock s

/-- An accumulator word as context x observes it: its own pending `st.acc` first (R153 rule 4). -/
def Pkg.accAt (p : Pkg) (x i : Nat) : Lane :=
  (pending (p.c x)).foldl
    (fun v st => match st.acc.find? fun a => a.1 == i with | some a => accStore st.mode v a.2 | none => v)
    ((p.k (coreOf x)).acc.get i)

/-- The line's words in lanes 0 to 63 (R151). -/
def loadLine (op : Nat) (f : Fire) (p : Pkg) : Pkg :=
  let l := lineOf (ea f)
  let v := Vec.tab fun j => if j < 64 then p.accAt f.ctx (64 * l + j) else 0
  deliver f.ctx (4 + b2n f.alt) op 8 none (some v) 0 p

def execLsLdAcc (s : State) : Out := lsTrigger 28 (loadLine 28) s
def execLsLdfAcc (s : State) : Out := lsTrigger 29 (loadLine 29) s

/-- c.sc from 8 bytes, at n + 4 (R157). -/
def execLsLdSc (s : State) : Out :=
  lsTrigger 31 (fun f p =>
    let v := BitVec.ofNat 64 (natOf (loadBytes p f.ctx (ea f) 8))
    (addEntry f.ctx { unit := 4 + b2n f.alt, op := 31, left := 4, order := 0, kind := .result,
                      fixed := [(.sc, v)], trig := bundleAddr (p.c f.ctx) } p).drawn (accessDraws p f.ctx)) s

/-! ## Stores -/

/-- A store entry that lands after `l` issue cycles (R153). -/
def storeEntry (op l : Nat) (f : Fire) (st : LStore) (p : Pkg) : Pkg :=
  addEntry f.ctx { unit := 4 + b2n f.alt, op := op, left := l, order := 0, kind := .store,
                   store := some { st with joins := (p.c f.ctx).joins }, trig := bundleAddr (p.c f.ctx) } p

/-- n bytes at ea and, unless the tags stay, the containing words set full (R77). -/
def scalarStore (op n : Nat) (full : Bool) (f : Fire) : LStore :=
  { bytes := cellsAt (ea f) (bytesOf n f.d.toS.toNat),
    tags := if full then (lsWords op f).map fun w => (w, true) else [] }

/-- The lanes of a vector at the words of a list (log 32). -/
def vectorStore (op : Nat) (full swzd whole : Bool) (v : Vec) (f : Fire) : LStore :=
  let ws := lsWords op f
  { swz := swzd, whole := whole,
    bytes := ((List.range ws.length).zip ws).flatMap fun q => cellsAt (4 * q.2) (bytesOf 4 (v.lane q.1).toNat),
    tags := if full then ws.map fun w => (w, true) else [] }

def execLsStB (s : State) : Out := lsTrigger 8 (fun f => storeEntry 8 4 f (scalarStore 8 1 true f)) s
def execLsStH (s : State) : Out := lsTrigger 9 (fun f => storeEntry 9 4 f (scalarStore 9 2 true f)) s
def execLsStW (s : State) : Out := lsTrigger 10 (fun f => storeEntry 10 4 f (scalarStore 10 4 true f)) s
def execLsStD (s : State) : Out := lsTrigger 11 (fun f => storeEntry 11 4 f (scalarStore 11 8 true f)) s
def execLsStnW (s : State) : Out := lsTrigger 14 (fun f => storeEntry 14 4 f (scalarStore 14 4 false f)) s
def execLsStV (s : State) : Out := lsTrigger 18 (fun f => storeEntry 18 6 f (vectorStore 18 true false true f.d.toV f)) s
def execLsStnV (s : State) : Out := lsTrigger 20 (fun f => storeEntry 20 6 f (vectorStore 20 false false true f.d.toV f)) s
def execLsStVs (s : State) : Out := lsTrigger 22 (fun f => storeEntry 22 6 f (vectorStore 22 true true true f.d.toV f)) s

/-- A store that waited for its words to be empty is performed whole at its issue (R153 rule 1). -/
def storeNow (op : Nat) (st : LStore) (f : Fire) (p : Pkg) : Pkg := tagNow f st (acquireTags f.ctx (lsWords op f) p)

def execLsStpW (s : State) : Out := lsTrigger 12 (fun f => storeNow 12 (scalarStore 12 4 true f) f) s
def execLsStpD (s : State) : Out := lsTrigger 13 (fun f => storeNow 13 (scalarStore 13 8 true f) f) s
def execLsStpV (s : State) : Out := lsTrigger 19 (fun f => storeNow 19 (vectorStore 19 true false false f.d.toV f) f) s

/-- A scatter of the vector register that C names: of two lanes at one word the higher stands (R154). -/
def scatter (f : Fire) : LStore :=
  let lanes := activeLanes f
  let last := lanes.filter fun i => !(lanes.any fun j => decide (i < j) && laneAddr f j == laneAddr f i)
  { bytes := last.flatMap fun i => cellsAt (laneAddr f i) (bytesOf 4 (f.src.vreg.lane i).toNat),
    tags := last.map fun i => (laneAddr f i / 4, true) }

def execLsStVg (s : State) : Out := lsTrigger 25 (fun f => storeEntry 25 10 f (scatter f)) s

/-- The 32 tags of a block written from D (R155). -/
def tagBlock (f : Fire) : LStore :=
  let a := ea f
  let t (i : Nat) : Bool := f.d.toS.getLsbD i
  if a < spadSize then { tags := (List.range 32).map fun i => (a / 4 + i, t i) }
  else { lines := (List.range 32).map fun i => (lineOf a + i, t i) }

def execLsStTg (s : State) : Out := lsTrigger 27 (fun f => storeEntry 27 4 f (tagBlock f)) s

/-- A line written or combined by the mode C[1:0] (R156). -/
def lineStore (f : Fire) : LStore :=
  { mode := f.c.toS.toNat % 4,
    acc := (List.range 64).map fun j => (64 * lineOf (ea f) + j, f.d.toV.lane j) }

def execLsStAcc (s : State) : Out := lsTrigger 30 (fun f => storeEntry 30 8 f (lineStore f)) s

end Sys2Proof.Machine
end

