-- ==== Sys2Proof/Machine/Translate.lean ====
section
/-! DEFINITION. Address translation (R324 to R335): device physical addresses, ASID slots, the five-level walk, leaves and the
places they map to, shape records (R87, R89). -/

namespace Sys2Proof.Machine

/-! ## Device registers that other parts read -/

/-- The stored value of a device register (R386). -/
def Pkg.regv (p : Pkg) (a : Nat) : Nat := (p.reg.get a).toNat
def Pkg.setReg (p : Pkg) (a v : Nat) : Pkg := { p with reg := p.reg.set a (BitVec.ofNat 64 v) }
/-- A register with bits [hi:lo] replaced. -/
def setBits (x hi lo v : Nat) : Nat := x - bits x hi lo * 2 ^ lo + v % 2 ^ (hi + 1 - lo) * 2 ^ lo
def Pkg.setRegBits (p : Pkg) (a hi lo v : Nat) : Pkg := p.setReg a (setBits (p.regv a) hi lo v)

/-- HOST_STAT.mode: CXL (R377, R378). -/
def Pkg.cxl (p : Pkg) : Bool := bits (p.regv 0x07000000) 0 0 = 1
/-- HOST_STAT.up. -/
def Pkg.hostUp (p : Pkg) : Bool := bits (p.regv 0x07000000) 1 1 = 1
/-- The package number of EDGE_CTL (R377). -/
def Pkg.number (p : Pkg) : Nat := bits (p.regv 0x07000008) 5 0

/-! ## Places (R15, R325) -/

/-- Tile index 2,304 die + 64 row + column. -/
def tileIndex (die row col : Nat) : Nat := 2304 * die + 64 * row + col
/-- The DPA of byte b of a plane of a tile (R325). -/
def dramDpa (ti plane b : Nat) : Nat :=
  ti / 2304 * 2 ^ 39 + ti % 2304 / 64 * 2 ^ 33 + ti % 64 * 2 ^ 27 + plane * 2 ^ 12 + b
def dpaTile (d : Nat) : Nat := tileIndex (bits d 39 39) (bits d 38 33) (bits d 32 27)
def dpaPlane (d : Nat) : Nat := bits d 26 12
/-- The kind of a DPA (R325). -/
def dpaKind (d : Nat) : Nat := bits d 55 54
def isDram (d : Nat) : Bool := decide (d < 2 ^ 54)
/-- Where memory of kind 01 is kept when a slot's `ats` flag makes it an I/O virtual address of a function (R324, R382):
apart from host physical addresses and from other functions (log 41). -/
def hostKey (ats : Option Nat) (d : Nat) : Nat :=
  match ats with
  | some fn => if dpaKind d = 1 then d + 2 ^ 56 * (fn + 1) else d
  | none => d
/-- The side slot of a plane. -/
def sideAt (ti plane : Nat) : Nat := 256 * (24576 * ti + plane)

/-! ## ASID slots and shape records (R89, R324) -/

structure AsidSlot where
  at_    : Nat
  ats    : Option Nat
  fn     : Nat
  nreg   : Nat
  root   : Nat
  regtab : Nat
  nq     : Nat
  nqlog  : Nat
  deriving DecidableEq, Repr, Inhabited

def asidBase (p : Pkg) : Nat := bits (p.regv 0x02000000) 55 11 * 2 ^ 11

/-- The fields of the slot at an address. -/
def slotOf (m : Memory) (a : Nat) : AsidSlot :=
  let b := m.getMany a 64
  { at_ := a, ats := if field b 2 1 / 2 % 2 = 1 then some (field b 3 1) else none, fn := field b 3 1,
    nreg := field b 4 4, root := field b 8 8, regtab := field b 16 8, nq := field b 24 8, nqlog := field b 32 1 }

/-- The valid slot of an ASID. A valid slot has a byte that is not 0 at offset 2, so it is found among the listed bytes. -/
def findSlot (p : Pkg) (asid : Nat) : Option AsidSlot :=
  let base := asidBase p
  p.mem.findSome? fun c =>
    if base + 2 ≤ c.1 ∧ c.1 < base + 64 * 2048 ∧ (c.1 - base) % 64 = 2 ∧ c.2.getLsbD 0 ∧
       natOf (p.mem.getMany (c.1 - 2) 2) = asid then some (slotOf p.mem (c.1 - 2)) else none

def shapeAt (m : Memory) (a : Nat) : Shape :=
  let b := m.getMany a 64
  { at_ := a, base := field b 0 8, die := field b 8 1, c0 := field b 9 1, kt := field b 10 1, nt := field b 11 1,
    planes := field b 12 4, rows := field b 16 8 % 2 ^ 36, p0 := field b 24 4, layout := field b 28 4, asid := field b 32 2,
    reserved := field b 16 8 / 2 ^ 36 + field b 34 30 }

/-- The member rows of a mask in increasing order (R87). -/
def memberRows (rows : Nat) : List Nat := (List.range 36).filter rows.testBit

/-- A record with no reserved field set and every field in its range (R6, R89). -/
def Shape.ok (r : Shape) : Bool :=
  r.reserved == 0 && decide (r.base < 2 ^ 56) && r.base % 65536 == 0 && decide (r.die ≤ 1) && decide (1 ≤ r.kt ∧ r.c0 + r.kt ≤ 64) &&
  decide (1 ≤ r.nt) && r.nt == (memberRows r.rows).length && decide (1 ≤ r.planes ∧ r.p0 + r.planes ≤ 23680)

/-- The bytes of a region. -/
def Shape.size (r : Shape) : Nat := r.kt * r.nt * r.planes * 4096

/-- Where a record of 64 bytes cannot be read: a sector of it is uncorrectable, or marked (R335, R352) (log 35). -/
def badTable (p : Pkg) (a : Nat) : Option Nat :=
  [a, a + 32].find? fun d => p.badSector.get (d / 32) || p.poisonTbl.get (d / 8)

/-- The shape record of the columned region of an ASID whose base is `base` (R89). -/
def regionAt (p : Pkg) (asid base : Nat) : Option Shape :=
  match findSlot p asid with
  | none => none
  | some s => (List.range (min s.nreg 4096)).findSome? fun i =>
      let r := shapeAt p.mem (hostKey s.ats (s.regtab + 64 * i))
      if r.base = base ∧ r.asid = asid ∧ 0 < r.kt ∧ 0 < r.nt then some r else none

/-- Tile and plane of a granule of a region, before the leaf's offset (R87). -/
def Shape.place (r : Shape) (g : Nat) : Nat × Nat :=
  (tileIndex r.die ((memberRows r.rows).getD (g / r.kt % r.nt) 0) (r.c0 + g % r.kt), r.p0 + g / (r.kt * r.nt))

/-! ## Leaves (R327, R328) -/

/-- The bytes that a leaf of a level maps (R326). -/
def pageSize (level : Nat) : Nat := match level with | 0 => 2 ^ 16 | 1 => 2 ^ 21 | _ => 2 ^ 30
def leafKind (e : Nat) : Nat := bits e 3 2
def leafState (e : Nat) : Nat := bits e 9 8
/-- HS of a capacity leaf: host-shared (R92). -/
def leafShared (e : Nat) : Bool := bits e 6 6 = 1
/-- The plane offset of a columned leaf. -/
def leafDelta (e : Nat) : Int := sextNat 16 (bits e 47 32)

/-- The plane of a granule of a columned page, as its leaf moves it (R328). -/
def movedPlane (delta : Int) (plane : Nat) : Int := (plane : Int) + delta

/-- The granules of a columned page. -/
def pageGranules (r : Shape) (page : Nat) : List Nat := (List.range 16).map fun i => (page - r.base) / 4096 + i

/-- A columned leaf's page lies in its region and on allocatable planes (R328). -/
def columnedOk (r : Shape) (e page : Nat) : Bool :=
  decide (r.base ≤ page) && r.base % 65536 == 0 && decide (page + 65536 ≤ r.base + r.size) &&
  (pageGranules r page).all fun g =>
    let q := movedPlane (leafDelta e) (r.place g).2
    decide (0 ≤ q) && decide (q ≤ 23679)

/-- A leaf's payload is well formed for its kind and size (R327 to R329). `shape` is the record a columned leaf names (log 42). -/
def leafOk (nreg level e page : Nat) (shape : Shape) : Bool :=
  match leafKind e with
  | 0 => bits e 31 17 == 0 && bits e 63 59 == 0 && bits e 43 32 % 16 == 0 && decide (bits e 43 32 < 2304) &&
         decide (bits e 58 44 + (bits e 43 32 + pageSize level / 4096 - 1) / 2304 ≤ 23679)
  | 1 => level == 0 && bits e 31 28 == 0 && bits e 63 48 == 0 && decide (bits e 27 16 < nreg) && columnedOk shape e page
  | 2 => level == 0 && bits e 63 39 == 0 && decide (bits e 38 16 < 6819840)
  | _ => bits e 63 56 == 0 && bits e 55 16 * 65536 % pageSize level == 0 && bits e 53 52 == 0 &&
         (bits e 55 54 == 1 || bits e 55 54 == 2)

/-- The index of a level (R326). -/
def levelIndex (level va : Nat) : Nat :=
  match level with | 0 => bits va 20 16 | 1 => bits va 29 21 | 2 => bits va 38 30 | 3 => bits va 47 39 | _ => bits va 55 48
/-- Size and alignment of a level's table (R326). -/
def tableSize (level : Nat) : Nat := match level with | 0 => 256 | 4 => 2048 | _ => 4096

/-- What reading the entry at a table address gives (R329, R335, R382) (logs 35, 41). -/
def readEntry (p : Pkg) (ats : Option Nat) (a : Nat) : Except Walk Nat :=
  let k := hostKey ats a
  if p.poisonTbl.get (k / 8) || p.badSector.get (k / 32) then .error (.poisoned k)
  else if !isDram a && !p.hostUp then .error .hostDown
  else .ok (natOf (p.mem.getMany k 8))

/-- A leaf entry met at a level (R329); the retired state and the W bit are tested by the access. -/
def leafAt (p : Pkg) (s : AsidSlot) (level a e va : Nat) : Walk :=
  let sh := hostKey s.ats (s.regtab + 64 * bits e 27 16)
  let page := va / 65536 * 65536
  if level > 2 || bits e 15 10 != 0 || bits e 9 8 == 3 || (bits e 6 6 != 0 && leafKind e != 3) then .trans
  else match if leafKind e = 1 then badTable p sh else none with
    | some d => .poisoned d
    | none =>
      if leafOk s.nreg level e page (shapeAt p.mem sh) then
        .leaf { entry := e, level := level, at_ := hostKey s.ats a, ats := s.ats, shapeAt := if leafKind e = 1 then sh else 0 }
      else .trans

/-- The walk from the table `t` of a level down (R329). -/
def walkFrom (p : Pkg) (s : AsidSlot) (va : Nat) : Nat → Nat → Walk
  | 0, t =>
    match readEntry p s.ats (t + 8 * levelIndex 0 va) with
    | .error w => w
    | .ok e => if e % 2 = 0 then .trans else if bits e 1 1 = 0 then .trans else leafAt p s 0 (t + 8 * levelIndex 0 va) e va
  | l + 1, t =>
    match readEntry p s.ats (t + 8 * levelIndex (l + 1) va) with
    | .error w => w
    | .ok e =>
      if e % 2 = 0 then .trans
      else if bits e 1 1 = 1 then leafAt p s (l + 1) (t + 8 * levelIndex (l + 1) va) e va
      else if bits e 9 2 != 0 || bits e 63 56 != 0 then .trans
      else
        let t' := bits e 55 8 * 256
        if t' % tableSize l != 0 then .trans else walkFrom p s va l t'

/-- A whole walk by the tables as they stand. -/
def walk (p : Pkg) (asid va : Nat) : Walk :=
  match findSlot p asid with
  | none => .trans
  | some s => match badTable p s.at_ with
    | some d => .poisoned d
    | none => walkFrom p s va 4 s.root

/-- The place of a byte of a columned leaf's page in a region (R87, R328). -/
def columnPlace (r : Shape) (l : Leaf) (va : Nat) : Nat :=
  let w := r.place ((va - r.base) / 4096)
  dramDpa w.1 (movedPlane (leafDelta l.entry) w.2).toNat (va % 4096)

/-- The place of a byte of a leaf's page (R328): a DPA, or the key of an I/O virtual address. -/
def leafPlace (p : Pkg) (l : Leaf) (va : Nat) : Nat :=
  let x := va % pageSize l.level
  match leafKind l.entry with
  | 0 =>
    let t := bits l.entry 43 32 + x / 4096
    dramDpa (2304 * bits l.entry 16 16 + t % 2304) (bits l.entry 58 44 + t / 2304) (x % 4096)
  | 1 => columnPlace (shapeAt p.mem l.shapeAt) l va
  | 2 =>
    let pp := bits l.entry 38 16
    dramDpa (pp / 1480) (16 * (pp % 1480) + x / 4096) (x % 4096)
  | _ => hostKey l.ats (bits l.entry 55 16 * 65536 + x)

/-- A cached page of the capacity tier: device-private (R92). -/
def Leaf.priv (l : Leaf) : Bool := leafKind l.entry == 3 && !leafShared l.entry

/-- The address of the entry at which a walk ends, by the tables as they stand. -/
def endFrom (p : Pkg) (ats : Option Nat) (va : Nat) : Nat → Nat → Option Nat
  | 0, t => some (hostKey ats (t + 8 * levelIndex 0 va))
  | l + 1, t =>
    match readEntry p ats (t + 8 * levelIndex (l + 1) va) with
    | .error _ => none
    | .ok e => if e % 4 = 1 then endFrom p ats va l (bits e 55 8 * 256) else some (hostKey ats (t + 8 * levelIndex (l + 1) va))

def walkEnd (p : Pkg) (asid va : Nat) : Option Nat :=
  match findSlot p asid with
  | none => none
  | some s => endFrom p s.ats va 4 s.root

/-! ## Cached walks (R332) -/

/-- The outcomes that walks of a page since its last invalidation left in the walkers' caches (log 40). -/
def cachedWalks (p : Pkg) (asid va : Nat) : List Walk :=
  (p.tlb.filter fun e => e.asid == asid && e.page == va / 65536).map (·.walk)

/-- The walk an access uses: the tables as they stand, or a cached outcome (R332), by choice; a mark of R335 is met in any
case by a walk that reads memory (log 40). -/
def chooseWalk (p : Pkg) (asid va : Nat) : Walk :=
  let now := walk p asid va
  let all := (cachedWalks p asid va).filter fun w => w != now
  all.getD (Config.freeNat p.fresh % (all.length + 1)) now

/-- The caches after a walk. Poison and a failed host link are not outcomes of a leaf (log 40). -/
def noteWalk (asid va : Nat) (w : Walk) (p : Pkg) : Pkg :=
  let e : TlbEntry := ⟨asid, va / 65536, w⟩
  match w with
  | .poisoned _ => p
  | .hostDown => p
  | _ => if p.tlb.contains e then p else { p with tlb := p.tlb ++ [e] }

/-- D set in a leaf by an OR of its eight bytes in memory (R333). -/
def setDirty (l : Leaf) (p : Pkg) : Pkg :=
  { p with mem := p.mem.set l.at_ (p.mem.get l.at_ ||| 0x20) }

/-- The pages whose walks share a table entry with the walk of an address: those under one entry of the root (R326, R332). -/
def onPath (va page : Nat) : Bool := page * 65536 / 2 ^ 48 == va / 2 ^ 48

/-- The translations removed by an invalidation (R317, R332): kind 0 all, 1 an ASID, 2 the leaf of the page of an ASID that holds an
address, for every page that it maps, and every table entry on its walk path: of the other pages under them a walk stays only where
the tables still lead to its leaf (logs 40, 68). With the translations of an ASID that has no slot any more its bindings end (R210)
(log 59). -/
def invalidate (kind asid va : Nat) (p : Pkg) : Pkg :=
  let same (e : TlbEntry) : Bool :=
    match kind with
    | 0 => true
    | 1 => e.asid == asid
    | _ => e.asid == asid && onPath va e.page &&
      (match e.walk with
       | .leaf l => e.page == va / 65536 || e.page * 65536 / pageSize l.level == va / pageSize l.level ||
          walkEnd p asid (e.page * 65536) != some l.at_
       | _ => true)
  let stays (b : Binding) : Bool := decide (2 ≤ kind) || (kind == 1 && b.asid != asid) || (findSlot p b.asid).isSome
  { p with tlb := p.tlb.filter fun e => !same e, binds := p.binds.filter stays }

end Sys2Proof.Machine
end

