-- ==== Sys2Proof/Machine/NodeOps.lean ====
section
/-! DEFINITION. Operations over engine commands, tokens and nodes that several families share: presence and completion of a
command (R187 to R189), records and events on their way (R355, R358), stopping a node (R356), group and core numbering
(R338, R346). -/

namespace Sys2Proof.Machine

/-! ## Commands and tokens -/

/-- The command `id` is outstanding. -/
def Pkg.present (p : Pkg) (id : Nat) : Bool := id != 0 && (p.cmds.get id).cmd.id == id
def Pkg.cmd (p : Pkg) (id : Nat) : Command := p.cmds.get id
def Pkg.modCmd (p : Pkg) (id : Nat) (f : Command → Command) : Pkg := { p with cmds := p.cmds.set id (f (p.cmd id)) }
/-- The outstanding commands. -/
def Pkg.allCmds (p : Pkg) : List Command := p.cmds.map (·.2)
/-- The outstanding commands of a context. -/
def Pkg.cmdsOf (p : Pkg) (x : Nat) : List Command := p.allCmds.filter fun c => c.cmd.ctx == x && c.phase != .parked

/-- A command with an access that is held (R330, R363, R364). -/
def isHeld (p : Pkg) (id : Nat) : Bool := p.held.any fun h => h.cmd == some id

/-- Whose a command is: its node and part, whatever context the part is on (R187, R318). -/
def ownerOf (c : Cmd) : Nat × Nat := (c.node, c.part)
/-- The outstanding commands of a context's part, parked ones of the same part among them. -/
def Pkg.ownCmds (p : Pkg) (x : Nat) : List Command :=
  p.allCmds.filter fun c => ownerOf c.cmd == ((p.c x).node.getD 0, (p.c x).part)

/-- A command is gone: tiles and channel it held are free (R219, R269), the commands that consumed it learn its status. -/
def dropCommand (id status : Nat) (p : Pkg) : Pkg :=
  let learn (c : Command) : Command :=
    if c.cmd.uses.contains id || c.cmd.closure.contains id then { c with ended := c.ended ++ [(id, status)] } else c
  { p with
    cmds := ((p.cmds.erase id).map fun q => (q.1, learn q.2))
    tiles := (p.cmd id).tiles.foldl (fun m t => m.modify t fun tl => if tl.owner = some id then { tl with owner := none } else tl) p.tiles
    chans := p.chans.map fun q => (q.1, if q.2.holder = some id then { q.2 with holder := none, step := none } else q.2)
    held := p.held.filter fun h => h.cmd != some id }

/-- A token completes with its status (R188). A parked token's completion is kept for its restore (R318). -/
def completeToken (id status : Nat) (p : Pkg) : Pkg :=
  let cm := p.cmd id
  if cm.phase = .parked then p.modCmd id fun c => { c with arrivedEnd := some status }
  else
    let p := dropCommand id status p
    p.modC cm.cmd.ctx fun c =>
      let t := c.tokens.get cm.cmd.tok
      if t.cmd = id then { c with tokens := c.tokens.set cm.cmd.tok { t with state := .complete, status := status, acked := false, flags := if cm.unit = 13 then cm.detail else 0 } }
      else c

/-- A command whose end has come apart from its own accesses (a notice's acknowledgement, an episode, a resolve): it has no
access left to make, and its token completes next. -/
def endCommand (id status : Nat) (p : Pkg) : Pkg :=
  p.modCmd id fun c => if c.phase = .parked then { c with arrivedEnd := some status }
    else { c with phase := .started, status := status }

/-! ## Records and events -/

/-- A fault record starts on its way to the ring (R355). -/
def postRecord (r : FaultRec) (p : Pkg) : Pkg := { p with faultq := p.faultq ++ [r] }
/-- An event starts on its way to the event log (R358). -/
def logEvent (e : LogEvent) (p : Pkg) : Pkg := { p with logq := p.logq ++ [e] }
def emit (m : OutMsg) (p : Pkg) : Pkg := { p with out := p.out ++ [m] }

/-- A saturating count in bits [hi:lo] of a register goes up by one. -/
def countUp (a hi lo : Nat) (p : Pkg) : Pkg :=
  let v := bits (p.regv a) hi lo
  p.setRegBits a hi lo (if v + 1 < 2 ^ (hi + 1 - lo) then v + 1 else v)

/-- The tile of a place, 0xFFFF for one outside bonded DRAM and for none (R354). -/
def tileOf (dpa : Option Nat) : Nat := match dpa with | some d => if isDram d then dpaTile d else 0xFFFF | none => 0xFFFF

/-- A record about an engine command's access to a place, where it has one. -/
def engineRecord (dtime kind flags code : Nat) (c : Cmd) (va : Nat) (dpa : Option Nat) : FaultRec :=
  { source := 300 + coreOf c.ctx, time := dtime, kind := kind, flags := flags, code := code, node := c.node, asid := c.asid,
    pcore := coreOf c.ctx, ctx := c.ctx % 4 + 4, va := va, dpa := dpa.getD 0, tile := tileOf dpa }

/-- A page-table word met poisoned is marked, and the first walk that meets it posts one record (R335). -/
def markTable (dtime asid va d : Nat) (p : Pkg) : Pkg :=
  if p.poisonTbl.get (d / 8) then p
  else postRecord { kind := 5, source := 500, time := dtime, asid := asid, va := va, dpa := d }
    { p with poisonTbl := p.poisonTbl.set (d / 8) true }

/-- A walk that hardware makes for no command: a poisoned word that it meets is marked and reported (R335). -/
def noteMark (dtime asid va : Nat) (p : Pkg) : Pkg :=
  match walk p asid va with
  | .poisoned d => markTable dtime asid va d p
  | _ => p

/-! ## Numbering (R25, R338, R346) -/

/-- A row is in service (R338). -/
def Pkg.inService (p : Pkg) (n : Nat) : Bool := n < 72 && !(p.regv (0x03000000 + 8 * (n / 36))).testBit (n % 36)
/-- The physical cores in service, in increasing order: logical core n is the n-th (R338). -/
def Pkg.serviceCores (p : Pkg) : List Nat := (List.range 72).filter p.inService
def Pkg.pcoreOf (p : Pkg) (lcore : Nat) : Option Nat := p.serviceCores[lcore]?
/-- The logical number of a physical core, 0x7F for a harvested row (R310). -/
def Pkg.lcoreOf (p : Pkg) (n : Nat) : Nat := if p.inService n then (p.serviceCores.filter (· < n)).length else 0x7F
def dieOf (n : Nat) : Nat := n / 36
/-- The package cluster of a physical core (R25). -/
def clusterOf (n : Nat) : Nat := 9 * (n / 36) + n % 36 / 4
/-- The present power state of a core's cluster: 0 on, 1 retention, 2 off (R389). -/
def Pkg.powerOf (p : Pkg) (n : Nat) : Nat := bits (p.regv (0x100 + 8 * clusterOf n)) 9 8

/-- The launch queue, the live node of an identifier. -/
def Pkg.live (p : Pkg) (id : Nat) : Bool := id != 0 && (p.nodes.get id).id == id
def Pkg.node (p : Pkg) (id : Nat) : Node := p.nodes.get id
def Pkg.modNode (p : Pkg) (id : Nat) (f : Node → Node) : Pkg := { p with nodes := p.nodes.set id (f (p.node id)) }
/-- The live nodes in take order. -/
def Pkg.liveNodes (p : Pkg) : List Node := p.nodes.map (·.2)

/-- The logical cores of a core set. -/
def coreSet (cores : Nat) : List Nat := (List.range 128).filter cores.testBit

/-- A group-table entry (R346): members, first and last joined column, valid. -/
structure Group where
  members : Nat
  ca      : Nat
  cb      : Nat
  valid   : Bool
  deriving DecidableEq, Repr, Inhabited

def Pkg.group (p : Pkg) (g : Nat) : Group :=
  let b := p.groups.get g
  { members := field b 0 16, ca := field b 16 1, cb := field b 17 1, valid := field b 18 1 % 2 = 1 }

/-! ## The deal (R347) -/

/-- The deal sequence of a core set, as physical cores: by rank within the cluster, then by cluster. -/
def dealSequence (p : Pkg) (cores : Nat) : List Nat :=
  let members := (coreSet cores).filterMap p.pcoreOf
  (List.range 4).flatMap fun r => (List.range 18).filterMap fun cl => (members.filter fun n => clusterOf n == cl)[r]?

/-- The physical core that a part of a node is dealt to. -/
def dealt (p : Pkg) (n : Node) (part : Nat) : Nat :=
  let seq := dealSequence p n.cores
  seq.getD (part % seq.length) 0

/-- The parts of a node dealt to a core, in increasing number. -/
def partsOn (p : Pkg) (n : Node) (core : Nat) : List Nat :=
  let seq := dealSequence p n.cores
  (List.range n.nparts).filter fun i => seq.getD (i % seq.length) 72 == core

/-- Some part of a node dealt to a core has not ended, kept back, queued, bound or saved (R203, R344). -/
def partsLeft (p : Pkg) (node core : Nat) : Bool :=
  p.live node && (partsOn p (p.node node) core).any fun i => !(p.node node).ended.contains i

/-- The order in which parts are bound (R32): priority, take order, part. -/
def bindsBefore (p : Pkg) (a b : Nat × Nat) : Bool :=
  let m := p.node a.1
  let n := p.node b.1
  decide (n.priority < m.priority) || (m.priority == n.priority &&
    (decide (m.order < n.order) || (m.order == n.order && decide (a.2 < b.2))))

/-- The first of a list of parts (log 75). -/
def firstPart (p : Pkg) : List (Nat × Nat) → Option (Nat × Nat)
  | [] => none
  | a :: as => match firstPart p as with
    | none => some a
    | some b => if bindsBefore p b a then some b else some a

/-- Parts kept back enter a core's queue while it has room (R347). -/
def admitParts (clock core : Nat) : Nat → Pkg → Pkg
  | 0, p => p
  | n + 1, p =>
    let k := p.k core
    if k.queue.length < 16 then
      match firstPart p k.backlog with
      | none => p
      | some e => admitParts clock core n (p.setK core
          { k with backlog := k.backlog.filter (· != e), queue := k.queue ++ [{ node := e.1, part := e.2, since := clock }] })
    else p

/-- Every core with parts kept back admits those that have room (R347). -/
def admitAll (clock : Nat) (p : Pkg) : Pkg :=
  (p.core.filterMap fun q => if q.2.backlog.isEmpty then none else some q.1).foldl (fun p n => admitParts clock n 16 p) p

/-! ## What a part knows of performed writes -/

/-- What a context's part knew and observed is not its successor's (R75, R106); its fetch finds what is there (logs 22, 23, 55). -/
def forgetCtx (x : Nat) (p : Pkg) : Pkg :=
  let p := p.modStale fun e => { e with known := e.known.filter fun kn => kn.ctx != x, fetch := (x :: e.fetch).eraseDups }
  { p with replicas := p.replicas.map fun r => { r with past := r.past.filter (· != x) } }

/-- A part of a node with these predecessors comes after the writes that their completion conveys (R113) (log 22). -/
def learnNode (x : Nat) (preds : List Nat) (p : Pkg) : Pkg :=
  p.modStale fun e =>
    if e.nodes.any preds.contains then { e with known := e.known ++ [{ ctx := x, lin := some 0, swz := some 0, far := true }] } else e

/-- What a context knows of performed writes when its part ends comes before its node's completion (R102, R113) (log 22). -/
def handOver (x node : Nat) (p : Pkg) : Pkg :=
  p.modStale fun e => if e.known.any fun kn => kn.ctx == x then { e with nodes := (node :: e.nodes).eraseDups } else e

/-- A node's completion conveys its writes, and those that its predecessors' completions conveyed to it (R113) (log 22). -/
def conveyNode (node : Nat) (p : Pkg) : Pkg :=
  let preds := (p.node node).preds
  p.modStale fun e => if e.node == node || e.nodes.any preds.contains then { e with nodes := e.nodes ++ [node] } else e

/-! ## Stopping a node (R356) -/

/-- A context loses its part; nothing lands (R356). What R36 sets at the next binding stays till then. -/
def unbindCtx (x : Nat) (p : Pkg) : Pkg :=
  let p := p.modC x fun c =>
    { ({} : Ctx) with pc := c.pc, s := c.s, v := c.v, p := c.p, m := c.m, creg := c.creg, rport := c.rport, vport := c.vport,
                      tmpl := c.tmpl, cursor := c.cursor, seq := c.seq, sysq := c.sysq }
  p.modK (coreOf x) fun k => if k.running = some x then { k with running := none, quantum := 0 } else k

/-- The contexts bound to parts of a node. -/
def Pkg.ctxsOf (p : Pkg) (n : Nat) : List Nat := (List.range 288).filter fun x => (p.c x).node == some n

/-- A failed plane's record of which no access is held any more: a resolve that names it is ignored (R356) (log 80). -/
def closeRecords (before : Pkg) (p : Pkg) : Pkg :=
  let close (f : FailedPlane) : FailedPlane :=
    if (before.held.any fun h => h.group == f.group) && !(p.held.any fun h => h.group == f.group) then { f with group := 0, rec_ := none }
    else f
  { p with failed := p.failed.map close }

/-- Steps 1 and 2 of R356: contexts unbound, parts removed from every queue, commands cancelled without a status, held
accesses and waiting notices dropped; kept parts enter where there is room now (R347) (log 77). -/
def stopNode (clock n : Nat) (p : Pkg) : Pkg :=
  let before := p
  let ids := (p.allCmds.filter fun c => c.cmd.node == n).map (·.cmd.id)
  let p := ids.foldl (fun p id => dropCommand id 0 p) p
  let p := (p.ctxsOf n).foldl (fun p x => unbindCtx x p) p
  let p := p.modStale fun e => { e with nodes := e.nodes.filter (· != n) }
  admitAll clock (closeRecords before { p with
    core := p.core.map fun q => (q.1, { q.2 with
      queue := q.2.queue.filter fun e => e.node != n, backlog := q.2.backlog.filter fun e => e.1 != n,
      images := q.2.images.filter fun e => e.node != n, kickq := q.2.kickq.filter fun e => !ids.contains e })
    held := p.held.filter fun h => h.node != some n
    arrivals := p.arrivals.filter fun a => a.node != n
    images := p.images.map fun i => if i.node = n then { i with void := true } else i
    notices := p.notices.filter fun e => !(ids.contains e.cmd && e.sender / 512 == p.number) })

/-- A node fails with a reason (R348): it is stopped, its stage discarded, and its completion is next. -/
def failNode (clock n reason : Nat) (p : Pkg) : Pkg :=
  (stopNode clock n p).modNode n fun nd => { nd with fail := some reason, phase := .ending, stage := [], aborted := true }

end Sys2Proof.Machine
end

