-- ==== Sys2Proof/Machine/Engine.lean ====
section
/-! DEFINITION. Engine commands (R184 to R191): the accesses a command makes to device memory and to local storage, the writes
it still has to perform, its issue, its start and the completion of its token. -/

namespace Sys2Proof.Machine

/-! ## The memory-side cache (R91, R92, R116) -/

/-- The die that may hold replicas of a sector's line: the one that is not the line's home (R91). -/
def replicaDie (s : Nat) : Nat := 1 - Config.homeDie (s / 8) % 2

/-- A context has observed a sector as its home holds it (R99, R116) (log 55). -/
def observeNew (x s : Nat) (p : Pkg) : Pkg :=
  { p with replicas := p.replicas.map fun r => if r.sector = s then { r with past := (x :: r.past).eraseDups } else r }

/-- A sector, as a context's read from a die finds it (R98, R99, R116): in the die that is not the line's home a replica may serve it,
whose bytes may be older, but not for a context that has observed newer ones; a read may leave replicas of the line, or refresh
one (log 55). -/
def cachedSector (fresh die x s : Nat) (p : Pkg) : List Byte × Pkg :=
  let now := p.mem.getMany (32 * s) 32
  let change (r : Replica) : Pkg := { p with replicas := p.replicas.map fun q => if q.sector = s then r else q }
  if die != replicaDie s then (now, p)
  else match p.replicas.find? fun r => r.sector == s with
    | some r =>
      match if r.past.contains x then 1 + Config.freeNat fresh % 2 else Config.freeNat fresh % 3 with
      | 0 => (r.bytes, p)
      | 1 => (now, observeNew x s p)
      | _ => (now, change { sector := s, bytes := now })
    | none =>
      let line := (List.range 8).map fun i => s / 8 * 8 + i
      let new := line.filter fun t => !p.replicas.any fun r => r.sector == t
      if Config.freeBool fresh then (now, p)
      else (now, { p with replicas := p.replicas ++ new.map fun t => { sector := t, bytes := p.mem.getMany (32 * t) 32 } })

/-- Replicas of lines that a write has reached since they were filled are gone, for the writes named by command, node and part
(R108, R113, R116) (log 55). -/
def dropReplicas (which : Nat × Nat × Nat → Bool) (p : Pkg) : Pkg :=
  { p with replicas := p.replicas.filter fun r => !r.by_.any which }
/-- Those of commands, whose writes are then performed for every die (log 55). -/
def clearReplicas (ids : List Nat) (p : Pkg) : Pkg := dropReplicas (fun b => ids.contains b.1) p
/-- Those of lines, by their numbers. -/
def dropLines (ls : List Nat) (p : Pkg) : Pkg := { p with replicas := p.replicas.filter fun r => !ls.contains (r.sector / 8) }

/-- Replicas of lines that commands have written are gone where one of the commands is of their die, and are older than the write
elsewhere (R101, R116) (log 55). -/
def ageReplicas (cs : List Cmd) (lines : List Nat) (p : Pkg) : Pkg :=
  let age (r : Replica) : Option Replica :=
    if !lines.contains (r.sector / 8) then some r
    else if cs.any fun c => dieOf (coreOf c.ctx) == replicaDie r.sector then none
    else some { r with by_ := (r.by_ ++ cs.map fun c => (c.id, c.node, c.part)).eraseDups }
  { p with replicas := p.replicas.filterMap age }

/-- A cached write of commands leaves its line dirty, and the line's replicas older (R91, R92). -/
def cacheWrite (cs : List Cmd) (cells : List Host.Cell) (p : Pkg) : Pkg :=
  let node := (cs.headD { id := 0 }).node
  let mark (m : NMap CacheLine) (k : Nat) : NMap CacheLine :=
    m.modify (k / 256) fun l => { l with dirty := (l.dirty ++ [k]).eraseDups, node := node, pending := l.pending || l.dirty.isEmpty }
  { ageReplicas cs (cells.map fun q => q.1 / 256).eraseDups p with lines := (cells.map (·.1)).foldl mark p.lines }

/-- Device bytes written: a sector written whole loses its uncorrectable mark (R352). -/
def writeCells (cells : List Host.Cell) (p : Pkg) : Pkg :=
  let whole := ((cells.map fun c => c.1 / 32).eraseDups).filter fun s =>
    (((cells.filter fun c => c.1 / 32 == s).map (·.1)).eraseDups).length == 32
  { p with mem := p.mem.setCells cells, badSector := whole.foldl (fun m s => m.set s false) p.badSector }

/-! ## Accesses of a command -/

/-- Why a command's accesses stop: a status of its own, an access held (R330, R363, R364), a condition to wait for, the
failure of its node (R349), a pause before more of its accesses (R97). -/
inductive Stop where
  | status (n : Nat)
  | held (h : Held)
  | wait
  | nodeFail (reason : Nat)
  | pause
  deriving DecidableEq, Repr, Inhabited

/-- Bytes that a command has changed before their writes are performed: in side slots or device memory, the virtual address by which it
walked, whether the page is a cached one, the place, and what stood there (R243) (log 48). -/
structure Made where
  side : Bool
  va   : Option Nat
  priv : Bool
  at_  : Nat
  old  : List Byte
  deriving DecidableEq, Repr, Inhabited

/-- A command at work: the package, the writes it has made, those that follow all others, its stamp, the pages it has translated, the
status it completes with. Of its accesses: whether this step makes all that are left, the answers of earlier steps still to come and
those met or added so far, newest first, the same for parts that do not depend on each other, what has stopped one of a set while the
others go on, and that another part has been stopped already (R97, R100) (log 25); what it has changed ahead of its writes, newest
first. -/
structure Work where
  p       : Pkg
  writes  : List PWrite := []
  late    : List PWrite := []
  stamp   : Option PWrite := none
  leaves  : List (Nat × Nat × Leaf) := []
  status  : Nat := 0
  whole   : Bool := true
  replay  : List Answer := []
  got     : List Answer := []
  parts   : List (List Answer) := []
  kept    : List (List Answer) := []
  pending : Option Stop := none
  quiet   : Bool := false
  made    : List Made := []
  deriving DecidableEq, Repr, Inhabited

/-- A command's work as its step finds it. -/
def Work.of (p : Pkg) (id : Nat) : Work :=
  let m := p.cmd id
  { p := p, stamp := m.stamp, leaves := m.leaves, whole := m.whole, replay := m.log, parts := m.parts }

structure View where
  env : Env
  cmd : Cmd
  deriving DecidableEq, Repr, Inhabited

abbrev Eng := ReaderT View (EStateM Stop Work)

/-- What stops a set or a row of parts: the first stop that is more than a pause. -/
def firstStop : Option Stop → Stop → Option Stop
  | none, e => some e
  | some .pause, e => some e
  | some h, _ => some h

/-- Something other than a pause has stopped an access already. -/
def Work.blocked (w : Work) : Bool := w.quiet || (match w.pending with | none => false | some e => e != .pause)

/-- What a stop leaves of its access. -/
def Stop.answer : Stop → Answer
  | .status n => .failed n
  | .held h => .held h.group
  | _ => .open_

/-- A held access of one of the groups is made again (R330, R363, R364). -/
def Answer.reopen (groups : List Nat) : Answer → Answer
  | .held g => if groups.contains g then .open_ else .held g
  | a => a
def Answer.isHeld : Answer → Bool
  | .held _ => true
  | _ => false

/-- The bytes of an access that has been made. -/
def Answer.data : Answer → List Byte
  | .bytes bs => bs
  | _ => []

namespace Eng

def fail {α : Type} (n : Nat) : Eng α := throw (.status n)
def wait {α : Type} : Eng α := throw .wait
/-- The command completes with a status, all its writes standing. -/
def endWith (n : Nat) : Eng Unit := modify fun w => { w with status := n }
/-- Goes on only when the condition holds, else the command completes with the status. -/
def need (b : Bool) (n : Nat) : Eng Unit := if b then pure () else fail n
def pkg : Eng Pkg := return (← get).p
def modPkg (f : Pkg → Pkg) : Eng Unit := modify fun w => { w with p := f w.p }
/-- The command as it stands. -/
def self : Eng Command := do
  let v ← read
  return (← pkg).cmd v.cmd.id
def modSelf (f : Command → Command) : Eng Unit := do
  let v ← read
  modPkg fun p => p.modCmd v.cmd.id f
def writeLate (w : PWrite) : Eng Unit := modify fun s => { s with late := s.late ++ [w] }
/-- Runs a part whose own status does not stop the command. -/
def attempt {α : Type} (m : Eng α) : Eng (Except Nat α) := fun v s =>
  match m v s with
  | .ok a s => .ok (.ok a) s
  | .error (.status n) s => .ok (.error n) s
  | .error e s => .error e s

/-! ### Order (R97, R98, R100) -/

/-- One access: made once, with its answer kept for the steps that follow; a step that does not make all that are left may stop
before it, by choice. One that is held stays so until its release. Where another access has stopped the command already, one that is
stopped leaves nothing (R330) (log 25). -/
def access (m : Eng (List Byte)) : Eng (List Byte) := fun v w =>
  match w.replay with
  | .bytes bs :: r => .ok bs { w with replay := r, got := .bytes bs :: w.got }
  | .failed n :: r => .error (.status n) { w with replay := r, got := .failed n :: w.got }
  | .held g :: r => .error .pause { w with replay := r, got := .held g :: w.got }
  | r =>
    let mark (a : Answer) (t : Work) : Work := { t with replay := r.tail, got := a :: w.got }
    if !w.whole && Config.freeBool w.p.fresh then .error .pause (mark .open_ { w with p := w.p.drawn 1 })
    else match m v (if w.whole then w else { w with p := w.p.drawn 1 }) with
      | .ok bs t => .ok bs (mark (.bytes bs) t)
      | .error e t =>
        if w.blocked then .error e (mark .open_ { w with p := { w.p with fresh := t.p.fresh } })
        else .error e (mark (Stop.answer e) t)

/-- An access of a set: where it has to stop the others of the set go on. -/
def among (m : Eng (List Byte)) : Eng Answer := fun v w =>
  match access m v w with
  | .ok bs w => .ok (.bytes bs) w
  | .error (.nodeFail r) w => .error (.nodeFail r) w
  | .error e t => .ok (Stop.answer e) { t with pending := firstStop w.pending e }

/-- Accesses that may be made in any order; what has stopped one of them is pending. -/
def anyOrder : List (Eng (List Byte)) → Eng (List Answer)
  | [] => pure []
  | m :: ms => do
    let a ← among m
    return a :: (← anyOrder ms)

/-- The command stops here for what has stopped one of its accesses. -/
def settle : Eng Unit := do
  match (← get).pending with
  | none => pure ()
  | some e => do
    modify fun w => { w with pending := none }
    throw e

/-- The bytes of consecutive blocks, those of accesses that have been made. -/
def bytesFound (bs : List (Nat × Nat)) (as : List Answer) : List (Option Byte) :=
  (bs.zip as).flatMap fun q => match q.2 with | .bytes b => b.map some | _ => List.replicate q.1.2 none
/-- `n` bytes from an offset on, once all of them have been read. -/
def bytesThere (bs : List (Option Byte)) (o n : Nat) : Option (List Byte) := ((bs.drop o).take n).mapM id

/-- Accesses in any order, all of them. -/
def readAll (ms : List (Eng (List Byte))) : Eng (List Byte) := do
  let as ← anyOrder ms
  settle
  return as.flatMap Answer.data

/-- Parts that do not depend on each other, each with accesses of its own (log 25). -/
def each : List (Eng Unit) → Eng Unit
  | [] => settle
  | m :: ms => do
    let w ← get
    set { w with replay := w.parts.headD [], got := [], parts := w.parts.tail, pending := none, quiet := w.blocked }
    let e ← (fun v u => match m v u with
      | .ok _ u => .ok none u
      | .error (.nodeFail r) u => .error (.nodeFail r) u
      | .error e u => .ok (some e) u : Eng (Option Stop))
    modify fun u => { u with
      replay := w.replay, got := w.got, quiet := w.quiet, kept := u.kept ++ [u.got.reverse ++ u.replay]
      pending := match e with | none => w.pending | some e => firstStop w.pending e }
    each ms

/-- The die of the issuing core. -/
def die : Eng Nat := return dieOf (coreOf (← read).cmd.ctx)

/-- A record of an uncorrectable read (R351, kind 0x09) and the status of R83. -/
def uncorrectable {α : Type} (va : Nat) (dpa : Option Nat) : Eng α := do
  let v ← read
  modPkg (postRecord (engineRecord v.env.dtime 9 0 7 v.cmd va dpa))
  fail 7

/-- The access is held (R330): its record, its group. Accesses held at one failed plane join one record (R363). -/
def hold {α : Type} (kind va dpa : Nat) (group : Nat) : Eng α := do
  let v ← read
  throw (.held { group := group, cmd := some v.cmd.id, core := coreOf v.cmd.ctx, kind := kind, asid := v.cmd.asid,
                 page := va / 65536 * 65536, dpa := dpa })

/-- A fresh group of held accesses, with the record that will name it; one of kind 0x03 gives the triggering bundle (R354). -/
def holdNew {α : Type} (kind flags code va : Nat) : Eng α := do
  let v ← read
  let g := (← pkg).nextGroup
  let m ← self
  let at_ := if kind = 3 then m.trig else 0
  modPkg fun p => postRecord { engineRecord v.env.dtime kind flags code v.cmd va none with tpc := at_, lpc := at_, group := some g }
    { p with nextGroup := g + 1 }
  hold kind va 0 g

/-! ### Places of device memory -/

/-- MOVE_PAGE holds the page (R364). -/
def moveHold (p : Pkg) (asid va : Nat) : Bool :=
  let r := p.regv 0x04000070
  bits r 56 56 == 1 && bits r 15 0 == asid && bits r 55 16 == va / 65536

/-- The leaf of the page of an address by a walk's outcome (R329, R330, R335). -/
def leafBy (va : Nat) (got : Walk) : Eng Leaf := do
  let v ← read
  let asid := v.cmd.asid
  let w ← get
  modPkg fun p => (noteWalk asid va got p).drawn 1
  match got with
  | .trans => holdNew 4 1 0 va
  | .hostDown => modPkg (countUp 0x07000000 47 32); fail 7
  | .poisoned d => modPkg (markTable v.env.dtime asid va d); fail 4
  | .leaf l =>
    if l.ats.isSome && leafKind l.entry == 3 && Config.freeBool w.p.fresh then
      modPkg fun p => p.drawn 1
      holdNew 4 1 0 va
    modify fun w => { w with leaves := w.leaves ++ [(asid, va / 65536, l)] }
    return l

/-- The leaf of the page of an address, each page once per step of a command (R329, R330, R332, R335). -/
def leafFor (va : Nat) : Eng Leaf := do
  let asid := (← read).cmd.asid
  need (decide (va < 2 ^ 56)) 4
  let w ← get
  match w.leaves.find? fun e => e.1 == asid && e.2.1 == va / 65536 with
  | some e => return e.2.2
  | none => leafBy va (chooseWalk w.p asid va)

/-- The failed plane at a place (R363). -/
def failedAt (p : Pkg) (k : Nat) : Option FailedPlane :=
  if isDram k then p.failed.find? fun f => f.tile == dpaTile k && f.plane == dpaPlane k else none

/-- A repair keeps the plane waiting (R93): a row, a bank or a lane group may serve any plane of its tile (log 16). -/
def pendingAt (p : Pkg) (k : Nat) : Bool :=
  isDram k && p.repairs.any fun r => r.pending && r.tile == dpaTile k && (r.category != 4 || r.plane == dpaPlane k)

/-- The record that an access to a failed plane joins, a new one where the last has been resolved (R363) (log 80). `r` says whose
access it is. -/
def joinPlane (r : FaultRec) (f : FailedPlane) (p : Pkg) : Pkg × Nat :=
  if f.group != 0 then (p, f.group)
  else
    let g := p.nextGroup
    let r := { r with source := 1000 + f.tile, tile := f.tile, detail := f.plane, group := some g }
    let name (h : FailedPlane) : FailedPlane := if h.tile = f.tile ∧ h.plane = f.plane then { h with group := g } else h
    (postRecord r { p with nextGroup := g + 1, failed := p.failed.map name }, g)

/-- The shape record of the columned region whose base is `base`, a status where there is none. A slot that cannot be read is a
poisoned table word, and a record that cannot be is uncorrectable data (R83, R335, R352) (log 35). -/
def regionIn (asid base none_ : Nat) : Eng Shape := do
  let v ← read
  let p ← pkg
  match (findSlot p asid).bind fun s => badTable p s.at_ with
  | some d =>
    modPkg (markTable v.env.dtime asid base d)
    fail 4
  | none => pure ()
  match regionAt p asid base with
  | none => fail none_
  | some r => match badTable p r.at_ with
    | some d => uncorrectable base (some d)
    | none => return r

/-- The access may be made at the place now (R93, R363, R378, R382). -/
def reach (va k : Nat) : Eng Unit := do
  let p ← pkg
  let v ← read
  match failedAt p k with
  | some f =>
    let q := joinPlane (engineRecord v.env.dtime 7 5 f.category v.cmd va (some k)) f p
    modPkg fun _ => q.1.modC v.cmd.ctx fun c => { c with queueFrozen := true }
    hold 7 va k q.2
  | none => pure ()
  if pendingAt p k then wait
  if !isDram k then
    need (p.cxl || dpaKind (k % 2 ^ 56) != 2) 4
    if !p.hostUp then
      modPkg (countUp 0x07000000 47 32)
      fail 7

/-- An access goes through a leaf: writable for a write (R329), not held (R364); D is set before a write (R333), once the leaf's own
plane serves it (R363). -/
def goThrough (l : Leaf) (va : Nat) (wr dirty : Bool) : Eng Unit := do
  let v ← read
  if wr && bits l.entry 4 4 == 0 then
    modPkg fun p => p.modC v.cmd.ctx fun c => { c with queueFrozen := true }
    holdNew 3 5 0x27 va
  if moveHold (← pkg) v.cmd.asid va then hold 0 va 0 0
  if wr && dirty && bits l.entry 5 5 == 0 then
    reach va l.at_
    modPkg (setDirty l)

/-- The leaf that an access translates through, not retired (R94). -/
def translate (va : Nat) (wr dirty : Bool) : Eng Leaf := do
  let l ← leafFor va
  need (leafState l.entry != 2) 6
  goThrough l va wr dirty
  return l

/-- The stage page of a page of a restartable node's output region (R349). -/
def stageOf (p : Pkg) (node va : Nat) : Option Nat :=
  ((p.node node).stage.find? fun e => e.1 == va / 65536 * 65536).map (·.2)
/-- The address is in a declared output region of a restartable node. -/
def inOutput (p : Pkg) (node va : Nat) : Bool :=
  (p.node node).restart && (p.node node).outputs.any fun r => decide (r.1 ≤ va) && decide (va < r.1 + r.2)
/-- The DPA of a stage page. -/
def stagePlace (p : Pkg) (sp va : Nat) : Nat := bits (p.regv 0x03000020) 55 16 * 65536 + 65536 * sp + va % 65536

/-- A 64 KiB page copied whole from one set of places to another: its bytes, which of its sectors are uncorrectable, and side slots
with their planes (R15, R349, R352). -/
def copyPage (p : Pkg) (src : Nat → Nat) (sva : Nat) (dst : Nat → Nat) (dva : Nat) : Pkg :=
  let cells := (List.range 65536).map fun i => (dst (dva + i), p.mem.get (src (sva + i)))
  let bad := (List.range 2048).map fun i => (dst (dva + 32 * i) / 32, p.badSector.get (src (sva + 32 * i) / 32))
  let sides := (List.range 16).flatMap fun g =>
    let a := src (sva + 4096 * g)
    let b := dst (dva + 4096 * g)
    if isDram a && isDram b then
      cellsAt (sideAt (dpaTile b) (dpaPlane b)) (p.side.getMany (sideAt (dpaTile a) (dpaPlane a)) 256)
    else []
  { p with mem := p.mem.setCells cells, side := p.side.setCells sides,
           badSector := bad.foldl (fun m q => m.set q.1 q.2) p.badSector }

/-- A page of the stage pool that no node uses and no failed plane keeps. -/
def freeStage (p : Pkg) : Option Nat :=
  let used := p.liveNodes.flatMap fun n => n.stage.map (·.2)
  (List.range (bits (p.regv 0x03000028) 23 0)).find? fun i =>
    !used.contains i && (List.range 16).all fun g => (failedAt p (stagePlace p i (4096 * g))).isNone

/-- A stage page made before a node's first write to the page: a copy of the page as it stands (R349). -/
def makeStage (node va sp : Nat) (l : Leaf) (p : Pkg) : Pkg :=
  let page := va / 65536 * 65536
  (copyPage p (leafPlace p l) page (stagePlace p sp) page).modNode node fun n => { n with stage := n.stage ++ [(page, sp)] }

/-- Where an access to an address of the node's ASID goes: its place, and whether it is a cached page. A write made at once to an
output region of a restartable node makes the page's stage page first (R349). -/
def place (va : Nat) (wr : Bool) : Eng (Nat × Bool) := do
  let v ← read
  let staged := inOutput (← pkg) v.cmd.node va
  let l ← translate va wr (!staged)
  let p ← pkg
  if staged then
    match stageOf p v.cmd.node va with
    | some sp => return (stagePlace p sp va, false)
    | none =>
      if wr then
        reach va (leafPlace p l va)
        match freeStage p with
        | none => throw (.nodeFail 4)
        | some sp =>
          modPkg (makeStage v.cmd.node va sp l)
          return (stagePlace p sp va, false)
      else pure ()
  let k := leafPlace p l va
  reach va k
  return (k, l.priv)

/-- The parts of a range that lie in one aligned block of g bytes each. -/
def blocks (g va n : Nat) : List (Nat × Nat) :=
  if n = 0 then []
  else (List.range ((va + n - 1) / g - va / g + 1)).map fun i =>
    let lo := max va ((va / g + i) * g)
    let hi := min (va + n) ((va / g + i + 1) * g)
    (lo, hi - lo)

/-- The parts of a range in granules of 4 KiB. -/
def pieces (va n : Nat) : List (Nat × Nat) := blocks 4096 va n

/-! ### Reads of device memory -/

/-- A completion of the hub's own reads of the host's memory, for no command, may be poisoned by choice (R382) (log 83). -/
def hubCompletion (k : Nat) : Eng Unit := do
  let p ← pkg
  if (← read).cmd.id == 0 && !isDram k then
    if Config.freeBool p.fresh then
      modPkg (countUp 0x07000000 47 32)
      fail 7
    modPkg fun p => p.drawn 1

/-- Bytes at places of one sector (R98, R352). -/
def readPlace (va k n : Nat) (priv : Bool) : Eng (List Byte) := do
  hubCompletion k
  let p ← pkg
  let d ← die
  let v ← read
  if p.badSector.get (k / 32) then uncorrectable va (some k)
  if priv then
    let r := cachedSector p.fresh d v.cmd.ctx (k / 32) p
    modPkg fun _ => r.2.drawn 1
    return (r.1.drop (k % 32)).take n
  else return p.mem.getMany k n

/-- Bytes of one sector at a virtual address. -/
def readSector (va n : Nat) : Eng (List Byte) := do
  let w ← place va false
  readPlace va w.1 n w.2

/-- `n` bytes of device memory from a virtual address: one access for each sector, in any order (R98). -/
def devRead (va n : Nat) : Eng (List Byte) := readAll ((blocks 32 va n).map fun q => readSector q.1 q.2)

/-- A little-endian number of device memory. -/
def devNum (va n : Nat) : Eng Nat := return natOf (← devRead va n)

/-! ### Writes -/

/-- A write to be performed later, which the step's replay does not make again. -/
def emitWrite (x : PWrite) : Eng (List Byte) := do
  modify fun w => { w with writes := w.writes ++ [x] }
  return []

/-- A write to be performed between now and the completion of the command's token. -/
def write (x : PWrite) : Eng Unit := discard (access (emitWrite x))

/-- Where a write to an output region of a restartable node goes: the stage page, or the page that it is copied from first (R349). -/
def stagedAt (p : Pkg) (node : Nat) (l : Leaf) (va : Nat) : Nat :=
  match stageOf p node va with | some sp => stagePlace p sp va | none => leafPlace p l va

/-- The leaf of a write to such a region, whose stage page is found or made when it is performed, and the place it reaches now (R114). -/
def stagedLeaf (va : Nat) : Eng (Leaf × Nat) := do
  let l ← translate va true false
  let k := stagedAt (← pkg) (← read).cmd.node l va
  reach va k
  return (l, k)

/-- The write of bytes by virtual address within one sector. A write to an output region of a restartable node finds or makes its stage
page when it is performed (R114, R349). -/
def sectorWrite (cells : List Host.Cell) : Eng PWrite := do
  let v ← read
  let va := (cells.headD (0, 0)).1
  if inOutput (← pkg) v.cmd.node va then
    return .staged (← stagedLeaf va).1 cells
  else
    let w ← place va true
    return .dev (some va) w.2 (cells.map fun c => (w.1 + c.1 - va, c.2))

/-- The write of bytes of the side slot of the plane at a virtual address, from an offset on; in an output region the stage page's
(R15, R114). -/
def sideWrite (va o : Nat) (bs : List Byte) : Eng PWrite := do
  let v ← read
  if inOutput (← pkg) v.cmd.node va then
    return .side (some va) (some (← stagedLeaf va).1) (cellsAt o bs)
  else
    let w ← place va true
    return .side (some va) none (cellsAt (sideAt (dpaTile w.1) (dpaPlane w.1) + o) bs)

/-- Bytes of device memory to be written from a virtual address on, each sector's by itself, in any order (R98). -/
def devWrite (va : Nat) (bs : List Byte) : Eng Unit := do
  discard (anyOrder ((blocks 32 va bs.length).map fun q => do
    emitWrite (← sectorWrite (cellsAt q.1 ((bs.drop (q.1 - va)).take q.2)))))
  settle

/-- Bytes changed ahead of their writes, so that what follows in an indivisible part finds them (R243) (log 48). -/
def changeNow (side : Bool) (va : Option Nat) (priv : Bool) (at_ : Nat) (bs : List Byte) : Eng Unit := modify fun w =>
  let p := w.p
  { w with
    made := ⟨side, va, priv, at_, (if side then p.side else p.mem).getMany at_ bs.length⟩ :: w.made
    p := if side then { p with side := p.side.setMany at_ bs }
      else (if priv then dropLines [at_ / 256, (at_ + bs.length - 1) / 256] else id) (writeCells (cellsAt at_ bs) p) }

/-- The change of bytes at a virtual address, sector by sector. -/
def devNow (va : Nat) (bs : List Byte) : Eng Unit := do
  for q in blocks 32 va bs.length do
    let w ← place q.1 true
    changeNow false (some q.1) w.2 w.1 ((bs.drop (q.1 - va)).take q.2)

/-! ### Local storage (R70, R72, R191) -/

/-- A range of local addresses lies in one view of the scratchpad or in the accumulator (R72). -/
def localOk (a n : Nat) : Bool :=
  decide (a + n ≤ spadSize) || (decide (0x1000000 ≤ a) && decide (a + n ≤ 0x1800000)) ||
  (decide (0x2000000 ≤ a) && decide (a + n ≤ 0x2200000))
/-- A range of linear scratchpad at an alignment. -/
def linear (a n align : Nat) : Bool := decide (a + n ≤ spadSize) && a % align == 0

/-- The scratchpad byte address that a local address of either view names (R74). -/
def spadByte (a : Nat) : Nat := if a < spadSize then a else swz (a - 0x1000000)

/-- A word of a core's scratchpad where the performed writes that must be observed are those given, and others and the pending stores
of a context are by choice (R98). -/
def looseWord (p : Pkg) (core x : Nat) (visible : Stale → Bool) (w : Nat) : Lane :=
  let k := p.k core
  let base := viewBytes p.fresh visible w 0 k.stale.reverse [] (k.spad.getMany (4 * w) 4)
  let pend := if coreOf x = core then pending (p.c x) else []
  let bs := ((List.range pend.length).zip pend).foldl
    (fun bs q => if touches w q.2.bytes && sees p.fresh (k.stale.length + q.1) w then overlay w q.2.bytes bs else bs) base
  BitVec.ofNat 32 (natOf bs)

/-- A word of the issuing core's scratchpad as the command's reads observe it: every store ordered before the command in the
stream, and others by choice (R191). -/
def engineWord (p : Pkg) (c : Command) (swzd : Bool) (w : Nat) : Lane :=
  let seen := if swzd then c.seenSwz else c.seenLin
  looseWord p (coreOf c.cmd.ctx) c.cmd.ctx (fun e => e.any || seen.contains e.number) w

/-- A word of a sender's buffer as a pull finds it: its value at the kick or a later one (R111). -/
def pulledWord (p : Pkg) (kick : Command) (swzd : Bool) (w : Nat) : Lane :=
  let seen := if swzd then kick.seenSwz else kick.seenLin
  looseWord p (coreOf kick.cmd.ctx) kick.cmd.ctx (fun e => seen.contains e.number || (e.any && decide (e.number < kick.mark))) w

/-- A word of another core's scratchpad as an injector finds it (R225): a write that happens before the command's issue as R225 asks,
and one of the swizzled stream or of an engine that its storage has performed, is read; others by choice. -/
def feederWord (p : Pkg) (c : Command) (core w : Nat) : Lane :=
  looseWord p core c.cmd.ctx (fun e => e.any || c.carry.any fun k => k.write == e.number && k.far) w

/-- Engine accesses to a core wait until its cluster is on (R391). -/
def awake (core : Nat) : Eng Unit := do
  if (← pkg).powerOf core != 0 then wait

/-- The draws that reading a core's scratchpad may take. -/
def spendLocal (core x : Nat) : Eng Unit := modPkg fun p =>
  p.drawn (0x400000 * ((p.k core).stale.length + (p.c x).flight.length + 1))

/-- The same where the words of a range are not read in one step. -/
def spendWord (core x : Nat) : Eng Unit := do
  if !(← get).whole then spendLocal core x

/-- Bytes of one word at a local address of the issuing core (R83, R84, R191). -/
def readWord (a n : Nat) : Eng (List Byte) := do
  let v ← read
  let core := coreOf v.cmd.ctx
  let p ← pkg
  let c := p.cmd v.cmd.id
  if a < 0x2000000 then
    if (p.k core).poison.get (spadByte a / 64) then uncorrectable 0 none
    let bs := (List.range n).map fun i =>
      let s := spadByte (a + i)
      BitVec.ofNat 8 ((engineWord p c (decide (spadSize ≤ a)) (s / 4)).toNat / 256 ^ (s % 4))
    spendWord core v.cmd.ctx
    return bs
  else
    if (p.k core).badAcc.get ((a - 0x2000000) / 4) then uncorrectable 0 none
    return (List.range n).map fun i =>
      BitVec.ofNat 8 (((p.k core).acc.get ((a - 0x2000000 + i) / 4)).toNat / 256 ^ ((a + i) % 4))

/-- `n` bytes at a local address of the issuing core, each word's an access of its own (R98, R192). -/
def localRead (a n : Nat) : Eng (List Byte) := do
  need (localOk a n) 2
  let core := coreOf (← read).cmd.ctx
  awake core
  let bs ← readAll ((blocks 4 a n).map fun q => readWord q.1 q.2)
  spendLocal core (← read).cmd.ctx
  return bs

def localNum (a n : Nat) : Eng Nat := return natOf (← localRead a n)

/-- A record that the command read at its issue was sound (R83). -/
def soundRecord : Eng Unit := do
  if (← self).badRecord then uncorrectable 0 none

/-- One write of bytes at a local address of a core's storage: each word touched is set full in the scratchpad, and no full
bit changes in the accumulator (R191). -/
def localCells (core a : Nat) (bs : List Byte) : PWrite :=
  if a < 0x2000000 then
    let cells := (cellsAt a bs).map fun c => (spadByte c.1, c.2)
    .spad core cells ((cells.map fun c => c.1 / 4).eraseDups)
  else .accBytes core (cellsAt (a - 0x2000000) bs)

/-- One word of bytes that a command writes from a local address on; `whole` tells of a codeword that it rewrites whole (R83). -/
def wordCells (core : Nat) (whole : Nat → Bool) (a : Nat) (bs : List Byte) : PWrite :=
  match localCells core a bs with
  | .spad core cells full => if whole (a / 64) then .code core cells full else .spad core cells full
  | w => w

/-- A codeword that lies whole in a range. -/
def inRange (a n b : Nat) : Bool := decide (a ≤ 64 * b) && decide (64 * b + 64 ≤ a + n)

/-- Bytes written at a local address of a core's storage, a word at a time (R98). -/
def localWrites (core a : Nat) (bs : List Byte) : List PWrite :=
  (blocks 4 a bs.length).map fun q => wordCells core (inRange a bs.length) q.1 ((bs.drop (q.1 - a)).take q.2)

/-- Bytes to be written at a local address of the issuing core. -/
def localWrite (a : Nat) (bs : List Byte) : Eng Unit := do
  need (localOk a bs.length) 2
  let core := coreOf (← read).cmd.ctx
  awake core
  discard (anyOrder ((localWrites core a bs).map emitWrite))
  settle

end Eng

/-! ## Performing writes (R101, R188) -/

/-- A write cut into the parts that are each performed whole (R98): whole sectors of device memory and of side slots, single bytes of a
sector written in part, words of an accumulator, and last the full bit of each line (logs 25, 93). -/
def splitWrite (w : PWrite) : List PWrite :=
  match w with
  | .dev va priv cells =>
    ((cells.map fun c => c.1 / 32).eraseDups).flatMap fun s =>
      let cs := cells.filter fun c => c.1 / 32 == s
      let at_ (c : Host.Cell) : Option Nat := va.map fun a => a + (c.1 - (cells.headD (0, 0)).1)
      if ((cs.map (·.1)).eraseDups).length = 32 then [.dev (at_ (cs.headD (0, 0))) priv cs] else cs.map fun c => .dev (at_ c) priv [c]
  | .staged l cells =>
    ((cells.map fun c => c.1 / 32).eraseDups).flatMap fun s =>
      let cs := cells.filter fun c => c.1 / 32 == s
      if ((cs.map (·.1)).eraseDups).length = 32 then [.staged l cs] else cs.map fun c => .staged l [c]
  | .side va l cells => ((cells.map fun c => c.1 / 32).eraseDups).map fun s => .side va l (cells.filter fun c => c.1 / 32 == s)
  | .acc core add words lines => words.map (fun q => .acc core add [q] []) ++ lines.map fun l => .acc core add [] [l]
  | w => [w]

/-- The sector of device memory, of a stage page by virtual address, that a part of a write lies in (R98, R194). -/
def sectorOf : PWrite → Option (Bool × Nat)
  | .dev _ _ (c :: _) => some (false, c.1 / 32)
  | .staged _ (c :: _) => some (true, c.1 / 32)
  | _ => none

/-- The place of a side slot's plane. -/
def sidePlane (a : Nat) : Nat := dramDpa (a / 256 / 24576) (a / 256 % 24576) 0

/-- The places that a write of a node reaches: those of its bytes, of the planes of its side slots; for an output region the stage page,
or the page that it is copied from first (R349). -/
def placesOf (p : Pkg) (node : Nat) (w : PWrite) : List Nat :=
  match w with
  | .dev _ _ cells => cells.map (·.1)
  | .staged l cells => cells.map fun c => Eng.stagedAt p node l c.1
  | .side va l cells => match l with | some l => [Eng.stagedAt p node l (va.getD 0)] | none => cells.map fun c => sidePlane c.1
  | .amo _ l _ key _ _ _ => [match l with | some l => Eng.stagedAt p node l key | none => key]
  | _ => []

/-- The full bits that a write sets, and whether it writes a word of one of the lines. -/
def setsLines (w : PWrite) : List (Nat × Nat) := match w with | .acc core _ [] lines => lines.map fun l => (core, l) | _ => []
def writesLine (w : PWrite) (l : Nat × Nat) : Bool := match w with | .acc core _ words _ => core == l.1 && words.any fun q => q.1 / 64 == l.2 | _ => false

/-- A list macro writes a word in the order of its entries (R256): the write is the first of its word that is left. -/
def inTurn (c : Command) (w : PWrite) : Bool :=
  c.unit != 13 || c.op != 3 || match w with
  | .acc core _ ((k, _) :: _) _ =>
    c.writes.find? (fun v => match v with | .acc n _ ((j, _) :: _) _ => n == core && j == k | _ => false) == some w
  | _ => true

/-- The write can be performed now: its planes serve accesses, its core is on, a full bit comes after every word of its line and a word
after those before it (R77, R93, R256, R363, R391). -/
def performable (p : Pkg) (c : Command) (w : PWrite) : Bool :=
  ((placesOf p c.cmd.node w).all fun k => (Eng.failedAt p k).isNone && !Eng.pendingAt p k) &&
  ((setsLines w).all fun l => !c.writes.any fun v => writesLine v l) && inTurn c w &&
  match w with
  | .spad core _ _ => p.powerOf core == 0
  | .code core _ _ => p.powerOf core == 0
  | .accBytes core _ => p.powerOf core == 0
  | .acc core _ _ _ => p.powerOf core == 0
  | _ => true

/-! ### Atomic elements (R119, R206) -/

/-- The element width of an atomic type, in bytes (R205). -/
def atomicBytes (type : Nat) : Nat := if type = 2 ∨ type = 3 then 8 else 4

/-- An operation is defined for a type (R206). -/
def atomicOk (op type : Nat) : Bool :=
  decide (type ≤ 4) && (decide (op ≤ 3) || op == 7 || op == 8 || (decide (4 ≤ op ∧ op ≤ 6) && type != 4) ||
    (decide (9 ≤ op ∧ op ≤ 10) && (type == 0 || type == 2)))

/-- The commutative annotation (R206). -/
def commutes (op : Nat) : Bool := decide (3 ≤ op ∧ op ≤ 8)

/-- New value and fail (R206), for operands within the element's width. -/
def atomicNew (op type old v c : Nat) : Nat × Bool :=
  let w := 8 * atomicBytes type
  let f (g : Lane → Lane → Lane) : Nat := (g (BitVec.ofNat 32 old) (BitVec.ofNat 32 v)).toNat
  let signed := type = 1 ∨ type = 3
  let less (a b : Nat) : Bool := if signed then decide (sextNat w a < sextNat w b) else decide (a < b)
  match op with
  | 1 => (v, false)
  | 2 => (if old = c then v else old, false)
  | 3 => (if type = 4 then f (fun a b => laneOf (addF32 a b)) else (old + v) % 2 ^ w, false)
  | 4 => (old &&& v, false)
  | 5 => (old ||| v, false)
  | 6 => (old ^^^ v, false)
  | 7 => (if type = 4 then f minF32 else if less v old then v else old, false)
  | 8 => (if type = 4 then f maxF32 else if less old v then v else old, false)
  | 9 => (if c ≤ old then 0 else old + 1, false)
  | 10 => if old + v < 2 ^ w ∧ old + v ≤ c then (old + v, false) else (old, true)
  | _ => (old, false)

/-- Contributions combined in a tree of free choice (R119) (log 39). -/
def combineTree (fresh op type : Nat) : Nat → List Nat → Nat
  | 0, vs => vs.getD 0 0
  | n + 1, vs =>
    match vs with
    | [] => 0
    | [v] => v
    | _ =>
      let i := Config.freeNat (fresh + 2 * n) % vs.length
      let rest := vs.eraseIdx i
      let j := Config.freeNat (fresh + 2 * n + 1) % rest.length
      combineTree fresh op type n ((atomicNew op type (vs.getD i 0) (rest.getD j 0) 0).1 :: rest.eraseIdx j)

/-- The pending contributions of other commands to an element, of the same operation; those to an output region's page are of one
node (log 39). -/
def otherContributions (p : Pkg) (id : Nat) (staged : Bool) (key type op : Nat) : List (Nat × Word) :=
  let own := (p.cmd id).cmd.node
  p.allCmds.flatMap fun c => if c.cmd.id = id then [] else
    c.writes.filterMap fun w => match w with
      | .amo _ l _ k t o v =>
        if k = key ∧ t = type ∧ o = op ∧ l.isSome = staged ∧ (staged = false ∨ c.cmd.node = own) then some (c.cmd.id, v) else none
      | _ => none

/-- One contribution of a command is no longer pending. -/
def dropContribution (key : Nat) (q : Nat × Word) (p : Pkg) : Pkg :=
  p.modCmd q.1 fun c => { c with writes := c.writes.eraseP fun w => match w with
    | .amo _ _ _ k _ _ v => k == key && v == q.2
    | _ => false }

/-- A word of an accumulator after a macro's write (R227): overwritten, added in f32, added in i32. -/
def accCombine (add : Nat) (old new : Lane) : Lane := accStore add old new

/-- A write to a page of a node's output region acts on its stage page, made first where the node has written none of the page before
(R114, R349); with no free page of the pool the node fails (R349). -/
def withStage (clock node : Nat) (l : Leaf) (va : Nat) (act : Nat → Pkg → Pkg) (p : Pkg) : Pkg :=
  match Eng.stageOf p node va, Eng.freeStage p with
  | some sp, _ => act sp p
  | none, some sp => act sp (Eng.makeStage node va sp l p)
  | none, none => failNode clock node 4 p

/-- Bits 0 to 15 for the words of a codeword that are among these. -/
def codewordBits (b : Nat) (full : List Nat) : Nat := digits 1 ((List.range 16).map fun i => b2n (full.contains (16 * b + i)))

/-- A command has rewritten words of a codeword that it rewrites whole: with the last of the sixteen its poison is cleared (R83) (log 32). -/
def mendWords (id core : Nat) (full : List Nat) (p : Pkg) : Pkg :=
  ((full.map (· / 16)).eraseDups).foldl (fun p b =>
    let old := (((p.cmd id).mended.find? fun q => q.1 == core && q.2.1 == b).map (·.2.2)).getD 0
    let new := old ||| codewordBits b full
    let rest := (p.cmd id).mended.filter fun q => !(q.1 == core && q.2.1 == b)
    let p := p.modCmd id fun c => { c with mended := if new = 0xFFFF then rest else (core, b, new) :: rest }
    if new = 0xFFFF then mendCodeword core b p else p) p

/-- The first part of a sector that is written in part: the others follow (R194). -/
def beginSector (id : Nat) (w : PWrite) (p : Pkg) : Pkg :=
  match sectorOf w with
  | none => p
  | some s => p.modCmd id fun c =>
      if c.writes.any fun v => sectorOf v == some s then { c with begun := (s :: c.begun).eraseDups } else c

/-- One write is performed. A write-port add that finds a word uncorrectable leaves it and its line's bit, and the command ends with
0x07 and a record (R229, R351). -/
def performW (env : Env) (id : Nat) (w : PWrite) (p : Pkg) : Pkg :=
  let m := p.cmd id
  let c := m.cmd
  let before := c.closure ++ m.after ++ [id]
  match w with
  | .dev _ priv cells => beginSector id w (writeCells cells (if priv then cacheWrite [c] cells p else p))
  | .staged l cells => beginSector id w (withStage env.clock c.node l (cells.headD (0, 0)).1
      (fun sp => writeCells (cells.map fun c => (Eng.stagePlace p sp c.1, c.2))) p)
  | .side va l cells => match l with
    | none => { p with side := p.side.setCells cells }
    | some l => withStage env.clock c.node l (va.getD 0) (fun sp p =>
        let k := Eng.stagePlace p sp (va.getD 0)
        { p with side := p.side.setCells (cells.map fun c => (sideAt (dpaTile k) (dpaPlane k) + c.1, c.2)) }) p
  | .code core cells full => mendWords id core full (engineWriteBy m.carry before c.node core cells full p)
  | .cbt e v => { p with cbt := p.cbt.set e v }
  | .spad core cells full => engineWriteBy m.carry before c.node core cells full p
  | .accBytes core cells => p.modK core fun k =>
      { k with
        acc := cells.foldl (fun m c => m.modify (c.1 / 4) fun w =>
          BitVec.ofNat 32 (setBits w.toNat (8 * (c.1 % 4) + 7) (8 * (c.1 % 4)) c.2.toNat)) k.acc
        badAcc := (((cells.map fun c => c.1 / 4).eraseDups).filter fun w =>
          (List.range 4).all fun i => cells.any fun c => c.1 == 4 * w + i).foldl (fun m w => m.set w false) k.badAcc }
  | .acc core add words lines =>
    let k := p.k core
    let bad := words.filter fun q => add != 0 && k.badAcc.get q.1
    let k' := { k with
      acc := words.foldl (fun m q => if add != 0 && k.badAcc.get q.1 then m else m.modify q.1 fun o => accCombine add o q.2) k.acc
      badAcc := if add = 0 then words.foldl (fun m q => m.set q.1 false) k.badAcc else k.badAcc
      lines := (lines.filter fun l => !m.spoiled.contains (core, l)).foldl (fun m l => m.set l true) k.lines }
    let p := p.setK core k'
    if bad.isEmpty then p
    else
      let p := p.modCmd id fun c => { c with status := if c.status = 0 then 7 else c.status
                                             spoiled := (c.spoiled ++ bad.map fun (q : Nat × Lane) => (core, q.1 / 64)).eraseDups }
      if m.status = 0 then postRecord (engineRecord env.dtime 9 0 7 c 0 none) p else p
  | .remote pkg core cells =>
    emit (.message pkg { source := p.number, target := pkg, kind := 0, sequence := core,
                         data := cells.flatMap (fun q => bytesOf 4 q.1 ++ [q.2]) ++ bytesOf 8 id })
      (p.modCmd id fun c => { c with away := c.away ++ [pkg] })
  | .amo _ _ _ _ _ _ _ => p

/-- A contribution is applied to its element, with others that hardware has combined with it, by choice; the write is one of every
command that contributes (R101, R119) (log 39). -/
def performAmo (env : Env) (id va : Nat) (l : Option Leaf) (priv : Bool) (key type op : Nat) (v : Word) (p : Pkg) : Pkg :=
  let n := atomicBytes type
  let others := otherContributions p id l.isSome key type op
  let taken := ((List.range others.length).zip others).filter fun q => Config.freeBool (p.fresh + q.1)
  let cut (x : Word) : Nat := x.toNat % 2 ^ (8 * n)
  let vs := cut v :: taken.map fun q => cut q.2.2
  let sum := combineTree (p.fresh + others.length) op type vs.length vs
  let by_ := ((p.cmd id).cmd :: taken.map fun q => (p.cmd q.2.1).cmd)
  let draws := others.length + 2 * vs.length + 2
  let apply (at_ : Nat) (p : Pkg) : Pkg :=
    let p := taken.foldl (fun p q => dropContribution key q.2 p) p
    let cells := cellsAt at_ (bytesOf n (atomicNew op type (natOf (p.mem.getMany at_ n)) sum 0).1)
    (writeCells cells (if priv then cacheWrite by_ cells p else p)).drawn draws
  let node := (p.cmd id).cmd.node
  match l with
  | none => apply key p
  | some l => withStage env.clock node l va (fun sp => apply (Eng.stagePlace p sp va)) p

/-- One write of either kind is performed, while its command is outstanding (log 45). -/
def performOne (env : Env) (id : Nat) (w : PWrite) (p : Pkg) : Pkg :=
  if !p.present id then p
  else match w with
  | .amo va l priv key type op v => performAmo env id va l priv key type op v p
  | w => performW env id w p

/-- Writes of a command are performed, in the order given, and are no longer pending. -/
def performAmong (env : Env) (id : Nat) (due : List PWrite) (p : Pkg) : Pkg :=
  due.foldl (fun p w => performOne env id w (p.modCmd id fun c => { c with writes := c.writes.erase w })) p

/-- Some of a command's writes are performed, by choice; the late ones only after all others (logs 25, 93). -/
def performSome (env : Env) (id : Nat) (p : Pkg) : Pkg :=
  let c := p.cmd id
  let ws := (List.range c.writes.length).zip c.writes
  let due := ws.filter fun q => Config.freeBool (p.fresh + q.1) && performable p c q.2
  performAmong env id (due.map (·.2)) (p.drawn (c.writes.length + 1))

/-- The writes that can be performed are, and those that could only come after them, so many times over. -/
def performPasses (env : Env) (id : Nat) : Nat → Pkg → Pkg
  | 0, p => p
  | n + 1, p =>
    match (p.cmd id).writes.filter (performable p (p.cmd id)) with
    | [] => p
    | w :: ws => performPasses env id n (performAmong env id (w :: ws) p)

/-- A write after all others: one to device memory finds them performed for every die, and every die finds it (R101, R104) (log 55). -/
def performLate (env : Env) (id : Nat) (w : PWrite) (p : Pkg) : Pkg :=
  match w with
  | .dev _ _ cells => dropLines (cells.map fun c => c.1 / 256) (performOne env id w (clearReplicas [id] p))
  | w => performOne env id w p

/-- Every write that can be performed is, and when none is left the late ones; answers whether none is left (log 93). -/
def performRest (env : Env) (id : Nat) (p : Pkg) : Pkg × Bool :=
  let p := performPasses env id ((p.cmd id).writes.length + 1) p
  let c := p.cmd id
  if !p.present id then (p, false)
  else if c.writes.isEmpty && c.late.all (performable p c) && c.away.isEmpty then
    ((c.late.foldl (fun p w => performLate env id w p) p).modCmd id fun c => { c with late := [] }, true)
  else (p, false)

/-! ## Writes at failed planes (R363) -/

/-- The virtual address by which a write names a place, else one by which its command's pages do (R354) (log 91). -/
def addressOf (c : Command) (w : PWrite) (k : Nat) (p : Pkg) : Nat :=
  let granules := c.pages.flatMap fun q => (List.range 16).map fun g => (q.1, 65536 * q.2 + 4096 * g)
  match w with
  | .dev (some va) _ cells => va + (k - (cells.headD (0, 0)).1)
  | .amo va _ _ _ _ _ _ => va
  | .staged _ cells => (cells.headD (0, 0)).1
  | .side (some va) _ _ => va
  | _ => ((granules.find? fun q => match walk p q.1 q.2 with
    | .leaf l => leafPlace p l q.2 == k / 4096 * 4096
    | _ => false).map fun q => q.2 + k % 4096).getD 0

/-- The writes that are next to be performed: the stamp after the late ones, and these after all others. -/
def nextWrites (c : Command) : List PWrite :=
  if !c.writes.isEmpty then c.writes else if !c.late.isEmpty then c.late else c.stamp.toList

/-- Writes still to be made to a failed plane are held with it, and walk again when they are released (R363) (log 91). -/
def holdWrites (env : Env) (id : Nat) (p : Pkg) : Pkg :=
  let c := p.cmd id
  let hit := (nextWrites c).findSome? fun w => (placesOf p c.cmd.node w).findSome? fun k =>
    (Eng.failedAt p k).map fun f => (f, k, w)
  match hit with
  | some (f, k, w) =>
    let p := p.modCmd id fun c => { c with again := true }
    if f.group != 0 && p.held.any fun h => h.cmd == some id && h.group == f.group then p
    else
      let va := addressOf c w k p
      let q := Eng.joinPlane (engineRecord env.dtime 7 5 f.category c.cmd va (some k)) f p
      let h : Held := { group := q.2, cmd := some id, core := coreOf c.cmd.ctx, kind := 7, asid := c.cmd.asid, dpa := k,
                        page := va / 65536 * 65536 }
      ({ q.1 with held := q.1.held ++ [h] }).modC c.cmd.ctx fun x => { x with queueFrozen := true }
  | none => p

/-- A write by the leaves as they stand now. -/
def rewalkWrite (w : PWrite) : Eng PWrite := do
  match w with
  | .dev (some va) _ cells =>
    let q ← Eng.place va true
    return .dev (some va) q.2 (cells.map fun c => (q.1 + (c.1 - (cells.headD (0, 0)).1), c.2))
  | .staged _ cells => return .staged (← Eng.stagedLeaf (cells.headD (0, 0)).1).1 cells
  | .side (some va) _ cells => Eng.sideWrite va ((cells.headD (0, 0)).1 % 256) (cells.map (·.2))
  | .amo va none _ _ type op v =>
    let q ← Eng.place va true
    return .amo va none q.2 q.1 type op v
  | .amo va (some _) priv key type op v => return .amo va (some (← Eng.stagedLeaf va).1) priv key type op v
  | w => return w

/-- A command whose writes a failed plane has held walks for all that are left again (R363, R364). -/
def rewalkWork : Eng Unit := do
  let m ← Eng.self
  let ws ← m.writes.mapM rewalkWrite
  let late ← m.late.mapM rewalkWrite
  let stamp ← m.stamp.toList.mapM rewalkWrite
  Eng.modSelf fun m => { m with writes := ws, late := late, stamp := stamp.head?, again := false }

/-- The writes that are left to a command that walks again are not made; its stamp is, unless it was the stamp that could not be (R188,
R194) (log 93). -/
def dropAgain (id status : Nat) (p : Pkg) : Pkg :=
  p.modCmd id fun m =>
    let left := !(m.writes.isEmpty && m.late.isEmpty)
    { m with status := if m.status = 0 then status else m.status, writes := [], late := []
             stamp := if left then m.stamp else none, again := left && m.stamp.isSome }

/-- Its writes walk again; a status of the walk is the command's, and the writes that are left are not made (R188) (log 93). -/
def rewalk (env : Env) (id : Nat) (p : Pkg) : Pkg :=
  match rewalkWork ⟨env, (p.cmd id).cmd⟩ { p := p } with
  | .ok _ w => w.p
  | .error (.status n) w => dropAgain id n w.p
  | .error (.held h) w => { w.p with held := w.p.held ++ [h] }
  | .error (.nodeFail r) w => failNode env.clock (p.cmd id).cmd.node r w.p
  | .error _ w => w.p

/-! ## Stamps (R112, R194, R195) -/

/-- The eight bytes of a stamp. -/
def stampBytes (status seq time : Nat) : List Byte := bytesOf 8 (status % 256 * 2 ^ 56 + seq % 2 ^ 24 * 2 ^ 32 + time % 2 ^ 32)

/-- A write with other bytes at its places. -/
def PWrite.fill (bs : List Byte) (w : PWrite) : PWrite :=
  let put (cells : List Host.Cell) : List Host.Cell := (cells.zip bs).map fun q => (q.1.1, q.2)
  match w with
  | .dev va priv cells => .dev va priv (put cells)
  | .staged l cells => .staged l (put cells)
  | .spad core cells full => .spad core (put cells) full
  | .accBytes core cells => .accBytes core (put cells)
  | .remote pkg core cells => .remote pkg core (put cells)
  | w => w

/-- The stamp is written as one write, after the payload, which for a stamp in device memory is performed for every die. -/
def writeStamp (env : Env) (id : Nat) (p : Pkg) : Pkg :=
  let c := p.cmd id
  match c.stamp with
  | none => p
  | some w =>
    let w := w.fill (stampBytes c.status c.cmd.seq env.dtime)
    let p := p.modCmd id fun c => { c with stamp := none }
    performOne env id w (match w with | .dev _ _ _ => clearReplicas [id] p | .staged _ _ => clearReplicas [id] p | _ => p)

/-! ## Running a command's accesses -/

/-- What a step of a command's work leaves of the command: the writes it has added, its stamp, the pages it has translated, its
accesses made and still to be made. -/
def Work.save (w : Work) (m : Command) : Command :=
  { m with writes := m.writes ++ w.writes.flatMap splitWrite, stamp := w.stamp,
           pages := (m.pages ++ w.leaves.map fun l => (l.1, l.2.1)).eraseDups,
           log := w.got.reverse ++ w.replay, parts := w.kept ++ w.parts }

/-- What of a write's kind stands or falls together when its command ends with a status: the parts of one sector, the writes of one word
of an accumulator up to the first that does not (R98, R194, R232). -/
def standsWith (w v : PWrite) : Bool :=
  (sectorOf w).isSome && sectorOf w == sectorOf v
def sameWord (w v : PWrite) : Bool :=
  match w, v with
  | .acc m _ [(a, _)] _, .acc n _ [(b, _)] _ => m == n && a == b
  | _, _ => false

/-- Of the writes left to a command that has ended with a status a free choice stands, but all of a sector of which a part is performed
already, no write of a word after one that does not stand, and no full bit of a line whose words do not all stand (R188, R194, R229,
R232) (log 93). -/
def keptWrites (fresh : Nat) (begun : List (Bool × Nat)) (ws : List PWrite) : List PWrite :=
  let one (i : Nat) (w : PWrite) : Bool :=
    ((sectorOf w).any begun.contains) || Config.freeBool (fresh + (ws.findIdx? (standsWith w)).getD i)
  let qs := ws.zipIdx
  let stands (q : PWrite × Nat) : Bool := one q.2 q.1 && (qs.take q.2).all fun r => !sameWord q.1 r.1 || one r.2 r.1
  let lost := qs.filter fun (q : PWrite × Nat) => !stands q
  (qs.filter fun (q : PWrite × Nat) => stands q && (setsLines q.1).all fun l => !lost.any fun r => writesLine r.1 l).map (·.1)

/-- A command has ended with a status: which of its writes stand is a free choice (R188) (log 93). -/
def endFaulted (id status : Nat) (p : Pkg) : Pkg :=
  let m := p.cmd id
  let kept := keptWrites p.fresh m.begun m.writes
  (p.modCmd id fun m => { m with phase := .started, status := status, writes := kept, late := [] }).drawn (m.writes.length + 1)

/-- A command makes its accesses: all that are left, or some of them before it pauses; what it writes is performed from then until its
token completes. An access held or a condition to wait for stops it, and it goes on from there (R97, R188, R330) (logs 25, 93). -/
def runCmd (c : Cmd) (body : Eng Unit) (s : State) : Out :=
  if !s.pkg.present c.id then .next s
  else
    let stop (w : Work) : Pkg := w.p.modCmd c.id fun m => { w.save m with phase := .waiting }
    match body ⟨s.env, c⟩ (Work.of s.pkg c.id) with
    | .ok _ w =>
      s.put (w.p.modCmd c.id fun m => if m.phase = .arrived then m else
        { w.save m with phase := .started, status := if w.status = 0 then m.status else w.status, late := w.late, log := [], parts := [] })
    | .error (.status n) w => s.put (endFaulted c.id n (w.p.modCmd c.id fun m => { w.save m with log := [], parts := [] }))
    | .error (.held h) w => s.put { stop w with held := (w.p.held ++ [h]).eraseDups }
    | .error (.nodeFail r) w => s.put (failNode s.env.clock c.node r w.p)
    | .error _ w => s.put (stop w)

/-! ## Issue (R185 to R188, R195) -/

/-- The fields of aux that are valid, as token numbers (R187). -/
def auxTokens (aux : Nat) : List Nat :=
  ([0, 7, 14].map fun o => bits aux (o + 6) o).filterMap fun f => if f / 64 = 1 then some (f % 64) else none

/-- The commands reached from `ids` through consumed commands. -/
def closureFrom (edges : NMap (List Nat)) : Nat → List Nat → List Nat
  | 0, ids => ids
  | n + 1, ids =>
    let next := (ids ++ ids.flatMap edges.get).eraseDups
    if next.length = ids.length then ids else closureFrom edges n next

/-- The commands that a context's part has triggered, those that are outstanding and those of whose writes a replica is older (R108). -/
def earlierCommands (p : Pkg) (x : Nat) : List Nat :=
  let own := ((p.c x).node.getD 0, (p.c x).part)
  ((p.ownCmds x).map (·.cmd.id) ++
    p.replicas.flatMap fun r => (r.by_.filter fun b => b.2 == own).map (·.1)).eraseDups

/-- A local record that a command reads at its issue like a load (R153): address and length by operation (log 31). -/
def issueRecord (unit op : Nat) (a d cnt : Nat) : Option (Nat × Nat) :=
  match unit, op with
  | 12, 4 => some (a, 32)
  | 13, 1 => some (a, 32)
  | 13, 2 => some (a, 32)
  | 13, 3 => some (a, 32)
  | 13, 12 => some (a, 4 * cnt)
  | 13, 14 => some (d, 4 * cnt)
  | _, _ => none

/-- The ranges of the records read at issue; of a selection list the header and its entries follow the macro record (R256). -/
def recordRanges (p : Pkg) (x unit op a d cnt : Nat) : List (Nat × Nat) :=
  match issueRecord unit op a d cnt with
  | none => []
  | some (addr, n) =>
    if !(Eng.linear addr n 4) || n > 16384 then []
    else if unit = 13 ∧ op = 3 ∧ Eng.linear d 32 32 then
      let m := field (loadBytes p x d 4) 0 4
      [(addr, n), (d, 32)] ++ if d + 32 + 16 * m ≤ spadSize then [(d + 32, 16 * m)] else []
    else [(addr, n)]

/-- The bytes of the records read at issue; for `kvapp`, the generator's state that it draws from (R249). -/
def issueBytes (p : Pkg) (x unit op a d cnt : Nat) : List Byte :=
  if unit = 13 ∧ op = 6 then bytesOf 8 (p.c x).srs.toNat
  else (recordRanges p x unit op a d cnt).flatMap fun r => loadBytes p x r.1 r.2

/-- A codeword of the records read at issue is poisoned (R83). -/
def issuePoison (p : Pkg) (x unit op a d cnt : Nat) : Bool :=
  (recordRanges p x unit op a d cnt).any fun r => r.2 != 0 &&
    (List.range ((r.1 + r.2 - 1) / 64 - r.1 / 64 + 1)).any fun i => (p.k (coreOf x)).poison.get (r.1 / 64 + i)

/-- The command writes a stamp, and so advances the sequence counter (R195). -/
def stamps (unit op b : Nat) (tmpl : List Byte) : Bool :=
  unit == 12 && ((op == 1 && b.testBit 4) || (op == 0 && field tmpl 4 1 == 1) || op == 18)

/-- The performed writes of stores that an access of a context must see in a stream. -/
def seenNow (p : Pkg) (x : Nat) (swzd : Bool) (joins : Nat) : List Nat :=
  (p.k (coreOf x)).stale.filterMap fun e => if !e.any && e.seen x swzd joins then some e.number else none

/-- What a context carries of performed writes of every core (R100, R102) (log 22). -/
def carryNow (p : Pkg) (x joins : Nat) : List Carry :=
  p.core.flatMap fun q => q.2.stale.filterMap fun e =>
    let k : Carry := ⟨e.number, e.knownTo x false joins, e.knownTo x true joins, e.farTo x joins⟩
    if k.lin || k.swz || k.far then some k else none

/-! ## Possible writes (R104) -/

/-- Bytes of device memory as the tables stand, without any effect; none where a page has no leaf. -/
def peek (p : Pkg) (asid va n : Nat) : Option (List Byte) :=
  (Eng.pieces va n).foldl (fun acc q =>
    match acc, walk p asid q.1 with
    | some bs, .leaf l => some (bs ++ p.mem.getMany (leafPlace p l q.1) q.2)
    | _, _ => none) (some [])

/-- What a descriptor's lineage suppliers may take back: their pool tops and pool entries (R240, R257). -/
def poolSpans (p : Pkg) (asid a : Nat) : Option (List (Nat × Nat)) := do
  let b ← peek p asid a 256
  let more ← (List.range (min (field b 12 1) 4)).mapM fun j => do
    let q := field b (16 + 16 * j) 8
    let e ← peek p asid q 256
    return [(q + 108, 4), (field e 112 8, 4 * field e 104 4)]
  return [(a + 108, 4), (field b 112 8, 4 * field b 104 4)] ++ more.flatten

/-- What an append to a sequence may write: length, lineage, pools, pages, buckets, head entries, overflow lines (R248 to R251). -/
def appendSpans (p : Pkg) (asid a : Nat) : Option (List (Nat × Nat)) := do
  let b ← peek p asid a 256
  let nh := min (field b 81 1) 64
  let heads ← (List.range nh).mapM fun h => do
    let at_ := field b 128 8 + 32 * h
    let e ← peek p asid at_ 32
    return [(at_ + 12, 4), (at_ + 21, 1), (field e 0 8, 64 * field e 8 4)]
  return [(a, 8), (a + 12, 1), (a + 16, 64), (field b 96 8, 65536 * field b 104 4),
    (field b 120 8, 64 * nh * min (field b 82 1) 4 * 2 ^ min (field b 83 1) 14)] ++ heads.flatten ++ (← poolSpans p asid a)

/-- The bursts of a drive's write steps in every column (R267, R268). -/
def driveSpans (p : Pkg) (c : Cmd) : List (Nat × Nat) :=
  match regionAt p c.asid c.a.toNat with
  | none => []
  | some r =>
    let nt := (memberRows r.rows).findIdx (· == coreOf c.ctx % 36)
    (List.range (c.local0.length / 4)).flatMap fun i =>
      let e := field c.local0 (4 * i) 4
      if e / 2 ^ 30 = 2 then
        (List.range 64).map fun col => (r.base + 4096 * (col + 64 * (nt + r.nt * bits e 14 0)) + 256 * bits e 29 26, 256)
      else []

/-- The possible writes that records in memory fix for a command at its issue; none where a record cannot be read, so that it may write
anywhere (R104) (log 54). -/
def recordSpans (p : Pkg) (unit op : Nat) (c : Cmd) : Option (List (Nat × Nat)) :=
  let a := c.a.toNat
  let region : List (Nat × Nat) := match regionAt p c.asid c.d.toNat with | some r => [(r.base, r.size)] | none => []
  match unit, op with
  | 12, 0 => some (if field c.tmpl 3 1 = 2 then region else [])
  | 12, 2 => some region
  | 13, 6 => appendSpans p c.asid a
  | 13, 8 => do return [(a, 9), (a + 12, 1), (a + 16, 64)] ++ (← poolSpans p c.asid a)
  | 13, 9 => some [(a, 8), (a + 12, 1), (a + 16, 64)]
  | 13, 14 => some (driveSpans p c)
  | _, _ => some []

/-- An engine command issues: it takes its token, advances the cursor and, where it stamps, the sequence counter, and its
operands are captured (R185, R186, R187). `tmpl` are the templates before the bundle (R197) (log 20). -/
def issueCommand (env : Env) (unit op : Nat) (mk : Cmd → Instr) (f : Fire) (tmpl : NMap (List Byte)) (p : Pkg) : Pkg :=
  let x := f.ctx
  let p := if unit = 13 ∧ op = 6 ∧ f.hdr.rnd = 6 then p.modC x fun c => c.setCr 0x0D3 (srsAdvance c.srs) else p
  let c := p.c x
  let k := c.cursor
  let old := c.tokens.get k
  let id := p.nextCmd
  let a := f.a.toS.toNat
  let d := f.d.toS.toNat
  let cnt := f.c.toS.toNat
  let b := f.b.toS.toNat
  let fields := auxTokens f.aux.toS.toNat
  let named := (fields.map fun t => (c.tokens.get t).cmd).filter (· != 0)
  let fenced := (earlierCommands p x).filter fun n => decide (n < c.fenceMark)
  let rootSet := if fields.isEmpty then earlierCommands p x else named ++ fenced
  let t := if unit = 12 ∧ op = 0 then tmpl.get (b % 64) else []
  let seq := if stamps unit op b t then (c.seq + 1) % 2 ^ 24 else c.seq
  let cmd : Cmd := {
    id := id, ctx := x, tok := k, hdr := f.hdr, a := f.a.toS, d := f.d.toS, c := f.c.toS, b := f.b.toS,
    node := c.node.getD 0, part := c.part, asid := c.asid, groups := c.groups, uses := named ++ fenced.filter p.present,
    named := named.length, closure := closureFrom p.edges p.nextCmd rootSet, tmpl := t, local0 := issueBytes p x unit op a d cnt,
    seq := seq, time := env.dtime }
  let cm : Command := {
    instr := mk cmd, cmd := cmd, unit := unit, op := op, accepted := !c.queueFrozen, joins := c.joins,
    seenLin := seenNow p x false c.joins, seenSwz := seenNow p x true c.joins, carry := carryNow p x c.joins, after := c.after,
    mark := p.nextWrite, trig := bundleAddr c,
    wide := c.fenceWide, badRecord := issuePoison p x unit op a d cnt, spans := recordSpans p unit op cmd,
    ended := (named.filter fun n => !p.present n).map fun n => (n, ((c.tokens.filter fun q => q.2.cmd == n).map (·.2.status)).getD 0 0) }
  let p := { p with cmds := p.cmds.set id cm, nextCmd := id + 1, edges := p.edges.set id (named ++ fenced),
                    fresh := p.fresh + (if (issueRecord unit op a d cnt).isSome then accessDraws p x else 0) }
  let p := p.modC x fun c =>
    { c with
      cursor := (k + 1) % 64, seq := seq
      unseen := if old.state = .complete && old.status != 0 && !old.acked then c.unseen ++ [k + 256 * old.status] else c.unseen
      tokens := c.tokens.set k { state := .outstanding, unit := unit, op := op, cmd := id } }
  deliver x unit op 1 (some (.s (BitVec.ofNat 64 k))) none 0 p

/-! ## Start and completion (R187, R188) -/

/-- An early weight load's consumed `ecx.mxs` counts as satisfied once it has swapped (R220). -/
def earlySatisfied (p : Pkg) (c : Command) (id : Nat) : Bool :=
  c.unit == 13 && c.op == 0 && c.cmd.b.getLsbD 8 && (p.cmd id).unit == 13 && (p.cmd id).op == 2 && (p.cmd id).swapped

/-- Every command it consumes has completed (R187). -/
def usesDone (p : Pkg) (c : Command) : Bool := c.cmd.uses.all fun id => !p.present id || earlySatisfied p c id

/-- Some of the writes of a command that makes no access now are performed; those that a failed plane keeps are held there, and no
other of them is performed before they walk again (R363) (log 91). -/
def furtherWrites (env : Env) (id : Nat) (p : Pkg) : Pkg :=
  if (p.cmd id).again then p else holdWrites env id (performSome env id p)

/-- A command makes its accesses in this step, all that are left or some by choice (log 25). -/
def takeStep (id : Nat) (p : Pkg) : Pkg :=
  ((p.modCmd id fun c => { c with whole := Config.freeBool p.fresh }).drawn 1).push [.run (p.cmd id).instr]

/-- ENGINE_COMMAND_START: the command begins its accesses once the tokens it consumes have completed and its queue lets it
start, makes more of them, or performs more of its writes. -/
def execEngineCommandStart (id : Nat) (s : State) : Out :=
  let p := s.pkg
  let c := p.cmd id
  if !p.present id then .next s
  else match c.phase with
  | .queued =>
    if c.accepted && !(p.c c.cmd.ctx).queueFrozen && usesDone p c then
      s.put (takeStep id (dropReplicas (fun b => b.2 == ownerOf c.cmd && decide (b.1 < c.wide)) p))
    else .next s
  | .waiting =>
    if c.again then s.put (if isHeld p id then p else rewalk s.env id p)
    else if isHeld p id && !(c.log ++ c.parts.flatten).any Answer.isHeld then s.put (furtherWrites s.env id p)
    else s.put (takeStep id (performSome s.env id p))
  | .started => s.put (if c.again && !isHeld p id then rewalk s.env id p else furtherWrites s.env id p)
  | .arrived => .next s
  | .parked => .next s

/-- A notice is acknowledged: its kick's token completes next, here or in the sender's package (R203, R204). -/
def acknowledge (nid : Nat) (p : Pkg) : Pkg :=
  match p.notices.find? fun n => n.id == nid with
  | some n =>
    let p := { p with notices := p.notices.filter fun m => m.id != nid }
    if n.sender / 512 = p.number then endCommand n.cmd 0 p
    else emit (.message (n.sender / 512) { source := p.number, target := n.sender / 512, kind := 2, sequence := n.cmd,
                                            data := [] }) p
  | none => p

/-- TOKEN_COMPLETE: the rest of the command's writes are performed, then its stamp, and its token completes. Where a write
cannot be performed yet, the token does not complete (log 25). -/
def execTokenComplete (id : Nat) (s : State) : Out :=
  let p := s.pkg
  if !p.present id || (p.cmd id).phase != .started || (p.cmd id).again || isHeld p id then .next s
  else
    let q := performRest s.env id p
    if q.2 && (q.1.cmd id).stamp.all (performable q.1 (q.1.cmd id)) then
      let p := writeStamp s.env id q.1
      let c := p.cmd id
      if !c.away.isEmpty then s.put p
      else
        let p := if c.unit = 12 ∧ c.op = 4 ∧ c.detail != 0 then acknowledge (c.detail - 1) p else p
        s.put (completeToken id (p.cmd id).status p)
    else s.put (holdWrites s.env id q.1)

end Sys2Proof.Machine
end

