-- ==== Sys2Proof/Machine/Atomics.lean ====
section
/-! DEFINITION. Atomics (R119, R205 to R207). -/

namespace Sys2Proof.Machine

open Eng

/-- The type field of an op word (R205). -/
def opType (b : Word) : Nat := bits b.toNat 34 32
/-- The op field of an op word. -/
def opCode (b : Word) : Nat := bits b.toNat 29 24
/-- The return address of an op word. -/
def returnAddr (b : Word) : Nat := bits b.toNat 23 0

/-- The return record (R205). -/
def returnRecord (old flags : Nat) : List Byte := bytesOf 8 old ++ bytesOf 4 flags ++ bytesOf 4 0

/-- The return record as one write that sets its four words full, after the update (R205). -/
def writeReturn (c : Cmd) (old flags : Nat) : Eng Unit :=
  writeLate (localCells (coreOf c.ctx) (returnAddr c.b) (returnRecord old flags))

/-- The elements that an atomic command updates, by virtual address (R205, R207). -/
def atomicElems (c : Command) : List Nat :=
  let a := c.cmd.a.toNat
  if c.unit = 12 ∧ c.op = 5 then [a]
  else if c.unit = 12 ∧ c.op = 6 then
    let s := max 1 (bits c.cmd.b.toNat 63 40)
    (List.range (min c.cmd.c.toNat (2 ^ 20))).map fun i => a + i * s * atomicBytes (opType c.cmd.b)
  else []

/-- Some update of the command is still to be performed. -/
def atomicPending (c : Command) : Bool :=
  c.phase != .started || c.writes.any fun w => match w with | .amo _ _ _ _ _ _ _ => true | _ => false

/-- Earlier atomics of the context to an element that must be performed first: either is not commutative (R119) (log 39). -/
def atomicBehind (p : Pkg) (c : Cmd) (op : Nat) (elems : List Nat) : Bool :=
  p.allCmds.any fun e => ownerOf e.cmd == ownerOf c && decide (e.cmd.id < c.id) && atomicPending e && (!commutes op || !commutes (opCode e.cmd.b)) &&
    (atomicElems e).any elems.contains

/-- EC_AMO (R205, R206): the update is one step; a faulted atomic changes nothing. On a cached page the context has observed the sector as
its home holds it, so that no older replica serves it later (R99, R106, R116). -/
def ecAmoWork (c : Cmd) : Eng Unit := do
  let op := opCode c.b
  let type := opType c.b
  let n := atomicBytes type
  let a := c.a.toNat
  need (atomicOk op type) 0x0E
  need (linear (returnAddr c.b) 16 16) 2
  need (a % n == 0) 3
  if atomicBehind (← pkg) c op [a] then wait
  awake (coreOf c.ctx)
  let old ← access do
    let w ← place a (op != 0)
    let p ← pkg
    if p.badSector.get (w.1 / 32) then uncorrectable a (some w.1)
    if w.2 then modPkg (observeNew c.ctx (w.1 / 32))
    let bs := p.mem.getMany w.1 n
    let r := atomicNew op type (natOf bs) (c.d.toNat % 2 ^ (8 * n)) (c.c.toNat % 2 ^ (8 * n))
    let env := (← read).env
    if op != 0 then modPkg (performW env c.id (.dev none w.2 (cellsAt w.1 (bytesOf n r.1))))
    return bs
  let r := atomicNew op type (natOf old) (c.d.toNat % 2 ^ (8 * n)) (c.c.toNat % 2 ^ (8 * n))
  writeReturn c (natOf old) (b2n r.2)

/-- EC_AMO: the command makes its accesses. -/
def execEcAmo (c : Cmd) (s : State) : Out := runCmd c (ecAmoWork c) s

/-- EC_AMOR (R207): every update is a contribution, applied when it is performed. -/
def ecAmorWork (c : Cmd) : Eng Unit := do
  let op := opCode c.b
  let type := opType c.b
  let n := atomicBytes type
  let cnt := c.c.toNat
  let d := c.d.toNat
  need (commutes op && atomicOk op type && decide (cnt ≤ 2 ^ 20)) 0x0E
  if cnt = 0 then return ()
  need (decide (d + cnt * n ≤ spadSize)) 2
  need (c.a.toNat % n == 0) 3
  let es := (List.range cnt).map fun i => c.a.toNat + i * max 1 (bits c.b.toNat 63 40) * n
  if atomicBehind (← pkg) c op es then wait
  awake (coreOf c.ctx)
  let as ← anyOrder ((blocks 4 d (cnt * n)).map fun q => readWord q.1 q.2)
  spendLocal (coreOf c.ctx) c.ctx
  let found := bytesFound (blocks 4 d (cnt * n)) as
  discard (anyOrder (((List.range cnt).zip es).map fun q =>
    match bytesThere found (q.1 * n) n with
    | none => throw .pause
    | some bs => do
      let v : Word := BitVec.ofNat 64 (natOf bs)
      if inOutput (← pkg) c.node q.2 then
        let l ← stagedLeaf q.2
        if (← pkg).badSector.get (l.2 / 32) then uncorrectable q.2 (some l.2)
        emitWrite (.amo q.2 (some l.1) false q.2 type op v)
      else
        let w ← place q.2 true
        if (← pkg).badSector.get (w.1 / 32) then uncorrectable q.2 (some w.1)
        emitWrite (.amo q.2 none w.2 w.1 type op v)))
  settle

/-- EC_AMOR: the command makes its accesses. -/
def execEcAmor (c : Cmd) (s : State) : Out := runCmd c (ecAmorWork c) s

end Sys2Proof.Machine
end

