-- ==== Sys2Proof/Machine/Check.lean ====
section
/-! DEFINITION. The check unit ck (R159, R160): operands are read at issue and compared when the entry lands. -/

namespace Sys2Proof.Machine

/-- A check of two values that lands at n + 2. -/
def ckTrigger (op : Nat) (a b : Vec) (s : State) : Out :=
  let x := s.pkg.fire.ctx
  s.put (addEntry x { unit := 14, op := op, left := 2, order := 0, kind := .check, r := some (.v a), h := some b,
                      trig := bundleAddr (s.pkg.c x) } s.pkg)

/-- The lanes a mask selects; the others read 0 on both sides. -/
def maskLanes (m : Mask) (v : Vec) : Vec := Vec.tab fun i => if m.getLsbD i then v.lane i else 0

def execCkS (s : State) : Out :=
  ckTrigger 0 (s.pkg.fire.a.toS.setWidth 4096) (s.pkg.fire.b.toS.setWidth 4096) s
def execCkV (s : State) : Out := ckTrigger 1 s.pkg.fire.a.toV s.pkg.fire.b.toV s
def execCkVm (s : State) : Out :=
  ckTrigger 2 (maskLanes s.pkg.fire.c.toM s.pkg.fire.a.toV) (maskLanes s.pkg.fire.c.toM s.pkg.fire.b.toV) s
def execCkG (s : State) : Out := ckTrigger 3 s.pkg.fire.a.toV s.pkg.fire.b.toV s
def execCkSg (s : State) : Out :=
  ckTrigger 4 (s.pkg.fire.a.toS.setWidth 4096) (s.pkg.fire.b.toS.setWidth 4096) s

/-- A check entry finds a mismatch (R159). -/
def mismatches (e : Entry) : Bool :=
  e.kind = .check && (match e.r, e.h with | some v, some h => v.toV != h | _, _ => false)

/-- The guarding forms, whose mismatch suppresses the landing bundle's stores and branches (R160) (log 29). -/
def guarding (op : Nat) : Bool := op == 3 || op == 4

/-- The triggers that a guarding mismatch suppresses (R160). -/
def suppressed (unit op : Nat) : Bool :=
  unit == 3 || ((unit == 4 || unit == 5) && decide (op ∈ [8, 9, 10, 11, 12, 13, 14, 18, 19, 20, 22, 25, 27, 30]))

end Sys2Proof.Machine
end

