-- ==== Sys2Proof/Machine/Convert.lean ====
section
/-! DEFINITION. The conversion unit vc (R58 to R63, R169 to R176): formats from the bundle's header, one rounding each. -/

namespace Sys2Proof.Machine

/-- The formats of the floating conversions (R169). -/
def inF (x : Nat) : Bool := x ≤ 5
/-- The block formats of R169: the MX formats and b4. -/
def inQ (x : Nat) : Bool := (6 ≤ x && x ≤ 10) || x == 12
/-- f32, bf16, f16. -/
def inWide (x : Nat) : Bool := x ≤ 2

/-- What a converting trigger delivers. -/
structure VcResult where
  r     : Vec := 0
  h     : Option Vec := none
  flags : Nat := 0
  amax  : Option Lane := none
  ns    : Bool := false

/-- A format pair or window that is not accepted (R169): all-zero r, h unchanged, NV. -/
def vcInvalid : VcResult := { flags := fNV }

/-- Elements of width w packed from bit 0 (R49). -/
def packElems (w : Nat) (xs : List Nat) : Vec := BitVec.ofNat 4096 (digits w xs)

/-- The rounding mode of a header for element e, with the generator's state after its advance (R58, R62). -/
def modeFor (h : Header) (srs : Word) (e : Nat) : Mode :=
  { rnd := h.rnd.toNat, sat := h.sat, rb := if h.rnd = 6 then laneBits srs e else 0 }

/-- A converting trigger: it advances c.srs once where RND is 6, whether its pair is accepted or not (R62, R176), and its
result lands at n + 4. -/
def vcTrigger (op : Nat) (value : Fire → (Nat → Mode) → Ctx → VcResult) (s : State) : Out :=
  let f := s.pkg.fire
  let p := if f.hdr.rnd = 6 then s.pkg.modC f.ctx (fun c => c.setCr 0x0D3 (srsAdvance c.srs)) else s.pkg
  let c := p.c f.ctx
  let v := value f (modeFor f.hdr c.srs) c
  s.put (addEntry f.ctx { unit := 9, op := op, left := 4, order := 0, kind := .result, r := some (.v v.r), h := v.h,
                          flags := BitVec.ofNat 32 v.flags, amax := v.amax, ns := v.ns } p)

/-- Window and count of R170: the first source element and how many results; none when out of range. -/
def elementMap (wa wb window : Nat) : Option (Nat × Nat) :=
  let ka := 4096 / wa
  let kb := 4096 / wb
  if wb ≤ wa then some (0, ka)
  else if ka < (window + 1) * kb then none else some (window * kb, kb)

/-- The element map of R170 with a function of a source element and its result index. -/
def mapElems (f : Fire) (fa wb window : Nat) (fn : Nat → Nat → Rounded) : VcResult :=
  let wa := fmtWidth fa
  match elementMap wa wb window with
  | none => vcInvalid
  | some (base, n) =>
    let x := f.b.toV.toNat
    let rs := (List.range n).map fun e => fn e (element wa x (base + e))
    { r := packElems wb (rs.map (·.bits)), flags := orFlags rs }

/-- The control value of o3's lane 0. -/
def ctl (f : Fire) : Nat := (f.c.toV.lane 0).toNat

/-- A conversion from FA to FB by the element map, when the pair is accepted. -/
def convertMap (ok : Nat → Nat → Bool) (window : Fire → Nat) (f : Fire) (md : Nat → Mode) : VcResult :=
  let fa := f.hdr.fa.toNat
  let fb := f.hdr.fb.toNat
  if ok fa fb then mapElems f fa (fmtWidth fb) (window f) fun e x => convertTo fb (md e) (elementValue fa x) else vcInvalid

def execVcCvt (s : State) : Out :=
  vcTrigger 0 (fun f md _ => convertMap (fun a b => inF a && inF b) (fun f => ctl f % 8) f md) s

/-- The widening forms need a wider FB (R170). -/
def widens (a b : Nat) : Bool := inF a && inF b && decide (fmtWidth a < fmtWidth b)

def execVcCvtwLo (s : State) : Out := vcTrigger 1 (fun f md _ => convertMap widens (fun _ => 0) f md) s
def execVcCvtwHi (s : State) : Out :=
  vcTrigger 2 (fun f md _ =>
    convertMap widens (fun f => 4096 / fmtWidth f.hdr.fa.toNat / (4096 / fmtWidth f.hdr.fb.toNat) - 1) f md) s

/-- Two sources into one narrower result (R171). -/
def packPair (f : Fire) (md : Nat → Mode) : VcResult :=
  let fa := f.hdr.fa.toNat
  let fb := f.hdr.fb.toNat
  if inF fa && inF fb && decide (fmtWidth fb < fmtWidth fa) then
    let wa := fmtWidth fa
    let n := 4096 / wa
    let src (e : Nat) : Nat := if e < n then element wa f.a.toV.toNat e else element wa f.b.toV.toNat (e - n)
    let rs := (List.range (2 * n)).map fun e => convertTo fb (md e) (elementValue fa (src e))
    { r := packElems (fmtWidth fb) (rs.map (·.bits)), flags := orFlags rs }
  else vcInvalid

def execVcPack (s : State) : Out := vcTrigger 3 (fun f md _ => packPair f md) s
def execVcF2i (s : State) : Out :=
  vcTrigger 4 (fun f md _ => convertMap (fun a b => inF a && (b == 11 || b == 15)) (fun f => ctl f % 8) f md) s
def execVcI2f (s : State) : Out :=
  vcTrigger 5 (fun f md _ => convertMap (fun a b => (a == 11 || a == 15) && inF b) (fun f => ctl f % 8) f md) s

/-- The block scale that `qmx` computes (R172). A block without a NaN and without a finite element has the scale of an all-zero one, which
R172 does not state (log 97). -/
def blockScale (fb : Nat) (xs : List FVal) : Nat :=
  if xs.any FVal.isNan then 0xFF
  else
    let emax : Int := match fb with | 6 => 8 | 7 => 15 | 8 => 4 | _ => 2
    let logs := xs.filterMap fun x => match x with
      | .fin _ m e => if m = 0 then none else some ((Nat.log2 m : Int) + e)
      | _ => none
    match logs with
    | [] => 127
    | l :: ls => (min (max (ls.foldl max l - emax + 127) 0) 254).toNat

/-- An element of a block rounded with its block's scale (R53, R172). -/
def quantise (fb sc : Nat) (md : Mode) (x : FVal) : Rounded :=
  if sc = 0xFF then ⟨nanOf fb, fNV⟩ else convertTo fb md (x.scale (127 - sc))

/-- Byte j of c.sc (R65). -/
def scaleByte (sc : Word) (j : Nat) : Nat := sc.toNat / 256 ^ j % 256

def qmx (f : Fire) (md : Nat → Mode) (c : Ctx) : VcResult :=
  let fa := f.hdr.fa.toNat
  let fb := f.hdr.fb.toNat
  if inWide fa && inQ fb then
    let wa := fmtWidth fa
    let n := 4096 / wa
    let x (e : Nat) : FVal := elementValue fa (element wa f.b.toV.toNat e)
    let scales := (List.range (n / 32)).map fun j =>
      if ctl f % 2 = 1 then scaleByte c.sc j else blockScale fb ((List.range 32).map fun i => x (32 * j + i))
    let rs := (List.range n).map fun e => quantise fb (scales.getD (e / 32) 0) (md e) (x e)
    { r := packElems (fmtWidth fb) (rs.map (·.bits)), h := some (packElems 8 scales), flags := orFlags rs }
  else vcInvalid

def execVcQmx (s : State) : Out := vcTrigger 6 qmx s

/-- A scaled value rounded into FB; a NaN scale sets NV (R173, R174). -/
def expand (fb sc : Nat) (md : Mode) (x : FVal) : Rounded :=
  let r := convertTo fb md (scaled sc x)
  ⟨r.bits, r.flags ||| (if sc = 0xFF then fNV else 0)⟩

def dqmx (f : Fire) (md : Nat → Mode) (c : Ctx) : VcResult :=
  let fa := f.hdr.fa.toNat
  let fb := f.hdr.fb.toNat
  if inQ fa && inWide fb then
    let n := 4096 / fmtWidth fb
    let q := ctl f % 16
    if 4096 / fmtWidth fa < (q + 1) * n then vcInvalid
    else
      let rs := (List.range n).map fun e =>
        expand fb (scaleByte c.sc (e / 32)) (md e) (elementValue fa (element (fmtWidth fa) f.b.toV.toNat (q * n + e)))
      { r := packElems (fmtWidth fb) (rs.map (·.bits)), flags := orFlags rs }
  else vcInvalid

def execVcDqmx (s : State) : Out := vcTrigger 7 dqmx s

/-- Entry e of a die's codebook table (R57). -/
def cbtEntry (p : Pkg) (die table e : Nat) : Nat := (p.cbt.get (16384 * die + 8192 * table + e)).toNat

def cbd (p : Pkg) (f : Fire) (md : Nat → Mode) (c : Ctx) : VcResult :=
  let fa := f.hdr.fa.toNat
  let fb := f.hdr.fb.toNat
  if (fa == 13 || fa == 14) && inWide fb then
    let n := 4096 / fmtWidth fb
    let q := ctl f % 16
    if (if fa = 13 then 256 else 170) < (q + 1) * (n / 8) then vcInvalid
    else
      let die := coreOf f.ctx / 36
      let rs := (List.range n).map fun e =>
        let x := element (fmtWidth fa) f.b.toV.toNat (q * (n / 8) + e / 8)
        let w := if fa = 13 then cb2Weight (cbtEntry p die 0) x (e % 8) else cb3Weight (cbtEntry p die 1) x (e % 8)
        expand fb (scaleByte c.sc (e / 64)) (md e) w
      { r := packElems (fmtWidth fb) (rs.map (·.bits)), flags := orFlags rs }
  else vcInvalid

def execVcCbd (s : State) : Out := vcTrigger 8 (cbd s.pkg) s

/-- x rounded to an integral value of its own format (R171). -/
def rintValue (fmt : Fmt) (md : Mode) (x : Nat) : Rounded :=
  match fmt.decode x with
  | .nan => ⟨fmt.nanBits, 0⟩
  | .inf neg => ⟨fmt.infBits neg, 0⟩
  | .fin neg m e =>
    let g := roundGrid md neg m e 0
    if g.inexact then ⟨(roundTo fmt {} (.fin neg g.k 0)).bits, fNX⟩ else ⟨x, 0⟩

def rint (f : Fire) (md : Nat → Mode) : VcResult :=
  let fa := f.hdr.fa.toNat
  match fmtOf fa with
  | some fmt => if inWide fa then mapElems f fa (fmtWidth fa) 0 fun e x => rintValue fmt (md e) x else vcInvalid
  | none => vcInvalid

def execVcRint (s : State) : Out := vcTrigger 9 (fun f md _ => rint f md) s

/-- As cvt, with c.amax over the source elements read (R67, R171). -/
def cvta (f : Fire) (md : Nat → Mode) : VcResult :=
  let fa := f.hdr.fa.toNat
  let fb := f.hdr.fb.toNat
  if inF fa && inF fb then
    match elementMap (fmtWidth fa) (fmtWidth fb) (ctl f % 8) with
    | none => vcInvalid
    | some (base, n) =>
      let xs := (List.range n).map fun e => elementValue fa (element (fmtWidth fa) f.b.toV.toNat (base + e))
      let v := mapElems f fa (fmtWidth fb) (ctl f % 8) fun e x => convertTo fb (md e) (elementValue fa x)
      { v with amax := amaxOf xs, ns := sawNan xs }
  else vcInvalid

def execVcCvta (s : State) : Out := vcTrigger 10 (fun f md _ => cvta f md) s

/-- Lanes 1 and 0 as one word (R175). -/
def lowWord (v : Vec) : Word := v.extractLsb' 0 64

/-- c.sc and c.srs are written after every read, draw and move of the bundle (R63, R175): the issue fires these last. -/
def execVcSetsc (s : State) : Out :=
  s.put (s.pkg.modC s.pkg.fire.ctx fun c => c.setCr 0x0D2 (lowWord s.pkg.fire.b.toV))
def execVcSrseed (s : State) : Out :=
  s.put (s.pkg.modC s.pkg.fire.ctx fun c => c.setCr 0x0D3 (lowWord s.pkg.fire.b.toV))

end Sys2Proof.Machine
end

