-- ==== Sys2Proof/Machine/Copy.lean ====
section
/-! DEFINITION. Copies (R192 to R200) and the engine fence (R108). -/

namespace Sys2Proof.Machine

open Eng

/-! ## Links and targets (R192, R202, R383) -/

/-- The port by which a message to another package leaves: along x first, then along y (R383). -/
def portTo (own target : Nat) : Option Nat :=
  if target % 8 > own % 8 then some 1
  else if target % 8 < own % 8 then some 3
  else if target / 8 > own / 8 then some 2
  else if target / 8 < own / 8 then some 0
  else none

/-- The port to a package is trained and has not failed (R377). -/
def edgeUp (p : Pkg) (target : Nat) : Bool :=
  match portTo p.number target with
  | some q => (p.regv 0x07000010).testBit q
  | none => true

/-- The physical core of a target that the node may address: itself a package of the gang, and in the node's core set; the
core set of a node's share on another package is not state of this one, so its test there is free. Status 0x0F, and 0x10
where the edge port is down (log 37). -/
def target (lcore pkg : Nat) : Eng (Option Nat) := do
  let v ← read
  let p ← Eng.pkg
  let n := p.node v.cmd.node
  if pkg = p.number then
    need (n.cores.testBit lcore) 0x0F
    match p.pcoreOf lcore with
    | some q => return some q
    | none => fail 0x0F
  else
    need (n.gang && n.pkgs.testBit pkg && Config.freeBool p.fresh) 0x0F
    modPkg fun p => p.drawn 1
    need (edgeUp p pkg) 0x10
    return none

/-! ## Sides of a copy -/

/-- The local part of an address of kind 1 or 2, the whole of one of kind 0 (R192). -/
def sideAddr (kind a : Nat) : Nat := if kind = 0 then a else a % 2 ^ 32
/-- The block that one access of a side covers: a sector of device memory, a word of local storage (R98). -/
def sideBlock (kind : Nat) : Nat := if kind = 0 then 32 else 4
/-- A range of local addresses is one its kind allows (R72, R192). -/
def sideOk (kind a n : Nat) : Bool := kind == 0 || n == 0 || (localOk a n && (kind == 1 || decide (a < 0x2000000)))
/-- One access to a source (R192). -/
def sideRead (kind a n : Nat) : Eng (List Byte) := if kind = 0 then readSector a n else readWord a n

/-- Where a copy's bytes go: device memory, a core's local storage, a core of another package by its logical number. -/
inductive Dest where
  | dev
  | core (n : Nat)
  | far (pkg lcore : Nat)
  deriving DecidableEq, Repr, Inhabited

/-- The destination that an address names (R192); another core is named once for all of the command's accesses to it. -/
def destOf (kind d : Nat) : Eng Dest := do
  if kind = 0 then return .dev
  else if kind = 1 then return .core (coreOf (← read).cmd.ctx)
  else
    let b ← access do
      match ← target (bits d 38 32) (bits d 45 40) with
      | some core => return bytesOf 1 core
      | none => return []
    return if b = [] then .far (bits d 45 40) (bits d 38 32) else .core (natOf b)

/-- The write of bytes of one block of a destination, by its addresses; `whole` tells of a codeword that is rewritten whole (R83). -/
def writeTo (dst : Dest) (whole : Nat → Bool) (cells : List Host.Cell) : Eng (List Byte) := do
  let spad := cells.map fun c => (spadByte c.1, c.2)
  match dst with
  | .dev => emitWrite (← sectorWrite cells)
  | .core n =>
    awake n
    let a := (cells.headD (0, 0)).1
    if 0x2000000 ≤ a then emitWrite (.accBytes n (cells.map fun c => (c.1 - 0x2000000, c.2)))
    else
      let full := (spad.map fun c => c.1 / 4).eraseDups
      emitWrite (if whole (a / 64) then .code n spad full else .spad n spad full)
  | .far pkg lcore => emitWrite (.remote pkg lcore spad)

/-- The place of a stamp, its bytes left open (R194) (log 36). -/
def stampPlace (kind d : Nat) : Eng PWrite := do
  let v ← read
  let a := d % 2 ^ 32
  let zeros (k : Nat) : List Host.Cell := cellsAt k (List.replicate 8 0)
  if kind = 0 then sectorWrite (zeros d)
  else
    need (sideOk kind a 8) 2
    match ← destOf kind d with
    | .far pkg lcore => return .remote pkg lcore ((zeros a).map fun c => (spadByte c.1, c.2))
    | .core n => return localCells n a (List.replicate 8 0)
    | .dev => return localCells (coreOf v.cmd.ctx) a (List.replicate 8 0)

/-- A payload with the stamp that follows it: a stamp whose own location faults is not written, and its status is the
command's (R194) (log 36). -/
def withStamp (stamp : Bool) (kind d : Nat) (payload : Eng Unit) : Eng Unit := do
  if stamp then
    let w ← attempt (access do
      if (← get).stamp.isNone then
        let st ← stampPlace kind d
        modify fun s => { s with stamp := some st }
      return [])
    payload
    match w with
    | .ok _ => pure ()
    | .error n => fail n
  else payload

/-- F's kinds (R192). -/
def copyKinds (f : Nat) : Eng (Nat × Nat) := do
  need (f % 4 < 2 && f / 4 % 4 < 3) 0x0E
  return (f % 4, f / 4 % 4)

/-- A copy of consecutive bytes: every block of the source is read, and every block of the destination written once its bytes have
been, in any order (R97, R98, R194). -/
def copyRange (block : Nat) (get : Nat → Nat → Eng (List Byte)) (kd src dst n : Nat) (dest : Dest) : Eng Unit := do
  let as ← anyOrder ((blocks block src n).map fun q => get q.1 q.2)
  let found := bytesFound (blocks block src n) as
  discard (anyOrder ((blocks (sideBlock kd) dst n).map fun q =>
    match bytesThere found (q.1 - dst) q.2 with
    | some bs => writeTo dest (inRange dst n) (cellsAt q.1 bs)
    | none => throw .pause))
  settle

/-- EC_COPYL (R193). Where a local range is not allowed the command makes no access (R72). With C = 0 and no stamp there is no range whose
addresses or core could be checked, and none is (DESIGN CHOICE, log 104). -/
def ecCopylWork (c : Cmd) : Eng Unit := do
  let k ← copyKinds c.b.toNat
  let n := c.c.toNat
  let a := sideAddr k.1 c.a.toNat
  let d := sideAddr k.2 c.d.toNat
  need (n < 2 ^ 32) 0x0E
  let stamp := c.b.getLsbD 4
  let sd := (c.d.toNat + (n + 7) / 8 * 8) % 2 ^ 64
  need (!stamp || sd % 8 == 0) 3
  need (sideOk k.1 a n && sideOk k.2 d n) 2
  withStamp stamp k.2 sd (do
    if n != 0 then
      let dest ← destOf k.2 c.d.toNat
      if k.1 != 0 then awake (coreOf c.ctx)
      copyRange (sideBlock k.1) (sideRead k.1) k.2 a d n dest
      if k.1 != 0 then spendLocal (coreOf c.ctx) c.ctx)

/-- EC_COPYL: the command makes its accesses. -/
def execEcCopyl (c : Cmd) (s : State) : Out := runCmd c (ecCopylWork c) s

/-! ## Templates (R196 to R198) -/

structure Template where
  ndim  : Nat
  esize : Nat
  xform : Nat
  cmode : Nat
  soff  : Nat
  e     : List Nat
  ss    : List Int
  ds    : List Int
  deriving DecidableEq, Repr, Inhabited

/-- A template record's fields (R196). -/
def templateOf (b : List Byte) : Template :=
  { ndim := field b 1 1, esize := field b 2 1, xform := field b 3 1, cmode := field b 4 1, soff := field b 8 4,
    e := (List.range 4).map fun i => field b (16 + 4 * i) 4
    ss := (List.range 4).map fun i => sextNat 32 (field b (32 + 4 * i) 4)
    ds := (List.range 4).map fun i => sextNat 32 (field b (48 + 4 * i) 4) }

/-- A record that breaks none of the ranges of R196. -/
def templateOk (b : List Byte) : Bool :=
  let t := templateOf b
  field b 0 1 == 1 && decide (1 ≤ t.ndim ∧ t.ndim ≤ 4) && decide (t.esize ≤ 3) && decide (t.xform ≤ 3) && decide (t.cmode ≤ 1) &&
  field b 5 3 == 0 && field b 12 4 == 0 && t.soff % 8 == 0 &&
  ((List.range 4).all fun i => if i < t.ndim then decide (1 ≤ t.e.getD i 0 ∧ t.e.getD i 0 ≤ 2 ^ 24)
    else t.e.getD i 0 == 0 && t.ss.getD i 0 == 0 && t.ds.getD i 0 == 0) &&
  (t.ss ++ t.ds).all (fun x => x % 2 ^ t.esize == 0) &&
  decide ((t.e.take t.ndim).prod ≤ 2 ^ 32)

/-- The offsets of every element on both sides, in the order of R198's loops. -/
def templateOffsets (t : Template) : List (Int × Int) :=
  let e (i : Nat) : List Nat := List.range (max 1 (t.e.getD i 0))
  let ds := if t.xform = 1 then [t.ds.getD 1 0, t.ds.getD 0 0, t.ds.getD 2 0, t.ds.getD 3 0] else t.ds
  (e 3).flatMap fun (i3 : Nat) => (e 2).flatMap fun (i2 : Nat) => (e 1).flatMap fun (i1 : Nat) => (e 0).map fun (i0 : Nat) =>
    let at_ (st : List Int) : Int := i0 * st.getD 0 0 + i1 * st.getD 1 0 + i2 * st.getD 2 0 + i3 * st.getD 3 0
    (at_ t.ss, at_ ds)

/-- A scratchpad address under the swizzle transform (R198) (log 36). -/
def swizzleSide (xform kind a : Nat) : Nat :=
  if xform = 3 ∧ kind != 0 then a / 2 ^ 32 * 2 ^ 32 + 0x1000000 + a % 0x1000000 else a

/-! ## Retiling (R199) -/

/-- Element format by code: K-depth, unit width in bits, units along K, planes per block, block size of its scales. -/
structure BlockForm where
  kd : Nat
  w  : Nat
  ku : Nat
  pb : Nat
  bs : Nat
  deriving DecidableEq, Repr, Inhabited

/-- The block form of an array format (R199, R226); scales are read where `bs` is not 0. -/
def blockForm (fmt : Nat) : BlockForm :=
  match fmt with
  | 1 => ⟨64, 16, 64, 2, 0⟩ | 2 => ⟨64, 16, 64, 2, 0⟩
  | 6 => ⟨64, 8, 64, 1, 32⟩ | 7 => ⟨64, 8, 64, 1, 32⟩
  | 8 => ⟨64, 6, 64, 1, 32⟩ | 9 => ⟨64, 6, 64, 1, 32⟩
  | 10 => ⟨128, 4, 128, 1, 32⟩ | 12 => ⟨128, 4, 128, 1, 32⟩
  | 13 => ⟨256, 16, 32, 1, 64⟩
  | 14 => ⟨128, 24, 16, 1, 64⟩
  | _ => ⟨64, 8, 64, 1, 0⟩

/-- Unit u of a packed sequence of w-bit units (R49). -/
def packedUnit (w : Nat) (bs : List Byte) (u : Nat) : Nat := field bs (w * u / 8) 4 / 2 ^ (w * u % 8) % 2 ^ w

/-- The bytes of one block from its units (R199). -/
def blockBytes (f : BlockForm) (t : Bool) (unit : Nat → Nat → Nat) : List Byte :=
  let v := (List.range (64 * f.ku)).map fun pos =>
    if t then unit (pos % f.ku) (pos / f.ku) else unit (pos / 64) (pos % 64)
  bytesOf (f.w * 64 * f.ku / 8) (digits f.w v)

/-- The granule of a region that plane i of block-plane q of tile (kt, nt) is (R87). -/
def blockGranule (r : Shape) (f : BlockForm) (q kt nt i : Nat) : Nat := kt + r.kt * (nt + r.nt * (f.pb * q + i))

/-- One block of a region written through its pages, each plane by its page's leaf. -/
def writeBlock (r : Shape) (f : BlockForm) (q kt nt : Nat) (bs : List Byte) : Eng Unit := do
  for i in List.range f.pb do
    devWrite (r.base + 4096 * blockGranule r f q kt nt i) ((bs.drop (4096 * i)).take 4096)

/-- The blocks of a region: block-plane, tile column, member row. -/
def regionBlocks (r : Shape) (pb : Nat) : List (Nat × Nat × Nat) :=
  (List.range (r.planes / pb)).flatMap fun q => (List.range r.kt).flatMap fun kt => (List.range r.nt).map fun nt => (q, kt, nt)

/-- Rows of bytes, read in any order. -/
def readRows (rows : List (List (Nat × Nat))) (get : Nat → Nat → Eng (List Byte)) : Eng (List (List Byte)) := do
  let as ← rows.mapM fun row => anyOrder (row.map fun q => get q.1 q.2)
  settle
  return as.map fun row => row.flatMap Answer.data

/-- A shape record's fields describe one legal rectangle (R89, R216), its reserved ones apart. -/
def Shape.legal (r : Shape) : Bool := Shape.ok { r with reserved := 0 }

/-- The region of an address, its record read once for the command (R332). -/
def regionOnce (asid base none_ : Nat) : Eng Shape := do
  match (← self).region with
  | some r => return r
  | none =>
    let r ← regionIn asid base none_
    modSelf fun m => { m with region := some r }
    return r

/-- The region of an address whose record breaks none of R89's ranges (R6). -/
def regionFor (asid base none_ : Nat) : Eng Shape := do
  let r ← regionOnce asid base none_
  need r.ok 1
  return r

/-- The 256 bytes of a side slot from its rows of 64 scales, 0 where there is none (R199). -/
def sideScales (scales : List (List Byte)) : List Byte := (List.range 256).map fun i => (scales.getD (i / 64) []).getD (i % 64) 0

/-- EC_RETILE (R199). Its blocks do not depend on each other (log 25). -/
def ecRetileWork (c : Cmd) : Eng Unit := do
  let b := c.b.toNat % 2 ^ 32
  let fmt := b / 2 ^ 28
  need (1 ≤ fmt && fmt ≤ 14 && bits b 26 16 == 0) 1
  let r ← regionFor c.asid c.d.toNat 8
  let f := blockForm fmt
  need (r.planes % f.pb == 0) 1
  let ntot := r.nt * 64
  let ktot := r.kt * f.ku
  let nb := if f.bs = 0 then 0 else f.kd / f.bs
  each ((regionBlocks r f.pb).map fun (q, kt, nt) => do
    let first (k : Nat) : Nat := ((q * ktot + kt * f.ku + k) * ntot + nt * 64) * f.w
    let rows ← readRows ((List.range f.ku).map fun k =>
      blocks 32 (c.a.toNat + first k / 8) ((first k + 64 * f.w + 7) / 8 - first k / 8)) readSector
    let scales ← readRows ((List.range nb).map fun i =>
      blocks 32 (c.c.toNat + (q * r.kt * nb + kt * nb + i) * ntot + nt * 64) 64) readSector
    let unit (k n : Nat) : Nat := field (rows.getD k []) ((first k % 8 + f.w * n) / 8) 4 / 2 ^ ((first k % 8 + f.w * n) % 8) % 2 ^ f.w
    writeBlock r f q kt nt (blockBytes f (b.testBit 27) unit)
    discard (access do
      emitWrite (← sideWrite (r.base + 4096 * blockGranule r f q kt nt 0) 0 (sideScales scales))))
  writeLate (.dev none false (cellsAt (r.at_ + 28) (bytesOf 4 b)))

/-- EC_RETILE: the command makes its accesses. -/
def execEcRetile (c : Cmd) (s : State) : Out := runCmd c (ecRetileWork c) s

/-- The region of a copy with the retile-to-columned transform, and the form of its blocks (R198). -/
def retilePlan (dk d asid : Nat) : Eng (Shape × BlockForm) := do
  need (dk == 0) 8
  let r ← regionFor asid d 8
  need (r.layout != 0) 8
  let f := blockForm (r.layout / 2 ^ 28)
  need (r.planes % f.pb == 0) 1
  return (r, f)

/-- Where the units of member row nt stand in row k of block-plane q and tile column kt, and the bytes that hold them (R198). -/
def retileRow (t : Template) (sk a : Nat) (f : BlockForm) (q kt k nt : Nat) : Nat × Nat :=
  let row := (((a : Int) + q * t.ss.getD 2 0 + ((kt * f.ku + k : Nat) : Int) * t.ss.getD 1 0) % 2 ^ 64).toNat
  let at_ := nt * 64 * f.w / 8
  (sideAddr sk row + at_, ((nt + 1) * 64 * f.w + 7) / 8 - at_)

/-- Every local range that such a copy reads is allowed (R72). -/
def retileLocalOk (t : Template) (sk a : Nat) (r : Shape) (f : BlockForm) : Bool :=
  (regionBlocks r f.pb).all fun (q, kt, nt) => (List.range f.ku).all fun k =>
    let w := retileRow t sk a f q kt k nt
    sideOk sk w.1 w.2

/-- The blocks of such a copy, which writes no side slot: R198 says so of it where R88 has such copies write one (log 95). -/
def copyRetile (t : Template) (sk a : Nat) (r : Shape) (f : BlockForm) : Eng Unit := do
  if sk != 0 then awake (coreOf (← read).cmd.ctx)
  each ((regionBlocks r f.pb).map fun (q, kt, nt) => do
    let rows ← readRows ((List.range f.ku).map fun k =>
      let w := retileRow t sk a f q kt k nt
      blocks (sideBlock sk) w.1 w.2) (sideRead sk)
    if sk != 0 then spendLocal (coreOf (← read).cmd.ctx) (← read).cmd.ctx
    let unit (k n : Nat) : Nat :=
      let o := nt * 64 * f.w % 8 + f.w * n
      field (rows.getD k []) (o / 8) 4 / 2 ^ (o % 8) % 2 ^ f.w
    writeBlock r f q kt nt (blockBytes f (r.layout.testBit 27) unit))

/-- Values by rising key, one added at a key. -/
def addAt {α : Type} (k : Nat) (x : α) : List (Nat × List α) → List (Nat × List α)
  | [] => [(k, [x])]
  | (j, xs) :: m => if j = k then (k, x :: xs) :: m else if k < j then (k, [x]) :: (j, xs) :: m else (j, xs) :: addAt k x m
/-- Values grouped by a key. -/
def groupBy {α : Type} (key : α → Nat) (xs : List α) : List (Nat × List α) := xs.foldr (fun x m => addAt (key x) x m) []

/-- What is written at once of a template's bytes, as pairs of source and destination address: what lies in one sector of device memory or
in one word of local storage, so that a fault leaves it old or new (R98, R194). -/
def copyUnits (kd : Nat) (bytes : List (Nat × Nat)) : List (List (Nat × Nat)) :=
  (groupBy (fun q => q.2 / sideBlock kd) bytes).map (·.2)

/-- Of several bytes for one place any may be written last: R194 leaves their order open, and the choice is free (log 106). -/
def lastOf (fresh : Nat) (cells : List Host.Cell) : List Host.Cell :=
  ((cells.map (·.1)).eraseDups).zipIdx.map fun q =>
    match cells.filter fun c => c.1 == q.1 with
    | [c] => c
    | cs => cs.getD (Config.freeNat (fresh + q.2) % cs.length) (q.1, 0)

/-- The copy of a template's bytes (R198). -/
def copyBytes (ks kd : Nat) (bytes : List (Nat × Nat)) : Eng Unit := do
  let reads := groupBy (fun a => a / sideBlock ks) (bytes.map (·.1))
  let tos ← (((bytes.map fun q => q.2 / 2 ^ 32).eraseDups).mapM fun h => do return (h, ← destOf kd (h * 2 ^ 32)) : Eng (List (Nat × Dest)))
  if ks != 0 then awake (coreOf (← read).cmd.ctx)
  let as ← anyOrder (reads.map fun g =>
    let lo := g.2.foldl min (g.2.headD 0)
    sideRead ks lo (g.2.foldl max 0 + 1 - lo))
  if ks != 0 then spendLocal (coreOf (← read).cmd.ctx) (← read).cmd.ctx
  let found := reads.zip as
  let value (a : Nat) : Option Byte := match found.find? fun q => q.1.1 == a / sideBlock ks with
    | some (g, .bytes bs) => bs[a - g.2.foldl min (g.2.headD 0)]?
    | _ => none
  let words := groupBy (fun a => a / 64) ((bytes.map (·.2)).eraseDups)
  let whole (h w : Nat) : Bool := words.any fun g => g.1 == h * 2 ^ 26 + w && g.2.length == 64
  discard (anyOrder ((copyUnits kd bytes).map fun u => do
    match u.mapM fun q => (value q.1).map fun b => (q.2, b) with
    | none => throw .pause
    | some all =>
      let cells := lastOf (← pkg).fresh all
      modPkg fun p => p.drawn all.length
      let h := (cells.headD (0, 0)).1 / 2 ^ 32
      match tos.find? fun t => t.1 == h with
      | some t => writeTo t.2 (whole h) (if kd = 0 then cells else cells.map fun c => (c.1 % 2 ^ 32, c.2))
      | none => pure []))
  settle

/-- EC_COPY (R198). Where a local range is not allowed the command makes no access (R72). A copy of elements between planes carries no
side slot, of which R15 speaks and R198 does not (log 95). -/
def ecCopyWork (c : Cmd) : Eng Unit := do
  need (!c.tmpl.isEmpty) 0x0A
  let t := templateOf c.tmpl
  let k ← copyKinds c.c.toNat
  let w := 2 ^ t.esize
  let elems := (templateOffsets t).map fun o =>
    (swizzleSide t.xform k.1 (((c.a.toNat : Int) + o.1) % 2 ^ 64).toNat, swizzleSide t.xform k.2 (((c.d.toNat : Int) + o.2) % 2 ^ 64).toNat)
  let sd := (c.d.toNat + t.soff) % 2 ^ 64
  need (t.cmode != 1 || sd % 8 == 0) 3
  need (t.xform == 2 || elems.all fun e => sideOk k.1 (sideAddr k.1 e.1) w && sideOk k.2 (sideAddr k.2 e.2) w) 2
  let plan ← if t.xform = 2 then attempt (retilePlan k.2 c.d.toNat c.asid) else pure (.error 0)
  need (match plan with | .ok r => retileLocalOk t k.1 c.a.toNat r.1 r.2 | .error _ => true) 2
  withStamp (t.cmode == 1) k.2 sd (do
    if t.xform = 2 then
      match plan with
      | .ok r => copyRetile t k.1 c.a.toNat r.1 r.2
      | .error n => fail n
    else
      let aligned (e : Nat × Nat) : Bool := (k.1 != 0 || e.1 % w == 0) && (k.2 != 0 || e.2 % w == 0)
      copyBytes k.1 k.2 ((elems.filter aligned).flatMap fun e => (List.range w).map fun i =>
        (sideAddr k.1 e.1 + i, (if k.2 = 2 then e.2 % 2 ^ 46 else sideAddr k.2 e.2) + i))
      need (elems.all aligned) 3)

/-- EC_COPY: the command makes its accesses. -/
def execEcCopy (c : Cmd) (s : State) : Out := runCmd c (ecCopyWork c) s

/-! ## Prefetch, stamp and fence (R108, R200) -/

/-- The cached lines of a range are brought in or on their way (R91, R117). -/
def prefetchLines (dtime asid va n : Nat) (p : Pkg) : Pkg :=
  (pieces (va % 2 ^ 56) (min n (2 ^ 56))).foldl (fun p q =>
    match walk p asid q.1 with
    | .leaf l =>
      if l.priv then
        let k := leafPlace p l q.1
        (List.range ((k + q.2 - 1) / 256 - k / 256 + 1)).foldl (fun p i =>
          { p with lines := p.lines.modify (k / 256 + i) fun e => { e with pending := true } }) p
      else p
    | .poisoned d => markTable dtime asid q.1 d p
    | _ => p) p

/-- EC_PREF (R200): no value changes, no fault; a table word that its walks meet poisoned is marked and recorded as any walk's is
(R335). -/
def ecPrefWork (c : Cmd) : Eng Unit := do
  let v ← read
  modPkg (prefetchLines v.env.dtime c.asid c.a.toNat c.b.toNat)

/-- EC_PREF: the command makes its accesses. -/
def execEcPref (c : Cmd) (s : State) : Out := runCmd c (ecPrefWork c) s

/-- Every command of the closure has completed, and its writes are performed for the scope (R108). -/
def closurePerformed (wide : Bool) : Eng Unit := do
  let v ← read
  let p ← pkg
  if v.cmd.closure.any p.present then wait
  if wide then modPkg (clearReplicas v.cmd.closure)

/-- EC_FENCE_E (R108). -/
def ecFenceEWork (c : Cmd) : Eng Unit :=
  closurePerformed (decide (4 ≤ min 5 c.b.toNat))

/-- EC_FENCE_E: the command makes its accesses. -/
def execEcFenceE (c : Cmd) (s : State) : Out := runCmd c (ecFenceEWork c) s

/-- The status of the first faulted command among those aux names (R200). -/
def firstFault (named : List Nat) (ended : List (Nat × Nat)) : Nat :=
  ((named.filterMap fun id => (ended.find? fun e => e.1 == id).map (·.2)).find? (· != 0)).getD 0

/-- EC_STAMPW (R200). B, for which the assembly gives 0, is not looked at (DESIGN CHOICE, log 105). -/
def ecStampwWork (c : Cmd) : Eng Unit := do
  need (linear c.a.toNat 8 8) 2
  closurePerformed true
  let v ← read
  let m ← self
  awake (coreOf c.ctx)
  writeLate (localCells (coreOf c.ctx) c.a.toNat
    (stampBytes (firstFault (c.uses.take c.named) m.ended) c.seq v.env.dtime))

/-- EC_STAMPW: the command makes its accesses. -/
def execEcStampw (c : Cmd) (s : State) : Out := runCmd c (ecStampwWork c) s

/-! ## Cache fills (R117) -/

/-- MEMORY_SIDE_CACHE_FILL_LANDS: the fill never overwrites what a write has written. -/
def execMemorySideCacheFillLands (line : Nat) (s : State) : Out :=
  if (s.pkg.lines.get line).pending then
    s.put { s.pkg with lines := s.pkg.lines.modify line fun l => { l with pending := false } }
  else .next s

end Sys2Proof.Machine
end

