-- ==== Sys2Proof/Machine/CrossCluster.lean ====
section
/-! DEFINITION. The cross-cluster unit xc (R178 to R182): reductions and scans over a fixed tree, movement, segments, sort. -/

namespace Sys2Proof.Machine

/-- An xc trigger: r, and h for `sort`, with flags, after `l` issue cycles. -/
def xcTrigger (op l : Nat) (r : Vec) (h : Option Vec) (flags : Nat) (s : State) : Out :=
  s.put (deliver s.pkg.fire.ctx 11 op l (some (.v r)) h flags s.pkg)

/-- A combining step: the result and its flags. -/
abbrev Combine := Lane → Lane → Lane × Nat

def addFC : Combine := fun a b => let r := addF32 a b; (laneOf r, r.flags)
def maxFC : Combine := fun a b => (maxF32 a b, 0)
def minFC : Combine := fun a b => (minF32 a b, 0)
def addIC : Combine := fun a b => (a + b, 0)
def maxIC : Combine := fun a b => (if a.slt b then b else a, 0)
def minIC : Combine := fun a b => (if b.slt a then b else a, 0)

/-- The tree value T(h, k) of R178. -/
def tree (op : Combine) (b : Vec) : Nat → Nat → Lane × Nat
  | 0, h => (b.lane h, 0)
  | k + 1, h =>
    let x := tree op b k h
    let y := tree op b k (h + 2 ^ k)
    let z := op x.1 y.1
    (z.1, x.2 ||| y.2 ||| z.2)

/-- The prefix of the first `m` lanes from an origin (R178): largest block first, left to right. -/
def prefixOf (op : Combine) (b : Vec) (o m : Nat) : Lane × Nat :=
  let r := [7, 6, 5, 4, 3, 2, 1, 0].foldl
    (fun (acc : Option (Lane × Nat) × Nat) k =>
      if m / 2 ^ k % 2 = 1 then
        let t := tree op b k acc.2
        match acc.1 with
        | none => (some t, acc.2 + 2 ^ k)
        | some a => let z := op a.1 t.1; (some (z.1, a.2 ||| t.2 ||| z.2), acc.2 + 2 ^ k)
      else acc) (none, o)
  r.1.getD (0, 0)

/-- A reduction: T(0, 7) in every lane. -/
def reduce (op : Nat) (f : Combine) (s : State) : Out :=
  let t := tree f s.pkg.fire.b.toV 7 0
  xcTrigger op 6 (Vec.splat t.1) none t.2 s

def execXcRsumF32 (s : State) : Out := reduce 0 addFC s
/-- A maximum or minimum of one NaN lane is the canonical NaN, since every lane meets another (R179). -/
def execXcRmaxF32 (s : State) : Out := reduce 1 maxFC s
def execXcRminF32 (s : State) : Out := reduce 2 minFC s
def execXcRsumI32 (s : State) : Out := reduce 3 addIC s
def execXcRmaxI32 (s : State) : Out := reduce 4 maxIC s
def execXcRminI32 (s : State) : Out := reduce 5 minIC s

/-- A lane that a scan delivers without any addition still obeys R64: its NaN is canonical. -/
def canonLane (x : Lane) : Lane := if (Lane.val x).isNan then BitVec.ofNat 32 f32.nanBits else x

/-- A scan whose lane i is the prefix from its head (R179). -/
def scan (op : Nat) (f : Combine) (canon : Lane → Lane) (head : Nat → Nat) (s : State) : Out :=
  let b := s.pkg.fire.b.toV
  let rs := (List.range 128).map fun i => prefixOf f b (head i) (i - head i + 1)
  xcTrigger op 6 (Vec.ofLanes (rs.map fun r => canon r.1)) none (rs.foldl (fun a r => a ||| r.2) 0) s

def execXcScanF32 (s : State) : Out := scan 6 addFC canonLane (fun _ => 0) s
def execXcScanI32 (s : State) : Out := scan 7 addIC id (fun _ => 0) s

/-- The head of lane i's segment: the greatest head at or below it (R181). -/
def headOf (a : Vec) (i : Nat) : Nat := (List.range (i + 1)).foldl (fun h j => if j = 0 || a.lane j != 0 then j else h) 0

def execXcSegsumF32 (s : State) : Out := scan 15 addFC canonLane (headOf s.pkg.fire.a.toV) s

/-- A movement operation: lane i of the result (R180). -/
def xcMove (op : Nat) (lane : Vec → Vec → Nat → Lane) (s : State) : Out :=
  xcTrigger op 6 (Vec.tab (lane s.pkg.fire.a.toV s.pkg.fire.b.toV)) none 0 s

def execXcPerm (s : State) : Out := xcMove 8 (fun a b i => if (a.lane i).toNat < 128 then b.lane (a.lane i).toNat else 0) s
def execXcRotl (s : State) : Out := xcMove 9 (fun a b i => b.lane ((i + (a.lane 0).toNat % 128) % 128)) s
def execXcBcl (s : State) : Out := xcMove 10 (fun a b _ => b.lane ((a.lane 0).toNat % 128)) s

/-- The lanes selected by A, in increasing order. -/
def chosen (a : Vec) : List Nat := (List.range 128).filter fun i => a.lane i != 0

def execXcCmpr (s : State) : Out :=
  xcMove 11 (fun a b i => match (chosen a)[i]? with | some j => b.lane j | none => 0) s
def execXcExpd (s : State) : Out :=
  xcMove 12 (fun a b i => if a.lane i != 0 then b.lane ((chosen a).filter (· < i)).length else 0) s
def execXcCpy (s : State) : Out :=
  xcMove 16 (fun a b i => b.lane (16 * ((a.lane (16 * (i / 16))).toNat % 8) + i % 16)) s
def execXcSeg (s : State) : Out :=
  xcMove 14 (fun _ b i => if i = 0 || b.lane i != b.lane (i - 1) then 0xFFFFFFFF else 0) s

/-- A pair placed behind the pairs that stay before it: equal keys keep their order (R182). -/
def insertKey (desc : Bool) (q : Lane × Lane) : List (Lane × Lane) → List (Lane × Lane)
  | [] => [q]
  | r :: rs =>
    if (if desc then r.1.ult q.1 else q.1.ult r.1) then q :: r :: rs else r :: insertKey desc q rs

/-- The keys of B with the payloads of A, sorted stably. -/
def sortPairs (desc : Bool) (a b : Vec) : List (Lane × Lane) :=
  ((List.range 128).map fun i => (b.lane i, a.lane i)).foldl (fun acc q => insertKey desc q acc) []

/-- A sort takes 12 issue cycles (R182). -/
def execXcSort (s : State) : Out :=
  let f := s.pkg.fire
  let ps := sortPairs ((f.c.toV.lane 0).getLsbD 0) f.a.toV f.b.toV
  s.put (deliver f.ctx 11 13 12 (some (.v (Vec.ofLanes (ps.map (·.1))))) (some (Vec.ofLanes (ps.map (·.2)))) 0 s.pkg)

end Sys2Proof.Machine
end

