-- ==== Sys2Proof/Machine/Groups.lean ====
section
/-! DEFINITION. Group barriers and collectives (R211 to R214, R384). -/

namespace Sys2Proof.Machine

open Eng

/-- A group number that a context of the part may name (R128, R211) (log 21). -/
def groupNamed (c : Cmd) (g : Nat) : Bool := c.groups.contains g

/-- The number of an arrival: the part's count of arrivals at the group up to this one, taken at issue (R211) (log 43). -/
def arriveEnter (x id g : Nat) (p : Pkg) : Pkg :=
  let c := p.c x
  if c.groups.contains g && (p.node (c.node.getD 0)).resident then
    let e := c.arrived.get g + 1
    (p.setC x { c with arrived := c.arrived.set g e }).modCmd id fun m => { m with progress := e }
  else p

/-- An arrival of a command is recorded; its token waits for the episode. -/
def arrive (c : Cmd) (g : Nat) (coll : Bool) (own count op type root : Nat) (data : List Lane) : Eng Unit :=
  modPkg fun p =>
    let a : Arrival := {
      node := c.node, group := g, number := (p.cmd c.id).progress, part := c.part, lcore := p.lcoreOf (coreOf c.ctx),
      pkg := p.number, cmd := some c.id, coll := coll, own := own, count := count, op := op, type := type, root := root,
      data := data }
    ({ p with arrivals := p.arrivals ++ [a] }).modCmd c.id fun m => { m with phase := .arrived }

/-- What both kinds of arrival test: the resident flag (R34) and the group (R211). -/
def arrivalOk (c : Cmd) (g : Nat) : Eng Unit := do
  need ((← pkg).node c.node).resident 9
  need (groupNamed c g) 0x0F

/-- EC_BAR (R212). -/
def ecBarWork (c : Cmd) : Eng Unit := do
  let g := c.b.toNat % 256
  arrivalOk c g
  arrive c g false 0 0 0 0 0 []

/-- EC_BAR: the command makes its accesses. -/
def execEcBar (c : Cmd) (s : State) : Out := runCmd c (ecBarWork c) s

/-- EC_COLL (R213): a faulty arrival carries its status, counts, and writes nothing. -/
def ecCollWork (c : Cmd) : Eng Unit := do
  let b := c.b.toNat
  let g := b % 256
  let cnt := c.c.toNat
  let op := bits b 11 8
  let type := bits b 15 12
  arrivalOk c g
  let data ← attempt (do
    need (decide (cnt ≤ 65536) && decide (op ≤ 4) && decide (type ≤ 2)) 0x0E
    need (linear c.a.toNat (4 * cnt) 4 && linear c.d.toNat (4 * cnt) 4) 2
    localRead c.a.toNat (4 * cnt))
  match data with
  | .ok bs => arrive c g true 0 cnt op type (bits b 31 16) ((List.range cnt).map fun i => BitVec.ofNat 32 (field bs (4 * i) 4))
  | .error n => arrive c g true n cnt op type (bits b 31 16) []

/-- EC_COLL: the command makes its accesses. -/
def execEcColl (c : Cmd) (s : State) : Out := runCmd c (ecCollWork c) s

/-! ## The combined values (R214) -/

/-- ⊕ of a type, and min and max. -/
def collStep (op type : Nat) (a b : Lane) : Lane :=
  match op with
  | 1 => if type = 0 then minF32 a b else if type = 1 then (if b.slt a then b else a) else (if b.ult a then b else a)
  | 2 => if type = 0 then maxF32 a b else if type = 1 then (if a.slt b then b else a) else (if a.ult b then b else a)
  | _ => if type = 0 then laneOf (addF32 a b) else a + b

/-- Left to right over the terms that exist. -/
def collFold (op type : Nat) : List Lane → Option Lane
  | [] => none
  | a :: as => some (as.foldl (collStep op type) a)

/-- Members before a given one in R214's order: package, die, logical core, part. -/
def memberKey (p : Pkg) (a : Arrival) : Nat × Nat × Nat × Nat :=
  (a.pkg, dieOf ((p.pcoreOf a.lcore).getD 0), a.lcore, a.part)
def keyLess (a b : Nat × Nat × Nat × Nat) : Bool :=
  decide (a.1 < b.1) || (a.1 == b.1 && (decide (a.2.1 < b.2.1) || (a.2.1 == b.2.1 &&
    (decide (a.2.2.1 < b.2.2.1) || (a.2.2.1 == b.2.2.1 && decide (a.2.2.2 < b.2.2.2))))))

/-- The arrivals in R214's order. -/
def inOrder (p : Pkg) : List Arrival → List Arrival
  | [] => []
  | a :: as => insertMember p a (inOrder p as)
where
  insertMember (p : Pkg) (a : Arrival) : List Arrival → List Arrival
    | [] => [a]
    | b :: bs => if keyLess (memberKey p b) (memberKey p a) then b :: insertMember p a bs else a :: b :: bs

/-- Element i of a member. -/
def elemAt (i : Nat) (a : Arrival) : Lane := a.data.getD i 0

/-- The package's partial of element i: D(die 0) ⊕ D(die 1). -/
def packagePartial (p : Pkg) (op type i : Nat) (ms : List Arrival) : Option Lane :=
  let dieSum (d : Nat) := collFold op type ((ms.filter fun a => (memberKey p a).2.1 == d).map (elemAt i))
  collFold op type ([dieSum 0, dieSum 1].filterMap id)

/-- The result of element i for member m. `before` are the partials of packages before this one, `all` those of every
package in increasing number. -/
def collElem (p : Pkg) (op type root i : Nat) (before all : List Lane) (ms : List Arrival) (m : Arrival) : Lane :=
  match op with
  | 4 => match ms.find? fun a => a.part == root with | some a => elemAt i a | none => all.getD 0 0
  | 3 =>
    let die := (memberKey p m).2.1
    let d0 := if die = 1 then collFold 0 type ((ms.filter fun a => (memberKey p a).2.1 == 0).map (elemAt i)) else none
    let own := collFold 0 type ((ms.filter fun a => (memberKey p a).2.1 == die && keyLess (memberKey p a) (memberKey p m)).map (elemAt i))
    (collFold 0 type ([collFold 0 type before, d0, own].filterMap id)).getD 0
  | _ => (collFold op type all).getD 0

/-! ## Completion of an episode (R211, R213) -/

/-- The parts of a node bound on the member cores of a group. -/
def memberParts (p : Pkg) (node g : Nat) : List Nat :=
  let n := p.node node
  (List.range n.nparts).filter fun i => (p.group g).members.testBit (p.lcoreOf (dealt p n i))

/-- The arrivals of an episode in this package (log 43). -/
def episodeOf (p : Pkg) (node g number : Nat) : List Arrival :=
  p.arrivals.filter fun a => a.node == node && a.group == g && a.number == number && a.cmd.isSome

/-- A member part has neither arrived nor ended. -/
def stillComing (p : Pkg) (node g : Nat) (as : List Arrival) : Bool :=
  (memberParts p node g).any fun i => !as.any (fun a => a.part == i) && !(p.node node).ended.contains i

/-- Arrivals that differ in what R213 compares. -/
def disagree (as : List Arrival) : Bool :=
  match as with
  | [] => false
  | a :: _ => as.any fun b => b.coll != a.coll ||
      (a.coll && (b.count != a.count || b.op != a.op || b.type != a.type || (a.op == 4 && b.root != a.root)))

/-- A broadcast whose root is not among the arrivals. -/
def rootless (as : List Arrival) : Bool :=
  match as with
  | [] => false
  | a :: _ => a.coll && a.op == 4 && !as.any fun b => b.part == a.root

/-- The status that an episode gives arrivals without one of their own (R211, R213): a member ended without arriving or faulted, or the
arrivals disagree, here or in a package that says so. -/
def episodeStatus (missing : Bool) (as : List Arrival) : Nat :=
  if missing || as.any (fun a => a.own != 0 && a.own != 0x13) then 0x12
  else if as.any (fun a => a.own == 0x13) || disagree as then 0x13
  else 0

/-- An arrival's command completes with the episode: its writes are performed and its token completes, or both wait for a
core that is not on, or for a restore. -/
def finishArrival (env : Env) (id status : Nat) (ws : List PWrite) (p : Pkg) : Pkg :=
  let p := p.modCmd id fun m => { m with writes := ws }
  if (p.cmd id).phase = .parked then p.modCmd id fun m => { m with arrivedEnd := some status }
  else
    let p := endCommand id status p
    let q := performRest env id p
    if q.2 then completeToken id status q.1 else q.1

/-- Every arrival of this package's part of the episode completes. -/
def completeEpisode (env : Env) (status : Nat) (before all : Nat → List Lane) (as : List Arrival) (p : Pkg) : Pkg :=
  let ms := inOrder p as
  let p := as.foldl (fun q a => match a.cmd with
    | none => q
    | some id =>
      let st := if a.own != 0 then a.own else status
      let c := (q.cmd id).cmd
      let value (i : Nat) : Lane := collElem p a.op a.type a.root i (before i) (all i) ms a
      let ws := if st = 0 && a.coll && a.count != 0 then
          localWrites (coreOf c.ctx) c.d.toNat ((List.range a.count).flatMap fun i => bytesOf 4 (value i).toNat) else []
      finishArrival env id st ws q) p
  match as with
  | [] => p
  | a :: _ => { p with arrivals := p.arrivals.filter fun b => !(b.node == a.node && b.group == a.group && b.number == a.number) }

/-- The packages of a gang where a group has members: this one where it has parts of the group, another as its proposal says (R384)
(log 44). -/
def memberPkgs (own pkgs : Nat) (here : Bool) (members : List (Nat × Nat)) (g : Nat) : List Nat :=
  (List.range 64).filter fun k => pkgs.testBit k && (if k = own then here else members.contains (k, g))

/-- What a package says of its part of an episode, or its result: status, shape, elements (R384) (log 44). -/
def episodeMessage (own dest kind status node g number : Nat) (empty : Bool) (part : Nat) (a : Arrival) (xs ys : List Lane) : OutMsg :=
  .message dest {
    source := own, target := dest, kind := kind, sequence := number,
    data := bytesOf 8 node ++ bytesOf 1 g ++ bytesOf 1 status ++ bytesOf 1 (b2n a.coll) ++ bytesOf 1 a.op ++ bytesOf 1 a.type ++
            bytesOf 4 a.count ++ bytesOf 4 a.root ++ bytesOf 4 part ++ bytesOf 1 (b2n empty) ++ (xs ++ ys).flatMap fun x => bytesOf 4 x.toNat }

/-- What another package has said of an episode. -/
def reportOf (p : Pkg) (node g number pkg : Nat) : Option Arrival :=
  p.arrivals.find? fun b => b.node == node && b.group == g && b.number == number && b.cmd.isNone && b.pkg == pkg

/-- The same, or what its completed share says: its parts have ended without the arrival (R211). -/
def reportAt (p : Pkg) (node g number pkg : Nat) : Option Arrival :=
  match reportOf p node g number pkg with
  | some r => some r
  | none => (p.shares.find? fun h => h.node == node && h.pkg == pkg).map fun h =>
      { node := node, group := g, number := number, part := 65536, lcore := 0, pkg := pkg, empty := true
        own := if h.groups.contains g then 0x12 else 0 }

/-- The lowest-numbered package where a group of a gang has members, which forms its totals and prefixes (R384), while the node is live
here and after. -/
def gangRoot (p : Pkg) (node g : Nat) : Nat :=
  let n := p.node node
  let ks := if p.live node then memberPkgs p.number n.pkgs (!(memberParts p node g).isEmpty) n.members g
    else match p.shares.find? fun h => h.node == node && h.pkg == p.number with
      | some h => memberPkgs p.number h.pkgs (h.groups.contains g) h.members g
      | none => []
  ks.headD p.number

/-- The packages of a node's gang other than this one, while it is live here and after. -/
def gangPkgs (p : Pkg) (node : Nat) : Nat :=
  if p.live node then (if (p.node node).gang then (p.node node).pkgs else 0)
  else ((p.shares.find? fun h => h.node == node && h.pkg == p.number).map (·.pkgs)).getD 0

/-- The packages whose parts of an episode are still to be heard: those where the group has members. -/
def gangOthersOf (p : Pkg) (node g : Nat) : List Nat :=
  let n := p.node node
  let ks := if p.live node then memberPkgs p.number n.pkgs true n.members g
    else match p.shares.find? fun h => h.node == node && h.pkg == p.number with
      | some h => memberPkgs p.number h.pkgs true h.members g
      | none => []
  ks.filter (· != p.number)

/-- The packages that an arrival's traffic goes to: those whose parts are heard where totals are formed, else the one that forms them. -/
def episodePkgs (p : Pkg) (node g : Nat) : List Nat :=
  if gangPkgs p node = 0 then [] else if gangRoot p node g = p.number then gangOthersOf p node g else [gangRoot p node g]

/-- Element i of a package's part: of a broadcast the root's. -/
def localPart (p : Pkg) (a : Arrival) (as : List Arrival) (i : Nat) : Lane :=
  if a.op = 4 then elemAt i ((as.find? fun b => b.part == a.root).getD default) else (packagePartial p a.op a.type i as).getD 0

/-- The lowest member package's part of an episode of a gang: once every package has said its own, the totals and prefixes, and their return
(R214, R384). -/
def gangTotals (env : Env) (node group number : Nat) (missing : Bool) (as : List Arrival) (others : List Nat) (p : Pkg) : Pkg :=
  let far := others.filterMap (reportAt p node group number)
  let all := as ++ far.filter fun b => !b.empty
  let a := all.headD default
  if all.isEmpty || far.length != others.length then p
  else
    let st := episodeStatus missing (far.filter (fun b => b.empty && b.own != 0) ++ all)
    let status := if st = 0 && rootless all then 0x13 else st
    let terms (i : Nat) : List (Nat × Lane) := (all.map (·.pkg)).eraseDups.filterMap fun k =>
      let from_ := all.filter fun b => b.pkg == k
      if a.op = 4 && !from_.any (fun b => b.part == a.root) then none
      else some (k, if k = p.number then localPart p a as i else elemAt i (from_.headD default))
    let total (i : Nat) : List Lane := (terms i).map (·.2)
    let upTo (k i : Nat) : List Lane := ((terms i).filter fun t => decide (t.1 < k)).map (·.2)
    let is := if status = 0 then List.range a.count else []
    let p := others.foldl (fun q k => emit (episodeMessage p.number k 6 status node group number (is.any fun i => (upTo k i).isEmpty) 65536 a
      (is.map fun i => (collFold a.op a.type (total i)).getD 0)
      (is.map fun i => (collFold 0 a.type (upTo k i)).getD 0)) q) p
    let p := completeEpisode env status (fun i => upTo p.number i) total as p
    { p with arrivals := p.arrivals.filter fun b => !(b.node == node && b.group == group && b.number == number) }

/-- Commands whose episode needs a port that has failed complete with 0x10 (R383). -/
def linkEpisode (node g number : Nat) (p : Pkg) : Pkg :=
  let as := episodeOf p node g number
  as.foldl (fun p a => match a.cmd with | some id => endCommand id 0x10 p | none => p)
    { p with arrivals := p.arrivals.filter fun b => !(as.contains b) }

/-- EPISODE_COMPLETE within one package (R211), or for a gang what the package says of its part on its way to the lowest member package,
the totals there, and their return (R384). A member package where no part arrives says so, and one whose share of the node has completed
has said so for every later episode (log 44). Where a port on the way to a package it needs has failed, the arrivals here complete with
0x10 (R383). -/
def execEpisodeComplete (node group number : Nat) (s : State) : Out :=
  let p := s.pkg
  let as := inOrder p (episodeOf p node group number)
  let pkgs := gangPkgs p node
  if number = 0 || (p.live node && stillComing p node group as) then .next s
  else
    let missing := if p.live node then (memberParts p node group).any fun i => !as.any fun a => a.part == i
      else (reportAt p node group number p.number).any fun r => r.own != 0
    let a := as.headD default
    let own := p.number
    let others := if pkgs = 0 then [] else gangOthersOf p node group
    let root := gangRoot p node group
    if !as.isEmpty && (episodePkgs p node group).any fun k => (portTo own k).any p.deadPorts.contains then s.put (linkEpisode node group number p)
    else if others.isEmpty then
      let st := episodeStatus missing as
      s.put (completeEpisode s.env (if st = 0 && rootless as then 0x13 else st) (fun _ => []) (fun i => [localPart p a as i]) as p)
    else if own = root then s.put (gangTotals s.env node group number missing as others p)
    else
      match reportOf p node group number root with
      | some r =>
        let p := completeEpisode s.env r.own (fun i => if r.empty then [] else [elemAt (a.count + i) r]) (fun i => [elemAt i r]) as p
        s.put { p with arrivals := p.arrivals.filter fun b => b != r }
      | none =>
        if (reportAt p node group number own).isSome || (memberParts p node group).isEmpty then .next s
        else
          let status := episodeStatus missing as
          let is := if status = 0 then List.range a.count else []
          let rt := if as.any fun b => b.part == a.root then a.root else 65536
          let p := emit (episodeMessage own root 5 status node group number as.isEmpty rt a (is.map (localPart p a as)) []) p
          let mine : Arrival := {
            node := node, group := group, number := number, part := 65536, lcore := 0, pkg := own, empty := as.isEmpty }
          s.put { p with arrivals := p.arrivals ++ [mine] }

/-- The groups in which a node has parts in this package. -/
def sharedGroups (p : Pkg) (node : Nat) : List Nat := (p.node node).groups.filter fun g => !(memberParts p node g).isEmpty

/-- What is said of a share that has completed, kept till every share has (log 44). -/
def addShare (h : Share) (p : Pkg) : Pkg :=
  let shares := (p.shares.filter fun k => !(k.node == h.node && k.pkg == h.pkg)) ++ [h]
  if (List.range 64).all fun k => !h.pkgs.testBit k || shares.any fun g => g.node == h.node && g.pkg == k then
    { p with shares := shares.filter fun k => k.node != h.node, arrivals := p.arrivals.filter fun b => b.node != h.node }
  else { p with shares := shares }

/-- A gang's share completes in this package: the gang's other packages hear of it, those that form totals among them (R211, R384)
(log 44). -/
def endShare (node : Nat) (p : Pkg) : Pkg :=
  let n := p.node node
  let gs := sharedGroups p node
  if !n.gang then p
  else
    let told : List Nat := (List.range 64).filter fun k => n.pkgs.testBit k && k != p.number
    let bs := bytesOf 8 node ++ bytesOf 8 n.pkgs ++ gs.flatMap (bytesOf 1)
    let say (k : Nat) : OutMsg := .message k { source := p.number, target := k, kind := 13, sequence := 0, data := bs }
    addShare { node := node, pkg := p.number, groups := gs, pkgs := n.pkgs, members := n.members }
      (told.foldl (fun q k => emit (say k) q) p)

end Sys2Proof.Machine
end

