-- ==== Sys2Proof/Machine/Notices.lean ====
section
/-! DEFINITION. Kick notices and pulls (R201 to R204). -/

namespace Sys2Proof.Machine

open Eng

/-! ## Queue and window (R40, R202, R203) -/

/-- A kick can issue: the core's kick queue or the context's replay window has room (R40). -/
def kickRoom (x : Nat) (p : Pkg) : Bool :=
  decide ((p.k (coreOf x)).kickq.length < 8) || decide ((p.c x).window.length < 8)

/-- A kick takes its entry at its issue: one of the core's kick queue, and where that is full one of the replay window, which R40 lets it
issue for and R202 and R203 do not name a place of its own (log 38). -/
def kickEnter (x id : Nat) (p : Pkg) : Pkg :=
  if (p.k (coreOf x)).kickq.length < 8 then p.modK (coreOf x) fun k => { k with kickq := k.kickq ++ [id] }
  else p.modC x fun c => { c with window := c.window ++ [id] }

/-- The notice of a kick waits refused. -/
def refusedKick (p : Pkg) (id : Nat) : Bool := p.notices.any fun n => n.cmd == id && n.sender / 512 == p.number && n.refusedAt.isSome

/-- A refused notice leaves its kick-queue entry for the window as soon as the window has room (R203). -/
def shiftWindow (x : Nat) (p : Pkg) : Pkg :=
  let k := p.k (coreOf x)
  match k.kickq.find? fun id => refusedKick p id && (p.cmd id).cmd.ctx == x && (p.cmd id).phase != .parked with
  | some id =>
    if (p.c x).window.length < 8 then
      (p.modK (coreOf x) fun k => { k with kickq := k.kickq.filter (· != id) }).modC x fun c => { c with window := c.window ++ [id] }
    else p
  | none => p

/-- A kick no longer holds its entry. -/
def kickLeave (x id : Nat) (p : Pkg) : Pkg :=
  let p := p.modK (coreOf x) fun k => { k with kickq := k.kickq.filter (· != id) }
  shiftWindow x (p.modC x fun c => { c with window := c.window.filter (· != id) })

/-! ## Kicks -/

/-- A notice's words as the sender makes them; the sequence is the receiver's (R201). -/
def noticeBytes (own lcore x : Nat) (c : Cmd) : List Byte :=
  let buf := c.c.toNat != 0
  bytesOf 4 ((if buf then 2 ^ 31 else 0) + lcore % 128 * 2 ^ 24 + own % 64 * 2 ^ 18 + x % 4 * 2 ^ 16) ++
  bytesOf 4 (if buf then c.d.toNat else 0) ++ bytesOf 4 c.c.toNat ++ bytesOf 4 c.tok ++ bytesOf 8 c.b.toNat ++ bytesOf 8 c.time

/-- The notice is ready to be offered; the token waits for its acceptance or acknowledgement (R202). -/
def ecKickWork (c : Cmd) : Eng Unit := do
  let n := c.c.toNat
  let d := c.d.toNat % 2 ^ 32
  let tp := bits c.a.toNat 13 8
  let core ← target (c.a.toNat % 128) tp
  need (n % 4 == 0 && (n == 0 || (localOk d n && decide (d < 0x2000000)))) 2
  modPkg fun p =>
    let nt : Notice := {
      id := p.nextNotice, sender := 512 * p.number + c.ctx, pkg := tp, core := core.getD (c.a.toNat % 128),
      bytes := noticeBytes p.number (p.lcoreOf (coreOf c.ctx)) c.ctx c, addr := d, len := n, node := c.node, cmd := c.id }
    ({ p with notices := p.notices ++ [nt], nextNotice := p.nextNotice + 1 }).modCmd c.id fun m => { m with phase := .arrived }

/-- EC_KICK: the command makes its accesses; one that ends at once leaves the kick queue. -/
def execEcKick (c : Cmd) (s : State) : Out :=
  match runCmd c (ecKickWork c) s with
  | .next t =>
    if (t.pkg.cmd c.id).phase = .started then .next { t with pkg := kickLeave c.ctx c.id t.pkg } else .next t
  | o => o

/-! ## Offers (R203) -/

/-- Earlier kicks of the same part to the same core whose notices have not been accepted (R110, R203) (log 38). -/
def waitsBehind (p : Pkg) (n : Notice) : Bool :=
  p.allCmds.any fun c =>
    c.unit == 12 && c.op == 3 && ownerOf c.cmd == ownerOf (p.cmd n.cmd).cmd && decide (c.cmd.id < n.cmd) &&
    bits c.cmd.a.toNat 13 8 == n.pkg &&
    (if n.pkg = p.number then p.pcoreOf (c.cmd.a.toNat % 128) == some n.core else c.cmd.a.toNat % 128 == n.core) &&
    c.phase != .started && !(p.notices.any fun m => m.cmd == c.cmd.id && m.sender / 512 == p.number && m.accepted)

/-- The linear address of the receiving core's next ring slot (R201). -/
def ringSlot (k : Core) : Nat := 0x7FFF00 + 32 * (k.ringIdx % 8)

/-- A slot has room: its header word is empty, and the core is on (R201, R391). -/
def ringRoom (p : Pkg) (core : Nat) : Bool :=
  p.powerOf core == 0 && !((p.k core).tags.get (ringSlot (p.k core) / 4))

/-- Delivery into the ring: the sequence, the words and the header, all full (R201). What the kick carries of performed writes comes
before the observation of the notice (R110) (log 22). The words and the header are written in one step, between which R201 lets others
observe the words (log 102). -/
def deliverNotice (n : Notice) (p : Pkg) : Pkg :=
  let k := p.k n.core
  let seq := (k.accepted.get n.sender + 1) % 256
  let bs := n.bytes.take 1 ++ [BitVec.ofNat 8 seq] ++ n.bytes.drop 2
  let a := ringSlot k
  let carry := if n.sender / 512 = p.number then (p.cmd n.cmd).carry else []
  let kick := p.cmd n.cmd
  let before := if n.sender / 512 = p.number then kick.cmd.closure ++ kick.after ++ [n.cmd] else []
  let p := engineWriteBy carry before n.node n.core (cellsAt a bs) (wordsOf a 32) p
  let p := p.modK n.core fun k => { k with ringIdx := (k.ringIdx + 1) % 8, accepted := k.accepted.set n.sender seq }
  { p with notices := p.notices.map fun m => if m.id = n.id then { m with accepted := true, refusedAt := none, bytes := bs } else m }

/-- After acceptance in this package: the kick without a buffer ends, one with a buffer whose receiver has no part of the
node left is acknowledged (R203). -/
def afterAccept (n : Notice) (p : Pkg) : Pkg :=
  let p := if n.sender / 512 = p.number then kickLeave (p.cmd n.cmd).cmd.ctx n.cmd p else p
  if n.len = 0 || !(partsLeft p n.node n.core) then acknowledge n.id p else p

/-- A notice is offered: accepted, refused, or its link has failed (R203) (log 38). -/
def offer (env : Env) (n : Notice) (p : Pkg) : Pkg :=
  let refuse (p : Pkg) : Pkg :=
    shiftWindow (p.cmd n.cmd).cmd.ctx
      { p with notices := p.notices.map fun m => if m.id = n.id then { m with refusedAt := some env.clock } else m }
  let sent (p : Pkg) : Pkg := { p with notices := p.notices.map fun m => if m.id = n.id then { m with sent := true } else m }
  if waitsBehind p n then refuse p
  else if n.pkg = p.number then
    if ringRoom p n.core then afterAccept n (deliverNotice n p) else refuse p
  else if edgeUp p n.pkg then
    emit (.message n.pkg { source := p.number, target := n.pkg, kind := 1, sequence := n.cmd,
                           data := bytesOf 4 n.core ++ n.bytes ++ bytesOf 8 n.node }) (sent p)
  else
    let p := { p with notices := p.notices.filter fun m => m.id != n.id }
    endCommand n.cmd 0x10 (kickLeave (p.cmd n.cmd).cmd.ctx n.cmd p)

/-- NOTICE_OFFER: a notice that has not been refused arrives at its receiving core (log 38). -/
def execNoticeOffer (nid : Nat) (s : State) : Out :=
  match s.pkg.notices.find? fun n => n.id == nid with
  | some n =>
    if !n.accepted && !n.sent && n.refusedAt.isNone && n.sender / 512 == s.pkg.number then s.put (offer s.env n s.pkg) else .next s
  | none => .next s

/-- The back-off interval of a core in clock cycles (R310). -/
def backoff (p : Pkg) (core : Nat) : Nat := bits (p.regv (0x01000018 + 0x1000 * core)) 15 0

/-- NOTICE_REOFFER: a refused notice's back-off interval has passed (log 38). -/
def execNoticeReoffer (nid : Nat) (s : State) : Out :=
  match s.pkg.notices.find? fun n => n.id == nid with
  | some n =>
    match n.refusedAt with
    | some t =>
      if !n.accepted && !n.sent && n.sender / 512 == s.pkg.number && decide (t + backoff s.pkg (coreOf (n.sender % 512)) ≤ s.env.clock) then
        s.put (offer s.env n s.pkg) else .next s
    | none => .next s
  | none => .next s

/-! ## Pulls (R111, R204) -/

/-- The accepted, unacknowledged notice that a ring slot's words name. -/
def slotNotice (p : Pkg) (core : Nat) (slot : List Byte) : Option Notice :=
  p.notices.find? fun n => n.accepted && n.pkg == p.number && n.core == core && n.len != 0 &&
    n.bytes.take 4 == slot.take 4 && (n.bytes.drop 12).take 4 == (slot.drop 12).take 4

/-- Bytes of a sender's buffer as R111 lets a pull find them. -/
def senderBytes (p : Pkg) (kick : Command) (a n : Nat) : List Byte :=
  (List.range n).map fun i =>
    let sb := spadByte (a + i)
    BitVec.ofNat 8 ((pulledWord p kick (decide (spadSize ≤ a)) (sb / 4)).toNat / 256 ^ (sb % 4))

/-- A word of a sender's buffer, or the status of its poison (R83, R111). -/
def pullWord (m : Notice) (a n : Nat) : Eng (List Byte) := do
  let p ← pkg
  let core := coreOf (m.sender % 512)
  awake core
  if (p.k core).poison.get (spadByte a / 64) then uncorrectable 0 none
  spendWord core (m.sender % 512)
  return senderBytes p (p.cmd m.cmd) a n

/-- EC_PULL (R204). Its slot is read at its issue (log 31). -/
def ecPullWork (c : Cmd) : Eng Unit := do
  let a := c.a.toNat
  let core := coreOf c.ctx
  need (0x7FFF00 ≤ a && a ≤ 0x7FFFE0 && a % 32 == 0) 2
  soundRecord
  match slotNotice (← pkg) core c.local0 with
  | none => fail 0x11
  | some n =>
    need ((field c.local0 0 4).testBit 31) 0x11
    if !(c.b.getLsbD 32) then modSelf fun m => { m with detail := n.id + 1 }
    let off := c.b.toNat % 2 ^ 32
    let len := c.c.toNat
    let d := c.d.toNat % 2 ^ 32
    need (off % 4 == 0 && len % 4 == 0 && decide (off + len ≤ n.len)) 2
    if len != 0 then
      need (localOk d len && decide (d < 0x2000000)) 2
      if n.sender / 512 = (← pkg).number then
        copyRange 4 (pullWord n) 1 (n.addr + off) d len (.core core)
        spendLocal (coreOf (n.sender % 512)) (n.sender % 512)
      else
        need (edgeUp (← pkg) (n.sender / 512)) 0x10
        modPkg fun p => (emit (.message (n.sender / 512) {
          source := p.number, target := n.sender / 512, kind := 8, sequence := n.cmd,
          data := bytesOf 8 c.id ++ bytesOf 4 off ++ bytesOf 4 len }) p).modCmd c.id fun m => { m with phase := .arrived }

/-- EC_PULL: the command makes its accesses. -/
def execEcPull (c : Cmd) (s : State) : Out := runCmd c (ecPullWork c) s

end Sys2Proof.Machine
end

