-- ==== Sys2Proof/Machine/Matrix.lean ====
section
/-! DEFINITION. Matrix commands (R215 to R233): rectangles, weight latches, macro records, array steps. -/

namespace Sys2Proof.Machine

open Eng

/-! ## Array steps (R68, R69) -/

/-- floor(log2 |x|) of a nonzero finite value. -/
def FVal.log (x : FVal) : Int := match x with | .fin _ m e => (Nat.log2 m : Int) + e | _ => 0

/-- trunc(x * 2^k), toward zero. -/
def FVal.truncAt (x : FVal) (k : Int) : Int :=
  match x with
  | .fin s m e =>
    let t : Nat := if 0 ≤ e + k then m * 2 ^ (e + k).toNat else m / 2 ^ (-(e + k)).toNat
    if s then -(t : Int) else t
  | _ => 0

/-- One column of an array step over the active pairs of activation and weight (R68). -/
def arrayStep (xs : List (FVal × FVal)) : Lane :=
  let ps := xs.map fun q => (q.1.mul q.2).1
  if ps.any FVal.isNan then 0x7FC00000
  else
    let pinf := ps.contains (.inf false)
    let ninf := ps.contains (.inf true)
    if pinf && ninf then 0x7FC00000
    else if pinf then 0x7F800000
    else if ninf then 0xFF800000
    else
      let nz := ps.filter fun p => !p.isZero
      match nz with
      | [] => if !ps.isEmpty && ps.all FVal.sign then 0x80000000 else 0
      | p :: rest =>
        let e := rest.foldl (fun a q => max a q.log) p.log
        exactF32 (FVal.ofInt (nz.foldl (fun a q => a + q.truncAt (30 - e)) 0) (e - 30))

/-- The integer path (R68): both operands i8. -/
def arrayStepInt (xs : List (Int × Int)) : Lane := BitVec.ofInt 32 (xs.foldl (fun a q => a + q.1 * q.2) 0)

/-- Scaled formats whose scales travel with their elements (R53). -/
def isMx (fmt : Nat) : Bool := decide (6 ≤ fmt ∧ fmt ≤ 10)

/-! ## Rectangles (R218, R219) -/

/-- A rectangle of tiles: the member rows, the joined columns, the die (0 when joined). -/
structure Rect where
  die    : Nat
  joined : Bool
  rows   : List Nat
  ca     : Nat
  cb     : Nat
  deriving DecidableEq, Repr, Inhabited

def Rect.kt (r : Rect) : Nat := r.cb + 1 - r.ca
def Rect.nt (r : Rect) : Nat := r.rows.length
/-- Tile (kt, nt). -/
def Rect.tile (r : Rect) (kt nt : Nat) : Nat :=
  let c := r.ca + kt
  tileIndex (if r.joined then c / 64 else r.die) (r.rows.getD nt 0) (c % 64)
/-- Its tiles in increasing order of die, row and column (R219). -/
def Rect.tiles (r : Rect) : List Nat :=
  let of_ (d : Nat) : List Nat := (List.range r.nt).flatMap fun nt => (List.range r.kt).filterMap fun kt =>
    if r.tile kt nt / 2304 = d then some (r.tile kt nt) else none
  of_ 0 ++ of_ 1
/-- The core whose accumulator a member row's sums end in (R18, R218). -/
def Rect.accCore (r : Rect) (nt : Nat) : Nat := 36 * (if r.joined then 1 else r.die) + r.rows.getD nt 0

/-- A command's rectangle (R218). -/
def rectOf (c : Cmd) (g : Nat) (joinedOk : Bool) : Eng Rect := do
  need (c.groups.contains g) 0x0F
  let p ← pkg
  let gr := p.group g
  let cores := (coreSet gr.members).filterMap p.pcoreOf
  let rows := cores.map (· % 36)
  let own := dieOf (coreOf c.ctx)
  need (gr.valid && !cores.isEmpty) 0x21
  if cores.all (fun n => dieOf n == own) && decide (gr.cb ≤ 63) then
    return { die := own, joined := false, rows := rows, ca := gr.ca, cb := gr.cb }
  else
    need (joinedOk && own == 0 && cores.all (fun n => dieOf n == 0) && rows.all (fun r => p.inService (36 + r)) &&
      decide (gr.ca ≤ 63 ∧ 63 < gr.cb)) 0x21
    return { die := 0, joined := true, rows := rows, ca := gr.ca, cb := gr.cb }

/-- Every tile is taken in order; at one that another command holds, the command waits with those it has (R219). -/
def takeTiles (id : Nat) : List Nat → Eng Unit
  | [] => pure ()
  | t :: ts => do
    let tl := (← pkg).tiles.get t
    match tl.owner with
    | some o => if o != id then wait
    | none =>
      modPkg fun p => ({ p with tiles := p.tiles.modify t fun l => { l with owner := some id } }).modCmd id fun c =>
        { c with tiles := c.tiles ++ [t] }
    takeTiles id ts

/-- TILE_TAKE: a command that waits for a tile goes on when the tile it has come to is free. -/
def execTileTake (id : Nat) (s : State) : Out :=
  let p := s.pkg
  let c := p.cmd id
  if p.present id && c.phase = .waiting && c.unit == 13 && decide (1 ≤ c.op ∧ c.op ≤ 4) && !(p.held.any fun h => h.cmd == some id) then
    s.put (p.push [.run c.instr])
  else .next s

/-! ## Latches (R217, R220 to R222) -/

def modTile (t : Nat) (f : Tile → Tile) (p : Pkg) : Pkg := { p with tiles := p.tiles.modify t f }

/-- The leaf of a columned page; a page of another kind gives 0x08, once it is found not to be retired (R86, R329). -/
def columnedLeaf (va : Nat) : Eng Leaf := do
  let l ← translate va false false
  need (leafKind l.entry == 1) 8
  return l

/-- Where a byte of a columned page is read by a region's record and the page's leaf: the node's stage page of it, or its plane. -/
def columnedPlace (r : Shape) (va : Nat) (l : Leaf) : Eng Nat := do
  let p ← pkg
  let node := (← read).cmd.node
  let k := match if inOutput p node va then stageOf p node va else none with
    | some sp => stagePlace p sp va
    | none => columnPlace r l va
  reach va k
  return k

/-- One sector of a columned page, and 32 bytes of the side slot of its plane. -/
def columnedSector (r : Shape) (leaf : Nat → Eng Leaf) (va n : Nat) : Eng (List Byte) := do
  readPlace va (← columnedPlace r va (← leaf va)) n false
def sideSector (r : Shape) (leaf : Nat → Eng Leaf) (va o : Nat) : Eng (List Byte) := do
  let k ← columnedPlace r va (← leaf va)
  return (← pkg).side.getMany (sideAt (dpaTile k) (dpaPlane k) + o) 32

/-- The addresses of the planes of a region's block-plane q in tile (kt, nt) (R87). -/
def blockPlanes (r : Shape) (pb q kt nt : Nat) : List Nat :=
  (List.range pb).map fun i => r.base + 4096 * blockGranule r ⟨64, 8, 64, pb, 0⟩ q kt nt i

/-- The planes and side slots of a region's block-plane q in tile (kt, nt), read through their pages' leaves, each sector by itself (R87,
R88, R98). -/
def readBlock (r : Shape) (leaf : Nat → Eng Leaf) (pb q kt nt : Nat) : Eng (List Byte × List Byte) := do
  let vas := blockPlanes r pb q kt nt
  let ws ← anyOrder (vas.flatMap fun va => (blocks 32 va 4096).map fun q => columnedSector r leaf q.1 q.2)
  let sd ← anyOrder (vas.flatMap fun va => (List.range 8).map fun i => sideSector r leaf va (32 * i))
  settle
  return (ws.flatMap Answer.data, sd.flatMap Answer.data)

/-- Planes that one block of a format takes. -/
def planesOf (fmt : Nat) : Nat := if fmt = 1 ∨ fmt = 2 then 2 else 1

/-- The shadow latches of tiles emptied. -/
def emptyShadows (ts : List Nat) (p : Pkg) : Pkg := ts.foldl (fun p t => modTile t (fun l => { l with shadow := {} }) p) p

/-- The checks of ECX_WLD, made once at its start (R90, R220); a reserved field gives the record-format status (R6). -/
def checkWld (c : Cmd) (r : Shape) : Eng Unit := do
  let fa := c.hdr.fa.toNat
  need (r.reserved == 0) 1
  need (r.layout != 0 && r.layout / 2 ^ 28 == fa && r.layout == c.d.toNat % 2 ^ 32) 8
  let rc ← rectOf c (c.b.toNat % 256) true
  need (!rc.joined) 0x21
  need (r.legal && rc.die == r.die && rc.rows == memberRows r.rows && rc.ca == r.c0 && rc.cb + 1 == r.c0 + r.kt) 0x21
  need (decide (c.c.toNat < r.planes / planesOf fa)) 0x23

/-- The pages of a slot of a region. -/
def slotPages (r : Shape) (pb q : Nat) : List Nat :=
  ((List.range r.nt).flatMap fun nt => (List.range r.kt).flatMap fun kt =>
    (blockPlanes r pb q kt nt).map fun va => va / 65536 * 65536).eraseDups

/-- The leaves of the pages of a slot, once for the command at its start (R332). -/
def translateSlot (r : Shape) (pb q : Nat) : Eng (List Byte) := do
  for va in slotPages r pb q do discard (columnedLeaf va)
  let ls := (← get).leaves
  modSelf fun m => { m with leaves := ls }
  return []

/-- The fill of one tile's shadow latch: its block is read by the leaves that the command has taken, and the latch is set whole. -/
def fillTile (c : Cmd) (r : Shape) (ti kt nt : Nat) : Eng Unit := do
  let fa := c.hdr.fa.toNat
  let b ← readBlock r leafFor (planesOf fa) c.c.toNat kt nt
  discard (access do
    modPkg (modTile ti fun l => { l with shadow :=
      { valid := true, fmt := fa, layout := c.d.toNat % 2 ^ 32, base := c.a.toNat % 2 ^ 56, slot := c.c.toNat, asid := c.asid,
        weights := b.1, side := b.2 } })
    return [])

/-- ECX_WLD (R220). The record is read, the checks are made and every page is translated once, at its start (R332). Each tile's fill takes
effect whole and apart from the others (R221, R230); a fault during the fills leaves every shadow latch of the rectangle empty, a page of
another kind changes none (R86). -/
def ecxWldWork (c : Cmd) : Eng Unit := do
  let pb := planesOf c.hdr.fa.toNat
  let r ← regionOnce c.asid (c.a.toNat % 2 ^ 56) 8
  discard (access do
    checkWld c r
    return [])
  let rc ← rectOf c (c.b.toNat % 256) true
  let fills ← attempt (do
    discard (access (translateSlot r pb c.c.toNat))
    each ((List.range rc.nt).flatMap fun nt => (List.range rc.kt).map fun kt => fillTile c r (rc.tile kt nt) kt nt))
  match fills with
  | .error n =>
    if n != 8 then modPkg (emptyShadows rc.tiles)
    fail n
  | .ok _ => return ()

/-- The shadow latches of a weight load whose fills a fault ends are empty (R220). -/
def emptyFills (env : Env) (c : Cmd) (p : Pkg) : Pkg :=
  match rectOf c (c.b.toNat % 256) true ⟨env, c⟩ { p := p } with
  | .ok rc _ => emptyShadows rc.tiles p
  | .error _ _ => p

/-- ECX_WLD: the command makes its accesses. -/
def execEcxWld (c : Cmd) (s : State) : Out := runCmd c (ecxWldWork c) s

/-- The latches of tiles exchanged whole (R222). -/
def swapLatches (ts : List Nat) (p : Pkg) : Pkg :=
  ts.foldl (fun p t => modTile t (fun l => { l with active := l.shadow, shadow := l.active }) p) p

/-- A fill is under way: some of its block has been read, and its latch is not set yet. -/
def fillBegun (l : List Answer) : Bool :=
  (l.any fun a => match a with | .bytes bs => !bs.isEmpty | _ => false) && l.getLast? != some (.bytes [])

/-- The tiles whose shadow latches are being filled (R221): the parts of a weight load are its region's tiles, row by row. -/
def fillsUnderWay (p : Pkg) : List Nat :=
  p.allCmds.flatMap fun m =>
    match if m.unit = 13 ∧ m.op = 0 then m.region else none with
    | none => []
    | some r => m.parts.zipIdx.filterMap fun q => if fillBegun q.1 then
        some (tileIndex r.die ((memberRows r.rows).getD (q.2 / r.kt) 0) (r.c0 + q.2 % r.kt)) else none

/-- An exchange of the latches of tiles waits for the fills under way on them (R221, R230). -/
def waitFills (ts : List Nat) : Eng Unit := do
  let busy := fillsUnderWay (← pkg)
  if ts.any busy.contains then wait

/-- ECX_SWAP (R222). -/
def ecxSwapWork (c : Cmd) : Eng Unit := do
  let rc ← rectOf c (c.b.toNat % 256) true
  takeTiles c.id rc.tiles
  waitFills rc.tiles
  modPkg (swapLatches rc.tiles)

/-- ECX_SWAP: the command makes its accesses. -/
def execEcxSwap (c : Cmd) (s : State) : Out := runCmd c (ecxSwapWork c) s

/-- The weight at reduction index k, column j of a latch's block (R226, R227). -/
def weightAt (p : Pkg) (die : Nat) (l : Latch) (x : Bool) (k j : Nat) : FVal :=
  let f := blockForm l.fmt
  let cb := l.fmt = 13 ∨ l.fmt = 14
  let k' := if cb then k / 8 else k
  let raw := packedUnit f.w l.weights (if x then f.ku * j + k' else 64 * k' + j)
  let sc := if f.bs = 0 then 127 else field l.side (64 * (k / f.bs) + j) 1
  if l.fmt = 13 then scaled sc (cb2Weight (cbtEntry p die 0) raw (k % 8))
  else if l.fmt = 14 then scaled sc (cb3Weight (cbtEntry p die 1) raw (k % 8))
  else scaled sc (elementValue l.fmt raw)

/-- The i8 weight of the integer path. -/
def weightInt (l : Latch) (x : Bool) (k j : Nat) : Int :=
  sextNat 8 (packedUnit 8 l.weights (if x then 64 * j + k else 64 * k + j))

/-! ## Macro records (R223, R224) -/

structure Feeder where
  core : Nat
  kt0  : Nat
  nk   : Nat
  o    : Nat
  deriving DecidableEq, Repr, Inhabited

structure MacroRec where
  m    : Nat
  kt   : Nat
  nt   : Nat
  lb   : Nat
  add  : Bool
  tag  : Bool
  x    : Bool
  ne   : Nat
  join : Bool
  ke   : Nat
  feeders : List Feeder
  deriving DecidableEq, Repr, Inhabited

/-- The 48 bits of feeder entry i. -/
def feederBits (b : List Byte) (i : Nat) : Nat := field b (8 + 6 * i) 6

def macroOf (b : List Byte) : MacroRec :=
  let w := field b 4 2
  { m := field b 0 2, kt := field b 2 1, nt := field b 3 1, lb := bits w 12 0, add := w.testBit 13, tag := w.testBit 14,
    x := w.testBit 15, ne := bits (field b 6 1) 5 0, join := (field b 6 1).testBit 6, ke := field b 7 1,
    feeders := ((List.range 4).map (feederBits b)).filterMap fun f =>
      if f.testBit 7 then some ⟨bits f 6 0, bits f 14 8, bits f 22 16 + 1, bits f 41 24 * 32⟩ else none }

/-- Reserved bits are 0 and every field is in its range (R223). -/
def macroOk (b : List Byte) : Bool :=
  let r := macroOf b
  !(field b 6 1).testBit 7 && decide (r.m ≤ 8192 ∧ r.kt ≤ 128 ∧ r.nt ≤ 36 ∧ r.lb + r.m ≤ 8192) &&
  (List.range 4).all fun i =>
    let f := feederBits b i
    if f.testBit 7 then !f.testBit 15 && !f.testBit 23 && bits f 47 42 == 0 else f == 0

/-- The slice pitch S (R224). -/
def slicePitch (fa kd : Nat) : Nat := 32 * ceilDiv (kd * fmtWidth fa / 8 + (if isMx fa then kd / 32 else 0)) 32

/-- The feeder rules, in their order, for `slices` slices of each stripe column (R224). -/
def checkFeeders (c : Cmd) (rc : Rect) (r : MacroRec) (pitch slices : Nat) : Eng Unit := do
  let p ← pkg
  let n := p.node c.node
  need (r.feeders.all fun f => n.cores.testBit f.core) 0x0F
  let dieCol (kt : Nat) : Nat := if rc.joined then (rc.ca + kt) / 64 else rc.die
  need (!r.feeders.isEmpty &&
    (List.range (max r.kt 256)).all (fun kt =>
      (r.feeders.filter fun f => decide (f.kt0 ≤ kt ∧ kt < f.kt0 + f.nk)).length == (if kt < r.kt then 1 else 0)) &&
    r.feeders.all fun f =>
      dieCol f.kt0 == dieCol (f.kt0 + f.nk - 1) && dieOf ((p.pcoreOf f.core).getD 999) == dieCol f.kt0) 0x22
  need (r.feeders.all fun f => decide (f.o + slices * f.nk * pitch ≤ 0x800000)) 2

/-- A word of a feed area at a swizzled offset (R225). -/
def sliceWord (c : Cmd) (core o : Nat) : Eng (List Byte) := do
  awake core
  let p ← pkg
  let a := swz o
  if (p.k core).poison.get (a / 64) then uncorrectable 0 none
  let m := p.cmd c.id
  let w := if core = coreOf c.ctx then engineWord p m true (a / 4) else feederWord p m core (a / 4)
  spendWord core c.ctx
  return bytesOf 4 w.toNat

/-- The core and the swizzled offset of slice s for tile column kt (R224). -/
def sliceAt (p : Pkg) (r : MacroRec) (pitch s kt : Nat) : Option (Nat × Nat) :=
  (r.feeders.find? fun f => decide (f.kt0 ≤ kt ∧ kt < f.kt0 + f.nk)).map fun f =>
    ((p.pcoreOf f.core).getD 0, f.o + (s * f.nk + (kt - f.kt0)) * pitch)

/-- The bytes of slices, each given by its number and its tile column, the words read in any order (R224, R225). -/
def readSlices (c : Cmd) (r : MacroRec) (pitch : Nat) (ss : List (Nat × Nat)) : Eng (List (List Byte)) := do
  let p ← pkg
  let as ← ss.mapM fun q => match sliceAt p r pitch q.1 q.2 with
    | some f => anyOrder ((List.range (pitch / 4)).map fun i => sliceWord c f.1 (f.2 + 4 * i))
    | none => return []
  settle
  for core in ((ss.filterMap fun q => (sliceAt p r pitch q.1 q.2).map (·.1)).eraseDups) do spendLocal core c.ctx
  return as.map fun row => row.flatMap Answer.data

/-- The activation at index k of a slice (R224, R226). -/
def activationAt (fa kd : Nat) (slice : List Byte) (k : Nat) : FVal :=
  let w := fmtWidth fa
  scaled (if isMx fa then field slice (kd * w / 8 + k / 32) 1 else 127) (elementValue fa (packedUnit w slice k))

/-- The i8 activation of the integer path. -/
def activationInt (slice : List Byte) (k : Nat) : Int := sextNat 8 (packedUnit 8 slice k)

/-- The partial of one column over the tiles of a row, west to east (R17, R69, R227). -/
def chainPart (intPath : Bool) (steps : List Lane) : Lane :=
  steps.foldl (fun a x => if intPath then a + x else laneOf (addF32 a x)) 0

/-- The step of a tile's latch for column j (R227). -/
def tileStep (p : Pkg) (ti : Nat) (l : Latch) (fa : Nat) (intPath x : Bool) (act : Nat → Bool) (slice : List Byte) (j : Nat) : Lane :=
  let kd := (blockForm l.fmt).kd
  let ks := (List.range kd).filter act
  if intPath then arrayStepInt (ks.map fun k => (activationInt slice k, weightInt l x k j))
  else arrayStep (ks.map fun k => (activationAt fa kd slice k, weightAt p (ti / 2304) l x k j))

/-- The mode of an accumulator write (R227). -/
def accMode (add intPath : Bool) : Nat := if add then (if intPath then 2 else 1) else 0

/-- The columns of a member row that are not masked off (R223). -/
def activeCols (r : MacroRec) (nt : Nat) : List Nat :=
  (List.range 64).filter fun j => !(nt + 1 == r.nt && r.ne != 0 && decide (r.ne ≤ j))

/-- The steps that one vector makes in a tile's columns, as the die's codebook tables stand (R57, R227). -/
def tileSteps (p : Pkg) (rc : Rect) (r : MacroRec) (fa : Nat) (intPath : Bool) (nt kt : Nat) (slice : List Byte) : List Byte :=
  let ti := rc.tile kt nt
  let act (k : Nat) : Bool := !(kt + 1 == r.kt && r.ke != 0) || decide (k < r.ke)
  (List.range 64).flatMap fun j => bytesOf 4 (tileStep p ti (p.tiles.get ti).active fa intPath r.x act slice j).toNat

/-- Lane j of a tile's steps. -/
def stepLane (bs : List Byte) (j : Nat) : Lane := BitVec.ofNat 32 (field bs (4 * j) 4)

/-- The words that one vector gives one member row, from the steps of its tiles, west to east (R227). -/
def vectorWords (r : MacroRec) (intPath : Bool) (m nt : Nat) (steps : List (List Byte)) : List (Nat × Lane) :=
  (activeCols r nt).map fun j => (64 * (r.lb + m) + j, chainPart intPath (steps.map fun bs => stepLane bs j))

/-- A latch of a member row is in parity error (R217). -/
def badRow (p : Pkg) (rc : Rect) (r : MacroRec) (nt : Nat) : Bool :=
  (List.range r.kt).any fun kt => (p.tiles.get (rc.tile kt nt)).active.parity

/-- What the last access of an admitted vector answers (R231). -/
def admitted : List Byte := [1]

/-- One vector of a macro: its slices, its steps in every tile, each with the tables as they stand then (R57), then its lines of every
member row whose latches are sound (R217, R227) (log 34). -/
def vectorWork (c : Cmd) (rc : Rect) (r : MacroRec) (fa fb m : Nat) : Eng Unit := do
  let intPath := fa == 11 && fb == 11
  let slices ← readSlices c r (slicePitch fa (blockForm fb).kd) ((List.range r.kt).map fun kt => (m, kt))
  let as ← anyOrder ((List.range r.nt).flatMap fun nt => (List.range r.kt).map fun kt => do
    return tileSteps (← pkg) rc r fa intPath nt kt (slices.getD kt []))
  settle
  discard (access do
    let p ← pkg
    for nt in (List.range r.nt).filter (fun nt => !badRow p rc r nt) do
      discard (emitWrite (.acc (rc.accCore nt) (accMode r.add intPath)
        (vectorWords r intPath m nt (((as.drop (nt * r.kt)).take r.kt).map Answer.data)) (if r.tag then [r.lb + m] else [])))
    return admitted)

/-- The vectors of a macro from `from_` on, in any order. A latch found in parity error is emptied, no line of its member row is
written, and the macro completes with 0x07, its other lines as R232 leaves them (R217, R351) (log 34). -/
def stepLines (c : Cmd) (rc : Rect) (r : MacroRec) (fa fb from_ : Nat) : Eng Unit := do
  each (((List.range r.m).drop from_).map (vectorWork c rc r fa fb))
  let p ← pkg
  let bad (ti : Nat) : Bool := (p.tiles.get ti).active.parity
  match rc.tiles.find? bad with
  | none => return ()
  | some ti =>
    let v ← read
    modPkg fun p => (rc.tiles.filter bad).foldl (fun p t => modTile t (fun l => { l with active := {} }) p) p
    modPkg (postRecord { engineRecord v.env.dtime 9 0 7 c 0 none with tile := ti })
    fail 7

/-- Check 7 of R227 over the latches that the macro will use. -/
def checkLatches (c : Cmd) (ls : List Latch) (fb : Nat) (x : Bool) : Eng Unit := do
  need (ls.all fun l => l.valid && l.asid == c.asid) 0x24
  need (ls.all fun l => l.fmt == fb) 0x20
  need (ls.all fun l => l.layout.testBit 27 == x) 8

/-- Checks 1 and 2 of R227. -/
def macroRecord (c : Cmd) : Eng MacroRec := do
  need (linear c.a.toNat 32 32) 2
  soundRecord
  need (macroOk c.local0) 1
  return macroOf c.local0

/-- Accesses for an ASID that a latch records (R231). -/
def withAsid {α : Type} (asid : Nat) (m : Eng α) : Eng α := fun v => m { v with cmd := { v.cmd with asid := asid } }

/-- A latch that a suspended macro's tile held, refilled from its recorded slot for its recorded ASID; a region that is gone is the
layout fault of a weight load (R231) (log 46). -/
def refill (ti : Nat) (l : Latch) : Eng Latch := withAsid l.asid do
  let r ← regionIn l.asid l.base 8
  let kt := ti % 64 - r.c0
  let nt := (memberRows r.rows).findIdx (· == ti % 2304 / 64)
  let b ← readBlock r columnedLeaf (planesOf l.fmt) l.slot kt nt
  return { l with weights := b.1, side := b.2, parity := false }

/-- What a macro that resumes after a suspension does first: latches that were valid are refilled, and those that were empty are left
as they are (R231). -/
def resumeLatches : Eng Unit := do
  if (← self).saved.isEmpty then return ()
  for q in (← self).saved do
    if q.2.1.valid then
      let l ← refill q.1 q.2.1
      modPkg (modTile q.1 fun t => { t with active := l })
    if q.2.2.valid then
      let l ← refill q.1 q.2.2
      modPkg (modTile q.1 fun t => { t with shadow := l })
  modSelf fun m => { m with saved := [] }
  modify fun w => { w with replay := [], got := [] }

/-- `ecx.mx` and `ecx.mxs` (R227 to R230). -/
def runMacro (c : Cmd) (swap : Bool) : Eng Unit := do
  let r ← macroRecord c
  if r.m = 0 ∨ r.kt = 0 ∨ r.nt = 0 then return ()
  let rc ← rectOf c (c.b.toNat % 256) true
  need (r.kt == rc.kt && r.nt == rc.nt && r.join == rc.joined) 0x21
  let fa := c.hdr.fa.toNat
  let fb := c.hdr.fb.toNat
  need (decide (1 ≤ fa ∧ fa ≤ 11 ∧ 1 ≤ fb ∧ fb ≤ 14)) 0x20
  let kd := (blockForm fb).kd
  need (decide (r.ke < kd)) 1
  checkFeeders c rc r (slicePitch fa kd) r.m
  takeTiles c.id rc.tiles
  resumeLatches
  if swap && !(← self).swapped then waitFills rc.tiles
  let p ← pkg
  let m := p.cmd c.id
  if m.progress = 0 then
    let ls := rc.tiles.map fun t => if swap && !m.swapped then (p.tiles.get t).shadow else (p.tiles.get t).active
    checkLatches c ls fb r.x
  if swap && !m.swapped then
    modPkg fun p => (swapLatches rc.tiles p).modCmd c.id fun m => { m with swapped := true }
  stepLines c rc r fa fb m.progress

def ecxMxWork (c : Cmd) : Eng Unit :=
  runMacro c false

/-- ECX_MX: the command makes its accesses. -/
def execEcxMx (c : Cmd) (s : State) : Out := runCmd c (ecxMxWork c) s
def ecxMxsWork (c : Cmd) : Eng Unit :=
  runMacro c true

/-- ECX_MXS: the command makes its accesses. -/
def execEcxMxs (c : Cmd) (s : State) : Out := runCmd c (ecxMxsWork c) s

/-! ## Codebook tables (R233) -/

/-- ECX_CBT: entries of the issuing core's die, each read and written by itself (R57, R233). -/
def ecxCbtWork (c : Cmd) : Eng Unit := do
  let b := c.b.toNat
  let e := bits b 31 16
  let n := c.c.toNat
  need ((← pkg).node c.node).cbright 0x25
  need (bits b 15 1 == 0) 0x0E
  let size := if b % 2 = 0 then 256 else 8192
  if n = 0 then return ()
  need (decide (n ≤ size ∧ e + n ≤ size)) 0x0E
  need (c.a.toNat % 4 == 0) 3
  let at_ := 16384 * dieOf (coreOf c.ctx) + 8192 * (b % 2) + e
  let qs := blocks 32 c.a.toNat (4 * n)
  let found := bytesFound qs (← anyOrder (qs.map fun q => readSector q.1 q.2))
  discard (anyOrder ((List.range n).map fun i =>
    match bytesThere found (4 * i) 4 with
    | none => throw .pause
    | some bs => emitWrite (.cbt (at_ + i) (BitVec.ofNat 32 (natOf bs)))))
  settle

/-- ECX_CBT: the command makes its accesses. -/
def execEcxCbt (c : Cmd) (s : State) : Out := runCmd c (ecxCbtWork c) s

/-! ## Suspension (R231) -/

/-- A vector's log holds no write yet. -/
def notAdmitted (l : List Answer) : Bool := l.all fun a => match a with | .bytes bs => bs.length != 1 | _ => true

/-- How many vectors a macro's logs admit, where those are the first of them (R231). -/
def admittedPrefix : List (List Answer) → Option Nat
  | [] => some 0
  | l :: ls =>
    if l.getLast? = some (.bytes admitted) then (admittedPrefix ls).map (· + 1)
    else if (l :: ls).all notAdmitted then some 0
    else none

/-- The vectors of a macro, over all the entries of a list (R227, R234). -/
def vectorsOf (c : Command) : Nat :=
  let r := macroOf c.cmd.local0
  if c.op = 3 then r.m * field (c.cmd.local0.drop 32) 0 4 else r.m

/-- A macro can be suspended: the vectors that it has admitted are its first, and what they write can be performed (log 46). -/
def suspendable (p : Pkg) (c : Command) : Bool :=
  (c.phase == .started || (admittedPrefix c.parts).isSome) && c.writes.all fun w => match w with
    | .acc core _ _ _ => p.powerOf core == 0
    | _ => true

/-- A macro's tiles are reclaimed: the vectors it has admitted are finished, no other is touched, the latches' records are kept, the
tiles are released (R231, R234) (log 46). -/
def suspendMacro (env : Env) (id : Nat) (p : Pkg) : Pkg :=
  let c := p.cmd id
  let p := (performRest env id p).1
  let saved := c.tiles.map fun t => (t, (p.tiles.get t).active, (p.tiles.get t).shadow)
  let p := { p with tiles := c.tiles.foldl (fun m t => m.modify t fun tl => { tl with owner := none }) p.tiles }
  p.modCmd id fun m =>
    let n := if c.phase = .started then vectorsOf c - m.progress else (admittedPrefix m.parts).getD 0
    { m with phase := if c.phase = .started && m.status != 0 then .started else .waiting
             progress := m.progress + n, log := [], parts := []
             saved := if m.saved.isEmpty then saved else m.saved, tiles := [] }

end Sys2Proof.Machine
end

