-- ==== Sys2Proof/Machine/Landing.lean ====
section
/-! DEFINITION. Core control registers (R310, R312), the freeze by `sys.halt` (R316), and the landing of in-flight entries
(R43, R66, R130). -/

namespace Sys2Proof.Machine

/-! ## Core control registers (R310) -/

/-- The device-register address of a core control register. -/
def coreReg (n off : Nat) : Nat := 0x01000000 + 0x1000 * n + off

/-- The code of a state in CTX_STATE. -/
def phaseCode : Phase → Nat
  | .unbound => 0 | .ready => 1 | .running => 2 | .blocked => 3 | .sleeping => 4 | .draining => 5 | .frozen => 6

/-- What a core control register reads; none for an offset without one. -/
def coreRegRead (p : Pkg) (n off : Nat) : Option Nat :=
  match off with
  | 0x000 => some (65536 * (n / 36) + 256 * (if p.inService n then p.lcoreOf n else 0x7F) + n)
  | 0x008 => some (p.regv (coreReg n 0x008))
  | 0x010 => some (p.regv (coreReg n 0x010))
  | 0x018 => some (p.regv (coreReg n 0x018))
  | 0x020 => some (digits 4 ((List.range 4).map fun c => phaseCode (p.c (4 * n + c)).phase))
  | 0x028 => some (digits 8 ((List.range 4).map fun c => if (p.c (4 * n + c)).phase = .frozen then (p.c (4 * n + c)).cause else 0))
  | 0x030 => some 1
  | _ => none

/-- A write of a core control register; RO ones ignore it. -/
def coreRegWrite (n off v : Nat) (p : Pkg) : Pkg :=
  match off with
  | 0x008 => p.setReg (coreReg n off) (max 64 (min 256 (v % 512)))
  | 0x010 =>
    let w := v % 2 ^ 32
    p.setReg (coreReg n off) (if 1 ≤ w ∧ w < 16384 then 16384 else w)
  | 0x018 => p.setReg (coreReg n off) (max 1 (v % 65536))
  | _ => p

/-! ## Freezes by an operation (R315, R316) -/

/-- A bound context that is neither draining nor frozen freezes with cause 0x28 at its next bundle (log 78). -/
def freezeBy (x : Nat) (p : Pkg) : Pkg :=
  match (p.c x).phase with
  | .unbound => p
  | .draining => p
  | .frozen => p
  | _ => freezeCtx x 0x28 p

/-- `sys.halt` takes effect (R316). -/
def haltEffect (env : Env) (x : Nat) (whole : Bool) (p : Pkg) : Pkg :=
  let xs := if whole then (List.range 4).map fun c => 4 * coreOf x + c else [x]
  xs.foldl (fun p y =>
    let old := (p.c y).phase
    let p := p.modC y fun c => { c with watchdog := watchdogCount env c }
    let p := freezeBy y p
    if whole && old != .frozen && (p.c y).phase == .frozen then p.modC y fun c => { c with halted := true } else p) p

/-- `sys.cwr` lands (R312). -/
def cwrEffect (x : Nat) (e : Entry) (p : Pkg) : Pkg :=
  let n := e.b.toNat % 8192
  let b := n % 256
  let y := 4 * coreOf x + e.a.toNat % 4
  if 4096 ≤ n then coreRegWrite (coreOf x) (n - 4096) e.d.toNat p
  else if 0x0C0 ≤ b ∧ b ≤ 0x0DA ∧ b ≠ 0x0D7 ∧ y ≠ x ∧ ((p.c y).phase = .frozen ∨ (p.c y).phase = .unbound) then
    p.modC y fun c => c.setCr b e.d
  else p

/-! ## Landing -/

/-- A fixed register written by an entry. -/
def landFixed (c : Ctx) (q : Fixed × Word) : Ctx :=
  match q.1 with
  | .s31 => { c with s := c.s.set 31 q.2 }
  | .lc => c.setCr 0x0D4 q.2
  | .lcx => c.setCr 0x0D5 q.2
  | .pred n => { c with p := setPred c.p n (q.2 != 0) }
  | .rrb => c.setCr 0x0D6 q.2
  | .sc => c.setCr 0x0D2 q.2

/-- A result port receives its value (R127). -/
def landPort (code : Nat) (v : Val) (c : Ctx) : Ctx :=
  if vectorPort code then { c with vport := c.vport.set code v.toV } else { c with rport := c.rport.set code v.toS }

/-- Ports, flags, maximum and fixed registers of an entry (R66, R67, R127). -/
def landResult (e : Entry) (c : Ctx) : Ctx :=
  let c := match e.r with | some v => landPort (0x070 + e.unit) v c | none => c
  let c := match e.h with
    | some v => if e.unit = 2 then landPort 0x082 (.s (v.setWidth 64)) c else landPort (0x080 + e.unit) (.v v) c
    | none => c
  let c := landFlags (e.flags ||| (if e.ns then BitVec.ofNat 32 fNS else 0)) c
  e.fixed.foldl landFixed (landAmax e.amax c)

/-- An entry lands at its context's issue cycle (log 29). -/
def landEntry (env : Env) (x : Nat) (e : Entry) (p : Pkg) : Pkg :=
  match e.kind with
  | .result => p.modC x (landResult e)
  | .store => landStore x e p
  | .branch => p.modC x fun c => e.fixed.foldl landFixed c
  | .check => if mismatches e then p.modC x fun c => { c with check := some (e.trig, b2n (guarding e.op)) } else p
  | .sysop => if e.op = 10 then haltEffect env x (e.b.getLsbD 0) p else cwrEffect x e p

/-- A pending store of a context that would add to or compare with an accumulator word that is uncorrectable once the stores before it
have been made (R84, R156) (log 33). -/
def badStore (k : Core) (c : Ctx) (e : Entry) : Bool :=
  e.kind == .store && !e.done && e.store.any fun st => st.mode != 0 && st.acc.any fun a =>
    k.badAcc.get a.1 && badAfter ((c.flight.takeWhile fun d => d.order != e.order).filterMap fun d =>
      if d.kind == .store && !d.done then d.store else none) a.1 true

/-- A bad store among those that something performs (log 33). -/
def badAmong (x : Nat) (which : Entry → LStore → Bool) (p : Pkg) : Bool :=
  let c := p.c x
  c.flight.any fun e => badStore (p.k (coreOf x)) c e && e.store.any (which e)

/-- Some pending store is bad (log 33). -/
def badPending (x : Nat) (p : Pkg) : Bool := badAmong x (fun _ _ => true) p

/-- The stores that the landing at hand performs: those due, and those ordered before one that is (R153). -/
def dueStore (c : Ctx) (e : Entry) (st : LStore) : Bool :=
  e.left == 1 || c.flight.any fun d => d.kind == .store && !d.done && d.left == 1 && decide (e.order < d.order) &&
    d.store.any fun ds => st.before ds.swz ds.joins

/-- Bad stores write nothing (R156) (log 33). -/
def dropBad (x : Nat) (which : Entry → LStore → Bool) (p : Pkg) : Pkg :=
  let k := p.k (coreOf x)
  let drop (c : Ctx) (e : Entry) : Entry := if badStore k c e && e.store.any (which e) then { e with done := true } else e
  p.modC x fun c => { c with flight := c.flight.map (drop c) }

/-- Every entry due lands, in trigger order (R130); a bad store among those performed is met by the bundle at hand (R156). -/
def landAll (env : Env) (x : Nat) (p : Pkg) : Pkg :=
  let which := dueStore (p.c x)
  let p := if badAmong x which p then (dropBad x which p).modC x fun c => { c with spoiled := true } else p
  let due := (p.c x).flight.filter fun e => e.left == 1
  let p := due.foldl (fun p e => landEntry env x e p) p
  p.modC x fun c => { c with flight := c.flight.filter fun e => e.left != 1 }

/-- A trap of the bundle at hand, its record naming a mismatch that has landed with it (R160, R307) (log 29). -/
def bundleTrap (env : Env) (x cause : Nat) (p : Pkg) : Pkg :=
  let c := p.c x
  let tpc := match c.check with | some k => k.1 | none => c.pc
  sTrap env x cause c.pc tpc c.pc (p.modC x fun c => { c with check := none, spoiled := false })

/-- Uncorrectable consumption at the bundle at hand, which takes no effect: a mismatch that has landed with it has the lower code (R307). -/
def dataTrap (env : Env) (x : Nat) (p : Pkg) : Pkg := bundleTrap env x (if (p.c x).check.isSome then 0x24 else 0x25) p

/-- Uncorrectable consumption by stores that the bundle at hand performs (R156) (log 33). -/
def badTrap (env : Env) (x : Nat) (which : Entry → LStore → Bool) (p : Pkg) : Pkg := dataTrap env x (dropBad x which p)

/-- ENTRY_LANDING (logs 28, 33). -/
def execEntryLanding (x : Nat) (s : State) : Out := s.put (landAll s.env x s.pkg)

end Sys2Proof.Machine
end

