-- ==== Sys2Proof/Machine/Registers.lean ====
section
/-! DEFINITION. Device registers (R5, R6, R386): what each reads (R310, R331, R337, R340, R346, R353, R360, R366, R377, R389), how
a plain write changes it, and which row performs a write that does more. -/

namespace Sys2Proof.Machine

/-! ## Fields -/

/-- A write keeps the bits of a register outside [hi:lo] as they are. -/
def Pkg.putBits (a hi lo v : Nat) (p : Pkg) : Pkg := p.setRegBits a hi lo (bits v hi lo)
def clamp (lo hi v : Nat) : Nat := max lo (min hi v)

/-! ## Rings and queues -/

/-- The registers of queue q (R340). -/
def queueReg (q off : Nat) : Nat := 0x03100000 + 64 * q + off
/-- The pointers of a queue. -/
structure Queue where
  enable  : Bool
  fw      : Bool
  size    : Nat
  fn      : Nat
  ring    : Nat
  tail    : Nat
  head    : Nat
  cpl     : Nat
  cplTail : Nat
  cplHead : Nat
  deriving DecidableEq, Repr, Inhabited

def Pkg.queue (p : Pkg) (q : Nat) : Queue :=
  let ctl := p.regv (queueReg q 8)
  { enable := bits ctl 0 0 = 1, fw := bits ctl 1 1 = 1, size := 2 ^ max 4 (bits ctl 11 8), fn := bits ctl 21 16,
    ring := p.regv (queueReg q 0), tail := p.regv (queueReg q 0x10), head := p.regv (queueReg q 0x18),
    cpl := p.regv (queueReg q 0x20), cplTail := p.regv (queueReg q 0x28), cplHead := p.regv (queueReg q 0x30) }

/-- The difference of two 32-bit counts. -/
def since (a b : Nat) : Nat := (a + (2 ^ 32 - b % 2 ^ 32)) % 2 ^ 32

/-- A ring register's pointers: FAULT (0x000 on) or EVLOG (0x020 on), R353. -/
def ringReg (log : Bool) (off : Nat) : Nat := (if log then 0x04000020 else 0x04000000) + off
def ringOn (p : Pkg) (log : Bool) : Bool := bits (p.regv (ringReg log 8)) 0 0 = 1
def ringSize (p : Pkg) (log : Bool) : Nat := 2 ^ max 6 (bits (p.regv (ringReg log 8)) 11 8)
def ringTail (p : Pkg) (log : Bool) : Nat := p.regv (ringReg log 0x10)
def ringHead (p : Pkg) (log : Bool) : Nat := p.regv (ringReg log 0x18)
def ringFree (p : Pkg) (log : Bool) : Bool := decide (since (ringTail p log) (ringHead p log) < ringSize p log)

/-- The fault ring has room (R355). -/
def faultRoom (p : Pkg) : Bool := ringOn p false && ringFree p false
/-- CP_STAT.full: the event log is in use and has no room (R353, R358). -/
def logFull (p : Pkg) : Bool := ringOn p true && !ringFree p true
/-- CP_STAT.frozen (R353, R359) (log 61). -/
def frozenDispatch (p : Pkg) : Bool := bits (p.regv 0x04000040) 1 0 != 0 || logFull p
/-- CP_STAT as it reads (log 61). -/
def cpStat (p : Pkg) : Nat := bits (p.regv 0x04000040) 1 0 + 4 * b2n (logFull p) + 8 * b2n (frozenDispatch p)

/-! ## MOVE_PAGE.quiet (R364, R374) -/

/-- A write that is to be performed by the translation of a page; of one that holds no virtual address, by one of its command's. -/
def PWrite.onPage (page : Nat) (w : PWrite) : Bool :=
  match w with
  | .dev (some va) _ _ => va / 65536 == page
  | .dev none _ _ => true
  | .side (some va) _ _ => va / 65536 == page
  | .side none _ _ => true
  | .staged _ cells => cells.any fun c => c.1 / 65536 == page
  | .amo va _ _ _ _ _ _ => va / 65536 == page
  | _ => false

/-- A command still has an access to perform that it has translated through a page: of its writes, its late ones or its stamp, unless
they walk again, or of a drive whose region was translated once, unless it is held (R268, R363). -/
def usesPage (p : Pkg) (asid page : Nat) (c : Command) : Bool :=
  (!c.again && c.pages.contains (asid, page) && (c.writes ++ c.late ++ c.stamp.toList).any (PWrite.onPage page)) ||
  (!isHeld p c.cmd.id && c.leaves.any fun l => l.1 == asid && l.2.1 == page)

/-- The pages by which accesses of the host that are not performed yet were translated (R381). -/
def HostReq.pages : HostReq → List (Nat × Nat)
  | .write ps _ => ps
  | .read ps _ => ps
  | .store _ _ _ _ => []
def hostPages (p : Pkg) : List (Nat × Nat) := p.hostq.flatMap HostReq.pages

/-- quiet may become 1: hold is set, and every access to the page that began has been performed or is held. -/
def moveQuietNow (p : Pkg) : Bool :=
  let r := p.regv 0x04000070
  bits r 56 56 == 1 && !(hostPages p).contains (bits r 15 0, bits r 55 16) &&
  p.allCmds.all fun c => c.phase == .parked || !usesPage p (bits r 15 0) (bits r 55 16) c

/-! ## Reading -/

/-- The blocks of R386 with 64-bit or 32-bit registers at multiples of 8: a table of the offsets that a block holds. -/
def platformOffset (o : Nat) : Bool :=
  o == 0 || o == 8 || o == 0x10 || o == 0x18 || o == 0x20 || (decide (0x100 ≤ o) && decide (o ≤ 0x188))
def coreOffset (o : Nat) : Bool := decide (o ≤ 0x30)
def translationOffset (o : Nat) : Bool := decide (o ≤ 0x40)
def schedulingOffset (o : Nat) : Bool := decide (o ≤ 0x80)
def queueOffset (o : Nat) : Bool := decide (o ≤ 0x30)
def faultOffset (o : Nat) : Bool := decide (o ≤ 0xB0) || (decide (0x100 ≤ o) && decide (o ≤ 0x338))
def tileOffset (o : Nat) : Bool := o == 0 || o == 8 || (decide (0x40 ≤ o) && decide (o ≤ 0x78))
def linkOffset (o : Nat) : Bool := decide (o ≤ 0x18) || (decide (0x100 ≤ o) && decide (o ≤ 0x2F8))

/-- An 8-byte aligned address names a register (R386). -/
def hasReg (a : Nat) : Bool :=
  a % 8 == 0 &&
  ((decide (a < 0x1000) && platformOffset a) ||
   (decide (0x01000000 ≤ a) && decide (a < 0x01000000 + 0x1000 * 72) && coreOffset (a % 0x1000)) ||
   (decide (0x02000000 ≤ a) && decide (a < 0x02001000) && translationOffset (a % 0x1000)) ||
   (decide (0x03000000 ≤ a) && decide (a < 0x03001000) && schedulingOffset (a % 0x1000)) ||
   (decide (0x03100000 ≤ a) && decide (a < 0x03100000 + 64 * 1024) && queueOffset (a % 64)) ||
   (decide (0x03200000 ≤ a) && decide (a < 0x03200000 + 32 * 256)) ||
   (decide (0x04000000 ≤ a) && decide (a < 0x04001000) && faultOffset (a % 0x1000)) ||
   (decide (0x05000000 ≤ a) && decide (a < 0x05000000 + 0x1000 * 4608) && tileOffset (a % 0x1000)) ||
   (decide (0x07000000 ≤ a) && decide (a < 0x07001000) && linkOffset (a % 0x1000)))

/-- Registers whose fields are all WO read 0 (R5). -/
def writeOnly (a : Nat) : Bool := a == 0x10 || a == 0x02000030 || a == 0x02000038 || a == 0x04000068

/-- The draws of a read of PWR_STAT (log 64). -/
def telemetryDraws : Nat := 3

/-- Steps of 68.75 MHz below the top at which the clock runs: at its floor while hot (R392 to R394) (log 64). -/
def clockSteps (p : Pkg) : Nat := if bits (p.regv 0x20) 41 41 = 1 then 12 else p.slow

/-- PWR_STAT (R389): power and temperature are what the sensors find; the clock is 1,100 MHz less the steps of R392, its
fraction rounded either way; capped and hot are stored (log 64). -/
def pwrStat (p : Pkg) : Nat :=
  let quarters := 4400 - 275 * clockSteps p
  let mhz := quarters / 4 + (if quarters % 4 ≠ 0 ∧ Config.freeBool p.fresh then 1 else 0)
  let power := (Config.telemetry 0x20 (p.fresh + 1)).toNat % 2 ^ 16
  let temp := (Config.telemetry 0x20 (p.fresh + 2)).toNat % 2 ^ 8
  power + 2 ^ 16 * mhz + 2 ^ 32 * temp + 2 ^ 40 * bits (p.regv 0x20) 41 40

/-- PLAT_ID: the part identifier with the foundry fields of the fuses. -/
def platId : Nat := 0x4A34 + 2 ^ 16 * bits (Config.fuseReg 0).toNat 27 16

/-- TIME_STAT.sync: a time master that hears no other, or a package that its messages have found within the bounds (R385) (log 85). -/
def inSync (p : Pkg) : Bool :=
  if bits (p.regv 0x07000008) 12 12 = 1 then p.masters.isEmpty else bits (p.regv 0x07000018) 0 0 = 1

/-- What a register reads: stored values, and those that are views of other state. -/
def regValue (a : Nat) (p : Pkg) : Nat :=
  if writeOnly a then 0
  else if a = 0x0 then platId
  else if a = 0x20 then pwrStat p
  else if 0x01000000 ≤ a ∧ a < 0x02000000 then (coreRegRead p ((a - 0x01000000) / 0x1000) (a % 0x1000)).getD 0
  else if a = 0x02000040 then
    (p.held.filter fun h => h.kind == 3 || h.kind == 4).length % 2 ^ 32 + 2 ^ 32 * (p.poisonTbl.length % 2 ^ 16)
  else if a = 0x03000018 then bits (p.regv a) 0 0 + 2 ^ 16 * ((p.nodes.length + p.taking.length) % 2 ^ 16)
  else if 0x03200000 ≤ a ∧ a < 0x03202000 then field (p.groups.get ((a - 0x03200000) / 32)) (a % 32) 8
  else if a = 0x04000040 then cpStat p
  else if a = 0x07000018 then setBits (p.regv a) 0 0 (b2n (inSync p))
  else if a = 0x04000090 then setBits (p.regv a) 25 24 (2 * b2n p.skim.isSome)
  else p.regv a

/-- `sys.mld` and the host's reads of BAR0 (R314, R378): the value, none at a reserved address (log 63). -/
def regRead (a : Nat) (p : Pkg) : Option Nat := if hasReg a then some (regValue a p % 2 ^ 64) else none

/-! ## Writes of fields without further effect -/

/-- What a register's RW fields hold after a write of v (R5, R6), each with the limits that its table gives. -/
def plainWrite (a v : Nat) (p : Pkg) : Pkg :=
  let launch := bits (p.regv 0x03000010) 0 0 = 1
  if 0x01000000 ≤ a ∧ a < 0x02000000 then coreRegWrite ((a - 0x01000000) / 0x1000) (a % 0x1000) v p
  else if 0x03100000 ≤ a ∧ a < 0x03110000 then
    match a % 64 with
    | 0x00 => p.putBits a 55 9 v
    | 0x08 => p.setReg a (bits v 1 0 + 2 ^ 8 * max 4 (bits v 11 8) + 2 ^ 16 * bits v 21 16)
    | 0x20 => p.putBits a 55 5 v
    | _ => p
  else if 0x03000040 ≤ a ∧ a ≤ 0x03000080 then if launch then p else p.setReg a v
  else if 0x07000100 ≤ a ∧ a ≤ 0x070002F8 then ((p.putBits a 1 0 v).putBits a 31 16 v).putBits a 55 36 v
  else match a with
  | 0x18 => p.setReg a (clamp 600 2800 (v % 65536))
  | 0x02000000 => p.putBits a 55 11 v
  | 0x02000008 => p.putBits a 55 7 v
  | 0x02000010 =>
    let n := bits v 4 0
    p.setReg a ((if 4 ≤ n ∧ n ≤ 20 then n else 4) + 2 ^ 16 * min (bits v 36 16) (2 ^ 20))
  | 0x02000018 => p.putBits a 55 4 v
  | 0x02000020 => p.putBits a 20 0 v
  | 0x02000028 => p.putBits a 55 16 v
  | 0x03000010 =>
    let p := p.putBits a 19 16 v
    if launch then p.putBits a 0 0 v else p.putBits a 14 8 v
  | 0x03000020 => p.putBits a 55 16 v
  | 0x03000028 => p.putBits a 23 0 v
  | 0x03000030 => p.setReg a v
  | 0x03000038 => p.putBits a 31 0 v
  | 0x04000000 => p.putBits a 55 6 v
  | 0x04000020 => p.putBits a 55 6 v
  | 0x04000008 => (p.putBits a 0 0 v).setRegBits a 11 8 (max 6 (bits v 11 8))
  | 0x04000028 => (p.putBits a 0 0 v).setRegBits a 11 8 (max 6 (bits v 11 8))
  | 0x04000048 => p.putBits a 57 0 v
  | 0x04000050 => p.setReg a (clamp 1024 16384 (bits v 14 0))
  | 0x04000058 =>
    let one (n : Nat) : Nat := max 1 n
    p.setReg a (one (bits v 7 0) + 2 ^ 8 * one (bits v 15 8) + 2 ^ 16 * one (bits v 23 16))
  | 0x04000060 => p.setReg a (clamp 4 512 (bits v 9 0))
  | 0x04000070 => if bits (p.regv a) 56 56 = 1 then p else p.putBits a 55 0 v
  | 0x04000078 => p.putBits a 15 0 v
  | 0x04000088 => p.putBits a 55 0 v
  | 0x04000090 => (p.putBits a 23 0 v).putBits a 26 26 v
  | 0x04000098 => p.putBits a 55 3 v
  | 0x040000A0 => p.putBits a 55 16 v
  | 0x040000A8 => p.setReg a v
  | 0x07000008 =>
    if launch then p
    else { ((p.putBits a 12 0 v).putBits a 19 16 v).setRegBits 0x07000018 0 0 0 with masters := [], timed := false }
  | _ => p

/-! ## Dispatch frozen and resumed (R358, R359) -/

/-- The log learns that dispatch has been frozen or has resumed between two states. -/
def noteFreeze (dtime : Nat) (before after : Pkg) : Pkg :=
  if frozenDispatch after && !frozenDispatch before then logEvent ⟨dtime, 7, 0, 0⟩ after
  else if frozenDispatch before && !frozenDispatch after then logEvent ⟨dtime, 8, 0, 0⟩ after
  else after

/-! ## Which row performs a write -/

/-- The row that a write of v to a register is. The rows of their own are those whose effect goes beyond the register. -/
def writeRow (a v : Nat) (p : Pkg) : Instr :=
  let rising (b : Nat) : Bool := bits v 0 0 == 1 && bits (p.regv b) 0 0 == 0
  if 0x03100000 ≤ a ∧ a < 0x03110000 then
    let q := (a - 0x03100000) / 64
    match a % 64 with
    | 0x08 => if rising a then .qCtlEnable q v else .registerWrite a v
    | 0x10 => .qTailStore q (v % 2 ^ 32) .inside
    | 0x30 => .qCplHeadStore q (v % 2 ^ 32) .inside
    | _ => .registerWrite a v
  else if 0x100 ≤ a ∧ a ≤ 0x188 then
    let k := (a - 0x100) / 8
    if bits (p.regv a) 1 0 < bits v 1 0 then .cluPwrLower k v else .cluPwrRaise k v
  else if 0x04000100 ≤ a ∧ a ≤ 0x04000338 then .spadFailWrite ((a - 0x04000100) / 8) v
  else match a with
  | 0x10 => .pkgResetWrite v
  | 0x02000030 => if bits v 32 32 = 0 then .transResolveRetry v else .transResolveFail v
  | 0x02000038 => .poisonClr v
  | 0x03000010 => if bits v 0 0 = 1 then .launchCtlWrite v else .registerWrite a v
  | 0x04000008 => if rising a then .faultCtlEnable v else .registerWrite a v
  | 0x04000018 => .faultHeadWrite v
  | 0x04000028 => if rising a then .evlogCtlEnable v else .registerWrite a v
  | 0x04000038 => .evlogHeadWrite v
  | 0x04000040 => .cpStatClear v
  | 0x04000048 => match bits v 59 58 with
    | 1 => .nodeAbortRollback v
    | 2 => .nodeAbortFail v
    | _ => .registerWrite a v
  | 0x04000068 => match bits v 33 32 with
    | 0 => .repairResolveRemap v
    | 1 => .repairResolveRelease v
    | 2 => .repairResolveFail v
    | _ => .registerWrite a v
  | 0x04000070 =>
    if bits v 56 56 = 1 then .movePageHoldSet v else .movePageHoldClear v
  | 0x04000078 => if bits v 16 16 = 1 then .moveCtlGo v else .registerWrite a v
  | 0x04000090 => if bits v 24 24 = 1 then .skimCtlGo v else .registerWrite a v
  | _ => .registerWrite a v

/-- REGISTER_WRITE (R5): a write that only sets fields, with RO and reserved ones ignored, or the row that the register's
write is. No write of NODE_ABORT is accepted while dispatch is frozen (R359), and a change of the event log's size can freeze or
resume it (R358). -/
def execRegisterWrite (addr v : Nat) (s : State) : Out :=
  if hasReg addr then
    match writeRow addr v s.pkg with
    | .registerWrite _ _ =>
      if addr = 0x04000048 ∧ frozenDispatch s.pkg then .next s
      else s.put (noteFreeze s.env.dtime s.pkg (plainWrite addr v s.pkg))
    | i => s.put (s.pkg.push [.run i])
  else .next s

end Sys2Proof.Machine
end

