-- ==== Sys2Proof/Machine/SysUnit.lean ====
section
/-! DEFINITION. The sys unit at its triggers (R107, R311 to R313): the fence, `crd`, `cwr`, `halt` and the acceptance of asynchronous
operations. -/

namespace Sys2Proof.Machine

/-! ## The fence (R107) -/

/-- SYS_FENCE: local accesses of both streams in order, pending stores performed, fetch brought up to date; for a scope from 1
on, every earlier command of the part is ordered before every later one, and from 4 on for every die. -/
def execSysFence (s : State) : Out :=
  let x := s.pkg.fire.ctx
  let sc := min s.pkg.fire.b.toS.toNat 5
  let p := s.pkg
  let n := (p.c x).joins
  let p := fenceFetch x (performAll x (joinViews x n p))
  s.put (if 1 ≤ sc then p.modC x fun c =>
    { c with fenceMark := p.nextCmd, fenceWide := if 4 ≤ sc then p.nextCmd else c.fenceWide } else p)

/-! ## Core and context registers (R312) -/

/-- What register B names: with B[12] = 1 the core control register at offset B[11:0], else the context register with code B[7:0] of
context A[1:0]; every other number reads 0. -/
def crdValue (dtime : Nat) (p : Pkg) (x a b : Nat) : Nat :=
  let n := if b.testBit 12 then b % 8192 else b % 256
  let y := 4 * coreOf x + a % 4
  if 4096 ≤ n then (coreRegRead p (coreOf x) (n - 4096)).getD 0
  else if n = 0x0D7 then dtime % 2 ^ 64
  else if 0x0C0 ≤ n ∧ n ≤ 0x0DA then ((p.c y).cr n).toNat
  else 0

/-- SYS_CRD. -/
def execSysCrd (s : State) : Out :=
  let f := s.pkg.fire
  let v := crdValue s.env.dtime s.pkg f.ctx f.a.toS.toNat f.b.toS.toNat
  s.put (deliver f.ctx 15 1 4 (some (.s (BitVec.ofNat 64 v))) none 0 s.pkg)

/-- An entry of `cwr` or `halt`, which takes effect one issue cycle on. -/
def sysEntry (op : Nat) (s : State) : Out :=
  let f := s.pkg.fire
  s.put (addEntry f.ctx { unit := 15, op := op, left := 1, order := 0, kind := .sysop, trig := (s.pkg.c f.ctx).pc - 32,
                          a := f.a.toS, d := f.d.toS, b := f.b.toS } s.pkg)

/-- SYS_CWR. -/
def execSysCwr (s : State) : Out := sysEntry 2 s
/-- SYS_HALT. -/
def execSysHalt (s : State) : Out := sysEntry 10 s

/-! ## Acceptance (R313) -/

/-- The acceptance result: a bad record address before a full list (log 62). -/
def acceptance (c : Ctx) (rec_ : Nat) : Nat :=
  if !(Eng.linear rec_ 16 16) then 1 else if 8 ≤ c.sysq.length then 2 else 0

/-- An asynchronous operation is accepted or turned away (log 62). -/
def acceptSys (op : Nat) (s : State) : Out :=
  let f := s.pkg.fire
  let x := f.ctx
  let c := s.pkg.c x
  let r := acceptance c f.c.toS.toNat
  let o : SysOp := { op := op, a := f.a.toS, d := f.d.toS, c := f.c.toS, b := f.b.toS, asid := c.asid, node := c.node.getD 0 }
  let p := if r = 0 then s.pkg.modC x fun c => { c with sysq := c.sysq ++ [o] } else s.pkg
  s.put (deliver x 15 op 1 (some (.s (BitVec.ofNat 64 r))) none 0 p)

/-- SYS_MLD. -/
def execSysMld (s : State) : Out := acceptSys 3 s
/-- SYS_MST. -/
def execSysMst (s : State) : Out := acceptSys 4 s
/-- SYS_SNAP. -/
def execSysSnap (s : State) : Out := acceptSys 5 s
/-- SYS_SNAPLD. -/
def execSysSnapld (s : State) : Out := acceptSys 6 s
/-- SYS_FREEZE. -/
def execSysFreeze (s : State) : Out := acceptSys 7 s
/-- SYS_THAW. -/
def execSysThaw (s : State) : Out := acceptSys 8 s
/-- SYS_TLBI. -/
def execSysTlbi (s : State) : Out := acceptSys 9 s
/-- SYS_GRP. -/
def execSysGrp (s : State) : Out := acceptSys 11 s
/-- SYS_LAUNCH. -/
def execSysLaunch (s : State) : Out := acceptSys 12 s

end Sys2Proof.Machine
end

