-- ==== Sys2Proof/Machine/Snapshot.lean ====
section
/-! DEFINITION. Snapshots (R318 to R323): the image's layout, parking of commands, capture and restore. -/

namespace Sys2Proof.Machine

/-! ## The image (R319, R320) -/

def zeros (n : Nat) : List Byte := List.replicate n 0
/-- Bytes whose contents the spec leaves open: the image gives their place and hardware their form. -/
def openBytes (n key : Nat) : List Byte := (List.range n).map fun i => Config.freeByte (2 ^ 80 + 2 ^ 12 * key + i)
/-- A byte string padded with zeros, or cut, to a length. -/
def fit (n : Nat) (bs : List Byte) : List Byte := (bs ++ zeros n).take n

/-- A value of a port: a vector fills 512 bytes, an S value eight. -/
def valBytes : Val → List Byte
  | .s x => bytesOf 8 x.toNat
  | .v x => bytesOf 512 x.toNat
  | .p x => bytesOf 8 (b2n x)
  | .m x => bytesOf 16 x.toNat

/-- The code of an entry's kind. -/
def kindCode : EntryKind → Nat
  | .result => 0 | .store => 1 | .branch => 2 | .check => 3 | .sysop => 4

/-- An in-flight entry's record; `nth` is its order among those of its landing issue cycle. -/
def entryBytes (c : Ctx) (e : Entry) (nth : Nat) : List Byte :=
  let r := match e.kind with
    | .sysop => bytesOf 8 e.op ++ bytesOf 8 e.a.toNat ++ bytesOf 8 e.d.toNat ++ bytesOf 8 e.b.toNat
    | _ => match e.r with | some v => valBytes v | none => []
  let place := match e.kind with
    | .check => bytesOf 8 (landsAt c e.left)
    | _ => bytesOf 8 (e.target.getD 0)
  let fixed := if e.fixed.isEmpty then zeros 40 else openBytes 40 (e.order + 1)
  bytesOf 1 e.unit ++ bytesOf 1 e.op ++ bytesOf 1 e.left ++ bytesOf 1 (kindCode e.kind) ++ bytesOf 4 e.flags.toNat ++
  bytesOf 4 (match e.amax with | some a => a.toNat | none => 0xFFFFFFFF) ++ bytesOf 1 (b2n e.ns) ++ bytesOf 1 nth ++ zeros 2 ++
  place ++ fixed ++ fit 512 r ++ fit 512 (match e.h with | some v => bytesOf 512 v.toNat | none => []) ++ zeros 64

/-- The records of the entries in flight. -/
def flightBytes (c : Ctx) : List Byte :=
  ((List.range c.flight.length).zip c.flight).flatMap fun q =>
    entryBytes c q.2 ((c.flight.take q.1).filter fun d => d.left == q.2.left).length

/-- The code of a token's state. -/
def tokenCode : TokState → Nat
  | .free => 0 | .outstanding => 1 | .parked => 2 | .complete => 3

def tokenBytes (t : Token) : List Byte :=
  bytesOf 1 (tokenCode t.state) ++ bytesOf 1 t.status ++ bytesOf 1 (b2n t.acked) ++ bytesOf 1 (t.unit - 12) ++ bytesOf 1 t.op ++
  zeros 3 ++ (if t.state = .parked ∨ t.state = .outstanding then openBytes 8 (t.cmd + 2 ^ 40) else zeros 8)

/-- A notice of the replay window: its 32 bytes, then its target. -/
def windowBytes (p : Pkg) (id : Nat) : List Byte :=
  match p.notices.find? fun n => n.cmd == id && n.sender / 512 == p.number with
  | some n => fit 32 n.bytes ++ openBytes 8 (n.id + 2 ^ 50) ++ zeros 24
  | none => zeros 64

/-- A result port of either class. -/
def portBytes (c : Ctx) (code : Nat) : List Byte :=
  if vectorPort code then bytesOf 512 (c.vport.get code).toNat else fit 512 (bytesOf 8 (c.rport.get code).toNat)

/-- The core area. -/
def coreBytes (k : Core) : List Byte :=
  k.spad.getMany 0 spadSize ++
  ((List.range 262144).map fun i => BitVec.ofNat 8 (digits 1 ((List.range 8).map fun j => b2n (k.tags.get (8 * i + j))))) ++
  ((List.range 524288).flatMap fun i => bytesOf 4 (k.acc.get i).toNat) ++
  ((List.range 1024).map fun i => BitVec.ofNat 8 (digits 1 ((List.range 8).map fun j => b2n (k.lines.get (8 * i + j))))) ++
  bytesOf 1 k.ringIdx

/-- The image's size. -/
def imageSize (core : Bool) : Nat := if core then 0xA71000 else 0x29000

/-- The fields before the registers. -/
def headBytes (i : Image) : List Byte :=
  let c := i.ctx
  bytesOf 2 1 ++ bytesOf 2 (b2n i.core.isSome + 2 * b2n i.evict) ++ bytesOf 4 (imageSize i.core.isSome) ++
  bytesOf 1 (i.x / 4) ++ bytesOf 1 (i.x % 4) ++ bytesOf 2 i.asid ++ bytesOf 4 i.part ++ bytesOf 8 i.node ++ bytesOf 8 (resumeAddr c) ++
  bytesOf 1 (phaseCode c.left) ++ bytesOf 1 c.flight.length ++ bytesOf 2 c.cursor ++ bytesOf 4 c.seq ++ bytesOf 8 i.time ++
  bytesOf 8 i.wdog ++ zeros 8

/-- The whole image of a capture; `window` are the bytes of its replay window. -/
def imageBytes (i : Image) (window : List Byte) : List Byte :=
  let c := i.ctx
  headBytes i ++
  ((List.range 32).flatMap fun n => bytesOf 8 (c.s.get n).toNat) ++
  bytesOf 8 (c.p.toNat / 2 * 2) ++
  ((List.range 8).flatMap fun n => bytesOf 16 (c.m.get n).toNat) ++ zeros 56 ++
  ((List.range 27).flatMap fun n => bytesOf 8 (c.cr (0x0C0 + n)).toNat) ++ zeros 296 ++
  ((List.range 64).flatMap fun k => tokenBytes (c.tokens.get k)) ++
  fit 512 window ++ zeros 1536 ++
  ((List.range 32).flatMap fun n => portBytes c (0x070 + n)) ++
  ((List.range 64).flatMap fun n => fit 64 (c.tmpl.get n)) ++
  ((List.range 64).flatMap fun n => bytesOf 512 (c.v.get n).toNat) ++
  fit 110592 (flightBytes c) ++
  (match i.core with | some k => fit (0xA71000 - 0x29000) (zeros 0x7000 ++ coreBytes k) | none => [])

/-! ## Parking (R231, R318) -/

/-- A command that parks at an eviction, where it stands (log 65). -/
def parks (p : Pkg) (m : Command) : Bool :=
  match m.unit, m.op with
  | 13, 0 => m.phase != .queued
  | 13, 1 => m.phase != .queued
  | 13, 2 => m.phase != .queued
  | 13, 3 => m.phase != .queued
  | 12, 8 => m.phase == .waiting && !m.timedOut
  | 12, 12 => m.phase == .arrived
  | 12, 13 => m.phase == .arrived
  | 12, 3 => m.phase == .arrived || p.notices.any fun n => n.cmd == m.cmd.id
  | _, _ => false

/-- Queued commands that wait for one that parks park with it: they cannot complete before it (log 65). -/
def parkSet (p : Pkg) (ms : List Command) : Nat → List Nat → List Nat
  | 0, ids => ids
  | n + 1, ids =>
    let more := ms.filter fun m => m.phase == .queued && !ids.contains m.cmd.id && m.cmd.uses.any ids.contains
    if more.isEmpty then ids else parkSet p ms n (ids ++ more.map (·.cmd.id))

/-- A macro that has begun. -/
def runningMacro (m : Command) : Bool := m.unit == 13 && (m.op == 1 || m.op == 2 || m.op == 3) && m.phase != .queued

/-- A command parks: a macro after its admitted vectors, a weight load to begin again, a wait to read afresh; its token is parked
(logs 46, 65). -/
def parkCommand (env : Env) (id : Nat) (p : Pkg) : Pkg :=
  let m := p.cmd id
  let p :=
    if runningMacro m then suspendMacro env id p
    else if m.unit = 13 ∧ m.op = 0 ∧ m.phase ≠ .queued then
      let p := { p with tiles := m.tiles.foldl (fun t i => t.modify i fun tl => { tl with owner := none }) p.tiles }
      p.modCmd id fun m => { m with writes := [], late := [], tiles := [], log := [], parts := [], status := 0 }
    else if m.phase = .waiting then p.modCmd id fun m => { m with log := [], parts := [] }
    else p
  let was : CmdPhase := match (p.cmd id).phase with
    | .started => if m.unit = 13 ∧ m.op = 0 then .waiting else .started
    | ph => ph
  let p := { p with held := p.held.filter fun h => h.cmd != some id }
  let p := p.modCmd id fun m => { m with phase := .parked, wasPhase := was }
  p.modC m.cmd.ctx fun c =>
    let t := c.tokens.get m.cmd.tok
    if t.cmd = id then { c with tokens := c.tokens.set m.cmd.tok { t with state := .parked } } else c

/-- The commands of a context that park at an eviction, and whether the capture still waits for another: one that has to complete first
(R45), or a macro whose admitted vectors are not finished (R318) (log 65). -/
def parking (x : Nat) (p : Pkg) : List Nat × Bool :=
  let ms := p.cmdsOf x
  let ids := parkSet p ms ms.length ((ms.filter (parks p)).map (·.cmd.id))
  (ids, ms.any fun m => !ids.contains m.cmd.id || (runningMacro m && !suspendable p m))

/-- Every command of a context that parks does (log 65). -/
def parkAll (env : Env) (x : Nat) (p : Pkg) : Pkg := (parking x p).1.foldl (fun p id => parkCommand env id p) p

/-! ## Capture (R318, R323) -/

/-- Every context bound to the node is frozen (log 66). -/
def nodeFrozen (p : Pkg) (n : Nat) : Bool := (p.ctxsOf n).all fun y => (p.c y).phase == .frozen

/-- The capture of a frozen context: its pending stores are performed, its fields are taken at one moment. -/
def capture (env : Env) (x : Nat) (core evict : Bool) (p : Pkg) : Pkg × Image :=
  let p := performAll x p
  let c := p.c x
  let k := p.k (coreOf x)
  (p, { x := x, ctx := c, asid := c.asid, node := c.node.getD 0, part := c.part, evict := evict, time := env.dtime,
        wdog := c.watchdog, core := if core then some k else none
        known := p.core.flatMap fun q => q.2.stale.flatMap fun e => (e.known.filter fun kn => kn.ctx == x).map fun kn => (e.number, kn)
        past := (p.replicas.filter fun r => r.past.contains x).map (·.sector) })

/-- The command as which hardware accesses device memory for a sys operation of a context. -/
def sysCmd (x : Nat) (o : SysOp) : Cmd := { id := 0, ctx := x, asid := o.asid, node := o.node }

/-- What an access of a sys operation comes to: it can be made, it must wait (a move hold, a failed plane, a repair), or the
operation ends with a status. -/
inductive SysAccess (α : Type) where
  | ok (a : α) (p : Pkg)
  | wait (p : Pkg)
  | status (n : Nat) (p : Pkg)

/-- An access of a sys operation waits: at a failed plane it joins that plane's record (R363) (log 69). -/
def sysHeld (env : Env) (x : Nat) (o : SysOp) (h : Held) (p : Pkg) : Pkg :=
  match Eng.failedAt p h.dpa with
  | some f =>
    let r : FaultRec := { time := env.dtime, kind := 7, flags := 1, code := f.category, node := o.node, asid := o.asid,
                          pcore := coreOf x, ctx := x % 4, va := h.page, dpa := h.dpa }
    if h.kind = 7 then (Eng.joinPlane r f p).1 else p
  | none => p

/-- Accesses to device memory of the issuing node's ASID: where a translation faults the operation ends with status 4, and a table word
met poisoned is marked and reported (R335); at uncorrectable data with 5 (R313) (log 69). -/
def sysAccess {α : Type} (env : Env) (x : Nat) (o : SysOp) (body : Eng α) (p : Pkg) : SysAccess α :=
  match body ⟨env, sysCmd x o⟩ { p := p } with
  | .ok a w => .ok a w.p
  | .error .wait _ => .wait p
  | .error (.held h) _ => if h.kind = 0 ∨ h.kind = 7 then .wait (sysHeld env x o h p) else .status 4 p
  | .error (.status 7) w => .status 5 { w.p with faultq := p.faultq }
  | .error (.status _) w => .status 4 w.p
  | .error _ _ => .status 4 p

/-- A write of a sys operation is performed. -/
def sysWrite (env : Env) (x : Nat) (o : SysOp) (w : PWrite) (p : Pkg) : Pkg :=
  match w with
  | .dev _ priv cells => writeCells cells (if priv then cacheWrite [sysCmd x o] cells p else p)
  | .staged l cells => withStage env.clock o.node l (cells.headD (0, 0)).1
      (fun sp => writeCells (cells.map fun c => (Eng.stagePlace p sp c.1, c.2))) p
  | w => performW env 0 w p

/-- The bytes of a replay window. -/
def windowOf (p : Pkg) (c : Ctx) : List Byte := c.window.flatMap (windowBytes p)

/-- A captured context of an evicted part becomes unbound; its tokens stay parked (R39, R318) (log 66). -/
def evictCtx (x : Nat) (p : Pkg) : Pkg := unbindCtx x p

/-! ## Restore (R322) -/

/-- The bytes of an image that a program may change: the resume address, c.tpc and c.tinfo (R321). -/
def mayChange (i : Nat) : Bool :=
  (decide (0x18 ≤ i) && decide (i < 0x20)) || (decide (0x2C8 ≤ i) && decide (i < 0x2D8))

/-- Two images agree but for what a program may change. -/
def sameImage (a b : List Byte) : Bool :=
  a.length == b.length && ((List.range a.length).zip (a.zip b)).all fun q => mayChange q.1 || q.2.1 == q.2.2

/-- A restored token: one whose command has ended since an image that did not evict was taken has completed with a status that
the spec does not give (log 65). -/
def restoreToken (p : Pkg) (t : Token) : Token :=
  match t.state with
  | .parked => { t with state := .outstanding }
  | .outstanding => if p.present t.cmd then t else { t with state := .complete, status := (Config.freeNat t.cmd) % 256 }
  | _ => t

/-- A parked command resumes on a context: a completion that arrived meanwhile is delivered, another goes on from where it
parked (log 65). -/
def resumeCommand (y id : Nat) (p : Pkg) : Pkg :=
  let m := p.cmd id
  let cmd := { m.cmd with ctx := y }
  let instr := match engineStep m.unit m.op with | some (.command mk) => mk cmd | _ => m.instr
  let m := { m with cmd := cmd, instr := instr, phase := m.wasPhase, accepted := true }
  let m := match m.arrivedEnd with
    | some st => { m with phase := .started, status := st, arrivedEnd := none }
    | none => m
  { p with cmds := p.cmds.set id m }

/-- A resume address that a program has written into an image stands in the place of a redirection that was due with it (R321). -/
def resumeAt (a : Nat) (c : Ctx) : Ctx :=
  if a = resumeAddr c then c
  else { c with pc := a, flight := c.flight.map fun e => if redirects e && e.left == 1 && e.op != 12 then { e with done := true } else e }

/-- The context as an image restores it: every field, with the resume address, c.tpc and c.tinfo that the bytes hold, and the
kicks whose notices still wait (log 66). -/
def restoreCtx (env : Env) (i : Image) (bs : List Byte) (hold : Bool) (p : Pkg) : Ctx :=
  let c := resumeAt (field bs 0x18 8) i.ctx
  let c := { c with
    phase := if hold then .frozen else .ready
    left := .ready
    cause := if hold then 0x29 else 0
    watchdog := i.wdog
    blockedAt := env.clock
    waited := 0
    queueFrozen := false
    halted := false
    sysq := []
    tokens := (List.range 64).foldl (fun m k => m.set k (restoreToken p (c.tokens.get k))) []
    window := c.window.filter fun id => p.notices.any fun n => n.cmd == id && !n.accepted }
  (c.setCr 0x0D9 (BitVec.ofNat 64 (field bs 0x2C8 8))).setCr 0x0DA (BitVec.ofNat 64 (field bs 0x2D0 8))

/-- The core area of an image goes back into the core (log 66). -/
def restoreCore (k : Core) (i : Image) : Core :=
  match i.core with
  | some a => { k with spad := a.spad, tags := a.tags, acc := a.acc, lines := a.lines, ringIdx := a.ringIdx,
                       poison := [], badAcc := [], stale := [], conveyed := [] }
  | none => k

/-- What a part knew of performed writes, and had observed of cached sectors, as it was captured (R75, R106) (logs 22, 55). -/
def remember (y : Nat) (i : Image) (p : Pkg) : Pkg :=
  let back (e : Stale) : Stale :=
    { e with known := e.known ++ (i.known.filter fun q => q.1 == e.number).map fun q => { q.2 with ctx := y } }
  let p := (forgetCtx y p).modStale back
  { p with replicas := p.replicas.map fun r => if i.past.contains r.sector then { r with past := r.past ++ [y] } else r }

/-- The part is bound again with its image, and its parked commands resume. -/
def restore (env : Env) (y : Nat) (i : Image) (bs : List Byte) (core hold : Bool) (p : Pkg) : Pkg :=
  let ids := (List.range 64).filterMap fun k =>
    let t := i.ctx.tokens.get k
    if t.state = .parked ∧ p.present t.cmd then some t.cmd else none
  let keep := (p.c y).sysq
  let c := restoreCtx env i bs hold p
  let p := p.setC y { c with node := some i.node, sysq := keep }
  let p := remember y i (if core then p.modK (coreOf y) fun k => restoreCore k i else p)
  ids.foldl (fun p id => resumeCommand y id p) p

end Sys2Proof.Machine
end

