-- ==== Sys2Proof/Machine/SysRecord.lean ====
section
/-! DEFINITION. The effects of the asynchronous sys operations and their records (R313 to R318, R322, R323, R341, R346, R369). -/

namespace Sys2Proof.Machine

/-- What an operation comes to: it is not over yet, its record has a status and a value, a register's row performs it first, or
it restores an image that a program altered (R321). -/
inductive SysRes where
  | wait (p : Pkg)
  | fin (p : Pkg) (status value : Nat)
  | row (p : Pkg) (i : Instr)
  | altered

/-! ## Targets (R311, R313) -/

/-- The context number that a target operand names; none for a bad target. -/
def sysTarget (p : Pkg) (x a : Nat) : Option Nat :=
  let n := a % 128
  let y := 4 * n + bits a 9 8
  if p.inService n ∧ y ≠ x then some y else none

/-- A record of the context's freeze, or of its queue's, is still waiting for room (R355) (log 67). -/
def recordWaits (p : Pkg) (y : Nat) (queue : Bool) : Bool :=
  p.faultq.any fun r => r.node != 0 && r.pcore == coreOf y && r.ctx % 4 == y % 4 && r.flags.testBit (if queue then 2 else 1)

/-! ## Freeze and thaw (R315, R323) -/

/-- A context freezes by an operation, with its watchdog count kept (log 78). -/
def freezeNow (env : Env) (y : Nat) (p : Pkg) : Pkg :=
  freezeBy y (p.modC y fun c => { c with watchdog := watchdogCount env c })

/-- A frozen context returns to the state it left, ready where it was running; its watchdog count restarts. -/
def thawCtx (env : Env) (y : Nat) (p : Pkg) : Pkg :=
  p.modC y fun c =>
    { c with phase := (match c.left with | .running => .ready | ph => ph), cause := 0, halted := false, waited := 0,
             watchdog := 0, blockedAt := env.clock }

/-- The engine queue accepts its commands again, in their order (R315) (log 58). -/
def thawQueue (y : Nat) (p : Pkg) : Pkg :=
  let p := p.modC y fun c => { c with queueFrozen := false }
  let open_ (q : Nat × Command) : Nat × Command := if q.2.cmd.ctx = y then (q.1, { q.2 with accepted := true }) else q
  { p with cmds := p.cmds.map open_ }

def sysFreeze (env : Env) (y b : Nat) (p : Pkg) : SysRes :=
  let c := p.c y
  if b % 2 = 1 then
    if c.phase = .unbound then .fin p 2 0 else .fin (p.modC y fun c => { c with queueFrozen := true }) 0 0
  else match c.phase with
    | .unbound => .fin p 2 0
    | .draining => .fin p 2 0
    | _ => .fin (freezeNow env y p) 0 0

def sysThaw (env : Env) (y b : Nat) (p : Pkg) : SysRes :=
  let c := p.c y
  if b % 2 = 1 then
    if c.phase = .unbound ∨ !c.queueFrozen then .fin p 2 0
    else if recordWaits p y true then .wait p
    else .fin (thawQueue y p) 0 0
  else if c.phase ≠ .frozen then .fin p 2 0
  else if recordWaits p y false then .wait p
  else .fin (thawCtx env y p) 0 0

/-- Every part of the node that has not ended is bound. -/
def allBound (p : Pkg) (n : Nat) : Bool :=
  let bound := (p.ctxsOf n).map fun y => (p.c y).part
  (List.range (p.node n).nparts).all fun i => (p.node n).ended.contains i || bound.contains i

def sysThawNode (env : Env) (n : Nat) (p : Pkg) : SysRes :=
  if !p.live n then .fin p 1 0
  else if !allBound p n then .fin p 6 0
  else
    let ys := (p.ctxsOf n).filter fun y => (p.c y).phase == .frozen
    if ys.any fun y => recordWaits p y false then .wait p
    else .fin (ys.foldl (fun p y => thawCtx env y p) p) 0 0

/-! ## Registers (R314) -/

/-- A store to a register that is refused with a status of its own: Q_TAIL past its ring (R341), the group table (R346). -/
def mstRefused (p : Pkg) (a v : Nat) : Bool :=
  (decide (0x03200000 ≤ a) && decide (a < 0x03202000)) ||
  (decide (0x03100000 ≤ a) && decide (a < 0x03110000) && a % 64 == 0x10 &&
    (let q := p.queue ((a - 0x03100000) / 64)
     decide (q.size < since (v % 2 ^ 32) q.head)))

def sysMst (a v : Nat) (p : Pkg) : SysRes :=
  if !hasReg a then .fin p 4 0
  else if mstRefused p a v then .fin p 6 0
  else .row p (writeRow a v p)

def sysMld (a : Nat) (p : Pkg) : SysRes :=
  match regRead a p with
  | some v => .fin (p.drawn telemetryDraws) 0 v
  | none => .fin p 4 0

/-! ## Invalidation (R317, R332) -/

/-- An outstanding access used a removed translation: of the pages whose walks share a table entry with that of a kind 2, a write still
to be performed, or an access of a command that translated once and goes on. One that walks again uses none (R332, R334, R363, R374)
(log 68). -/
def stillUses (p : Pkg) (kind asid va : Nat) (m : Command) : Bool :=
  let hit (e : Nat × Nat) : Bool :=
    match kind with
    | 0 => true
    | 1 => e.1 == asid
    | _ => e.1 == asid && onPath va e.2
  m.phase != .parked && (m.pages ++ m.leaves.map fun l => (l.1, l.2.1)).any fun e => hit e && usesPage p e.1 e.2 m

/-- The same of an access of the host's (R381, R382). -/
def hostUses (p : Pkg) (kind asid va : Nat) : Bool :=
  (hostPages p).any fun e => kind == 0 || (e.1 == asid && (kind == 1 || onPath va e.2))

def sysTlbi (kind asid va : Nat) (p : Pkg) : SysRes :=
  if kind = 3 then .fin p 6 0
  else
    let p := invalidate kind asid va p
    if p.allCmds.any (stillUses p kind asid va) || hostUses p kind asid va then .wait p else .fin p 0 0

/-! ## Local records (R317, R369) -/

/-- A word of the linear scratchpad as an operation of context x reads it: a performed store of the context, and one through the
linear view, is observed; a pending one may be. -/
def sysWord (p : Pkg) (x w : Nat) : Lane :=
  let k := p.k (coreOf x)
  let visible (e : Stale) : Bool := e.any || !e.swz || e.known.any fun kn => kn.ctx == x
  let base := viewBytes p.fresh visible w 0 k.stale.reverse [] (k.spad.getMany (4 * w) 4)
  let pend := pending (p.c x)
  let bs := ((List.range pend.length).zip pend).foldl
    (fun bs q => if touches w q.2.bytes && sees p.fresh (k.stale.length + q.1) w then overlay w q.2.bytes bs else bs) base
  BitVec.ofNat 32 (natOf bs)

/-- A local record: none where it does not lie wholly in the linear scratchpad at a multiple of 8. -/
def sysLocal (p : Pkg) (x a n : Nat) : Option (List Byte) :=
  if Eng.linear a n 8 then some ((List.range (n / 4)).flatMap fun i => bytesOf 4 (sysWord p x (a / 4 + i)).toNat) else none

/-- A record with an uncorrectable codeword. -/
def badLocal (p : Pkg) (x a n : Nat) : Bool :=
  (List.range ((a + n - 1) / 64 - a / 64 + 1)).any fun i => (p.k (coreOf x)).poison.get (a / 64 + i)

/-! ## The group table (R346) -/

/-- The number of logical cores (R337). -/
def nlog (p : Pkg) : Nat := bits (p.regv 0x03000010) 14 8

/-- A record keeps the layout of R346. -/
def groupRecordOk (p : Pkg) (b : List Byte) : Bool :=
  decide (field b 0 16 < 2 ^ nlog p) && decide (field b 16 1 ≤ field b 17 1) && decide (field b 17 1 ≤ 127) &&
  decide (field b 18 1 ≤ 1) && field b 19 13 == 0

/-- Valid entries that hold a logical core. -/
def groupsOf (p : Pkg) (lcore : Nat) : Nat :=
  ((List.range 256).filter fun g => (p.group g).valid && (p.group g).members.testBit lcore).length

/-- The group-table entries that a launch record names (R342). -/
def recordGroups (b : List Byte) : List Nat := ((List.range 4).filter (field b 52 1).testBit).map fun i => field b (48 + i) 1

def sysGrp (x i a : Nat) (p : Pkg) : SysRes :=
  match sysLocal p x a 32 with
  | none => .fin p 4 0
  | some b =>
    let p := p.drawn (accessDraws p x)
    if badLocal p x a 32 then .fin p 5 0
    else
      let q := { p with groups := p.groups.set i b }
      if !groupRecordOk p b || ((List.range 128).any fun l => decide (4 < groupsOf q l)) ||
         p.liveNodes.any (fun n => n.groups.contains i) || p.taking.any (fun t => (recordGroups t.bytes).contains i) then .fin p 6 0
      else .fin q 0 0

/-! ## Launch by firmware (R317, R341) -/

/-- The address of a queue's launch record i. -/
def launchSlot (q : Queue) (i : Nat) : Nat := bits q.ring 55 9 * 2 ^ 9 + 512 * (i % q.size)

/-- The node identifier of the record posted as the (n + 1)-th since enable (R341). -/
def nodeIdOf (q n : Nat) : Nat := q * 2 ^ 48 + (1 + n % (2 ^ 48 - 1))

/-- Q_TAIL moves on to v: the records it covers are posted. -/
def setTail (q v : Nat) (p : Pkg) : Pkg :=
  let w := p.queue q
  { (p.setReg (queueReg q 0x10) v) with posted := p.posted.set q (p.posted.get q - since w.tail w.head + since v w.head) }

def sysLaunch (x a q : Nat) (p : Pkg) : SysRes :=
  match sysLocal p x a 512 with
  | none => .fin p 4 0
  | some b =>
    let p := p.drawn (accessDraws p x)
    let w := p.queue q
    if badLocal p x a 512 then .fin p 5 0
    else if !w.enable || !w.fw || since w.tail w.head == w.size then .fin p 6 0
    else
      let id := nodeIdOf q (p.posted.get q)
      let p := writeCells (cellsAt (launchSlot w w.tail) b) p
      .fin (setTail q ((w.tail + 1) % 2 ^ 32) p) 0 id

/-! ## Snapshots (R318, R322, R323) -/

/-- Poisoned storage of a core: its area cannot be captured (log 66). -/
def coreBad (k : Core) : Bool := !k.poison.isEmpty || !k.badAcc.isEmpty

/-- Every context of the core is frozen or unbound. -/
def coreStill (p : Pkg) (n : Nat) : Bool :=
  (List.range 4).all fun i => (p.c (4 * n + i)).phase == .frozen || (p.c (4 * n + i)).phase == .unbound

/-- What an access that came to nothing leaves: records, marks, counts. -/
def keepNotes (r p : Pkg) : Pkg :=
  { p with faultq := r.faultq, poisonTbl := r.poisonTbl, reg := r.reg, failed := r.failed, nextGroup := r.nextGroup, fresh := r.fresh }

def sysSnap (env : Env) (x y : Nat) (o : SysOp) (p : Pkg) : SysRes :=
  let core := o.b.getLsbD 0
  let evict := o.b.getLsbD 1
  let d := o.d.toNat
  if (p.c y).phase ≠ .frozen ∨ (core ∧ !coreStill p (coreOf y)) then .fin p 2 0
  else if d % 4096 ≠ 0 ∨ 2 ^ 56 ≤ d then .fin p 4 0
  else
    let n := (p.c y).node.getD 0
    if evict && (p.node n).resident && !nodeFrozen p n then .fin p 6 0
    else if core && coreBad (p.k (coreOf y)) then .fin p 5 0
    else
      if evict && ((parking y p).2 || !(p.c y).sysq.isEmpty) then .wait p
      else
        let q := capture env y core evict (if evict then parkAll env y p else p)
        match sysAccess env x o (Eng.devWrite d (imageBytes q.2 (windowOf q.1 q.2.ctx)) >>= fun _ => return (← get).writes) q.1 with
        | .wait r => .wait (keepNotes r p)
        | .status n r => .fin (keepNotes r p) n 0
        | .ok ws r =>
          let r := ws.foldl (fun r w => sysWrite env x o w r) r
          let r := { r with images := r.images ++ [q.2] }
          .fin (if evict then evictCtx y r else r) 0 0

/-- The image that bytes of device memory are: the one captured last among those that agree with them. -/
def findImage (p : Pkg) (bs : List Byte) : Option Image :=
  p.images.reverse.find? fun i => sameImage (imageBytes i (bs.drop 0x800 |>.take 512)) bs

def sysSnapld (env : Env) (x y : Nat) (o : SysOp) (p : Pkg) : SysRes :=
  let core := o.b.getLsbD 0
  let hold := o.b.getLsbD 1
  let d := o.d.toNat
  if (p.c y).phase ≠ .unbound then .fin p 2 0
  else if d % 4096 ≠ 0 ∨ 2 ^ 56 ≤ d then .fin p 4 0
  else match sysAccess env x o (Eng.devRead d 64) p with
  | .wait p => .wait p
  | .status n p => .fin p n 0
  | .ok h p =>
    let size := field h 4 4
    if field h 0 2 ≠ 1 ∨ field h 8 1 ≠ coreOf y ∨ size ≠ imageSize ((field h 2 2).testBit 0) ∨ (core ∧ size ≠ imageSize true) then
      .fin p 3 0
    else match sysAccess env x o (Eng.devRead d size) p with
    | .wait p => .wait p
    | .status n p => .fin p n 0
    | .ok bs p =>
      let node := field bs 0x10 8
      let part := field bs 0xC 4
      if !p.live node || (p.ctxsOf node).any (fun z => (p.c z).part == part) then .fin p 3 0
      else match findImage p bs with
      | none => .altered
      | some i =>
        if i.void then .fin p 3 0
        else if core && !((List.range 4).all fun c => (p.c (4 * coreOf y + c)).phase == .unbound) then .fin p 2 0
        else .fin (restore env y i bs core hold p) 0 0

/-! ## SYS_RECORD_WRITE -/

/-- The effect of an accepted operation (log 62). -/
def sysEffect (env : Env) (x : Nat) (o : SysOp) (p : Pkg) : SysRes :=
  let a := o.a.toNat
  let d := o.d.toNat
  let b := o.b.toNat
  let onTarget (f : Nat → SysRes) : SysRes := match sysTarget p x a with | some y => f y | none => .fin p 1 0
  match o.op with
  | 3 => sysMld a p
  | 4 => sysMst a d p
  | 5 => onTarget fun y => sysSnap env x y o p
  | 6 => onTarget fun y => sysSnapld env x y o p
  | 7 => onTarget fun y => sysFreeze env y b p
  | 8 => if bits b 1 1 = 1 then sysThawNode env d p else onTarget fun y => sysThaw env y b p
  | 9 => sysTlbi (b % 4) (a % 65536) d p
  | 11 => sysGrp x (a % 256) d p
  | _ => sysLaunch x a (b % 1024) p

/-- The record of the first accepted operation, which leaves the list with it. -/
def writeSysRecord (x : Nat) (o : SysOp) (value status : Nat) (p : Pkg) : Pkg :=
  let at_ := o.c.toNat
  let p := engineWrite (coreOf x) (cellsAt at_ (bytesOf 8 value ++ bytesOf 4 status ++ bytesOf 4 0)) (wordsOf at_ 16) p
  p.modC x fun c => { c with sysq := c.sysq.tail }

/-- SYS_RECORD_WRITE: the context's first accepted operation performs its effect and writes its record; one that cannot end yet
stays. -/
def execSysRecordWrite (x : Nat) (s : State) : Out :=
  match (s.pkg.c x).sysq with
  | [] => .next s
  | o :: _ =>
    if s.pkg.powerOf (coreOf x) ≠ 0 then .next s
    else if o.done then s.put (writeSysRecord x o o.value.toNat o.status s.pkg)
    else match sysEffect s.env x o s.pkg with
      | .wait p => s.put p
      | .fin p status value => s.put (writeSysRecord x o value status p)
      | .row p i =>
        let p := p.modC x fun c => { c with sysq := { o with done := true } :: c.sysq.tail }
        s.put (p.push [.run i, .run (.sysRecordWrite x)])
      | .altered => .fault .alteredImage

end Sys2Proof.Machine
end

