-- ==== Sys2Proof/Machine/Launch.lean ====
section
/-! DEFINITION. Queues and launch (R337 to R345, R348): taking a record, refusing it, completion records, the start of a node
and the agreement of a gang. -/

namespace Sys2Proof.Machine

/-! ## The launch record (R342) -/

/-- A region entry: base, length, layout, rflags. -/
structure Region where
  base   : Nat
  len    : Nat
  layout : Nat
  flags  : Nat
  deriving DecidableEq, Repr, Inhabited

def recRegions (b : List Byte) : List Region :=
  ((List.range 16).map fun i =>
    let o := 128 + 24 * i
    (⟨field b o 8, field b (o + 8) 8, field b (o + 16) 4, field b (o + 20) 4⟩ : Region)).filter fun r => r.len != 0

/-- The node that a record describes. -/
def nodeOf (id queue order time : Nat) (fw : Bool) (b : List Byte) : Node :=
  let f := field b 2 1
  let flag (i : Nat) : Bool := f.testBit i
  { id := id, queue := queue, order := order, priority := field b 3 1 % 8, resident := flag 0, restart := flag 1,
    smode := flag 2 && fw, cbright := flag 3, gang := flag 4, asid := field b 4 2, nparts := field b 6 2,
    image := field b 8 8, args := field b 16 8, alen := field b 24 4, aplace := field b 28 4, cores := field b 32 16,
    groups := recordGroups b, seed := field b 56 8,
    preds := ((List.range 4).map fun i => field b (64 + 8 * i) 8).filter (· != 0), tick := field b 96 8,
    pkgs := field b 104 8, taken := time, rollbacks := 0,
    outputs := ((recRegions b).filter fun r => r.flags % 2 == 1).map fun r => (r.base, r.len) }

/-- Reason 1: version, reserved bytes and field ranges. -/
def recordFormOk (p : Pkg) (b : List Byte) : Bool :=
  let n := nodeOf 0 0 0 0 true b
  field b 0 2 == 1 && decide (field b 2 1 < 32) && decide (field b 3 1 < 8) && decide (1 ≤ n.nparts) && n.image % 64 == 0 &&
  decide (n.alen ≤ 65536) && n.alen % 4 == 0 && n.aplace % 4 == 0 && decide (0 < n.cores) && decide (n.cores < 2 ^ nlog p) &&
  decide (field b 52 1 < 16) && field b 53 3 == 0 && field b 112 16 == 0 &&
  (recRegions b).all fun r =>
    r.base % 64 == 0 && r.len % 64 == 0 && decide (r.flags ≤ 1) &&
    (!(r.flags == 1 && n.restart) || (r.base % 65536 == 0 && r.len % 65536 == 0)) &&
    (r.layout == 0 || r.base % 65536 == 0)

/-- Some page of a region maps a host-shared page (R92). -/
def mapsShared (p : Pkg) (asid : Nat) (r : Region) : Bool :=
  (List.range ((r.base + r.len - 1) / 65536 - r.base / 65536 + 1)).any fun i =>
    match walk p asid ((r.base / 65536 + i) * 65536) with
    | .leaf l => leafKind l.entry == 3 && leafShared l.entry
    | _ => false

/-- Some two regions overlap. -/
def regionsOverlap : List Region → Bool
  | [] => false
  | r :: rs => rs.any (fun q => decide (r.base < q.base + q.len) && decide (q.base < r.base + r.len)) || regionsOverlap rs

/-- Reason 5: layouts (R90), overlap, output regions on host-shared pages. -/
def regionsOk (p : Pkg) (asid : Nat) (rs : List Region) : Bool :=
  rs.all (fun r => r.layout == 0 || (regionAt p asid r.base).any fun s => s.layout == r.layout) && !regionsOverlap rs &&
  rs.all fun r => !(r.flags % 2 == 1 && mapsShared p asid r)

/-- The number of a posting within its queue, from its node identifier (R341). -/
def postingOf (id : Nat) : Nat := id % 2 ^ 48

/-- The reason of R345 for which a record is refused before its image is read. -/
def refuseReason (p : Pkg) (id : Nat) (b : List Byte) : Option Nat :=
  let n := nodeOf id 0 0 0 true b
  if !recordFormOk p b then some 1
  else if (findSlot p n.asid).isNone then some 2
  else if n.groups.any fun g => !(p.group g).valid then some 3
  else if n.resident && decide (4 < ceilDiv n.nparts (dealSequence p n.cores).length) then some 4
  else if !regionsOk p n.asid (recRegions b) then some 5
  else if n.preds.any fun q => q / 2 ^ 48 == id / 2 ^ 48 && decide (postingOf id ≤ postingOf q) then some 6
  else if n.gang && !(n.pkgs.testBit p.number && decide (n.pkgs ≠ 2 ^ p.number) && inSync p) then some 7
  else none

/-! ## Reads of the launch unit (R330, R345) -/

/-- What a read of the launch unit comes to. -/
inductive UnitRead (α : Type) where
  | ok (a : α) (p : Pkg)
  | wait
  | held (p : Pkg)
  | fail (p : Pkg)

/-- Reads through a node's ASID: a translation fault holds them with a record of kind 0x04 that names the node; a retired page or
uncorrectable data fails them. No context or engine queue is frozen by it (R354) (log 70). -/
def unitRead {α : Type} (env : Env) (asid node core : Nat) (body : Eng α) (p : Pkg) : UnitRead α :=
  let name (r : FaultRec) : FaultRec :=
    { r with source := if r.source < 500 then 600 else r.source, flags := r.flags % 2, node := node, ctx := 0, pcore := 0x7F }
  let own (q : Pkg) : Pkg :=
    { q with ctx := p.ctx, faultq := q.faultq.take p.faultq.length ++ (q.faultq.drop p.faultq.length).map name }
  match body ⟨env, { id := 0, ctx := 288, asid := asid, node := node }⟩ { p := p } with
  | .ok a w => .ok a (own w.p)
  | .error .wait _ => .wait
  | .error (.held h) w =>
    .held { own w.p with held := p.held ++ [{ h with cmd := none, node := some node, core := core }] }
  | .error _ w => .fail (own w.p)

/-- A node's reads for a core are held. -/
def nodeHeld (p : Pkg) (node core : Nat) : Bool := p.held.any fun h => h.node == some node && h.core == core

/-! ## The kernel image (R343) -/

structure Section where
  from_  : Nat
  dest   : Nat
  len    : Nat
  kind   : Nat
  deriving DecidableEq, Repr, Inhabited

structure ImageHead where
  version : Nat
  nsec    : Nat
  entry   : Nat
  tvec    : Nat
  flags   : Nat
  reserved : Nat
  deriving DecidableEq, Repr, Inhabited

def imageHeadOf (b : List Byte) : ImageHead :=
  { version := field b 0 2, nsec := field b 2 2, entry := field b 4 4, tvec := field b 8 4, flags := field b 12 1,
    reserved := field b 13 3 }

def sectionsOf (b : List Byte) (n : Nat) : List Section :=
  (List.range n).map fun i =>
    let o := 16 * i
    ⟨field b o 4, field b (o + 4) 4, field b (o + 8) 4, field b (o + 12) 1⟩

/-- A range lies in the linear scratchpad, clear of the notice ring. -/
def clearOfRing (a n : Nat) : Bool := decide (a + n ≤ 0x7FFF00)

/-- Reason 8, but for readability. -/
def imageOk (n : Node) (h : ImageHead) (ss : List Section) : Bool :=
  h.version == 1 && decide (h.nsec ≤ 4096) && decide (h.flags ≤ 1) && h.reserved == 0 && clearOfRing n.aplace n.alen &&
  ss.all fun s => decide (s.kind ≤ 2) && (if s.kind = 1 then decide (s.dest < 64) && s.len == 64 else clearOfRing s.dest s.len)

/-- The notice ring, in the footprint of an image that sets the ring flag (R201, R344). -/
def noticeRing : Nat × Nat := (0x7FFF00, 256)

/-- The footprint of a kernel image on a core (R344). -/
def footprint (n : Node) (h : ImageHead) (ss : List Section) : List (Nat × Nat) :=
  ((ss.filter fun s => s.kind != 1).map fun s => (s.dest, s.len)) ++ [(n.aplace, n.alen)] ++
  (if h.flags % 2 = 1 then [noticeRing] else [])

/-- The header and the sections of a node's image. -/
def readImage (n : Node) : Eng (ImageHead × List Section) := do
  let h := imageHeadOf (← Eng.devRead n.image 16)
  let ss ← if h.nsec ≤ 4096 then Eng.devRead (n.image + 16) (16 * h.nsec) else pure []
  return (h, sectionsOf ss (if h.nsec ≤ 4096 then h.nsec else 0))

/-- The contents that the image and the argument block place in a core: bytes by linear address, templates by number. -/
def readContents (n : Node) (ss : List Section) : Eng (List Host.Cell × List (Nat × List Byte)) := do
  let mut cells : List Host.Cell := []
  let mut tmpls : List (Nat × List Byte) := []
  for s in ss do
    if s.kind = 0 then cells := cells ++ cellsAt s.dest (← Eng.devRead (n.image + s.from_) s.len)
    else if s.kind = 1 then tmpls := tmpls ++ [(s.dest, ← Eng.devRead (n.image + s.from_) 64)]
    else pure ()
  let args ← Eng.devRead n.args n.alen
  return (cells ++ cellsAt n.aplace args, tmpls)

/-- The check at take reads everything that a load will. -/
def checkImage (n : Node) : Eng (ImageHead × List Section) := do
  let r ← readImage n
  Eng.need (imageOk n r.1 r.2) 8
  let _ ← readContents n r.2
  return r

/-! ## Completion (R340, R348, R379) -/

/-- Bytes written to a ring in device memory; the host's part of it is lost with its link (R382), and nothing changes a failed plane
(R363) (log 70). -/
def ringWrite (at_ : Nat) (bs : List Byte) (p : Pkg) : Pkg :=
  if !isDram at_ && !p.hostUp then countUp 0x07000000 47 32 p
  else if (Eng.failedAt p at_).isSome then p
  else writeCells (cellsAt at_ bs) p

/-- Where a queue's next completion record is written. -/
def completionSlot (p : Pkg) (q : Nat) : Nat := bits (p.queue q).cpl 55 5 * 32 + 32 * ((p.queue q).cplTail % (p.queue q).size)

/-- A completion record's first unobserved engine fault: token and status, core and context (R348) (log 74). -/
def faultDetail (n : Node) : Nat := n.unseen.getD 0

/-- A record of an access of the hub to a failed plane, which it joins (R363); it has no requester's context or engine queue (R354). -/
def joinHub (dtime node k : Nat) (p : Pkg) : Pkg :=
  match Eng.failedAt p k with
  | none => p
  | some f => (Eng.joinPlane { time := dtime, kind := 7, flags := 1, code := f.category, node := node, dpa := k } f p).1

/-- A vector of a function: sent, or pending while the host has masked it (R378, R379) (log 11). -/
def sendVector (v : Nat) (p : Pkg) : Pkg :=
  if p.masked.get v then { p with pendingVec := p.pendingVec.set v true } else emit (.msix (v / 1024) (v % 1024)) p

/-- A completion record is written, then Q_CPL_TAIL advances and the owning function's vector is sent (R341, R379). -/
def writeCompletion (dtime : Nat) (o : Owed) (p : Pkg) : Pkg :=
  let q := o.id / 2 ^ 48
  let w := p.queue q
  let p := ringWrite (completionSlot p q) o.bytes p
  let p := p.setReg (queueReg q 0x28) ((w.cplTail + 1) % 2 ^ 32)
  sendVector (1024 * w.fn + q) (logEvent ⟨dtime, 3, o.id, o.word⟩ p)

/-- A queue's next completion record is to be written to a failed plane (R363). -/
def completionHeld (p : Pkg) (q : Nat) : Bool := (Eng.failedAt p (completionSlot p q)).isSome

/-- The completion record is posted, behind those of its queue that wait; where the slot lies in a failed plane it waits with them
(R341, R363, R379) (log 70). -/
def postCompletion (dtime : Nat) (id status reason rollbacks detail : Nat) (p : Pkg) : Pkg :=
  let bs := bytesOf 8 id ++ bytesOf 8 dtime ++ bytesOf 1 status ++ bytesOf 1 reason ++ bytesOf 2 rollbacks ++
            bytesOf 4 detail ++ zeros 8
  let o : Owed := ⟨id, bs, status + 256 * reason⟩
  let q := id / 2 ^ 48
  if completionHeld p q || p.owed.any (fun e => e.id / 2 ^ 48 == q) then
    joinHub dtime id (completionSlot p q) { p with owed := p.owed ++ [o] }
  else writeCompletion dtime o p

/-- The completion records that wait are written as far as their planes serve them. -/
def settleOwed (dtime : Nat) (p : Pkg) : Pkg :=
  p.owed.foldl (fun p o =>
    let q := o.id / 2 ^ 48
    if completionHeld p q || p.owed.find? (fun e => e.id / 2 ^ 48 == q) != some o then p
    else writeCompletion dtime o { p with owed := p.owed.erase o }) p

/-- The other packages of a gang. -/
def gangOthers (p : Pkg) (n : Node) : List Nat :=
  if n.gang then (List.range 64).filter fun k => n.pkgs.testBit k && k != p.number else []

/-- A word about a gang goes to its other packages (R348, R383), a proposal with the groups in which this package has parts (R384). -/
def gangSay (n : Node) (word tick : Nat) (p : Pkg) : Pkg :=
  let groups := if word = 0 then sharedGroups p n.id else []
  let say (own k : Nat) : LinkMessage := {
    source := own, target := k, kind := 10, sequence := 0
    data := bytesOf 8 n.id ++ bytesOf 1 word ++ bytesOf 8 tick ++ groups.flatMap (bytesOf 1) }
  (gangOthers p n).foldl (fun p k => emit (.message k (say p.number k)) p) p

/-- A node is refused: its completion record, and no more (R345); a gang is refused everywhere (log 89). -/
def refuseNode (dtime : Nat) (n : Node) (reason : Nat) (p : Pkg) : Pkg :=
  gangSay n 1 0 (postCompletion dtime n.id 2 reason 0 0 { p with nodes := p.nodes.erase n.id,
                                                                  taking := p.taking.filter fun t => t.id != n.id })

/-! ## RECORD_TAKE (R341, R345) -/

/-- The queue gives a record now; one of whose rings a failed plane keeps the next slot gives none (R363) (log 70). -/
def canTake (p : Pkg) (q : Nat) : Bool :=
  let w := p.queue q
  w.enable && w.head != w.tail && decide (since w.head w.cplHead < w.size) &&
  (p.hostUp || isDram (launchSlot w w.head)) && (Eng.failedAt p (launchSlot w w.head)).isNone && (Eng.failedAt p (completionSlot p q)).isNone

/-- The queues in the order in which the queue manager looks at them. -/
def queueOrder (last : Nat) : List Nat := (List.range 1024).map fun i => (last + 1 + i) % 1024

/-- The records taken from a queue since its enable. -/
def takenCount (p : Pkg) (q : Nat) : Nat := let w := p.queue q; p.posted.get q - since w.tail w.head

/-- A record is read once and Q_HEAD advances; data that is uncorrectable is open (log 70). What is left of an earlier gang of its
identifier is gone (log 44). -/
def takeFrom (dtime q : Nat) (p : Pkg) : Pkg × TakenRec :=
  let w := p.queue q
  let at_ := launchSlot w w.head
  let bad := (List.range 16).any fun i => p.badSector.get (at_ / 32 + i)
  let id := nodeIdOf q (takenCount p q)
  let t : TakenRec := { id := id, queue := q, order := p.nextOrder, fw := w.fw, time := dtime,
                        bytes := if bad then openBytes 512 (p.fresh + 2 ^ 60) else p.mem.getMany at_ 512 }
  let p := p.setReg (queueReg q 0x18) ((w.head + 1) % 2 ^ 32)
  (logEvent ⟨dtime, 1, id, q⟩ ({ p with
    nextOrder := p.nextOrder + 1, lastQueue := q, taking := p.taking ++ [t], shares := p.shares.filter fun h => h.node != id,
    arrivals := p.arrivals.filter fun a => a.node != id }.drawn 1), t)

/-- The node that a taken record describes. -/
def takenNode (t : TakenRec) : Node := { nodeOf t.id t.queue t.order t.time t.fw t.bytes with rollbacks := t.rollbacks, met := t.met }

/-- The image of a taken record is read; it is refused, held, or its node is live and waits (R345). -/
def readRecord (env : Env) (t : TakenRec) (p : Pkg) : Pkg :=
  let n := takenNode t
  match unitRead env n.asid t.id 300 (checkImage n) p with
  | .wait => p
  | .held p => p
  | .fail p => refuseNode env.dtime n 8 p
  | .ok r p => { p with taking := p.taking.filter fun u => u.id != t.id, nodes := p.nodes.set t.id { n with foot := footprint n r.1 r.2 } }

/-- The walks of a record's output regions, for what they meet poisoned (R335, R345). -/
def markRegions (dtime : Nat) (n : Node) (p : Pkg) : Pkg :=
  n.outputs.foldl (fun p r => (List.range ((r.1 + r.2 - 1) / 65536 - r.1 / 65536 + 1)).foldl
    (fun p i => noteMark dtime n.asid ((r.1 / 65536 + i) * 65536) p) p) p

/-- A taken record is tested once; it is refused, or its image is read. -/
def admitRecord (env : Env) (t : TakenRec) (p : Pkg) : Pkg :=
  match refuseReason p t.id t.bytes with
  | some r => refuseNode env.dtime (takenNode t) r p
  | none => readRecord env t (markRegions env.dtime (takenNode t) p)

/-- RECORD_TAKE: a taken record whose reads are no longer held is read again, or the next one is taken (logs 60, 70). -/
def execRecordTake (s : State) : Out :=
  let p := s.pkg
  match p.taking.find? fun t => !nodeHeld p t.id 300 with
  | some t => s.put (readRecord s.env t p)
  | none =>
    if bits (p.regv 0x03000010) 0 0 = 0 ∨ frozenDispatch p ∨ 4096 ≤ p.nodes.length + p.taking.length then .next s
    else match (queueOrder p.lastQueue).find? (canTake p) with
      | none => .next s
      | some q =>
        let r := takeFrom s.env.dtime q p
        s.put (admitRecord s.env r.2 r.1)

/-! ## Start (R31, R347, R348) -/

/-- A predecessor is satisfied: taken and no longer live. -/
def predSatisfied (p : Pkg) (id : Nat) : Bool :=
  !p.live id && !(p.taking.any fun t => t.id == id) && decide (postingOf id ≤ takenCount p (id / 2 ^ 48))

/-- Every predecessor of a node has completed; one that had when its queue was enabled anew has (R348). -/
def predsMet (p : Pkg) (n : Node) : Bool := n.preds.all fun q => n.met.contains q || predSatisfied p q

/-- What a queue's new enable would forget: which predecessors of the nodes that wait are satisfied (R340, R348). -/
def keepMet (q : Nat) (p : Pkg) : Pkg :=
  let met (old ps : List Nat) : List Nat := (old ++ ps.filter fun n => n / 2 ^ 48 == q && predSatisfied p n).eraseDups
  { p with nodes := p.nodes.map fun e => (e.1, if e.2.phase = .waiting then { e.2 with met := met e.2.met e.2.preds } else e.2)
           taking := p.taking.map fun t => { t with met := met t.met (nodeOf t.id 0 0 0 t.fw t.bytes).preds } }

/-- The deal: every part of a node goes to its core (R347). -/
def deal (clock id : Nat) (p : Pkg) : Pkg :=
  let n := p.node id
  (dealSequence p n.cores).eraseDups.foldl (fun p core =>
    let parts := (partsOn p n core).map fun i => (id, i)
    admitParts clock core 16 (p.modK core fun k => { k with backlog := k.backlog ++ parts })) p

/-- The node runs: it is dealt (log 72). -/
def startNode (env : Env) (id : Nat) (p : Pkg) : Pkg :=
  logEvent ⟨env.dtime, 2, id, 0⟩ (deal env.clock id (p.modNode id fun n => { n with phase := .running }))

/-! ## Gangs (R47, R348) -/

/-- The agreed tick, once every package has proposed. -/
def agree (id : Nat) (p : Pkg) : Pkg :=
  let n := p.node id
  let all := (List.range 64).filter n.pkgs.testBit
  if n.phase = .agreeing ∧ (all.all fun k => n.proposals.any fun q => q.1 == k) then
    p.modNode id fun n => { n with agreed := some (n.proposals.foldl (fun a q => max a q.2) 0) }
  else p

/-- The lead of GANG_CTL, and its timeout in nanoseconds. -/
def gangLead (p : Pkg) : Nat := bits (p.regv 0x03000030) 31 0
def gangTimeout (p : Pkg) : Nat :=
  let t := bits (p.regv 0x03000030) 63 32
  1000 * (if t = 0 then 1000 else t)

/-- The time within which every package has to have proposed is over (R348). -/
def gangLate (env : Env) (p : Pkg) (n : Node) : Bool :=
  n.phase == .agreeing && n.agreed.isNone && decide (n.proposedAt.getD 0 + gangTimeout p ≤ env.dtime)

/-- What another package said of a gang takes effect on a live node: a proposal within the timeout counts, one after it refuses the gang;
a refusal stops a gang that has not started, and fails one that has (R348) (log 71). -/
def gangHear (env : Env) (id pkg : Nat) (w : GangWord) (p : Pkg) : Pkg :=
  let n := p.node id
  match w with
  | .proposal t gs =>
    if n.proposals.any fun q => q.1 == pkg then p
    else if gangLate env p n then refuseNode env.dtime n 7 p
    else agree id (p.modNode id fun n => { n with proposals := n.proposals ++ [(pkg, t)], members := n.members ++ gs.map fun g => (pkg, g) })
  | .refused =>
    if n.phase = .waiting ∨ n.phase = .agreeing then refuseNode env.dtime n 7 p
    else if n.phase = .running ∨ n.phase = .committing then failNode env.clock id 5 p else p
  | .failed => if n.phase = .waiting ∨ n.phase = .agreeing ∨ n.phase = .running ∨ n.phase = .committing then failNode env.clock id 5 p else p

/-- The package proposes max(tick, take time + lead) (log 71). -/
def propose (env : Env) (id : Nat) (p : Pkg) : Pkg :=
  let n := p.node id
  let t := max n.tick (n.taken + gangLead p)
  let p := p.modNode id fun n =>
    { n with phase := .agreeing, proposedAt := some env.dtime, proposals := n.proposals ++ [(p.number, t)] }
  let p := agree id (gangSay n 0 t p)
  let words := p.early.filter fun e => e.1 == id
  let p := { p with early := p.early.filter fun e => e.1 != id }
  words.foldl (fun p e => if p.live id then gangHear env id e.2.1 e.2.2 p else p) p

/-- No port on the way to a package has failed (R383): a gang with it can still agree (log 73). -/
def edgeLives (p : Pkg) (pkg : Nat) : Bool := match portTo p.number pkg with | some k => !p.deadPorts.contains k | none => true

/-- NODE_START: every predecessor has completed (R31); a gang's package proposes its tick (logs 60, 73). -/
def execNodeStart (node : Nat) (s : State) : Out :=
  let p := s.pkg
  let n := p.node node
  if p.live node && n.phase == .waiting && !frozenDispatch p && predsMet p n then
    if n.gang then
      if inSync p && (gangOthers p n).all (edgeLives p) then s.put (propose s.env node p)
      else s.put (refuseNode s.env.dtime n 7 p)
    else s.put (startNode s.env node p)
  else .next s

/-- GANG_PROPOSAL_RECEIVE: a word about a gang arrives; one for a record not taken here yet is kept. -/
def execGangProposalReceive (node pkg : Nat) (m : GangWord) (s : State) : Out :=
  let p := s.pkg
  if p.live node then
    if (p.node node).gang && (p.node node).pkgs.testBit pkg && pkg != p.number then s.put (gangHear s.env node pkg m p) else .next s
  else if takenCount p (node / 2 ^ 48) < postingOf node ∨ (p.taking.any fun t => t.id == node) then
    s.put { p with early := p.early ++ [(node, pkg, m)] }
  else .next s

/-- GANG_TIMEOUT: a partner has not proposed within the timeout (log 73). -/
def execGangTimeout (node : Nat) (s : State) : Out :=
  let p := s.pkg
  let n := p.node node
  if p.live node && gangLate s.env p n then s.put (refuseNode s.env.dtime n 7 p)
  else .next s

/-- GANG_START_TICK: device time has reached the agreed tick (log 72). -/
def execGangStartTick (node : Nat) (s : State) : Out :=
  let p := s.pkg
  let n := p.node node
  match n.agreed with
  | some t =>
    if p.live node && n.phase == .agreeing && decide (t ≤ s.env.dtime) then s.put (startNode s.env node p) else .next s
  | none => .next s

/-! ## Doorbells (R340, R341, R379) -/

/-- Q_TAIL may be set to v. -/
def tailOk (w : Queue) (v : Nat) : Bool := decide (since v w.head ≤ w.size)

/-- A doorbell store takes effect: one of Q_TAIL past the ring is ignored. -/
def doorbell (tail : Bool) (q v : Nat) (p : Pkg) : Pkg :=
  if tail then (if tailOk (p.queue q) v then setTail q v p else p) else p.setReg (queueReg q 0x30) v

/-- A store to a doorbell block reaches its register inside the package, or by the host's BAR2, where it is ignored unless it comes from
the queue's function (R379); behind window writes of the host it waits for them (R381) (log 82). -/
def storeDoorbell (tail : Bool) (q v : Nat) (how : StorePath) (p : Pkg) : Pkg :=
  match how with
  | .inside => doorbell tail q v p
  | .host fn =>
    if !p.hostUp || (p.queue q).fn != fn then p
    else if p.hostq.any fun r => match r with | .read _ _ => false | _ => true then { p with hostq := p.hostq ++ [.store tail q v fn] }
    else doorbell tail q v p

/-- Q_TAIL_STORE: a store past the ring is ignored, by whatever path. -/
def execQTailStore (q v : Nat) (how : StorePath) (s : State) : Out :=
  if q < 1024 ∧ v < 2 ^ 32 then s.put (storeDoorbell true q v how s.pkg) else .next s

/-- Q_CPL_HEAD_STORE. -/
def execQCplHeadStore (q v : Nat) (how : StorePath) (s : State) : Out :=
  if q < 1024 ∧ v < 2 ^ 32 then s.put (storeDoorbell false q v how s.pkg) else .next s

/-- Q_CTL_ENABLE: a disabled queue is enabled and its pointers are 0; a predecessor that was satisfied stays so. -/
def execQCtlEnable (q v : Nat) (s : State) : Out :=
  if q < 1024 ∧ bits v 0 0 = 1 ∧ !(s.pkg.queue q).enable then
    let p := plainWrite (queueReg q 8) v (keepMet q s.pkg)
    let p := [0x10, 0x18, 0x28, 0x30].foldl (fun p o => p.setReg (queueReg q o) 0) p
    s.put { p with posted := p.posted.set q 0 }
  else .next s

/-- CORE_MAP and nlog agree with the harvest (R338, R339). -/
def mapOk (p : Pkg) (v : Nat) : Bool :=
  let entry (i : Nat) : Nat := bits (p.regv (0x03000040 + i / 8 * 8)) (8 * (i % 8) + 7) (8 * (i % 8))
  let n := bits v 14 8
  n == p.serviceCores.length &&
  (List.range 72).all fun i => entry i == (if i < n then p.serviceCores.getD i 0 else 0xFF)

/-- LAUNCH_CTL_WRITE: a write with enable = 1 is refused unless the map agrees; while launch is enabled nlog stays. After a package
fault nothing enables launch again (R351). -/
def execLaunchCtlWrite (v : Nat) (s : State) : Out :=
  let p := s.pkg
  let a := 0x03000010
  if bits v 0 0 = 0 then .next s
  else if bits (p.regv a) 0 0 = 1 then s.put ((plainWrite a v p).setRegBits 0x03000018 0 0 0)
  else
    let p := plainWrite a v p
    if mapOk p v && !p.broken then s.put ((p.setRegBits a 0 0 1).setRegBits 0x03000018 0 0 0)
    else s.put ((p.setRegBits a 0 0 0).setRegBits 0x03000018 0 0 1)

end Sys2Proof.Machine
end

