-- ==== Sys2Proof/Machine/Nodes.lean ====
section
/-! DEFINITION. The life of a node's parts (R32 to R38, R344, R348 to R350, R356): loading, binding, ending, commit, completion,
rollback and abort. -/

namespace Sys2Proof.Machine

/-! ## KERNEL_IMAGE_LOAD (R37, R344) -/

/-- Two ranges share a word. -/
def wordsMeet (a b : Nat × Nat) : Bool :=
  a.2 != 0 && b.2 != 0 && decide (a.1 / 4 ≤ (b.1 + b.2 - 1) / 4) && decide (b.1 / 4 ≤ (a.1 + a.2 - 1) / 4)
def footprintsMeet (xs ys : List (Nat × Nat)) : Bool := xs.any fun a => ys.any (wordsMeet a)

def isResident (k : Core) (n : Nat) : Bool := k.images.any fun i => i.node == n

/-- A footprint of a node is free on a core (R344). -/
def footprintFree (p : Pkg) (core n : Nat) (foot : List (Nat × Nat)) : Bool :=
  (p.k core).images.all fun i => i.node == n || !footprintsMeet foot i.foot

/-- The bytes of a load with the other bytes of the words they touch, which are 0 (R141); every word is set full. -/
def loadCells (cells : List Host.Cell) : List Host.Cell :=
  let ws := (cells.map fun c => c.1 / 4).eraseDups
  let pad := (ws.flatMap fun w => (List.range 4).map fun i => 4 * w + i).filter fun a => !(cells.any fun c => c.1 == a)
  (pad.map fun a => (a, (0 : Byte))) ++ cells

/-- The image, its templates and the arguments are placed in a core, wholly before any part of the node is bound there. -/
def placeImage (core : Nat) (h : ImageHead) (foot : List (Nat × Nat)) (cs : List Host.Cell × List (Nat × List Byte)) (n : Nat)
    (p : Pkg) : Pkg :=
  let cells := loadCells cs.1
  let p := engineWrite core cells ((cells.map fun c => c.1 / 4).eraseDups) p
  p.modK core fun k => { k with images := k.images ++ [{
    node := n, entry := h.entry, tvec := h.tvec, tmpl := cs.2.foldl (fun m t => m.set t.1 t.2) [], foot := foot }] }

/-- The reads of a load: the image's head, its footprint and its contents, which have to be what R344 accepts. -/
def loadWork (n : Node) : Eng (ImageHead × List (Nat × Nat) × (List Host.Cell × List (Nat × List Byte))) := do
  let r ← readImage n
  Eng.need (imageOk n r.1 r.2) 8
  return (r.1, footprint n r.1 r.2, ← readContents n r.2)

/-- A node's image is wanted on a core: a part of it is queued there, or it is a resident node not bound yet and the core is of its core
set (R344). -/
def imageWanted (p : Pkg) (core node : Nat) : Bool :=
  let n := p.node node
  (p.k core).queue.any (fun e => e.node == node) || (n.resident && n.ran.isEmpty && (dealSequence p n.cores).contains core)

/-- KERNEL_IMAGE_LOAD: the image as it is read now is placed where its footprint is free; a failed read fails the node with reason 7
(R344, R345) (log 60). -/
def execKernelImageLoad (core node : Nat) (s : State) : Out :=
  let p := s.pkg
  let n := p.node node
  if core < 72 ∧ p.live node ∧ n.phase = .running ∧ imageWanted p core node ∧ !isResident (p.k core) node ∧
     p.powerOf core = 0 ∧ !nodeHeld p node core then
    match unitRead s.env n.asid node core (loadWork n) p with
    | .ok r q =>
      if footprintFree p core node r.2.1 then s.put (placeImage core r.1 r.2.1 r.2.2 node q)
      else s.put (q.modNode node fun n => { n with foot := r.2.1 })
    | .wait => .next s
    | .held p => s.put p
    | .fail p => s.put (failNode s.env.clock node 7 p)
  else .next s

/-! ## PART_BIND (R32, R33, R36) -/

/-- The contexts of a core that a part can be bound to (R316, R391) (log 19). -/
def freeCtxs (p : Pkg) (core : Nat) : List Nat :=
  let xs := (List.range 4).map fun i => 4 * core + i
  if p.inService core && p.powerOf core == 0 && !(xs.any fun x => (p.c x).halted) then
    xs.filter fun x => (p.c x).phase == .unbound
  else []

/-- c.g0 to c.g3: the node's groups that contain the core, in the record's order (R36). -/
def groupRegs (p : Pkg) (n : Node) (core : Nat) : List Nat :=
  (n.groups.filter fun g => (p.group g).members.testBit (p.lcoreOf core)).map fun g => 256 + g

/-- The context registers at binding (R36). -/
def entryRegs (p : Pkg) (x : Nat) (n : Node) (part : Nat) (i : Resident) : List (Nat × Nat) :=
  let core := coreOf x
  let g := groupRegs p n core
  [(0x0C0, x % 4), (0x0C1, p.lcoreOf core), (0x0C2, core), (0x0C3, clusterOf core), (0x0C4, dieOf core), (0x0C5, p.number),
   (0x0C6, part), (0x0C7, n.nparts)] ++
  [(0x0C8, n.id), (0x0C9, n.asid), (0x0CA, n.aplace), (0x0CB, b2n n.smode), (0x0CC, g.getD 0 0), (0x0CD, g.getD 1 0),
   (0x0CE, g.getD 2 0), (0x0CF, g.getD 3 0)] ++
  [(0x0D3, (n.seed + part) % 2 ^ 64), (0x0D8, i.tvec)]

/-- The context as a part finds it at binding (R36). -/
def entryCtx (p : Pkg) (x : Nat) (n : Node) (part : Nat) (i : Resident) : Ctx :=
  let c : Ctx := { phase := .ready, pc := i.entry, tmpl := i.tmpl, node := some n.id, sysq := (p.c x).sysq }
  let c := { c with part := part, asid := n.asid, smode := n.smode }
  (entryRegs p x n part i).foldl (fun c r => c.setCr r.1 (BitVec.ofNat 64 r.2)) c

/-- A part is bound to a context; the first part on a core of a node that holds the ring sets the delivery index to 0 (R201). -/
def bindPart (clock x node part : Nat) (p : Pkg) : Pkg :=
  let core := coreOf x
  let n := p.node node
  match (p.k core).images.find? fun i => i.node == node with
  | none => p
  | some i =>
    let p := p.setC x (entryCtx p x n part i)
    let p := learnNode x n.preds (forgetCtx x p)
    let p := p.modK core fun k =>
      { k with queue := k.queue.filter fun e => !(e.node == node && e.part == part),
               ringIdx := if i.foot.contains noticeRing && !n.ran.contains core then 0 else k.ringIdx }
    let p := p.modNode node fun n => { n with ran := (n.ran ++ [core]).eraseDups }
    admitParts clock core 16 p

/-- The parts of a node dealt to a core that have not ended. -/
def partsToRun (p : Pkg) (n : Node) (core : Nat) : List Nat := (partsOn p n core).filter fun i => !n.ended.contains i

/-- On every core of a resident node's core set at once as many contexts are free as it has parts there (R33). -/
def contextsFree (p : Pkg) (node : Nat) : Bool :=
  let n := p.node node
  (dealSequence p n.cores).all fun core => decide ((partsToRun p n core).length ≤ (freeCtxs p core).length)

/-- A resident node can be bound whole: its contexts are free, its parts are queued, and its image is loaded on every core of its core
set (R33, R344) (log 75). -/
def bindsWhole (p : Pkg) (node : Nat) : Bool :=
  let n := p.node node
  contextsFree p node && (dealSequence p n.cores).all fun core =>
    isResident (p.k core) node && (partsToRun p n core).all fun i => (p.k core).queue.any fun e => e.node == node && e.part == i

/-- Contexts in an order that the spec leaves open (R32) (log 19). -/
def freeOrder (fresh : Nat) (xs : List Nat) : List Nat :=
  xs.zipIdx.foldl (fun ys q =>
    let i := Config.freeNat (fresh + q.2) % (ys.length + 1)
    ys.take i ++ q.1 :: ys.drop i) []

/-- A resident node is bound: on each core its parts in increasing number, each to a free context (log 19). Where it has no part its
image is not needed any more (R344) (log 75). -/
def bindWhole (clock node : Nat) (p : Pkg) : Pkg :=
  let n := p.node node
  (dealSequence p n.cores).foldl (fun p core =>
    let parts := partsToRun p n core
    let p := if parts.isEmpty then p.modK core fun k => { k with images := k.images.filter fun i => i.node != node } else p
    (((freeOrder p.fresh (freeCtxs p core)).zip parts).foldl (fun p q => bindPart clock q.1 node q.2 p) p).drawn 4) p

/-- Another node's image keeps a node's own from a core (R344). -/
def imageBlocked (p : Pkg) (core node : Nat) : Bool := !isResident (p.k core) node && !footprintFree p core node (p.node node).foot

/-- A queued part that keeps the parts after it in the order of R32 from being bound: a resident node's where R33 is met, and no other
image keeps its own from one of its cores; another's where its image is resident or nothing keeps it from being loaded (log 75). -/
def eligible (p : Pkg) (core : Nat) (e : Nat × Nat) : Bool :=
  let n := p.node e.1
  if n.resident then contextsFree p e.1 && (dealSequence p n.cores).all fun k => !imageBlocked p k e.1
  else isResident (p.k core) e.1 || (!imageBlocked p core e.1 && !nodeHeld p e.1 core)

/-- PART_BIND: the first part of R32; where its image is still to be loaded, that comes first (logs 19, 60, 75). -/
def execPartBind (x : Nat) (s : State) : Out :=
  let p := s.pkg
  let core := coreOf x
  if !(freeCtxs p core).contains x then .next s
  else
    match firstPart p (((p.k core).queue.map fun e => (e.node, e.part)).filter (eligible p core)) with
    | none => .next s
    | some e =>
      if (p.node e.1).resident then (if bindsWhole p e.1 then s.put (bindWhole s.env.clock e.1 p) else .next s)
      else if isResident (p.k core) e.1 then s.put (bindPart s.env.clock x e.1 e.2 p)
      else .next s

/-! ## PART_END (R35) -/

/-- The faults that a part's tokens leave unobserved, as a completion record names them (R35, R348) (log 74). -/
def unobserved (p : Pkg) (x : Nat) : List Nat :=
  let c := p.c x
  let left := (List.range 64).filterMap fun k =>
    let t := c.tokens.get k
    if t.state = .complete ∧ t.status ≠ 0 ∧ !t.acked then some (k + 256 * t.status) else none
  (c.unseen ++ left).map fun w => w + 2 ^ 16 * p.lcoreOf (coreOf x) + 2 ^ 24 * (x % 4)

/-- Every part of a node has ended: it commits if it is restartable. -/
def afterParts (node : Nat) (p : Pkg) : Pkg :=
  let n := p.node node
  if (List.range n.nparts).all n.ended.contains then
    p.modNode node fun n => { n with phase := if n.restart then .committing else .ending }
  else p

/-- The last part of a node dealt to a core has ended: its image is no longer resident there (R344), and the notices of the node
delivered there are acknowledged (R203). -/
def leaveCore (node core : Nat) (p : Pkg) : Pkg :=
  if partsLeft p node core then p
  else
    let p := p.modK core fun k => { k with images := k.images.filter fun i => i.node != node }
    let ns := p.notices.filter fun m => m.accepted && m.pkg == p.number && m.core == core && m.node == node
    ns.foldl (fun p m => acknowledge m.id p) p

/-- A part ends (R35) (log 20): what it knew comes before its node's completion (R102, R109). -/
def endPart (x node : Nat) (p : Pkg) : Pkg :=
  let part := (p.c x).part
  let bad := unobserved p x
  let known := (p.c x).after
  let p := (unbindCtx x (handOver x node p)).drawn 1
  let p := p.modNode node fun n =>
    { n with
      after := (n.after ++ known).eraseDups
      ended := n.ended ++ [part]
      unseen := match n.unseen with
        | some w => some w
        | none => if bad.isEmpty then none else some (bad.getD (Config.freeNat p.fresh % bad.length) 0) }
  afterParts node (leaveCore node (coreOf x) p)

/-- PART_END: a draining part ends once its commands have completed and its sys records are written. -/
def execPartEnd (x : Nat) (s : State) : Out :=
  let p := s.pkg
  let c := p.c x
  if c.phase = .draining ∧ (p.cmdsOf x).isEmpty ∧ c.sysq.isEmpty then
    match c.node with
    | some n => s.put (endPart x n p)
    | none => s.put (unbindCtx x p)
  else .next s

/-! ## Rollback and abort (R349, R356) -/

/-- LAUNCH_CTL.retry. -/
def retryLimit (p : Pkg) : Nat := bits (p.regv 0x03000010) 19 16

/-- A node is re-queued whole: dealt again where it had been dealt; a rollback beyond the limit fails it with reason 3 (log 77). -/
def rollback (env : Env) (node : Nat) (p : Pkg) : Pkg :=
  let n := p.node node
  let p := stopNode env.clock node p
  if retryLimit p ≤ n.rollbacks then failNode env.clock node 3 p
  else if n.phase = .waiting ∨ n.phase = .agreeing then p.modNode node fun n => { n with rollbacks := n.rollbacks + 1 }
  else
    deal env.clock node (p.modNode node fun n =>
      { n with phase := .running, ended := [], ran := [], stage := [], unseen := none, after := [], rollbacks := n.rollbacks + 1, aborted := true })

/-- An abort of a live node with an action: 1 re-queues a restartable node, 2 fails it. A node that has failed completes so (log 77). -/
def abortNode (env : Env) (node action : Nat) (p : Pkg) : Pkg :=
  let n := p.node node
  let act := if action = 1 ∧ n.restart then 1 else 2
  logEvent ⟨env.dtime, 4, node, act⟩
    (if n.fail.isSome then p else if act = 2 then failNode env.clock node 2 p else rollback env node p)

/-- An abort of a node whose record is taken and not read yet: for action 1 its image is read anew (R345, R356) (log 77). -/
def abortTaken (env : Env) (t : TakenRec) (action : Nat) (p : Pkg) : Pkg :=
  let n := takenNode t
  let act := if action = 1 ∧ n.restart then 1 else 2
  let p := { p with held := p.held.filter fun h => h.node != some t.id }
  let fail (reason : Nat) : Pkg := gangSay n 2 0
    (postCompletion env.dtime t.id 1 reason t.rollbacks 0 { p with taking := p.taking.filter fun u => u.id != t.id })
  logEvent ⟨env.dtime, 4, t.id, act⟩
    (if act = 2 then fail 2
     else if retryLimit p ≤ t.rollbacks then fail 3
     else { p with taking := p.taking.map fun u => if u.id = t.id then { u with rollbacks := u.rollbacks + 1 } else u })

/-- A write of NODE_ABORT: its node field, and the abort unless dispatch is frozen (R359) or the node is not live (log 77). -/
def nodeAbort (env : Env) (v action : Nat) (p : Pkg) : Pkg :=
  let node := bits v 57 0
  if frozenDispatch p then p
  else
    let p := p.putBits 0x04000048 57 0 v
    if p.live node then abortNode env node action p
    else match p.taking.find? fun t => t.id == node with
      | some t => abortTaken env t action p
      | none => p

/-- NODE_ABORT_ROLLBACK. -/
def execNodeAbortRollback (v : Nat) (s : State) : Out := s.put (nodeAbort s.env v 1 s.pkg)
/-- NODE_ABORT_FAIL. -/
def execNodeAbortFail (v : Nat) (s : State) : Out := s.put (nodeAbort s.env v 2 s.pkg)

/-! ## NODE_COMMIT (R349) -/

/-- Every page that has a stage page, translated for the write that replaces it (log 76). -/
def commitPlaces (n : Node) : Eng (List (Nat × Nat × Leaf)) :=
  n.stage.mapM fun q => do
    let l ← Eng.leafBy q.1 (walk (← Eng.pkg) n.asid q.1)
    Eng.need (leafState l.entry != 2 && bits l.entry 4 4 == 1) 6
    if Eng.moveHold (← Eng.pkg) n.asid q.1 then Eng.hold 0 q.1 0 0
    Eng.reach q.1 l.at_
    for g in List.range 16 do Eng.reach q.1 (leafPlace (← Eng.pkg) l (q.1 + 4096 * g))
    return (q.1, q.2, l)

/-- A stage page replaces its page whole: bytes, side slots, codes, what is uncorrectable; D is set, and a replica
of a sector of the page may be older until the completion release (R114, R116, R333, R352) (log 55). -/
def replacePage (node page sp : Nat) (l : Leaf) (p : Pkg) : Pkg :=
  ageReplicas [{ id := 0, ctx := 288, node := node }] ((List.range 256).map fun i => leafPlace p l (page + 256 * i) / 256)
    (setDirty l (Eng.copyPage p (Eng.stagePlace p sp) page (leafPlace p l) page))

/-- NODE_COMMIT: an unobserved engine fault re-runs the node instead (R35); all pages are translated before any is replaced (log 76). -/
def execNodeCommit (node : Nat) (s : State) : Out :=
  let p := s.pkg
  let n := p.node node
  if p.live node ∧ n.phase = .committing ∧ !nodeHeld p node 301 then
    if n.unseen.isSome then s.put (rollback s.env node p)
    else match unitRead s.env n.asid node 301 (commitPlaces n) p with
      | .ok ls p =>
        let p := ls.foldl (fun p q => replacePage node q.1 q.2.1 q.2.2 p) p
        s.put (p.modNode node fun n => { n with stage := [], phase := .ending })
      | .wait => .next s
      | .held p => s.put p
      | .fail p => s.put (failNode s.env.clock node 6 p)
  else .next s

/-! ## NODE_COMPLETE (R113, R348) -/

/-- The completion release: writes of the node, and those that were ordered before what its parts did, are performed for every die and
conveyed to its successors, and the dirty lines it left are written back (R92, R109, R113) (logs 22, 55). -/
def releaseNode (node : Nat) (p : Pkg) : Pkg :=
  let known := (p.node node).after
  let p := conveyNode node (dropReplicas (fun b => b.2.1 == node || known.contains b.1) p)
  { p with lines := (p.lines.map fun q => (q.1, if q.2.node = node then ({} : CacheLine) else q.2)).filter fun q => q.2 != {} }

/-- Status and reason of a completion. -/
def outcome (n : Node) : Nat × Nat :=
  match n.fail with
  | some r => (1, r)
  | none => if n.unseen.isSome then (1, 1) else (0, 0)

/-- NODE_COMPLETE: the completion release, then the record, which waits where its ring lies in a failed plane, and joins that plane's
record (R363) (log 70); a gang's other packages hear of a failure. -/
def execNodeComplete (node : Nat) (s : State) : Out :=
  let p := s.pkg
  let n := p.node node
  if p.live node ∧ n.phase = .ending ∧ (Eng.failedAt p (completionSlot p (node / 2 ^ 48))).isNone then
    let o := outcome n
    let p := endShare node (releaseNode node p)
    let p := if o.1 = 1 ∧ o.2 ≠ 5 then gangSay n 2 0 p else p
    let p := { p with nodes := p.nodes.erase node, early := p.early.filter fun e => e.1 != node }
    s.put (postCompletion s.env.dtime node o.1 o.2 n.rollbacks (if o = (1, 1) then faultDetail n else 0) p)
  else if p.live node ∧ n.phase = .ending then s.put (joinHub s.env.dtime node (completionSlot p (node / 2 ^ 48)) p)
  else .next s

/-! ## PREEMPT_HINT (R350) -/

/-- A queued part that has waited behind a bound part of lower priority (log 86). -/
def hintPart (env : Env) (p : Pkg) (core : Nat) : Option QPart :=
  let wait := bits (p.regv 0x03000038) 31 0
  (p.k core).queue.find? fun e => wait != 0 && !e.hinted && decide (e.since + wait ≤ env.clock) &&
    (List.range 4).any fun i => (p.c (4 * core + i)).phase != .unbound && decide (p.priority (4 * core + i) < (p.node e.node).priority)

/-- PREEMPT_HINT: one hint for each such part (log 86). -/
def execPreemptHint (core : Nat) (s : State) : Out :=
  match hintPart s.env s.pkg core with
  | some e =>
    let mark (q : QPart) : QPart := if q.node = e.node ∧ q.part = e.part then { q with hinted := true } else q
    s.put (emit (.hint e.node e.part core) (s.pkg.modK core fun k => { k with queue := k.queue.map mark }))
  | none => .next s

end Sys2Proof.Machine
end

