-- ==== Sys2Proof/Machine/Faults.lean ====
section
/-! DEFINITION. Fault records, the event log and the command processors (R351 to R359), and the resolution of held accesses (R330,
R335). -/

namespace Sys2Proof.Machine

/-! ## The fault ring (R354, R355) -/

/-- The 64 bytes of a record with its identifier (R354). -/
def recordBytes (r : FaultRec) (id : Nat) : List Byte :=
  bytesOf 8 r.time ++ bytesOf 4 id ++ bytesOf 1 r.kind ++ bytesOf 1 r.flags ++ bytesOf 2 r.code ++ bytesOf 8 r.node ++
  bytesOf 2 r.asid ++ bytesOf 1 r.pcore ++ bytesOf 1 r.ctx ++ bytesOf 2 r.tile ++ zeros 2 ++ bytesOf 8 r.va ++ bytesOf 8 r.dpa ++
  bytesOf 4 r.tpc ++ bytesOf 4 r.lpc ++ bytesOf 8 r.detail

/-- Dropped without room (R355). -/
def reportOnly (r : FaultRec) : Bool := r.kind == 1 || r.kind == 2 || r.kind == 6 || r.kind == 8

/-- Held accesses and a failed plane learn the identifier of the record that names them. -/
def nameGroup (g id : Nat) (p : Pkg) : Pkg :=
  let held (h : Held) : Held := if h.group = g then { h with rec_ := some id } else h
  let plane (f : FailedPlane) : FailedPlane := if f.group = g then { f with rec_ := some id } else f
  { p with held := p.held.map held, failed := p.failed.map plane }

/-- Where the next record is written. -/
def faultSlot (p : Pkg) : Nat := bits (p.regv 0x04000000) 55 6 * 64 + 64 * (ringTail p false % ringSize p false)

/-- A record is written whole, then FAULT_TAIL advances and the command processors are interrupted. -/
def writeRecord (dtime : Nat) (r : FaultRec) (p : Pkg) : Pkg :=
  let id := ringTail p false
  let p := writeCells (cellsAt (faultSlot p) (recordBytes r id)) p
  let p := p.setReg (ringReg false 0x10) ((id + 1) % 2 ^ 32)
  let p := match r.group with | some g => nameGroup g id p | none => p
  logEvent ⟨dtime, 5, id, r.kind⟩ (emit (.interrupt 0) p)

/-- The first record of a source leaves the list of those waiting. -/
def dropFirst (source : Nat) : List FaultRec → List FaultRec
  | [] => []
  | r :: rs => if r.source = source then rs else r :: dropFirst source rs

/-- FAULT_RECORD_POST: the oldest record of a source; it waits where the ring lies in a failed plane (R363) (log 70). -/
def execFaultRecordPost (source : Nat) (s : State) : Out :=
  let p := s.pkg
  match p.faultq.find? fun r => r.source == source with
  | none => .next s
  | some r =>
    let rest := { p with faultq := dropFirst source p.faultq }
    if (Eng.failedAt p (faultSlot p)).isSome then .next s
    else if faultRoom p then s.put (writeRecord s.env.dtime r rest)
    else if reportOnly r then s.put (countUp (ringReg false 8) 47 16 rest)
    else .next s

/-- FAULT_CTL_ENABLE. -/
def execFaultCtlEnable (v : Nat) (s : State) : Out :=
  let a := ringReg false 8
  if bits v 0 0 = 1 ∧ !ringOn s.pkg false then
    let p := (plainWrite a v s.pkg).setRegBits a 47 16 0
    s.put ((p.setReg (ringReg false 0x10) 0).setReg (ringReg false 0x18) 0)
  else .next s

/-- FAULT_HEAD_WRITE. -/
def execFaultHeadWrite (v : Nat) (s : State) : Out := s.put (s.pkg.setReg (ringReg false 0x18) (v % 2 ^ 32))

/-! ## The event log (R358) -/

/-- The 32 bytes of an entry. -/
def eventBytes (e : LogEvent) (seq : Nat) : List Byte :=
  bytesOf 8 e.time ++ bytesOf 4 seq ++ bytesOf 1 e.kind ++ zeros 3 ++ bytesOf 8 e.a ++ bytesOf 8 e.b

/-- Where the next entry is written. -/
def eventSlot (p : Pkg) : Nat := bits (p.regv 0x04000020) 55 6 * 64 + 32 * (ringTail p true % ringSize p true)

/-- EVENT_LOG_APPEND: the oldest event is appended once the log has room; one made while the log is not in use is not logged. -/
def execEventLogAppend (s : State) : Out :=
  let p := s.pkg
  match p.logq with
  | [] => .next s
  | e :: es =>
    let rest := { p with logq := es }
    if !ringOn p true then s.put rest
    else if ringFree p true && (Eng.failedAt p (eventSlot p)).isNone then
      let n := ringTail p true
      let q := writeCells (cellsAt (eventSlot p) (eventBytes e n)) rest
      s.put (noteFreeze s.env.dtime p (q.setReg (ringReg true 0x10) ((n + 1) % 2 ^ 32)))
    else .next s

/-- EVLOG_CTL_ENABLE. -/
def execEvlogCtlEnable (v : Nat) (s : State) : Out :=
  let a := ringReg true 8
  if bits v 0 0 = 1 ∧ !ringOn s.pkg true then
    s.put (noteFreeze s.env.dtime s.pkg (((plainWrite a v s.pkg).setReg (ringReg true 0x10) 0).setReg (ringReg true 0x18) 0))
  else .next s

/-- EVLOG_HEAD_WRITE. -/
def execEvlogHeadWrite (v : Nat) (s : State) : Out :=
  s.put (noteFreeze s.env.dtime s.pkg (s.pkg.setReg (ringReg true 0x18) (v % 2 ^ 32)))

/-! ## Command processors (R357, R359) -/

/-- CP_MISMATCH: the pair's mis bit is set and its output suppressed (see `eventAllowed`); a record names it to the other pair (log 88). -/
def execCpMismatch (pair : Nat) (s : State) : Out :=
  if pair < 2 then
    let p := s.pkg.setRegBits 0x04000040 pair pair 1
    s.put (postRecord { source := 600, time := s.env.dtime, kind := 0x0B } (noteFreeze s.env.dtime s.pkg p))
  else .next s

/-- CP_STAT_CLEAR: each 1 clears its mis bit. -/
def execCpStatClear (v : Nat) (s : State) : Out :=
  let old := bits (s.pkg.regv 0x04000040) 1 0
  let p := s.pkg.setRegBits 0x04000040 1 0 (old &&& (3 - v % 4))
  s.put (noteFreeze s.env.dtime s.pkg p)

/-! ## Resolving held accesses (R330, R363) -/

/-- A command whose held accesses are released makes those again and walks afresh. A weight load restarts its fills from the beginning,
its translation taken again (R231, R332, R363) (log 80). -/
def restart (groups : List Nat) (id : Nat) (p : Pkg) : Pkg :=
  let m := p.cmd id
  if m.unit = 13 ∧ m.op = 0 then
    { p.modCmd id fun m => { m with leaves := [], region := none, log := m.log.take 1, parts := [] } with
      held := p.held.filter fun h => h.cmd != some id }
  else p.modCmd id fun m =>
    { m with leaves := [], region := none, log := m.log.map (Answer.reopen groups), parts := m.parts.map fun l => l.map (Answer.reopen groups) }

/-- Held accesses are released: their commands, launch reads and commits make them again. -/
def releaseHeld (which : Held → Bool) (p : Pkg) : Pkg :=
  let hs := p.held.filter which
  let groups := (hs.map (·.group)).eraseDups
  ((hs.filterMap (·.cmd)).eraseDups).foldl (fun p id => restart groups id p) { p with held := p.held.filter fun h => !which h }

/-- A command whose held access fails completes with a status; of the writes left to it, those that may stand are performed in
part, and its stamp is still written (R188, R194). A drive gives up its channel, a weight load leaves its rectangle's shadow latches
empty, and a list macro those of its tiles (R220, R234, R269) (log 93). -/
def failCommand (env : Env) (id status : Nat) (p : Pkg) : Pkg :=
  let m := p.cmd id
  let p := if m.again then dropAgain id status p else endFaulted id status p
  let p := if m.unit = 13 ∧ m.op = 14 then { p with chans := p.chans.map fun q =>
    (q.1, if q.2.holder = some id then { q.2 with holder := none, step := none } else q.2) } else p
  let p := if m.unit = 13 ∧ m.op = 0 then emptyFills env m.cmd p
    else if m.unit = 13 ∧ m.op = 3 then emptyShadows m.tiles p else p
  p.modCmd id fun m => { m with log := [], parts := [], leaves := [], places := [], region := none }

/-- A node's held read fails: at take the record is refused with reason 8, at a load the node fails with reason 7, at commit with
reason 6 (R345, R349) (log 76). -/
def failUnitRead (env : Env) (node core : Nat) (p : Pkg) : Pkg :=
  if core = 300 then
    match p.taking.find? fun t => t.id == node with
    | some t => refuseNode env.dtime (takenNode t) 8 p
    | none => p
  else if !p.live node then p
  else if core = 301 then failNode env.clock node 6 p
  else failNode env.clock node 7 p

/-- Held accesses fail, each with the status that its hold gives; the skim engine skips the page that it was held at (log 81). -/
def failHeld (env : Env) (which : Held → Bool) (status : Held → Nat) (p : Pkg) : Pkg :=
  let hs := p.held.filter which
  let p := { p with held := p.held.filter fun h => !which h }
  hs.foldl (fun p h =>
    match h.cmd, h.node with
    | some id, _ => if p.present id then failCommand env id (status h) p else p
    | none, some n => failUnitRead env n h.core p
    | none, none => { p with skim := p.skim.map fun k => { k with next := k.next + 1, cleared := false } }) p

/-- TRANS_RESOLVE names the accesses of a record of kind 0x04, or 0x03 with cause 0x27. -/
def transHeld (id : Nat) (h : Held) : Bool := h.rec_ == some id && (h.kind == 3 || h.kind == 4)

/-- TRANS_RESOLVE_RETRY. -/
def execTransResolveRetry (v : Nat) (s : State) : Out := s.put (releaseHeld (transHeld (v % 2 ^ 32)) s.pkg)

/-- TRANS_RESOLVE_FAIL: 0x04 for a translation fault, 0x05 for a protection violation. -/
def execTransResolveFail (v : Nat) (s : State) : Out :=
  s.put (failHeld s.env (transHeld (v % 2 ^ 32)) (fun h => if h.kind = 3 then 5 else 4) s.pkg)

/-- POISON_CLR: every mark of the word, whatever function's addresses it was met by (R335) (log 41). -/
def execPoisonClr (v : Nat) (s : State) : Out :=
  s.put { s.pkg with poisonTbl := s.pkg.poisonTbl.filter fun q => q.1 % 2 ^ 53 != bits v 55 3 }

/-- HOST_ATS_INVALIDATE: the translation is removed; the invalidation completes, and the host is told, once every access that used it has
been performed (R382) (log 83). -/
def execHostAtsInvalidate (asid va : Nat) (s : State) : Out :=
  let p := invalidate 2 asid va s.pkg
  s.put { p with atsWait := p.atsWait ++ [(asid, va)] }

/-! ## The package fault (R351) -/

/-- Every live node fails with reason 2, LAUNCH_CTL.enable reads 0, and nothing is taken until the package is reset (log 89). -/
def packageFault (env : Env) (p : Pkg) : Pkg :=
  let p := p.taking.foldl (fun p t => postCompletion env.dtime t.id 1 2 t.rollbacks 0 p)
    { p with taking := [], held := p.held.filter fun h => !(p.taking.any fun t => h.node == some t.id) }
  let p := (p.liveNodes.map (·.id)).foldl (fun p n => failNode env.clock n 2 p) p
  let p := { p.setRegBits 0x03000010 0 0 0 with broken := true }
  postRecord { source := 600, time := env.dtime, kind := 0x0F } p

/-- DIE_LINK_FAIL: the die-to-die link (0) or a die-to-hub link (1, 2) has failed after retry (log 89). -/
def execDieLinkFail (link : Nat) (s : State) : Out :=
  if link < 3 then s.put (packageFault s.env s.pkg) else .next s

end Sys2Proof.Machine
end

