-- ==== Sys2Proof/Machine/Release.lean ====
section
/-! DEFINITION. Releases (R103, R104): the bytes that a command may write, and which of them a release waits for. -/

namespace Sys2Proof.Machine

/-- The possible writes of a command to device memory (R104): those that its operands and its template fix, and those that records fixed
at its issue; none where a record could not be read, so that it may write anywhere (log 54). -/
def possibleWrites (c : Command) : Option (List (Nat × Nat)) :=
  let k := c.cmd
  let a := k.a.toNat
  let d := k.d.toNat
  let own : List (Nat × Nat) :=
    match c.unit, c.op with
    | 12, 0 =>
      let t := templateOf k.tmpl
      if k.tmpl.isEmpty || k.c.toNat / 4 % 4 != 0 then []
      else
        (if t.cmode = 1 then [((d + t.soff) % 2 ^ 64, 8)] else []) ++
        if t.xform = 2 then [] else (templateOffsets t).map fun o => ((((d : Int) + o.2) % 2 ^ 64).toNat, 2 ^ t.esize)
    | 12, 1 =>
      if k.b.toNat / 4 % 4 != 0 then []
      else (d, k.c.toNat) :: if k.b.getLsbD 4 then [((d + (k.c.toNat + 7) / 8 * 8) % 2 ^ 64, 8)] else []
    | 12, 5 => if bits k.b.toNat 29 24 = 0 then [] else [(a, atomicBytes (bits k.b.toNat 34 32))]
    | 12, 6 =>
      let w := atomicBytes (bits k.b.toNat 34 32)
      (List.range (min k.c.toNat (2 ^ 20))).map fun i => (a + i * max 1 (bits k.b.toNat 63 40) * w, w)
    | 12, 9 => [(a, 8)]
    | _, _ => []
  c.spans.map (own ++ ·)

/-- Two ranges share a byte. -/
def rangesMeet (a b : Nat × Nat) : Bool := decide (a.1 < b.1 + b.2) && decide (b.1 < a.1 + a.2)

/-- The regions bound to the object at a word of an ASID (R103) (log 59). -/
def boundTo (p : Pkg) (asid word : Nat) : List (Nat × Nat) :=
  (p.binds.filter fun b => b.asid == asid && b.word == word).map fun b => (b.base, b.len)

/-- An earlier command of the part, or one of the closure, has not completed and may write a byte bound to the object (log 54). -/
def covered (p : Pkg) (c : Cmd) (word : Nat) : Bool :=
  let rs := boundTo p c.asid word
  (p.allCmds.filter fun e => (ownerOf e.cmd == ownerOf c && decide (e.cmd.id < c.id)) || c.closure.contains e.cmd.id).any fun e =>
    e.cmd.id != c.id && e.cmd.asid == c.asid &&
    match possibleWrites e with
    | none => !rs.isEmpty
    | some ws => ws.any fun w => rs.any (rangesMeet w)

/-- The replicas of every line of a bound region are invalidated (R104, R116) (log 55). -/
def clearBound (asid word : Nat) (p : Pkg) : Pkg :=
  let rs := boundTo p asid word
  let lines := rs.flatMap fun r => (Eng.pieces r.1 r.2).filterMap fun q =>
    match walk p asid q.1 with
    | .leaf l => some (leafPlace p l q.1 / 256, (leafPlace p l q.1 + q.2 - 1) / 256)
    | _ => none
  { p with replicas := p.replicas.filter fun r => !lines.any fun l => decide (l.1 ≤ r.sector / 8 ∧ r.sector / 8 ≤ l.2) }

namespace Eng

/-- A release waits for its covered writes (R104) (log 54). -/
def releaseWait (word : Nat) : Eng Unit := do
  let v ← read
  if covered (← pkg) v.cmd word then wait
  modPkg (clearBound v.cmd.asid word)

/-- The place of a sync word, which no stage replaces, and whether it is a cached page's (R38) (log 53). -/
def wordPlace (va : Nat) (wr : Bool) : Eng (Nat × Bool) := do
  let l ← translate va wr true
  let k := leafPlace (← pkg) l va
  reach va k
  return (k, l.priv)

/-- The bytes of the sync word as a release leaves them, and of the node's stage page of it so that the node's own reads and its commit
keep it (R38, R349) (log 53): their writes. A store reads nothing, so that it is made in an uncorrectable sector too (R352). -/
def releaseWrites (va : Nat) (add : Bool) (v : Word) : Eng (List PWrite) := do
  let w ← wordPlace va true
  let p ← pkg
  if add && p.badSector.get (w.1 / 32) then uncorrectable va (some w.1)
  let bs := bytesOf 8 (if add then BitVec.ofNat 64 (natOf (p.mem.getMany w.1 8)) + v else v).toNat
  let c := (← read).cmd
  let own : PWrite := .dev none w.2 (cellsAt w.1 bs)
  match if inOutput p c.node va then stageOf p c.node va else none with
  | some sp =>
    reach va (stagePlace p sp va)
    return [own, .dev none false (cellsAt (stagePlace p sp va) bs)]
  | none => return [own]

/-- A value is released to the sync word, stored or added to what it holds. On a device-private page every die finds it at once: no
replica of its line stays (R101) (log 55). -/
def releaseStore (va : Nat) (add : Bool) (v : Word) : Eng Unit := do
  let c := (← read).cmd
  let env := (← read).env
  for w in ← releaseWrites va add v do
    modPkg fun p => match w with
      | .dev _ priv cells => (if priv then dropLines (cells.map fun q => q.1 / 256) else id)
          (writeCells cells (if priv then cacheWrite [c] cells p else p))
      | w => performW env c.id w p

/-- The same as the last write of the command (R243, R250). -/
def releaseLast (va : Nat) (v : Word) : Eng Unit := do
  for w in ← releaseWrites va false v do writeLate w

/-! ### Indivisible parts (R243) -/

/-- A change is taken back; the write that makes it again when it is performed. -/
def undoMade (p : Pkg) (m : Made) : Pkg :=
  if m.side then { p with side := p.side.setMany m.at_ m.old } else { p with mem := p.mem.setMany m.at_ m.old }
def Made.write (p : Pkg) (m : Made) : PWrite :=
  if m.side then .side m.va none (cellsAt m.at_ (p.side.getMany m.at_ m.old.length))
  else .dev m.va m.priv (cellsAt m.at_ (p.mem.getMany m.at_ m.old.length))

/-- What an indivisible part has changed becomes the command's writes, performed like any other's (R97, R98): the bytes, the marks of
sectors and the replicas are as they stood before it, which the context's own reads have outrun (log 48). -/
def deferMade (x : Nat) (s t : Work) : Work :=
  let sectors := ((t.made.filter fun m => !m.side).flatMap fun m => (blocks 32 m.at_ m.old.length).map fun q => q.1 / 32).eraseDups
  let p := t.made.foldl undoMade t.p
  let kept (r : Replica) : Option Replica :=
    match p.replicas.find? fun q => q.sector == r.sector with
    | some q => some { r with past := if q.bytes == r.bytes then q.past else (x :: r.past).eraseDups }
    | none => if sectors.any fun k => k / 8 == r.sector / 8 then some { r with past := (x :: r.past).eraseDups } else none
  { t with
    p := { p with
      badSector := (sectors.filter s.p.badSector.get).foldl (fun m k => m.set k true) p.badSector
      replicas := if t.made.isEmpty then p.replicas else s.p.replicas.filterMap kept }
    made := [], writes := t.writes ++ (t.made.map (Made.write t.p)).eraseDups }

/-- The status of a record whose fields break their ranges, where the command's earlier writes stand (R250). -/
def standing (n : Nat) : Nat := 256 + n

/-- A part that is one access toward other commands of its kind (R243): where it has to wait or is held, or where a record breaks its
ranges (R6), nothing of it stands but the records, holds and cached translations that its accesses have made; what it changes is written
as the command's other writes are (log 48). -/
def indivisible {α : Type} (m : Eng α) : Eng α := fun v s =>
  let order (t : Work) : Work :=
    { deferMade v.cmd.ctx s t with
      whole := s.whole, replay := s.replay, got := s.got, parts := s.parts, kept := s.kept, pending := s.pending, quiet := s.quiet }
  let back (t : Work) : Work :=
    { s with p := { s.p with faultq := t.p.faultq, nextGroup := t.p.nextGroup, tlb := t.p.tlb, fresh := t.p.fresh,
                             failed := t.p.failed, poisonTbl := t.p.poisonTbl, ctx := t.p.ctx } }
  match m v { s with whole := true, replay := [], got := [], parts := [], kept := [], pending := none, quiet := false } with
  | .ok a t => .ok a (order t)
  | .error (.status n) t => if n = 1 then .error (.status 1) (back t) else .error (.status (n % 256)) (order t)
  | .error e t => .error e (back t)

end Eng

end Sys2Proof.Machine
end

