-- ==== Sys2Proof/Machine/Sync.lean ====
section
/-! DEFINITION. Synchronisation (R103 to R105, R208 to R210) and the local operations on tokens and templates (R189, R190,
R197, R255). -/

namespace Sys2Proof.Machine

open Eng

/-! ## Acquires (R208) -/

/-- The sync word's value, read whole. -/
def readWord (va : Nat) : Eng Word := return BitVec.ofNat 64 (← devNum va 8)

/-- What both acquires test before any access (R205, R208). -/
def acquireOk (c : Cmd) : Eng Unit := do
  need (linear (returnAddr c.b) 16 16) 2
  need (c.a.toNat % 8 == 0) 3
  awake (coreOf c.ctx)

/-- EC_ACQ. -/
def ecAcqWork (c : Cmd) : Eng Unit := do
  acquireOk c
  writeReturn c (← readWord c.a.toNat).toNat 0

/-- EC_ACQ: the command makes its accesses. -/
def execEcAcq (c : Cmd) (s : State) : Out := runCmd c (ecAcqWork c) s

/-- The condition on the value read. -/
def acqCond (cond : Nat) (x v : Word) : Bool :=
  match cond with
  | 0 => x == v
  | 1 => x != v
  | 2 => v.ule x
  | 3 => x.ult v
  | 4 => v.sle x
  | _ => x.slt v

/-- EC_ACQW: a read that does not satisfy the condition is made again; once device time has reached the deadline the last value read is
returned, or where none has been that of one read, which is no acquire (R208). -/
def ecAcqwWork (c : Cmd) : Eng Unit := do
  let cond := bits c.b.toNat 26 24
  need (decide (cond < 6)) 0x0E
  acquireOk c
  let m ← self
  let late := m.timedOut || (c.c != 0 && decide (c.c.toNat ≤ (← read).env.dtime))
  if late && m.progress == 1 then writeReturn c m.lastRead 2
  else
    let x ← readWord c.a.toNat
    if late then writeReturn c x.toNat 2
    else if acqCond cond x c.d then writeReturn c x.toNat 0
    else
      modSelf fun m => { m with progress := 1, lastRead := x.toNat }
      modify fun w => { w with replay := [], got := [] }
      wait

/-- EC_ACQW: the command makes its accesses. -/
def execEcAcqw (c : Cmd) (s : State) : Out := runCmd c (ecAcqwWork c) s

/-- ACQW_TIMEOUT: device time has reached the deadline of an acquire whose reads have not met their condition. -/
def execAcqwTimeout (id : Nat) (s : State) : Out :=
  let p := s.pkg
  let m := p.cmd id
  if p.present id && m.unit == 12 && m.op == 8 && m.phase == .waiting && m.progress == 1 && !m.timedOut &&
      !(p.held.any fun h => h.cmd == some id) && m.cmd.c != 0 && decide (m.cmd.c.toNat ≤ s.env.dtime) then
    s.put ((p.modCmd id fun m => { m with timedOut := true }).push [.run m.instr])
  else .next s

/-! ## Releases (R104, R209) -/

/-- EC_REL. -/
def ecRelWork (c : Cmd) : Eng Unit := do
  let a := c.a.toNat
  need (a % 8 == 0) 3
  releaseWait a
  releaseStore a (c.b.getLsbD 0) c.d

/-- EC_REL: the command makes its accesses. -/
def execEcRel (c : Cmd) (s : State) : Out := runCmd c (ecRelWork c) s

/-! ## Bindings (R103, R210) -/

/-- EC_BIND. B, for which the assembly gives 0, is not looked at (DESIGN CHOICE, log 105). -/
def ecBindWork (c : Cmd) : Eng Unit := do
  let a := c.a.toNat
  let n := c.d.toNat
  need (a % 64 == 0 && n % 64 == 0 && c.c.toNat % 8 == 0) 3
  if n = 0 then return ()
  let live := (← pkg).binds.filter fun b => b.asid == c.asid
  need (!live.any fun b => rangesMeet (a, n) (b.base, b.len)) 0x0B
  need (decide (live.length < 4096)) 0x0C
  modPkg fun p => { p with binds := p.binds ++ [⟨c.asid, a, n, c.c.toNat⟩] }

/-- EC_BIND: the command makes its accesses. -/
def execEcBind (c : Cmd) (s : State) : Out := runCmd c (ecBindWork c) s

/-- EC_UNBIND. B is not looked at (log 105). -/
def ecUnbindWork (c : Cmd) : Eng Unit := do
  let hit (b : Binding) : Bool := b.asid == c.asid && b.base == c.a.toNat && b.len == c.d.toNat
  need ((← pkg).binds.any hit) 0x0D
  modPkg fun p => { p with binds := p.binds.filter fun b => !hit b }

/-- EC_UNBIND: the command makes its accesses. -/
def execEcUnbind (c : Cmd) (s : State) : Out := runCmd c (ecUnbindWork c) s

/-! ## Local operations -/

/-- The tokens that a mask names. -/
def namedTokens (m : Word) : List Nat := (List.range 64).filter m.getLsbD

/-- A token has completed, or its number has not been used (R187, R190). -/
def Token.done (t : Token) : Bool := t.state == .complete || t.state == .free
/-- A completed token with a fault status that nothing has reported (R189). -/
def Token.fault (t : Token) : Bool := t.state == .complete && t.status != 0 && !t.acked

/-- Every token that an `ec.wait` names has completed. -/
def waitReady (c : Ctx) (m : Word) : Bool := (namedTokens m).all fun k => (c.tokens.get k).done

/-- The token that an `ec.wait` traps for: the lowest faulted one. -/
def waitFault (c : Ctx) (m : Word) : Option Nat := (namedTokens m).find? fun k => (c.tokens.get k).fault

/-- The trap of a wait (R189), or the dense-fallback trap for a selection (R255), at the wait's bundle. -/
def waitTrap (env : Env) (x k pc : Nat) (p : Pkg) : Pkg :=
  let t := (p.c x).tokens.get k
  let dense := t.unit = 13 ∧ t.op = 7 ∧ t.status = 0x2C
  let detail := k + 2 ^ 8 * t.status + 2 ^ 16 * (t.unit - 12) + 2 ^ 24 * t.op + (if dense then 2 ^ 32 * (t.flags % 8) else 0)
  let p := p.modC x fun c => { c with tokens := c.tokens.modify k fun t => { t with acked := true } }
  uTrap env x (if dense then 0x03 else 0x02) 12 (detail) pc p

/-- A context has found tokens complete: what their commands did comes before what it does next (R100) (log 55). -/
def foundTokens (x : Nat) (ks : List Nat) (p : Pkg) : Pkg :=
  let ids := ks.filterMap fun k =>
    let t := (p.c x).tokens.get k
    if t.state = .complete ∧ t.cmd ≠ 0 then some t.cmd else none
  if ids.isEmpty then p else p.modC x fun c => { c with after := (c.after ++ closureFrom p.edges p.nextCmd ids).eraseDups }

/-- EC_WAIT: blocks, traps or goes on. -/
def execEcWait (s : State) : Out :=
  let x := s.pkg.fire.ctx
  let m := s.pkg.fire.b.toS
  let c := s.pkg.c x
  let pc := bundleAddr c
  if !waitReady c m then s.put (blockCtx s.env x (s.pkg.modC x fun c => { c with pc := pc }))
  else match waitFault c m with
    | some k => s.put (waitTrap s.env x k pc s.pkg)
    | none => s.put (foundTokens x (namedTokens m) s.pkg)

/-- EC_TEST. -/
def execEcTest (s : State) : Out :=
  let x := s.pkg.fire.ctx
  let k := s.pkg.fire.b.toS.toNat % 64
  let t := (s.pkg.c x).tokens.get k
  let r := 256 * b2n t.done + 512 * b2n t.acked + (if t.state = .complete then t.status else 0)
  let p := (foundTokens x [k] s.pkg).modC x fun c => { c with tokens := c.tokens.modify k fun t =>
    if t.state = .complete then { t with acked := true } else t }
  s.put (deliver x 12 15 1 (some (.s (BitVec.ofNat 64 r))) none 0 p)

/-- EC_TMPL: a template record read at issue like a load (R197, R83). -/
def execEcTmpl (s : State) : Out :=
  let f := s.pkg.fire
  let x := f.ctx
  let a := f.a.toS.toNat
  let pc := bundleAddr (s.pkg.c x)
  if !linear a 64 64 then s.put (sTrap s.env x 0x22 pc pc pc s.pkg)
  else if !f.sound && (wordsOf a 64).any (s.pkg.poisonedAt x false (s.pkg.c x).joins []) then s.put (sTrap s.env x 0x25 pc pc pc s.pkg)
  else
    let b := loadBytes s.pkg x a 64
    let n := accessDraws s.pkg x
    s.put ((s.pkg.modC x fun c =>
      { c with tmpl := c.tmpl.set (f.b.toS.toNat % 64) (if templateOk b then b else []) }).drawn n)

end Sys2Proof.Machine
end

