-- ==== Sys2Proof/Machine/Issue.lean ====
section
/-! DEFINITION. Issuing a bundle (R130 to R135, R160, R307) and choosing the context that does (R39 to R42, R309). -/

namespace Sys2Proof.Machine

/-! ## What a bundle triggers -/

/-- An active trigger of a bundle. -/
structure Trig where
  unit : Nat
  op   : Nat
  fire : Fire
  deriving DecidableEq, Repr, Inhabited

/-- The active triggers in the order of their units. -/
def triggers (x : Nat) (c : Ctx) (b : Bundle) (ms : List Move) : List Trig :=
  (List.range 16).flatMap fun f => ms.filterMap fun m => match m.dst with
    | .trigger g op => if g = f then some ⟨f, op, fireOf x c b.hdr ms f m.val⟩ else none
    | _ => none

/-- The triggers that fire: a guarding mismatch suppresses stores and branches (R160). -/
def firing (c : Ctx) (ts : List Trig) : List Trig :=
  ts.filter fun t => !(c.check.any (fun k => k.2 == 1) && suppressed t.unit t.op)

/-- `div` and `rem` of sm, `sort` of xc (R132). -/
def divides (t : Trig) : Bool := t.unit == 2 && decide (6 ≤ t.op)
def sorts (t : Trig) : Bool := t.unit == 11 && t.op == 13

/-- The trigger issues an engine command (R185). -/
def isCommand (t : Trig) : Bool := match engineStep t.unit t.op with | some (.command _) => true | _ => false

/-- Two active moves name one destination, or two triggers one unit. -/
def clash : List Move → Bool
  | [] => false
  | m :: ms => (ms.any fun n => match m.dst, n.dst with
      | .trigger f _, .trigger g _ => f == g
      | a, b => a == b) || clash ms

/-- An illegal bundle (R133). -/
def illegal (c : Ctx) (b : Bundle) (ms : List Move) (ts : List Trig) : Bool :=
  (match b.check with | .ok _ => false | .error _ => true) || clash ms ||
  ts.any fun t => (divides t && decide (0 < c.divHold)) || (sorts t && decide (0 < c.sortHold))

/-- A privilege fault (R134) (log 20). -/
def privileged (t : Trig) : Bool := (t.unit == 15 && t.op != 0) || (t.unit == 13 && (t.op == 13 || t.op == 15))

/-! ## Blocking (R40) -/

/-- The token numbers that the bundle's commands take, by unit (R186). -/
def takenToken (c : Ctx) (ts : List Trig) (t : Trig) : Nat :=
  if t.unit = 13 ∧ ts.any (fun u => u.unit == 12 && isCommand u) then (c.cursor + 1) % 64 else c.cursor

/-- Every token that a command consumes names an accepted command (R187, R315) (log 58). -/
def consumedValid (p : Pkg) (c : Ctx) (t : Trig) : Bool :=
  (auxTokens t.fire.aux.toS.toNat).all fun k =>
    let id := (c.tokens.get k).cmd
    !p.present id || (p.cmd id).accepted

/-- The condition of a trigger holds. -/
def ready (p : Pkg) (x : Nat) (ts : List Trig) (t : Trig) : Bool :=
  let c := p.c x
  if t.unit = 4 ∨ t.unit = 5 then !lsOk t.op t.fire || lsReady t.op t.fire p
  else if t.unit = 12 ∧ t.op = 14 then waitReady c t.fire.b.toS
  else if isCommand t then
    (c.tokens.get (takenToken c ts t)).done && consumedValid p c t && (!(t.unit == 12 && t.op == 3) || kickRoom x p)
  else true

/-- The lowest-numbered unit whose trigger's condition is false. -/
def blocking (p : Pkg) (x : Nat) (ts : List Trig) : Option Nat := (ts.find? fun t => !ready p x ts t).map (·.unit)

/-! ## S-class causes at issue (R307) -/

/-- The redirection of a br trigger that will be taken. -/
def brTarget (t : Trig) : Option Nat :=
  let f := t.fire
  let b := f.b.toS.toNat
  match t.op with
  | 0 => some b
  | 1 => some b
  | 2 => some f.src.s31.toNat
  | 3 => if f.a.toS == 0 then some b else none
  | 4 => if f.a.toS != 0 then some b else none
  | 5 => if (loopResult f.src f.a.toS).1 then some b else none
  | 6 => if f.src.lcx != 0 then some b else none
  | 13 => some (trapReturn f.src)
  | _ => none

/-- The store of an ls trigger that rewrites whole codewords or words of an accumulator line. -/
def wholeStore (t : Trig) : List LStore :=
  match t.op with
  | 18 => [vectorStore 18 true false true t.fire.d.toV t.fire]
  | 20 => [vectorStore 20 false false true t.fire.d.toV t.fire]
  | 22 => [vectorStore 22 true true true t.fire.d.toV t.fire]
  | 30 => [lineStore t.fire]
  | _ => []
/-- What ls0 stores in the bundle before an access of ls1 (R152, R153). -/
def before (ts : List Trig) (t : Trig) : List LStore := if t.unit = 5 then (ts.filter fun u => u.unit == 4).flatMap wholeStore else []

/-- Whether a trigger raises the local-address fault, the branch-target fault, uncorrectable consumption. -/
def badAddress (t : Trig) : Bool :=
  ((t.unit == 4 || t.unit == 5) && !lsOk t.op t.fire) ||
  (t.unit == 12 && t.op == 16 && !Eng.linear t.fire.a.toS.toNat 64 64)
def badTarget (t : Trig) : Bool := t.unit == 3 && (brTarget t).any fun a => !targetOk a
def badData (p : Pkg) (x : Nat) (ts : List Trig) (t : Trig) : Bool :=
  ((t.unit == 4 || t.unit == 5) && lsPoisoned t.op t.fire (before ts t) p) ||
  (t.unit == 12 && t.op == 16 && (wordsOf (t.fire.a.toS.toNat) 64).any (p.poisonedAt x false (p.c x).joins []))

/-- The trigger changes tags at its issue (R153). -/
def changesTags (t : Trig) : Bool := (t.unit == 4 || t.unit == 5) && decide (t.op ∈ [5, 7, 12, 13, 17, 19])
/-- The trigger performs the context's pending stores, all of them or those of its stream (R107, R153). -/
def performs (ts : List Trig) (joins : Nat) (_ : Entry) (st : LStore) : Bool :=
  ts.any fun t => t.unit == 12 || t.unit == 13 || (t.unit == 15 && t.op == 0) || (changesTags t && st.before false joins)

/-- A `st.acc` of the bundle that another trigger of it performs at once meets an uncorrectable word (R156) (log 33). -/
def badOwn (p : Pkg) (x : Nat) (ts : List Trig) : Bool :=
  ts.any fun t => (t.unit == 4 || t.unit == 5) && t.op == 30 && t.fire.c.toS.toNat % 4 != 0 &&
    (ts.any fun u => (u.unit == 15 && u.op == 0) || (t.unit == 4 && u.unit == 5 && changesTags u)) &&
    (lineStore t.fire).acc.any fun a => (p.k (coreOf x)).badAcc.get a.1 && badAfter (pending (p.c x) ++ before ts t) a.1 true

/-! ## Issue -/

/-- What the issue of a bundle does to the counts of its context and core (R41, R43, R132). -/
def countIssue (x : Nat) (ts : List Trig) (join : Bool) (p : Pkg) : Pkg :=
  let tick (e : Entry) : Entry := { e with left := e.left - 1 }
  let p := p.modC x fun c =>
    { c with
      phase := .running, pc := c.pc + 32, flight := c.flight.map tick, watchdog := 0, waited := 0
      divHold := if ts.any divides then 17 else c.divHold - 1
      sortHold := if ts.any sorts then 3 else c.sortHold - 1
      joins := if join then c.joins + 1 else c.joins }
  let p := (List.range 4).foldl (fun p i =>
    let y := 4 * coreOf x + i
    if y ≠ x ∧ (p.c y).phase = .ready then p.modC y fun c => { c with waited := c.waited + 1 } else p) p
  p.modK (coreOf x) fun k => { k with last := x % 4, running := some x, quantum := if k.running = some x then k.quantum + 1 else 1 }

/-- The triggers in the order in which they fire: `ec.wait`, whose condition has been tested, before the bundle's command takes a number
that it may name (R40, R186), reads of registers (R312), the draws of vc before `ecx.kvapp` (R63), commands before the bundle's other
accesses, the rest of the sys unit after those (R107), `vc.setsc` and `vc.srseed` after every read and draw (R175) (log 31). -/
def inFiringOrder (old : NMap (List Byte)) (ts : List Trig) : List Micro :=
  let late (t : Trig) : Bool := t.unit == 9 && decide (11 ≤ t.op)
  let waits (t : Trig) : Bool := t.unit == 12 && t.op == 14
  let reads (t : Trig) : Bool := t.unit == 15 && t.op == 1
  let micro (t : Trig) : Option Micro :=
    match engineStep t.unit t.op with
    | some (.command _) => some (.issue t.fire t.unit t.op old)
    | some (.now i) => some (.fire { t.fire with sound := true } i)
    | none => (triggerStep t.unit t.op).map (.fire { t.fire with sound := true })
  let pick (q : Trig → Bool) : List Micro := (ts.filter q).filterMap micro
  pick waits ++ pick reads ++ pick (fun t => t.unit == 9 && !late t) ++ pick isCommand ++
  pick (fun t => t.unit != 9 && t.unit != 15 && !isCommand t && !waits t) ++
  pick (fun t => t.unit == 15 && !reads t) ++ pick late

/-- The issue of an engine command, with what its operation takes at once: a kick its queue entry (R40), an arrival its
number (R211) (log 31). -/
def issueNow (env : Env) (f : Fire) (unit op : Nat) (old : NMap (List Byte)) (p : Pkg) : Pkg :=
  match engineStep unit op with
  | some (.command mk) =>
    let id := p.nextCmd
    let p := issueCommand env unit op mk f old p
    if unit = 12 ∧ op = 3 then kickEnter f.ctx id p
    else if unit = 12 ∧ (op = 12 ∨ op = 13) then arriveEnter f.ctx id (f.b.toS.toNat % 256) p
    else p
  | _ => p

/-- BUNDLE_ISSUE (R130): the entries due have landed. Where the bundle traps or blocks, nothing of it takes effect (log 28). -/
def execBundleIssue (x : Nat) (b : Bundle) (s : State) : Out :=
  let env := s.env
  let p := s.pkg.drawn (accessDraws s.pkg x)
  let c := p.c x
  let ms := moves env.dtime c b
  let all := triggers x c b ms
  let ts := firing c all
  if (p.k (coreOf x)).poison.get (c.pc / 64) then s.put (dataTrap env x p)
  else if illegal c b ms all then s.put (bundleTrap env x 0x20 p)
  else if !c.smode && all.any privileged then s.put (bundleTrap env x 0x21 p)
  else
    let p' := if b.hdr.join then (joinViews x (c.joins + 1) p).modC x fun c => { c with joins := c.joins + 1 } else p
    match blocking p' x ts with
    | some _ => s.put (blockCtx env x p)
    | none =>
      match (ts.find? fun t => t.unit == 12 && t.op == 14).bind fun t => waitFault c t.fire.b.toS with
      | some k => s.put (waitTrap env x k c.pc p)
      | none =>
        if ts.any badAddress then s.put (bundleTrap env x 0x22 p)
        else if ts.any badTarget then s.put (bundleTrap env x 0x23 p)
        else if c.spoiled || ts.any (badData p' x ts) || badOwn p x ts then s.put (dataTrap env x p)
        else if badAmong x (performs ts c.joins) p then s.put (badTrap env x (performs ts c.joins) p)
        else
          let p := if b.hdr.join then joinViews x (c.joins + 1) p else p
          let p := countIssue x ts b.hdr.join p
          let p := if ts.any fun t => t.unit == 12 || t.unit == 13 then performAll x p else p
          let p := p.modC x fun n => ms.foldl (fun n m => writeDst c n m.val m.dst) n
          let p := match c.check with
            | some k => sTrap env x 0x24 (c.pc + 32) k.1 c.pc (p.modC x fun c => { c with check := none })
            | none => p
          s.put (p.push (inFiringOrder c.tmpl ts))

/-! ## Choosing a context (R41) -/

/-- The contexts of a core in the order in which rule 2 takes equals (log 18). -/
def rotation (k : Core) (n : Nat) : List Nat := (List.range 4).map fun i => 4 * n + (k.last + 1 + i) % 4

/-- Rule 2 over the contexts that satisfy a test (log 18). -/
def firstOf (p : Pkg) (n : Nat) (ok : Nat → Bool) : Option Nat :=
  (((rotation (p.k n) n).filter ok).foldl (fun best x => match best with
    | none => some x
    | some y => if p.priority y < p.priority x then some x else some y) none)

/-- While some part of a resident node is not bound, none of its parts issues (R33, R323, R350). -/
def keptBack (p : Pkg) (x : Nat) : Bool :=
  match (p.c x).node with
  | none => false
  | some n => (p.node n).resident && (p.node n).nparts != (p.ctx.filter fun q => q.2.node == some n).length + (p.node n).ended.length

def isReady (p : Pkg) (x : Nat) : Bool := (p.c x).phase == .ready && !keptBack p x

/-- Issue goes to a context: the running one, if any, is ready again. -/
def giveIssue (n x : Nat) (p : Pkg) : Pkg :=
  let p := match (p.k n).running with
    | some y => if y ≠ x ∧ (p.c y).phase = Phase.running then p.modC y fun c => { c with phase := Phase.ready } else p
    | none => p
  let p := p.modC x fun c => { c with phase := .running }
  p.modK n fun k => if k.running = some x then k else { k with running := some x, quantum := 0 }

/-- The fairness quantum (R310). -/
def quantumOf (p : Pkg) (n : Nat) : Nat := bits (p.regv (coreReg n 0x008)) 8 0

/-- Rule 3: the running context has issued its quantum. -/
def quantumDue (p : Pkg) (n : Nat) : Bool := (p.k n).running.isSome && decide (quantumOf p n ≤ (p.k n).quantum)

/-- Issue passes to the next ready context of equal or higher priority; where there is none the running context keeps it, and its count
of issue cycles starts again at 0, which rule 3 leaves open (log 18). -/
def passQuantum (n : Nat) (p : Pkg) : Pkg :=
  match (p.k n).running with
  | none => p
  | some r =>
    match firstOf p n (fun x => isReady p x && decide (p.priority r ≤ p.priority x)) with
    | some x => giveIssue n x p
    | none => p.modK n fun k => { k with quantum := 0 }

/-- QUANTUM_EXPIRY. -/
def execQuantumExpiry (n : Nat) (s : State) : Out :=
  if quantumDue s.pkg n then s.put (passQuantum n s.pkg) else .next s

/-- Rule 5: a ready context that has waited 1,024 issue cycles. -/
def agedCtx (p : Pkg) (n : Nat) : Option Nat := firstOf p n fun x => isReady p x && decide (1024 ≤ (p.c x).waited)
/-- The context that holds issue was given it by rule 5 and has not issued yet. -/
def agedRunning (p : Pkg) (n : Nat) : Option Nat := (p.k n).running.filter fun x => decide (1024 ≤ (p.c x).waited)

/-- AGING_EXPIRY: a context that rule 5 has given issue keeps it until it issues. -/
def execAgingExpiry (n : Nat) (s : State) : Out :=
  match agedRunning s.pkg n, agedCtx s.pkg n with
  | none, some x => s.put (giveIssue n x s.pkg)
  | _, _ => .next s

/-- What the core's rules make of the choice in this clock cycle, with the context that issues. -/
def chooseCtx (n : Nat) (p : Pkg) : Option Nat × Pkg :=
  match agedRunning p n, agedCtx p n with
  | some x, _ => (some x, p)
  | none, some x => (some x, giveIssue n x p)
  | none, none =>
    let p := if quantumDue p n then passQuantum n p else p
    match (p.k n).running with
    | some r =>
      match firstOf p n (fun x => isReady p x && decide (p.priority r < p.priority x)) with
      | some x => (some x, giveIssue n x p)
      | none => (some r, p)
    | none =>
      match firstOf p n (isReady p) with
      | some x => (some x, giveIssue n x p)
      | none => (none, p)

/-- The package as the next bundle of a context would find it, its entries landed, with the bundle and its triggers. -/
def nextBundle (env : Env) (x : Nat) (p : Pkg) : Pkg × Bundle × List Trig :=
  let q := landAll env x p
  let c := q.c x
  let b := q.fetchBundle x c.pc
  let ms := moves env.dtime c b
  (q, b, firing c (triggers x c b ms))

/-- The unit for whose condition the next bundle of a context blocks (R40), found with the choices that its issue then makes, so that one
that does not block issues (R130): an illegal or privileged bundle and a fetch that traps do not. -/
def nextBlocks (env : Env) (x : Nat) (p : Pkg) : Option Nat :=
  if spadSize ≤ (p.c x).pc then none
  else
    let r := nextBundle env x p
    let q := r.1.drawn (accessDraws r.1 x)
    let c := q.c x
    let ms := moves env.dtime c r.2.1
    let all := triggers x c r.2.1 ms
    if (q.k (coreOf x)).poison.get (c.pc / 64) || illegal c r.2.1 ms all || (!c.smode && all.any privileged) then none
    else
      let q := if r.2.1.hdr.join then (joinViews x (c.joins + 1) q).modC x fun c => { c with joins := c.joins + 1 } else q
      blocking q x r.2.2

/-- Blocked contexts whose next bundle can issue are ready (R39). -/
def wakeBlocked (env : Env) (n : Nat) (p : Pkg) : Pkg :=
  (List.range 4).foldl (fun p i =>
    let x := 4 * n + i
    if (p.c x).phase = .blocked ∧ (nextBlocks env x p).isNone then readyCtx env x p else p) p

/-- The due halt of a context (R316) (log 30). -/
def dueHalt (c : Ctx) : Option Entry := c.flight.find? fun e => e.kind == .sysop && e.op == 10 && e.left == 1

/-- The chosen context comes to its next bundle: a due branch, triggered before any due halt, a due halt, a fetch fault, a block,
or the bundle (logs 28, 30). -/
def nextIssue (env : Env) (n x : Nat) (p : Pkg) : Pkg :=
  let c := p.c x
  match dueBranch c with
  | some e =>
    if (e.op = 11 ∨ (e.op = 14 ∧ env.dtime < e.target.getD 0)) ∧ badPending x p then badTrap env x (fun _ _ => true) p
    else p.push [.run (.branchEffect x), .run (.contextChoose n)]
  | none =>
    match dueHalt c with
    | some e =>
      let p := p.modC x fun c => { c with flight := c.flight.filter fun d => d.order != e.order }
      haltEffect env x (e.b.getLsbD 0) p
    | none =>
      if spadSize ≤ c.pc then bundleTrap env x 0x23 p
      else match nextBlocks env x p with
        | some _ => if badPending x p then badTrap env x (fun _ _ => true) p else blockCtx env x p
        | none => p.push [.run (.entryLanding x), .bundle x]

/-- CONTEXT_CHOOSE: one clock cycle of a core whose cluster is on; with no ready context the core holds (R42) (log 60). -/
def execContextChoose (n : Nat) (s : State) : Out :=
  if n < 72 ∧ s.pkg.powerOf n = 0 then
    let p := wakeBlocked s.env n s.pkg
    match chooseCtx n p with
    | (some x, p) => s.put (nextIssue s.env n x p)
    | (none, p) => s.put p
  else .next s

/-! ## Timers -/

/-- SLEEP_WAKE (R40). -/
def execSleepWake (x : Nat) (s : State) : Out :=
  let c := s.pkg.c x
  if c.phase = .sleeping ∧ c.wake ≤ s.env.dtime then s.put (s.pkg.modC x fun c => { c with phase := .ready, waited := 0 })
  else .next s

/-- The watchdog interval of a core (R310). -/
def wdogInterval (p : Pkg) (n : Nat) : Nat := p.regv (coreReg n 0x010)

/-- WAIT_TIMEOUT (R309): the trap at a bundle that is still blocked. -/
def execWaitTimeout (x : Nat) (s : State) : Out :=
  let p := s.pkg
  let c := p.c x
  let w := wdogInterval p (coreOf x)
  if c.phase = .blocked ∧ w ≠ 0 ∧ w ≤ watchdogCount s.env c then
    match nextBlocks s.env x p with
    | some unit => s.put (uTrap s.env x 0x04 unit 0 c.pc p)
    | none => .next s
  else .next s

end Sys2Proof.Machine
end

