-- ==== Sys2Proof/Machine/Kv.lean ====
section
/-! DEFINITION. KV cache and hashed attention (R235 to R258): descriptors, head tables, the inverted page table, chains, pages
and the six commands; the list macro is in Select.lean. -/

namespace Sys2Proof.Machine

open Eng

/-! ## Descriptors and head tables (R240, R242) -/

/-- A lineage entry: descriptor address, segment key, end block. -/
structure Lineage where
  desc : Nat
  seg  : Nat
  stop : Nat
  deriving DecidableEq, Repr, Inhabited

structure Desc where
  at_     : Nat
  vlen    : Nat
  seg     : Nat
  lin     : List Lineage
  dcode   : Nat
  nh      : Nat
  t       : Nat
  b       : Nat
  pver    : Nat
  pstate  : Nat
  kvbase  : Nat
  kvpages : Nat
  ptop    : Nat
  pool    : Nat
  bkbase  : Nat
  htab    : Nat
  deriving DecidableEq, Repr, Inhabited

def descOf (a : Nat) (b : List Byte) : Desc :=
  { at_ := a, vlen := field b 0 8, seg := field b 8 4,
    lin := (List.range (min (field b 12 1) 4)).map fun j =>
      ⟨field b (16 + 16 * j) 8, field b (24 + 16 * j) 4, field b (28 + 16 * j) 3⟩
    dcode := field b 80 1, nh := field b 81 1, t := field b 82 1, b := field b 83 1, pver := field b 84 4,
    pstate := field b 88 8, kvbase := field b 96 8, kvpages := field b 104 4, ptop := field b 108 4, pool := field b 112 8,
    bkbase := field b 120 8, htab := field b 128 8 }

/-- Start blocks of the lineage entries, then of the own segment (R241). -/
def Desc.starts (d : Desc) : List Nat := 0 :: d.lin.map (·.stop)
/-- First block of the own segment. -/
def Desc.fb (d : Desc) : Nat := (d.lin.map (·.stop)).getLastD 0
def Desc.dim (d : Desc) : Nat := 64 * 2 ^ d.dcode
/-- Heads of a page, planes of a head, key planes (R238). -/
def Desc.hp (d : Desc) : Nat := 8 / 2 ^ d.dcode
def Desc.pw (d : Desc) : Nat := 2 * 2 ^ d.dcode
def Desc.pk (d : Desc) : Nat := if d.dcode = 2 then 2 else 1
/-- Pages of a block. -/
def Desc.ng (d : Desc) : Nat := ceilDiv d.nh d.hp

/-- The ranges and reserved fields of R240, and rising lineage ends (R241). -/
def descOk (b : List Byte) (d : Desc) : Bool :=
  field b 12 1 ≤ 4 && field b 13 3 == 0 && ((b.drop 136).take 120).all (· == 0) &&
  decide (d.vlen ≤ 16777215) && decide (1 ≤ d.seg / 256) && decide (d.dcode ≤ 2) && decide (1 ≤ d.nh ∧ d.nh ≤ 64) &&
  decide (1 ≤ d.t ∧ d.t ≤ 4) && decide (6 ≤ d.b ∧ d.b ≤ 14) && d.pver != 0 && d.kvbase % 65536 == 0 &&
  decide (d.ptop ≤ d.kvpages) && d.bkbase % 64 == 0 && d.htab % 32 == 0 &&
  ((List.range 4).all fun j => field b (31 + 16 * j) 1 == 0) &&
  (List.range d.lin.length).all fun j => decide (d.starts.getD j 0 < (d.starts.getD (j + 1) 0))

/-- A sequence descriptor (R235, R240). -/
def readDesc (a : Nat) : Eng Desc := do
  need (a % 256 == 0) 3
  let bs ← devRead a 256
  let d := descOf a bs
  need (descOk bs d) 1
  return d

/-- The lineage entries written back with their count. -/
def writeLineage (a : Nat) (ls : List Lineage) : Eng Unit := do
  devNow (a + 12) (bytesOf 1 ls.length)
  let es := (List.range 4).flatMap fun j => match ls[j]? with
    | some l => bytesOf 8 l.desc ++ bytesOf 4 l.seg ++ bytesOf 3 l.stop ++ [0]
    | none => List.replicate 16 0
  devNow (a + 16) es

structure Head where
  at_   : Nat
  opool : Nat
  ocap  : Nat
  oused : Nat
  thr   : Nat
  mode  : Nat
  dense : Bool
  vdef  : Nat
  vhr   : Nat
  deriving DecidableEq, Repr, Inhabited

/-- A head-table entry (R242). -/
def readHead (d : Desc) (h : Nat) : Eng Head := do
  let a := d.htab + 32 * h
  let b ← devRead a 32
  let e : Head := {
    at_ := a, opool := field b 0 8, ocap := field b 8 4, oused := field b 12 4, thr := field b 16 4, mode := field b 20 1,
    dense := field b 21 1 % 2 = 1, vdef := field b 22 1, vhr := field b 23 1 }
  need (e.opool % 64 == 0 && decide (e.oused ≤ e.ocap ∧ e.mode ≤ 2 ∧ field b 21 1 ≤ 1 ∧ e.vhr ≤ 7) && field b 24 8 == 0) 1
  return e

/-! ## The inverted page table (R239) -/

structure Ipt where
  at_     : Nat
  ovf     : Bool
  valid   : Bool
  demoted : Bool
  asid    : Nat
  hg      : Nat
  seg     : Nat
  block   : Nat
  pp      : Nat
  ref     : Nat
  /-- bits [7:2] of its flags -/
  reserved : Nat := 0
  deriving DecidableEq, Repr, Inhabited

def iptBase (p : Pkg) : Nat := bits (p.regv 0x02000008) 55 7 * 128
/-- NB; a stored log2 outside 4 to 20 is 4 (R331). -/
def iptBuckets (p : Pkg) : Nat :=
  let n := bits (p.regv 0x02000010) 4 0
  2 ^ (if 4 ≤ n ∧ n ≤ 20 then n else 4)
def iptOvfCap (p : Pkg) : Nat := bits (p.regv 0x02000010) 36 16
def iptOvfBase (p : Pkg) : Nat := bits (p.regv 0x02000018) 55 4 * 16
def iptOvfCount (p : Pkg) : Nat := bits (p.regv 0x02000020) 20 0

/-- The entry at an address. -/
def iptAt (p : Pkg) (ovf : Bool) (a : Nat) : Ipt :=
  let b := p.mem.getMany a 16
  { at_ := a, ovf := ovf, valid := field b 2 1 % 2 = 1, demoted := field b 2 1 / 2 % 2 = 1, asid := field b 0 2,
    hg := field b 3 1, seg := field b 4 4, block := field b 8 3, pp := field b 11 3, ref := field b 14 2, reserved := field b 2 1 / 4 }

/-- The bucket of a key. -/
def iptHash (asid seg block hg : Nat) : Word :=
  let z : Word := (BitVec.ofNat 64 seg <<< 32) ||| (BitVec.ofNat 64 block <<< 8) ||| BitVec.ofNat 64 hg
  let z := z ^^^ (BitVec.ofNat 64 asid * 0xD6E8FEB86659FD93)
  mix64 z

def iptBucket (p : Pkg) (asid seg block hg : Nat) : List Ipt :=
  let a := iptBase p + 128 * ((iptHash asid seg block hg).toNat % iptBuckets p)
  (List.range 8).map fun i => iptAt p false (a + 16 * i)

/-- The valid entries of the table, by the listed bytes: a valid entry's flags are not 0. -/
def iptAll (p : Pkg) : List Ipt :=
  let inside (lo n a : Nat) : Bool := decide (lo ≤ a) && decide (a < lo + n) && (a - lo) % 16 == 2
  (p.mem.filterMap fun c =>
    if !c.2.getLsbD 0 then none
    else if inside (iptBase p) (128 * iptBuckets p) c.1 then some (iptAt p false (c.1 - 2))
    else if inside (iptOvfBase p) (16 * iptOvfCount p) c.1 then some (iptAt p true (c.1 - 2)) else none)

/-- An entry that a lookup meets lies in no failed plane (R363) and in no uncorrectable sector (R352), and has no reserved bit set
(R6). -/
def iptSound (e : Ipt) : Eng Unit := do
  reach 0 e.at_
  if (← pkg).badSector.get (e.at_ / 32) then uncorrectable 0 (some e.at_)
  need (!e.valid || e.reserved == 0) 1

/-- The first of a list of entries that a test meets, every entry up to it being sound. -/
def iptScan (hit : Ipt → Bool) : List Ipt → Eng (Option Ipt)
  | [] => pure none
  | e :: es => do
    iptSound e
    if hit e then return some e else iptScan hit es

/-- The entries of the overflow area that are listed, or whose sector is uncorrectable, in order. -/
def iptOverflow (p : Pkg) : List Ipt :=
  let lo := iptOvfBase p
  let bad := p.badSector.flatMap fun q => if q.2 then [32 * q.1, 32 * q.1 + 16].filterMap fun a =>
      if lo ≤ a ∧ a < lo + 16 * iptOvfCount p then some (iptAt p true a) else none else []
  (groupBy Ipt.at_ (((iptAll p).filter (·.ovf)) ++ bad)).filterMap fun g => g.2.head?

/-- The valid entry of a key: in its bucket, else in the overflow area (R239). -/
def iptFind (asid seg block hg : Nat) : Eng (Option Ipt) := do
  let hit (e : Ipt) : Bool := e.valid && e.asid == asid && e.seg == seg && e.block == block && e.hg == hg
  let p ← pkg
  match ← iptScan hit (iptBucket p asid seg block hg) with
  | some e => return some e
  | none => iptScan hit (iptOverflow p)

def iptBytes (e : Ipt) : List Byte :=
  bytesOf 2 e.asid ++ bytesOf 1 (b2n e.valid + 2 * b2n e.demoted) ++ bytesOf 1 e.hg ++ bytesOf 4 e.seg ++ bytesOf 3 e.block ++
  bytesOf 3 e.pp ++ bytesOf 2 e.ref

def iptWrite (e : Ipt) : Eng Unit := changeNow false none false e.at_ (iptBytes e)

/-- A new entry, or status 0x29. -/
def iptInsert (asid seg block hg pp : Nat) : Eng Unit := do
  let p ← pkg
  let e : Ipt := { at_ := 0, ovf := false, valid := true, demoted := false, asid := asid, hg := hg, seg := seg, block := block,
                   pp := pp, ref := 1 }
  match (iptBucket p asid seg block hg).find? fun e => !e.valid with
  | some f => iptWrite { e with at_ := f.at_ }
  | none =>
    let n := iptOvfCount p
    need (decide (n < iptOvfCap p)) 0x29
    let at_ := iptOvfBase p + 16 * n
    reach 0 at_
    iptWrite { e with at_ := at_ }
    modPkg fun p => p.setRegBits 0x02000020 20 0 (n + 1)

/-- An entry removed; the last of the overflow area moves into its place. -/
def iptRemove (e : Ipt) : Eng Unit := do
  iptWrite { e with valid := false }
  if e.ovf then
    let p ← pkg
    let last := iptAt p true (iptOvfBase p + 16 * (iptOvfCount p - 1))
    if last.at_ != e.at_ then
      iptSound last
      changeNow false none false e.at_ (p.mem.getMany last.at_ 16)
    modPkg fun p => p.setRegBits 0x02000020 20 0 (iptOvfCount p - 1)

/-- The key's segment and supplier of block b (R241): where the lineage covers it, else the sequence itself. -/
def Desc.resolve (d : Desc) (b : Nat) : Nat × Nat :=
  match d.lin.find? fun l => decide (b < l.stop) with
  | some l => (l.seg, l.desc)
  | none => (d.seg, d.at_)

/-! ## Pages (R237, R238) -/

/-- The virtual address in a sequence's KV region that a leaf maps to a physical page (log 49). -/
def kvAddress (p : Pkg) (asid : Nat) (d : Desc) (pp : Nat) : Option Nat :=
  ((List.range d.kvpages).find? fun i => match walk p asid (d.kvbase + 65536 * i) with
    | .leaf l => leafKind l.entry == 2 && bits l.entry 38 16 == pp
    | _ => false).map fun i => d.kvbase + 65536 * i

/-- The place of plane i of a page and of the side slot that goes with it, and the virtual address by which it is reached: through its leaf
where the supplier's region has one, so that holds, retirement, stage pages and D apply (R38, R94, R333, R364), else by its number
(log 49). -/
def kvPlane (d : Desc) (pp i : Nat) (wr : Bool) : Eng (Option Nat × Nat) := do
  let p ← pkg
  let asid := (← read).cmd.asid
  match kvAddress p asid d pp with
  | some va => return (some (va + 4096 * i), (← place (va + 4096 * i) wr).1)
  | none =>
    let k := dramDpa (pp / 1480) (16 * (pp % 1480) + i) 0
    reach 0 k
    return (none, k)

def sideOf (k : Nat) : Nat := sideAt (dpaTile k) (dpaPlane k)

/-- The data of plane i of a page, and of its side slot (log 49). -/
def kvRead (d : Desc) (pp i : Nat) : Eng (List Byte × List Byte) := do
  let k := (← kvPlane d pp i false).2
  let p ← pkg
  match (List.range 128).find? fun j => p.badSector.get (k / 32 + j) with
  | some j => uncorrectable 0 (some (k + 32 * j))
  | none => return (p.mem.getMany k 4096, p.side.getMany (sideOf k) 256)

/-- Some bytes of one sector of plane i of a page, or of its side slot (R98) (log 49). -/
def kvSector (d : Desc) (pp i o n : Nat) (side : Bool) : Eng (List Byte) := do
  let k := (← kvPlane d pp i false).2
  let p ← pkg
  if side then return p.side.getMany (sideOf k + o) n
  else
    if p.badSector.get ((k + o) / 32) then uncorrectable 0 (some (k + o))
    return p.mem.getMany (k + o) n

/-- Plane i of a page written whole with its side slot (log 49). -/
def kvWrite (d : Desc) (pp i : Nat) (bs sd : List Byte) : Eng Unit := do
  let k ← kvPlane d pp i true
  changeNow false k.1 false k.2 bs
  changeNow true k.1 false (sideOf k.2) sd

/-- A page taken from a pool is zero before its first write (R237). -/
def kvZero (d : Desc) (pp : Nat) : Eng Unit := do
  for i in List.range 16 do kvWrite d pp i (List.replicate 4096 0) (List.replicate 256 0)

/-- One four-bit unit and its side-slot byte, where one is given. -/
def kvPut (d : Desc) (pp i u v : Nat) (side : Option (Nat × Nat)) : Eng Unit := do
  let k ← kvPlane d pp i true
  let old := ((← pkg).mem.get (k.2 + u / 2)).toNat
  changeNow false (k.1.map (· + u / 2)) false (k.2 + u / 2) [BitVec.ofNat 8 (setBits old (4 * (u % 2) + 3) (4 * (u % 2)) v)]
  match side with
  | some s => changeNow true k.1 false (sideOf k.2 + s.1) [BitVec.ofNat 8 s.2]
  | none => pure ()

/-! ## The pool (R240, R250, R257) -/

/-- Entry i of a sequence's pool, 32 bits at their natural alignment (R85, R235). -/
def poolEntry (d : Desc) (i : Nat) : Eng Nat := do
  need (d.pool % 4 == 0) 3
  devNum (d.pool + 4 * i) 4

/-- The top page of a sequence's pool. -/
def poolPop (a : Nat) : Eng Nat := do
  let d ← readDesc a
  need (d.ptop != 0) 0x28
  let pp ← poolEntry d (d.ptop - 1)
  need (decide (pp < 6819840)) (standing 1)
  devNow (a + 108) (bytesOf 4 (d.ptop - 1))
  return pp

def poolPush (a pp : Nat) : Eng Unit := do
  let d ← readDesc a
  need (decide (d.ptop < d.kvpages)) (standing 1)
  need (d.pool % 4 == 0) 3
  devNow (d.pool + 4 * d.ptop) (bytesOf 4 pp)
  devNow (a + 108) (bytesOf 4 (d.ptop + 1))

/-- A page's count goes down; at zero its entry goes and, when it is not demoted, its page returns to its supplier (R257). -/
def unreference (e : Ipt) (supplier : Nat) : Eng Unit := do
  if 1 < e.ref then iptWrite { e with ref := e.ref - 1 }
  else
    iptRemove e
    if !e.demoted then poolPush supplier e.pp

/-- The page that unreferencing gives back to a pool (log 50). -/
def givesBack (e : Ipt) : Bool := decide (e.ref ≤ 1) && !e.demoted

/-! ## Chains (R248) -/

structure Chain where
  lines : List Nat
  n     : Nat
  ents  : List Nat
  deriving DecidableEq, Repr, Inhabited

/-- The overflow lines from a link on, at most `fuel` of them. -/
def chainLines (opool : Nat) : Nat → Nat → Eng (List (Nat × List Byte))
  | 0, _ => pure []
  | fuel + 1, link => do
    if link = 0 then return []
    let a := opool + 64 * (link - 1)
    let b ← devRead a 64
    return (a, b) :: (← chainLines opool fuel (field b 60 4))

def wordsIn (b : List Byte) (o n : Nat) : List Nat := (List.range n).map fun i => field b (o + 4 * i) 4

/-- The chain of a bucket; its count is at most what its lines hold. -/
def readChain (d : Desc) (hd : Head) (h t beta : Nat) : Eng Chain := do
  let a := d.bkbase + ((h * d.t + t) * 2 ^ d.b + beta) * 64
  let b ← devRead a 64
  let more ← chainLines hd.opool hd.ocap (field b 4 4)
  let ents := wordsIn b 8 14 ++ more.flatMap fun q => wordsIn q.2 0 15
  return { lines := a :: more.map (·.1), n := min (field b 0 4) ents.length, ents := ents }

/-- The count after the lazy purge. -/
def purge (ents : List Nat) (tok ep : Nat) : Nat → Nat
  | 0 => 0
  | n + 1 => if ents.getD n 0 % 256 = ep ∧ tok ≤ ents.getD n 0 / 256 then purge ents tok ep n else n + 1

/-- The address of a chain's entry. -/
def Chain.entryAt (c : Chain) (n : Nat) : Nat :=
  if n < 14 then c.lines.getD 0 0 + 8 + 4 * n else c.lines.getD (1 + (n - 14) / 15) 0 + 4 * ((n - 14) % 15)

/-- `append` of R248. -/
def chainAppend (d : Desc) (h t beta tok : Nat) : Eng Unit := do
  let hd ← readHead d h
  let c ← readChain d hd h t beta
  let ep := d.seg % 256
  let n := purge c.ents tok ep c.n
  let head := c.lines.getD 0 0
  if n = c.ents.length then
    if hd.oused = hd.ocap then
      devNow (hd.at_ + 21) [1]
      devNow head (bytesOf 4 n)
      return ()
    let line := hd.opool + 64 * hd.oused
    devNow (line + 60) (bytesOf 4 0)
    devNow (if c.lines.length = 1 then head + 4 else c.lines.getLastD 0 + 60) (bytesOf 4 (hd.oused + 1))
    devNow (hd.at_ + 12) (bytesOf 4 (hd.oused + 1))
    devNow line (bytesOf 4 (tok * 256 + ep))
  else devNow (c.entryAt n) (bytesOf 4 (tok * 256 + ep))
  devNow head (bytesOf 4 (n + 1))

/-! ## Signatures (R245 to R247) -/

/-- T and the dimension of a projection state as read. -/
def stT (b : List Byte) : Nat := field b 4 1
def stDim (b : List Byte) : Nat := 64 * 2 ^ field b 5 1

/-- The signature of a vector under table t. R245 does not settle a sum whose products hold infinities of both signs: the model takes it as
not a number, so that the bit is 0 (DESIGN CHOICE, log 100). -/
def signature (st : List Byte) (t : Nat) (xs : List FVal) : Nat :=
  digits 1 ((List.range 16).map fun j =>
    let s := FVal.sum ((List.range xs.length).zip xs |>.map fun q =>
      (q.2.mul (bf16.decode (field st (64 + 2 * ((t * stDim st + q.1) * 16 + j)) 2))).1)
    b2n (!s.1.isNan && !s.1.isZero && s.1.sign))

/-- The lowest stencil slot that satisfies a test. -/
def stencilSlot (p : Pkg) (ok : Stencil → Bool) : Option Stencil :=
  ((List.range 8).map p.stencil.get).find? fun s => s.valid && ok s

/-- ECX_SIGLD (R246). -/
def ecxSigldWork (c : Cmd) : Eng Unit := do
  let slot := c.b.toNat % 8
  if c.a = 0 then modPkg fun p => { p with stencil := p.stencil.set slot {} }
  else
    need (c.a.toNat % 4 == 0) 3
    let h ← devRead c.a.toNat 64
    need (field h 0 4 != 0 && decide (1 ≤ stT h ∧ stT h ≤ 4 ∧ field h 5 1 ≤ 2) && (h.drop 6).all (· == 0)) 1
    let m ← devRead (c.a.toNat + 64) (stT h * stDim h * 32)
    modPkg fun p => { p with stencil := p.stencil.set slot { valid := true, asid := c.asid, addr := c.a.toNat, bytes := h ++ m } }

/-- ECX_SIGLD: the command makes its accesses. -/
def execEcxSigld (c : Cmd) (s : State) : Out := runCmd c (ecxSigldWork c) s

/-- `n` source elements of a format from a byte string. -/
def sourceElems (fa : Nat) (bs : List Byte) (at_ n : Nat) : List FVal :=
  let w := fmtWidth fa / 8
  (List.range n).map fun i => elementValue fa (field bs ((at_ + i) * w) w)

/-- ECX_SIG (R247). -/
def ecxSigWork (c : Cmd) : Eng Unit := do
  let fa := c.hdr.fa.toNat
  let n := c.c.toNat
  let out := c.b.toNat % 2 ^ 24
  need (decide (1 ≤ n ∧ n ≤ 64)) 0x0E
  need (inWide fa) 0x2A
  match stencilSlot (← pkg) fun t => t.asid == c.asid && t.addr == c.a.toNat with
  | none => fail 0x2A
  | some st =>
    let dim := stDim st.bytes
    let w := fmtWidth fa / 8
    need (linear c.d.toNat (n * dim * w) 4 && linear out (16 * n) 16) 2
    let bs ← localRead c.d.toNat (n * dim * w)
    for i in List.range n do
      let xs := sourceElems fa bs (i * dim) dim
      let sigs := (List.range 4).map fun t => if t < stT st.bytes then signature st.bytes t xs else 0
      localWrite (out + 16 * i) (st.bytes.take 5 ++ [0, 0, 0] ++ sigs.flatMap (bytesOf 2 ·))

/-- ECX_SIG: the command makes its accesses. -/
def execEcxSig (c : Cmd) (s : State) : Out := runCmd c (ecxSigWork c) s

/-! ## Appending (R249 to R251) -/

/-- Planes of head h of a page: its first plane. -/
def Desc.plane0 (d : Desc) (h : Nat) : Nat := h % d.hp * d.pw

/-- The stored key of token t of a head, exactly as decoded (R238, R250). -/
def storedKey (d own : Desc) (pp h t : Nat) : Eng (List FVal) := do
  let ps ← (List.range d.pk).mapM fun c => kvRead own pp (d.plane0 h + c)
  return (List.range d.dim).map fun ch =>
    let q := ps.getD (ch / 128) ([], [])
    let k := ch % 128
    scaled (field q.2 (64 * (k / 32) + t) 1) (elementValue 10 (packedUnit 4 q.1 (64 * k + t)))

/-- The value scale of a group by its first value (R249). -/
def valueScale (hd : Head) (v : FVal) : Nat :=
  match v with
  | .nan => 0xFF
  | .inf _ => 254
  | .fin _ m e => if m = 0 then hd.vdef else (min (max ((Nat.log2 m : Int) + e - 2 + 127 + hd.vhr) 0) 254).toNat

/-- The sequence whose region supplied a block's page. -/
def supplierOf (d : Desc) (b : Nat) : Eng Desc := do
  let a := (d.resolve b).2
  if a = d.at_ then return d else readDesc a

/-- Token t of head h written into a page: key, value and new scales (R238, R249). -/
def putToken (d : Desc) (hd : Head) (pp h t : Nat) (md : Nat → Mode) (e0 : Nat) (key val : List FVal) : Eng Unit := do
  let q0 := d.plane0 h
  for blk in List.range (d.dim / 32) do
    let xs := (key.drop (32 * blk)).take 32
    let sc := blockScale 10 xs
    for i in List.range 32 do
      let ch := 32 * blk + i
      let r := quantise 10 sc (md (e0 + ch)) (xs.getD i .nan)
      kvPut d pp (q0 + ch / 128) (64 * (ch % 128) + t) r.bits (some (64 * (ch % 128 / 32) + t, sc))
  for dm in List.range d.dim do
    let x := val.getD dm .nan
    let plane := q0 + d.pk + dm / 64
    let at_ := 64 * (t / 32) + dm % 64
    let k ← kvPlane d pp plane false
    let p ← pkg
    let sc := if t % 32 = 0 then valueScale hd x else (p.side.get (sideOf k.2 + at_)).toNat
    let r := quantise 10 sc (md (e0 + d.dim + dm)) x
    kvPut d pp plane (128 * (dm % 64) + t) r.bits (some (at_, sc))

/-- A stored token of head h is signed and filed in every table, unless the head is dense before the first (R250, R251). -/
def fileToken (d : Desc) (st : List Byte) (pp h tok : Nat) : Eng Unit := do
  if (← readHead d h).dense then return ()
  let xs ← storedKey d d pp h (tok % 64)
  for tb in List.range d.t do
    chainAppend d h tb (signature st tb xs / 2 ^ (16 - d.b)) tok

/-- The first `n` pool entries name physical pages (R250). -/
def poolOk (d : Desc) (n : Nat) : Eng Unit := do
  for i in List.range (min n d.ptop) do
    need (decide ((← poolEntry d (d.ptop - 1 - i)) < 6819840)) (standing 1)

/-- Copy-on-write of block b (R251); answers the descriptor as it then stands. A group whose own entry an earlier attempt
left keeps its page (log 50). -/
def copyOnWrite (d : Desc) (b len : Nat) (st : List Byte) : Eng Desc := do
  let asid := (← read).cmd.asid
  match d.lin.getLast? with
  | none => return d
  | some l =>
    let olds ← (List.range d.ng).mapM fun g => iptFind asid (d.resolve b).1 b g
    let pushes := (olds.filter fun o => match o with | some e => givesBack e | none => false).length
    let own ← (List.range d.ng).filterM fun g => return (← iptFind asid d.seg b g).isNone
    let sup ← supplierOf d b
    need (pushes == 0 || decide (sup.ptop - (if l.desc = d.at_ then own.length else 0) + pushes ≤ sup.kvpages)) (standing 1)
    poolOk d own.length
    for g in List.range d.ng do
      if (olds.getD g none).any (·.demoted) then fail 0x2E
      let pp ← match ← iptFind asid d.seg b g with
        | some e => pure e.pp
        | none => do
          let pp ← poolPop d.at_
          kvZero d pp
          iptInsert asid d.seg b g pp
          pure pp
      match olds.getD g none with
      | some e =>
        for i in List.range 16 do
          let w ← kvRead sup e.pp i
          kvWrite d pp i w.1 w.2
      | none => pure ()
    for g in List.range d.ng do
      match ← iptFind asid (d.resolve b).1 b g with
      | some e => unreference e l.desc
      | none => pure ()
    let start := d.starts.getD (d.lin.length - 1) 0
    let lin := d.lin.dropLast ++ (if start < b then [{ l with stop := b }] else [])
    writeLineage d.at_ lin
    let d ← readDesc d.at_
    for tok in (List.range len).drop (64 * b) do
      for h in List.range d.nh do
        match ← iptFind asid d.seg b (h / d.hp) with
        | some e => fileToken d st e.pp h tok
        | none => pure ()
    return d

/-- The pages of a block that the append finds or takes (R250) (log 50). -/
def takePages (d : Desc) (b : Nat) : Eng Unit := do
  let asid := (← read).cmd.asid
  for g in List.range d.ng do
    match ← iptFind asid (d.resolve b).1 b g with
    | some e => if e.demoted then fail 0x2E
    | none =>
      let pp ← poolPop d.at_
      kvZero d pp
      iptInsert asid d.seg b g pp

/-- Commands that change a sequence, of one part and with a common descriptor, act in program order (R243). -/
def kvTurn (c : Cmd) : Eng Unit := do
  let names (unit op : Nat) (k : Cmd) : List Nat :=
    if unit = 13 ∧ (op = 6 ∨ op = 8) then [k.a.toNat] else if unit = 13 ∧ op = 9 then [k.a.toNat, k.d.toNat] else []
  let p ← pkg
  let mine := names 13 (p.cmd c.id).op c
  if p.allCmds.any fun e => ownerOf e.cmd == ownerOf c && decide (e.cmd.id < c.id) && (e.phase == .queued || e.phase == .waiting) &&
      (names e.unit e.op e.cmd).any mine.contains then wait

/-- The writes of other KV commands that change sequences, whose accesses are made, are performed first: this one finds all of what each
of them wrote, its length among it (R243) (log 48). -/
def settleKv : Eng Unit := do
  let v ← read
  let others := (← pkg).allCmds.filter fun e => e.cmd.id != v.cmd.id && e.phase == .started && e.unit == 13 &&
    (e.op == 6 || e.op == 8 || e.op == 9)
  for e in others do
    let q := performRest v.env e.cmd.id (← pkg)
    modPkg fun _ => q.1
    if !q.2 then wait

/-- A KV command's accesses, as one toward every other KV command (R243). What it has written stands where it ends with a status
(R250). -/
def kvAccess (m : Eng Unit) : Eng Unit := do
  settleKv
  match ← attempt (indivisible m) with
  | .ok _ => pure ()
  | .error n => endWith n

/-- ECX_KVAPP (R249, R250) (log 48). -/
def ecxKvappWork (c : Cmd) : Eng Unit :=
  kvAccess (do
    let fa := c.hdr.fa.toNat
    let n := c.c.toNat
    need (decide (n ≤ 8192)) 0x0E
    kvTurn c
    need (inWide fa && c.hdr.fb.toNat == 10) 0x2A
    let d ← readDesc c.a.toNat
    for h in List.range d.nh do let _ ← readHead d h
    let w := fmtWidth fa / 8
    let size := n * d.nh * 2 * d.dim * w
    need (linear c.d.toNat size 4) 2
    let len := d.vlen
    if n = 0 then return ()
    need (decide (len + n ≤ 16777215)) 0x30
    match stencilSlot (← pkg) fun t => t.asid == c.asid && t.addr == d.pstate && field t.bytes 0 4 == d.pver &&
        stT t.bytes == d.t && field t.bytes 5 1 == d.dcode with
    | none => fail 0x2A
    | some st =>
      releaseWait c.a.toNat
      let bs ← localRead c.d.toNat size
      let md := modeFor c.hdr (BitVec.ofNat 64 (natOf c.local0))
      for i in List.range n do
        let tok := len + i
        let b := tok / 64
        if i = 0 || tok % 64 = 0 then
          let d ← readDesc c.a.toNat
          let d ← if b < d.fb then copyOnWrite d b len st.bytes else pure d
          takePages d b
        let d ← readDesc c.a.toNat
        for h in List.range d.nh do
          match ← iptFind c.asid (d.resolve b).1 b (h / d.hp) with
          | some e =>
            let e0 := ((i * d.nh + h) * 2) * d.dim
            putToken d (← readHead d h) e.pp h (tok % 64) md e0 (sourceElems fa bs e0 d.dim)
              (sourceElems fa bs (e0 + d.dim) d.dim)
            fileToken d st.bytes e.pp h tok
          | none => pure ()
      releaseLast c.a.toNat (BitVec.ofNat 64 (len + n)))

/-- ECX_KVAPP: the command makes its accesses. -/
def execEcxKvapp (c : Cmd) (s : State) : Out := runCmd c (ecxKvappWork c) s

/-! ## Selection (R252 to R255) -/

/-- The segments of a sequence below length L: descriptor, epoch, token range (R254). -/
def segments (d : Desc) (len : Nat) : List (Nat × Nat × Nat × Nat) :=
  ((List.range d.lin.length).filterMap fun j => match d.lin[j]? with
    | some l => some (l.desc, l.seg % 256, 64 * d.starts.getD j 0, min (64 * l.stop) len)
    | none => none) ++ [(d.at_, d.seg % 256, 64 * d.fb, len)]

/-- The buckets that a table's probe bits name. -/
def probedBuckets (b bucket : Nat) (exact near : Bool) : List Nat :=
  (if exact then [bucket] else []) ++ (if near then (List.range b).map fun i => bucket ^^^ 2 ^ i else [])

/-- The selected tokens (R254). -/
def selectTokens (d : Desc) (len h probes : Nat) (sig : Nat → Nat) : Eng (List Nat) := do
  let mut sel : List Nat := []
  for tb in List.range d.t do
    for beta in probedBuckets d.b (sig tb / 2 ^ (16 - d.b)) (probes.testBit (2 * tb)) (probes.testBit (2 * tb + 1)) do
      for sg in segments d len do
        let q ← if sg.1 = d.at_ then pure d else readDesc sg.1
        let ch ← readChain q (← readHead q h) h tb beta
        sel := sel ++ ((ch.ents.take ch.n).filter fun e =>
          e % 256 == sg.2.1 && decide (sg.2.2.1 ≤ e / 256 ∧ e / 256 < sg.2.2.2)).map (· / 256)
  return sel.eraseDups

/-- The bytes of a list entry (R253). -/
def listEntry (block : Nat) (e : Ipt) (mask : Nat) : List Byte :=
  bytesOf 3 block ++ bytesOf 1 (b2n e.demoted) ++ bytesOf 3 e.pp ++ [0] ++ bytesOf 8 mask

/-- ECX_KVSEL (R252 to R255). -/
def ecxKvselWork (c : Cmd) : Eng Unit :=
  kvAccess (do
    let b := c.b.toNat
    let h := b % 64
    let probes := bits b 13 6
    let limit := bits b 31 16
    let out := c.c.toNat
    need (linear c.d.toNat 16 16 && linear out 32 32) 2
    need (limit != 0) 0x0E
    let d ← readDesc c.a.toNat
    need (decide (h < d.nh ∧ probes < 4 ^ d.t)) 0x0E
    let hd ← readHead d h
    let len := d.vlen
    modPkg (clearBound c.asid c.a.toNat)
    let qs ← localRead c.d.toNat 16
    let denses ← d.lin.mapM fun l => do
      let q ← if l.desc = d.at_ then pure d else readDesc l.desc
      return decide (h < q.nh) && (← readHead q h).dense
    let toks ← selectTokens d len h probes fun t => field qs (8 + 2 * t) 2
    let pagesOf (bs : List Nat) : Eng (List (Nat × Option Ipt)) :=
      bs.mapM fun blk => do return (blk, ← iptFind c.asid (d.resolve blk).1 blk (h / d.hp))
    let named ← pagesOf ((toks.map (· / 64)).eraseDups)
    let ntok := (toks.filter fun t => named.any fun q => q.1 == t / 64 && q.2.isSome).length
    let why := b2n (hd.thr != 0 && decide (hd.thr < ntok)) + 2 * b2n (hd.dense || denses.any id) +
      4 * b2n (field qs 0 4 != d.pver || field qs 4 1 != d.t)
    let full := why != 0 && hd.mode == 1
    let pages ← if full then pagesOf (List.range (ceilDiv len 64)) else pure named
    let page (blk : Nat) : Option Ipt := (pages.find? fun q => q.1 == blk).bind (·.2)
    let blocks (ts : List Nat) : List (Nat × Ipt × Nat) := (List.range (ceilDiv len 64)).filterMap fun blk =>
      let m := digits 1 ((List.range 64).map fun t => b2n (ts.contains (64 * blk + t)))
      if m = 0 then none else (page blk).map fun e => (blk, e, m)
    let chosen := blocks toks
    let none_ := why != 0 && hd.mode == 0
    let all := if none_ then [] else if full then blocks (List.range len) else chosen
    let es := all.take limit
    let flags := why + (if full then 8 else 0)
    need (decide (out + 32 + 16 * es.length ≤ spadSize)) 2
    awake (coreOf c.ctx)
    for i in List.range es.length do
      match es[i]? with
      | some e => localWrite (out + 32 + 16 * i) (listEntry e.1 e.2.1 e.2.2)
      | none => pure ()
    writeLate (localCells (coreOf c.ctx) out
      (bytesOf 4 es.length ++ bytesOf 4 (if full then len else ntok) ++ bytesOf 1 h ++ bytesOf 1 d.dcode ++ bytesOf 1 flags ++
       List.replicate 5 0 ++ bytesOf 8 len ++ bytesOf 8 c.a.toNat))
    modPkg fun p => p.modCmd c.id fun m => { m with detail := flags }
    if none_ then endWith 0x2C
    else if limit < all.length then endWith 0x2B)

/-- ECX_KVSEL: the command makes its accesses. -/
def execEcxKvsel (c : Cmd) (s : State) : Out := runCmd c (ecxKvselWork c) s

/-! ## Truncation and forks (R257, R258) -/

/-- The pages that a truncation to e blocks unreferences: entry and supplier, lineage first. -/
def truncated (p : Pkg) (asid : Nat) (d : Desc) (e : Nat) : List (Ipt × Nat) :=
  ((List.range d.lin.length).flatMap fun j => match d.lin[j]? with
    | some l => ((iptAll p).filter fun x => x.asid == asid && x.seg == l.seg && decide (x.hg < d.ng) &&
        decide (max (d.starts.getD j 0) e ≤ x.block ∧ x.block < l.stop)).map fun x => (x, l.desc)
    | none => []) ++
  ((iptAll p).filter fun x => x.asid == asid && x.seg == d.seg && decide (e ≤ x.block)).map fun x => (x, d.at_)

/-- Lineage ends lowered to e, emptied entries dropped. -/
def cutLineage (d : Desc) (e : Nat) : List Lineage :=
  (List.range d.lin.length).filterMap fun j => match d.lin[j]? with
    | some l =>
      let start := d.starts.getD j 0
      let stop := if e < l.stop then max e start else l.stop
      if start < stop then some { l with stop := stop } else none
    | none => none

/-- ECX_KVTRUNC (R257) (log 48). Where both 0x2F and 0x01 hold, which the rule puts in no order, the status is 0x2F (DESIGN CHOICE,
log 101). -/
def ecxKvtruncWork (c : Cmd) : Eng Unit :=
  kvAccess (do
    kvTurn c
    let d ← readDesc c.a.toNat
    let len := c.d.toNat % 2 ^ 24
    if d.vlen ≤ len then return ()
    releaseWait c.a.toNat
    let p ← pkg
    let e := ceilDiv len 64
    for x in iptAll p do if x.asid = c.asid then iptSound x
    let bump := (iptAll p).any fun x => x.asid == c.asid && x.seg == d.seg && decide (max d.fb (len / 64) ≤ x.block ∧ 1 < x.ref)
    need (!(bump && ((d.lin.length == 4 && decide (d.fb < e)) || d.seg % 256 == 255))) 0x2F
    let gone := truncated p c.asid d e
    for a in (gone.map (·.2)).eraseDups do
      let q ← readDesc a
      need (decide (q.ptop + (gone.filter fun g => g.2 == a && givesBack g.1).length ≤ q.kvpages)) 1
    for g in gone do
      match ← iptFind c.asid g.1.seg g.1.block g.1.hg with
      | some x => unreference x g.2
      | none => pure ()
    writeLineage d.at_ (cutLineage d e ++ (if bump ∧ d.fb < e then [⟨d.at_, d.seg, e⟩] else []))
    if bump then devNow (d.at_ + 8) (bytesOf 1 (d.seg + 1))
    releaseLast c.a.toNat (BitVec.ofNat 64 len))

/-- ECX_KVTRUNC: the command makes its accesses. -/
def execEcxKvtrunc (c : Cmd) (s : State) : Out := runCmd c (ecxKvtruncWork c) s

/-- ECX_KVFORK (R258) (log 48). -/
def ecxKvforkWork (c : Cmd) : Eng Unit :=
  kvAccess (do
    kvTurn c
    let pa ← readDesc c.d.toNat
    let ch ← readDesc c.a.toNat
    let len := c.c.toNat
    need (decide (len ≤ pa.vlen)) 0x30
    need (ch.vlen == 0 && ch.lin.isEmpty) 0x30
    need (ch.dcode == pa.dcode && ch.nh == pa.nh && ch.t == pa.t && ch.b == pa.b && ch.pver == pa.pver &&
      ch.pstate == pa.pstate) 0x2F
    modPkg (clearBound c.asid c.d.toNat)
    let e := ceilDiv len 64
    let lin := cutLineage pa e ++ (if pa.fb < e then [⟨c.d.toNat, pa.seg, e⟩] else [])
    need (decide (lin.length ≤ 4)) 0x2F
    let found ← ((List.range e).flatMap fun b => (List.range pa.ng).map fun g => (b, g)).mapM fun q =>
      iptFind c.asid (pa.resolve q.1).1 q.1 q.2
    let pages := found.filterMap id
    need (pages.all fun x => decide (x.ref < 65535)) 0x2F
    releaseWait c.a.toNat
    for x in pages do iptWrite { x with ref := x.ref + 1 }
    writeLineage ch.at_ lin
    releaseLast c.a.toNat (BitVec.ofNat 64 len))

/-- ECX_KVFORK: the command makes its accesses. -/
def execEcxKvfork (c : Cmd) (s : State) : Out := runCmd c (ecxKvforkWork c) s

end Sys2Proof.Machine
end

