-- ==== Sys2Proof/Machine/Trowel.lean ====
section
/-! DEFINITION. Trowel units and broadcast compute mode (R259 to R273). -/

namespace Sys2Proof.Machine

open Eng

/-! ## Registers and lanes (R259) -/

abbrev TwReg := BitVec 2048

def twLane (x : TwReg) (i : Nat) : Lane := x.extractLsb' (32 * i) 32
def twTab (f : Nat → Lane) : TwReg := BitVec.ofNat 2048 (digits 32 ((List.range 64).map fun i => (f i).toNat))
/-- Pair j, read as one n64. -/
def twPair (x : TwReg) (j : Nat) : Word := x.extractLsb' (64 * j) 64

def Trowel.reg (u : Trowel) (r : BitVec 5) : TwReg := u.w.get r.toNat
def Trowel.setReg (u : Trowel) (r : BitVec 5) (x : TwReg) : Trowel := { u with w := u.w.set r.toNat x }

def Pkg.modChan (p : Pkg) (ch : Nat) (f : Channel → Channel) : Pkg := { p with chans := p.chans.modify ch f }

/-- Every unit of a channel takes a part. -/
def Channel.each (f : Nat → Trowel → Trowel) (c : Channel) : Channel :=
  { c with units := (List.range 64).foldl (fun m i => m.modify i (f i)) c.units }

/-! ## Sequencing (R264, R267) -/

/-- The opcode of a program word. -/
def twOpcode (w : BitVec 32) : Nat := (w >>> 27).toNat
def Channel.opAt (c : Channel) (i : Nat) : Nat := twOpcode (c.prog.getD i 0)

/-- The channel at a program counter; past the last word it is halted. -/
def Channel.goto (n : Nat) (c : Channel) : Channel := { c with pc := n, halted := c.halted || n == c.prog.length }
def Channel.nextPc (c : Channel) : Channel := c.goto (c.pc + 1)

/-- The index after the `endl` that closes a loop whose body starts at i. -/
def afterEndl (c : Channel) : Nat → Nat → Nat → Nat
  | 0, _, i => i
  | fuel + 1, depth, i =>
    match c.opAt i with
    | 20 => afterEndl c fuel (depth + 1) (i + 1)
    | 21 => afterEndl c fuel (depth + 1) (i + 1)
    | 22 => if depth = 0 then i + 1 else afterEndl c fuel (depth - 1) (i + 1)
    | _ => afterEndl c fuel depth (i + 1)

/-- The next instruction takes no step: it is executed at this point. -/
def Channel.atZeroStep (c : Channel) : Bool :=
  !c.halted && decide (c.pc < c.prog.length) && (c.opAt c.pc == 22 || c.opAt c.pc == 23)

/-- The zero-step instructions that follow, until one that takes a step or a halt (R264). -/
def zeroSteps (ch : Nat) (p : Pkg) : Pkg := if (p.chans.get ch).atZeroStep then p.push [.trowel ch] else p

/-- A drive ends with a status and gives up its channel (R268, R269). -/
def endDrive (id status ch : Nat) (p : Pkg) : Pkg :=
  endCommand id status (p.modChan ch fun c => if c.holder = some id then { c with holder := none, step := none } else c)

/-- A step of a channel is over: a mismatch is kept, and after its last step the drive completes (R267) (log 57). -/
def stepDone (ch : Nat) (mismatch : Bool) (p : Pkg) : Pkg :=
  match (p.chans.get ch).step with
  | none => p
  | some st =>
    let p := p.modChan ch fun c => { c with step := none, mismatch := c.mismatch || mismatch }
    if p.present st.cmd then
      let n := (p.cmd st.cmd).progress + 1
      let p := p.modCmd st.cmd fun m => { m with progress := n }
      if n = (p.cmd st.cmd).cmd.c.toNat then endDrive st.cmd (if (p.chans.get ch).mismatch then 0x35 else 0) ch p else p
    else p

/-- An instruction that takes a step: what it needs, what every unit does, what it writes to memory, where it goes on. -/
def twStep (needs : Nat) (unit : Pkg → DriveStep → Nat → Trowel → Trowel) (store : DriveStep → Channel → Pkg → Pkg)
    (flow : Channel → Channel) (s : State) : Out :=
  let p := s.pkg
  let ch := p.focus
  let c := p.chans.get ch
  match c.step with
  | none => .next s
  | some st =>
    if c.halted then .next s
    else
      let p := store st c p
      let p := p.modChan ch fun c => flow (c.each (unit p st))
      s.put (zeroSteps ch (stepDone ch (st.kind != needs) p))

/-- An instruction on registers alone: an idle step. -/
def twIdle (unit : Trowel → Trowel) (s : State) : Out :=
  twStep 0 (fun _ _ _ u => unit u) (fun _ _ p => p) Channel.nextPc s

/-- A lane-wise operation of two registers. -/
def twLanes (rd ra rb : BitVec 5) (f : Lane → Lane → Lane) (s : State) : Out :=
  twIdle (fun u => u.setReg rd (twTab fun i => f (twLane (u.reg ra) i) (twLane (u.reg rb) i))) s

/-! ## The instructions (R263 to R265) -/

def execTwNop (s : State) : Out := twIdle id s

/-- The burst of a step in a column (log 57). -/
def burstAt (p : Pkg) (st : DriveStep) (col : Nat) : TwReg :=
  BitVec.ofNat 2048 (natOf (p.mem.getMany (st.places.getD col 0) 256))

def execTwLd (rd : BitVec 5) (s : State) : Out :=
  twStep 1 (fun p st col u => u.setReg rd (if st.kind = 1 then burstAt p st col else 0)) (fun _ _ p => p) Channel.nextPc s

/-- Every column's burst is written from a register (log 57). -/
def writeBursts (ra : BitVec 5) (st : DriveStep) (c : Channel) (p : Pkg) : Pkg :=
  if st.kind = 2 then
    ((List.range st.places.length).zip st.places).foldl (fun p q =>
      writeCells (cellsAt q.2 (bytesOf 256 ((c.units.get q.1).reg ra).toNat)) p) p
  else p

def execTwSt (ra : BitVec 5) (s : State) : Out :=
  twStep 2 (fun _ _ _ u => u) (writeBursts ra) Channel.nextPc s

def execTwAddI32 (rd ra rb : BitVec 5) (s : State) : Out := twLanes rd ra rb (· + ·) s
def execTwSubI32 (rd ra rb : BitVec 5) (s : State) : Out := twLanes rd ra rb (· - ·) s
def execTwMulI32 (rd ra rb : BitVec 5) (s : State) : Out := twLanes rd ra rb (· * ·) s
def execTwAddF32 (rd ra rb : BitVec 5) (s : State) : Out := twLanes rd ra rb (fun a b => laneOf (addF32 a b)) s
def execTwSubF32 (rd ra rb : BitVec 5) (s : State) : Out :=
  twLanes rd ra rb (fun a b => laneOf (finish f32 (FVal.add (Lane.val a) (Lane.val b).neg))) s
def execTwMulF32 (rd ra rb : BitVec 5) (s : State) : Out := twLanes rd ra rb (fun a b => laneOf (mulF32 a b)) s

def execTwFmaF32 (rd ra rb rc : BitVec 5) (s : State) : Out :=
  twIdle (fun u => u.setReg rd (twTab fun i =>
    laneOf (fmaF32 (twLane (u.reg ra) i) (twLane (u.reg rb) i) (twLane (u.reg rc) i)))) s

def execTwMin (rd ra rb : BitVec 5) (f : Bool) (s : State) : Out :=
  twLanes rd ra rb (fun a b => if f then minF32 a b else if b.slt a then b else a) s
def execTwMax (rd ra rb : BitVec 5) (f : Bool) (s : State) : Out :=
  twLanes rd ra rb (fun a b => if f then maxF32 a b else if a.slt b then b else a) s
def execTwAnd (rd ra rb : BitVec 5) (s : State) : Out := twLanes rd ra rb (· &&& ·) s
def execTwOr (rd ra rb : BitVec 5) (s : State) : Out := twLanes rd ra rb (· ||| ·) s
def execTwXor (rd ra rb : BitVec 5) (s : State) : Out := twLanes rd ra rb (· ^^^ ·) s

def execTwShlReg (rd ra rb : BitVec 5) (s : State) : Out := twLanes rd ra rb (fun a b => a <<< (b.toNat % 32)) s
def execTwShlImm (rd ra : BitVec 5) (sh : BitVec 5) (s : State) : Out := twLanes rd ra ra (fun a _ => a <<< sh.toNat) s
def execTwShrReg (rd ra rb : BitVec 5) (s : State) : Out := twLanes rd ra rb (fun a b => a >>> (b.toNat % 32)) s
def execTwShrImm (rd ra : BitVec 5) (sh : BitVec 5) (s : State) : Out := twLanes rd ra ra (fun a _ => a >>> sh.toNat) s
def execTwSraReg (rd ra rb : BitVec 5) (s : State) : Out := twLanes rd ra rb (fun a b => a.sshiftRight (b.toNat % 32)) s
def execTwSraImm (rd ra : BitVec 5) (sh : BitVec 5) (s : State) : Out :=
  twLanes rd ra ra (fun a _ => a.sshiftRight sh.toNat) s

/-- The condition of a comparison (R265). -/
def twCond (c : BitVec 3) (a b : Lane) : Bool :=
  match c.toNat with
  | 0 => a == b
  | 1 => a != b
  | 2 => a.slt b
  | 3 => a.ult b
  | 4 => a.sle b
  | 5 => (Lane.val a).eq (Lane.val b)
  | 6 => (Lane.val a).lt (Lane.val b)
  | _ => (Lane.val a).le (Lane.val b)

def execTwCmp (ra rb : BitVec 5) (m : BitVec 2) (c : BitVec 3) (s : State) : Out :=
  twIdle (fun u =>
    let bit (i : Nat) : Bool :=
      let x := twCond c (twLane (u.reg ra) i) (twLane (u.reg rb) i)
      match m.toNat with
      | 0 => x
      | 1 => u.msk.getLsbD i && x
      | _ => u.msk.getLsbD i || x
    { u with msk := BitVec.ofNat 64 (digits 1 ((List.range 64).map fun i => b2n (bit i))) }) s

def execTwSel (rd ra rb : BitVec 5) (s : State) : Out :=
  twIdle (fun u => u.setReg rd (twTab fun i => if u.msk.getLsbD i then twLane (u.reg ra) i else twLane (u.reg rb) i)) s

def execTwHmix (rd ra rb : BitVec 5) (s : State) : Out :=
  twIdle (fun u => u.setReg rd (BitVec.ofNat 2048 (digits 64 ((List.range 32).map fun j =>
    (mix64 (twPair (u.reg ra) j ^^^ twPair (u.reg rb) j)).toNat)))) s

/-- `loop` and `loopx` (R264): an opened loop, or one of no iterations skipped. -/
def openLoop (inner : Bool) (n : Nat) (c : Channel) : Channel :=
  let c := if inner then { c with lvl := 2, lc1 := n, top1 := c.pc + 1 } else { c with lvl := 1, lc0 := n, top0 := c.pc + 1 }
  if n = 0 then { c with lvl := c.lvl - 1 }.goto (afterEndl c 96 0 (c.pc + 1)) else c.nextPc

def execTwLoop (n : BitVec 16) (s : State) : Out :=
  twStep 0 (fun _ _ _ u => u) (fun _ _ p => p) (openLoop false n.toNat) s
def execTwLoopx (n : BitVec 16) (s : State) : Out :=
  twStep 0 (fun _ _ _ u => u) (fun _ _ p => p) (openLoop true n.toNat) s

/-- `endl`: another iteration, or the loop is closed. -/
def closeLoop (c : Channel) : Channel :=
  if c.lvl = 2 then
    if 1 < c.lc1 then { c with lc1 := c.lc1 - 1 }.goto c.top1 else { c with lvl := 1 }.nextPc
  else if 1 < c.lc0 then { c with lc0 := c.lc0 - 1 }.goto c.top0 else { c with lvl := 0 }.nextPc

def execTwEndl (s : State) : Out :=
  let ch := s.pkg.focus
  if (s.pkg.chans.get ch).halted then .next s else s.put (zeroSteps ch (s.pkg.modChan ch closeLoop))

def execTwHalt (s : State) : Out := s.put (s.pkg.modChan s.pkg.focus fun c => { c with halted := true })

/-! ## Loading (R266) -/

/-- The loop structure of a program. -/
def loopsOk (ws : List (BitVec 32)) : Bool :=
  let step (acc : Option Nat) (w : BitVec 32) : Option Nat :=
    match acc, twOpcode w with
    | none, _ => none
    | some d, 20 => if d = 0 then some 1 else none
    | some d, 21 => if d = 1 then some 2 else none
    | some d, 22 => if d = 0 then none else some (d - 1)
    | some d, _ => some d
  ws.foldl step (some 0) == some 0

/-- A word is a trowel instruction (R262 to R265) (log 92). -/
def trowelOk (w : BitVec 32) : Bool := match decodeTrowel w with | .ok _ => true | .error _ => false

/-- The words of a record read at issue. -/
def localWords (c : Cmd) : List (BitVec 32) := (List.range (c.local0.length / 4)).map fun i => BitVec.ofNat 32 (field c.local0 (4 * i) 4)

/-- A list of n words at A: A is a word's address, and the words end in range (R266, R268). -/
def listAt (a n : Nat) : Bool := decide (a < spadSize) && a % 4 == 0 && decide (a + 4 * n ≤ spadSize)

/-- The channel is in the mode for the context's ASID. -/
def inMode (c : Cmd) : Eng Unit := do
  need (((← pkg).chans.get (coreOf c.ctx)).mode == some c.asid) 0x36

/-- The channel is taken: commands of one part in program order, one holder at a time; one that is parked with its evicted part does not
keep a later one waiting (R269). -/
def takeChannel (c : Cmd) : Eng Unit := do
  let p ← pkg
  let ch := coreOf c.ctx
  if p.allCmds.any fun e => ownerOf e.cmd == ownerOf c && coreOf e.cmd.ctx == ch && e.phase != .parked && decide (e.cmd.id < c.id) &&
      e.unit == 13 && (e.op == 12 || e.op == 14) then wait
  match (p.chans.get ch).holder with
  | some h => if h != c.id then wait
  | none => modPkg fun p => p.modChan ch fun k => { k with holder := some c.id }

/-- ECX_BU_LOAD (R266). -/
def ecxBuLoadWork (c : Cmd) : Eng Unit := do
  let n := c.c.toNat
  need (listAt c.a.toNat (if 96 < n then 0 else n)) 2
  need (decide (1 ≤ n ∧ n ≤ 96)) 0x34
  soundRecord
  inMode c
  let ws := localWords c
  need (ws.all trowelOk && loopsOk ws) 0x34
  takeChannel c
  let ch := coreOf c.ctx
  modPkg fun p => zeroSteps ch (p.modChan ch fun k =>
    { ({} : Channel) with mode := k.mode, holder := k.holder, prog := ws, halted := false })

/-- ECX_BU_LOAD: the command makes its accesses. -/
def execEcxBuLoad (c : Cmd) (s : State) : Out := runCmd c (ecxBuLoadWork c) s

/-! ## Driving (R267 to R269) -/

/-- The virtual address of the burst of a step in a column. -/
def burstVa (r : Shape) (row q b col : Nat) : Nat :=
  r.base + 4096 * (col + 64 * ((memberRows r.rows).findIdx (· == row) + r.nt * q)) + 256 * b

/-- A declared output region of a live restartable node of the ASID meets the region. -/
def staged (p : Pkg) (asid : Nat) (r : Shape) : Bool :=
  p.liveNodes.any fun n => n.restart && n.asid == asid &&
    n.outputs.any fun o => decide (o.1 < r.base + r.size) && decide (r.base < o.1 + o.2)

/-- The virtual addresses and the places of burst 0 of a plane slot in every column, each through its page's leaf: a page that is not
columned gives 0x39, and one that is retired, of whatever kind, ends the drive only at its step (R268, R329). -/
def slotPlaces (c : Cmd) (r : Shape) (q : Nat) (wr : Bool) : Eng (List (Nat × Nat)) :=
  (List.range 64).mapM fun col => do
    let va := burstVa r (coreOf c.ctx % 36) q 0 col
    let l ← leafFor va
    if leafState l.entry != 2 then
      goThrough l va wr true
      need (leafKind l.entry == 1) 0x39
    return (va, leafPlace (← pkg) l va)

/-- ECX_BU_DRIVE: the checks, the channel, the translations (R268, R332). Its steps follow (log 56). -/
def ecxBuDriveWork (c : Cmd) : Eng Unit := do
  let n := c.c.toNat
  need (listAt c.d.toNat n) 2
  need (decide (n ≤ 4096)) 0x0E
  if n = 0 then return ()
  soundRecord
  inMode c
  let core := coreOf c.ctx
  let r ← regionOnce c.asid c.a.toNat 0x39
  need (r.legal && r.die == dieOf core && r.c0 == 0 && r.kt == 64 && r.rows.testBit (core % 36)) 0x39
  need (r.reserved == 0) 1
  need (!staged (← pkg) c.asid r) 0x38
  let ws := localWords c
  need (ws.all fun w => decide (twOpcode w / 8 < 3) && bits w.toNat 25 15 == 0 && decide (bits w.toNat 14 0 < r.planes)) 1
  takeChannel c
  let used := ws.filter fun w => twOpcode w / 8 != 0
  let places ← ((used.map fun w => bits w.toNat 14 0).eraseDups.mapM fun q => do
    return (q, ← slotPlaces c r q (used.any fun w => bits w.toNat 14 0 == q && twOpcode w / 8 == 2)) : Eng _)
  modPkg fun p => p.modChan core fun k => { k with mismatch := false }
  modify fun w => { w with p := w.p.modCmd c.id fun m =>
    { m with phase := .arrived, leaves := w.leaves, places := places, pages := w.leaves.map fun l => (l.1, l.2.1) } }

/-- ECX_BU_DRIVE: the command makes its accesses. -/
def execEcxBuDrive (c : Cmd) (s : State) : Out := runCmd c (ecxBuDriveWork c) s

/-- The places of a step's bursts, once every column can be reached (R93, R268, R363, R364). Those of a drive that a hold has let go are
translated again (logs 56, 57). -/
def stepPlaces (c : Cmd) (kind q b : Nat) : Eng (List Nat) := do
  let m ← self
  let at_ ← match m.places.find? fun e => e.1 == q with
    | some e => pure e.2
    | none => do
      let ps ← slotPlaces c (← regionOnce c.asid c.a.toNat 0x39) q (kind == 2)
      modSelf fun m => { m with places := m.places ++ [(q, ps)] }
      pure ps
  at_.mapM fun e => do
    let va := e.1 + 256 * b
    let k := e.2 + 256 * b
    need (leafState (← leafFor va).entry != 2) 6
    if moveHold (← pkg) c.asid va then hold 0 va 0 0
    reach va k
    let p ← pkg
    if kind = 1 then
      match (List.range 8).find? fun i => p.badSector.get (k / 32 + i) with
      | some i => uncorrectable (va + 32 * i) (some (k + 32 * i))
      | none => pure ()
    return k

/-- The drive is making its steps; a drive goes on while its context is switched out (R269). -/
def stepping (m : Command) : Bool :=
  m.unit == 13 && m.op == 14 && (m.phase == .arrived || (m.phase == .parked && m.wasPhase == .arrived && m.arrivedEnd.isNone))

/-- BU_DRIVE_STEP: the next step of the channel's drive, its accesses and every unit's instruction (R267). -/
def execBuDriveStep (ch : Nat) (s : State) : Out :=
  let p := s.pkg
  match (p.chans.get ch).holder with
  | none => .next s
  | some id =>
    let m := p.cmd id
    if !p.present id || !stepping m || (p.held.any fun h => h.cmd == some id) || decide (m.cmd.c.toNat ≤ m.progress) then .next s
    else
      let e := field m.cmd.local0 (4 * m.progress) 4
      let kind := e / 2 ^ 30
      let body : Eng (List Nat) := if kind = 0 then pure [] else stepPlaces m.cmd kind (bits e 14 0) (bits e 29 26)
      match body ⟨s.env, m.cmd⟩ { p := p, leaves := m.leaves } with
      | .ok places w =>
        let st : DriveStep := { kind := kind, slot := bits e 14 0, burst := bits e 29 26, cmd := id, places := places }
        let p := (w.p.modChan ch fun c => { c with step := some st }).modCmd id fun m => { m with leaves := w.leaves }
        if (p.chans.get ch).halted then s.put (stepDone ch (kind != 0) p) else s.put (p.push [.trowel ch])
      | .error (.status n) w => s.put (endDrive id n ch w.p)
      | .error (.held h) w =>
        s.put ({ w.p with held := w.p.held ++ [h] }.modCmd id fun m => { m with leaves := [], places := [], region := none })
      | .error (.nodeFail r) w => s.put (failNode s.env.clock m.cmd.node r w.p)
      | .error _ _ => .next s

/-! ## The mode (R270) -/

/-- A channel goes back to normal mode: the drive that holds it, and every load or drive that waits for it, completes with
0x36. -/
def leaveMode (ch : Nat) (p : Pkg) : Pkg :=
  let p := match (p.chans.get ch).holder with
    | some id => if p.present id && stepping (p.cmd id) then endDrive id 0x36 ch p else p
    | none => p
  let waiting := (p.allCmds.filter fun e => e.unit == 13 && (e.op == 12 || e.op == 14) && coreOf e.cmd.ctx == ch &&
    e.phase == .waiting).map (·.cmd.id)
  let p := waiting.foldl (fun p id => endCommand id 0x36 { p with held := p.held.filter fun h => h.cmd != some id }) p
  { p with chans := p.chans.set ch {} }

/-- ECX_BU_MODE (R270). -/
def ecxBuModeWork (c : Cmd) : Eng Unit := do
  let ch := coreOf c.ctx
  let asid := c.a.toNat % 2 ^ 16
  let m := ((← pkg).chans.get ch).mode
  if c.b.getLsbD 0 then
    if m = none then modPkg fun p => { p with chans := p.chans.set ch { mode := some asid } }
    else need (m == some asid) 0x37
  else if m.isSome then modPkg (leaveMode ch)

/-- ECX_BU_MODE: the command makes its accesses. -/
def execEcxBuMode (c : Cmd) (s : State) : Out := runCmd c (ecxBuModeWork c) s

/-! ## Page hashes (R272, R273) -/

/-- ghash over the 4 KiB of a granule. -/
def ghash (bs : List Byte) : Word :=
  let s := (List.range 16).foldl (fun (s : List Word) b => (List.range 32).map fun j =>
    mix64 (s.getD j 0 ^^^ BitVec.ofNat 64 (field bs (256 * b + 8 * j) 8))) (List.replicate 32 0)
  s.foldl (fun f x => mix64 (f ^^^ x)) 0

/-- phash over the granules of a page. -/
def phash (seed : Word) (gs : List (List Byte)) : Word := gs.foldl (fun h g => mix64 (h ^^^ ghash g)) seed

/-- A sector of a page that is bonded DRAM; another page gives 0x39, once it is found not to be retired (R273, R329). -/
def hashSector (va n : Nat) : Eng (List Byte) := do
  let l ← translate va false false
  need (isDram (leafPlace (← pkg) l va)) 0x39
  readSector va n

/-- The hash of page i, written at once (R273). -/
def hashPage (c : Cmd) (i : Nat) : Eng Unit := do
  let va := c.a.toNat + 65536 * i
  let bs ← readAll ((blocks 32 va 65536).map fun q => hashSector q.1 q.2)
  let gs := (List.range 16).map fun g => (bs.drop (4096 * g)).take 4096
  awake (coreOf c.ctx)
  write (localCells (coreOf c.ctx) (c.d.toNat + 8 * i) (bytesOf 8 (phash c.c gs).toNat))

/-- Pages one after the other, up to one that fails, which ends the command with its status. -/
def hashPages (c : Cmd) : List Nat → Eng Unit
  | [] => pure ()
  | i :: is => do
    match ← attempt (hashPage c i) with
    | .ok _ => hashPages c is
    | .error n => endWith n

/-- ECX_CHK (R273) (log 52). -/
def ecxChkWork (c : Cmd) : Eng Unit := do
  let n := c.b.toNat % 2 ^ 16
  need (c.a.toNat % 65536 == 0) 3
  need (linear c.d.toNat (8 * n) 8) 2
  hashPages c (List.range n)

/-- ECX_CHK: the command makes its accesses. -/
def execEcxChk (c : Cmd) (s : State) : Out := runCmd c (ecxChkWork c) s

end Sys2Proof.Machine
end

