-- ==== Sys2Proof/Machine/Repair.lean ====
section
/-! DEFINITION. Errors and their repair (R82 to R84, R352, R361 to R363), page moves (R364, R374) and the skim engine (R366, R367). -/

namespace Sys2Proof.Machine

/-! ## The putty controller's registers (R360) -/

def tileReg (ti off : Nat) : Nat := 0x05000000 + 0x1000 * ti + off
/-- Spares left of a category: rows, banks, lane groups. -/
def spareBits (category : Nat) : Nat × Nat := match category with | 1 => (11, 0) | 2 => (15, 12) | _ => (19, 16)
def sparesLeft (p : Pkg) (ti category : Nat) : Nat :=
  bits (p.regv (tileReg ti 0)) (spareBits category).1 (spareBits category).2
def reserveLeft (p : Pkg) (ti : Nat) : Nat := bits (p.regv (tileReg ti 0)) 29 20
def remapsLeft (p : Pkg) (ti : Nat) : Nat := bits (p.regv (tileReg ti 0)) 34 30
/-- A budget field falls by one. -/
def spend (ti hi lo : Nat) (p : Pkg) : Pkg :=
  p.setRegBits (tileReg ti 0) hi lo (bits (p.regv (tileReg ti 0)) hi lo - 1)

/-- REMAPn: two entries share an 8-byte register address (log 63). -/
def remapEntry (p : Pkg) (ti n : Nat) : Nat :=
  bits (p.regv (tileReg ti (0x40 + n / 2 * 8))) (32 * (n % 2) + 31) (32 * (n % 2))
def setRemap (ti n v : Nat) (p : Pkg) : Pkg :=
  p.setRegBits (tileReg ti (0x40 + n / 2 * 8)) (32 * (n % 2) + 31) (32 * (n % 2)) v
def remapUsed (e : Nat) : Bool := e.testBit 31

/-- Reserve planes that no entry uses (log 79). -/
def freeReserve (p : Pkg) (ti : Nat) : List Nat :=
  let used := ((List.range 16).map (remapEntry p ti)).filterMap fun e => if remapUsed e then some (bits e 23 15) else none
  (List.range 512).filter fun t => !used.contains t

/-- A plane is served through a free entry from a reserve plane; an entry that served it before is reused (R362) (log 79). -/
def remapPlane (ti plane : Nat) (p : Pkg) : Pkg :=
  let old := (List.range 16).find? fun n => remapUsed (remapEntry p ti n) && bits (remapEntry p ti n) 14 0 == plane
  let slot := match old with | some n => some n | none => (List.range 16).find? fun n => !remapUsed (remapEntry p ti n)
  match slot with
  | none => p
  | some n =>
    let free := freeReserve p ti
    let t := free.getD (Config.freeNat p.fresh % free.length) 0
    let p := (setRemap ti n (plane + 2 ^ 15 * t + 2 ^ 31) p).drawn 1
    let p := spend ti 29 20 p
    if old.isSome then p else spend ti 34 30 p

/-- A record about a repair. -/
def repairRecord (dtime kind category ti plane : Nat) : FaultRec :=
  { source := 1000 + ti, time := dtime, kind := kind, code := category, tile := ti, detail := plane }

/-! ## Errors (R82, R83, R84, R352, R361) -/

/-- The count of a resource. -/
def resourceKey (ti category index : Nat) : Nat := (4 * ti + category) * 2 ^ 32 + index

/-- The thresholds of REPAIR_THRESH. -/
def threshold (p : Pkg) (category : Nat) : Nat := bits (p.regv 0x04000058) (8 * category - 1) (8 * category - 8)

/-- PUTTY_STAT.failed and .plane. -/
def notePlanes (ti : Nat) (latest : Option Nat) (p : Pkg) : Pkg :=
  let p := p.setRegBits (tileReg ti 8) 16 16 (b2n (p.failed.any fun f => f.tile == ti))
  match latest with | some q => p.setRegBits (tileReg ti 8) 46 32 q | none => p

/-- A plane fails: accesses to it are held from now on (R362, R363). -/
def failPlane (ti plane category index : Nat) (p : Pkg) : Pkg :=
  if p.failed.any fun f => f.tile == ti && f.plane == plane then p
  else notePlanes ti (some plane)
    { p with failed := p.failed ++ [{ tile := ti, plane := plane, category := category, index := index, group := 0 }] }

/-- The repairs of a category that are under way in a tile, each of which takes one of its spares (R361, R362) (log 79). -/
def underWay (p : Pkg) (ti category : Nat) : Nat := (p.repairs.filter fun r => r.tile == ti && r.category == category).length

/-- Repair of a resource starts: through a spare that no other takes, else by remapping the plane, else the plane fails; a plane that has
failed or is being remapped already stays so (R362). The number of steps is the putty controller's own (log 79). -/
def startRepair (ti category index plane : Nat) (p : Pkg) : Pkg :=
  if p.repairs.any fun r => r.tile == ti && r.category == category && r.index == index then p
  else
    let floor := bits (p.regv 0x04000060) 9 0
    let start (category : Nat) (remap : Option Nat) : Pkg :=
      { p.drawn 1 with repairs := p.repairs ++ [{
          tile := ti, category := category, index := index, plane := plane, steps := 1 + Config.freeNat p.fresh, remap := remap }] }
    let remapping := p.repairs.any fun r => r.tile == ti && r.category == 4 && r.plane == plane
    let failed := p.failed.any fun f => f.tile == ti && f.plane == plane
    if underWay p ti category < sparesLeft p ti category then start category none
    else if remapping || failed then p
    else if underWay p ti 4 < remapsLeft p ti ∧ floor + underWay p ti 4 < reserveLeft p ti then start 4 (some category)
    else failPlane ti plane category index p

/-- One more corrected event on a resource, and its repair at the threshold. -/
def countError (ti plane : Nat) (ci : Nat × Nat) (p : Pkg) : Pkg :=
  let key := resourceKey ti ci.1 ci.2
  let n := p.counts.get key + 1
  let p := { p with counts := p.counts.set key n }
  if threshold p ci.1 ≤ n then startRepair ti ci.1 ci.2 plane p else p

/-- An error in a tile's DRAM: a corrected one is counted and reported; an uncorrectable sector is marked and its row repaired (logs 34, 35). -/
def dramError (dtime : Nat) (e : ErrorSite) (p : Pkg) : Pkg :=
  let row := 2 ^ 20 * (e.bank % 2 ^ 8) + e.row % 2 ^ 20
  if e.correctable then
    let p := countUp (tileReg e.tile 8) 15 0 p
    let p := postRecord { source := 1000 + e.tile, time := dtime, kind := 2, tile := e.tile } p
    [(1, row), (2, e.bank), (3, e.lane)].foldl (fun p c => countError e.tile e.plane c p) p
  else
    let sector := dramDpa e.tile e.plane (32 * (e.row % 128)) / 32
    startRepair e.tile 1 row e.plane { p with badSector := p.badSector.set sector true }

/-- What commands have rewritten of a codeword before a new error does not count towards clearing it (R83). -/
def spoilCodeword (core b : Nat) (p : Pkg) : Pkg :=
  let forget (c : Command) : Command := { c with mended := c.mended.filter fun q => !(q.1 == core && q.2.1 == b) }
  { p with cmds := p.cmds.map fun q => (q.1, forget q.2) }

/-- An error in a core's scratchpad or accumulator: a corrected one is reported with its bank, an uncorrectable one poisons its
codeword or marks its word (log 34). -/
def localError (dtime : Nat) (e : ErrorSite) (p : Pkg) : Pkg :=
  let spad := decide (e.tile < 4680)
  let core := (e.tile - 4608) % 72
  if e.correctable then
    if spad then postRecord { source := 300 + core, time := dtime, kind := 1, pcore := core, detail := e.bank } p else p
  else if spad then spoilCodeword core (e.row % 131072) (p.modK core fun k => { k with poison := k.poison.set (e.row % 131072) true })
  else p.modK core fun k => { k with badAcc := k.badAcc.set (e.row % 524288) true }

/-- A parity error in a tile: in a latch, where the macro that uses it finds it, or in the sequencer of the macro that holds the
tile, whose token completes with 0x07 (R217, R351) (log 34). -/
def tileParity (env : Env) (e : ErrorSite) (p : Pkg) : Pkg :=
  let ti := (e.tile - 4752) % 4608
  let mark (l : Latch) : Latch := if l.valid then { l with parity := true } else l
  if e.correctable then p
  else if e.tile < 9360 then
    { p with tiles := p.tiles.modify ti fun t =>
        if e.plane = 0 then { t with active := mark t.active } else { t with shadow := mark t.shadow } }
  else match (p.tiles.get ti).owner with
    | none => p
    | some id =>
      let m := p.cmd id
      if p.present id && m.unit == 13 && 1 ≤ m.op && m.op ≤ 3 && m.status == 0 && (m.phase == .started || m.phase == .waiting)
          && !isHeld p id then
        failCommand env id 7 (postRecord { engineRecord env.dtime 9 0 7 m.cmd 0 none with tile := ti } p)
      else p

/-- CORRECTED_ERROR (log 34). -/
def execCorrectedError (site : ErrorSite) (s : State) : Out :=
  if site.tile < 4608 ∧ site.plane < 24576 then s.put (dramError s.env.dtime site s.pkg)
  else if 4608 ≤ site.tile ∧ site.tile < 4752 then s.put (localError s.env.dtime site s.pkg)
  else if 4752 ≤ site.tile ∧ site.tile < 13968 then s.put (tileParity s.env site s.pkg)
  else if site.tile = 13968 ∧ !isDram (32 * site.row) ∧ !site.correctable then
    s.put { s.pkg with badSector := s.pkg.badSector.set site.row true }
  else .next s

/-! ## Steps of a repair (R361, R362) -/

/-- The repair of a tile at which a step ends or begins, one that waits for its completion. -/
def stepRepair (p : Pkg) (ti : Nat) : Option Repair := p.repairs.find? fun r => r.tile == ti && decide (0 < r.steps)
def doneRepair (p : Pkg) (ti : Nat) (plane : Bool) : Option Repair :=
  p.repairs.find? fun r => r.tile == ti && r.steps == 0 && (r.category == 4) == plane

def putRepair (r q : Repair) (p : Pkg) : Pkg := { p with repairs := p.repairs.map fun x => if x = r then q else x }

/-- REPAIR_STEP_COMPLETE: a step ends and its resource serves accesses in full; a repair with steps left goes on with the next. -/
def execRepairStepComplete (tile : Nat) (s : State) : Out :=
  match stepRepair s.pkg tile with
  | some r =>
    if r.pending then s.put (putRepair r { r with pending := false, steps := r.steps - 1 } s.pkg)
    else s.put (putRepair r { r with pending := true } s.pkg)
  | none => .next s

/-- The count of a resource restarts (R361). -/
def recount (ti category index : Nat) (p : Pkg) : Pkg := { p with counts := p.counts.set (resourceKey ti category index) 0 }

/-- Firmware appends a completed repair to the flash log (R388). -/
def keepRepair (r : FaultRec) (p : Pkg) : Pkg := { p with flash := p.flash ++ [r] }

/-- REPAIR_COMPLETE: the count restarts, the budget falls, a record of kind 0x08 is posted. -/
def execRepairComplete (tile : Nat) (s : State) : Out :=
  match doneRepair s.pkg tile false with
  | some r =>
    let p := recount tile r.category r.index { s.pkg with repairs := s.pkg.repairs.filter (· != r) }
    let b := spareBits r.category
    let d := repairRecord s.env.dtime 8 r.category tile r.plane
    s.put (postRecord d (keepRepair d (spend tile b.1 b.2 p)))
  | none => .next s

/-- PLANE_REMAP_COMPLETE: the plane is served through its entry, and the count of the resource that had no spare restarts; where a
resolve has taken the last entry meanwhile, the plane fails. -/
def execPlaneRemapComplete (tile : Nat) (s : State) : Out :=
  match doneRepair s.pkg tile true with
  | some r =>
    let p := { s.pkg with repairs := s.pkg.repairs.filter (· != r) }
    let category := r.remap.getD 4
    if remapsLeft p tile = 0 ∨ reserveLeft p tile = 0 then s.put (failPlane tile r.plane category r.index p)
    else
      let d := repairRecord s.env.dtime 6 category tile r.plane
      s.put (postRecord d (keepRepair d (remapPlane tile r.plane (recount tile category r.index p))))
  | none => .next s

/-! ## REPAIR_RESOLVE (R363) -/

/-- The failed plane that a record names. -/
def namedPlane (p : Pkg) (v : Nat) : Option FailedPlane := p.failed.find? fun f => f.rec_ == some (v % 2 ^ 32)

/-- The accesses held at a failed plane. -/
def heldAt (f : FailedPlane) (h : Held) : Bool := h.kind == 7 && h.group == f.group

/-- A later access to the plane posts a new record (log 80). -/
def forgetRecord (f : FailedPlane) (p : Pkg) : Pkg :=
  let clear (g : FailedPlane) : FailedPlane := if g = f then { g with group := 0, rec_ := none } else g
  { p with failed := p.failed.map clear }

/-- REPAIR_RESOLVE_REMAP: action 0, which may spend reserve planes below the floor; the remap is logged as a completed repair, and posts
no record (R388) (log 80). -/
def execRepairResolveRemap (v : Nat) (s : State) : Out :=
  match namedPlane s.pkg v with
  | none => .next s
  | some f =>
    if remapsLeft s.pkg f.tile = 0 ∨ reserveLeft s.pkg f.tile = 0 then .next s
    else
      let p := releaseHeld (heldAt f) { s.pkg with failed := s.pkg.failed.filter (· != f) }
      s.put (notePlanes f.tile none (keepRepair (repairRecord s.env.dtime 6 f.category f.tile f.plane)
        (remapPlane f.tile f.plane (recount f.tile f.category f.index p))))

/-- REPAIR_RESOLVE_RELEASE: action 1. -/
def execRepairResolveRelease (v : Nat) (s : State) : Out :=
  match namedPlane s.pkg v with
  | none => .next s
  | some f => s.put (forgetRecord f (releaseHeld (heldAt f) s.pkg))

/-- REPAIR_RESOLVE_FAIL: action 2. -/
def execRepairResolveFail (v : Nat) (s : State) : Out :=
  match namedPlane s.pkg v with
  | none => .next s
  | some f => s.put (forgetRecord f (failHeld s.env (heldAt f) (fun _ => 6) s.pkg))

/-! ## Page moves (R364, R374) -/

def movePage : Nat := 0x04000070
def moveStat : Nat := 0x04000080

/-- MOVE_PAGE_HOLD_SET: while hold is 1 the page named stays. -/
def execMovePageHoldSet (v : Nat) (s : State) : Out :=
  if bits (s.pkg.regv movePage) 56 56 = 1 then .next s
  else s.put (((s.pkg.putBits movePage 55 0 v).setRegBits movePage 56 56 1).setRegBits movePage 57 57 0)

/-- MOVE_PAGE_HOLD_CLEAR: the held accesses are released and walk again. -/
def execMovePageHoldClear (v : Nat) (s : State) : Out :=
  let p := s.pkg
  if bits (p.regv movePage) 56 56 = 1 then
    let p := releaseHeld (fun h => h.kind == 0) p
    s.put (p.setRegBits movePage 57 56 0)
  else s.put (p.putBits movePage 55 0 v)

/-- MOVE_QUIET. -/
def execMoveQuiet (s : State) : Out :=
  if moveQuietNow s.pkg then s.put (s.pkg.setRegBits movePage 57 57 1) else .next s

/-- MOVE_CTL_GO: a move starts; while quiet is 0 it ends at once with status 6. -/
def execMoveCtlGo (v : Nat) (s : State) : Out :=
  let p := s.pkg.putBits 0x04000078 15 0 v
  if p.move.isSome then s.put p
  else if bits (p.regv movePage) 57 57 = 0 then s.put (p.setReg moveStat (2 + 2 ^ 8 * 6))
  else
    let r := p.regv movePage
    s.put { p.setReg moveStat 1 with move := some { asid := bits r 15 0, page := bits r 55 16 * 65536, delta := bits v 15 0 } }

/-- One plane of a page into another plane index of its tile: bytes, uncorrectable sectors and side slot (R15). -/
def movePlane (ti src dst : Nat) (p : Pkg) : Pkg :=
  let a := dramDpa ti src 0
  let b := dramDpa ti dst 0
  { p with
    mem := p.mem.setMany b (p.mem.getMany a 4096)
    side := p.side.setMany (sideAt ti dst) (p.side.getMany (sideAt ti src) 256)
    badSector := (List.range 128).foldl (fun m i => m.set (b / 32 + i) (p.badSector.get (a / 32 + i))) p.badSector }

/-- The planes of a columned page: tile, plane index now, plane index after the move. -/
def movedPlanes (p : Pkg) (l : Leaf) (page delta : Nat) : List (Nat × Int × Int) :=
  let r := shapeAt p.mem l.shapeAt
  (pageGranules r page).map fun g =>
    let w := r.place g
    (w.1, movedPlane (leafDelta l.entry) w.2, movedPlane (sextNat 16 delta) w.2)

/-- The move of a page, and its status. -/
def doMove (m : PageMove) (p : Pkg) : Pkg × Nat :=
  match walk p m.asid m.page with
  | .leaf l =>
    let qs := movedPlanes p l m.page m.delta
    if leafKind l.entry ≠ 1 ∨ qs.any (fun q => decide (q.2.2 < 0) || decide (23679 < q.2.2)) then (p, 4)
    else
      let bad := qs.any fun q => (List.range 128).any fun i => p.badSector.get (dramDpa q.1 q.2.1.toNat 0 / 32 + i)
      let q := qs.foldl (fun r q =>
        let t := movePlane q.1 q.2.1.toNat q.2.2.toNat { r with mem := p.mem, side := p.side, badSector := p.badSector }
        let a := dramDpa q.1 q.2.2.toNat 0
        { r with mem := r.mem.setMany a (t.mem.getMany a 4096)
                 side := r.side.setMany (sideAt q.1 q.2.2.toNat) (t.side.getMany (sideAt q.1 q.2.2.toNat) 256)
                 badSector := (List.range 128).foldl (fun m i => m.set (a / 32 + i) (t.badSector.get (a / 32 + i))) r.badSector }) p
      (q, if bad then 5 else 0)
  | _ => (p, 4)

/-- A plane that the move would write has failed (R363). -/
def moveBarred (m : PageMove) (p : Pkg) : Bool :=
  match walk p m.asid m.page with
  | .leaf l => (movedPlanes p l m.page m.delta).any fun q => (Eng.failedAt p (dramDpa q.1 q.2.2.toNat 0)).isSome
  | _ => false

/-- MOVE_COMPLETE: a move that R360 gives a status without a copy ends with it; another waits for a failed plane that it would write
(log 96). -/
def execMoveComplete (s : State) : Out :=
  match s.pkg.move with
  | some m =>
    let r := doMove m (noteMark s.env.dtime m.asid m.page s.pkg)
    if r.2 != 4 && moveBarred m s.pkg then .next s
    else s.put { r.1.setReg moveStat (2 + 2 ^ 8 * r.2) with move := none }
  | none => .next s

/-! ## The skim engine (R366, R367) -/

def skimStat : Nat := 0x040000B0

/-- SKIM_CTL_GO. -/
def execSkimCtlGo (v : Nat) (s : State) : Out :=
  let p := plainWrite 0x04000090 v s.pkg
  if p.skim.isSome then s.put p else s.put { p.setReg skimStat 0 with skim := some {} }

/-- The pages of the pass, its ASID, the address of its page i. -/
def skimPages (p : Pkg) : Nat := bits (p.regv 0x04000090) 23 0
def skimAsid (p : Pkg) : Nat := bits (p.regv 0x04000088) 15 0
def skimVa (p : Pkg) (i : Nat) : Nat := (bits (p.regv 0x04000088) 55 16 + i) * 65536

/-- Every 64 KiB subpage of the leaf in the range is at or before page i (log 81). -/
def lastSubpage (p : Pkg) (l : Leaf) (i : Nat) : Bool :=
  i + 1 == skimPages p || skimVa p (i + 1) / pageSize l.level != skimVa p i / pageSize l.level

/-- D cleared in a leaf in memory (log 81). -/
def clearDirty (l : Leaf) (p : Pkg) : Pkg := { p with mem := p.mem.set l.at_ (p.mem.get l.at_ &&& 0xDF) }

/-- The page is over, its outcome counted. -/
def skimNext (k : Skim) (copied errors : Nat) (p : Pkg) : Pkg :=
  { p with skim := some { next := k.next + 1, copied := k.copied + copied, errors := k.errors + errors } }

/-- Where a pass writes page i and its hash. -/
def skimDest (p : Pkg) (i : Nat) : Nat := bits (p.regv 0x040000A0) 55 16 * 65536 + 65536 * i
def skimHash (p : Pkg) (i : Nat) : Nat := bits (p.regv 0x04000098) 55 3 * 8 + 8 * i

/-- The bytes of a page's granules, and their hash (R272). -/
def skimRead (p : Pkg) (l : Leaf) (va : Nat) : List (List Byte) := (List.range 16).map fun g => p.mem.getMany (leafPlace p l (va + 4096 * g)) 4096
def pageHash (p : Pkg) (l : Leaf) (va : Nat) : Nat := (phash (p.reg.get 0x040000A8) (skimRead p l va)).toNat

/-- The first uncorrectable sector that the page's treatment reads, with its virtual address where it is one of the page: a sector of the
page, or that of its old hash where the hash is compared (log 81). -/
def skimBad (p : Pkg) (k : Skim) (l : Leaf) (va : Nat) (all : Bool) : Option (Nat × Nat) :=
  let own := (List.range 2048).map fun j => (va + 32 * j, leafPlace p l (va + 32 * j))
  (own ++ if all then [] else [(0, skimHash p k.next)]).find? fun q => p.badSector.get (q.2 / 32)

/-- The page is to be copied. -/
def skimCopies (p : Pkg) (k : Skim) (l : Leaf) (va : Nat) (all : Bool) : Bool :=
  all || pageHash p l va != natOf (p.mem.getMany (skimHash p k.next) 8)

/-- Hash and copy of a page from one read (R272, R367). Its writes are made in place: R38 names a skim of a node's own data among what is
staged, and R367 lets no pass stage. A page whose slot or hash the host link cannot reach is neither copied nor hashed (log 81). -/
def skimCopy (dtime : Nat) (k : Skim) (l : Leaf) (va : Nat) (all : Bool) (p : Pkg) : Pkg :=
  let far (a : Nat) : Bool := !isDram a && !p.hostUp
  match skimBad p k l va all with
  | some (v, a) =>
    postRecord { source := 601, time := dtime, kind := 9, code := 7, asid := skimAsid p, va := v, dpa := a, tile := tileOf (some a) }
      (skimNext k 0 1 p)
  | none =>
    if far (skimHash p k.next) || (skimCopies p k l va all && far (skimDest p k.next)) then countUp 0x07000000 47 32 (skimNext k 0 1 p)
    else if skimCopies p k l va all then
      skimNext k 1 0 (ringWrite (skimHash p k.next) (bytesOf 8 (pageHash p l va))
        (ringWrite (skimDest p k.next) ((skimRead p l va).flatMap id) p))
    else skimNext k 0 0 p

/-- The pass is held at a failed plane (R363). -/
def skimHeld (p : Pkg) : Bool := p.held.any fun h => h.cmd.isNone && h.node.isNone

/-- The pass waits at a failed plane, with its record; no engine queue is frozen (R354, R363) (log 81). -/
def holdSkim (dtime asid va : Nat) (f : FailedPlane) (k : Nat) (p : Pkg) : Pkg :=
  let q := Eng.joinPlane { time := dtime, kind := 7, flags := 1, code := f.category, asid := asid, va := va, dpa := k } f p
  { q.1 with held := q.1.held ++ [{ group := q.2, kind := 7, asid := asid, page := va / 65536 * 65536, dpa := k }] }

/-- SKIM_PAGE: the next page of the pass. A clear of D has the effect of an invalidation (R334), and so waits for the accesses
that used the removed translation; an access to a failed or repair-pending plane waits (log 81). -/
def execSkimPage (s : State) : Out :=
  let p := s.pkg
  match p.skim with
  | none => .next s
  | some k =>
    let va := skimVa p k.next
    let asid := skimAsid p
    let all := bits (p.regv 0x04000090) 26 26 = 1
    if skimPages p ≤ k.next ∨ skimHeld p then .next s
    else match walk p asid va with
    | .leaf l =>
      if leafState l.entry = 2 ∨ leafKind l.entry ≥ 2 ∨ (bits l.entry 5 5 = 0 ∧ !all ∧ !k.cleared) then s.put (skimNext k 0 0 p)
      else
        let slots := if skimCopies p k l va all then (List.range 16).map fun g => (va, skimDest p k.next + 4096 * g) else []
        let spots := (va, l.at_) :: (va, skimHash p k.next) ::
          (List.range 16).map (fun g => (va + 4096 * g, leafPlace p l (va + 4096 * g))) ++ slots
        match spots.findSome? fun b => (Eng.failedAt p b.2).map fun f => (f, b) with
        | some (f, b) => s.put (holdSkim s.env.dtime asid b.1 f b.2 p)
        | none =>
          if (spots.any fun b => Eng.pendingAt p b.2) || Eng.moveHold p asid va then .next s
          else
            let clear := lastSubpage p l k.next && !k.cleared
            let p := if clear then invalidate 2 asid va (clearDirty l p) else p
            if (clear || k.cleared) && p.allCmds.any (stillUses p 2 asid va) then
              s.put { p with skim := some { k with cleared := true } }
            else s.put (skimCopy s.env.dtime k l va all p)
    | _ => s.put (skimNext k 0 0 (noteMark s.env.dtime asid va p))

/-- SKIM_PASS_END: done, the counts, one interrupt. -/
def execSkimPassEnd (s : State) : Out :=
  let p := s.pkg
  match p.skim with
  | some k =>
    if skimPages p ≤ k.next then
      s.put (emit (.interrupt 1) { p.setReg skimStat (k.copied % 2 ^ 24 + 2 ^ 24 * (k.errors % 2 ^ 24) + 2 ^ 56) with skim := none })
    else .next s
  | none => .next s

end Sys2Proof.Machine
end

