-- ==== Sys2Proof/Machine/Links.lean ====
section
/-! DEFINITION. The host port (R378 to R382), the package edges (R383, R384) and device time between packages (R385). -/

namespace Sys2Proof.Machine

/-! ## The host's windows (R380) -/

def windowReg (p : Pkg) (fn : Nat) : Nat := p.regv (0x07000100 + 8 * fn)

/-- A byte's place for the host agent: bonded DRAM through a leaf that is not retired, not under a move hold, at no failed plane, nor is
the leaf whose D a write sets. -/
def hostByte (p : Pkg) (asid va : Nat) (wr : Bool) : Option (Nat × Leaf) :=
  match chooseWalk p asid va with
  | .leaf l =>
    let k := leafPlace p l va
    if leafState l.entry = 2 ∨ (wr ∧ bits l.entry 4 4 = 0) ∨ leafKind l.entry = 3 ∨ Eng.moveHold p asid va ∨
       (Eng.failedAt p k).isSome ∨ (wr ∧ (Eng.failedAt p l.at_).isSome) then none
    else some (k, l)
  | _ => none

/-- The ASID of a function's window, and the address at an offset. -/
def windowAsid (p : Pkg) (fn : Nat) : Nat := bits (windowReg p fn) 31 16
def windowVa (p : Pkg) (fn offset : Nat) : Nat := bits (windowReg p fn) 55 36 * 2 ^ 36 + offset

/-- A host access of n bytes through a window: the places of its bytes with their leaves, all or none of them; none where it is refused
(log 82). -/
def hostAccess (p : Pkg) (fn offset n : Nat) (wr : Bool) : Option (List (Nat × Leaf)) :=
  let r := windowReg p fn
  if bits r 0 0 = 0 ∨ (wr ∧ bits r 1 1 = 0) ∨ 2 ^ 36 < offset + n then none
  else (List.range n).mapM fun i => hostByte p (windowAsid p fn) (windowVa p fn offset + i) wr

/-- The pages of an access. -/
def hostPagesOf (p : Pkg) (fn offset n : Nat) : List (Nat × Nat) :=
  ((List.range n).map fun i => (windowAsid p fn, (windowVa p fn offset + i) / 65536)).eraseDups

/-- The walks of an access stay in the walkers' caches (R332); one that fails leaves nothing, neither record nor mark (R380) (log 82). -/
def noteHost (p : Pkg) (fn offset n : Nat) : Pkg :=
  ((hostPagesOf p fn offset n).foldl (fun q e =>
    match chooseWalk p e.1 (65536 * e.2) with
    | .poisoned _ => q
    | w => noteWalk e.1 (65536 * e.2) w q) p).drawn 1

/-- A refused access is counted in winerr. -/
def refuseHost (p : Pkg) : Pkg := countUp 0x07000000 31 16 p

/-- HOST_WINDOW_READ: one that is not refused is served sector by sector (R98, R381) (log 82). -/
def execHostWindowRead (fn offset n : Nat) (s : State) : Out :=
  let p := s.pkg
  if fn < 64 ∧ p.hostUp then
    match hostAccess p fn offset n false with
    | none => s.put (emit (.hostData none) (refuseHost p))
    | some qs =>
      let q := noteHost p fn offset n
      s.put { q with hostq := q.hostq ++ [.read (hostPagesOf p fn offset n) (qs.map fun e => (e.1, none))] }
  else .next s

/-- HOST_WINDOW_WRITE: D is set before the write; it goes to the region, never to a stage, sector by sector (R98, R381) (log 82). -/
def execHostWindowWrite (fn offset : Nat) (data : List Byte) (s : State) : Out :=
  let p := s.pkg
  let n := data.length
  if fn < 64 ∧ p.hostUp then
    match hostAccess p fn offset n true with
    | none => s.put (refuseHost p)
    | some qs =>
      let q := (qs.map (·.2)).foldl (fun q l => setDirty l q) (noteHost p fn offset n)
      s.put { q with hostq := q.hostq ++ [.write (hostPagesOf p fn offset n) ((qs.map (·.1)).zip data)] }
  else .next s

/-! ## Host accesses on their way (R381) -/

/-- The host agent as the writer of cached lines: no command of the package (log 82). -/
def hostAgent : Cmd := { id := 0, ctx := 2 ^ 20 }

/-- A sector is written by a request that is to be performed before a later one of the host's. -/
def HostReq.writesSector (s : Nat) : HostReq → Bool
  | .write _ cells => cells.any fun c => c.1 / 32 == s
  | _ => false
/-- What a doorbell store waits for: writes and doorbell stores before it. -/
def HostReq.posted : HostReq → Bool
  | .read _ _ => false
  | _ => true

/-- A sector of a host access may be made now, by choice: no write before it reaches the sector, no repair delays it (R93, R98). -/
def hostMay (kept : List HostReq) (s : Nat) (p : Pkg) : Bool :=
  !(kept.any (HostReq.writesSector s)) && !Eng.pendingAt p (32 * s) && Config.freeBool p.fresh

/-- Sectors of a host write are performed, by choice; one that meets a failed plane is dropped and counted (R380). -/
def serveWrite (kept : List HostReq) : List Nat → List Host.Cell → Pkg → Pkg × List Host.Cell
  | [], cells, p => (p, cells)
  | s :: ss, cells, p =>
    let mine := cells.filter fun c => c.1 / 32 == s
    if hostMay kept s p then
      let q := if (Eng.failedAt p (32 * s)).isSome then refuseHost p
        else writeCells mine (ageReplicas [hostAgent] (mine.map fun c => c.1 / 256).eraseDups p)
      serveWrite kept ss (cells.filter fun c => c.1 / 32 != s) (q.drawn 1)
    else serveWrite kept ss cells (p.drawn 1)

/-- Sectors of a host read are read, by choice, as the home holds them; an uncorrectable one answers as the spec does not say (log 82).
None where a plane has failed meanwhile. -/
def serveRead (kept : List HostReq) : List Nat → List (Nat × Option Byte) → Pkg → Pkg × Option (List (Nat × Option Byte))
  | [], bs, p => (p, some bs)
  | s :: ss, bs, p =>
    if hostMay kept s p then
      if (Eng.failedAt p (32 * s)).isSome then (p.drawn 1, none)
      else
        let found (i k : Nat) : Byte := if p.badSector.get s then Config.freeByte (2 ^ 82 + 2 ^ 12 * p.fresh + i) else p.mem.get k
        serveRead kept ss (bs.zipIdx.map fun q => if q.1.1 / 32 = s ∧ q.1.2 = none then (q.1.1, some (found q.2 q.1.1)) else q.1) (p.drawn 1)
    else serveRead kept ss bs (p.drawn 1)

/-- One request of the host goes on, behind those kept before it: what is left of it. -/
def serveReq (kept : List HostReq) (r : HostReq) (p : Pkg) : Pkg × Option HostReq :=
  match r with
  | .write ps cells =>
    let q := serveWrite kept ((cells.map fun c => c.1 / 32).eraseDups) cells p
    (q.1, if q.2.isEmpty then none else some (.write ps q.2))
  | .read ps bs =>
    let q := serveRead kept (((bs.filter (·.2.isNone)).map fun c => c.1 / 32).eraseDups) bs p
    match q.2 with
    | none => (emit (.hostData none) (refuseHost q.1), none)
    | some bs => match bs.mapM (·.2) with
      | some found => (emit (.hostData (some found)) q.1, none)
      | none => (q.1, some (.read ps bs))
  | .store tail q v _ =>
    if kept.any HostReq.posted then (p, some r)
    else (doorbell tail q v (dropReplicas (fun b => b == (0, 0, 0)) p), none)

/-- The host's requests go on, each behind those before it. -/
def serveAll : List HostReq → List HostReq → Pkg → Pkg
  | [], kept, p => { p with hostq := kept }
  | r :: rs, kept, p =>
    let q := serveReq kept r p
    serveAll rs (kept ++ q.2.toList) q.1
def serveHost (p : Pkg) : Pkg := serveAll p.hostq [] p

/-- The host learns of the invalidations whose translations nothing uses any more (R382) (log 83). -/
def settleAts (p : Pkg) : Pkg :=
  let uses (e : Nat × Nat) : Bool := p.allCmds.any (stillUses p 2 e.1 e.2) || hostUses p 2 e.1 e.2
  (p.atsWait.filter fun e => !uses e).foldl (fun p e => emit (.invalidated e.1 e.2) p) { p with atsWait := p.atsWait.filter uses }

/-! ## Link and completion errors (R382) -/

/-- A write to the host or to CXL memory. -/
def hostWrite : PWrite → Bool
  | .dev _ _ cells => cells.any fun c => !isDram c.1
  | .amo _ none _ k _ _ _ => !isDram k
  | _ => false

/-- Some page of the command lies in host or CXL memory (log 83). -/
def usesHost (p : Pkg) (m : Command) : Bool :=
  m.writes.any hostWrite || m.pages.any fun q => match walk p q.1 (q.2 * 65536) with
    | .leaf l => leafKind l.entry == 3
    | _ => false

/-- The command's access completes with status 0x07, and is counted (log 83). -/
def hostFault (id : Nat) (p : Pkg) : Pkg :=
  countUp 0x07000000 47 32 (p.modCmd id fun m =>
    { m with status := if m.status = 0 then 7 else m.status, writes := m.writes.filter fun w => !hostWrite w })

/-- HOST_LINK_DOWN: writes still to be made to the host are lost; a record of kind 0x0C is posted; nodes keep running. -/
def execHostLinkDown (s : State) : Out :=
  let p := s.pkg
  if p.hostUp then
    let p := p.setRegBits 0x07000000 1 1 0
    let ids := (p.allCmds.filter fun m => m.writes.any hostWrite).map (·.cmd.id)
    let p := ids.foldl (fun p id => hostFault id p) p
    s.put (postRecord { source := 602, time := s.env.dtime, kind := 0x0C } p)
  else .next s

/-- HOST_POISONED_COMPLETION: of an access of a command to host or CXL memory (log 83). -/
def execHostPoisonedCompletion (id : Nat) (s : State) : Out :=
  let p := s.pkg
  if p.present id && ((p.cmd id).phase == .started || (p.cmd id).phase == .waiting) && usesHost p (p.cmd id) then s.put (hostFault id p) else .next s

/-- HOST_PTM_REQUEST: answered in PCIe mode, whatever the host's own time is. -/
def execHostPtmRequest (_time : Nat) (s : State) : Out :=
  if s.pkg.hostUp && !s.pkg.cxl then s.put (emit (.ptm s.env.dtime) s.pkg) else .next s

/-! ## Edge ports (R377, R383) -/

def edgeStat : Nat := 0x07000010

/-- EDGE_PORT_TRAINED: an enabled port that has not failed since the last reset. -/
def execEdgePortTrained (port : Nat) (s : State) : Out :=
  if port < 4 ∧ (p s).testBit (16 + port) ∧ !s.pkg.deadPorts.contains port then s.put (s.pkg.setRegBits edgeStat port port 1)
  else .next s
where
  p (s : State) : Nat := s.pkg.regv 0x07000008

/-- Traffic to a package leaves by a port. -/
def uses (p : Pkg) (port pkg : Nat) : Bool := portTo p.number pkg == some port

/-- A write to another package whose traffic leaves by a port. -/
def crosses (p : Pkg) (port : Nat) : PWrite → Bool
  | .remote pkg _ _ => uses p port pkg
  | _ => false

/-- A command waits for traffic over a port: a remote copy's writes or stamp, a kick's notice, a pull, an arrival of a gang. -/
def needsPort (p : Pkg) (port : Nat) (m : Command) : Bool :=
  (m.away.any (uses p port)) || ((m.writes ++ m.late ++ m.stamp.toList).any (crosses p port)) ||
  (m.unit == 12 && m.op == 3 && p.notices.any fun n => n.cmd == m.cmd.id && n.sender / 512 == p.number && uses p port n.pkg) ||
  (m.unit == 12 && m.op == 4 && m.phase == .arrived &&
    p.notices.any fun n => n.id + 1 == m.detail && uses p port (n.sender / 512)) ||
  (m.phase == .arrived && p.arrivals.any fun a => a.cmd == some m.cmd.id && (episodePkgs p a.node a.group).any (uses p port))

/-- A write stays inside the package. -/
def staysHere : PWrite → Bool
  | .remote _ _ _ => false
  | _ => true

/-- The command completes with status 0x10 (R203). -/
def linkFault (id : Nat) (p : Pkg) : Pkg :=
  let m := p.cmd id
  let p := kickLeave m.cmd.ctx id { p with
    notices := p.notices.filter fun n => !(n.cmd == id && n.sender / 512 == p.number)
    arrivals := p.arrivals.filter fun a => a.cmd != some id }
  endCommand id 0x10 (p.modCmd id fun m =>
    { m with away := [], writes := m.writes.filter staysHere, late := m.late.filter staysHere, stamp := m.stamp.filter staysHere })

/-! ### Masters heard (R385) -/

/-- Masters are no longer heard: of a package that loses one, device time runs at its own rate and is out of sync (log 85). -/
def loseMasters (gone : Nat × Nat → Bool) (s : State) : State :=
  if s.pkg.masters.any gone then
    { s with env := { s.env with steer := 0 }
             pkg := { s.pkg.setRegBits 0x07000018 0 0 0 with masters := s.pkg.masters.filter fun m => !gone m } }
  else s

/-- The command to which a message belongs. -/
def messageCmd (m : LinkMessage) : Nat :=
  match m.kind with
  | 0 => field m.data (m.data.length - 8) 8
  | 8 => field m.data 0 8
  | _ => m.sequence

/-- What the source of a message hears where a failed port stops it: the command it belongs to, or the episode (log 84). -/
def tellSource (m : LinkMessage) (p : Pkg) : Pkg :=
  let tell (kind sequence : Nat) (data : List Byte) : Pkg :=
    emit (.message m.source { source := p.number, target := m.source, kind := kind, sequence := sequence, data := data }) p
  if m.kind = 0 ∨ m.kind = 1 ∨ m.kind = 8 then tell 11 (messageCmd m) []
  else if m.kind = 5 ∨ m.kind = 6 then tell 14 m.sequence (m.data.take 9)
  else p

/-- EDGE_PORT_FAIL: up clears, a record of kind 0x0A, commands that need the port complete with 0x10, the sources of messages sent on over
it hear of it, gangs that can no longer agree are refused; device time loses the master it came from (log 84). -/
def execEdgePortFail (port : Nat) (s : State) : Out :=
  let p := s.pkg
  if port < 4 ∧ (p.regv edgeStat).testBit port then
    let ids := (p.allCmds.filter (needsPort p port)).map (·.cmd.id)
    let gangs := p.liveNodes.filter fun n => n.phase == .agreeing && n.agreed.isNone && (gangOthers p n).any (uses p port)
    let p := { p.setRegBits edgeStat port port 0 with deadPorts := p.deadPorts ++ [port] }
    let p := postRecord { source := 400 + port, time := s.env.dtime, kind := 0x0A, code := 0x10 } p
    let p := ids.foldl (fun p id => linkFault id p) p
    let p := gangs.foldl (fun p n => refuseNode s.env.dtime n 7 p) p
    let lost := p.forwarded.filter fun m => uses p port m.target
    let p := lost.foldl (fun p m => tellSource m p) { p with forwarded := p.forwarded.filter fun m => !uses p port m.target }
    .next (loseMasters (fun m => m.2 == port) { s with pkg := p })
  else .next s

/-! ## Messages (R383, R384) -/

/-- Cells as a remote copy carries them: four bytes of address and one of data. -/
def cellsOf : List Byte → List Host.Cell
  | a :: b :: c :: d :: x :: rest => (natOf [a, b, c, d], x) :: cellsOf rest
  | _ => []

/-- The physical core that a message names by its logical number. -/
def namedCore (p : Pkg) (lcore : Nat) : Nat := (p.pcoreOf lcore).getD 72

/-- The answer to a message. -/
def answer (p : Pkg) (m : LinkMessage) (kind : Nat) (data : List Byte) : OutMsg :=
  .message m.source { source := p.number, target := m.source, kind := kind, sequence := m.sequence, data := data }

/-- A notice from another package is accepted into the ring or refused (R203). -/
def hearNotice (m : LinkMessage) (p : Pkg) : Pkg :=
  let core := namedCore p (field m.data 0 4)
  let bytes := (m.data.drop 4).take 32
  let h := field bytes 0 4
  let n : Notice := {
    id := p.nextNotice, sender := 512 * m.source + 4 * bits h 30 24 + bits h 17 16, pkg := p.number, core := core, bytes := bytes,
    addr := field bytes 4 4, len := field bytes 8 4, node := field m.data 36 8, cmd := m.sequence }
  if core < 72 ∧ ringRoom p core then
    let p := deliverNotice n { p with notices := p.notices ++ [n], nextNotice := p.nextNotice + 1 }
    let p := emit (answer p m 3 []) p
    if n.len = 0 then { p with notices := p.notices.filter fun e => e.id != n.id }
    else if !partsLeft p n.node core then acknowledge n.id p
    else p
  else emit (answer p m 4 []) p

/-- A kick of this package whose notice has been answered. -/
def ownNotice (p : Pkg) (cmd : Nat) : Option Notice := p.notices.find? fun n => n.cmd == cmd && n.sender / 512 == p.number
def putNotice (n : Notice) (p : Pkg) : Pkg := { p with notices := p.notices.map fun e => if e.id = n.id then n else e }

/-- The answer to a kick: accepted, refused, acknowledged (R203). -/
def hearAnswer (env : Env) (m : LinkMessage) (p : Pkg) : Pkg :=
  match ownNotice p m.sequence with
  | none => p
  | some n =>
    let x := (p.cmd n.cmd).cmd.ctx
    match m.kind with
    | 3 =>
      let p := kickLeave x n.cmd (putNotice { n with accepted := true, sent := false } p)
      if n.len = 0 then endCommand n.cmd 0 { p with notices := p.notices.filter fun e => e.id != n.id } else p
    | 4 => shiftWindow x (putNotice { n with sent := false, refusedAt := some env.clock } p)
    | _ => endCommand n.cmd 0 { p with notices := p.notices.filter fun e => e.id != n.id }

/-- An episode's partial or result from another package (R384) (log 44). -/
def hearEpisode (m : LinkMessage) (p : Pkg) : Pkg :=
  let d := m.data
  let lanes := (List.range ((d.length - 26) / 4)).map fun i => BitVec.ofNat 32 (field d (26 + 4 * i) 4)
  let a : Arrival := {
    node := field d 0 8, group := field d 8 1, number := m.sequence, part := field d 21 4, lcore := 0, pkg := m.source, empty := field d 25 1 == 1,
    coll := field d 10 1 == 1, own := field d 9 1, count := field d 13 4, op := field d 11 1, type := field d 12 1,
    root := field d 17 4, data := lanes }
  { p with arrivals := p.arrivals ++ [a] }

/-- The bytes of a remote copy are performed here, and its command's package is told; what names a row out of service goes nowhere
(R101, R384) (log 84). -/
def hearCopy (m : LinkMessage) (p : Pkg) : Pkg :=
  let n := m.data.length - 8
  let cells := cellsOf (m.data.take n)
  let core := namedCore p m.sequence
  let p := if core < 72 then engineWrite core cells ((cells.map fun c => c.1 / 4).eraseDups) p else p
  emit (.message m.source { source := p.number, target := m.source, kind := 12, sequence := field m.data n 8, data := [] }) p

/-- A write to another package has been performed there. -/
def hearCopied (m : LinkMessage) (p : Pkg) : Pkg :=
  if p.present m.sequence then p.modCmd m.sequence fun c => { c with away := c.away.erase m.source } else p

/-- A gang's share has completed in another package (R211, R384) (log 44). -/
def hearShare (m : LinkMessage) (p : Pkg) : Pkg :=
  addShare { node := field m.data 0 8, pkg := m.source, pkgs := field m.data 8 8, groups := (m.data.drop 16).map (·.toNat) } p

/-- A pull by another package from a buffer here (R111, R204): status, then the bytes; a poisoned buffer posts its record here (R351). -/
def servePull (dtime : Nat) (m : LinkMessage) (p : Pkg) : Pkg :=
  let off := field m.data 8 4
  let len := field m.data 12 4
  match ownNotice p m.sequence with
  | none => p
  | some n =>
    let from_ := coreOf (p.cmd n.cmd).cmd.ctx
    let bad := (List.range len).any fun i => (p.k from_).poison.get (Eng.spadByte (n.addr + off + i) / 64)
    let bs := if bad then [7] else (0 : Byte) :: senderBytes p (p.cmd n.cmd) (n.addr + off) len
    let p := p.drawn (0x400000 * ((p.k from_).stale.length + 300))
    let p := if bad then postRecord (engineRecord dtime 9 0 7 (p.cmd n.cmd).cmd 0 none) p else p
    emit (.message m.source { source := p.number, target := m.source, kind := 9, sequence := field m.data 0 8, data := bs }) p

/-- The data that a pull asked for arrives: it is written at D, and the token completes. -/
def hearPull (m : LinkMessage) (p : Pkg) : Pkg :=
  let id := m.sequence
  let c := p.cmd id
  if p.present id && c.unit == 12 && c.op == 4 && c.phase == .arrived then
    let status := field m.data 0 1
    let ws := if status = 0 then Eng.localWrites (coreOf c.cmd.ctx) (c.cmd.d.toNat % 2 ^ 32) (m.data.drop 1) else []
    endCommand id status (p.modCmd id fun m => { m with writes := ws })
  else p

/-- A message of a kind could not cross a failed port: the command that it belongs to completes with 0x10 (log 84). -/
def hearFailure (m : LinkMessage) (p : Pkg) : Pkg :=
  if p.present m.sequence then linkFault m.sequence p else p

/-- The traffic of an episode could not cross a failed port: its arrivals here complete with 0x10 (log 84). -/
def hearLost (m : LinkMessage) (p : Pkg) : Pkg := linkEpisode (field m.data 0 8) (field m.data 8 1) m.sequence p

/-- What a gang word is (log 71). -/
def gangWord (d : List Byte) : GangWord :=
  match field d 8 1 with | 0 => .proposal (field d 9 8) ((d.drop 17).map (·.toNat)) | 1 => .refused | _ => .failed

/-- Messages that ask for an answer, or that others wait for: their sources hear of a port that fails after they have been sent on. -/
def awaited (m : LinkMessage) : Bool := m.kind == 0 || m.kind == 1 || m.kind == 5 || m.kind == 6 || m.kind == 8

/-- A message that is to be forwarded: by dimension order, and where that port is down its source is told (log 84). -/
def forward (m : LinkMessage) (p : Pkg) : Pkg :=
  if edgeUp p m.target then
    let done (e : LinkMessage) : Bool := (m.kind == 2 || m.kind == 9 || m.kind == 12) && e.source == m.target && messageCmd e == m.sequence
    let kept := p.forwarded.filter fun e => !done e
    emit (.message m.target m) { p with forwarded := if awaited m then kept ++ [m] else kept }
  else tellSource m p

/-- Whether a message can be taken now: the core it names is on (R391) (log 84). -/
def takes (p : Pkg) (m : LinkMessage) : Bool :=
  match m.kind with
  | 0 => let c := namedCore p m.sequence; decide (72 ≤ c) || p.powerOf c == 0
  | 8 => match ownNotice p m.sequence with | some n => p.powerOf (coreOf (p.cmd n.cmd).cmd.ctx) == 0 | none => true
  | _ => true

/-- The link may have replayed before a message came through: EDGE_STAT counts it, and nothing else shows it (R377, R382) (log 84). -/
def replayed (p : Pkg) : Pkg := (if Config.freeBool p.fresh then countUp edgeStat 31 16 p else p).drawn 1

/-- ULALM_MESSAGE_RECEIVE (log 84). -/
def execUlalmMessageReceive (port : Nat) (m : LinkMessage) (s : State) : Out :=
  let p := replayed s.pkg
  if !(s.pkg.regv edgeStat).testBit port || !takes s.pkg m then .next s
  else if m.target ≠ p.number then s.put (forward m p)
  else match m.kind with
  | 0 => s.put (hearCopy m p)
  | 1 => s.put (hearNotice m p)
  | 5 => s.put (hearEpisode m p)
  | 6 => s.put (hearEpisode m p)
  | 8 => s.put (servePull s.env.dtime m p)
  | 9 => s.put (hearPull m p)
  | 10 => s.put (p.push [.run (.gangProposalReceive (field m.data 0 8) m.source (gangWord m.data))])
  | 11 => s.put (hearFailure m p)
  | 14 => s.put (hearLost m p)
  | 12 => s.put (hearCopied m p)
  | 13 => s.put (hearShare m p)
  | _ => s.put (hearAnswer s.env m p)

/-! ## Device time across the panel (R385) -/

/-- The offset of a master's time, saturating at the width of TIME_STAT.err (log 85). -/
def timeOffset (own master : Nat) : Nat := min (max own master - min own master) 65535

/-- A port is enabled (R377). -/
def portEnabled (p : Pkg) (port : Nat) : Bool := (p.regv 0x07000008).testBit (16 + port)

/-- TIME_SYNC_MESSAGE: the time of a master, heard over an enabled port. A package that hears one and is none takes its value once, without
stepping back, and then steers towards it, at most 200 ppm either way; one that hears two, or is one itself, keeps its own time and is out
of sync. Within 20 ns of the master two packages differ by at most 40 (log 85). -/
def execTimeSyncMessage (port : Nat) (word : TimeWord) (s : State) : Out :=
  let p := s.pkg
  let time := word.time
  if (p.regv edgeStat).testBit port && portEnabled p port then
    let p := { p with masters := (p.masters ++ [(word.source, port)]).eraseDups }
    let alone := ((p.masters.map (·.1)).eraseDups).length == 1 && bits (p.regv 0x07000008) 12 12 == 0
    let now := if alone && !p.timed then max s.env.dtime time else s.env.dtime
    let d := timeOffset now time
    let p := p.setRegBits 0x07000018 31 16 d
    if alone then
      let rate : Int := if time < now then -200 else if now < time then 200 else 0
      .next { env := { s.env with dtime := now, steer := rate }
              pkg := { p with timed := true }.setRegBits 0x07000018 0 0 (b2n (decide (d ≤ 20))) }
    else .next { env := { s.env with steer := 0 }, pkg := p.setRegBits 0x07000018 0 0 0 }
  else .next s

end Sys2Proof.Machine
end

