-- ==== Sys2Proof/Machine/Platform.lean ====
section
/-! DEFINITION. Bring-up and reset (R387, R388, R395), cluster power (R389 to R391), clock and temperature (R392 to R394), failed
scratchpad banks (R82, R353). -/

namespace Sys2Proof.Machine

/-! ## Bring-up (R387) -/

/-- The steps that are complete where bring-up stops with an error code, 6 without one (R387, R389): fuses are read in step 2, the
signature and the version are checked in step 3, links and DRAM are trained in step 4 (log 87). -/
def stepsDone (error : Nat) : Nat :=
  match error with | 0 => 6 | 1 => 1 | 2 => 2 | 3 => 2 | _ => 3

/-- The harvest map of a die as the fuses give it (R26, R338). -/
def harvestMap (die : Nat) : Nat := digits 1 ((List.range 36).map fun r => b2n (Config.harvested (36 * die + r)))

/-- The records of the flash log that are reapplied to the remap tables and budgets of their tiles (R388). -/
def reapply (p : Pkg) (r : FaultRec) : Pkg :=
  if r.kind = 6 then remapPlane r.tile r.detail p
  else let b := spareBits r.code; spend r.tile b.1 b.2 p

/-- SPARE_BUDGET from the fuses, each field within its table's range (R360). -/
def spareBudget (w : Nat) : Nat :=
  bits w 11 0 + 2 ^ 12 * min (bits w 15 12) 8 + 2 ^ 16 * bits w 19 16 + 2 ^ 20 * min (bits w 29 20) 512 + 2 ^ 30 * min (bits w 34 30) 16

/-- Registers after bring-up's steps: reset values, straps and fuses; unlisted ones are 0. -/
def bootRegs (done error : Nat) : NMap Word :=
  let b (c : Bool) (n : Nat) : Nat := if c then n else 0
  let put (a v : Nat) : Nat × Word := (a, BitVec.ofNat 64 v)
  let low := [put 0x8 (2 ^ done - 1 + 2 ^ 8 * error), put 0x18 2800]
  let cores := (List.range 72).flatMap fun n => [put (0x01000008 + 0x1000 * n) 0x100, put (0x01000018 + 0x1000 * n) 0x100]
  let sched := [put 0x03000000 (b (2 ≤ done) (harvestMap 0)), put 0x03000008 (b (2 ≤ done) (harvestMap 1))] ++
    (List.range 9).map fun k => put (0x03000040 + 8 * k) (2 ^ 64 - 1)
  let faults := [put 0x04000050 0x4000, put 0x04000058 0x40408, put 0x04000060 4]
  let tiles := (List.range 4608).map fun t => put (tileReg t 0) (b (2 ≤ done) (spareBudget (Config.fuseReg (tileReg t 0)).toNat))
  let mode := (Config.fuseReg 0x07000000).toNat % 2
  let lanes := 1 + (Config.fuseReg 0x07000001).toNat % 16
  let links := [put 0x07000000 (mode + 2 + 2 ^ 8 * lanes)]
  (low ++ cores ++ sched ++ faults ++ tiles ++ links).filter fun e => e.2 != 0

/-- The memory of the host and of CXL devices, which no reset of the package reaches; a byte that a dirty line of the memory-side cache
held may be lost with it (R91, R388) (log 87). -/
def outerMemory (p : Pkg) : Memory :=
  ((p.lines.flatMap fun l => l.2.dirty).filter fun k => !isDram k).foldl
    (fun m k => if Config.freeBool (p.fresh + 2 * k) then m else m.set k (Config.freeByte (p.fresh + 2 * k + 1)))
    (p.mem.filter fun c => !isDram c.1)

/-- The package after bring-up has run to a step: every plane, side slot and local storage is zero, every cluster on. Nothing of it but
the flash log survives. -/
def broughtUp (error : Nat) (before : Pkg) : Pkg :=
  let p : Pkg := { reg := bootRegs (stepsDone error) error, inReset := false, flash := before.flash, mem := outerMemory before,
                   fresh := before.fresh }
  if 2 ≤ stepsDone error then before.flash.foldl reapply p else p

/-- The package held in reset, before bring-up: nothing of it but the flash log survives (R388). -/
def heldInReset (before : Pkg) : Pkg :=
  { State.reset.pkg with flash := before.flash, mem := outerMemory before, fresh := before.fresh }

/-- Firmware runs: step 6 is complete. -/
def booted (p : Pkg) : Bool := bits (p.regv 0x8) 5 5 = 1

/-- The state after bring-up: device time starts at 0 (R385) (log 87). -/
def bringUp (error : Nat) (s : State) : State :=
  { env := { s.env with dtime := 0, steer := 0 }, pkg := broughtUp error s.pkg }

/-- RESET_N_RELEASE: bring-up runs, to its end or to the step that stops it with an error code from 1 to 5 (log 87). -/
def execResetNRelease (failStep : Nat) (s : State) : Out :=
  if s.pkg.inReset ∧ failStep ≤ 5 then .next (bringUp failStep s) else .next s

/-- RESET_N_ASSERT: the package is in reset, and has lost everything but the flash log. -/
def execResetNAssert (s : State) : Out := s.put (heldInReset s.pkg)

/-- PKG_RESET_WRITE: the key resets the package and starts bring-up, which may stop with an error code, by choice (log 87). -/
def execPkgResetWrite (v : Nat) (s : State) : Out :=
  if v % 65536 = 0xA5C3 then .next (bringUp (Config.freeNat s.pkg.fresh % 6) { s with pkg := s.pkg.drawn 1 }) else .next s

/-! ## SPAD_FAIL (R82) -/

/-- SPAD_FAIL_WRITE: reads of the core reconstruct the bank; no value changes. -/
def execSpadFailWrite (core v : Nat) (s : State) : Out :=
  if core < 72 then s.put (s.pkg.putBits (0x04000100 + 8 * core) 5 0 v) else .next s

/-! ## Cluster power (R389 to R391) -/

def cluPwr (k : Nat) : Nat := 0x100 + 8 * k
/-- The physical cores of a package cluster. -/
def clusterCores (k : Nat) : List Nat := (List.range 72).filter fun n => clusterOf n == k

/-- A tile of the cluster's rows. -/
def inCluster (k ti : Nat) : Bool := clusterOf (36 * (ti / 2304) + ti % 2304 / 64) == k

/-- A running macro takes its operand from a core of the cluster (R225). -/
def feedsFrom (p : Pkg) (k : Nat) (m : Command) : Bool :=
  m.unit == 13 && (m.op == 1 || m.op == 2 || m.op == 3) && (m.phase == .started || m.phase == .waiting) &&
  (macroOf m.cmd.local0).feeders.any fun f => (p.pcoreOf f.core).any fun n => clusterOf n == k

/-- The conditions of R391 for lowering to a state. -/
def quiescent (p : Pkg) (k to_ : Nat) : Bool :=
  let cores := (clusterCores k).filter p.inService
  cores.all (fun n => (List.range 4).all fun i =>
    let ph := (p.c (4 * n + i)).phase
    ph == .unbound || (ph == .frozen && to_ == 1)) &&
  cores.all (fun n => (p.k n).queue.isEmpty) &&
  !(p.allCmds.any fun m => m.phase != .parked && cores.contains (coreOf m.cmd.ctx)) &&
  !(p.tiles.any fun t => t.2.owner.isSome && inCluster k t.1) &&
  !(p.allCmds.any (feedsFrom p k))

/-- CLU_PWR_LOWER: accepted when the cluster is quiescent; from then on its state is the lower one (log 17). -/
def execCluPwrLower (cluster v : Nat) (s : State) : Out :=
  let p := s.pkg
  let a := cluPwr cluster
  let r := v % 4
  if 18 ≤ cluster ∨ r = 3 ∨ bits (p.regv a) 16 16 = 1 ∨ r ≤ bits (p.regv a) 1 0 then .next s
  else if quiescent p cluster r then
    s.put ((((p.setRegBits a 1 0 r).setRegBits a 9 8 r).setRegBits a 16 16 1).setRegBits a 17 17 0)
  else s.put (p.setRegBits a 17 17 1)

/-- CLU_PWR_RAISE: always accepted; a transition runs where the state is lower. -/
def execCluPwrRaise (cluster v : Nat) (s : State) : Out :=
  let p := s.pkg
  let a := cluPwr cluster
  let r := v % 4
  if 18 ≤ cluster ∨ r = 3 ∨ bits (p.regv a) 16 16 = 1 ∨ bits (p.regv a) 1 0 < r then .next s
  else
    let p := (p.setRegBits a 1 0 r).setRegBits a 17 17 0
    s.put (if bits (p.regv a) 9 8 = r then p else p.setRegBits a 16 16 1)

/-- Leaving retention, the weight latches are empty. -/
def leaveRetention (k : Nat) (p : Pkg) : Pkg :=
  { p with tiles := p.tiles.filter fun t => !inCluster k t.1 }

/-- Leaving off, the rows are as after bring-up: contexts, cores, latches, trowel state and core registers. -/
def leaveOff (k : Nat) (p : Pkg) : Pkg :=
  let p := leaveRetention k p
  let p := { p with
    ctx := p.ctx.filter fun c => clusterOf (coreOf c.1) != k
    core := (p.core.map fun c => if clusterOf c.1 = k then (c.1, { ({} : Core) with queue := c.2.queue, backlog := c.2.backlog }) else c).filter fun c => c.2 != {}
    chans := p.chans.filter fun c => clusterOf c.1 != k }
  (clusterCores k).foldl (fun p n => ((p.setReg (coreReg n 0x008) 0x100).setReg (coreReg n 0x010) 0).setReg (coreReg n 0x018) 0x100) p

/-- CLU_PWR_TRANSITION_END: busy clears; where the state rises, what the old state did not keep is lost. -/
def execCluPwrTransitionEnd (cluster : Nat) (s : State) : Out :=
  let p := s.pkg
  let a := cluPwr cluster
  if 18 ≤ cluster ∨ bits (p.regv a) 16 16 = 0 then .next s
  else
    let old := bits (p.regv a) 9 8
    let new := bits (p.regv a) 1 0
    let p := if new < old then (if old = 2 then leaveOff cluster p else leaveRetention cluster p) else p
    s.put ((p.setRegBits a 9 8 new).setRegBits a 16 16 0)

/-! ## Clock and temperature (R392 to R394) -/

/-- POWER_CAP_EXCEED: a step down, not below the floor. -/
def execPowerCapExceed (reading : Nat) (s : State) : Out :=
  if bits (s.pkg.regv 0x18) 15 0 < reading then
    s.put ({ s.pkg with slow := min 12 (s.pkg.slow + 1) }.setRegBits 0x20 40 40 1)
  else .next s

/-- POWER_HEADROOM: a step up; at the top capped reads 0. -/
def execPowerHeadroom (reading : Nat) (s : State) : Out :=
  if reading < bits (s.pkg.regv 0x18) 15 0 ∧ 0 < s.pkg.slow then
    s.put ({ s.pkg with slow := s.pkg.slow - 1 }.setRegBits 0x20 40 40 (b2n (decide (1 < s.pkg.slow))))
  else .next s

/-- TEMP_HOT: the clock goes to its floor. -/
def execTempHot (reading : Nat) (s : State) : Out :=
  if 105 ≤ reading then s.put (s.pkg.setRegBits 0x20 41 41 1) else .next s

/-- TEMP_COOL. -/
def execTempCool (reading : Nat) (s : State) : Out :=
  if reading < 100 then s.put (s.pkg.setRegBits 0x20 41 41 0) else .next s

/-- THERM_TRIP: THERM_TRIP_N is low and the module removes power; the next power-up is a cold reset (log 90). -/
def execThermTrip (reading : Nat) (s : State) : Out :=
  if 120 ≤ reading then s.put { heldInReset s.pkg with tripped := true } else .next s

/-- The pins THERM_TRIP_N and PWR_ALERT_N, which is low while PWR_STAT reads capped or hot (R394, R395). -/
def thermTripN (p : Pkg) : Bool := !p.tripped
def pwrAlertN (p : Pkg) : Bool := bits (p.regv 0x20) 41 40 == 0

end Sys2Proof.Machine
end

