-- ==== Sys2Proof/Machine/Scalar.lean ====
section
/-! DEFINITION. The integer units sa0, sa1 (R143) and sm (R144, R132). A is o1, D is o2, C is o3, B the trigger value. -/

namespace Sys2Proof.Machine

/-! ## Values -/

/-- Leading zero bits of a number of `w` bits. -/
def clzNat (w x : Nat) : Nat := if x = 0 then w else w - 1 - Nat.log2 x

/-- One bits among the low `w`. -/
def popcNat (w x : Nat) : Nat := (List.range w).foldl (fun a i => a + x / 2 ^ i % 2) 0

/-- Trailing zero bits of a number of 64 bits. -/
def ctzNat (x : Nat) : Nat := (List.range 64).foldr (fun i a => if x / 2 ^ i % 2 = 1 then i else a) 64

/-- The low `w` bits of B, w read from A[6:0]; 0 and values above 64 stand for 64 (R143). -/
def extWidth (a : Word) : Nat :=
  let w := a.toNat % 128
  if w = 0 ∨ 64 < w then 64 else w

/-- The low w bits sign-extended. -/
def sextWord (w : Nat) (x : Nat) : Word := BitVec.ofInt 64 (sextNat w x)

/-- The field descriptor of bfx and bfi: lowest bit, width cut at bit 63, sign (R143). -/
def fieldOf (b : Word) : Nat × Nat × Bool :=
  let lo := b.toNat % 64
  let w := b.toNat / 64 % 64 + 1
  (lo, if 64 < lo + w then 64 - lo else w, b.getLsbD 12)

def bfx (a b : Word) : Word :=
  let (lo, w, sgn) := fieldOf b
  let x := a.toNat / 2 ^ lo % 2 ^ w
  if sgn then sextWord w x else BitVec.ofNat 64 x

def bfi (a b d : Word) : Word :=
  let (lo, w, _) := fieldOf b
  let x := d.toNat % 2 ^ w
  BitVec.ofNat 64 (a.toNat - (a.toNat / 2 ^ lo % 2 ^ w) * 2 ^ lo + x * 2 ^ lo)

def cond (t : Bool) : Word := if t then 1 else 0

/-! ## sa -/

/-- A trigger of sa0 or sa1: its result lands in the unit's r port at n + 1. -/
def saTrigger (op : Nat) (value : Word → Word → Word → Word → Word) (s : State) : Out :=
  let f := s.pkg.fire
  s.put (deliver f.ctx (b2n f.alt) op 1 (some (.s (value f.a.toS f.b.toS f.c.toS f.d.toS))) none 0 s.pkg)

def execSaAdd (s : State) : Out := saTrigger 0 (fun a b _ _ => a + b) s
def execSaSub (s : State) : Out := saTrigger 1 (fun a b _ _ => a - b) s
def execSaAnd (s : State) : Out := saTrigger 2 (fun a b _ _ => a &&& b) s
def execSaOr (s : State) : Out := saTrigger 3 (fun a b _ _ => a ||| b) s
def execSaXor (s : State) : Out := saTrigger 4 (fun a b _ _ => a ^^^ b) s
def execSaAndn (s : State) : Out := saTrigger 5 (fun a b _ _ => a &&& ~~~b) s
def execSaShl (s : State) : Out := saTrigger 6 (fun a b _ _ => a <<< (b.toNat % 64)) s
def execSaShr (s : State) : Out := saTrigger 7 (fun a b _ _ => a >>> (b.toNat % 64)) s
def execSaSra (s : State) : Out := saTrigger 8 (fun a b _ _ => a.sshiftRight (b.toNat % 64)) s
def execSaRol (s : State) : Out := saTrigger 9 (fun a b _ _ => a.rotateLeft (b.toNat % 64)) s
def execSaMinI (s : State) : Out := saTrigger 10 (fun a b _ _ => if b.slt a then b else a) s
def execSaMaxI (s : State) : Out := saTrigger 11 (fun a b _ _ => if a.slt b then b else a) s
def execSaMinN (s : State) : Out := saTrigger 12 (fun a b _ _ => if b.ult a then b else a) s
def execSaMaxN (s : State) : Out := saTrigger 13 (fun a b _ _ => if a.ult b then b else a) s
def execSaEq (s : State) : Out := saTrigger 14 (fun a b _ _ => cond (a == b)) s
def execSaNe (s : State) : Out := saTrigger 15 (fun a b _ _ => cond (a != b)) s
def execSaLtI (s : State) : Out := saTrigger 16 (fun a b _ _ => cond (a.slt b)) s
def execSaLtN (s : State) : Out := saTrigger 17 (fun a b _ _ => cond (a.ult b)) s
def execSaLeI (s : State) : Out := saTrigger 18 (fun a b _ _ => cond (a.sle b)) s
def execSaLeN (s : State) : Out := saTrigger 19 (fun a b _ _ => cond (a.ule b)) s
def execSaSel (s : State) : Out := saTrigger 20 (fun a b c _ => if c != 0 then a else b) s
def execSaPass (s : State) : Out := saTrigger 21 (fun _ b _ _ => b) s
def execSaSxt (s : State) : Out := saTrigger 22 (fun a b _ _ => sextWord (extWidth a) b.toNat) s
def execSaZxt (s : State) : Out := saTrigger 23 (fun a b _ _ => BitVec.ofNat 64 (b.toNat % 2 ^ extWidth a)) s
def execSaClz (s : State) : Out := saTrigger 24 (fun _ b _ _ => BitVec.ofNat 64 (clzNat 64 b.toNat)) s
def execSaCtz (s : State) : Out := saTrigger 25 (fun _ b _ _ => BitVec.ofNat 64 (ctzNat b.toNat)) s
def execSaPopc (s : State) : Out := saTrigger 26 (fun _ b _ _ => BitVec.ofNat 64 (popcNat 64 b.toNat)) s
def execSaBrev (s : State) : Out := saTrigger 27 (fun _ b _ _ => b.reverse) s
def execSaAddsh (s : State) : Out := saTrigger 28 (fun a b c _ => a + (b <<< (c.toNat % 64))) s
def execSaBfx (s : State) : Out := saTrigger 29 (fun a b _ _ => bfx a b) s
def execSaBfi (s : State) : Out := saTrigger 30 (fun a b _ d => bfi a b d) s

/-! ## sm -/

/-- A trigger of sm: r and h land after `l` issue cycles. -/
def smTrigger (op l : Nat) (value : Word → Word → Word → Word × Word) (s : State) : Out :=
  let f := s.pkg.fire
  let q := value f.a.toS f.b.toS f.c.toS
  s.put (deliver f.ctx 2 op l (some (.s q.1)) (some (q.2.setWidth 4096)) 0 s.pkg)

/-- The 128-bit product as its low and high words. -/
def wide (x : Int) : Word × Word := (BitVec.ofInt 64 x, BitVec.ofInt 64 (x >>> 64))

/-- Quotient and remainder of signed numbers (R144). -/
def divSigned (a b : Word) : Word × Word :=
  if b = 0 then (BitVec.allOnes 64, a)
  else if a = 0x8000000000000000 ∧ b = BitVec.allOnes 64 then (a, 0)
  else (BitVec.ofInt 64 (a.toInt.tdiv b.toInt), BitVec.ofInt 64 (a.toInt.tmod b.toInt))

/-- Quotient and remainder of unsigned numbers (R144). -/
def divUnsigned (a b : Word) : Word × Word :=
  if b = 0 then (BitVec.allOnes 64, a) else (BitVec.ofNat 64 (a.toNat / b.toNat), BitVec.ofNat 64 (a.toNat % b.toNat))

/-- A division takes 18 issue cycles (R144). -/
def divTrigger (op : Nat) (value : Word → Word → Word) (s : State) : Out :=
  let f := s.pkg.fire
  s.put (deliver f.ctx 2 op 18 (some (.s (value f.a.toS f.b.toS))) (some 0) 0 s.pkg)

def execSmMul (s : State) : Out := smTrigger 0 3 (fun a b _ => (a * b, 0)) s
def execSmMulhI (s : State) : Out := smTrigger 1 3 (fun a b _ => ((wide (a.toInt * b.toInt)).2, 0)) s
def execSmMulhN (s : State) : Out := smTrigger 2 3 (fun a b _ => ((wide (a.toNat * b.toNat : Nat)).2, 0)) s
def execSmMad (s : State) : Out := smTrigger 3 3 (fun a b c => (a * b + c, 0)) s
def execSmMulwI (s : State) : Out := smTrigger 4 3 (fun a b _ => wide (a.toInt * b.toInt)) s
def execSmMulwN (s : State) : Out := smTrigger 5 3 (fun a b _ => wide (a.toNat * b.toNat : Nat)) s
def execSmDivI (s : State) : Out := divTrigger 6 (fun a b => (divSigned a b).1) s
def execSmDivN (s : State) : Out := divTrigger 7 (fun a b => (divUnsigned a b).1) s
def execSmRemI (s : State) : Out := divTrigger 8 (fun a b => (divSigned a b).2) s
def execSmRemN (s : State) : Out := divTrigger 9 (fun a b => (divUnsigned a b).2) s

end Sys2Proof.Machine
end

