-- ==== Sys2Proof/Machine/Select.lean ====
section
/-! DEFINITION. The macro over a selection list (R234, R256). -/

namespace Sys2Proof.Machine

open Eng

/-- A list entry whose planes have been read: its member row, whether its tile is in the last column, its tile, its planes as weight
blocks, its mask, whether it is the first and the last entry of its member row. -/
structure Picked where
  idx    : Nat
  nt     : Nat
  kt     : Nat
  tile   : Nat
  blocks : List Latch
  mask   : Nat
  first  : Bool
  final  : Bool
  deriving DecidableEq, Repr, Inhabited

/-- The member row and tile column of a tile of the rectangle. -/
def Rect.find (rc : Rect) (ti : Nat) : Option (Nat × Nat) :=
  ((List.range rc.nt).flatMap fun nt => (List.range rc.kt).map fun kt => (nt, kt)).find? fun q => rc.tile q.2 q.1 == ti

/-- The tile of a list entry. -/
def entryTile (e : List Byte) : Nat := field e 4 3 / 1480

/-- The tokens of a list entry that are used: those of its mask below the list's vlen (R244). -/
def entryMask (hdr e : List Byte) : Nat := field e 8 8 % 2 ^ min 64 (field hdr 16 8 - 64 * field e 0 3)

/-- A header without a set bit that R253 has 0, and the same of an entry (R6) (log 51). -/
def headerClean (hdr : List Byte) : Bool := field hdr 10 1 < 16 && field hdr 11 5 == 0
def entryClean (e : List Byte) : Bool := field e 3 1 < 2 && field e 7 1 == 0

/-- Some entry lies in a member row. -/
def rowMeets (rc : Rect) (nt : Nat) (es : List (List Byte)) : Bool := es.any fun e => (rc.find (entryTile e)).any fun q => q.1 == nt

/-- Some of tokens 32h to 32h + 31 are selected. -/
def halfSelected (mask h : Nat) : Bool := mask / 2 ^ (32 * h) % 2 ^ 32 != 0
/-- The sectors of a plane that hold elements of the selected tokens: of a key plane the row of each channel, of a value plane the first
sector of each dimension's two (R234, R238). -/
def dataSectors (x : Bool) (dim mask : Nat) : List Nat :=
  if mask = 0 then [] else if x then (List.range 64).map (2 * ·) else List.range (min 128 dim)
/-- Those of its side slot that hold their scales (R238). -/
def scaleSectors (x : Bool) (dim mask : Nat) : List Nat :=
  let halves := (List.range 2).filter (halfSelected mask)
  if x then halves.flatMap fun h => [2 * h, 2 * h + 1] else (List.range (min 4 (dim / 32))).flatMap fun b => halves.map fun h => 2 * b + h
/-- `n` sectors, those that have been read with their bytes. -/
def gatherSectors (n : Nat) (read : List (Nat × Answer)) : List Byte :=
  (List.range n).flatMap fun j => match read.find? fun q => q.1 == j with | some q => q.2.data | none => List.replicate 32 0

/-- The checks of entry i of a list, made before its planes load, and its planes (R256) (log 51). -/
def pickEntry (c : Cmd) (rc : Rect) (r : MacroRec) (hdr : List Byte) (es : List (List Byte)) (i : Nat) : Eng Picked := do
  let e := es.getD i []
  let pp := field e 4 3
  let blk := field e 0 3
  need (entryClean e) 1
  match rc.find (entryTile e) with
  | none => fail 0x21
  | some q =>
    let d ← readDesc (field hdr 24 8)
    let h := field hdr 8 1
    let geo : Desc := { d with dcode := field hdr 9 1 }
    discard (access do
      match ← iptFind c.asid (d.resolve blk).1 blk (h / geo.hp) with
      | none => fail 0x2D
      | some x =>
        need (x.pp == pp) 0x2D
        need (!x.demoted) 0x2E
        return [])
    let sup ← supplierOf d blk
    let p0 := geo.plane0 h + (if r.x then geo.pk else 0)
    let np := if r.x then 2 ^ geo.dcode else geo.pk
    let mask := entryMask hdr e
    let data := dataSectors r.x geo.dim mask
    let scales := scaleSectors r.x geo.dim mask
    let ws ← (List.range np).mapM fun k => anyOrder (data.map fun j => kvSector sup pp (p0 + k) (32 * j) 32 false)
    let sd ← (List.range np).mapM fun k => anyOrder (scales.map fun j => kvSector sup pp (p0 + k) (32 * j) 32 true)
    settle
    let blocks := (ws.zip sd).map fun q => ({ valid := true, fmt := 10, asid := c.asid, weights := gatherSectors 128 (data.zip q.1)
                                              side := gatherSectors 8 (scales.zip q.2) } : Latch)
    return { idx := i, nt := q.1, kt := q.2, tile := entryTile e, blocks := blocks, mask := mask,
             first := !rowMeets rc q.1 (es.take i), final := !rowMeets rc q.1 (es.drop (i + 1)) }

/-- Elements that the record's ke leaves active in a tile column (R223) (log 47). -/
def withinKe (r : MacroRec) (last : Bool) (n : Nat) : Bool := !last || r.ke == 0 || decide (n < r.ke)

/-- The writes of one word in their order: values, the first in the mode given, the others added. -/
def wordWrites (core : Nat) (add : Bool) (a : Nat) (xs : List Lane) : List PWrite :=
  (List.range xs.length).zip xs |>.map fun q => .acc core (accMode (add || q.1 != 0) false) [(a, q.2)] []

/-- The writes of vector m for X = 0, word by word: scores of the entry, with its masked tokens (log 47). -/
def keyWrites (p : Pkg) (rc : Rect) (r : MacroRec) (fa dim : Nat) (k : Picked) (m : Nat) (slices : List (List Byte)) : List (List PWrite) :=
  let line := r.lb + k.idx * r.m + m
  let core := rc.accCore k.nt
  (activeCols r k.nt).map fun j =>
    let xs := (List.range k.blocks.length).map fun c =>
      let on (n : Nat) : Bool := decide (n < min 128 dim) && withinKe r (k.kt + 1 == r.kt) n
      chainPart false [tileStep p k.tile (k.blocks.getD c {}) fa false false on (slices.getD c []) j]
    if k.mask.testBit j then wordWrites core r.add (64 * line + j) xs
    else if r.add then [] else wordWrites core false (64 * line + j) [0xFF800000]

/-- The writes of vector m for X = 1: the entry's part of its member row's sums (log 47). -/
def valueWrites (p : Pkg) (rc : Rect) (r : MacroRec) (fa : Nat) (k : Picked) (m : Nat) (slices : List (List Byte)) : List (List PWrite) :=
  (List.range k.blocks.length).flatMap fun c => (activeCols r k.nt).map fun j =>
    let on (n : Nat) : Bool := decide (n < 64) && k.mask.testBit n && withinKe r (k.kt + 1 == r.kt) n
    wordWrites (rc.accCore k.nt) (r.add || !k.first) (64 * (r.lb + c * r.m + m) + j)
      [chainPart false [tileStep p k.tile (k.blocks.getD c {}) fa false true on (slices.getD 0 []) j]]

/-- The lines of vector m whose last writes under the list are the entry's (R256). -/
def linesEnded (r : MacroRec) (k : Picked) (m : Nat) : List Nat :=
  if !r.tag then []
  else if !r.x then [r.lb + k.idx * r.m + m]
  else if k.final then (List.range k.blocks.length).map fun c => r.lb + c * r.m + m else []

/-- Vector m of an entry: its slices, the writes of each of its words, then the full bits. -/
def entryVector (c : Cmd) (rc : Rect) (r : MacroRec) (fa dim : Nat) (k : Picked) (m : Nat) : Eng Unit := do
  let pk := k.blocks.length
  let slices ← readSlices c r (slicePitch fa 128)
    (if r.x then [(k.idx * r.m + m, k.kt)] else (List.range pk).map fun i => (m * pk + i, k.kt))
  let p ← pkg
  let ws := if r.x then valueWrites p rc r fa k m slices else keyWrites p rc r fa dim k m slices
  discard (anyOrder (ws.map fun w => do
    for x in w do discard (emitWrite x)
    return []))
  settle
  discard (access do
    match linesEnded r k m with
    | [] => return admitted
    | ls =>
      discard (emitWrite (.acc (rc.accCore k.nt) 0 [] ls))
      return admitted)

/-- Entries from i on in list order, the first of them from vector v on, up to one that fails, which ends the command with its status;
what earlier entries have written stands (R232, R256). -/
def entriesFrom (c : Cmd) (rc : Rect) (r : MacroRec) (fa dim : Nat) (hdr : List Byte) (es : List (List Byte)) : List Nat → Nat → Eng Unit
  | [], _ => pure ()
  | i :: is, v => do
    match ← attempt (do
      let k ← pickEntry c rc r hdr es i
      each (((List.range r.m).drop v).map (entryVector c rc r fa dim k))) with
    | .error n => endWith n
    | .ok _ => entriesFrom c rc r fa dim hdr es is 0

/-- What a suspended list macro does when it resumes: it keeps the header it read at its issue, and reads the entries that are left as
they stand now (R234). -/
def resumeList (c : Cmd) (i n : Nat) : Eng Unit := do
  if (← self).saved.isEmpty then return ()
  let es ← localRead (c.d.toNat + 32 + 16 * i) (16 * (n - i))
  modSelf fun m => { m with saved := [], cmd := { m.cmd with local0 := m.cmd.local0.take (64 + 16 * i) ++ es } }
  modify fun w => { w with replay := [], got := [] }

/-- ECX_MXSEL (R234, R256) (log 51). -/
def ecxMxselWork (c : Cmd) : Eng Unit := do
  need (linear c.a.toNat 32 32 && linear c.d.toNat 32 32) 2
  let r ← macroRecord c
  let hdr := (c.local0.drop 32).take 32
  let n := field hdr 0 4
  if r.m = 0 ∨ r.kt = 0 ∨ r.nt = 0 ∨ n = 0 then return ()
  need (headerClean hdr) 1
  need (decide (c.d.toNat + 32 + 16 * n ≤ spadSize)) 2
  let rc ← rectOf c (c.b.toNat % 256) false
  need (r.kt == rc.kt && r.nt == rc.nt && !r.join) 0x21
  let fa := c.hdr.fa.toNat
  need (decide (1 ≤ fa ∧ fa ≤ 11) && c.hdr.fb.toNat == 10) 0x20
  let dc := field hdr 9 1
  let pk := if dc = 2 then 2 else 1
  need (decide (r.ke < 128) && decide (dc ≤ 2) && decide (r.lb + (if r.x then 2 ^ dc else n) * r.m ≤ 8192)) 1
  let pitch := slicePitch fa 128
  checkFeeders c rc r pitch (if r.x then n * r.m else r.m * pk)
  takeTiles c.id rc.tiles
  let at_ := (← self).progress
  resumeList c (at_ / r.m) n
  let list := (← self).cmd.local0.drop 64
  let es := (List.range n).map fun i => (list.drop (16 * i)).take 16
  for nt in List.range r.nt do awake (rc.accCore nt)
  entriesFrom c rc r fa (64 * 2 ^ dc) hdr es ((List.range n).drop (at_ / r.m)) (at_ % r.m)
  modPkg (emptyShadows rc.tiles)

/-- ECX_MXSEL: the command makes its accesses. -/
def execEcxMxsel (c : Cmd) (s : State) : Out := runCmd c (ecxMxselWork c) s

end Sys2Proof.Machine
end

