-- ==== Sys2Proof/Machine/Special.lean ====
section
/-! DEFINITION. The special functions of R177 on binary32. Each exact result is formed as an exact number; every other one
is computed in fixed point with 400 fraction bits and rounded once (log 15). -/

namespace Sys2Proof.Machine.Special

/-- Fraction bits of the fixed-point numbers. -/
def P : Nat := 400
def one : Nat := 2 ^ P
def fmul (a b : Nat) : Nat := (a * b) >>> P
def fdiv (a b : Nat) : Nat := (a <<< P) / b

/-- 2 * artanh(z) for 0 <= z < 1/2: the sum of 2 z^(2n+1) / (2n+1). -/
def artanh2 (z : Nat) : Nat :=
  let z2 := fmul z z
  2 * ((List.range 210).foldl (fun (acc : Nat × Nat) n => (acc.1 + acc.2 / (2 * n + 1), fmul acc.2 z2)) (0, z)).1

/-- The natural logarithm of 2. -/
def ln2 : Nat := artanh2 (one / 3)

/-- arctan(1/k). -/
def arctanInv (k : Nat) : Nat :=
  let r := (List.range 300).foldl
    (fun (acc : Int × Int) (n : Nat) =>
      (acc.1 + (if n % 2 = 0 then acc.2 / (2 * n + 1) else -(acc.2 / (2 * n + 1))), acc.2 / (k * k))) (0, (one / k : Nat))
  r.1.toNat

def pi : Nat := 4 * (4 * arctanInv 5 - arctanInv 239)

/-- e^r for 0 <= r < 1. -/
def expFrac (r : Nat) : Nat :=
  ((List.range 110).foldl (fun (acc : Nat × Nat) n => (acc.1 + acc.2, fmul acc.2 r / (n + 1))) (0, one)).1

/-- A finite value as fixed point, rounded down in magnitude. -/
def toFix (m : Nat) (e : Int) : Nat :=
  if -(P : Int) ≤ e then m * 2 ^ (e + P).toNat else m / 2 ^ (-(P : Int) - e).toNat

/-- e^x for a fixed-point x: a fraction in [1, 2) and an exponent. -/
def expParts (neg : Bool) (x : Nat) : Nat × Int :=
  let k := x / ln2
  let r := x % ln2
  if neg then if r = 0 then (one, -(k : Int)) else (expFrac (ln2 - r), -(k : Int) - 1) else (expFrac r, k)

/-- The delivered result of an inexact value (R177): one rounding, with NX always. -/
def inexact (x : FVal) : Rounded :=
  let r := rne f32 x
  let mag := r.bits % 2 ^ 31
  ⟨r.bits, r.flags ||| fNX ||| (if mag ≠ 0 ∧ mag < 0x00800000 then fUF else 0)⟩

/-- A fixed-point magnitude as a value. -/
def fixVal (neg : Bool) (v : Nat) : FVal := .fin neg v (-(P : Int))

/-- The magnitude of m * 2^e is at least 2^k. -/
def atLeast (m : Nat) (e k : Int) : Bool := decide (k ≤ (Nat.log2 m : Int) + e)

def exp2 : FVal → Rounded
  | .nan => rne f32 .nan
  | .inf s => rne f32 (if s then .fin false 0 0 else .inf false)
  | .fin s m e =>
    if m = 0 then rne f32 (.fin false 1 0)
    else if atLeast m e 10 then inexact (.fin false 1 (if s then -1000 else 1000))
    else
      let whole := decide (0 ≤ e) || decide (m % 2 ^ (-e).toNat = 0)
      if whole then
        let k : Int := if 0 ≤ e then (m * 2 ^ e.toNat : Nat) else (m / 2 ^ (-e).toNat : Nat)
        rne f32 (.fin false 1 (if s then -k else k))
      else
        let x := toFix m e
        let (f, k) := expParts s (fmul x ln2)
        inexact (.fin false f (k - P))

def log2 : FVal → Rounded
  | .nan => rne f32 .nan
  | .inf s => if s then ⟨f32.nanBits, fNV⟩ else rne f32 (.inf false)
  | .fin s m e =>
    if m = 0 then ⟨f32.infBits true, fDZ⟩
    else if s then ⟨f32.nanBits, fNV⟩
    else
      let l := Nat.log2 m
      let k : Int := (l : Int) + e
      if m = 2 ^ l then rne f32 (.fin (decide (k < 0)) k.natAbs 0)
      else
        let f := (m <<< P) / 2 ^ l
        let y := fdiv (artanh2 (fdiv (f - one) (f + one))) ln2
        let v : Int := k * (one : Nat) + y
        inexact (fixVal (decide (v < 0)) v.natAbs)

/-- The quotient of a power of two by m, rounded down, with its last bit set where anything was lost. -/
def sticky (q r : Nat) : Nat := if r = 0 then 2 * q else 2 * q + 1

def rcp : FVal → Rounded
  | .nan => rne f32 .nan
  | .inf s => rne f32 (.fin s 0 0)
  | .fin s m e =>
    if m = 0 then ⟨f32.infBits s, fDZ⟩
    else
      let n := 2 ^ 80
      rne f32 (.fin s (sticky (n / m) (n % m)) (-81 - e))

/-- The square root of m * 2^e, its last bit set where anything was lost. -/
def rootParts (m : Nat) (e : Int) : Nat × Int :=
  let (m, e) := if e % 2 = 0 then (m, e) else (2 * m, e - 1)
  let n := m * 2 ^ 80
  let r := Nat.sqrt n
  (sticky r (n - r * r), e / 2 - 41)

def sqrt : FVal → Rounded
  | .nan => rne f32 .nan
  | .inf s => if s then ⟨f32.nanBits, fNV⟩ else rne f32 (.inf false)
  | .fin s m e =>
    if m = 0 then rne f32 (.fin s 0 0)
    else if s then ⟨f32.nanBits, fNV⟩
    else
      let (r, k) := rootParts m e
      rne f32 (.fin false r k)

def rsqrt : FVal → Rounded
  | .nan => rne f32 .nan
  | .inf s => if s then ⟨f32.nanBits, fNV⟩ else rne f32 (.fin false 0 0)
  | .fin s m e =>
    if m = 0 then ⟨f32.infBits s, fDZ⟩
    else if s then ⟨f32.nanBits, fNV⟩
    else
      let (m, e) := if e % 2 = 0 then (m, e) else (2 * m, e - 1)
      let n := 2 ^ 160
      let q := n / m
      let r := Nat.sqrt q
      rne f32 (.fin false (sticky r (q - r * r + n % m)) (-81 - e / 2))

def exp : FVal → Rounded
  | .nan => rne f32 .nan
  | .inf s => rne f32 (if s then .fin false 0 0 else .inf false)
  | .fin s m e =>
    if m = 0 then rne f32 (.fin false 1 0)
    else if atLeast m e 8 then inexact (.fin false 1 (if s then -1000 else 1000))
    else
      let (f, k) := expParts s (toFix m e)
      inexact (.fin false f (k - P))

/-- e^(-x) as fixed point, for x below 2^8 in magnitude; 0 below the last place. -/
def expNeg (x : Nat) : Nat :=
  let (f, k) := expParts true x
  f / 2 ^ (-k).toNat

def tanh : FVal → Rounded
  | .nan => rne f32 .nan
  | .inf s => rne f32 (.fin s 1 0)
  | .fin s m e =>
    if m = 0 then rne f32 (.fin s 0 0)
    else if !atLeast m e (-13) then inexact (.fin s m e)
    else if atLeast m e 6 then inexact (fixVal s (one - 1))
    else
      let t := expNeg (2 * toFix m e)
      inexact (fixVal s (fdiv (one - t) (one + t)))

/-- 1 / (1 + e^(-x)) as fixed point, for |x| below 2^8. -/
def sigmFix (s : Bool) (x : Nat) : Nat :=
  let t := expNeg x
  if s then fdiv t (one + t) else fdiv one (one + t)

def sigm : FVal → Rounded
  | .nan => rne f32 .nan
  | .inf s => rne f32 (if s then .fin false 0 0 else .fin false 1 0)
  | .fin s m e =>
    if m = 0 then rne f32 (.fin false 1 (-1))
    else if atLeast m e 8 then inexact (if s then .fin false 1 (-1000) else fixVal false (one - 1))
    else inexact (fixVal false (sigmFix s (toFix m e)))

def silu : FVal → Rounded
  | .nan => rne f32 .nan
  | .inf s => rne f32 (if s then .fin true 0 0 else .inf false)
  | .fin s m e =>
    if m = 0 then rne f32 (.fin s 0 0)
    else if atLeast m e 8 then inexact (if s then .fin true 1 (-1000) else .fin false m e)
    else inexact (.fin s (m * sigmFix s (toFix m e)) (e - P))

def erf : FVal → Rounded
  | .nan => rne f32 .nan
  | .inf s => rne f32 (.fin s 1 0)
  | .fin s m e =>
    if m = 0 then rne f32 (.fin s 0 0)
    else if atLeast m e 2 then inexact (fixVal s (one - 1))
    else
      let x := toFix m e
      let x2 := fmul x x
      let sum := ((List.range 220).foldl
        (fun (acc : Int × Nat) n =>
          (acc.1 + (if n % 2 = 0 then ((acc.2 / (2 * n + 1) : Nat) : Int) else -((acc.2 / (2 * n + 1) : Nat) : Int)),
           fmul acc.2 x2 / (n + 1))) (0, x)).1.toNat
      inexact (fixVal s (2 * fdiv sum (Nat.sqrt (pi * one))))

/-- sin(t) for a fixed-point 0 <= t <= pi/2. -/
def sinFix (t : Nat) : Nat :=
  let t2 := fmul t t
  ((List.range 60).foldl
    (fun (acc : Int × Nat) n =>
      (acc.1 + (if n % 2 = 0 then (acc.2 : Int) else -(acc.2 : Int)), fmul acc.2 t2 / ((2 * n + 2) * (2 * n + 3))))
    (0, t)).1.toNat

/-- sin(pi * y / 2^P) for 0 <= y < 2 * 2^P, as a sign and a fixed-point magnitude. -/
def sinTurn (y : Nat) : Bool × Nat :=
  let s := decide (one ≤ y)
  let y := y % one
  let y := if one / 2 < y then one - y else y
  (s, sinFix (fmul pi y))

def sinpi : FVal → Rounded
  | .nan => rne f32 .nan
  | .inf _ => ⟨f32.nanBits, fNV⟩
  | .fin s m e =>
    if decide (m = 0) || decide (0 ≤ e) || decide (m % 2 ^ (-e).toNat = 0) then rne f32 (.fin s 0 0)
    else
      let y := toFix m e % (2 * one)
      if y = one / 2 then rne f32 (.fin s 1 0)
      else if y = one + one / 2 then rne f32 (.fin (!s) 1 0)
      else
        let (t, v) := sinTurn y
        inexact (fixVal (s ^^ t) v)

def cospi : FVal → Rounded
  | .nan => rne f32 .nan
  | .inf _ => ⟨f32.nanBits, fNV⟩
  | .fin _ m e =>
    let y := toFix m e % (2 * one)
    if decide (m = 0) then rne f32 (.fin false 1 0)
    else if decide (0 ≤ e) || decide (m % 2 ^ (-e).toNat = 0) then rne f32 (.fin (decide (y = one)) 1 0)
    else if y = one / 2 ∨ y = one + one / 2 then rne f32 (.fin false 0 0)
    else
      let (t, v) := sinTurn ((y + one / 2) % (2 * one))
      inexact (fixVal t v)

end Sys2Proof.Machine.Special
end

