-- ==== Sys2Proof/Machine/SpecialFn.lean ====
section
/-! DEFINITION. The special-function unit sf (R177): lane-wise, correctly rounded, landing in r at n + 8. -/

namespace Sys2Proof.Machine

/-- An sf trigger of one function. A NaN operand gives the canonical NaN without a flag (R177). -/
def sfTrigger (op : Nat) (fn : FVal → Rounded) (s : State) : Out :=
  let f := s.pkg.fire
  let rs := f.b.toV.lanes.map fun x => if (Lane.val x).isNan then ⟨f32.nanBits, 0⟩ else fn (Lane.val x)
  s.put (deliver f.ctx 10 op 8 (some (.v (Vec.ofLanes (rs.map laneOf)))) none (orFlags rs) s.pkg)

def execSfExp2 (s : State) : Out := sfTrigger 0 Special.exp2 s
def execSfLog2 (s : State) : Out := sfTrigger 1 Special.log2 s
def execSfRcp (s : State) : Out := sfTrigger 2 Special.rcp s
def execSfRsqrt (s : State) : Out := sfTrigger 3 Special.rsqrt s
def execSfSqrt (s : State) : Out := sfTrigger 4 Special.sqrt s
def execSfExp (s : State) : Out := sfTrigger 5 Special.exp s
def execSfTanh (s : State) : Out := sfTrigger 6 Special.tanh s
def execSfSigm (s : State) : Out := sfTrigger 7 Special.sigm s
def execSfErf (s : State) : Out := sfTrigger 8 Special.erf s
def execSfSinpi (s : State) : Out := sfTrigger 9 Special.sinpi s
def execSfCospi (s : State) : Out := sfTrigger 10 Special.cospi s
def execSfSilu (s : State) : Out := sfTrigger 11 Special.silu s

end Sys2Proof.Machine
end

