-- ==== Sys2Proof/Machine/VectorFloat.lean ====
section
/-! DEFINITION. The floating units vf0 and vf1 (R164 to R167): A is o1, C is o3, B the trigger value; the result lands in r at
n + 5 with its flags. -/

namespace Sys2Proof.Machine

/-- A vf trigger whose lanes are `r 0` to `r 127`. -/
def vfTrigger (op : Nat) (lane : Vec → Vec → Vec → Nat → Rounded) (s : State) : Out :=
  let f := s.pkg.fire
  let rs := (List.range 128).map (lane f.a.toV f.b.toV f.c.toV)
  s.put (deliver f.ctx (6 + b2n f.alt) op 5 (some (.v (Vec.ofLanes (rs.map laneOf)))) none (orFlags rs) s.pkg)

/-- A lane without flags. -/
def plain (x : Lane) : Rounded := ⟨x.toNat, 0⟩

def execVfAddF32 (s : State) : Out := vfTrigger 0 (fun a b _ i => addF32 (a.lane i) (b.lane i)) s
def execVfSubF32 (s : State) : Out :=
  vfTrigger 1 (fun a b _ i => finish f32 (FVal.add (Lane.val (a.lane i)) (Lane.val (b.lane i)).neg)) s
def execVfMulF32 (s : State) : Out := vfTrigger 2 (fun a b _ i => mulF32 (a.lane i) (b.lane i)) s
def execVfFmaF32 (s : State) : Out := vfTrigger 3 (fun a b c i => fmaF32 (a.lane i) (b.lane i) (c.lane i)) s
def execVfFms (s : State) : Out :=
  vfTrigger 4 (fun a b c i =>
    finish f32 (FVal.fma (Lane.val (a.lane i)) (Lane.val (b.lane i)) (Lane.val (c.lane i)).neg)) s
def execVfFnma (s : State) : Out :=
  vfTrigger 5 (fun a b c i =>
    finish f32 (FVal.fma (Lane.val (a.lane i)).neg (Lane.val (b.lane i)) (Lane.val (c.lane i)))) s
def execVfMinF32 (s : State) : Out := vfTrigger 6 (fun a b _ i => plain (minF32 (a.lane i) (b.lane i))) s
def execVfMaxF32 (s : State) : Out := vfTrigger 7 (fun a b _ i => plain (maxF32 (a.lane i) (b.lane i))) s

/-- A sign operation: a NaN becomes canonical (R165). -/
def signOp (x y : Lane) : Rounded := if (Lane.val x).isNan then ⟨f32.nanBits, 0⟩ else plain y

def execVfAbsF32 (s : State) : Out := vfTrigger 8 (fun _ b _ i => signOp (b.lane i) (b.lane i &&& 0x7FFFFFFF)) s
def execVfNegF32 (s : State) : Out := vfTrigger 9 (fun _ b _ i => signOp (b.lane i) (b.lane i ^^^ 0x80000000)) s

/-- a * 2^k rounded once; beyond 600 in magnitude every k rounds as 600 does (R165). -/
def sclF32 (a k : Lane) : Rounded := rne f32 ((Lane.val a).scale (max (-600) (min 600 k.toInt)))

def execVfSclF32 (s : State) : Out := vfTrigger 10 (fun a b _ i => sclF32 (a.lane i) (b.lane i)) s

/-- The half h of a lane, as a value of a 16-bit format. -/
def half (f : Fmt) (h : Nat) (x : Lane) : FVal := f.decode (x.toNat / 65536 ^ h % 65536)

/-- A 16-bit operation on both halves of a lane (R163). -/
def halves (f : Fmt) (op : FVal → FVal → FVal → FVal × Bool) (a b c : Lane) : Rounded :=
  let lo := finish f (op (half f 0 a) (half f 0 b) (half f 0 c))
  let hi := finish f (op (half f 1 a) (half f 1 b) (half f 1 c))
  ⟨lo.bits + 65536 * hi.bits, lo.flags ||| hi.flags⟩

def execVfAddBf16 (s : State) : Out :=
  vfTrigger 11 (fun a b c i => halves bf16 (fun x y _ => FVal.add x y) (a.lane i) (b.lane i) (c.lane i)) s
def execVfMulBf16 (s : State) : Out :=
  vfTrigger 12 (fun a b c i => halves bf16 (fun x y _ => FVal.mul x y) (a.lane i) (b.lane i) (c.lane i)) s
def execVfFmaBf16 (s : State) : Out :=
  vfTrigger 13 (fun a b c i => halves bf16 FVal.fma (a.lane i) (b.lane i) (c.lane i)) s

/-- a[2i] * b[2i] + a[2i+1] * b[2i+1] + c, rounded once to binary32 (R165). -/
def dotLane (f : Fmt) (a b c : Lane) : Rounded :=
  let (p, bad) := FVal.mul (half f 0 a) (half f 0 b)
  let (q, bad') := FVal.mul (half f 1 a) (half f 1 b)
  let (r, bad'') := FVal.sum [p, q, Lane.val c]
  finish f32 (r, bad || bad' || bad'')

def execVfDotBf16 (s : State) : Out := vfTrigger 14 (fun a b c i => dotLane bf16 (a.lane i) (b.lane i) (c.lane i)) s
def execVfAddF16 (s : State) : Out :=
  vfTrigger 15 (fun a b c i => halves f16 (fun x y _ => FVal.add x y) (a.lane i) (b.lane i) (c.lane i)) s
def execVfMulF16 (s : State) : Out :=
  vfTrigger 16 (fun a b c i => halves f16 (fun x y _ => FVal.mul x y) (a.lane i) (b.lane i) (c.lane i)) s
def execVfFmaF16 (s : State) : Out :=
  vfTrigger 17 (fun a b c i => halves f16 FVal.fma (a.lane i) (b.lane i) (c.lane i)) s
def execVfDotF16 (s : State) : Out := vfTrigger 18 (fun a b c i => dotLane f16 (a.lane i) (b.lane i) (c.lane i)) s

/-- A comparison's lane (R165), with NV where the comparison is invalid (R167). -/
def cmpLane (t nv : Bool) : Rounded := ⟨if t then 0xFFFFFFFF else 0, if nv then fNV else 0⟩

/-- Either operand is NaN. -/
def unordered (a b : Lane) : Bool := (Lane.val a).isNan || (Lane.val b).isNan

def execVfCmpEqF32 (s : State) : Out :=
  vfTrigger 19 (fun a b _ i => cmpLane (FVal.eq (Lane.val (a.lane i)) (Lane.val (b.lane i))) false) s
def execVfCmpLtF32 (s : State) : Out :=
  vfTrigger 20 (fun a b _ i =>
    cmpLane (FVal.lt (Lane.val (a.lane i)) (Lane.val (b.lane i))) (unordered (a.lane i) (b.lane i))) s
def execVfCmpLeF32 (s : State) : Out :=
  vfTrigger 21 (fun a b _ i =>
    cmpLane (FVal.le (Lane.val (a.lane i)) (Lane.val (b.lane i))) (unordered (a.lane i) (b.lane i))) s
def execVfCmpUnF32 (s : State) : Out := vfTrigger 22 (fun a b _ i => cmpLane (unordered (a.lane i) (b.lane i)) false) s

/-- B unchanged; c.amax and NS change when the entry lands (R67). -/
def execVfAmx (s : State) : Out :=
  let f := s.pkg.fire
  let xs := f.b.toV.lanes.map Lane.val
  s.put (addEntry f.ctx { unit := 6 + b2n f.alt, op := 23, left := 5, order := 0, kind := .result,
                          r := some (.v f.b.toV), amax := amaxOf xs, ns := sawNan xs } s.pkg)

/-- The class bit of R166. -/
def classBit (x : Lane) : Nat :=
  match Lane.val x with
  | .nan => 8
  | .inf true => 0
  | .inf false => 7
  | .fin neg m _ =>
    if m = 0 then if neg then 3 else 4
    else if x.toNat % 2 ^ 31 < 0x00800000 then if neg then 2 else 5
    else if neg then 1 else 6

def execVfCls (s : State) : Out := vfTrigger 24 (fun _ b _ i => ⟨2 ^ classBit (b.lane i), 0⟩) s

end Sys2Proof.Machine
end

