-- ==== Sys2Proof/Machine/VectorInt.lean ====
section
/-! DEFINITION. The integer and mask unit vi (R168): the result lands in r at n + 2, that of `mul.i32` at n + 4. -/

namespace Sys2Proof.Machine

/-- A vi trigger whose result is lane-wise `lane A B C i`. -/
def viTrigger (op l : Nat) (lane : Vec → Vec → Vec → Nat → Lane) (s : State) : Out :=
  let f := s.pkg.fire
  s.put (deliver f.ctx 8 op l (some (.v (Vec.tab (lane f.a.toV f.b.toV f.c.toV)))) none 0 s.pkg)

/-- All ones for true, zeros for false. -/
def maskLane (t : Bool) : Lane := if t then 0xFFFFFFFF else 0

def execViAddI32 (s : State) : Out := viTrigger 0 2 (fun a b _ i => a.lane i + b.lane i) s
def execViSubI32 (s : State) : Out := viTrigger 1 2 (fun a b _ i => a.lane i - b.lane i) s
def execViMulI32 (s : State) : Out := viTrigger 2 4 (fun a b _ i => a.lane i * b.lane i) s
def execViAnd (s : State) : Out := viTrigger 3 2 (fun a b _ i => a.lane i &&& b.lane i) s
def execViOr (s : State) : Out := viTrigger 4 2 (fun a b _ i => a.lane i ||| b.lane i) s
def execViXor (s : State) : Out := viTrigger 5 2 (fun a b _ i => a.lane i ^^^ b.lane i) s
def execViAndn (s : State) : Out := viTrigger 6 2 (fun a b _ i => a.lane i &&& ~~~(b.lane i)) s
def execViShl (s : State) : Out := viTrigger 7 2 (fun a b _ i => a.lane i <<< ((b.lane i).toNat % 32)) s
def execViShr (s : State) : Out := viTrigger 8 2 (fun a b _ i => a.lane i >>> ((b.lane i).toNat % 32)) s
def execViSra (s : State) : Out := viTrigger 9 2 (fun a b _ i => (a.lane i).sshiftRight ((b.lane i).toNat % 32)) s
def execViMinI32 (s : State) : Out := viTrigger 10 2 (fun a b _ i => if (b.lane i).slt (a.lane i) then b.lane i else a.lane i) s
def execViMaxI32 (s : State) : Out := viTrigger 11 2 (fun a b _ i => if (a.lane i).slt (b.lane i) then b.lane i else a.lane i) s
def execViMinN32 (s : State) : Out := viTrigger 12 2 (fun a b _ i => if (b.lane i).ult (a.lane i) then b.lane i else a.lane i) s
def execViMaxN32 (s : State) : Out := viTrigger 13 2 (fun a b _ i => if (a.lane i).ult (b.lane i) then b.lane i else a.lane i) s
def execViEqI32 (s : State) : Out := viTrigger 14 2 (fun a b _ i => maskLane (a.lane i == b.lane i)) s
def execViLtI32 (s : State) : Out := viTrigger 15 2 (fun a b _ i => maskLane ((a.lane i).slt (b.lane i))) s
def execViLtN32 (s : State) : Out := viTrigger 16 2 (fun a b _ i => maskLane ((a.lane i).ult (b.lane i))) s
def execViSel (s : State) : Out := viTrigger 17 2 (fun a b c i => if c.lane i != 0 then a.lane i else b.lane i) s
def execViBc (s : State) : Out := viTrigger 18 2 (fun a b _ i => a.lane (16 * (i / 16) + (b.lane 0).toNat % 16)) s
def execViIota (s : State) : Out := viTrigger 19 2 (fun _ b _ i => b.lane 0 + BitVec.ofNat 32 i) s

/-- Both 16-bit halves by an operation modulo 2^16. -/
def halfwise (op : BitVec 16 → BitVec 16 → BitVec 16) (a b : Lane) : Lane :=
  op (a.extractLsb' 16 16) (b.extractLsb' 16 16) ++ op (a.extractLsb' 0 16) (b.extractLsb' 0 16)

def execViAddI16 (s : State) : Out := viTrigger 20 2 (fun a b _ i => halfwise (· + ·) (a.lane i) (b.lane i)) s
def execViSubI16 (s : State) : Out := viTrigger 21 2 (fun a b _ i => halfwise (· - ·) (a.lane i) (b.lane i)) s

/-- The sum of two signed bytes, clamped. -/
def satByte (a b : Byte) : Byte := BitVec.ofInt 8 (max (-128) (min 127 (a.toInt + b.toInt)))

def bytewise (a b : Lane) : Lane :=
  BitVec.ofNat 32 (natOf ((List.range 4).map fun j => satByte (a.extractLsb' (8 * j) 8) (b.extractLsb' (8 * j) 8)))

def execViAddsI8 (s : State) : Out := viTrigger 22 2 (fun a b _ i => bytewise (a.lane i) (b.lane i)) s
def execViMand (s : State) : Out := viTrigger 23 2 (fun a b _ i => maskLane (a.lane i != 0 && b.lane i != 0)) s
def execViMor (s : State) : Out := viTrigger 24 2 (fun a b _ i => maskLane (a.lane i != 0 || b.lane i != 0)) s
def execViMxor (s : State) : Out := viTrigger 25 2 (fun a b _ i => maskLane ((a.lane i != 0) != (b.lane i != 0))) s
def execViMnot (s : State) : Out := viTrigger 26 2 (fun _ b _ i => maskLane (b.lane i == 0)) s

/-- The lanes that are not zero, in order. -/
def setLanes (b : Vec) : List Nat := (List.range 128).filter fun j => b.lane j != 0

/-- A vi mask reduction: one number in every lane. -/
def viReduce (op : Nat) (value : List Nat → Nat) (s : State) : Out :=
  let f := s.pkg.fire
  let x := BitVec.ofNat 32 (value (setLanes f.b.toV))
  s.put (deliver f.ctx 8 op 2 (some (.v (Vec.splat x))) none 0 s.pkg)

def execViMpop (s : State) : Out := viReduce 27 List.length s
def execViMfirst (s : State) : Out := viReduce 28 (fun js => js.headD 128) s
def execViMlast (s : State) : Out := viReduce 29 (fun js => js.getLastD 128) s
def execViPopcI32 (s : State) : Out := viTrigger 30 2 (fun _ b _ i => BitVec.ofNat 32 (popcNat 32 (b.lane i).toNat)) s
def execViClzI32 (s : State) : Out := viTrigger 31 2 (fun _ b _ i => BitVec.ofNat 32 (clzNat 32 (b.lane i).toNat)) s

end Sys2Proof.Machine
end

