-- ==== Sys2Proof/Machine/Dispatch.lean ====
section
/-! DEFINITION. One arm per row of the table: each calls its meaning. -/

namespace Sys2Proof.Machine

def exec (i : Instr) (s : State) : Host.Outcome State Fault Refusal :=
  match i with
  | .bundleIssue x b => Sys2Proof.Machine.execBundleIssue x b s
  | .entryLanding x => Sys2Proof.Machine.execEntryLanding x s
  | .branchEffect x => Sys2Proof.Machine.execBranchEffect x s
  | .contextChoose core => Sys2Proof.Machine.execContextChoose core s
  | .quantumExpiry core => Sys2Proof.Machine.execQuantumExpiry core s
  | .agingExpiry core => Sys2Proof.Machine.execAgingExpiry core s
  | .sleepWake x => Sys2Proof.Machine.execSleepWake x s
  | .waitTimeout x => Sys2Proof.Machine.execWaitTimeout x s
  | .partBind x => Sys2Proof.Machine.execPartBind x s
  | .kernelImageLoad core node => Sys2Proof.Machine.execKernelImageLoad core node s
  | .partEnd x => Sys2Proof.Machine.execPartEnd x s
  | .nodeStart node => Sys2Proof.Machine.execNodeStart node s
  | .nodeComplete node => Sys2Proof.Machine.execNodeComplete node s
  | .nodeCommit node => Sys2Proof.Machine.execNodeCommit node s
  | .recordTake => Sys2Proof.Machine.execRecordTake s
  | .gangProposalReceive node pkg m => Sys2Proof.Machine.execGangProposalReceive node pkg m s
  | .gangTimeout node => Sys2Proof.Machine.execGangTimeout node s
  | .gangStartTick node => Sys2Proof.Machine.execGangStartTick node s
  | .preemptHint core => Sys2Proof.Machine.execPreemptHint core s
  | .engineCommandStart id => Sys2Proof.Machine.execEngineCommandStart id s
  | .tokenComplete id => Sys2Proof.Machine.execTokenComplete id s
  | .tileTake id => Sys2Proof.Machine.execTileTake id s
  | .noticeOffer nid => Sys2Proof.Machine.execNoticeOffer nid s
  | .noticeReoffer nid => Sys2Proof.Machine.execNoticeReoffer nid s
  | .episodeComplete node group number => Sys2Proof.Machine.execEpisodeComplete node group number s
  | .acqwTimeout id => Sys2Proof.Machine.execAcqwTimeout id s
  | .buDriveStep ch => Sys2Proof.Machine.execBuDriveStep ch s
  | .sysRecordWrite x => Sys2Proof.Machine.execSysRecordWrite x s
  | .hostAtsInvalidate asid va => Sys2Proof.Machine.execHostAtsInvalidate asid va s
  | .faultRecordPost source => Sys2Proof.Machine.execFaultRecordPost source s
  | .eventLogAppend => Sys2Proof.Machine.execEventLogAppend s
  | .cpMismatch pair => Sys2Proof.Machine.execCpMismatch pair s
  | .correctedError site => Sys2Proof.Machine.execCorrectedError site s
  | .repairStepComplete tile => Sys2Proof.Machine.execRepairStepComplete tile s
  | .repairComplete tile => Sys2Proof.Machine.execRepairComplete tile s
  | .planeRemapComplete tile => Sys2Proof.Machine.execPlaneRemapComplete tile s
  | .moveComplete => Sys2Proof.Machine.execMoveComplete s
  | .moveQuiet => Sys2Proof.Machine.execMoveQuiet s
  | .skimPage => Sys2Proof.Machine.execSkimPage s
  | .skimPassEnd => Sys2Proof.Machine.execSkimPassEnd s
  | .hostWindowRead fn offset n => Sys2Proof.Machine.execHostWindowRead fn offset n s
  | .hostWindowWrite fn offset data => Sys2Proof.Machine.execHostWindowWrite fn offset data s
  | .qTailStore q v how => Sys2Proof.Machine.execQTailStore q v how s
  | .qCplHeadStore q v how => Sys2Proof.Machine.execQCplHeadStore q v how s
  | .hostLinkDown => Sys2Proof.Machine.execHostLinkDown s
  | .hostPoisonedCompletion id => Sys2Proof.Machine.execHostPoisonedCompletion id s
  | .hostPtmRequest time => Sys2Proof.Machine.execHostPtmRequest time s
  | .edgePortFail port => Sys2Proof.Machine.execEdgePortFail port s
  | .ulalmMessageReceive port m => Sys2Proof.Machine.execUlalmMessageReceive port m s
  | .dieLinkFail link => Sys2Proof.Machine.execDieLinkFail link s
  | .timeSyncMessage port time => Sys2Proof.Machine.execTimeSyncMessage port time s
  | .resetNRelease failStep => Sys2Proof.Machine.execResetNRelease failStep s
  | .powerCapExceed reading => Sys2Proof.Machine.execPowerCapExceed reading s
  | .powerHeadroom reading => Sys2Proof.Machine.execPowerHeadroom reading s
  | .tempHot reading => Sys2Proof.Machine.execTempHot reading s
  | .tempCool reading => Sys2Proof.Machine.execTempCool reading s
  | .thermTrip reading => Sys2Proof.Machine.execThermTrip reading s
  | .cluPwrTransitionEnd cluster => Sys2Proof.Machine.execCluPwrTransitionEnd cluster s
  | .launchCtlWrite v => Sys2Proof.Machine.execLaunchCtlWrite v s
  | .qCtlEnable q v => Sys2Proof.Machine.execQCtlEnable q v s
  | .faultCtlEnable v => Sys2Proof.Machine.execFaultCtlEnable v s
  | .evlogCtlEnable v => Sys2Proof.Machine.execEvlogCtlEnable v s
  | .faultHeadWrite v => Sys2Proof.Machine.execFaultHeadWrite v s
  | .evlogHeadWrite v => Sys2Proof.Machine.execEvlogHeadWrite v s
  | .cpStatClear v => Sys2Proof.Machine.execCpStatClear v s
  | .nodeAbortRollback v => Sys2Proof.Machine.execNodeAbortRollback v s
  | .nodeAbortFail v => Sys2Proof.Machine.execNodeAbortFail v s
  | .transResolveRetry v => Sys2Proof.Machine.execTransResolveRetry v s
  | .transResolveFail v => Sys2Proof.Machine.execTransResolveFail v s
  | .poisonClr v => Sys2Proof.Machine.execPoisonClr v s
  | .repairResolveRemap v => Sys2Proof.Machine.execRepairResolveRemap v s
  | .repairResolveRelease v => Sys2Proof.Machine.execRepairResolveRelease v s
  | .repairResolveFail v => Sys2Proof.Machine.execRepairResolveFail v s
  | .movePageHoldSet v => Sys2Proof.Machine.execMovePageHoldSet v s
  | .movePageHoldClear v => Sys2Proof.Machine.execMovePageHoldClear v s
  | .moveCtlGo v => Sys2Proof.Machine.execMoveCtlGo v s
  | .skimCtlGo v => Sys2Proof.Machine.execSkimCtlGo v s
  | .spadFailWrite core v => Sys2Proof.Machine.execSpadFailWrite core v s
  | .pkgResetWrite v => Sys2Proof.Machine.execPkgResetWrite v s
  | .cluPwrLower cluster v => Sys2Proof.Machine.execCluPwrLower cluster v s
  | .cluPwrRaise cluster v => Sys2Proof.Machine.execCluPwrRaise cluster v s
  | .registerWrite addr v => Sys2Proof.Machine.execRegisterWrite addr v s
  | .ecCopy c => Sys2Proof.Machine.execEcCopy c s
  | .ecCopyl c => Sys2Proof.Machine.execEcCopyl c s
  | .ecRetile c => Sys2Proof.Machine.execEcRetile c s
  | .ecKick c => Sys2Proof.Machine.execEcKick c s
  | .ecPull c => Sys2Proof.Machine.execEcPull c s
  | .ecAmo c => Sys2Proof.Machine.execEcAmo c s
  | .ecAmor c => Sys2Proof.Machine.execEcAmor c s
  | .ecAcq c => Sys2Proof.Machine.execEcAcq c s
  | .ecAcqw c => Sys2Proof.Machine.execEcAcqw c s
  | .ecRel c => Sys2Proof.Machine.execEcRel c s
  | .ecBind c => Sys2Proof.Machine.execEcBind c s
  | .ecUnbind c => Sys2Proof.Machine.execEcUnbind c s
  | .ecBar c => Sys2Proof.Machine.execEcBar c s
  | .ecColl c => Sys2Proof.Machine.execEcColl c s
  | .ecPref c => Sys2Proof.Machine.execEcPref c s
  | .ecStampw c => Sys2Proof.Machine.execEcStampw c s
  | .ecFenceE c => Sys2Proof.Machine.execEcFenceE c s
  | .ecxWld c => Sys2Proof.Machine.execEcxWld c s
  | .ecxMx c => Sys2Proof.Machine.execEcxMx c s
  | .ecxMxs c => Sys2Proof.Machine.execEcxMxs c s
  | .ecxMxsel c => Sys2Proof.Machine.execEcxMxsel c s
  | .ecxSwap c => Sys2Proof.Machine.execEcxSwap c s
  | .ecxCbt c => Sys2Proof.Machine.execEcxCbt c s
  | .ecxKvapp c => Sys2Proof.Machine.execEcxKvapp c s
  | .ecxKvsel c => Sys2Proof.Machine.execEcxKvsel c s
  | .ecxKvtrunc c => Sys2Proof.Machine.execEcxKvtrunc c s
  | .ecxKvfork c => Sys2Proof.Machine.execEcxKvfork c s
  | .ecxSig c => Sys2Proof.Machine.execEcxSig c s
  | .ecxSigld c => Sys2Proof.Machine.execEcxSigld c s
  | .ecxBuLoad c => Sys2Proof.Machine.execEcxBuLoad c s
  | .ecxBuMode c => Sys2Proof.Machine.execEcxBuMode c s
  | .ecxBuDrive c => Sys2Proof.Machine.execEcxBuDrive c s
  | .ecxChk c => Sys2Proof.Machine.execEcxChk c s
  | .twNop => Sys2Proof.Machine.execTwNop s
  | .twLd rd => Sys2Proof.Machine.execTwLd rd s
  | .twSt ra => Sys2Proof.Machine.execTwSt ra s
  | .twAddI32 rd ra rb => Sys2Proof.Machine.execTwAddI32 rd ra rb s
  | .twSubI32 rd ra rb => Sys2Proof.Machine.execTwSubI32 rd ra rb s
  | .twMulI32 rd ra rb => Sys2Proof.Machine.execTwMulI32 rd ra rb s
  | .twAddF32 rd ra rb => Sys2Proof.Machine.execTwAddF32 rd ra rb s
  | .twSubF32 rd ra rb => Sys2Proof.Machine.execTwSubF32 rd ra rb s
  | .twMulF32 rd ra rb => Sys2Proof.Machine.execTwMulF32 rd ra rb s
  | .twFmaF32 rd ra rb rc => Sys2Proof.Machine.execTwFmaF32 rd ra rb rc s
  | .twMin rd ra rb f => Sys2Proof.Machine.execTwMin rd ra rb f s
  | .twMax rd ra rb f => Sys2Proof.Machine.execTwMax rd ra rb f s
  | .twAnd rd ra rb => Sys2Proof.Machine.execTwAnd rd ra rb s
  | .twOr rd ra rb => Sys2Proof.Machine.execTwOr rd ra rb s
  | .twXor rd ra rb => Sys2Proof.Machine.execTwXor rd ra rb s
  | .twShlReg rd ra rb => Sys2Proof.Machine.execTwShlReg rd ra rb s
  | .twShlImm rd ra sh => Sys2Proof.Machine.execTwShlImm rd ra sh s
  | .twShrReg rd ra rb => Sys2Proof.Machine.execTwShrReg rd ra rb s
  | .twShrImm rd ra sh => Sys2Proof.Machine.execTwShrImm rd ra sh s
  | .twSraReg rd ra rb => Sys2Proof.Machine.execTwSraReg rd ra rb s
  | .twSraImm rd ra sh => Sys2Proof.Machine.execTwSraImm rd ra sh s
  | .twCmp ra rb m c => Sys2Proof.Machine.execTwCmp ra rb m c s
  | .twSel rd ra rb => Sys2Proof.Machine.execTwSel rd ra rb s
  | .twHmix rd ra rb => Sys2Proof.Machine.execTwHmix rd ra rb s
  | .twLoop n => Sys2Proof.Machine.execTwLoop n s
  | .twLoopx n => Sys2Proof.Machine.execTwLoopx n s
  | .twEndl => Sys2Proof.Machine.execTwEndl s
  | .twHalt => Sys2Proof.Machine.execTwHalt s
  | .resetNAssert => Sys2Proof.Machine.execResetNAssert s
  | .memorySideCacheFillLands line => Sys2Proof.Machine.execMemorySideCacheFillLands line s
  | .edgePortTrained port => Sys2Proof.Machine.execEdgePortTrained port s
  | .saAdd => Sys2Proof.Machine.execSaAdd s
  | .saSub => Sys2Proof.Machine.execSaSub s
  | .saAnd => Sys2Proof.Machine.execSaAnd s
  | .saOr => Sys2Proof.Machine.execSaOr s
  | .saXor => Sys2Proof.Machine.execSaXor s
  | .saAndn => Sys2Proof.Machine.execSaAndn s
  | .saShl => Sys2Proof.Machine.execSaShl s
  | .saShr => Sys2Proof.Machine.execSaShr s
  | .saSra => Sys2Proof.Machine.execSaSra s
  | .saRol => Sys2Proof.Machine.execSaRol s
  | .saMinI => Sys2Proof.Machine.execSaMinI s
  | .saMaxI => Sys2Proof.Machine.execSaMaxI s
  | .saMinN => Sys2Proof.Machine.execSaMinN s
  | .saMaxN => Sys2Proof.Machine.execSaMaxN s
  | .saEq => Sys2Proof.Machine.execSaEq s
  | .saNe => Sys2Proof.Machine.execSaNe s
  | .saLtI => Sys2Proof.Machine.execSaLtI s
  | .saLtN => Sys2Proof.Machine.execSaLtN s
  | .saLeI => Sys2Proof.Machine.execSaLeI s
  | .saLeN => Sys2Proof.Machine.execSaLeN s
  | .saSel => Sys2Proof.Machine.execSaSel s
  | .saPass => Sys2Proof.Machine.execSaPass s
  | .saSxt => Sys2Proof.Machine.execSaSxt s
  | .saZxt => Sys2Proof.Machine.execSaZxt s
  | .saClz => Sys2Proof.Machine.execSaClz s
  | .saCtz => Sys2Proof.Machine.execSaCtz s
  | .saPopc => Sys2Proof.Machine.execSaPopc s
  | .saBrev => Sys2Proof.Machine.execSaBrev s
  | .saAddsh => Sys2Proof.Machine.execSaAddsh s
  | .saBfx => Sys2Proof.Machine.execSaBfx s
  | .saBfi => Sys2Proof.Machine.execSaBfi s
  | .smMul => Sys2Proof.Machine.execSmMul s
  | .smMulhI => Sys2Proof.Machine.execSmMulhI s
  | .smMulhN => Sys2Proof.Machine.execSmMulhN s
  | .smMad => Sys2Proof.Machine.execSmMad s
  | .smMulwI => Sys2Proof.Machine.execSmMulwI s
  | .smMulwN => Sys2Proof.Machine.execSmMulwN s
  | .smDivI => Sys2Proof.Machine.execSmDivI s
  | .smDivN => Sys2Proof.Machine.execSmDivN s
  | .smRemI => Sys2Proof.Machine.execSmRemI s
  | .smRemN => Sys2Proof.Machine.execSmRemN s
  | .brJmp => Sys2Proof.Machine.execBrJmp s
  | .brCall => Sys2Proof.Machine.execBrCall s
  | .brRet => Sys2Proof.Machine.execBrRet s
  | .brBrz => Sys2Proof.Machine.execBrBrz s
  | .brBrnz => Sys2Proof.Machine.execBrBrnz s
  | .brLoop => Sys2Proof.Machine.execBrLoop s
  | .brLoopx => Sys2Proof.Machine.execBrLoopx s
  | .brSetlc => Sys2Proof.Machine.execBrSetlc s
  | .brSetlcx => Sys2Proof.Machine.execBrSetlcx s
  | .brRot => Sys2Proof.Machine.execBrRot s
  | .brEnd => Sys2Proof.Machine.execBrEnd s
  | .brYield => Sys2Proof.Machine.execBrYield s
  | .brTrap => Sys2Proof.Machine.execBrTrap s
  | .brRett => Sys2Proof.Machine.execBrRett s
  | .brSleep => Sys2Proof.Machine.execBrSleep s
  | .lsLdB => Sys2Proof.Machine.execLsLdB s
  | .lsLdH => Sys2Proof.Machine.execLsLdH s
  | .lsLdW => Sys2Proof.Machine.execLsLdW s
  | .lsLdD => Sys2Proof.Machine.execLsLdD s
  | .lsLdfW => Sys2Proof.Machine.execLsLdfW s
  | .lsLdcW => Sys2Proof.Machine.execLsLdcW s
  | .lsLdfD => Sys2Proof.Machine.execLsLdfD s
  | .lsLdcD => Sys2Proof.Machine.execLsLdcD s
  | .lsStB => Sys2Proof.Machine.execLsStB s
  | .lsStH => Sys2Proof.Machine.execLsStH s
  | .lsStW => Sys2Proof.Machine.execLsStW s
  | .lsStD => Sys2Proof.Machine.execLsStD s
  | .lsStpW => Sys2Proof.Machine.execLsStpW s
  | .lsStpD => Sys2Proof.Machine.execLsStpD s
  | .lsStnW => Sys2Proof.Machine.execLsStnW s
  | .lsLdV => Sys2Proof.Machine.execLsLdV s
  | .lsLdfV => Sys2Proof.Machine.execLsLdfV s
  | .lsLdcV => Sys2Proof.Machine.execLsLdcV s
  | .lsStV => Sys2Proof.Machine.execLsStV s
  | .lsStpV => Sys2Proof.Machine.execLsStpV s
  | .lsStnV => Sys2Proof.Machine.execLsStnV s
  | .lsLdVs => Sys2Proof.Machine.execLsLdVs s
  | .lsStVs => Sys2Proof.Machine.execLsStVs s
  | .lsLdVb => Sys2Proof.Machine.execLsLdVb s
  | .lsLdVg => Sys2Proof.Machine.execLsLdVg s
  | .lsStVg => Sys2Proof.Machine.execLsStVg s
  | .lsLdTg => Sys2Proof.Machine.execLsLdTg s
  | .lsStTg => Sys2Proof.Machine.execLsStTg s
  | .lsLdAcc => Sys2Proof.Machine.execLsLdAcc s
  | .lsLdfAcc => Sys2Proof.Machine.execLsLdfAcc s
  | .lsStAcc => Sys2Proof.Machine.execLsStAcc s
  | .lsLdSc => Sys2Proof.Machine.execLsLdSc s
  | .vfAddF32 => Sys2Proof.Machine.execVfAddF32 s
  | .vfSubF32 => Sys2Proof.Machine.execVfSubF32 s
  | .vfMulF32 => Sys2Proof.Machine.execVfMulF32 s
  | .vfFmaF32 => Sys2Proof.Machine.execVfFmaF32 s
  | .vfFms => Sys2Proof.Machine.execVfFms s
  | .vfFnma => Sys2Proof.Machine.execVfFnma s
  | .vfMinF32 => Sys2Proof.Machine.execVfMinF32 s
  | .vfMaxF32 => Sys2Proof.Machine.execVfMaxF32 s
  | .vfAbsF32 => Sys2Proof.Machine.execVfAbsF32 s
  | .vfNegF32 => Sys2Proof.Machine.execVfNegF32 s
  | .vfSclF32 => Sys2Proof.Machine.execVfSclF32 s
  | .vfAddBf16 => Sys2Proof.Machine.execVfAddBf16 s
  | .vfMulBf16 => Sys2Proof.Machine.execVfMulBf16 s
  | .vfFmaBf16 => Sys2Proof.Machine.execVfFmaBf16 s
  | .vfDotBf16 => Sys2Proof.Machine.execVfDotBf16 s
  | .vfAddF16 => Sys2Proof.Machine.execVfAddF16 s
  | .vfMulF16 => Sys2Proof.Machine.execVfMulF16 s
  | .vfFmaF16 => Sys2Proof.Machine.execVfFmaF16 s
  | .vfDotF16 => Sys2Proof.Machine.execVfDotF16 s
  | .vfCmpEqF32 => Sys2Proof.Machine.execVfCmpEqF32 s
  | .vfCmpLtF32 => Sys2Proof.Machine.execVfCmpLtF32 s
  | .vfCmpLeF32 => Sys2Proof.Machine.execVfCmpLeF32 s
  | .vfCmpUnF32 => Sys2Proof.Machine.execVfCmpUnF32 s
  | .vfAmx => Sys2Proof.Machine.execVfAmx s
  | .vfCls => Sys2Proof.Machine.execVfCls s
  | .viAddI32 => Sys2Proof.Machine.execViAddI32 s
  | .viSubI32 => Sys2Proof.Machine.execViSubI32 s
  | .viMulI32 => Sys2Proof.Machine.execViMulI32 s
  | .viAnd => Sys2Proof.Machine.execViAnd s
  | .viOr => Sys2Proof.Machine.execViOr s
  | .viXor => Sys2Proof.Machine.execViXor s
  | .viAndn => Sys2Proof.Machine.execViAndn s
  | .viShl => Sys2Proof.Machine.execViShl s
  | .viShr => Sys2Proof.Machine.execViShr s
  | .viSra => Sys2Proof.Machine.execViSra s
  | .viMinI32 => Sys2Proof.Machine.execViMinI32 s
  | .viMaxI32 => Sys2Proof.Machine.execViMaxI32 s
  | .viMinN32 => Sys2Proof.Machine.execViMinN32 s
  | .viMaxN32 => Sys2Proof.Machine.execViMaxN32 s
  | .viEqI32 => Sys2Proof.Machine.execViEqI32 s
  | .viLtI32 => Sys2Proof.Machine.execViLtI32 s
  | .viLtN32 => Sys2Proof.Machine.execViLtN32 s
  | .viSel => Sys2Proof.Machine.execViSel s
  | .viBc => Sys2Proof.Machine.execViBc s
  | .viIota => Sys2Proof.Machine.execViIota s
  | .viAddI16 => Sys2Proof.Machine.execViAddI16 s
  | .viSubI16 => Sys2Proof.Machine.execViSubI16 s
  | .viAddsI8 => Sys2Proof.Machine.execViAddsI8 s
  | .viMand => Sys2Proof.Machine.execViMand s
  | .viMor => Sys2Proof.Machine.execViMor s
  | .viMxor => Sys2Proof.Machine.execViMxor s
  | .viMnot => Sys2Proof.Machine.execViMnot s
  | .viMpop => Sys2Proof.Machine.execViMpop s
  | .viMfirst => Sys2Proof.Machine.execViMfirst s
  | .viMlast => Sys2Proof.Machine.execViMlast s
  | .viPopcI32 => Sys2Proof.Machine.execViPopcI32 s
  | .viClzI32 => Sys2Proof.Machine.execViClzI32 s
  | .vcCvt => Sys2Proof.Machine.execVcCvt s
  | .vcCvtwLo => Sys2Proof.Machine.execVcCvtwLo s
  | .vcCvtwHi => Sys2Proof.Machine.execVcCvtwHi s
  | .vcPack => Sys2Proof.Machine.execVcPack s
  | .vcF2i => Sys2Proof.Machine.execVcF2i s
  | .vcI2f => Sys2Proof.Machine.execVcI2f s
  | .vcQmx => Sys2Proof.Machine.execVcQmx s
  | .vcDqmx => Sys2Proof.Machine.execVcDqmx s
  | .vcCbd => Sys2Proof.Machine.execVcCbd s
  | .vcRint => Sys2Proof.Machine.execVcRint s
  | .vcCvta => Sys2Proof.Machine.execVcCvta s
  | .vcSetsc => Sys2Proof.Machine.execVcSetsc s
  | .vcSrseed => Sys2Proof.Machine.execVcSrseed s
  | .sfExp2 => Sys2Proof.Machine.execSfExp2 s
  | .sfLog2 => Sys2Proof.Machine.execSfLog2 s
  | .sfRcp => Sys2Proof.Machine.execSfRcp s
  | .sfRsqrt => Sys2Proof.Machine.execSfRsqrt s
  | .sfSqrt => Sys2Proof.Machine.execSfSqrt s
  | .sfExp => Sys2Proof.Machine.execSfExp s
  | .sfTanh => Sys2Proof.Machine.execSfTanh s
  | .sfSigm => Sys2Proof.Machine.execSfSigm s
  | .sfErf => Sys2Proof.Machine.execSfErf s
  | .sfSinpi => Sys2Proof.Machine.execSfSinpi s
  | .sfCospi => Sys2Proof.Machine.execSfCospi s
  | .sfSilu => Sys2Proof.Machine.execSfSilu s
  | .xcRsumF32 => Sys2Proof.Machine.execXcRsumF32 s
  | .xcRmaxF32 => Sys2Proof.Machine.execXcRmaxF32 s
  | .xcRminF32 => Sys2Proof.Machine.execXcRminF32 s
  | .xcRsumI32 => Sys2Proof.Machine.execXcRsumI32 s
  | .xcRmaxI32 => Sys2Proof.Machine.execXcRmaxI32 s
  | .xcRminI32 => Sys2Proof.Machine.execXcRminI32 s
  | .xcScanF32 => Sys2Proof.Machine.execXcScanF32 s
  | .xcScanI32 => Sys2Proof.Machine.execXcScanI32 s
  | .xcPerm => Sys2Proof.Machine.execXcPerm s
  | .xcRotl => Sys2Proof.Machine.execXcRotl s
  | .xcBcl => Sys2Proof.Machine.execXcBcl s
  | .xcCmpr => Sys2Proof.Machine.execXcCmpr s
  | .xcExpd => Sys2Proof.Machine.execXcExpd s
  | .xcSort => Sys2Proof.Machine.execXcSort s
  | .xcSeg => Sys2Proof.Machine.execXcSeg s
  | .xcSegsumF32 => Sys2Proof.Machine.execXcSegsumF32 s
  | .xcCpy => Sys2Proof.Machine.execXcCpy s
  | .ecWait => Sys2Proof.Machine.execEcWait s
  | .ecTest => Sys2Proof.Machine.execEcTest s
  | .ecTmpl => Sys2Proof.Machine.execEcTmpl s
  | .ckS => Sys2Proof.Machine.execCkS s
  | .ckV => Sys2Proof.Machine.execCkV s
  | .ckVm => Sys2Proof.Machine.execCkVm s
  | .ckG => Sys2Proof.Machine.execCkG s
  | .ckSg => Sys2Proof.Machine.execCkSg s
  | .sysFence => Sys2Proof.Machine.execSysFence s
  | .sysCrd => Sys2Proof.Machine.execSysCrd s
  | .sysCwr => Sys2Proof.Machine.execSysCwr s
  | .sysMld => Sys2Proof.Machine.execSysMld s
  | .sysMst => Sys2Proof.Machine.execSysMst s
  | .sysSnap => Sys2Proof.Machine.execSysSnap s
  | .sysSnapld => Sys2Proof.Machine.execSysSnapld s
  | .sysFreeze => Sys2Proof.Machine.execSysFreeze s
  | .sysThaw => Sys2Proof.Machine.execSysThaw s
  | .sysTlbi => Sys2Proof.Machine.execSysTlbi s
  | .sysHalt => Sys2Proof.Machine.execSysHalt s
  | .sysGrp => Sys2Proof.Machine.execSysGrp s
  | .sysLaunch => Sys2Proof.Machine.execSysLaunch s

end Sys2Proof.Machine
end

