-- ==== Sys2Proof/Machine/Outside.lean ====
section
/-! DEFINITION. What reaches the package from outside with a step (R357, R378, R379, R385, R395), and what the ports and the hub have
still to do (R363, R381, R382) (logs 82, 83, 99). -/

namespace Sys2Proof.Machine

/-! ## The host's functions (R378, R379) -/

/-- A read of a doorbell block: its registers for the queue's own function, 0 for others and elsewhere (R379). -/
def doorbellReads (fn q offset : Nat) (p : Pkg) : Nat :=
  let w := p.queue q
  if w.fn ≠ fn then 0
  else match offset with | 0 => w.tail | 4 => w.head | 8 => w.cplTail | 12 => w.cplHead | _ => 0

/-- Bytes of the MSI-X table, and of the pending bits behind it (R378) (log 99). -/
def vectorByte (fn o : Nat) (p : Pkg) : Byte :=
  if o < 0x4000 then p.vectors.get (16384 * fn + o)
  else if o < 0x4080 then BitVec.ofNat 8 (digits 1 ((List.range 8).map fun i => b2n (p.pendingVec.get (1024 * fn + 8 * (o - 0x4000) + i))))
  else 0

/-- The host masks a vector or unmasks it; one that has waited is sent then (R378, R379) (logs 11, 99). -/
def maskVector (v : Nat) (on : Bool) (p : Pkg) : Pkg :=
  let p := { p with masked := p.masked.set v on }
  if !on && p.pendingVec.get v then emit (.msix (v / 1024) (v % 1024)) { p with pendingVec := p.pendingVec.set v false } else p

/-- A byte of the MSI-X table is written: byte 12 of an entry holds its mask bit (log 99). -/
def writeVector (fn : Nat) (p : Pkg) (c : Host.Cell) : Pkg :=
  if 0x4000 ≤ c.1 then p
  else
    let p := { p with vectors := p.vectors.set (16384 * fn + c.1) c.2 }
    if c.1 % 16 = 12 then maskVector (1024 * fn + c.1 / 16) (c.2.getLsbD 0) p else p

/-- A byte of the memory of the host or of CXL devices (R325) (log 41). -/
def isOuter (k : Nat) : Bool := dpaKind k == 1 || dpaKind k == 2

/-! ## What reaches the package -/

/-- BAR0 is open once step 1 is complete, BAR2 with firmware (R387). -/
def barOpen (bar : Nat) (p : Pkg) : Bool := p.hostUp && (if bar = 0 then true else booted p)

/-- What reaches the package takes effect: the host's accesses, a command processor's write to memory, which its pair's mismatch
suppresses, a read over the management bus, a time master's falling silent (log 99). -/
def receive (o : Outside) (s : State) : State :=
  let p := s.pkg
  let put (p : Pkg) : State := { s with pkg := p }
  match o with
  | .memoryWrite key data => put (writeCells ((cellsAt key data).filter fun c => isOuter c.1) p)
  | .registerRead a =>
    if barOpen 0 p then put (emit (.hostData (some (bytesOf 8 ((regRead a p).getD 0)))) (p.drawn telemetryDraws)) else s
  | .doorbellRead fn q offset =>
    if barOpen 2 p && decide (q < 1024) then put (emit (.hostData (some (bytesOf 4 (doorbellReads fn q offset p)))) p) else s
  | .vectorRead fn offset n =>
    if barOpen 2 p && decide (fn < 64) then put (emit (.hostData (some ((List.range n).map fun i => vectorByte fn (offset + i) p))) p) else s
  | .vectorWrite fn offset data =>
    if barOpen 2 p && decide (fn < 64) then put ((cellsAt offset data).foldl (writeVector fn) p) else s
  | .firmwareStore pair dpa data =>
    if booted p && decide (pair < 2) && !(p.regv 0x04000040).testBit pair then
      put (writeCells ((cellsAt dpa data).filter fun c => isDram c.1) p)
    else s
  | .managementRead which =>
    put (emit (.management (bytesOf 8 (match which with | 0 => regValue 0 p | 1 => regValue 8 p | _ => regValue 0x20 p))) (p.drawn telemetryDraws))
  | .masterSilent source => loseMasters (fun m => m.1 == source) s

/-! ## What is still to be done -/

/-- A place that the hub needs next lies in a failed plane: it joins that plane's record (R363) (log 70). -/
def hubWaits (dtime : Nat) (p : Pkg) : Pkg :=
  if p.failed.isEmpty then p
  else
    let slots := (List.range 1024).filterMap fun q =>
      let w := p.queue q
      if w.enable && w.head != w.tail then some (launchSlot w w.head) else none
    let rings := (if p.faultq.isEmpty then [] else [faultSlot p]) ++ (if p.logq.isEmpty then [] else [eventSlot p])
    (slots ++ rings).foldl (fun p k => joinHub dtime 0 k p) p

/-- A time master sends its time, by choice of the moment (R385). -/
def sendTime (env : Env) (p : Pkg) : Pkg :=
  if bits (p.regv 0x07000008) 12 12 = 1 ∧ Config.freeBool p.fresh then emit (.time env.dtime) (p.drawn 1) else p.drawn 1

/-- What goes on beside an event: the host's accesses, invalidations and completion records that wait, a master's time. -/
def goOn (s : State) : State :=
  if booted s.pkg then
    { s with pkg := sendTime s.env (hubWaits s.env.dtime (settleOwed s.env.dtime (settleAts (serveHost s.pkg)))) }
  else s

/-- What reaches the package with an event (log 99). -/
def nextInput (e : Env) : Option Outside :=
  match e.inputs with
  | o :: _ => o
  | [] => Config.freeInput e.tick

/-- The outside acts with an event, unless the package is held in reset. -/
def outside (s : State) : State :=
  if s.pkg.inReset then s
  else
    let t := goOn s
    let u : State := { t with env := { t.env with inputs := t.env.inputs.tail } }
    match nextInput s.env with
    | some o => receive o u
    | none => u

end Sys2Proof.Machine
end

