-- ==== Sys2Proof/Machine/Schedule.lean ====
section
/-! DEFINITION. What a step adds around the meanings: the passage of time, the choice of the next event, and which rows may
happen as events of their own. -/

namespace Sys2Proof.Machine

/-- Rows that happen by themselves: events of the hub, the engines, the links, the platform and firmware. The other rows
happen only as parts of these: a bundle's landing, branch effect and triggers, an engine command's accesses, a trowel
instruction (log 3). -/
def isEvent : Instr → Bool
  | .contextChoose _ | .quantumExpiry _ | .agingExpiry _ | .sleepWake _ | .waitTimeout _ => true
  | .partBind _ | .kernelImageLoad _ _ | .partEnd _ | .nodeStart _ | .nodeComplete _ | .nodeCommit _ | .recordTake => true
  | .gangProposalReceive _ _ _ | .gangTimeout _ | .gangStartTick _ | .preemptHint _ => true
  | .engineCommandStart _ | .tokenComplete _ | .tileTake _ | .noticeOffer _ | .noticeReoffer _ => true
  | .episodeComplete _ _ _ | .acqwTimeout _ | .buDriveStep _ | .sysRecordWrite _ | .hostAtsInvalidate _ _ => true
  | .faultRecordPost _ | .eventLogAppend | .cpMismatch _ | .correctedError _ => true
  | .repairStepComplete _ | .repairComplete _ | .planeRemapComplete _ | .moveComplete | .moveQuiet => true
  | .skimPage | .skimPassEnd | .hostWindowRead _ _ _ | .hostWindowWrite _ _ _ => true
  | .qTailStore _ _ _ | .qCplHeadStore _ _ _ | .hostLinkDown | .hostPoisonedCompletion _ | .hostPtmRequest _ => true
  | .edgePortFail _ | .ulalmMessageReceive _ _ | .dieLinkFail _ | .timeSyncMessage _ _ => true
  | .resetNRelease _ | .resetNAssert | .powerCapExceed _ | .powerHeadroom _ | .tempHot _ | .tempCool _ | .thermTrip _ => true
  | .cluPwrTransitionEnd _ | .memorySideCacheFillLands _ | .edgePortTrained _ => true
  | .launchCtlWrite _ | .qCtlEnable _ _ | .faultCtlEnable _ | .evlogCtlEnable _ | .faultHeadWrite _ => true
  | .evlogHeadWrite _ | .cpStatClear _ | .nodeAbortRollback _ | .nodeAbortFail _ | .transResolveRetry _ => true
  | .transResolveFail _ | .poisonClr _ | .repairResolveRemap _ | .repairResolveRelease _ | .repairResolveFail _ => true
  | .movePageHoldSet _ | .movePageHoldClear _ | .moveCtlGo _ | .skimCtlGo _ | .spadFailWrite _ _ => true
  | .pkgResetWrite _ | .cluPwrLower _ _ | .cluPwrRaise _ _ | .registerWrite _ _ => true
  | _ => false

/-- The register write that a row is when a command processor makes it: address and value (log 88). -/
def firmwareWrite : Instr → Option (Nat × Nat)
  | .registerWrite a v => some (a, v)
  | .launchCtlWrite v => some (0x03000010, v)
  | .qCtlEnable q v => some (queueReg q 8, v)
  | .qTailStore q v .inside => some (queueReg q 0x10, v)
  | .qCplHeadStore q v .inside => some (queueReg q 0x30, v)
  | .faultCtlEnable v => some (ringReg false 8, v)
  | .faultHeadWrite v => some (ringReg false 0x18, v)
  | .evlogCtlEnable v => some (ringReg true 8, v)
  | .evlogHeadWrite v => some (ringReg true 0x18, v)
  | .cpStatClear v => some (0x04000040, v)
  | .nodeAbortRollback v => some (0x04000048, v)
  | .nodeAbortFail v => some (0x04000048, v)
  | .transResolveRetry v => some (0x02000030, v)
  | .transResolveFail v => some (0x02000030, v)
  | .poisonClr v => some (0x02000038, v)
  | .repairResolveRemap v => some (0x04000068, v)
  | .repairResolveRelease v => some (0x04000068, v)
  | .repairResolveFail v => some (0x04000068, v)
  | .movePageHoldSet v => some (movePage, v)
  | .movePageHoldClear v => some (movePage, v)
  | .moveCtlGo v => some (0x04000078, v)
  | .skimCtlGo v => some (0x04000090, v)
  | .spadFailWrite core v => some (0x04000100 + 8 * core, v)
  | .pkgResetWrite v => some (0x10, v)
  | .cluPwrLower k v => some (cluPwr k, v)
  | .cluPwrRaise k v => some (cluPwr k, v)
  | _ => none

/-- Rows that may happen before bring-up has completed its last step (R387, R394, R395). -/
def early : Instr → Bool
  | .resetNAssert => true
  | .tempHot _ => true
  | .tempCool _ => true
  | .thermTrip _ => true
  | .hostLinkDown => true
  | _ => false

/-- The event may happen: in reset only its release; before bring-up's last step no part of the package works; a command
processor's write needs a pair that has not met a mismatch, but for the write by which a pair that has been reset clears its bit, and is
the row that its register's write is (R357, R359, R387) (log 88). -/
def eventAllowed (p : Pkg) (i : Instr) : Bool :=
  if p.inReset then (match i with | .resetNRelease _ => true | _ => false)
  else if !booted p then early i
  else match firmwareWrite i with
    | some w => hasReg w.1 && (bits (p.regv 0x04000040) 1 0 != 3 || w.1 == 0x04000040) &&
        (match i with | .registerWrite _ _ => true | _ => writeRow w.1 w.2 p == i)
    | none => true

/-- What happens with an event before it: the outside acts, and a command processor's register write is on its way to the event log
(R358). -/
def announce (i : Instr) (s : State) : State :=
  let t := outside s
  match firmwareWrite i with
  | some w => { t with pkg := logEvent ⟨t.env.dtime, 6, w.1, w.2⟩ t.pkg }
  | none => t

/-- An amount of device time at a rate that a correction in ppm changes (R385). -/
def steered (n : Nat) (ppm : Int) : Nat := ((n : Int) * (1000000 + ppm) / 1000000).toNat

/-- Time as it stands when the next event happens: both measures pass by amounts the spec leaves open (R2, R7, R46), device time at its
corrected rate (log 94). -/
def advance (e : Env) : Env :=
  { e with dtime := e.dtime + steered (Config.freeTime e.tick) e.steer, clock := e.clock + Config.freeClock e.tick, tick := e.tick + 1,
           schedule := e.schedule.tail }

/-- The event that happens next (log 94). -/
def nextEvent (e : Env) : Instr :=
  match e.schedule with
  | i :: _ => i
  | [] => Config.freeEvent e.tick

/-- The trowel word at a channel's program counter. -/
def trowelWord (p : Pkg) (ch : Nat) : BitVec 32 := (p.chans.get ch).prog.getD (p.chans.get ch).pc 0

end Sys2Proof.Machine
end

