-- ==== Sys2Proof/Machine/Step.lean ====
section
/-! DEFINITION. One step of the machine, and the placing of one instruction where a step fetches it. -/

namespace Sys2Proof.Machine

/-- One step: the next part of the indivisible step under way, or the next event. The two fetches are those of a bundle at
a context's program counter (R73) and of a trowel instruction at its channel's (R264). -/
def step (s : State) : Host.Outcome State Fault Refusal :=
  match s.pkg.micro with
  | m :: rest =>
    let s := { s with pkg := { s.pkg with micro := rest } }
    match m with
    | .run i => exec i s
    | .fire f i => exec i { s with pkg := { s.pkg with fire := f } }
    | .issue f unit op tmpl => .next { s with pkg := issueNow s.env f unit op tmpl s.pkg }
    | .bundle x => exec (.bundleIssue x (s.pkg.fetchBundle x (s.pkg.c x).pc)) s
    | .trowel ch =>
      match decodeTrowel (trowelWord s.pkg ch) with
      | .ok i => exec i { s with pkg := { s.pkg with focus := ch } }
      | .error _ => .fault .reservedTrowelWord
  | [] =>
    let i := nextEvent s.env
    let s := { s with env := advance s.env }
    if isEvent i && eventAllowed s.pkg i then exec i (announce i s) else .next s

/-- The state with an instruction placed where the next step fetches it. A trowel word is the program of channel 0, which is
in broadcast compute mode and takes an idle step; a bundle stands at the program counter of context 0 (log 60). -/
def State.withFetchWord (s : State) (nbits w : Nat) : State :=
  if nbits = 32 then
    let ch := { s.pkg.chans.get 0 with
      mode := some ((s.pkg.chans.get 0).mode.getD 0), prog := [BitVec.ofNat 32 w], pc := 0, halted := false,
      step := some { kind := 0, slot := 0, burst := 0, cmd := 0 } }
    { s with pkg := { s.pkg with chans := s.pkg.chans.set 0 ch, micro := [.trowel 0] } }
  else
    let k := s.pkg.k 0
    let pc := (s.pkg.c 0).pc
    let p := s.pkg.setK 0 { k with spad := k.spad.setMany pc (bytesOf 32 w), stale := [], poison := k.poison.set (pc / 64) false }
    let p := p.modC 0 fun c => { c with phase := .running, flight := [] }
    { s with pkg := { p with micro := [.bundle 0] } }

end Sys2Proof.Machine
end

