-- ==== Sys2Proof/Safety.lean ====
section
/-! DEFINITION. Safe runs, and the terms in which the claims speak of a step: what it leaves alone, and what is in flight. -/

namespace Sys2Proof

open Machine

/-! ## Safe runs -/

/-- A step from the state answers a next state. -/
def Safe (s : State) : Prop := ∃ t, step s = .next t

/-- The state after `n` steps, when each of them goes on. -/
def Runs (n : Nat) (s t : State) : Prop := core.run n s = .next t

/-! ## What is left alone -/

/-- Every byte of device memory (R325) and of the side slots (R15), and every byte, tag, accumulator word and line bit of every
core (R70, R77), reads in `q` as in `p`. -/
structure SameStorage (p q : Pkg) : Prop where
  mem   : ∀ a, q.mem.get a = p.mem.get a
  side  : ∀ a, q.side.get a = p.side.get a
  spad  : ∀ n a, (q.k n).spad.get a = (p.k n).spad.get a
  tags  : ∀ n w, (q.k n).tags.get w = (p.k n).tags.get w
  acc   : ∀ n i, (q.k n).acc.get i = (p.k n).acc.get i
  lines : ∀ n l, (q.k n).lines.get l = (p.k n).lines.get l

/-- Every register of a context reads in `d` as in `c`: the general, vector, predicate and mask registers, the context
registers with flags, loop counters, trap registers and scale (R128), the result ports (R127), the tokens and the templates. -/
structure SameRegs (c d : Ctx) : Prop where
  s     : ∀ n, d.s.get n = c.s.get n
  v     : ∀ n, d.v.get n = c.v.get n
  p     : d.p = c.p
  m     : ∀ n, d.m.get n = c.m.get n
  creg  : ∀ code, d.cr code = c.cr code
  rport : ∀ code, d.rport.get code = c.rport.get code
  vport : ∀ code, d.vport.get code = c.vport.get code
  tokens : ∀ k, d.tokens.get k = c.tokens.get k
  tmpl  : ∀ k, d.tmpl.get k = c.tmpl.get k

/-- From `s` to `t` nothing has changed but the entries that context x has in flight and the count of free values drawn: time,
storage, every other context, every register of x with its state and its next address, cores, commands, nodes, device
registers and records are as they were. -/
structure OnlyFlight (x : Nat) (s t : State) : Prop where
  env     : t.env = s.env
  storage : SameStorage s.pkg t.pkg
  others  : ∀ y, y ≠ x → t.pkg.c y = s.pkg.c y
  regs    : SameRegs (s.pkg.c x) (t.pkg.c x)
  pc      : (t.pkg.c x).pc = (s.pkg.c x).pc
  phase   : (t.pkg.c x).phase = (s.pkg.c x).phase
  cores   : t.pkg.core = s.pkg.core
  cmds    : t.pkg.cmds = s.pkg.cmds
  nodes   : t.pkg.nodes = s.pkg.nodes
  reg     : t.pkg.reg = s.pkg.reg
  records : t.pkg.faultq = s.pkg.faultq
  held    : t.pkg.held = s.pkg.held

/-- From `s` to `t` context x has taken an S-class trap (R307, R308): it is frozen with the cause `why`, in the state it left, its
next address `next`, its entries still in flight and its watchdog cleared; a record of kind 3 is on its way; all else is as it was. -/
structure TrappedS (x why tpc lpc next : Nat) (s t : State) : Prop where
  env      : t.env = s.env
  storage  : SameStorage s.pkg t.pkg
  others   : ∀ y, y ≠ x → t.pkg.c y = s.pkg.c y
  regs     : SameRegs (s.pkg.c x) (t.pkg.c x)
  phase    : (t.pkg.c x).phase = .frozen
  left     : (t.pkg.c x).left = (s.pkg.c x).phase
  cause    : (t.pkg.c x).cause = why
  pc       : (t.pkg.c x).pc = next
  flight   : (t.pkg.c x).flight = (s.pkg.c x).flight
  watchdog : (t.pkg.c x).watchdog = 0
  issue    : (t.pkg.k (coreOf x)).running ≠ some x
  record   : t.pkg.faultq = s.pkg.faultq ++
    [{ source := x, time := s.env.dtime, kind := 3, flags := 2, code := why, node := s.pkg.nodeId x, asid := (s.pkg.c x).asid,
       pcore := x / 4, ctx := x % 4, tpc := tpc, lpc := lpc }]

/-- From `s` to `t` context x has taken a U-class trap at the bundle `tpc` (R37, R309): c.tpc and c.tinfo are written, its next bundle is
the handler's, no redirection is pending any more, and every other register, context and all storage are as before. -/
structure TrappedU (x tpc tinfo : Nat) (s t : State) : Prop where
  env      : t.env = s.env
  tpc      : ((t.pkg.c x).cr 0x0DA).toNat = tpc
  tinfo    : ((t.pkg.c x).cr 0x0D9).toNat = tinfo
  pc       : (t.pkg.c x).pc = (s.pkg.c x).tvec
  watchdog : (t.pkg.c x).watchdog = 0
  cut      : ∀ e ∈ (t.pkg.c x).flight, redirects e = false
  flight   : (t.pkg.c x).flight.map (·.fixed) = (s.pkg.c x).flight.map (·.fixed)
  creg     : ∀ code, code ≠ 0x0DA → code ≠ 0x0D9 → (t.pkg.c x).cr code = (s.pkg.c x).cr code
  sreg     : ∀ n, (t.pkg.c x).s.get n = (s.pkg.c x).s.get n
  vreg     : ∀ n, (t.pkg.c x).v.get n = (s.pkg.c x).v.get n
  preg     : (t.pkg.c x).p = (s.pkg.c x).p
  mreg     : ∀ n, (t.pkg.c x).m.get n = (s.pkg.c x).m.get n
  others   : ∀ y, y ≠ x → t.pkg.c y = s.pkg.c y
  storage  : SameStorage s.pkg t.pkg

/-! ## What is in flight -/

/-- Context x has come by one more entry in flight (R43); its place among the triggers is the context's next one. -/
def inFlight (x : Nat) (e : Entry) (s : State) : State := { s with pkg := addEntry x e s.pkg }

/-- A result on its way to a unit's ports: it lands `l` issue cycles after its trigger (R43, R127), with the flags it raises. -/
def landing (unit op l : Nat) (r : Option Val) (h : Option Vec) (flags : Lane) : Entry :=
  { unit := unit, op := op, left := l, order := 0, kind := .result, r := r, h := h, flags := flags }

/-- Unit f's trigger at hand puts this entry of its context in flight, and does nothing else. -/
def Triggers (i : Instr) (s : State) (e : Entry) : Prop := exec i s = .next (inFlight s.pkg.fire.ctx e s)

/-- The free values that an access of a context may take have been drawn. -/
def draws (x : Nat) (s t : State) : State := { t with pkg := t.pkg.drawn (accessDraws s.pkg x) }

/-! ## Engine commands -/

/-- The rows of the table that are engine commands, but for the kick, each with the accesses that the command makes. -/
def engineRows : List ((Cmd → Instr) × (Cmd → Eng Unit)) :=
  [(.ecCopy, ecCopyWork), (.ecCopyl, ecCopylWork), (.ecRetile, ecRetileWork), (.ecPull, ecPullWork), (.ecAmo, ecAmoWork),
   (.ecAmor, ecAmorWork), (.ecAcq, ecAcqWork), (.ecAcqw, ecAcqwWork), (.ecRel, ecRelWork), (.ecBind, ecBindWork),
   (.ecUnbind, ecUnbindWork), (.ecBar, ecBarWork), (.ecColl, ecCollWork), (.ecPref, ecPrefWork), (.ecStampw, ecStampwWork),
   (.ecFenceE, ecFenceEWork), (.ecxWld, ecxWldWork), (.ecxMx, ecxMxWork), (.ecxMxs, ecxMxsWork), (.ecxMxsel, ecxMxselWork),
   (.ecxSwap, ecxSwapWork), (.ecxCbt, ecxCbtWork), (.ecxKvapp, ecxKvappWork), (.ecxKvsel, ecxKvselWork), (.ecxKvtrunc, ecxKvtruncWork),
   (.ecxKvfork, ecxKvforkWork), (.ecxSig, ecxSigWork), (.ecxSigld, ecxSigldWork), (.ecxBuLoad, ecxBuLoadWork), (.ecxBuMode, ecxBuModeWork),
   (.ecxBuDrive, ecxBuDriveWork), (.ecxChk, ecxChkWork)]

/-- Every access that a command makes is accepted: `w` is what they come to. -/
def Accepted (body : Eng Unit) (c : Cmd) (s : State) (w : Work) : Prop := body ⟨s.env, c⟩ (Work.of s.pkg c.id) = .ok () w

/-- A command none of whose accesses has been made and whose next step makes them all (log 25): it has written nothing, has read no region's record and has no status. -/
structure Fresh (m : Command) : Prop where
  whole  : m.whole = true
  log    : m.log = []
  parts  : m.parts = []
  leaves : m.leaves = []
  writes : m.writes = []
  stamp  : m.stamp = none
  region : m.region = none
  status : m.status = 0
  phase  : m.phase ≠ .arrived

/-- An address is served plainly to a command: every walk of its page, by the tables and by what the walkers have cached, gives one
leaf of bonded DRAM (R327, R329, R332), writable and dirty, not retired (R94), not held (R364), not staged (R349); and its place
is on no failed plane (R363), at no repair (R93) and in sound sectors (R352) for eight bytes from it on. -/
structure Served (p : Pkg) (c : Cmd) (va k : Nat) (l : Leaf) : Prop where
  range    : va < 2 ^ 56
  walk     : walk p c.asid va = .leaf l
  cached   : ∀ w ∈ cachedWalks p c.asid va, w = .leaf l
  kind     : leafKind l.entry ≠ 3
  state    : leafState l.entry ≠ 2
  writable : bits l.entry 4 4 = 1
  dirty    : bits l.entry 5 5 = 1
  free     : Eng.moveHold p c.asid va = false
  unstaged : Eng.inOutput p c.node va = false
  place    : leafPlace p l va = k
  dram     : isDram k = true
  plane    : Eng.failedAt p k = none
  repair   : Eng.pendingAt p k = false
  sound    : ∀ i < 8, p.badSector.get ((k + i) / 32) = false

/-- The leaf that the tables give an address, and its place. -/
def pageLeaf (p : Pkg) (asid va : Nat) : Leaf := match walk p asid va with | .leaf l => l | _ => {}
def placeOf (p : Pkg) (asid va : Nat) : Nat := leafPlace p (pageLeaf p asid va) va

/-- Every address of a range is served plainly. -/
def Serves (p : Pkg) (c : Cmd) (va n : Nat) : Prop :=
  ∀ a, va ≤ a → a < va + n → Served p c a (placeOf p c.asid a) (pageLeaf p c.asid a)

/-- The bytes of device memory from a virtual address on. -/
def bytesAt (p : Pkg) (asid va n : Nat) : List Byte := (List.range n).map fun i => p.mem.get (placeOf p asid (va + i))

/-- The writes of bytes to device memory from a virtual address on: one for each sector (R98). -/
def granuleWrites (p : Pkg) (asid va : Nat) (bs : List Byte) : List PWrite :=
  (Eng.blocks 32 va bs.length).map fun q => .dev (some q.1) false (cellsAt (placeOf p asid q.1) ((bs.drop (q.1 - va)).take q.2))

/-- The columned region of a command's ASID at an address, whose record and slot can be read (R89, R335, R352). -/
structure RegionAt (p : Pkg) (c : Cmd) (base : Nat) (r : Shape) : Prop where
  region : regionAt p c.asid base = some r
  slot   : ∀ s, findSlot p c.asid = some s → badTable p s.at_ = none
  record : badTable p r.at_ = none

/-- A core whose cluster is on, with no poisoned codeword in its scratchpad. -/
def Clean (p : Pkg) (core : Nat) : Prop := p.powerOf core = 0 ∧ ∀ z, (p.k core).poison.get z = false

/-- The bytes of its core's scratchpad that a command reads from a local address on (R74, R191); where nothing orders a store
the model's free values choose (log 2). -/
def localBytes (p : Pkg) (c : Cmd) (a n : Nat) : List Byte := (List.range n).map fun i => BitVec.ofNat 8
  ((Eng.engineWord p (p.cmd c.id) (decide (spadSize ≤ a)) (Eng.spadByte (a + i) / 4)).toNat / 256 ^ (Eng.spadByte (a + i) % 4))

/-- A command has started and completes with a status once what is left to write has been written. -/
structure Started (m : Command) (status : Nat) (writes late : List PWrite) : Prop where
  phase  : m.phase = .started
  status : m.status = status
  writes : m.writes = writes
  late   : m.late = late
  stamp  : m.stamp = none

/-- A command's row starts it with a status, the writes left to perform and the late ones, changes no storage, and leaves a package with
`f`. -/
def Ends (i : Instr) (c : Cmd) (s : State) (status : Nat) (writes late : List PWrite) (f : Pkg → Prop) : Prop :=
  ∃ t, exec i s = .next t ∧ Started (t.pkg.cmd c.id) status writes late ∧ SameStorage s.pkg t.pkg ∧ f t.pkg

/-- Writes of device memory and of side slots which, performed in whatever order, turn its bytes as they stand into those given. -/
structure Turns (p : Pkg) (ws : List PWrite) (mem side : Nat → Byte) : Prop where
  exact : ∀ w ∈ ws, (∃ va priv cells, w = .dev va priv cells ∧ ∀ b ∈ cells, b.2 = mem b.1) ∨
    ∃ va cells, w = .side va none cells ∧ ∀ b ∈ cells, b.2 = side b.1
  mem   : ∀ z, mem z = p.mem.get z ∨ ∃ va priv cells, .dev va priv cells ∈ ws ∧ (z, mem z) ∈ cells
  side  : ∀ z, side z = p.side.get z ∨ ∃ va cells, .side va none cells ∈ ws ∧ (z, side z) ∈ cells

/-- The storage that a write of a node's command leaves, performed whole (R71, R74, R98, R101, R205, R227): bytes of device memory, of a
page's stage page (R349) and of side slots, words of a scratchpad with their tags, bytes and words of an accumulator with full bits, an
entry of a codebook table, an element with its contribution applied. -/
def written (node : Nat) (w : PWrite) (p : Pkg) : Pkg :=
  let stage (va : Nat) : Nat := (Eng.stageOf p node va).getD 0
  match w with
  | .dev _ _ cells => { p with mem := p.mem.setCells cells }
  | .staged _ cells =>
    { p with mem := p.mem.setCells (cells.map fun c => (Eng.stagePlace p (stage (cells.headD (0, 0)).1) c.1, c.2)) }
  | .side _ none cells => { p with side := p.side.setCells cells }
  | .side va (some _) cells =>
    let k := Eng.stagePlace p (stage (va.getD 0)) (va.getD 0)
    { p with side := p.side.setCells (cells.map fun c => (sideAt (dpaTile k) (dpaPlane k) + c.1, c.2)) }
  | .spad core cells full => engineWrite core cells full p
  | .code core cells full => engineWrite core cells full p
  | .cbt e v => { p with cbt := p.cbt.set e v }
  | .accBytes core cells => p.modK core fun k => { k with acc := cells.foldl (fun m c => m.modify (c.1 / 4) fun w =>
      BitVec.ofNat 32 (setBits w.toNat (8 * (c.1 % 4) + 7) (8 * (c.1 % 4)) c.2.toNat)) k.acc }
  | .acc core add words lines => p.modK core fun k =>
    { k with acc := words.foldl (fun m q => m.modify q.1 fun old => accStore add old q.2) k.acc
             lines := lines.foldl (fun m l => m.set l true) k.lines }
  | .amo va stage' _ key type op v =>
    let n := atomicBytes type
    let at_ := if stage'.isSome then Eng.stagePlace p (stage va) va else key
    { p with mem := p.mem.setCells (cellsAt at_ (bytesOf n (atomicNew op type (natOf (p.mem.getMany at_ n)) (v.toNat % 2 ^ (8 * n)) 0).1)) }
  | .remote _ _ _ => p

/-- The core whose storage a write is to, and the address in an output region by which it finds its stage page. -/
def writeCore : PWrite → Option Nat
  | .spad n _ _ => some n
  | .code n _ _ => some n
  | .accBytes n _ => some n
  | .acc n _ _ _ => some n
  | _ => none
def writeStage : PWrite → Option Nat
  | .staged _ cells => some (cells.headD (0, 0)).1
  | .side va (some _) _ => some (va.getD 0)
  | .amo va (some _) _ _ _ _ _ => some va
  | _ => none
def isContribution : PWrite → Bool
  | .amo _ _ _ _ _ _ _ => true
  | _ => false

/-- A write that is performed as it stands: its planes serve accesses (R93, R363), its core's cluster is on (R391), it stays in the package,
a word that it adds to is correctable (R229), its page of an output region has a stage page (R349), and no other command contributes to
its element (R119). -/
structure Sound (p : Pkg) (id : Nat) (w : PWrite) : Prop where
  planes : ∀ k ∈ placesOf p (p.cmd id).cmd.node w, Eng.failedAt p k = none ∧ Eng.pendingAt p k = false
  core   : ∀ n, writeCore w = some n → p.powerOf n = 0
  here   : ∀ k n cells, w ≠ .remote k n cells
  adds   : ∀ n add words lines, w = .acc n add words lines → add ≠ 0 → ∀ q ∈ words, (p.k n).badAcc.get q.1 = false
  staged : ∀ va, writeStage w = some va → (Eng.stageOf p (p.cmd id).cmd.node va).isSome
  only   : isContribution w = true → ∀ e ∈ p.allCmds, e.cmd.id ≠ id → ∀ x ∈ e.writes, isContribution x = false

/-- A sequence descriptor that is served plainly and breaks none of the ranges of R240. -/
structure Described (p : Pkg) (c : Cmd) (a : Nat) (d : Desc) : Prop where
  align  : a % 256 = 0
  served : Serves p c a 256
  desc   : d = descOf a (bytesAt p c.asid a 256)
  ok     : descOk (bytesAt p c.asid a 256) d = true

/-- A head-table entry that is served plainly and breaks none of the ranges of R242. -/
structure Headed (p : Pkg) (c : Cmd) (d : Desc) (h : Nat) : Prop where
  served : Serves p c (d.htab + 32 * h) 32
  opool  : field (bytesAt p c.asid (d.htab + 32 * h) 32) 0 8 % 64 = 0
  used   : field (bytesAt p c.asid (d.htab + 32 * h) 32) 12 4 ≤ field (bytesAt p c.asid (d.htab + 32 * h) 32) 8 4
  mode   : field (bytesAt p c.asid (d.htab + 32 * h) 32) 20 1 ≤ 2
  dense  : field (bytesAt p c.asid (d.htab + 32 * h) 32) 21 1 ≤ 1
  vhr    : field (bytesAt p c.asid (d.htab + 32 * h) 32) 23 1 ≤ 7
  zero   : field (bytesAt p c.asid (d.htab + 32 * h) 32) 24 8 = 0

/-- Entries of the inverted page table that lookups may meet: each lies in bonded DRAM, on no failed plane (R363), at no repair (R93)
and in no uncorrectable sector (R352), and none has a reserved bit set (R6). -/
def SoundIpt (p : Pkg) (es : List Ipt) : Prop := ∀ e ∈ es, isDram e.at_ = true ∧ Eng.failedAt p e.at_ = none ∧
  Eng.pendingAt p e.at_ = false ∧ p.badSector.get (e.at_ / 32) = false ∧ (e.valid = true → e.reserved = 0)

/-- An entry has the key of a page of a block (R239). -/
def iptKey (asid seg block hg : Nat) (e : Ipt) : Bool :=
  e.valid && e.asid == asid && e.seg == seg && e.block == block && e.hg == hg

/-- The table counts a page of a block, in its bucket (R239). -/
structure Counted (p : Pkg) (asid seg block hg : Nat) (x : Ipt) : Prop where
  sound : SoundIpt p (iptBucket p asid seg block hg)
  found : (iptBucket p asid seg block hg).find? (iptKey asid seg block hg) = some x

/-- The table counts no page of a block, neither in its bucket nor in the overflow area (R239). -/
structure Uncounted (p : Pkg) (asid seg block hg : Nat) : Prop where
  sound : SoundIpt p (iptBucket p asid seg block hg ++ iptOverflow p)
  found : ∀ e ∈ iptBucket p asid seg block hg ++ iptOverflow p, iptKey asid seg block hg e = false

end Sys2Proof
end

