-- ==== Sys2Proof/Certificates/Slice0/Obligations.lean ====
section
/-! DEFINITION. The statements made of the machine, each as a proposition. -/

open Sys2Proof Sys2Proof.Machine

/-! ## The integer units -/

/-- R143: what each operation of sa0 and sa1 puts on its way to the unit's r port, one issue cycle after its trigger, for all
operands A (o1), D (o2), C (o3) and B (the trigger's value). Arithmetic is stated over the integers the words stand for. -/
def Obligations.IntegerResults : Prop :=
  ∀ s : State,
    let a := s.pkg.fire.a.toS
    let b := s.pkg.fire.b.toS
    let c := s.pkg.fire.c.toS
    let d := s.pkg.fire.d.toS
    let sh := b.toNat % 64
    let w := if a.toNat % 128 = 0 ∨ 64 < a.toNat % 128 then 64 else a.toNat % 128
    let lo := b.toNat % 64
    let fw := min (b.toNat / 64 % 64 + 1) (64 - lo)
    let r (i : Instr) (op : Nat) (x : Word) : Prop := Triggers i s (landing (b2n s.pkg.fire.alt) op 1 (some (.s x)) none 0)
    let bool (i : Instr) (op : Nat) (q : Prop) : Prop := (q → r i op 1) ∧ (¬q → r i op 0)
    r .saAdd 0 (BitVec.ofNat 64 (a.toNat + b.toNat)) ∧
    r .saSub 1 (BitVec.ofInt 64 (a.toInt - b.toInt)) ∧
    r .saAnd 2 (a &&& b) ∧ r .saOr 3 (a ||| b) ∧ r .saXor 4 (a ^^^ b) ∧ r .saAndn 5 (a &&& ~~~b) ∧
    r .saShl 6 (BitVec.ofNat 64 (a.toNat * 2 ^ sh)) ∧
    r .saShr 7 (BitVec.ofNat 64 (a.toNat / 2 ^ sh)) ∧
    r .saSra 8 (BitVec.ofInt 64 (a.toInt / 2 ^ sh)) ∧
    r .saRol 9 (BitVec.ofNat 64 (a.toNat * 2 ^ sh + a.toNat / 2 ^ (64 - sh))) ∧
    r .saMinI 10 (BitVec.ofInt 64 (min a.toInt b.toInt)) ∧
    r .saMaxI 11 (BitVec.ofInt 64 (max a.toInt b.toInt)) ∧
    r .saMinN 12 (BitVec.ofNat 64 (min a.toNat b.toNat)) ∧
    r .saMaxN 13 (BitVec.ofNat 64 (max a.toNat b.toNat)) ∧
    bool .saEq 14 (a = b) ∧ bool .saNe 15 (a ≠ b) ∧
    bool .saLtI 16 (a.toInt < b.toInt) ∧ bool .saLtN 17 (a.toNat < b.toNat) ∧
    bool .saLeI 18 (a.toInt ≤ b.toInt) ∧ bool .saLeN 19 (a.toNat ≤ b.toNat) ∧
    (c ≠ 0 → r .saSel 20 a) ∧ (c = 0 → r .saSel 20 b) ∧
    r .saPass 21 b ∧
    r .saSxt 22 (BitVec.ofInt 64 (if b.toNat % 2 ^ w < 2 ^ (w - 1) then b.toNat % 2 ^ w else (b.toNat % 2 ^ w : Int) - 2 ^ w)) ∧
    r .saZxt 23 (BitVec.ofNat 64 (b.toNat % 2 ^ w)) ∧
    (b = 0 → r .saClz 24 64 ∧ r .saCtz 25 64) ∧
    (∀ n < 64, 2 ^ (63 - n) ≤ b.toNat → b.toNat < 2 ^ (64 - n) → r .saClz 24 (BitVec.ofNat 64 n)) ∧
    (∀ n < 64, b.getLsbD n → (∀ m < n, !b.getLsbD m) → r .saCtz 25 (BitVec.ofNat 64 n)) ∧
    r .saPopc 26 (BitVec.ofNat 64 ((List.range 64).filter b.getLsbD).length) ∧
    (∀ x : Word, (∀ i < 64, x.getLsbD i = b.getLsbD (63 - i)) → r .saBrev 27 x) ∧
    r .saAddsh 28 (BitVec.ofNat 64 (a.toNat + b.toNat * 2 ^ (c.toNat % 64))) ∧
    (∀ x : Word, (∀ i < 64, x.getLsbD i = (if i < fw then a.getLsbD (lo + i) else b.getLsbD 12 && a.getLsbD (lo + fw - 1))) →
      r .saBfx 29 x) ∧
    (∀ x : Word, (∀ i < 64, x.getLsbD i = (if lo ≤ i ∧ i < lo + fw then d.getLsbD (i - lo) else a.getLsbD i)) → r .saBfi 30 x)

/-- R144: what each operation of sm puts on its way to sm.r and sm.h, three issue cycles after its trigger, or eighteen for a
division, for all operands. -/
def Obligations.ProductsAndQuotients : Prop :=
  ∀ s : State,
    let a := s.pkg.fire.a.toS
    let b := s.pkg.fire.b.toS
    let c := s.pkg.fire.c.toS
    let r (i : Instr) (op l : Nat) (x y : Int) : Prop :=
      Triggers i s (landing 2 op l (some (.s (BitVec.ofInt 64 x))) (some ((BitVec.ofInt 64 y).setWidth 4096)) 0)
    r .smMul 0 3 (a.toNat * b.toNat : Nat) 0 ∧
    r .smMulhI 1 3 (a.toInt * b.toInt / 2 ^ 64) 0 ∧
    r .smMulhN 2 3 (a.toNat * b.toNat / 2 ^ 64 : Nat) 0 ∧
    r .smMad 3 3 (a.toNat * b.toNat + c.toNat : Nat) 0 ∧
    r .smMulwI 4 3 (a.toInt * b.toInt) (a.toInt * b.toInt / 2 ^ 64) ∧
    r .smMulwN 5 3 (a.toNat * b.toNat : Nat) (a.toNat * b.toNat / 2 ^ 64 : Nat) ∧
    (b = 0 → r .smDivI 6 18 (-1) 0 ∧ r .smDivN 7 18 (-1) 0 ∧ r .smRemI 8 18 a.toInt 0 ∧ r .smRemN 9 18 a.toInt 0) ∧
    (b ≠ 0 → r .smDivI 6 18 (a.toInt.tdiv b.toInt) 0 ∧ r .smRemI 8 18 (a.toInt - a.toInt.tdiv b.toInt * b.toInt) 0 ∧
      r .smDivN 7 18 (a.toNat / b.toNat : Nat) 0 ∧ r .smRemN 9 18 (a.toNat % b.toNat : Nat) 0)

/-! ## The vector units -/

/-- R168: lane by lane, what each operation of vi puts on its way to vi.r, two issue cycles after its trigger, four for
`mul.i32`, with no flag. A mask that reaches a vector is all-ones or all-zero lanes, and a vector that reaches a mask register is
the bits of its lanes that are not 0. -/
def Obligations.IntegerLanes : Prop :=
  ∀ s : State,
    let a := s.pkg.fire.a.toV
    let b := s.pkg.fire.b.toV
    let c := s.pkg.fire.c.toV
    let r (i : Instr) (op l : Nat) (lane : Nat → Lane) : Prop :=
      ∃ v : Vec, (∀ j < 128, v.lane j = lane j) ∧ Triggers i s (landing 8 op l (some (.v v)) none 0)
    let mask (q : Prop) [Decidable q] : Lane := if q then 0xFFFFFFFF else 0
    let half (f : BitVec 16 → BitVec 16 → BitVec 16) (x y : Lane) : Lane :=
      f (x.extractLsb' 16 16) (y.extractLsb' 16 16) ++ f (x.extractLsb' 0 16) (y.extractLsb' 0 16)
    let byte (x : Lane) (k : Nat) : Int := (x.extractLsb' (8 * k) 8).toInt
    let set := (List.range 128).filter fun j => b.lane j ≠ 0
    r .viAddI32 0 2 (fun j => a.lane j + b.lane j) ∧ r .viSubI32 1 2 (fun j => a.lane j - b.lane j) ∧
    r .viMulI32 2 4 (fun j => a.lane j * b.lane j) ∧
    r .viAnd 3 2 (fun j => a.lane j &&& b.lane j) ∧ r .viOr 4 2 (fun j => a.lane j ||| b.lane j) ∧
    r .viXor 5 2 (fun j => a.lane j ^^^ b.lane j) ∧ r .viAndn 6 2 (fun j => a.lane j &&& ~~~(b.lane j)) ∧
    r .viShl 7 2 (fun j => BitVec.ofNat 32 ((a.lane j).toNat * 2 ^ ((b.lane j).toNat % 32))) ∧
    r .viShr 8 2 (fun j => BitVec.ofNat 32 ((a.lane j).toNat / 2 ^ ((b.lane j).toNat % 32))) ∧
    r .viSra 9 2 (fun j => BitVec.ofInt 32 ((a.lane j).toInt / 2 ^ ((b.lane j).toNat % 32))) ∧
    r .viMinI32 10 2 (fun j => BitVec.ofInt 32 (min (a.lane j).toInt (b.lane j).toInt)) ∧
    r .viMaxI32 11 2 (fun j => BitVec.ofInt 32 (max (a.lane j).toInt (b.lane j).toInt)) ∧
    r .viMinN32 12 2 (fun j => BitVec.ofNat 32 (min (a.lane j).toNat (b.lane j).toNat)) ∧
    r .viMaxN32 13 2 (fun j => BitVec.ofNat 32 (max (a.lane j).toNat (b.lane j).toNat)) ∧
    r .viEqI32 14 2 (fun j => mask (a.lane j = b.lane j)) ∧
    r .viLtI32 15 2 (fun j => mask ((a.lane j).toInt < (b.lane j).toInt)) ∧
    r .viLtN32 16 2 (fun j => mask ((a.lane j).toNat < (b.lane j).toNat)) ∧
    r .viSel 17 2 (fun j => if c.lane j ≠ 0 then a.lane j else b.lane j) ∧
    r .viBc 18 2 (fun j => a.lane (16 * (j / 16) + (b.lane 0).toNat % 16)) ∧
    r .viIota 19 2 (fun j => b.lane 0 + BitVec.ofNat 32 j) ∧
    r .viAddI16 20 2 (fun j => half (· + ·) (a.lane j) (b.lane j)) ∧
    r .viSubI16 21 2 (fun j => half (· - ·) (a.lane j) (b.lane j)) ∧
    (∃ v : Vec, (∀ j < 128, ∀ k < 4, byte (v.lane j) k = max (-128) (min 127 (byte (a.lane j) k + byte (b.lane j) k))) ∧
      Triggers .viAddsI8 s (landing 8 22 2 (some (.v v)) none 0)) ∧
    r .viMand 23 2 (fun j => mask (a.lane j ≠ 0 ∧ b.lane j ≠ 0)) ∧ r .viMor 24 2 (fun j => mask (a.lane j ≠ 0 ∨ b.lane j ≠ 0)) ∧
    r .viMxor 25 2 (fun j => mask (¬(a.lane j ≠ 0 ↔ b.lane j ≠ 0))) ∧ r .viMnot 26 2 (fun j => mask (b.lane j = 0)) ∧
    r .viMpop 27 2 (fun _ => BitVec.ofNat 32 set.length) ∧ r .viMfirst 28 2 (fun _ => BitVec.ofNat 32 (set.headD 128)) ∧
    r .viMlast 29 2 (fun _ => BitVec.ofNat 32 (set.getLastD 128)) ∧
    r .viPopcI32 30 2 (fun j => BitVec.ofNat 32 ((List.range 32).filter (b.lane j).getLsbD).length) ∧
    (∃ v : Vec, Triggers .viClzI32 s (landing 8 31 2 (some (.v v)) none 0) ∧
      ∀ j < 128, (b.lane j = 0 → v.lane j = 32) ∧
        ∀ n < 32, 2 ^ (31 - n) ≤ (b.lane j).toNat → (b.lane j).toNat < 2 ^ (32 - n) → v.lane j = BitVec.ofNat 32 n) ∧
    (∀ m : Mask, ∀ j < 128, (Val.toV (.m m)).lane j = if m.getLsbD j then 0xFFFFFFFF else 0) ∧
    ∀ v : Vec, ∀ j < 128, (Val.toM (.v v)).getLsbD j = decide (v.lane j ≠ 0)

/-- R164 to R167: lane by lane, what each operation of vf0 and vf1 puts on its way to the unit's r port, five issue cycles after
its trigger: the exact value rounded once to the format (R60, R64, R65), a NaN result being the canonical one, with every lane's
flags together (R66); and for `amx` the vector itself, with the candidate for c.amax and the report of a NaN (R67). R166: `vf.cls`
sets exactly the class bit of a lane: 8 for a NaN, 0 and 7 for the infinities, 3 and 4 for the zeros, 2 and 5 for the
subnormals, 1 and 6 for the normals, the lower number for the negative one; the lane's bits decide it. UF follows the
delivered result (R60), the model's reading (log 27). -/
def Obligations.FloatLanes : Prop :=
  (∀ s : State,
    let a := s.pkg.fire.a.toV
    let b := s.pkg.fire.b.toV
    let c := s.pkg.fire.c.toV
    let x (j : Nat) : FVal := Lane.val (a.lane j)
    let y (j : Nat) : FVal := Lane.val (b.lane j)
    let z (j : Nat) : FVal := Lane.val (c.lane j)
    let unit := 6 + b2n s.pkg.fire.alt
    let r (i : Instr) (op : Nat) (lane : Nat → Rounded) : Prop :=
      ∃ (v : Vec) (fl : Lane), (∀ j < 128, v.lane j = BitVec.ofNat 32 (lane j).bits) ∧
        fl = BitVec.ofNat 32 (orFlags ((List.range 128).map lane)) ∧
        Triggers i s (landing unit op 5 (some (.v v)) none fl)
    let exact (q : FVal × Bool) : Rounded := finish f32 q
    let plain (w : Lane) : Rounded := ⟨w.toNat, 0⟩
    let pairs (f : Fmt) (g : FVal → FVal → FVal → FVal × Bool) (j : Nat) : Rounded := halves f g (a.lane j) (b.lane j) (c.lane j)
    let yes (q nv : Bool) : Rounded := ⟨if q then 0xFFFFFFFF else 0, if nv then fNV else 0⟩
    let nan (j : Nat) : Bool := (x j).isNan || (y j).isNan
    r .vfAddF32 0 (fun j => exact (FVal.add (x j) (y j))) ∧ r .vfSubF32 1 (fun j => exact (FVal.add (x j) (y j).neg)) ∧
    r .vfMulF32 2 (fun j => exact (FVal.mul (x j) (y j))) ∧ r .vfFmaF32 3 (fun j => exact (FVal.fma (x j) (y j) (z j))) ∧
    r .vfFms 4 (fun j => exact (FVal.fma (x j) (y j) (z j).neg)) ∧ r .vfFnma 5 (fun j => exact (FVal.fma (x j).neg (y j) (z j))) ∧
    r .vfMinF32 6 (fun j => plain (minF32 (a.lane j) (b.lane j))) ∧ r .vfMaxF32 7 (fun j => plain (maxF32 (a.lane j) (b.lane j))) ∧
    r .vfAbsF32 8 (fun j => if (y j).isNan then ⟨f32.nanBits, 0⟩ else plain (b.lane j &&& 0x7FFFFFFF)) ∧
    r .vfNegF32 9 (fun j => if (y j).isNan then ⟨f32.nanBits, 0⟩ else plain (b.lane j ^^^ 0x80000000)) ∧
    r .vfSclF32 10 (fun j => rne f32 ((x j).scale (max (-600) (min 600 (b.lane j).toInt)))) ∧
    r .vfAddBf16 11 (pairs bf16 fun x y _ => FVal.add x y) ∧ r .vfMulBf16 12 (pairs bf16 fun x y _ => FVal.mul x y) ∧
    r .vfFmaBf16 13 (pairs bf16 FVal.fma) ∧ r .vfDotBf16 14 (fun j => dotLane bf16 (a.lane j) (b.lane j) (c.lane j)) ∧
    r .vfAddF16 15 (pairs f16 fun x y _ => FVal.add x y) ∧ r .vfMulF16 16 (pairs f16 fun x y _ => FVal.mul x y) ∧
    r .vfFmaF16 17 (pairs f16 FVal.fma) ∧ r .vfDotF16 18 (fun j => dotLane f16 (a.lane j) (b.lane j) (c.lane j)) ∧
    r .vfCmpEqF32 19 (fun j => yes (FVal.eq (x j) (y j)) false) ∧ r .vfCmpLtF32 20 (fun j => yes (FVal.lt (x j) (y j)) (nan j)) ∧
    r .vfCmpLeF32 21 (fun j => yes (FVal.le (x j) (y j)) (nan j)) ∧ r .vfCmpUnF32 22 (fun j => yes (nan j) false) ∧
    Triggers .vfAmx s { landing unit 23 5 (some (.v b)) none 0 with
      amax := amaxOf (b.lanes.map Lane.val), ns := (b.lanes.map Lane.val).any FVal.isNan } ∧
    r .vfCls 24 (fun j => ⟨2 ^ classBit (b.lane j), 0⟩)) ∧
  (∀ w : Lane,
    let neg := w.getLsbD 31
    let e := w.toNat / 2 ^ 23 % 256
    let m := w.toNat % 2 ^ 23
    (e = 255 ∧ m ≠ 0 → classBit w = 8) ∧
    (e = 255 ∧ m = 0 → classBit w = if neg then 0 else 7) ∧
    (e = 0 ∧ m = 0 → classBit w = if neg then 3 else 4) ∧
    (e = 0 ∧ m ≠ 0 → classBit w = if neg then 2 else 5) ∧
    (0 < e ∧ e < 255 → classBit w = if neg then 1 else 6))

/-- R177: every special function answers lane by lane eight issue cycles after its trigger: the canonical NaN without a flag in
a lane that holds a NaN, and in every other lane its function of the lane's value; its flags are the lanes' together. The
functions themselves are the model's computation of the exact value rounded once (log 15). -/
def Obligations.SpecialFunctions : Prop :=
  ∀ s : State,
    let b := s.pkg.fire.b.toV
    let r (i : Instr) (op : Nat) (fn : FVal → Rounded) : Prop :=
      let lane (j : Nat) : Rounded := if (Lane.val (b.lane j)).isNan then ⟨0x7FC00000, 0⟩ else fn (Lane.val (b.lane j))
      ∃ (v : Vec) (fl : Lane), (∀ j < 128, v.lane j = BitVec.ofNat 32 (lane j).bits) ∧
        fl = BitVec.ofNat 32 (orFlags ((List.range 128).map lane)) ∧ Triggers i s (landing 10 op 8 (some (.v v)) none fl)
    r .sfExp2 0 Special.exp2 ∧ r .sfLog2 1 Special.log2 ∧ r .sfRcp 2 Special.rcp ∧ r .sfRsqrt 3 Special.rsqrt ∧
    r .sfSqrt 4 Special.sqrt ∧ r .sfExp 5 Special.exp ∧ r .sfTanh 6 Special.tanh ∧ r .sfSigm 7 Special.sigm ∧
    r .sfErf 8 Special.erf ∧ r .sfSinpi 9 Special.sinpi ∧ r .sfCospi 10 Special.cospi ∧ r .sfSilu 11 Special.silu

/-- R178 to R182: what the cross-cluster unit puts on its way to xc.r, and for `sort` to xc.h. A reduction delivers the root of
the tree over all lanes to every lane; a scan's lane i the prefix of its segment's lanes up to i, where a segment's head is the
greatest lane at or below that A marks; a movement lane by lane. R179: the additions of an f32 sum, of all its lanes' prefixes
together, set their flags; no other operation sets one.
The sort delivers a permutation of the key and payload pairs, in order of the keys, equal keys staying in their order. -/
def Obligations.CrossLanes : Prop :=
  ∀ s : State,
    let a := s.pkg.fire.a.toV
    let b := s.pkg.fire.b.toV
    let desc := (s.pkg.fire.c.toV.lane 0).getLsbD 0
    let r (i : Instr) (op : Nat) (fl : Nat → Prop) (lane : Nat → Lane) : Prop :=
      ∃ (v : Vec) (f : Nat), fl f ∧ (∀ j < 128, v.lane j = lane j) ∧
        Triggers i s (landing 11 op 6 (some (.v v)) none (BitVec.ofNat 32 f))
    let none_ (f : Nat) : Prop := f = 0
    let together (flags : Nat → Nat) (f : Nat) : Prop := f = (List.range 128).foldl (fun a j => a ||| flags j) 0
    let canon (x : Lane) : Lane := if (Lane.val x).isNan then 0x7FC00000 else x
    let head (j h : Nat) : Prop := h ≤ j ∧ (h = 0 ∨ a.lane h ≠ 0) ∧ ∀ k, h < k → k ≤ j → a.lane k = 0
    r .xcRsumF32 0 (· = (tree addFC b 7 0).2) (fun _ => (tree addFC b 7 0).1) ∧
    r .xcRmaxF32 1 none_ (fun _ => (tree maxFC b 7 0).1) ∧ r .xcRminF32 2 none_ (fun _ => (tree minFC b 7 0).1) ∧
    r .xcRsumI32 3 none_ (fun _ => BitVec.ofNat 32 ((List.range 128).map fun j => (b.lane j).toNat).sum) ∧
    r .xcRmaxI32 4 none_ (fun _ => (tree maxIC b 7 0).1) ∧ r .xcRminI32 5 none_ (fun _ => (tree minIC b 7 0).1) ∧
    r .xcScanF32 6 (together fun j => (prefixOf addFC b 0 (j + 1)).2) (fun j => canon (prefixOf addFC b 0 (j + 1)).1) ∧
    r .xcScanI32 7 none_ (fun j => BitVec.ofNat 32 ((List.range (j + 1)).map fun k => (b.lane k).toNat).sum) ∧
    r .xcPerm 8 none_ (fun j => if (a.lane j).toNat < 128 then b.lane (a.lane j).toNat else 0) ∧
    r .xcRotl 9 none_ (fun j => b.lane ((j + (a.lane 0).toNat) % 128)) ∧
    r .xcBcl 10 none_ (fun _ => b.lane ((a.lane 0).toNat % 128)) ∧
    r .xcCmpr 11 none_ (fun j => match ((List.range 128).filter fun k => a.lane k ≠ 0)[j]? with | some k => b.lane k | none => 0) ∧
    r .xcExpd 12 none_ (fun j => if a.lane j ≠ 0 then b.lane ((List.range j).filter fun k => a.lane k ≠ 0).length else 0) ∧
    r .xcSeg 14 none_ (fun j => if j = 0 ∨ b.lane j ≠ b.lane (j - 1) then 0xFFFFFFFF else 0) ∧
    (∀ h : Nat → Nat, (∀ j < 128, head j (h j)) →
      r .xcSegsumF32 15 (together fun j => (prefixOf addFC b (h j) (j - h j + 1)).2)
        fun j => canon (prefixOf addFC b (h j) (j - h j + 1)).1) ∧
    r .xcCpy 16 none_ (fun j => b.lane (16 * ((a.lane (16 * (j / 16))).toNat % 8) + j % 16)) ∧
    (∃ (k q : Vec) (f : Nat → Nat), Triggers .xcSort s (landing 11 13 12 (some (.v k)) (some q) 0) ∧
      (∀ j < 128, f j < 128 ∧ k.lane j = b.lane (f j) ∧ q.lane j = a.lane (f j)) ∧
      (∀ i < 128, ∀ j < 128, f i = f j → i = j) ∧
      (∀ j, j + 1 < 128 →
        (if desc then (k.lane (j + 1)).toNat < (k.lane j).toNat else (k.lane j).toNat < (k.lane (j + 1)).toNat) ∨
        (k.lane j = k.lane (j + 1) ∧ f j < f (j + 1))))

/-! ## Conversions and checks -/

/-- R169 to R176: a trigger of vc puts its result, its scales, its flags and its candidate for c.amax on their way to land four
issue cycles later; where the bundle's rounding is stochastic (RND = 6) the context's generator has advanced once, whether
the pair of formats is accepted or not (R62, R176). R169: a pair or a window that is not accepted gives zeros and NV. R170: the
element maps take n elements from the window's first one on, where the result's are wider, and every element otherwise; what the
result has above them is 0. R171: each element is rounded once into the result's format; `rint` rounds to an integral value of its
own; `pack` takes its elements from A and then from B; `cvta` offers c.amax the largest magnitude it reads (R67). R172: `qmx`
rounds each element by its block's scale: the byte of c.sc, or 0xFF for a block with a NaN, 127 for one whose finite elements are
all 0, and else the clamped exponent of the largest; the scales are in h. R173, R174: `dqmx` multiplies the elements of its window
by the scales of c.sc, and `cbd` the weights that its window's indices read in its die's table (R55, R56). `setsc` and `srseed`
write c.sc and c.srs (R175). -/
def Obligations.Conversions : Prop :=
  ∀ s : State,
    let f := s.pkg.fire
    let x := f.ctx
    let fa := f.hdr.fa.toNat
    let fb := f.hdr.fb.toNat
    let wa := fmtWidth fa
    let wb := fmtWidth fb
    let c0 := (f.c.toV.lane 0).toNat
    let s' : State := if f.hdr.rnd = 6 then { s with pkg := s.pkg.modC x fun c => c.setCr 0x0D3 (srsAdvance c.srs) } else s
    let md (e : Nat) : Mode := { rnd := f.hdr.rnd.toNat, sat := f.hdr.sat, rb := if f.hdr.rnd = 6 then laneBits (s'.pkg.c x).srs e else 0 }
    let sc (j : Nat) : Nat := (s.pkg.c x).sc.toNat / 256 ^ j % 256
    let src (v : Vec) (fmt e : Nat) : FVal := elementValue fmt (element (fmtWidth fmt) v.toNat e)
    let gives (i : Instr) (e : Entry) : Prop := exec i s = .next (inFlight x e s')
    let nothing (i : Instr) (op : Nat) : Prop := gives i (landing 9 op 4 (some (.v 0)) none 1)
    let elems (i : Instr) (op w n : Nat) (h : Option Vec) (amax : Option Lane) (ns : Bool) (g : Nat → Rounded) : Prop :=
      ∃ v : Vec, (∀ e < n, element w v.toNat e = (g e).bits % 2 ^ w) ∧ v.toNat < 2 ^ (w * n) ∧
        gives i { landing 9 op 4 (some (.v v)) h (BitVec.ofNat 32 (orFlags ((List.range n).map g))) with amax := amax, ns := ns }
    let maps (i : Instr) (op w q : Nat) (scan : Bool) (g : Nat → Nat → Rounded) : Prop :=
      let n := if w ≤ wa then 4096 / wa else 4096 / w
      let first := if w ≤ wa then 0 else q * n
      let read := (List.range n).map fun e => src f.b.toV fa (first + e)
      (4096 / wa < first + n → nothing i op) ∧
      (first + n ≤ 4096 / wa → elems i op w n none (if scan then amaxOf read else none) (scan && read.any FVal.isNan)
        fun e => g e (element wa f.b.toV.toNat (first + e)))
    let converts (i : Instr) (op q : Nat) (scan : Bool) (ok : Prop) : Prop :=
      (ok → maps i op wb q scan fun e v => convertTo fb (md e) (elementValue fa v)) ∧ (¬ok → nothing i op)
    let wide (z : Nat) : Prop := z ≤ 2
    let block (z : Nat) : Prop := (6 ≤ z ∧ z ≤ 10) ∨ z = 12
    converts .vcCvt 0 (c0 % 8) false (fa ≤ 5 ∧ fb ≤ 5) ∧
    converts .vcCvtwLo 1 0 false (fa ≤ 5 ∧ fb ≤ 5 ∧ wa < wb) ∧
    converts .vcCvtwHi 2 (4096 / wa / (4096 / wb) - 1) false (fa ≤ 5 ∧ fb ≤ 5 ∧ wa < wb) ∧
    converts .vcF2i 4 (c0 % 8) false (fa ≤ 5 ∧ (fb = 11 ∨ fb = 15)) ∧
    converts .vcI2f 5 (c0 % 8) false ((fa = 11 ∨ fa = 15) ∧ fb ≤ 5) ∧
    converts .vcCvta 10 (c0 % 8) true (fa ≤ 5 ∧ fb ≤ 5) ∧
    (let n := 4096 / wa
     (fa ≤ 5 ∧ fb ≤ 5 ∧ wb < wa → elems .vcPack 3 wb (2 * n) none none false fun e =>
       convertTo fb (md e) (if e < n then src f.a.toV fa e else src f.b.toV fa (e - n))) ∧
     (¬(fa ≤ 5 ∧ fb ≤ 5 ∧ wb < wa) → nothing .vcPack 3)) ∧
    (∀ fmt, fmtOf fa = some fmt → wide fa → maps .vcRint 9 wa 0 false fun e v =>
      match fmt.decode v with
      | .nan => ⟨fmt.nanBits, 0⟩
      | .inf _ => ⟨v, 0⟩
      | .fin neg m z =>
        let k := roundGrid (md e) neg m z 0
        if k.inexact then ⟨(rne fmt (.fin neg k.k 0)).bits, fNX⟩ else ⟨v, 0⟩) ∧
    (¬wide fa → nothing .vcRint 9) ∧
    (let n := 4096 / wa
     let el := src f.b.toV fa
     let emax : Int := if fb = 6 then 8 else if fb = 7 then 15 else if fb = 8 then 4 else 2
     let finite (j i : Nat) (m : Nat) (e : Int) : Prop := i < 32 ∧ ∃ neg, el (32 * j + i) = .fin neg m e
     let scale (j : Nat) (z : Nat) : Prop :=
       (c0 % 2 = 1 → z = sc j) ∧
       (c0 % 2 = 0 → (∃ i < 32, el (32 * j + i) = .nan) → z = 0xFF) ∧
       (c0 % 2 = 0 → (∀ i < 32, el (32 * j + i) ≠ .nan) →
         ((∃ i m e, finite j i m e) → (∀ i m e, finite j i m e → m = 0) → z = 127) ∧
         ∀ top : Int, (∃ i m e, finite j i m e ∧ m ≠ 0 ∧ (Nat.log2 m : Int) + e = top) →
           (∀ i m e, finite j i m e → m ≠ 0 → (Nat.log2 m : Int) + e ≤ top) → z = (min (max (top - emax + 127) 0) 254).toNat)
     (wide fa ∧ block fb → ∃ (h : Vec) (z : Nat → Nat), (∀ j < n / 32, scale j (z j) ∧ element 8 h.toNat j = z j % 256) ∧
       h.toNat < 256 ^ (n / 32) ∧ elems .vcQmx 6 wb n (some h) none false fun e =>
         if z (e / 32) = 0xFF then ⟨nanOf fb, 1⟩ else convertTo fb (md e) ((el e).scale (127 - z (e / 32)))) ∧
     (¬(wide fa ∧ block fb) → nothing .vcQmx 6)) ∧
    (let n := 4096 / wb
     let q := c0 % 16
     let times (z e : Nat) (v : FVal) : Rounded := if z = 0xFF then ⟨nanOf fb, 1⟩ else convertTo fb (md e) (v.scale ((z : Int) - 127))
     let weight (table idx signs o j : Nat) : FVal :=
       let ent := (s.pkg.cbt.get (16384 * (coreOf x / 36) + 8192 * table + idx)).toNat
       let negs := (List.range 7).filter signs.testBit
       .fin (if j < 7 then signs.testBit j else decide (negs.length % 2 = 1)) (ent / 16 ^ j % 16 * 8 + o) (-4)
     (block fa ∧ wide fb → (q + 1) * n ≤ 4096 / wa →
       elems .vcDqmx 7 wb n none none false fun e => times (sc (e / 32)) e (src f.b.toV fa (q * n + e))) ∧
     (block fa ∧ wide fb → 4096 / wa < (q + 1) * n → nothing .vcDqmx 7) ∧ (¬(block fa ∧ wide fb) → nothing .vcDqmx 7) ∧
     ((fa = 13 ∨ fa = 14) ∧ wide fb → (q + 1) * (n / 8) ≤ (if fa = 13 then 256 else 170) →
       elems .vcCbd 8 wb n none none false fun e =>
         let w := element wa f.b.toV.toNat (q * (n / 8) + e / 8)
         times (sc (e / 64)) e (if fa = 13 then weight 0 (w / 256) (w / 2 % 128) (4 * (w % 2)) (e % 8)
           else weight 1 (w / 2048) (w / 16 % 128) (w % 16) (e % 8))) ∧
     ((fa = 13 ∨ fa = 14) ∧ wide fb → (if fa = 13 then 256 else 170) < (q + 1) * (n / 8) → nothing .vcCbd 8) ∧
     (¬((fa = 13 ∨ fa = 14) ∧ wide fb) → nothing .vcCbd 8)) ∧
    exec .vcSetsc s = .next { s with pkg := s.pkg.modC x fun c => c.setCr 0x0D2 (f.b.toV.extractLsb' 0 64) } ∧
    exec .vcSrseed s = .next { s with pkg := s.pkg.modC x fun c => c.setCr 0x0D3 (f.b.toV.extractLsb' 0 64) }

/-- R159, R160: a check takes its operands at issue and compares them two issue cycles later; `ck.vm` compares the lanes that
its mask selects, and only these. When the entry lands, a difference is kept with the address of its trigger, marked where
the form guards. -/
def Obligations.Checks : Prop :=
  ∀ s : State,
    let f := s.pkg.fire
    let trig := (s.pkg.c f.ctx).pc - 32
    let puts (i : Instr) (op : Nat) (a b : Vec) : Prop :=
      Triggers i s { landing 14 op 2 (some (.v a)) (some b) 0 with kind := .check, trig := trig }
    puts .ckS 0 (f.a.toS.setWidth 4096) (f.b.toS.setWidth 4096) ∧ puts .ckV 1 f.a.toV f.b.toV ∧
    (∃ a b : Vec, puts .ckVm 2 a b ∧ ∀ j < 128,
      if f.c.toM.getLsbD j then a.lane j = f.a.toV.lane j ∧ b.lane j = f.b.toV.lane j else a.lane j = 0 ∧ b.lane j = 0) ∧
    puts .ckG 3 f.a.toV f.b.toV ∧ puts .ckSg 4 (f.a.toS.setWidth 4096) (f.b.toS.setWidth 4096) ∧
    ∀ (env : Env) (x : Nat) (e : Entry) (a b : Vec), e.kind = .check → e.r = some (.v a) → e.h = some b →
      (a = b → landEntry env x e s.pkg = s.pkg) ∧
      (a ≠ b → landEntry env x e s.pkg =
        s.pkg.modC x fun c => { c with check := some (e.trig, if e.op = 3 ∨ e.op = 4 then 1 else 0) })

/-- What the triggers of the units that only compute leave alone: all but the entries in flight of the triggering context (R43).
What the loads that consume nothing and the stores that land later leave alone at their trigger: every byte, tag,
accumulator word and line bit, every register, and all else but the entries in flight (R153). A load that finds tags full without
consuming them leaves storage, registers and every other context alone; what it is ordered after is noted (R80). -/
def Obligations.TriggersFrame : Prop :=
  (∀ (f op : Nat) (i : Instr) (s t : State),
    (f ≤ 2 ∨ (6 ≤ f ∧ f ≤ 8) ∨ f = 10 ∨ f = 11 ∨ f = 14) → triggerStep f op = some i → exec i s = .next t →
    OnlyFlight s.pkg.fire.ctx s t) ∧
  (∀ (f op : Nat) (i : Instr) (s t : State),
    f = 4 ∨ f = 5 → triggerStep f op = some i → op ∉ [4, 5, 6, 7, 12, 13, 16, 17, 19, 26] →
    lsOk op s.pkg.fire = true → (s.pkg.fire.sound = false → lsPoisoned op s.pkg.fire [] s.pkg = false) → exec i s = .next t →
    OnlyFlight s.pkg.fire.ctx s t) ∧
  (∀ (f op : Nat) (i : Instr) (s t : State),
    f = 4 ∨ f = 5 → triggerStep f op = some i → op ∈ [4, 6, 16, 26] →
    lsOk op s.pkg.fire = true → (s.pkg.fire.sound = false → lsPoisoned op s.pkg.fire [] s.pkg = false) → exec i s = .next t →
    let x := s.pkg.fire.ctx
    t.env = s.env ∧ SameStorage s.pkg t.pkg ∧ SameRegs (s.pkg.c x) (t.pkg.c x) ∧ (t.pkg.c x).pc = (s.pkg.c x).pc ∧
    (t.pkg.c x).phase = (s.pkg.c x).phase ∧ (∀ y, y ≠ x → t.pkg.c y = s.pkg.c y) ∧ t.pkg.cmds = s.pkg.cmds ∧ t.pkg.nodes = s.pkg.nodes ∧
    t.pkg.reg = s.pkg.reg ∧ t.pkg.faultq = s.pkg.faultq)

/-! ## The control unit -/

/-- R145 to R149: every trigger of br puts its effect on its way to the issue cycle three on, with the register writes that land
there; a redirection that will be taken needs a target that is a multiple of 32 below the scratchpad's end, and raises the
branch-target fault otherwise (R146). `call` also writes s31 at the next issue cycle with the address that the bundle three on
would have had: 32 past that of the bundle two on, as the redirections in flight give it (R147). The registers are read before
the bundle's moves (log 26). -/
def Obligations.BranchTriggers : Prop :=
  ∀ s : State,
    let f := s.pkg.fire
    let x := f.ctx
    let c := s.pkg.c x
    let trig := c.pc - 32
    let b := f.b.toS.toNat
    let ok (t : Nat) : Prop := t % 32 = 0 ∧ t < 0x800000
    let entry (op : Nat) (t : Option Nat) (ws : List (Fixed × Word)) : Entry :=
      { unit := 3, op := op, left := 3, order := 0, kind := .branch, target := t, trig := trig, fixed := ws }
    let fault : Out := .next { s with pkg := sTrap s.env x 0x23 trig trig trig s.pkg }
    let jumps (i : Instr) (op t : Nat) (ws : List (Fixed × Word)) : Prop :=
      (ok t → Triggers i s (entry op (some t) ws)) ∧ (¬ok t → exec i s = fault)
    let rotated : List (Fixed × Word) := [(.rrb, (f.src.rrb - 1) &&& 0x1F)]
    let shifted : List (Fixed × Word) :=
      [(.pred 7, if f.src.p.getLsbD 6 then 1 else 0), (.pred 6, if f.src.p.getLsbD 5 then 1 else 0),
       (.pred 5, if f.src.p.getLsbD 4 then 1 else 0), (.pred 4, if f.src.lc ≠ 0 then 1 else 0)]
    jumps .brJmp 0 b [] ∧ jumps .brRet 2 f.src.s31.toNat [] ∧ jumps .brRett 13 f.src.tpc.toNat [] ∧
    (¬ok b → exec .brCall s = fault) ∧
    (ok b → ∃ link : Word, exec .brCall s = .next (inFlight x (entry 1 (some b) [])
      (inFlight x { unit := 3, op := 1, left := 1, order := 0, kind := .result, trig := trig, fixed := [(.s31, link)] } s)) ∧
      let due (k : Nat) : Option Entry := c.flight.find? fun e => redirects e && e.left == k && e.target.isSome
      let goes (e : Entry) : Option Nat := if e.op = 12 then (if c.tvec = 0 then none else some c.tvec) else e.target
      let next := ((due 1).bind goes).getD c.pc
      let cut : Prop := c.tvec ≠ 0 ∧ ∃ e, due 1 = some e ∧ e.op = 12
      (cut → link = BitVec.ofNat 64 (next + 64)) ∧ (¬cut → link = BitVec.ofNat 64 (((due 2).bind goes).getD (next + 32) + 32))) ∧
    (f.a.toS = 0 → jumps .brBrz 3 b []) ∧ (f.a.toS ≠ 0 → Triggers .brBrz s (entry 3 none [])) ∧
    (f.a.toS ≠ 0 → jumps .brBrnz 4 b []) ∧ (f.a.toS = 0 → Triggers .brBrnz s (entry 4 none [])) ∧
    (let e := f.a.toS.toNat % 4
     let n (k : Nat) : Bool := f.src.p.getLsbD k
     let ws : List (Fixed × Word) := (if f.src.lc ≠ 0 then [(Fixed.lc, f.src.lc - 1)] else []) ++
       [(.pred 4, if f.src.lc ≠ 0 then 1 else 0), (.pred 5, if n 4 then 1 else 0), (.pred 6, if n 5 then 1 else 0),
        (.pred 7, if n 6 then 1 else 0)] ++ rotated
     let taken := f.src.lc ≠ 0 ∨ (1 ≤ e ∧ n 4) ∨ (2 ≤ e ∧ n 5) ∨ (e = 3 ∧ n 6)
     (taken → jumps .brLoop 5 b ws) ∧ (¬taken → Triggers .brLoop s (entry 5 none ws))) ∧
    (f.src.lcx ≠ 0 → jumps .brLoopx 6 b [(.lcx, f.src.lcx - 1)]) ∧ (f.src.lcx = 0 → Triggers .brLoopx s (entry 6 none [])) ∧
    Triggers .brSetlc s (entry 7 none [(.lc, f.b.toS), (.pred 4, 1), (.pred 5, 0), (.pred 6, 0), (.pred 7, 0)]) ∧
    Triggers .brSetlcx s (entry 8 none [(.lcx, f.b.toS)]) ∧
    Triggers .brRot s (entry 9 none (shifted ++ rotated)) ∧
    Triggers .brEnd s (entry 10 none []) ∧ Triggers .brYield s (entry 11 none []) ∧
    Triggers .brTrap s (entry 12 (some (b % 2 ^ 48)) []) ∧ Triggers .brSleep s (entry 14 (some b) [])

/-- R145, R149, R150: the effect of a branch entry that is due. A redirection gives the context its next address and nothing
else; `end` begins the drain (R35); `yield` and `sleep` perform the pending stores and give up issue; a sleep whose time has
come is over at once; `trap` takes the U-class trap of cause 1 with its operand as detail. Without a due entry nothing
happens. -/
def Obligations.BranchEffects : Prop :=
  ∀ (x : Nat) (s : State),
    let c := s.pkg.c x
    (dueBranch c = none → exec (.branchEffect x) s = .next s) ∧
    ∀ e, dueBranch c = some e →
      let p := s.pkg.modC x (markDone e.order)
      let goes (q : Pkg) : Prop := exec (.branchEffect x) s = .next { s with pkg := q }
      (e.op ≤ 9 ∨ e.op = 13 → goes (match e.target with | some t => p.modC x fun c => { c with pc := t } | none => p)) ∧
      (e.op = 10 → goes (releaseIssue x (p.modC x fun c => { c with phase := .draining, flight := [], check := none }))) ∧
      (e.op = 11 → goes (releaseIssue x ((performAll x p).modC x fun c => { c with phase := .ready, waited := 0 }))) ∧
      (e.op = 12 → goes (uTrap s.env x 1 3 (e.target.getD 0) (p.c x).pc p)) ∧
      (e.op = 14 ∧ e.target.getD 0 ≤ s.env.dtime → goes p) ∧
      (e.op = 14 ∧ s.env.dtime < e.target.getD 0 →
        goes (releaseIssue x ((performAll x p).modC x fun c => { c with phase := .sleeping, wake := e.target.getD 0 })))

/-! ## The load and store units -/

/-- R71, R151, R152: the effective address is A + B modulo 2^64; a scalar access of n bytes is accepted exactly at a multiple of
n whose bytes all lie in linear scratchpad, a vector access at a multiple of 512, a swizzled one at a multiple of 512 in the
view, an accumulator line at a multiple of 256 in the accumulator, a gather or a scatter where every active lane's own address
(R154) is accepted. R71, R72, R83: an access outside its range or off its
alignment freezes the context with cause 0x22 at the bundle, and one that reads uncorrectable data, where the bundle's issue has
not found it sound, with cause 0x25; it does nothing else. (That no move or trigger of its bundle takes effect is stated of the
bundle's issue, which tests both before it does anything: BundlesTrapOrBlock.) -/
def Obligations.AcceptedAddresses : Prop :=
  (∀ f : Fire,
    let a := (f.a.toS.toNat + f.b.toS.toNat) % 2 ^ 64
    let linear (n : Nat) : Prop := a % n = 0 ∧ a + n ≤ 0x800000
    ea f = a ∧
    (∀ op ∈ [0, 8], lsOk op f ↔ linear 1) ∧ (∀ op ∈ [1, 9], lsOk op f ↔ linear 2) ∧
    (∀ op ∈ [2, 4, 5, 10, 12, 14, 23], lsOk op f ↔ linear 4) ∧ (∀ op ∈ [3, 6, 7, 11, 13, 31], lsOk op f ↔ linear 8) ∧
    (∀ op ∈ [15, 16, 17, 18, 19, 20], lsOk op f ↔ linear 512) ∧
    (∀ op ∈ [21, 22], lsOk op f ↔ a % 512 = 0 ∧ 0x1000000 ≤ a ∧ a + 512 ≤ 0x1800000) ∧
    (∀ op ∈ [24, 25], lsOk op f ↔ ∀ j < 128, (f.d.toV.lane j).getLsbD 31 = false →
      let z := (f.a.toS.toNat + f.b.toS.toNat + (f.d.toV.lane j).toNat % 2 ^ 31) % 2 ^ 64
      z % 4 = 0 ∧ z + 4 ≤ 0x800000) ∧
    (∀ op ∈ [26, 27], lsOk op f ↔ (linear 128 ∨ (a % 8192 = 0 ∧ 0x2000000 ≤ a ∧ a < 0x2200000))) ∧
    (∀ op ∈ [28, 29, 30], lsOk op f ↔ a % 256 = 0 ∧ 0x2000000 ≤ a ∧ a < 0x2200000)) ∧
  (∀ (f op : Nat) (i : Instr) (s : State), f = 4 ∨ f = 5 → triggerStep f op = some i →
    let x := s.pkg.fire.ctx
    let trig := (s.pkg.c x).pc - 32
    (lsOk op s.pkg.fire = false → exec i s = .next { s with pkg := sTrap s.env x 0x22 trig trig trig s.pkg }) ∧
    (lsOk op s.pkg.fire = true → s.pkg.fire.sound = false → lsPoisoned op s.pkg.fire [] s.pkg = true →
      exec i s = .next { s with pkg := sTrap s.env x 0x25 trig trig trig s.pkg }))

/-- R151, R77, R154, R155: what each load puts on its way: to the scalar port the bytes at the address, zero-extended, four
issue cycles on; to the vector port the words that the context observes there, six on, ten for a gather, whose inactive
lanes are 0, eight for an accumulator line, which fills lanes 0 to 63; `ld.sc` to c.sc. The hypotheses are that the address
is accepted (R72) and no data is uncorrectable (R83, R84): under them each of the eighteen loads completes, the next state
being the one stated. A consuming load also sets its words empty, after the stores ordered before it
(R153). A load that finds a tag full is ordered after what the tag's writer was (R80). A word that nothing orders is old or new by
the model's free values (logs 2 and 22). -/
def Obligations.Loads : Prop :=
  ∀ s : State,
    let f := s.pkg.fire
    let x := f.ctx
    let unit := 4 + b2n f.alt
    let a := ea f
    let fine (op : Nat) : Prop := lsOk op f = true ∧ (f.sound = false → lsPoisoned op f [] s.pkg = false)
    let word (p : Pkg) (swzd : Bool) (w : Nat) : Lane := p.wordAt x swzd (p.c x).joins w
    let plain (i : Instr) (op : Nat) (e : Entry) : Prop := fine op → exec i s = .next (draws x s (inFlight x e s))
    let scalar (p : Pkg) (op n : Nat) : Entry := landing unit op 4 (some (.s (BitVec.ofNat 64 (natOf (loadBytes p x a n))))) none 0
    let vector (p : Pkg) (op l : Nat) (swzd : Bool) : Entry :=
      landing unit op l none (some (Vec.ofLanes ((lsWords op f).map (word p swzd)))) 0
    let ready (op : Nat) : State := { s with pkg := acquireTags x (lsWords op f) s.pkg }
    let full (i : Instr) (op : Nat) (e : Pkg → Entry) : Prop :=
      fine op → exec i s = .next (draws x (ready op) (inFlight x (e (ready op).pkg) (ready op)))
    let empties (i : Instr) (op : Nat) (e : Pkg → Entry) : Prop :=
      let loaded := draws x (ready op) (inFlight x (e (ready op).pkg) (ready op))
      fine op → exec i s = .next { s with pkg := tagNow f { tags := (lsWords op f).map fun w => (w, false) } loaded.pkg }
    plain .lsLdB 0 (scalar s.pkg 0 1) ∧ plain .lsLdH 1 (scalar s.pkg 1 2) ∧ plain .lsLdW 2 (scalar s.pkg 2 4) ∧
    plain .lsLdD 3 (scalar s.pkg 3 8) ∧
    full .lsLdfW 4 (scalar · 4 4) ∧ full .lsLdfD 6 (scalar · 6 8) ∧ full .lsLdfV 16 (vector · 16 6 false) ∧
    empties .lsLdcW 5 (scalar · 5 4) ∧ empties .lsLdcD 7 (scalar · 7 8) ∧ empties .lsLdcV 17 (vector · 17 6 false) ∧
    plain .lsLdV 15 (vector s.pkg 15 6 false) ∧ plain .lsLdVs 21 (vector s.pkg 21 6 true) ∧
    (∃ v : Vec, plain .lsLdVb 23 (landing unit 23 6 none (some v) 0) ∧ ∀ j < 128, v.lane j = word s.pkg false (a / 4)) ∧
    (∃ v : Vec, plain .lsLdVg 24 (landing unit 24 10 none (some v) 0) ∧ ∀ j < 128,
      v.lane j = if (f.d.toV.lane j).getLsbD 31 then 0 else word s.pkg false (laneAddr f j / 4)) ∧
    (let bit (j : Nat) : Bool :=
       if a < 0x800000 then s.pkg.tagAt x false (s.pkg.c x).joins (a / 4 + j) else s.pkg.lineAt x ((a - 0x2000000) / 256 + j)
     let found := if a < 0x800000 then ((List.range 32).filter bit).map (a / 4 + ·) else []
     ∃ v : Word, (∀ j < 64, v.getLsbD j = (decide (j < 32) && bit j)) ∧ (fine 26 → exec .lsLdTg s =
       .next (draws x s (inFlight x (landing unit 26 4 (some (.s v)) none 0) { s with pkg := acquireTags x found s.pkg })))) ∧
    (∃ v : Vec, (∀ j < 128, v.lane j = if j < 64 then s.pkg.accAt x (64 * ((a - 0x2000000) / 256) + j) else 0) ∧
      (fine 28 → Triggers .lsLdAcc s (landing unit 28 8 none (some v) 0)) ∧
      (fine 29 → Triggers .lsLdfAcc s (landing unit 29 8 none (some v) 0))) ∧
    plain .lsLdSc 31 { landing unit 31 4 none none 0 with
      fixed := [(.sc, BitVec.ofNat 64 (natOf (loadBytes s.pkg x a 8)))], trig := (s.pkg.c x).pc - 32 }

/-- R151, R153, R156: what each store puts on its way to the storage: D's low bytes at the address, the lanes of a vector at the
words of its block (through the swizzle of R74 for `st.vs`), the active lanes of a scatter, of two at one word the higher,
the 32 tag or line bits of a block, a line of the accumulator with its mode. Every word stored to is set full, but for `stn`
(R77). `stp` is performed whole at once. The hypotheses are that the address is accepted (R72) and that `stp` meets nothing
uncorrectable (R83): under them each of the fourteen stores completes, the next state being the one stated. -/
def Obligations.Stores : Prop :=
  ∀ s : State,
    let f := s.pkg.fire
    let x := f.ctx
    let a := ea f
    let fine (op : Nat) : Prop := lsOk op f = true ∧ (f.sound = false → lsPoisoned op f [] s.pkg = false)
    let lands (i : Instr) (op l : Nat) (st : LStore) : Prop := fine op → Triggers i s
      { unit := 4 + b2n f.alt, op := op, left := l, order := 0, kind := .store, trig := (s.pkg.c x).pc - 32,
        store := some { st with joins := (s.pkg.c x).joins } }
    let now (i : Instr) (op : Nat) (st : LStore) : Prop :=
      fine op → exec i s = .next { s with pkg := tagNow f st (acquireTags x (lsWords op f) s.pkg) }
    let bytes (n : Nat) : List Host.Cell := (List.range n).map fun k => (a + k, BitVec.ofNat 8 (f.d.toS.toNat / 256 ^ k))
    let fullAll (op : Nat) : List (Nat × Bool) := (lsWords op f).map fun w => (w, true)
    let lanes (op : Nat) : List Host.Cell := (List.range 128).flatMap fun j => (List.range 4).map fun k =>
      (4 * (lsWords op f).getD j 0 + k, BitVec.ofNat 8 ((f.d.toV.lane j).toNat / 256 ^ k))
    let scattered (j : Nat) : List Host.Cell := (List.range 4).map fun k =>
      (laneAddr f j + k, BitVec.ofNat 8 ((f.src.vreg.lane j).toNat / 256 ^ k))
    let stored := (List.range 128).filter fun j => !(f.d.toV.lane j).getLsbD 31 &&
      !((List.range 128).any fun k => decide (j < k) && !(f.d.toV.lane k).getLsbD 31 && laneAddr f k == laneAddr f j)
    lands .lsStB 8 4 { bytes := bytes 1, tags := fullAll 8 } ∧ lands .lsStH 9 4 { bytes := bytes 2, tags := fullAll 9 } ∧
    lands .lsStW 10 4 { bytes := bytes 4, tags := fullAll 10 } ∧ lands .lsStD 11 4 { bytes := bytes 8, tags := fullAll 11 } ∧
    lands .lsStnW 14 4 { bytes := bytes 4 } ∧
    lands .lsStV 18 6 { bytes := lanes 18, tags := fullAll 18, whole := true } ∧
    lands .lsStnV 20 6 { bytes := lanes 20, whole := true } ∧
    lands .lsStVs 22 6 { bytes := lanes 22, tags := fullAll 22, whole := true, swz := true } ∧
    now .lsStpW 12 { bytes := bytes 4, tags := fullAll 12 } ∧ now .lsStpD 13 { bytes := bytes 8, tags := fullAll 13 } ∧
    now .lsStpV 19 { bytes := lanes 19, tags := fullAll 19 } ∧
    lands .lsStVg 25 10 { bytes := stored.flatMap scattered, tags := stored.map fun j => (laneAddr f j / 4, true) } ∧
    (a < 0x800000 → lands .lsStTg 27 4 { tags := (List.range 32).map fun j => (a / 4 + j, f.d.toS.getLsbD j) }) ∧
    (0x800000 ≤ a → lands .lsStTg 27 4 { lines := (List.range 32).map fun j => ((a - 0x2000000) / 256 + j, f.d.toS.getLsbD j) }) ∧
    (let line : List (Nat × Lane) := (List.range 64).map fun j => (64 * ((a - 0x2000000) / 256) + j, f.d.toV.lane j)
     lands .lsStAcc 30 8 { mode := f.c.toS.toNat % 4, acc := line })

/-- R77, R153: a store as it is performed. Every byte it names holds its value, the last of two at one place; every tag and line
bit it names is as it says; every other byte, tag, line bit and accumulator word of the core reads as before, and no other
core and nothing else of the package changes. R77, R83, R191: a write of an engine to a core's scratchpad: every byte it
names holds its value, the last of two at one place, every word named is full, and every other byte, tag, line bit and
accumulator word, and every other core, is as before, but for what the model keeps of performed writes (log 22). Which stores
rewrite whole codewords is the model's reading (log 32). -/
def Obligations.StoragePerformed : Prop :=
  (∀ (x n write node : Nat) (st : LStore) (p : Pkg),
    let q := p.modK n (Core.apply write node x st)
    (∀ a, (q.k n).spad.get a = ((st.bytes.reverse.find? fun c => c.1 == a).map (·.2)).getD ((p.k n).spad.get a)) ∧
    (∀ w, (q.k n).tags.get w = ((st.tags.reverse.find? fun c => c.1 == w).map (·.2)).getD ((p.k n).tags.get w)) ∧
    (∀ l, (q.k n).lines.get l = ((st.lines.reverse.find? fun c => c.1 == l).map (·.2)).getD ((p.k n).lines.get l)) ∧
    (∀ i, (∀ c ∈ st.acc, c.1 ≠ i) → (q.k n).acc.get i = (p.k n).acc.get i) ∧
    ((st.acc.map (·.1)).Nodup → ∀ c ∈ st.acc, (q.k n).acc.get c.1 =
      match st.mode with
      | 0 => c.2
      | 1 => laneOf (addF32 ((p.k n).acc.get c.1) c.2)
      | 2 => (p.k n).acc.get c.1 + c.2
      | _ => maxF32 ((p.k n).acc.get c.1) c.2) ∧
    (∀ m, m ≠ n → q.k m = p.k m) ∧
    q.ctx = p.ctx ∧ q.mem = p.mem ∧ q.side = p.side ∧ q.cmds = p.cmds ∧ q.nodes = p.nodes ∧ q.reg = p.reg) ∧
  (∀ (n : Nat) (cells : List Host.Cell) (full : List Nat) (p : Pkg),
    let q := engineWrite n cells full p
    (∀ a, (q.k n).spad.get a = ((cells.reverse.find? fun c => c.1 == a).map (·.2)).getD ((p.k n).spad.get a)) ∧
    (∀ w ∈ full, (q.k n).tags.get w = true) ∧ (∀ w, w ∉ full → (q.k n).tags.get w = (p.k n).tags.get w) ∧
    (q.k n).acc = (p.k n).acc ∧ (q.k n).lines = (p.k n).lines ∧ (∀ m, m ≠ n → { q.k m with stale := [] } = { p.k m with stale := [] }) ∧
    q.ctx = p.ctx ∧ q.mem = p.mem ∧ q.side = p.side ∧ q.cmds = p.cmds)

/-! ## Landing and issue -/

/-- R66, R67, R127: a result as it lands. Its value is in the unit's r port and its second value in the h port, as their classes
say; the flags it raises are set and none is cleared; c.amax takes the candidate where that is larger. Where the entry
writes no register by itself, every other register, port, token and template, every other context and all storage are as
before. -/
def Obligations.ResultsLand : Prop :=
  ∀ (env : Env) (x : Nat) (e : Entry) (p : Pkg), e.kind = .result →
    let q := landEntry env x e p
    let c := p.c x
    let d := q.c x
    (∀ v, e.r = some v → (e.unit ∈ [0, 1, 2, 4, 5, 12, 13, 15] → d.rport.get (0x070 + e.unit) = v.toS) ∧
      (e.unit ∈ [6, 7, 8, 9, 10, 11] → d.vport.get (0x070 + e.unit) = v.toV)) ∧
    (∀ w, e.h = some w → (e.unit = 2 → d.rport.get 0x082 = w.setWidth 64) ∧
      (e.unit ∈ [4, 5, 9, 11] → d.vport.get (0x080 + e.unit) = w)) ∧
    (∀ i < 7, (d.cr 0x0D0).getLsbD i = ((c.cr 0x0D0).getLsbD i || e.flags.getLsbD i || (e.ns && i == 6))) ∧
    (e.amax = none → d.cr 0x0D1 = c.cr 0x0D1) ∧
    (∀ y, e.amax = some y → d.cr 0x0D1 =
      if FVal.lt (Lane.val ((c.cr 0x0D1).setWidth 32)) (Lane.val y) then y.setWidth 64 else c.cr 0x0D1) ∧
    (e.fixed = [] →
      (∀ n, d.s.get n = c.s.get n) ∧ (∀ n, d.v.get n = c.v.get n) ∧ d.p = c.p ∧ (∀ n, d.m.get n = c.m.get n) ∧
      (∀ code, code ≠ 0x0D0 → code ≠ 0x0D1 → d.cr code = c.cr code) ∧
      (∀ code, code ≠ 0x070 + e.unit → code ≠ 0x080 + e.unit → d.rport.get code = c.rport.get code ∧ d.vport.get code = c.vport.get code) ∧
      (∀ k, d.tokens.get k = c.tokens.get k) ∧ (∀ k, d.tmpl.get k = c.tmpl.get k) ∧ d.pc = c.pc ∧ d.phase = c.phase) ∧
    (∀ y, y ≠ x → q.c y = p.c y) ∧ SameStorage p q

/-- R66: "Flags are sticky": no landing of entries clears an arithmetic flag of its context. -/
def Obligations.FlagsAreSticky : Prop :=
  ∀ (x : Nat) (s t : State), exec (.entryLanding x) s = .next t →
    ∀ i < 7, (s.pkg.c x).fflags.getLsbD i → (t.pkg.c x).fflags.getLsbD i

/-- R43, R130, R153, R156: ENTRY_LANDING completes in every state: what is due lands in the order of the triggers and what is not
stays in flight. Where no pending store combines with the accumulator, the next state is that of the due entries landing one
after the other. A result alone in flight lands as a result; a store alone in flight is performed, unless it combines with an
uncorrectable accumulator word, where it writes nothing and the bundle at hand meets it (log 33); with nothing due, every
context and all storage stay as they are. -/
def Obligations.EntriesLand : Prop :=
  ∀ (x : Nat) (s : State),
    let fl := (s.pkg.c x).flight
    let k := s.pkg.k (coreOf x)
    let bad (st : LStore) : Prop := st.mode ≠ 0 ∧ ∃ a ∈ st.acc, k.badAcc.get a.1 = true
    (∃ t, exec (.entryLanding x) s = .next t ∧ t.env = s.env ∧ ∀ e ∈ (t.pkg.c x).flight, e.left ≠ 1) ∧
    (let landed := (fl.filter fun e => e.left == 1).foldl (fun p e => landEntry s.env x e p) s.pkg
     (∀ e ∈ fl, ∀ st, e.store = some st → st.mode = 0) → exec (.entryLanding x) s =
      .next { s with pkg := landed.modC x fun c => { c with flight := c.flight.filter fun e => e.left != 1 } }) ∧
    (∀ e, fl = [e] → e.left = 1 → e.kind = .result → exec (.entryLanding x) s =
      .next { s with pkg := (landEntry s.env x e s.pkg).modC x fun c => { c with flight := [] } }) ∧
    (∀ e st, fl = [e] → e.left = 1 → e.kind = .store → e.done = false → e.store = some st →
      ∃ t, exec (.entryLanding x) s = .next t ∧ (t.pkg.c x).flight = [] ∧ SameRegs (s.pkg.c x) (t.pkg.c x) ∧
        (¬bad st → SameStorage (s.pkg.modK (coreOf x) (Core.apply 0 0 x st)) t.pkg) ∧
        (bad st → SameStorage s.pkg t.pkg ∧ (t.pkg.c x).spoiled = true)) ∧
    ((∀ e ∈ fl, e.left ≠ 1) → ∃ t, exec (.entryLanding x) s = .next t ∧ (∀ y, t.pkg.c y = s.pkg.c y) ∧ SameStorage s.pkg t.pkg)

/-- R133, R134, R307, R308: a bundle that is illegal freezes its context with cause 0x20, one that triggers a privileged
operation in U mode with cause 0x21, one whose codeword is poisoned with cause 0x25, or 0x24 where a check's mismatch lands
with it (R307); the record names the bundle, or the
check whose mismatch has landed with it, and nothing of the bundle takes effect. R40: where the condition of some trigger
does not hold, nothing of the bundle takes effect: the context is blocked at it, its pending stores performed (R153), and
every register is as before. The conditions: the words of a tagged access are full, or empty for `stp`, and the line of `ldf.acc`
is; every token that `ec.wait` names has completed; a token number is free for a command, every one it consumes names an accepted
command, and a kick has room in its queue or window. R72, R146, R158, R189: where every condition holds, a bundle with a faulted
token to wait for takes the U-class trap of cause 2, or 3 for a dense fallback, at itself; one with an address that is not accepted
freezes its context with cause 0x22, one with a bad target of a branch that will be taken with 0x23, one that reads uncorrectable
data with 0x25, or 0x24 with a mismatch; and nothing of it takes effect. What a record says of a check that has landed is the
model's reading (log 29), as are which stores are bad (log 33) and which numbers are valid (log 58). -/
def Obligations.BundlesTrapOrBlock : Prop :=
  (∀ (x : Nat) (b : Bundle) (s : State),
    let c := s.pkg.c x
    let ms := moves s.env.dtime c b
    let all := triggers x c b ms
    let ts := firing c all
    let p := s.pkg.drawn (accessDraws s.pkg x)
    let q := if b.hdr.join then (joinViews x (c.joins + 1) p).modC x fun c => { c with joins := c.joins + 1 } else p
    let poisoned := (s.pkg.k (coreOf x)).poison.get (c.pc / 64) = true
    let bad := illegal c b ms all = true
    let forbidden := c.smode = false ∧ ∃ t ∈ all, privileged t = true
    let traps (cause : Nat) : Prop := ∃ t, exec (.bundleIssue x b) s = .next t ∧
      TrappedS x cause ((c.check.map (·.1)).getD c.pc) c.pc c.pc s t ∧ t.pkg.micro = s.pkg.micro
    let data := if c.check.isSome then 0x24 else 0x25
    let waits (k : Nat) : Prop := ∃ t ∈ ts, t.unit = 12 ∧ t.op = 14 ∧ t.fire.b.toS.getLsbD k = true
    let faulted (k : Nat) : Prop := (c.tokens.get k).state = .complete ∧ (c.tokens.get k).status ≠ 0 ∧ (c.tokens.get k).acked = false
    let wrong := ∃ t ∈ ts, badAddress t = true
    let astray := ∃ t ∈ ts, badTarget t = true
    let spoilt := c.spoiled = true ∨ (∃ t ∈ ts, badData q x ts t = true) ∨ badOwn p x ts = true ∨ badAmong x (performs ts c.joins) p = true
    (poisoned → traps data) ∧ (¬poisoned → bad → traps 0x20) ∧ (¬poisoned → ¬bad → forbidden → traps 0x21) ∧
    (¬poisoned → ¬bad → ¬forbidden → (∃ u, blocking q x ts = some u) →
      ∃ t, exec (.bundleIssue x b) s = .next t ∧ (t.pkg.c x).phase = .blocked ∧ (t.pkg.c x).pc = c.pc ∧
        SameRegs c (t.pkg.c x) ∧ SameStorage (performAll x s.pkg) t.pkg ∧ t.pkg.micro = s.pkg.micro) ∧
    (¬poisoned → ¬bad → ¬forbidden → blocking q x ts = none →
      (∀ k < 64, waits k → faulted k → (∀ j < k, waits j → ¬faulted j) →
        exec (.bundleIssue x b) s = .next { s with pkg := waitTrap s.env x k c.pc p }) ∧
      ((∀ k < 64, waits k → ¬faulted k) →
        (wrong → traps 0x22) ∧ (¬wrong → astray → traps 0x23) ∧
        (¬wrong → ¬astray → spoilt → ∃ t, exec (.bundleIssue x b) s = .next t ∧ (t.pkg.c x).phase = .frozen ∧ (t.pkg.c x).cause = data ∧
          (t.pkg.c x).pc = c.pc ∧ SameRegs c (t.pkg.c x) ∧ SameStorage s.pkg t.pkg ∧ t.pkg.micro = s.pkg.micro)))) ∧
  (∀ (p : Pkg) (x : Nat) (ts : List Trig),
    (blocking p x ts = none ↔ ∀ t ∈ ts, ready p x ts t = true) ∧
    ∀ t : Trig,
      let c := p.c x
      let op := t.op
      let ls := (t.unit = 4 ∨ t.unit = 5) ∧ lsOk op t.fire = true
      let j := (p.c t.fire.ctx).joins
      let aux := t.fire.aux.toS.toNat
      let free := (c.tokens.get (takenToken c ts t)).state = .complete ∨ (c.tokens.get (takenToken c ts t)).state = .free
      let valid := ∀ o ∈ [0, 7, 14], aux.testBit (o + 6) = true → let id := (c.tokens.get (aux / 2 ^ o % 64)).cmd
        p.present id = false ∨ (p.cmd id).accepted = true
      let room := (p.k (coreOf x)).kickq.length < 8 ∨ c.window.length < 8
      (ls → op ∈ [4, 5, 6, 7, 16, 17] → (ready p x ts t = true ↔ ∀ w ∈ lsWords op t.fire, p.tagAt t.fire.ctx false j w = true)) ∧
      (ls → op ∈ [12, 13, 19] → (ready p x ts t = true ↔ ∀ w ∈ lsWords op t.fire, p.tagAt t.fire.ctx false j w = false)) ∧
      (ls → op = 29 → (ready p x ts t = true ↔ p.lineAt t.fire.ctx ((ea t.fire - 0x2000000) / 256) = true)) ∧
      (ls → op ∉ [4, 5, 6, 7, 12, 13, 16, 17, 19, 29] → ready p x ts t = true) ∧
      (t.unit = 12 → op = 14 → (ready p x ts t = true ↔ ∀ k < 64, t.fire.b.toS.getLsbD k = true →
        (c.tokens.get k).state = .complete ∨ (c.tokens.get k).state = .free)) ∧
      (isCommand t = true → t.unit ≠ 12 ∨ op ≠ 3 → (ready p x ts t = true ↔ free ∧ valid)) ∧
      (t.unit = 12 → op = 3 → (ready p x ts t = true ↔ free ∧ valid ∧ room)) ∧
      (t.unit ≠ 4 → t.unit ≠ 5 → isCommand t = false → t.unit ≠ 12 ∨ op ≠ 14 → ready p x ts t = true))

/-- R130, R131: a bundle that neither traps nor blocks issues: the next address is 32 on, its moves are in the general, vector, mask,
predicate and context registers with the values their sources had before it, its triggers are next, and what is in flight has one
issue cycle less to go; a move's destination is the one that R133 allows only one write of. That a bundle's triggers are parts of
it still to be made (log 3) and the order in which they fire (log 31) are the model's choices. Storage changes only
where an engine trigger performs the pending stores (R153), and no other context's registers change. -/
def Obligations.BundlesIssue : Prop :=
  ∀ (x : Nat) (b : Bundle) (s : State),
    let p := s.pkg.drawn (accessDraws s.pkg x)
    let c := s.pkg.c x
    let ms := moves s.env.dtime c b
    let ts := firing c (triggers x c b ms)
    let q := if b.hdr.join then (joinViews x (c.joins + 1) p).modC x fun c => { c with joins := c.joins + 1 } else p
    (s.pkg.k (coreOf x)).poison.get (c.pc / 64) = false → illegal c b ms (triggers x c b ms) = false →
    (c.smode = true ∨ ∀ t ∈ triggers x c b ms, privileged t = false) → blocking q x ts = none →
    (∀ t ∈ ts, t.unit = 12 → t.op = 14 → waitFault c t.fire.b.toS = none) →
    (∀ t ∈ ts, badAddress t = false ∧ badTarget t = false ∧ badData q x ts t = false) →
    c.spoiled = false → badOwn p x ts = false → badAmong x (performs ts c.joins) p = false → c.check = none →
    ∃ t, exec (.bundleIssue x b) s = .next t ∧
      let d := t.pkg.c x
      t.env = s.env ∧ d.pc = c.pc + 32 ∧ d.phase = .running ∧ d.flight.map (·.left) = (c.flight.map fun e => e.left - 1) ∧
      t.pkg.micro = inFiringOrder c.tmpl ts ++ s.pkg.micro ∧
      (∀ n, d.s.get n = ((ms.find? fun m => m.dst == .s n).map fun m => m.val.toS).getD (c.s.get n)) ∧
      (∀ n, d.m.get n = ((ms.find? fun m => m.dst == .m n).map fun m => m.val.toM).getD (c.m.get n)) ∧
      (∀ n < 8, d.p.getLsbD n = ((ms.find? fun m => m.dst == .p n).map fun m => m.val.toP).getD (c.p.getLsbD n)) ∧
      (∀ code, d.cr code = ((ms.find? fun m => m.dst == .creg code).map fun m => m.val.toS &&& cregMask code).getD (c.cr code)) ∧
      (∀ n < 64, d.v.get (c.phys n) = ((ms.find? fun m => m.dst == .v n).map fun m => m.val.toV).getD (c.v.get (c.phys n))) ∧
      (∀ code, d.rport.get code = c.rport.get code ∧ d.vport.get code = c.vport.get code) ∧
      (∀ k, d.tokens.get k = c.tokens.get k) ∧
      (∀ y, y ≠ x → SameRegs (s.pkg.c y) (t.pkg.c y)) ∧
      ((∀ t ∈ ts, t.unit ≠ 12 ∧ t.unit ≠ 13) → SameStorage s.pkg t.pkg)

/-! ## Traps -/

/-- R307, R308: taking an S-class trap: the context is frozen with the cause, in the state it left, its next address as given,
its entries still in flight, its watchdog count cleared, and a record of kind 3 is on its way that names the cause, the
node, the context and both addresses; every register, every other context and all storage are as before. R37, R150, R309:
taking a U-class trap: c.tpc holds the address of the trapping bundle, c.tinfo the cause in bits 7:0, the unit in 15:8 and
the detail in 63:16; the next bundle is the handler's at c.tvec; redirections still pending are cancelled; every other
register is as before. With c.tvec = 0 the S-class trap of cause 0x26 is taken instead, whose record names a check whose mismatch has landed
(log 29). -/
def Obligations.TrapsTaken : Prop :=
  (∀ (x cause pc tpc lpc : Nat) (s : State),
    TrappedS x cause tpc lpc pc s { s with pkg := sTrap s.env x cause pc tpc lpc s.pkg }) ∧
  (∀ (x cause unit detail tpc : Nat) (s : State), cause < 256 → unit < 256 → detail < 2 ^ 48 → tpc < 2 ^ 32 → tpc % 32 = 0 →
    let c := s.pkg.c x
    let q := uTrap s.env x cause unit detail tpc s.pkg
    (c.tvec = 0 → TrappedS x 0x26 ((c.check.map (·.1)).getD tpc) tpc tpc s { s with pkg := q }) ∧
    (c.tvec ≠ 0 → TrappedU x tpc (cause + 2 ^ 8 * unit + 2 ^ 16 * detail) s { s with pkg := q }))

/-! ## Choosing a context -/

/-- R39 to R42: a clock cycle of a core whose cluster is on. The blocked contexts whose next bundles can issue are ready first. Then the
context that rule 5 has given issue and that has not issued yet keeps it, and else an aged one takes it; with none of them, and the
quantum of the running context not reached (rule 3 is the event QUANTUM_EXPIRY), the running context keeps issue unless a ready one
of strictly higher priority displaces it (rules 1 and 4); with none running the ready context of the highest priority takes issue
(rule 2), and without one the core holds. Of the context chosen: unless a branch, a halt or a trap is due at its next bundle or that
blocks, its due entries land and its bundle is next. R41, rule 2: of the contexts of a core that pass a test, the one taken has the
highest priority; none is taken only where none passes. Who comes first among equals, and the count of rule 5, are as log 18 says. -/
def Obligations.CoresChoose : Prop :=
  (∀ (n : Nat) (s : State),
    let p := wakeBlocked s.env n s.pkg
    let clear (q : Pkg) (x : Nat) : Prop :=
      dueBranch (q.c x) = none ∧ dueHalt (q.c x) = none ∧ (q.c x).pc < 0x800000 ∧ nextBlocks s.env x q = none
    let takes (q : Pkg) (x : Nat) : Prop :=
      clear q x → exec (.contextChoose n) s = .next { s with pkg := q.push [.run (.entryLanding x), .bundle x] }
    let higher (r x : Nat) : Bool := isReady p x && decide (p.priority r < p.priority x)
    let first (x : Nat) : Prop := (p.k n).running = some x ∧ 1024 ≤ (p.c x).waited
    n < 72 → s.pkg.powerOf n = 0 →
    (∀ x, first x → takes p x) ∧
    ((∀ x, ¬first x) →
      (∀ x, agedCtx p n = some x → takes (giveIssue n x p) x) ∧
      (agedCtx p n = none →
        (∀ r, (p.k n).running = some r → (p.k n).quantum < bits (p.regv (0x01000008 + 0x1000 * n)) 8 0 →
          (firstOf p n (higher r) = none → takes p r) ∧ ∀ x, firstOf p n (higher r) = some x → takes (giveIssue n x p) x) ∧
        ((p.k n).running = none →
          (firstOf p n (isReady p) = none → exec (.contextChoose n) s = .next { s with pkg := p }) ∧
          ∀ x, firstOf p n (isReady p) = some x → takes (giveIssue n x p) x)))) ∧
  (∀ (p : Pkg) (n : Nat) (ok : Nat → Bool),
    (∀ x, firstOf p n ok = some x → ok x ∧ coreOf x = n ∧ ∀ y, coreOf y = n → ok y → p.priority y ≤ p.priority x) ∧
    (firstOf p n ok = none → ∀ y, coreOf y = n → ok y = false)) ∧
  (∀ (env : Env) (p : Pkg) (n x : Nat), coreOf x = n → (∀ y, coreOf y = n → y ≠ x → (p.c y).phase ≠ .blocked) →
    let q := wakeBlocked env n p
    ((p.c x).phase = .blocked → nextBlocks env x p = none →
      q = p.modC x fun c => { c with phase := .ready, watchdog := c.watchdog + (env.clock - c.blockedAt), waited := 0 }) ∧
    ((p.c x).phase ≠ .blocked ∨ nextBlocks env x p ≠ none → q = p))

/-- R40, R41, R309: the events of scheduling. A running context that has issued its quantum gives issue to a ready one of its
priority or more, where there is one; a ready context that has waited 1,024 issue cycles takes issue, but not from one that was given
it so and has not issued yet; a sleeper whose time
has come is ready; a context blocked for the watchdog's interval takes the U-class trap of cause 4 at its bundle. -/
def Obligations.SchedulingEvents : Prop :=
  ∀ (n x : Nat) (s : State),
    let p := s.pkg
    let goes (i : Instr) (q : Pkg) : Prop := exec i s = .next { s with pkg := q }
    (∀ r y, (p.k n).running = some r → bits (p.regv (0x01000008 + 0x1000 * n)) 8 0 ≤ (p.k n).quantum →
      firstOf p n (fun z => isReady p z && decide (p.priority r ≤ p.priority z)) = some y → goes (.quantumExpiry n) (giveIssue n y p)) ∧
    (let aged (y : Nat) : Prop := firstOf p n (fun z => isReady p z && decide (1024 ≤ (p.c z).waited)) = some y
     (∀ y, aged y → (∀ r, (p.k n).running = some r → (p.c r).waited < 1024) → goes (.agingExpiry n) (giveIssue n y p)) ∧
     (∀ r, (p.k n).running = some r → 1024 ≤ (p.c r).waited → goes (.agingExpiry n) p)) ∧
    ((p.c x).phase = .sleeping → (p.c x).wake ≤ s.env.dtime →
      goes (.sleepWake x) (p.modC x fun c => { c with phase := .ready, waited := 0 })) ∧
    (let w := p.regv (0x01000010 + 0x1000 * coreOf x)
     ∀ u, (p.c x).phase = .blocked → w ≠ 0 → w ≤ (p.c x).watchdog + (s.env.clock - (p.c x).blockedAt) →
      nextBlocks s.env x p = some u → goes (.waitTimeout x) (uTrap s.env x 4 u 0 (p.c x).pc p))

/-! ## Tokens and templates -/

/-- R189, R190, R197: `ec.wait` has no effect on registers or storage where every token it names has completed without an unreported
fault, takes the U-class trap for the lowest faulted one, and blocks otherwise. The trap: c.tpc is the wait's bundle, c.tinfo holds
the cause (2, or 3 for the dense fallback of a selection, R255), the unit 12, the token's number, its status, the command's unit less
12 and its operation, for a dense fallback the flags; the token is acknowledged, and no other is. `ec.test` reports a token's state
and status and marks it reported. What a completed token's command did comes before what its context does next: the model notes the
commands (R100) (log 55). `ec.tmpl` stores the 64 bytes at its address as a template, an empty one where they are no template. -/
def Obligations.TokenOperations : Prop :=
  ∀ s : State,
    let f := s.pkg.fire
    let x := f.ctx
    let c := s.pkg.c x
    let trig := c.pc - 32
    let named (k : Nat) : Prop := k < 64 ∧ f.b.toS.getLsbD k
    let ended (k : Nat) : Prop := (c.tokens.get k).state = .complete ∨ (c.tokens.get k).state = .free
    let bad (k : Nat) : Prop := (c.tokens.get k).state = .complete ∧ (c.tokens.get k).status ≠ 0 ∧ (c.tokens.get k).acked = false
    ((∀ k, named k → ended k ∧ ¬bad k) → exec .ecWait s =
      .next { s with pkg := foundTokens x ((List.range 64).filter f.b.toS.getLsbD) s.pkg }) ∧
    (∀ ks, let q := foundTokens x ks s.pkg
      (∀ k ∈ ks, (c.tokens.get k).state = .complete → (c.tokens.get k).cmd ≠ 0 → (c.tokens.get k).cmd ∈ (q.c x).after) ∧
      OnlyFlight x s { s with pkg := q } ∧ (q.c x).flight = c.flight) ∧
    (∀ k, (∀ j, named j → ended j) → named k → bad k → (∀ j < k, named j → ¬bad j) →
      let t := c.tokens.get k
      let dense := t.unit = 13 ∧ t.op = 7 ∧ t.status = 0x2C
      let tinfo := (if dense then 3 else 2) + 2 ^ 8 * 12 + 2 ^ 16 * k + 2 ^ 24 * t.status + 2 ^ 32 * (t.unit - 12) + 2 ^ 40 * t.op +
        (if dense then 2 ^ 48 * (t.flags % 8) else 0)
      t.status < 256 → 12 ≤ t.unit → t.unit ≤ 13 → t.op < 32 → trig < 2 ^ 32 → trig % 32 = 0 →
      ∃ u, exec .ecWait s = .next u ∧ ((u.pkg.c x).tokens.get k).acked = true ∧
        (∀ j, j ≠ k → (u.pkg.c x).tokens.get j = c.tokens.get j) ∧ (c.tvec ≠ 0 → TrappedU x trig tinfo s u) ∧
        (c.tvec = 0 → (u.pkg.c x).phase = .frozen ∧ (u.pkg.c x).cause = 0x26 ∧ (u.pkg.c x).pc = trig ∧ SameStorage s.pkg u.pkg)) ∧
    (∀ k, named k → ¬ended k → ∃ t, exec .ecWait s = .next t ∧ (t.pkg.c x).phase = .blocked ∧ (t.pkg.c x).pc = trig) ∧
    (let k := f.b.toS.toNat % 64
     let t := c.tokens.get k
     let r := (if t.state = .complete ∨ t.state = .free then 256 else 0) + (if t.acked then 512 else 0) +
       (if t.state = .complete then t.status else 0)
     let p := (foundTokens x [k] s.pkg).modC x fun c =>
       { c with tokens := c.tokens.modify k fun t => if t.state = .complete then { t with acked := true } else t }
     exec .ecTest s = .next (inFlight x (landing 12 15 1 (some (.s (BitVec.ofNat 64 r))) none 0) { s with pkg := p })) ∧
    (let a := f.a.toS.toNat
     a % 64 = 0 → a + 64 ≤ 0x800000 →
     (f.sound = false → ∀ w, a / 4 ≤ w → w < a / 4 + 16 → s.pkg.poisonedAt x false c.joins [] w = false) →
      ∃ t, exec .ecTmpl s = .next t ∧ SameStorage s.pkg t.pkg ∧
        (t.pkg.c x).tmpl.get (f.b.toS.toNat % 64) = (if templateOk (loadBytes s.pkg x a 64) then loadBytes s.pkg x a 64 else []) ∧
        ∀ j, j ≠ f.b.toS.toNat % 64 → (t.pkg.c x).tmpl.get j = c.tmpl.get j)

/-! ## The sys unit -/

/-- R312, R316: `crd` puts the register that B names on its way to sys.r, four issue cycles on: with B[12] clear the context register
of the code B[7:0], where that is from 0x0C0 to 0x0DA, of the context A names; every number that names none reads 0. `cwr` and
`halt` take effect one issue cycle on: `cwr` writes the context register of a frozen or unbound context
other than its own, every field of it, and changes nothing where the context is neither; `halt` freezes its own context.
R313: an asynchronous operation puts its acceptance on its way to sys.r, one issue cycle on: 1 where its record's address is
no multiple of 16 in linear scratchpad, 2 where the context's list holds eight, and 0 otherwise; only then it is in the
list, behind those before it, with its operands. The order of the acceptance tests is the model's reading (log 62). -/
def Obligations.SysOperations : Prop :=
  (∀ s : State,
    let f := s.pkg.fire
    let x := f.ctx
    let n := f.b.toS.toNat % 8192
    let code := n % 256
    let named := n < 0x1000 ∧ 0x0C0 ≤ code ∧ code ≤ 0x0DA
    let y := 4 * (x / 4) + f.a.toS.toNat % 4
    let entry (op : Nat) : Entry :=
      { unit := 15, op := op, left := 1, order := 0, kind := .sysop, trig := (s.pkg.c x).pc - 32, a := f.a.toS, d := f.d.toS, b := f.b.toS }
    (named → code ≠ 0x0D7 → Triggers .sysCrd s (landing 15 1 4 (some (.s ((s.pkg.c y).cr code))) none 0)) ∧
    (named → code = 0x0D7 → Triggers .sysCrd s (landing 15 1 4 (some (.s (BitVec.ofNat 64 s.env.dtime))) none 0)) ∧
    (n < 0x1000 → ¬named → Triggers .sysCrd s (landing 15 1 4 (some (.s 0)) none 0)) ∧
    (n = 0x1030 → Triggers .sysCrd s (landing 15 1 4 (some (.s 1)) none 0)) ∧
    Triggers .sysCwr s (entry 2) ∧ Triggers .sysHalt s (entry 10) ∧
    (∀ env p, named → code ≠ 0x0D7 → y ≠ x → (p.c y).phase = .frozen ∨ (p.c y).phase = .unbound →
      landEntry env x (entry 2) p = p.modC y fun c => c.setCr code f.d.toS) ∧
    (∀ env p, n < 0x1000 → ¬named ∨ code = 0x0D7 → landEntry env x (entry 2) p = p) ∧
    (∀ env p, n < 0x1000 → (p.c y).phase ≠ .frozen → (p.c y).phase ≠ .unbound → landEntry env x (entry 2) p = p) ∧
    (∀ env p, n < 0x1000 → y = x → landEntry env x (entry 2) p = p) ∧
    (∀ env p, f.b.toS.getLsbD 0 = false → (p.c x).phase = .running → ((landEntry env x (entry 10) p).c x).phase = .frozen ∧
      ((landEntry env x (entry 10) p).c x).cause = 0x28)) ∧
  (∀ s : State,
    let f := s.pkg.fire
    let x := f.ctx
    let c := s.pkg.c x
    let addr := f.c.toS.toNat
    let good := addr % 16 = 0 ∧ addr + 16 ≤ 0x800000
    let answers (i : Instr) (op : Nat) : Prop :=
      let res (r : Nat) (s' : State) : Prop := exec i s = .next (inFlight x (landing 15 op 1 (some (.s (BitVec.ofNat 64 r))) none 0) s')
      let o : SysOp := { op := op, a := f.a.toS, d := f.d.toS, c := f.c.toS, b := f.b.toS, asid := c.asid, node := c.node.getD 0 }
      (¬good → res 1 s) ∧ (good → 8 ≤ c.sysq.length → res 2 s) ∧
      (good → c.sysq.length < 8 → res 0 { s with pkg := s.pkg.modC x fun c => { c with sysq := c.sysq ++ [o] } })
    answers .sysMld 3 ∧ answers .sysMst 4 ∧ answers .sysSnap 5 ∧ answers .sysSnapld 6 ∧ answers .sysFreeze 7 ∧ answers .sysThaw 8 ∧
    answers .sysTlbi 9 ∧ answers .sysGrp 11 ∧ answers .sysLaunch 12)

/-! ## Trowel units -/

/-- R263 to R265: in an idle step of a channel that is not halted, an instruction on registers changes, in every unit of the
channel, its destination register lane by lane as the table says, leaves every other register and, but for `cmp`, the lane
mask as they are, goes on at the next word, and changes no storage. `cmp` combines its bit for each lane with the mask's.
The units of a channel hold one program counter (log 14). -/
def Obligations.TrowelLanes : Prop :=
  ∀ (s : State) (st : DriveStep) (rd ra rb rc : BitVec 5) (sh : BitVec 5) (f : Bool),
    let ch := s.pkg.focus
    let c := s.pkg.chans.get ch
    c.step = some st → c.halted = false →
    let idle (i : Instr) (unit : Trowel → Trowel → Prop) : Prop :=
      ∃ t, exec i s = .next t ∧ SameStorage s.pkg t.pkg ∧ (t.pkg.chans.get ch).pc = c.pc + 1 ∧
        (∀ k < 64, unit (c.units.get k) ((t.pkg.chans.get ch).units.get k)) ∧ ∀ o, o ≠ ch → t.pkg.chans.get o = s.pkg.chans.get o
    let writes (i : Instr) (g : Trowel → Nat → Lane) : Prop :=
      idle i fun u v => v.msk = u.msk ∧ (∀ r, r ≠ rd → v.reg r = u.reg r) ∧ ∀ j < 64, twLane (v.reg rd) j = g u j
    let a (u : Trowel) (j : Nat) : Lane := twLane (u.reg ra) j
    let b (u : Trowel) (j : Nat) : Lane := twLane (u.reg rb) j
    idle .twNop (fun u v => v = u) ∧
    writes (.twAddI32 rd ra rb) (fun u j => a u j + b u j) ∧ writes (.twSubI32 rd ra rb) (fun u j => a u j - b u j) ∧
    writes (.twMulI32 rd ra rb) (fun u j => a u j * b u j) ∧
    writes (.twAddF32 rd ra rb) (fun u j => laneOf (addF32 (a u j) (b u j))) ∧
    writes (.twSubF32 rd ra rb) (fun u j => laneOf (finish f32 (FVal.add (Lane.val (a u j)) (Lane.val (b u j)).neg))) ∧
    writes (.twMulF32 rd ra rb) (fun u j => laneOf (mulF32 (a u j) (b u j))) ∧
    writes (.twFmaF32 rd ra rb rc) (fun u j => laneOf (fmaF32 (a u j) (b u j) (twLane (u.reg rc) j))) ∧
    writes (.twMin rd ra rb f) (fun u j => if f then minF32 (a u j) (b u j) else BitVec.ofInt 32 (min (a u j).toInt (b u j).toInt)) ∧
    writes (.twMax rd ra rb f) (fun u j => if f then maxF32 (a u j) (b u j) else BitVec.ofInt 32 (max (a u j).toInt (b u j).toInt)) ∧
    writes (.twAnd rd ra rb) (fun u j => a u j &&& b u j) ∧ writes (.twOr rd ra rb) (fun u j => a u j ||| b u j) ∧
    writes (.twXor rd ra rb) (fun u j => a u j ^^^ b u j) ∧
    writes (.twShlReg rd ra rb) (fun u j => BitVec.ofNat 32 ((a u j).toNat * 2 ^ ((b u j).toNat % 32))) ∧
    writes (.twShlImm rd ra sh) (fun u j => BitVec.ofNat 32 ((a u j).toNat * 2 ^ sh.toNat)) ∧
    writes (.twShrReg rd ra rb) (fun u j => BitVec.ofNat 32 ((a u j).toNat / 2 ^ ((b u j).toNat % 32))) ∧
    writes (.twShrImm rd ra sh) (fun u j => BitVec.ofNat 32 ((a u j).toNat / 2 ^ sh.toNat)) ∧
    writes (.twSraReg rd ra rb) (fun u j => BitVec.ofInt 32 ((a u j).toInt / 2 ^ ((b u j).toNat % 32))) ∧
    writes (.twSraImm rd ra sh) (fun u j => BitVec.ofInt 32 ((a u j).toInt / 2 ^ sh.toNat)) ∧
    writes (.twSel rd ra rb) (fun u j => if u.msk.getLsbD j then a u j else b u j) ∧
    idle (.twHmix rd ra rb) (fun u v => v.msk = u.msk ∧ (∀ r, r ≠ rd → v.reg r = u.reg r) ∧
      ∀ j < 32, twPair (v.reg rd) j = mix64 (twPair (u.reg ra) j ^^^ twPair (u.reg rb) j)) ∧
    ∀ (m : BitVec 2) (k : BitVec 3), m ≠ 3 → idle (.twCmp ra rb m k) (fun u v => (∀ r, v.reg r = u.reg r) ∧ ∀ j < 64,
      let x := a u j
      let y := b u j
      let q : Bool := if k = 0 then x == y else if k = 1 then x != y else if k = 2 then decide (x.toInt < y.toInt)
        else if k = 3 then decide (x.toNat < y.toNat) else if k = 4 then decide (x.toInt ≤ y.toInt)
        else if k = 5 then (Lane.val x).eq (Lane.val y) else if k = 6 then (Lane.val x).lt (Lane.val y)
        else (Lane.val x).le (Lane.val y)
      v.msk.getLsbD j = if m = 0 then q else if m = 1 then (u.msk.getLsbD j && q) else (u.msk.getLsbD j || q))

/-- R263, R267: `ld` in a read step gives each unit its column's burst, in any other step zeros; `st` in a write step writes
each column's burst from the unit's register, 256 bytes at the place of the step, and no other byte; a step of another kind
is a mismatch, kept on the channel. The units of a channel hold one program counter (log 14). R264: `loop` and `loopx` open
a loop whose body starts at the next word, where the count is not 0; `endl` goes back to the body while iterations are left,
and otherwise closes the loop; `halt` halts the channel. None changes a register or storage. R267: BU_DRIVE_STEP of an idle
entry: the channel takes the step, its trowel units' instruction is next, or where they have halted the step is over at
once, and the drive has one step less to make. With no drive, or none that steps, nothing happens. The units of a channel
hold one program, counter and loop state (log 14). -/
def Obligations.TrowelPrograms : Prop :=
  (∀ (s : State) (st : DriveStep) (r : BitVec 5),
     let ch := s.pkg.focus
     let c := s.pkg.chans.get ch
     c.step = some st → c.halted = false →
     (∃ t, exec (.twLd r) s = .next t ∧ SameStorage s.pkg t.pkg ∧ (t.pkg.chans.get ch).pc = c.pc + 1 ∧
       (st.kind ≠ 1 → (t.pkg.chans.get ch).mismatch = true) ∧
       ∀ k < 64, let u := c.units.get k
         let v := (t.pkg.chans.get ch).units.get k
         (∀ q, q ≠ r → v.reg q = u.reg q) ∧ v.msk = u.msk ∧ (st.kind ≠ 1 → v.reg r = 0) ∧
         (st.kind = 1 → v.reg r = BitVec.ofNat 2048 (natOf (s.pkg.mem.getMany (st.places.getD k 0) 256)))) ∧
     (∃ t, exec (.twSt r) s = .next t ∧ (t.pkg.chans.get ch).pc = c.pc + 1 ∧ (st.kind ≠ 2 → (t.pkg.chans.get ch).mismatch = true) ∧
       (∀ n, t.pkg.k n = s.pkg.k n) ∧ (∀ z, t.pkg.side.get z = s.pkg.side.get z) ∧
       (∀ z, (st.kind = 2 → ∀ p ∈ st.places, z < p ∨ p + 256 ≤ z) → t.pkg.mem.get z = s.pkg.mem.get z) ∧
       (st.kind = 2 → (∀ i < st.places.length, ∀ j < st.places.length, i ≠ j →
           st.places.getD i 0 + 256 ≤ st.places.getD j 0 ∨ st.places.getD j 0 + 256 ≤ st.places.getD i 0) →
         ∀ i < st.places.length, ∀ b < 256, t.pkg.mem.get (st.places.getD i 0 + b) =
           ((c.units.get i).reg r).extractLsb' (8 * b) 8))) ∧
  (∀ (s : State) (st : DriveStep) (n : BitVec 16),
    let ch := s.pkg.focus
    let c := s.pkg.chans.get ch
    let at_ (i : Instr) (f : Channel → Prop) : Prop := ∃ t, exec i s = .next t ∧ SameStorage s.pkg t.pkg ∧
      (∀ k < 64, (t.pkg.chans.get ch).units.get k = c.units.get k) ∧ f (t.pkg.chans.get ch)
    (c.step = some st → c.halted = false → n ≠ 0 →
      at_ (.twLoop n) (fun d => d.lvl = 1 ∧ d.lc0 = n.toNat ∧ d.top0 = c.pc + 1 ∧ d.pc = c.pc + 1) ∧
      at_ (.twLoopx n) (fun d => d.lvl = 2 ∧ d.lc1 = n.toNat ∧ d.top1 = c.pc + 1 ∧ d.pc = c.pc + 1)) ∧
    (c.step = some st → c.halted = false →
      at_ (.twLoop 0) (fun d => d.lvl = 0) ∧ at_ (.twLoopx 0) (fun d => d.lvl = 1)) ∧
    (c.halted = false → c.lvl = 2 → 1 < c.lc1 → at_ .twEndl (fun d => d.lc1 = c.lc1 - 1 ∧ d.pc = c.top1 ∧ d.lvl = 2)) ∧
    (c.halted = false → c.lvl = 2 → c.lc1 ≤ 1 → at_ .twEndl (fun d => d.pc = c.pc + 1 ∧ d.lvl = 1)) ∧
    (c.halted = false → c.lvl ≠ 2 → 1 < c.lc0 → at_ .twEndl (fun d => d.lc0 = c.lc0 - 1 ∧ d.pc = c.top0 ∧ d.lvl = c.lvl)) ∧
    (c.halted = false → c.lvl ≠ 2 → c.lc0 ≤ 1 → at_ .twEndl (fun d => d.pc = c.pc + 1 ∧ d.lvl = 0)) ∧
    at_ .twHalt (fun d => d.halted = true)) ∧
  (∀ (ch id : Nat) (s : State),
    let p := s.pkg
    let m := p.cmd id
    let e := field m.cmd.local0 (4 * m.progress) 4
    ((p.chans.get ch).holder = none → exec (.buDriveStep ch) s = .next s) ∧
    ((p.chans.get ch).holder = some id → p.present id = true → stepping m = true → (∀ h ∈ p.held, h.cmd ≠ some id) →
      m.progress < m.cmd.c.toNat → e / 2 ^ 30 = 0 → (p.chans.get ch).halted = false →
      ∃ t, exec (.buDriveStep ch) s = .next t ∧ t.pkg.micro = .trowel ch :: p.micro ∧
        ((t.pkg.chans.get ch).step).map (fun d => (d.kind, d.cmd, d.places)) = some (0, id, []) ∧ SameStorage p t.pkg ∧
        (∀ k, k ≠ ch → t.pkg.chans.get k = p.chans.get k) ∧ ∀ x, t.pkg.c x = p.c x) ∧
    ((p.chans.get ch).holder = some id → p.present id = true → stepping m = true → (∀ h ∈ p.held, h.cmd ≠ some id) →
      m.progress < m.cmd.c.toNat → e / 2 ^ 30 = 0 → (p.chans.get ch).halted = true →
      ∃ t, exec (.buDriveStep ch) s = .next t ∧ SameStorage p t.pkg ∧ ∀ x, (t.pkg.c x).phase = (p.c x).phase))

/-! ## Engine commands -/

/-- R185 to R188, R191, R330: an engine command that makes accesses completes its step in every state, and the step says by what its
accesses come to. Where every access that is left is accepted, the command has started with the status, the writes, the late
writes and the stamp they come to, each write cut into the parts that are performed whole; a notice, an arrival or a drive,
whose end comes from elsewhere, stands as arrived. Where an access is refused with a status, the command has started with that
status and some of the writes made before it, its stamp kept; where an access is held, the command waits and the hold is kept;
where it must wait, or pauses between accesses, it waits. No other command changes by an accepted step and time stands still.
The statements after this one say for each row on which states and operands its accesses are accepted. That accesses are
made in steps of the model's choosing is log 25; which writes of a refused command stand is free (logs 2 and 93). -/
def Obligations.EngineCommandsStart : Prop :=
  ∀ q ∈ engineRows, ∀ (c : Cmd) (s : State) (w : Work), s.pkg.present c.id = true →
    let m := w.p.cmd c.id
    let made := q.2 c ⟨s.env, c⟩ (Work.of s.pkg c.id)
    let writes := m.writes ++ w.writes.flatMap splitWrite
    let next (f : Pkg → Command → Prop) : Prop := ∃ t, exec (q.1 c) s = .next t ∧ t.env = s.env ∧ f t.pkg (t.pkg.cmd c.id)
    (made = .ok () w → next fun p d => SameStorage w.p p ∧ (∀ n, n ≠ c.id → p.cmd n = w.p.cmd n) ∧
      (m.phase = .arrived → d.phase = .arrived) ∧
      (m.phase ≠ .arrived → d.phase = .started ∧ d.status = (if w.status = 0 then m.status else w.status) ∧ d.writes = writes ∧
        d.late = w.late ∧ d.stamp = w.stamp)) ∧
    (∀ n, made = .error (.status n) w → next fun p d => SameStorage w.p p ∧ d.phase = .started ∧ d.status = n ∧ d.late = [] ∧
      d.stamp = w.stamp ∧ ∀ x ∈ d.writes, x ∈ writes) ∧
    (∀ h, made = .error (.held h) w → next fun p d => SameStorage w.p p ∧ d.phase = .waiting ∧ d.writes = writes ∧ h ∈ p.held) ∧
    (made = .error .wait w ∨ made = .error .pause w → next fun p d => SameStorage w.p p ∧ d.phase = .waiting ∧ d.writes = writes) ∧
    ∀ r, made = .error (.nodeFail r) w → exec (q.1 c) s = .next { s with pkg := failNode s.env.clock c.node r w.p }

/-- R205 to R209: a synchronisation command at an address that is served plainly, on a core whose cluster is on. Each of the five
rows `ec.acq`, `ec.acqw`, `ec.rel`, `ec.amo` and `ec.amor` completes there. `ec.acq` returns the word as it is, with flags 0.
`ec.acqw` returns the word with flags 0 where its condition holds and its deadline is not reached; with the deadline reached
it returns the last value read, or where none has been read the word, with flags 2; else it waits, with the value kept.
Neither changes anything else. `ec.rel` whose covered writes are all performed leaves D in the word, or its value plus D with
B[0] = 1, and every other byte as before. `ec.amo` leaves the element's new value by R206 in its place at once and every other
byte as before, and returns the old one with its fail flag. `ec.amor` has one contribution to be applied for each element, with
the operand that its list holds. Each return is one write of the record of R205. -/
def Obligations.SyncCommands : Prop :=
  ∀ (c : Cmd) (s : State) (l : Leaf) (k : Nat), s.pkg.present c.id = true → Fresh (s.pkg.cmd c.id) → s.pkg.powerOf (coreOf c.ctx) = 0 →
    let p := s.pkg
    let m := p.cmd c.id
    let a := c.a.toNat
    let x : Word := BitVec.ofNat 64 (natOf (p.mem.getMany k 8))
    let ret (old flags : Nat) : PWrite := Eng.localCells (coreOf c.ctx) (returnAddr c.b) (returnRecord old flags)
    let reads (i : Instr) (old flags : Nat) : Prop :=
      ∃ t, exec i s = .next t ∧ Started (t.pkg.cmd c.id) 0 [] [ret old flags] ∧ SameStorage p t.pkg
    let leaves (i : Instr) (n : Nat) (bs : List Byte) (late : List PWrite) : Prop :=
      ∃ t, exec i s = .next t ∧ Started (t.pkg.cmd c.id) 0 [] late ∧ (∀ m, t.pkg.k m = p.k m) ∧ (∀ z, t.pkg.side.get z = p.side.get z) ∧
        (∀ j < n, t.pkg.mem.get (k + j) = bs.getD j 0) ∧ ∀ z, z < k ∨ k + n ≤ z → t.pkg.mem.get z = p.mem.get z
    let record := Eng.linear (returnAddr c.b) 16 16 = true
    (Served p c a k l → a % 8 = 0 → record → reads (.ecAcq c) x.toNat 0) ∧
    (let reached := m.timedOut = true ∨ (c.c ≠ 0 ∧ c.c.toNat ≤ s.env.dtime)
     let cond := acqCond (bits c.b.toNat 26 24) x c.d
     bits c.b.toNat 26 24 < 6 → a % 8 = 0 → record →
      (reached → m.progress = 1 → reads (.ecAcqw c) m.lastRead 2) ∧
      (Served p c a k l →
        (reached → m.progress ≠ 1 → reads (.ecAcqw c) x.toNat 2) ∧ (¬reached → cond = true → reads (.ecAcqw c) x.toNat 0) ∧
        (¬reached → cond = false → ∃ t, exec (.ecAcqw c) s = .next t ∧ SameStorage p t.pkg ∧ (t.pkg.cmd c.id).phase = .waiting ∧
          (t.pkg.cmd c.id).progress = 1 ∧ (t.pkg.cmd c.id).lastRead = x.toNat))) ∧
    (Served p c a k l → a % 8 = 0 → covered p c a = false →
      leaves (.ecRel c) 8 (bytesOf 8 (if c.b.getLsbD 0 then x + c.d else c.d).toNat) []) ∧
    (let n := atomicBytes (opType c.b)
     let old := natOf (p.mem.getMany k n)
     let r := atomicNew (opCode c.b) (opType c.b) old (c.d.toNat % 2 ^ (8 * n)) (c.c.toNat % 2 ^ (8 * n))
     Served p c a k l → atomicOk (opCode c.b) (opType c.b) = true → record → a % n = 0 → atomicBehind p c (opCode c.b) [a] = false →
      (opCode c.b ≠ 0 → leaves (.ecAmo c) n (bytesOf n r.1) [ret old (b2n r.2)]) ∧
      (opCode c.b = 0 → reads (.ecAmo c) old (b2n r.2))) ∧
    (let n := atomicBytes (opType c.b)
     let cnt := c.c.toNat
     let el (i : Nat) : Nat := a + i * max 1 (bits c.b.toNat 63 40) * n
     commutes (opCode c.b) = true → atomicOk (opCode c.b) (opType c.b) = true → 0 < cnt → cnt ≤ 2 ^ 20 → c.d.toNat + cnt * n ≤ 0x800000 →
      a % n = 0 → (∀ i < cnt, Serves p c (el i) n) → atomicBehind p c (opCode c.b) ((List.range cnt).map el) = false → Clean p (coreOf c.ctx) →
      Ends (.ecAmor c) c s 0 ((List.range cnt).map fun i => .amo (el i) none false (placeOf p c.asid (el i)) (opType c.b) (opCode c.b)
        (BitVec.ofNat 64 (field (localBytes p c c.d.toNat (cnt * n)) (i * n) n))) [] fun _ => True)

/-- R192 to R194: a `copyl` between local storage of the issuing core and device memory, in all four directions, without a
stamp: it starts with the writes that put, byte for byte, what it reads of the source at the destination, a word of local
storage or a sector of device memory at a time (R98). R196, R198: a `copy` by a template, from device memory to local storage,
with the transforms that move elements: its writes are the units of the template's bytes, each with the bytes of its sources, one
of them where several go to one place. R204: a `pull` of a notice of the same package reads the sender's buffer from its offset on.
R199: a `retile` of a correct format, source and region writes for each block-plane, tile column and member row the units of the
source, packed, into the planes of the block by R87, and the scales, or zeros, into the side slot of its first plane, and last the
region's layout identifier. R273: a `chk` writes the hash of each page in one write. R200: a prefetch changes no byte. Each of the six rows completes with status 0. The
hypotheses are that ranges lie where the rules have them and that device memory is served plainly. Words that nothing orders
are old or new by the model's free values (log 2). -/
def Obligations.CopyCommands : Prop :=
  ∀ (c : Cmd) (s : State), s.pkg.present c.id = true → Fresh (s.pkg.cmd c.id) → s.pkg.powerOf (coreOf c.ctx) = 0 →
    let p := s.pkg
    let core := coreOf c.ctx
    let a := c.a.toNat
    let d := c.d.toNat
    let n := c.c.toNat
    let ends (i : Instr) (ws late : List PWrite) : Prop := Ends i c s 0 (ws.flatMap splitWrite) late fun q => q.tiles = p.tiles ∧ q.chans = p.chans
    (c.b.getLsbD 4 = false → 0 < n → n < 2 ^ 32 →
      let kind := c.b.toNat % 16
      let src := a % 2 ^ 32
      let dst := d % 2 ^ 32
      (kind = 5 → Clean p core → Eng.localOk src n = true → src < 0x2000000 → Eng.localOk dst n = true →
        ends (.ecCopyl c) (Eng.localWrites core dst (localBytes p c src n)) []) ∧
      (kind = 4 → Serves p c a n → Eng.localOk dst n = true → ends (.ecCopyl c) (Eng.localWrites core dst (bytesAt p c.asid a n)) []) ∧
      (kind = 1 → Clean p core → Eng.localOk src n = true → src < 0x2000000 → Serves p c d n →
        ends (.ecCopyl c) (granuleWrites p c.asid d (localBytes p c src n)) []) ∧
      (kind = 0 → Serves p c a n → Serves p c d n → ends (.ecCopyl c) (granuleWrites p c.asid d (bytesAt p c.asid a n)) [])) ∧
    (let t := templateOf c.tmpl
     let w := 2 ^ t.esize
     let src (o : Int × Int) : Nat := ((a + o.1) % 2 ^ 64).toNat
     let dst (o : Int × Int) : Nat := swizzleSide t.xform 1 ((d + o.2) % 2 ^ 64).toNat % 2 ^ 32
     let moves := (templateOffsets t).flatMap fun o => (List.range w).map fun i => (src o + i, dst o + i)
     let whole (z : Nat) : Bool := (((moves.map (·.2)).filter fun b => b / 64 == z).eraseDups).length == 64
     let write (cells : List Host.Cell) : PWrite :=
       let first := (cells.headD (0, 0)).1
       let spad := cells.map fun b => (Eng.spadByte b.1, b.2)
       let full := (spad.map fun b => b.1 / 4).eraseDups
       if 0x2000000 ≤ first then .accBytes core (cells.map fun b => (b.1 - 0x2000000, b.2))
       else if whole (first / 64) then .code core spad full else .spad core spad full
     c.tmpl ≠ [] → t.xform ≠ 2 → t.cmode ≠ 1 → n % 16 = 4 →
      (∀ o ∈ templateOffsets t, src o % w = 0 ∧ Serves p c (src o) w ∧ Eng.localOk (dst o) w = true) →
      ∃ pick : List (Nat × Nat) → List Host.Cell,
        (∀ u ∈ copyUnits 1 moves, (pick u).map (·.1) = (u.map (·.2)).eraseDups ∧
          ∀ b ∈ pick u, ∃ q ∈ u, q.2 = b.1 ∧ p.mem.get (placeOf p c.asid q.1) = b.2) ∧
        ends (.ecCopy c) ((copyUnits 1 moves).map fun u => write (pick u)) []) ∧
    (∀ m, 0x7FFF00 ≤ a → a ≤ 0x7FFFE0 → a % 32 = 0 → (p.cmd c.id).badRecord = false → slotNotice p core c.local0 = some m →
      (field c.local0 0 4).testBit 31 = true →
      let off := c.b.toNat % 2 ^ 32
      let dst := d % 2 ^ 32
      off % 4 = 0 → n % 4 = 0 → 0 < n → off + n ≤ m.len → Eng.localOk dst n = true → dst < 0x2000000 → m.sender / 512 = p.number →
      Eng.localOk (m.addr + off) n = true → m.addr + off < 0x2000000 → Clean p (coreOf (m.sender % 512)) →
      ends (.ecPull c) (Eng.localWrites core dst (senderBytes p (p.cmd m.cmd) (m.addr + off) n)) []) ∧
    (∀ r, RegionAt p c d r →
      let b := c.b.toNat % 2 ^ 32
      let f := blockForm (b / 2 ^ 28)
      let nq := r.planes / f.pb
      let nb := if f.bs = 0 then 0 else f.kd / f.bs
      let units := (nq * (r.kt * f.ku) * (r.nt * 64) * f.w + 7) / 8
      let unit (q kt nt k j : Nat) : Nat :=
        packedUnit f.w (bytesAt p c.asid a units) ((q * (r.kt * f.ku) + kt * f.ku + k) * (r.nt * 64) + nt * 64 + j)
      let scale (q kt nt i j : Nat) : Byte := (bytesAt p c.asid n (nq * r.kt * nb * (r.nt * 64))).getD
        ((q * r.kt * nb + kt * nb + i) * (r.nt * 64) + nt * 64 + j) 0
      let plane (q kt nt i : Nat) : Nat := r.base + 4096 * blockGranule r f q kt nt i
      let written (q kt nt : Nat) : List PWrite :=
        ((List.range f.pb).flatMap fun i => granuleWrites p c.asid (plane q kt nt i)
          (((blockBytes f (b.testBit 27) (unit q kt nt)).drop (4096 * i)).take 4096)) ++
        [let k := placeOf p c.asid (plane q kt nt 0)
         .side (some (plane q kt nt 0)) none (cellsAt (sideAt (dpaTile k) (dpaPlane k))
           ((List.range 256).map fun z => if z / 64 < nb then scale q kt nt (z / 64) (z % 64) else 0))]
      1 ≤ b / 2 ^ 28 → b / 2 ^ 28 ≤ 14 → bits b 26 16 = 0 → r.ok = true → r.planes % f.pb = 0 → Serves p c a units →
      (f.bs ≠ 0 → Serves p c n (nq * r.kt * nb * (r.nt * 64))) → Serves p c r.base r.size →
      ends (.ecRetile c) ((regionBlocks r f.pb).flatMap fun q => written q.1 q.2.1 q.2.2)
        [.dev none false (cellsAt (r.at_ + 28) (bytesOf 4 b))]) ∧
    (let k := c.b.toNat % 2 ^ 16
     a % 65536 = 0 → Eng.linear d (8 * k) 8 = true → Serves p c a (65536 * k) →
      ends (.ecxChk c) ((List.range k).map fun i => Eng.localCells core (d + 8 * i) (bytesOf 8
        (phash c.c ((List.range 16).map fun g => bytesAt p c.asid (a + 65536 * i + 4096 * g) 4096)).toNat)) []) ∧
    ends (.ecPref c) [] []

/-- R233: a `cbt` of entries within the table, of a node with the right, is to put them there, each by itself. R220: a `wld` of a
slot of a region whose rectangle the group covers and that its pages' leaves name loads each shadow latch with the planes of its
tile and their scales, and leaves every active latch. R221, R222: a `swap` of a rectangle whose tiles no command holds and no fill is
under way on exchanges the latches of each of its tiles, and no other tile's. R223, R224, R227 to R230: a macro of a correct record,
on tiles that no command holds, with sound feeders and with valid latches of its format and ASID: it takes the tiles, exchanges
their latches first where it is an `mxs` (after the fills under way), and writes for every vector and every member row the words of
the line that are not masked off, each word by itself, with the line's full bit after them where the record asks for it. The word of
a column is the chain, west to east, of its tiles' steps (R69), each the step of the vector's slice for the tile column with the
tile's latch (R68), of the active elements only. A slice is the swizzled words of its feeder (R224, R225), as the command observes
them: a word that nothing orders is old or new by the model's free values (log 2). R234, R256: a macro over a selection list of a
sequence without lineage, each of whose entries lies in the rectangle and names the page that the table has for its block, with
every plane of it sound: it takes the tiles, empties their shadow latches, and writes for each entry, in list order, and each vector
the scores of its tokens (X = 0) or its part of its member row's sums (X = 1), and the full bits of the lines that the entry ends.
Each of the six rows completes with status 0. -/
def Obligations.ArrayCommands : Prop :=
  ∀ (c : Cmd) (s : State), s.pkg.present c.id = true → Fresh (s.pkg.cmd c.id) →
    let p := s.pkg
    let m := p.cmd c.id
    let core := coreOf c.ctx
    let a := c.a.toNat
    let n := c.c.toNat
    let fa := c.hdr.fa.toNat
    let fb := c.hdr.fb.toNat
    let run {α : Type} (m : Eng α) (w : Work) : EStateM.Result Stop Work α := m ⟨s.env, c⟩ w
    let free (ts : List Nat) : Prop := ts.Nodup ∧ ∀ i ∈ ts, (p.tiles.get i).owner = none
    let swapped (t u : Tile) : Prop := u.active = t.shadow ∧ u.shadow = t.active
    let slice (r : MacroRec) (pitch fresh s kt : Nat) : List Byte := match sliceAt p r pitch s kt with
      | none => []
      | some f => (List.range (pitch / 4)).flatMap fun i =>
        let w := swz (f.2 + 4 * i) / 4
        bytesOf 4 (if f.1 = core then Eng.engineWord { p with fresh := fresh } m true w
          else Eng.feederWord { p with fresh := fresh } m f.1 w).toNat
    let still (ts : List Nat) : Prop := ∀ i ∈ ts, i ∉ fillsUnderWay p
    let sound (r : MacroRec) : Prop := m.badRecord = false ∧ macroOk c.local0 = true ∧ 0 < r.m ∧ 0 < r.kt ∧ 0 < r.nt ∧ Eng.linear a 32 32 = true
    (let at_ := 16384 * dieOf core + 8192 * (c.b.toNat % 2) + bits c.b.toNat 31 16
     (p.node c.node).cbright = true → bits c.b.toNat 15 1 = 0 → 0 < n →
      bits c.b.toNat 31 16 + n ≤ (if c.b.toNat % 2 = 0 then 256 else 8192) → a % 4 = 0 → Serves p c a (4 * n) →
      Ends (.ecxCbt c) c s 0 ((List.range n).map fun i =>
        .cbt (at_ + i) (BitVec.ofNat 32 (field (bytesAt p c.asid a (4 * n)) (4 * i) 4))) [] fun q => q.cbt = p.cbt) ∧
    (∀ r rc w, RegionAt p c (a % 2 ^ 56) r → run (rectOf c (c.b.toNat % 256) true) { p := p } = .ok rc w → r.ok = true →
      r.layout ≠ 0 → r.layout / 2 ^ 28 = fa → r.layout = c.d.toNat % 2 ^ 32 → rc.joined = false → rc.die = r.die →
      rc.rows = memberRows r.rows → rc.nt = r.nt → rc.ca = r.c0 → rc.cb + 1 = r.c0 + r.kt → n < r.planes / planesOf fa →
      Serves p c r.base r.size → (∀ o < r.size, leafKind (pageLeaf p c.asid (r.base + o)).entry = 1 ∧
        shapeAt p.mem (pageLeaf p c.asid (r.base + o)).shapeAt = r) →
      (∀ kt < rc.kt, ∀ nt < rc.nt, ∀ kt' < rc.kt, ∀ nt' < rc.nt, rc.tile kt nt = rc.tile kt' nt' → kt = kt' ∧ nt = nt') →
      Ends (.ecxWld c) c s 0 [] [] fun q =>
        (∀ kt < rc.kt, ∀ nt < rc.nt,
          let u := q.tiles.get (rc.tile kt nt)
          let l := u.shadow
          let plane (i : Nat) : Nat := r.base + 4096 * blockGranule r ⟨64, 8, 64, planesOf fa, 0⟩ n kt nt i
          u.active = (p.tiles.get (rc.tile kt nt)).active ∧ u.owner = (p.tiles.get (rc.tile kt nt)).owner ∧ l.valid = true ∧ l.fmt = fa ∧
          l.layout = r.layout ∧ l.base = a % 2 ^ 56 ∧ l.slot = n ∧ l.asid = c.asid ∧
          l.weights = ((List.range (planesOf fa)).flatMap fun i => bytesAt p c.asid (plane i) 4096) ∧
          l.side = (List.range (planesOf fa)).flatMap fun i =>
            p.side.getMany (sideAt (dpaTile (placeOf p c.asid (plane i))) (dpaPlane (placeOf p c.asid (plane i)))) 256) ∧
        ∀ i, (∀ kt < rc.kt, ∀ nt < rc.nt, i ≠ rc.tile kt nt) → q.tiles.get i = p.tiles.get i) ∧
    (∀ rc w, run (rectOf c (c.b.toNat % 256) true) { p := p } = .ok rc w → free rc.tiles → still rc.tiles → Ends (.ecxSwap c) c s 0 [] [] fun q =>
      (∀ i ∈ rc.tiles, swapped (p.tiles.get i) (q.tiles.get i)) ∧ ∀ i, i ∉ rc.tiles → q.tiles.get i = p.tiles.get i) ∧
    (∀ (swap : Bool) (rc : Rect) (w w' : Work),
      let r := macroOf c.local0
      let pitch := slicePitch fa (blockForm fb).kd
      let latch (i : Nat) : Latch := if swap then (p.tiles.get i).shadow else (p.tiles.get i).active
      sound r → run (rectOf c (c.b.toNat % 256) true) { p := p } = .ok rc w → r.kt = rc.kt → r.nt = rc.nt → r.join = rc.joined →
      1 ≤ fa → fa ≤ 11 → 1 ≤ fb → fb ≤ 14 → r.ke < (blockForm fb).kd → run (checkFeeders c rc r pitch r.m) { p := p } = .ok () w' →
      free rc.tiles → (swap = true → still rc.tiles) → (∀ kt < r.kt, ∀ nt < r.nt, rc.tile kt nt ∈ rc.tiles) → (∀ f ∈ r.feeders, Clean p ((p.pcoreOf f.core).getD 0)) →
      m.progress = 0 → m.saved = [] → m.swapped = false →
      (∀ i ∈ rc.tiles, (latch i).valid = true ∧ (latch i).asid = c.asid ∧ (latch i).fmt = fb ∧ (latch i).layout.testBit 27 = r.x ∧
        (latch i).parity = false) →
      ∃ fresh : Nat → Nat,
        let ip := fa == 11 && fb == 11
        let act (kt k : Nat) : Bool := kt + 1 != r.kt || r.ke == 0 || decide (k < r.ke)
        let step (v nt kt j : Nat) : Lane :=
          tileStep p (rc.tile kt nt) (latch (rc.tile kt nt)) fa ip r.x (act kt) (slice r pitch (fresh v) v kt) j
        let line (v nt : Nat) : PWrite := .acc (rc.accCore nt) (accMode r.add ip)
          ((activeCols r nt).map fun j => (64 * (r.lb + v) + j, chainPart ip ((List.range r.kt).map fun kt => step v nt kt j)))
          (if r.tag then [r.lb + v] else [])
        Ends (if swap then .ecxMxs c else .ecxMx c) c s 0
          (((List.range r.m).flatMap fun v => (List.range r.nt).map (line v)).flatMap splitWrite) [] fun q =>
          (∀ i ∈ rc.tiles, (q.tiles.get i).owner = some c.id ∧ if swap then swapped (p.tiles.get i) (q.tiles.get i)
            else (q.tiles.get i).active = (p.tiles.get i).active ∧ (q.tiles.get i).shadow = (p.tiles.get i).shadow) ∧
          ∀ i, i ∉ rc.tiles → q.tiles.get i = p.tiles.get i) ∧
    (∀ (rc : Rect) (w w' : Work) (sq : Desc),
      let r := macroOf c.local0
      let hdr := (c.local0.drop 32).take 32
      let k := field hdr 0 4
      let dc := field hdr 9 1
      let h := field hdr 8 1
      let entry (i : Nat) : List Byte := ((m.cmd.local0.drop 64).drop (16 * i)).take 16
      let plane (pp i : Nat) : Nat := dramDpa (pp / 1480) (16 * (pp % 1480) + i) 0
      let pk := if dc = 2 then 2 else 1
      let first := sq.plane0 h + (if r.x then pk else 0)
      let read (js : List Nat) (n : Nat) (from_ : Nat → List Byte) : List Byte :=
        (List.range n).flatMap fun j => if j ∈ js then from_ j else List.replicate 32 0
      let row (i : Nat) : Nat × Nat := (rc.find (entryTile (entry i))).getD (0, 0)
      let picked (i : Nat) : Picked :=
        let mask := entryMask hdr (entry i)
        let at_ (z : Nat) : Nat := plane (field (entry i) 4 3) (first + z)
        { idx := i, nt := (row i).1, kt := (row i).2, tile := entryTile (entry i), mask := mask
          first := (List.range i).all fun j => (row j).1 != (row i).1
          final := (List.range k).all fun j => decide (j ≤ i) || (row j).1 != (row i).1
          blocks := (List.range (if r.x then 2 ^ dc else pk)).map fun z =>
            { valid := true, fmt := 10, asid := c.asid
              weights := read (dataSectors r.x (64 * 2 ^ dc) mask) 128 fun j => p.mem.getMany (at_ z + 32 * j) 32
              side := read (scaleSectors r.x (64 * 2 ^ dc) mask) 8 fun j => p.side.getMany (sideAt (dpaTile (at_ z)) (dpaPlane (at_ z)) + 32 * j) 32 } }
      let slices (fresh i v : Nat) : List (List Byte) :=
        if r.x then [slice r (slicePitch fa 128) fresh (i * r.m + v) (row i).2]
        else (List.range pk).map fun z => slice r (slicePitch fa 128) fresh (v * pk + z) (row i).2
      let words (fresh i v : Nat) : List PWrite :=
        ((if r.x then valueWrites p rc r fa (picked i) v (slices fresh i v)
          else keyWrites p rc r fa (64 * 2 ^ dc) (picked i) v (slices fresh i v)).flatten ++
        if linesEnded r (picked i) v = [] then [] else [.acc (rc.accCore (row i).1) 0 [] (linesEnded r (picked i) v)])
      sound r → Eng.linear c.d.toNat 32 32 = true → headerClean hdr = true → 0 < k → c.d.toNat + 32 + 16 * k ≤ 0x800000 →
      run (rectOf c (c.b.toNat % 256) false) { p := p } = .ok rc w → r.kt = rc.kt → r.nt = rc.nt → r.join = false → 1 ≤ fa → fa ≤ 11 → fb = 10 →
      r.ke < 128 → dc ≤ 2 → r.lb + (if r.x then 2 ^ dc else k) * r.m ≤ 8192 →
      run (checkFeeders c rc r (slicePitch fa 128) (if r.x then k * r.m else r.m * if dc = 2 then 2 else 1)) { p := p } = .ok () w' →
      free rc.tiles → m.progress = 0 → m.saved = [] → (∀ nt < r.nt, p.powerOf (rc.accCore nt) = 0) →
      (∀ f ∈ r.feeders, Clean p ((p.pcoreOf f.core).getD 0)) → Described p c (field hdr 24 8) sq → sq.lin = [] → sq.dcode = dc → h < 64 →
      (∀ i < k, let pp := field (entry i) 4 3
        entryClean (entry i) = true ∧ (∃ q, rc.find (entryTile (entry i)) = some q) ∧
        (∃ x, Counted p c.asid sq.seg (field (entry i) 0 3) (h / sq.hp) x ∧ x.pp = pp ∧ x.demoted = false) ∧
        kvAddress p c.asid sq pp = none ∧ ∀ j < 16, isDram (plane pp j) = true ∧ Eng.failedAt p (plane pp j) = none ∧
          Eng.pendingAt p (plane pp j) = false ∧ ∀ z < 128, p.badSector.get (plane pp j / 32 + z) = false) →
      ∃ fresh : Nat → Nat → Nat, Ends (.ecxMxsel c) c s 0
        (((List.range k).flatMap fun i => (List.range r.m).flatMap fun v => words (fresh i v) i v).flatMap splitWrite) [] fun q =>
        (∀ i ∈ rc.tiles, (q.tiles.get i).shadow = {} ∧ (q.tiles.get i).owner = some c.id ∧
          (q.tiles.get i).active = (p.tiles.get i).active) ∧
        ∀ i, i ∉ rc.tiles → q.tiles.get i = p.tiles.get i)

/-- R266: `ecx.bu.load` of a correct program, with the channel in the mode for the command's ASID and free, installs it in
the channel, its units at their load values and not halted. R270: `ecx.bu.mode` enters the mode from normal mode, changes
nothing in the mode of the same ASID, ends with 0x37 in that of another, and leaves it. R267 to R269: `ecx.bu.drive` of a
correct program over a region of the core's array that is served plainly through columned pages takes the channel, and stands
as arrived: its steps follow. A drive of no step ends with status 0. Each of the three rows completes so. -/
def Obligations.ChannelCommands : Prop :=
  ∀ (c : Cmd) (s : State), s.pkg.present c.id = true → Fresh (s.pkg.cmd c.id) →
    let p := s.pkg
    let ch := coreOf c.ctx
    let h := p.chans.get ch
    let n := c.c.toNat
    let a := c.a.toNat
    let d := c.d.toNat
    let channel (new : Channel) (q : Pkg) : Prop := q.chans.get ch = new ∧ ∀ n, n ≠ ch → q.chans.get n = p.chans.get n
    let ends (i : Instr) (status : Nat) (new : Channel) : Prop := Ends i c s status [] [] (channel new)
    let ready : Prop := (p.cmd c.id).badRecord = false ∧ h.mode = some c.asid ∧ h.holder = none ∧
      ∀ e ∈ p.allCmds, e.unit = 13 → e.op = 12 ∨ e.op = 14 → ownerOf e.cmd = ownerOf c → c.id ≤ e.cmd.id
    (ready → a % 4 = 0 → a + 4 * n ≤ 0x800000 → 1 ≤ n → n ≤ 96 → (∀ w ∈ localWords c, trowelOk w = true) → loopsOk (localWords c) = true →
      ends (.ecxBuLoad c) 0 { mode := some c.asid, holder := some c.id, prog := localWords c, halted := false }) ∧
    (n = 0 → d % 4 = 0 → d < 0x800000 → ends (.ecxBuDrive c) 0 h) ∧
    (∀ r, RegionAt p c a r → ready → d % 4 = 0 → d + 4 * n ≤ 0x800000 → 1 ≤ n → n ≤ 4096 → r.ok = true → r.die = dieOf ch →
      r.c0 = 0 → r.kt = 64 → r.rows.testBit (ch % 36) = true → (memberRows r.rows).findIdx (· == ch % 36) < r.nt →
      staged p c.asid r = false → (∀ w ∈ localWords c, twOpcode w / 8 < 3 ∧ bits w.toNat 25 15 = 0 ∧ bits w.toNat 14 0 < r.planes) →
      Serves p c r.base r.size → (∀ o < r.size, leafKind (pageLeaf p c.asid (r.base + o)).entry = 1) →
      ∃ t, exec (.ecxBuDrive c) s = .next t ∧ (t.pkg.cmd c.id).phase = .arrived ∧ SameStorage p t.pkg ∧
        channel { h with holder := some c.id, mismatch := false } t.pkg) ∧
    (let asid := a % 2 ^ 16
     (c.b.getLsbD 0 = true → (h.mode = none → ends (.ecxBuMode c) 0 { mode := some asid }) ∧
      (h.mode = some asid → ends (.ecxBuMode c) 0 h) ∧ (∀ other, h.mode = some other → other ≠ asid → ends (.ecxBuMode c) 0x37 h)) ∧
     (c.b.getLsbD 0 = false → (h.mode = none → ends (.ecxBuMode c) 0 h) ∧
      (h.mode.isSome = true → (p.cmd c.id).phase ≠ .waiting ∨ (p.cmd c.id).op = 13 → h.holder ≠ some c.id → ends (.ecxBuMode c) 0 {})))

/-- R246: `sigld` of a correct projection state that is served plainly loads the stencil slot, and of address 0 empties it.
R247: `sig` of vectors in clean scratchpad, with their state loaded, writes one signature record for each, a word at a time.
R249, R250: a `kvapp` of no token changes nothing; one of one token, at a block whose pages the table counts, writes for every head
the token's elements into the block's planes, each value with its scale by R249, files it in the chain of every table of a head that
is not dense (R248), each chain being its bucket line with room and nothing to purge, and leaves every other element, scale and byte;
its length comes last. R252 to R254: a `kvsel` of a sequence without lineage, of a head that is not dense, each of whose probed chains
is its bucket line, lists the blocks of the entries that its segment's epoch and length admit, in rising order, with the tokens of
each; a block of which no page is counted is left out; the header, with the number of tokens listed, comes last. R257: a `kvtrunc`
below the length of a sequence of which the table counts no page, or one, sets the length and the lineage: the one page loses a
reference, and its last one frees its entry and gives the page back to the pool; where it is shared, and where the page of the block
that the cut divides is, the sequence gets a new epoch. R258: a `kvfork` gives the child the length and the lineage, and every page of the prefix that is counted one more
reference. Neither changes any other byte. Each of the six rows completes with status 0 there. The changes are writes like those
of any other command, performed before the length (log 48). Those of `kvapp`, `kvtrunc` and `kvfork` hold for descriptors
outside columned regions, and where no other KV command has writes left to perform. -/
def Obligations.AttentionCommands : Prop :=
  ∀ (c : Cmd) (s : State), s.pkg.present c.id = true → Fresh (s.pkg.cmd c.id) →
    let p := s.pkg
    let core := coreOf c.ctx
    let a := c.a.toNat
    let d := c.d.toNat
    let n := c.c.toNat
    let fa := c.hdr.fa.toNat
    let alone : Prop := ∀ e ∈ p.allCmds, e.cmd.id ≠ c.id → e.phase = .started → e.unit = 13 → e.op ≠ 6 ∧ e.op ≠ 8 ∧ e.op ≠ 9
    let first : Prop := alone ∧ ∀ e ∈ p.allCmds, ownerOf e.cmd = ownerOf c → c.id ≤ e.cmd.id
    let slot (new : Stencil) (q : Pkg) : Prop :=
      q.stencil.get (c.b.toNat % 8) = new ∧ ∀ k, k ≠ c.b.toNat % 8 → q.stencil.get k = p.stencil.get k
    let k := placeOf p c.asid a
    let lineage (lin : List Lineage) : List Host.Cell := cellsAt (k + 12) [BitVec.ofNat 8 lin.length] ++
      cellsAt (k + 16) ((List.range 4).flatMap fun j => match lin[j]? with
        | some l => bytesOf 8 l.desc ++ bytesOf 4 l.seg ++ bytesOf 3 l.stop ++ [0]
        | none => List.replicate 16 0)
    let sequence (i : Instr) (len : Nat) (cells : List Host.Cell) : Prop :=
      ∃ ws, Ends i c s 0 ws [.dev none false (cellsAt k (bytesOf 8 len))] (fun _ => True) ∧
        Turns p ws (fun z => (p.mem.setCells cells).get z) fun z => p.side.get z
    let apart (x : Ipt) : Prop := x.at_ + 16 ≤ k ∨ k + 256 ≤ x.at_
    (c.a = 0 → Ends (.ecxSigld c) c s 0 [] [] (slot {})) ∧
    (let h := bytesAt p c.asid a 64
     let size := 64 + stT h * stDim h * 32
     c.a ≠ 0 → a % 4 = 0 → Serves p c a size → field h 0 4 ≠ 0 → 1 ≤ stT h → stT h ≤ 4 → field h 5 1 ≤ 2 → (∀ b ∈ h.drop 6, b = 0) →
      Ends (.ecxSigld c) c s 0 [] [] (slot { valid := true, asid := c.asid, addr := a, bytes := bytesAt p c.asid a size })) ∧
    (∀ st, stencilSlot p (fun t => t.asid == c.asid && t.addr == a) = some st →
      let dim := stDim st.bytes
      let size := n * dim * (fmtWidth fa / 8)
      let out := c.b.toNat % 2 ^ 24
      Clean p core → 1 ≤ n → n ≤ 64 → inWide fa = true → Eng.linear d size 4 = true → Eng.linear out (16 * n) 16 = true →
      let sig (i t : Nat) : Nat := if t < stT st.bytes then
        signature st.bytes t (sourceElems fa (localBytes p c d size) (i * dim) dim) else 0
      Ends (.ecxSig c) c s 0 ((List.range n).flatMap fun i => Eng.localWrites core (out + 16 * i)
        (st.bytes.take 5 ++ [0, 0, 0] ++ ((List.range 4).map (sig i)).flatMap (bytesOf 2 ·))) [] fun _ => True) ∧
    (∀ q, n = 0 → inWide fa = true → c.hdr.fb.toNat = 10 → first → Described p c a q → (∀ h < q.nh, Headed p c q h) →
      Eng.linear d 0 4 = true → Ends (.ecxKvapp c) c s 0 [] [] fun _ => True) ∧
    (∀ (q : Desc) (st : Stencil) (page : Nat → Ipt) (bs : List Byte),
      let tok := q.vlen
      let t := tok % 64
      let size := q.nh * 2 * q.dim * (fmtWidth fa / 8)
      let head (h : Nat) : List Byte := bytesAt p c.asid (q.htab + 32 * h) 32
      let files (h tb : Nat) : Prop := h < q.nh ∧ tb < q.t ∧ field (head h) 21 1 = 0
      let plane (g i : Nat) : Nat := dramDpa ((page g).pp / 1480) (16 * ((page g).pp % 1480) + i) 0
      let side (k : Nat) : Nat := sideAt (dpaTile k) (dpaPlane k)
      let key (h : Nat) : List FVal := sourceElems fa bs (2 * h * q.dim) q.dim
      let val (h : Nat) : List FVal := sourceElems fa bs ((2 * h + 1) * q.dim) q.dim
      let mode := modeFor c.hdr (BitVec.ofNat 64 (natOf c.local0))
      let keyPlane (h ch : Nat) : Nat := plane (h / q.hp) (q.plane0 h + ch / 128)
      let valPlane (h dm : Nat) : Nat := plane (h / q.hp) (q.plane0 h + q.pk + dm / 64)
      let keyUnit (h ch : Nat) : Nat := 2 * keyPlane h ch + 64 * (ch % 128) + t
      let valUnit (h dm : Nat) : Nat := 2 * valPlane h dm + 128 * (dm % 64) + t
      let keyScaleAt (h ch : Nat) : Nat := side (keyPlane h ch) + 64 * (ch % 128 / 32) + t
      let valScaleAt (h dm : Nat) : Nat := side (valPlane h dm) + 64 * (t / 32) + dm % 64
      let keyScale (h ch : Nat) : Nat := blockScale 10 (((key h).drop (32 * (ch / 32))).take 32)
      let valScale (h dm : Nat) : Nat := if t % 32 = 0 then (match (val h).getD dm .nan with
          | .nan => 0xFF
          | .inf _ => 254
          | .fin _ m e => if m = 0 then field (head h) 22 1
            else (min (max ((Nat.log2 m : Int) + e - 2 + 127 + field (head h) 23 1) 0) 254).toNat)
        else (p.side.get (valScaleAt h dm)).toNat
      let keyBits (h ch : Nat) : Nat := (quantise 10 (keyScale h ch) (mode (2 * h * q.dim + ch)) ((key h).getD ch .nan)).bits
      let valBits (h dm : Nat) : Nat := (quantise 10 (valScale h dm) (mode ((2 * h + 1) * q.dim + dm)) ((val h).getD dm .nan)).bits
      let stored (h : Nat) : List FVal := (List.range q.dim).map fun ch => scaled (keyScale h ch) (elementValue 10 (keyBits h ch % 16))
      let bucket (h tb : Nat) : Nat := q.bkbase + ((h * q.t + tb) * 2 ^ q.b + signature st.bytes tb (stored h) / 2 ^ (16 - q.b)) * 64
      let line (h tb : Nat) : Nat := placeOf p c.asid (bucket h tb)
      let chain (h tb : Nat) : List Byte := bytesAt p c.asid (bucket h tb) 64
      let count (h tb : Nat) : Nat := field (chain h tb) 0 4
      let touched (z : Nat) : Prop := (∃ g < q.ng, ∃ i < 16, plane g i ≤ z ∧ z < plane g i + 4096) ∨
        ∃ h tb, files h tb ∧ line h tb ≤ z ∧ z < line h tb + 64
      n = 1 → inWide fa = true → c.hdr.fb.toNat = 10 → first → covered p c a = false → leafKind (pageLeaf p c.asid a).entry ≠ 1 →
      tok < 16777215 → q.fb ≤ tok / 64 → Clean p core → Eng.linear d size 4 = true →
      (∀ f, localBytes { p with fresh := f } c d size = bs) →
      stencilSlot p (fun t => t.asid == c.asid && t.addr == q.pstate && field t.bytes 0 4 == q.pver && stT t.bytes == q.t &&
        field t.bytes 5 1 == q.dcode) = some st →
      (∀ g < q.ng, (page g).pp < 6819840 ∧ (page g).demoted = false ∧ (∀ g' < q.ng, (page g').pp = (page g).pp → g' = g) ∧
        ∀ i < 16, Eng.failedAt p (plane g i) = none ∧ Eng.pendingAt p (plane g i) = false ∧
          (∀ z < 128, p.badSector.get (plane g i / 32 + z) = false) ∧
          ∀ h tb, files h tb → line h tb + 64 ≤ plane g i ∨ plane g i + 4096 ≤ line h tb) →
      (∀ h tb, files h tb → field (chain h tb) 4 4 = 0 ∧ count h tb < 14 ∧
        (count h tb = 0 ∨ (let last := field (chain h tb) (8 + 4 * (count h tb - 1)) 4
          last % 256 ≠ q.seg % 256 ∨ last / 256 < tok)) ∧
        ∀ h' tb', files h' tb' → h' = h ∧ tb' = tb ∨ line h' tb' + 64 ≤ line h tb ∨ line h tb + 64 ≤ line h' tb') →
      (∀ (cells : List Host.Cell) (sd : NMap Byte), (∀ b ∈ cells, touched b.1) →
        let r : Pkg := { p with mem := p.mem.setCells cells, side := sd }
        Described r c a q ∧ (∀ h < q.nh, Headed r c q h ∧ bytesAt r c.asid (q.htab + 32 * h) 32 = head h) ∧
        (∀ g < q.ng, Counted r c.asid (q.resolve (tok / 64)).1 (tok / 64) g (page g) ∧ kvAddress r c.asid q (page g).pp = none) ∧
        ∀ h tb, files h tb → Serves r c (bucket h tb) 64 ∧ placeOf r c.asid (bucket h tb) = line h tb) →
      ∃ (ws : List PWrite) (mem slots : Nat → Byte),
        Ends (.ecxKvapp c) c s 0 ws [.dev none false (cellsAt k (bytesOf 8 (tok + 1)))] (fun _ => True) ∧ Turns p ws mem slots ∧
        let nibble (m : Nat → Byte) (u : Nat) : Nat := (m (u / 2)).toNat / 16 ^ (u % 2) % 16
        let word (z : Nat) : Nat := natOf ((List.range 4).map fun i => mem (z + i))
        (∀ h < q.nh, ∀ ch < q.dim, nibble mem (keyUnit h ch) = keyBits h ch % 16 ∧ nibble mem (valUnit h ch) = valBits h ch % 16 ∧
          slots (keyScaleAt h ch) = BitVec.ofNat 8 (keyScale h ch) ∧ slots (valScaleAt h ch) = BitVec.ofNat 8 (valScale h ch)) ∧
        (∀ h tb, files h tb → word (line h tb) = count h tb + 1 ∧ word (line h tb + 8 + 4 * count h tb) = 256 * tok + q.seg % 256) ∧
        (∀ u, (∀ h < q.nh, ∀ ch < q.dim, u ≠ keyUnit h ch ∧ u ≠ valUnit h ch) →
          (∀ h tb, files h tb → ∀ z ∈ [line h tb, line h tb + 8 + 4 * count h tb], u / 2 < z ∨ z + 4 ≤ u / 2) →
          nibble mem u = nibble (fun z => p.mem.get z) u) ∧
        ∀ z, (∀ h < q.nh, ∀ ch < q.dim, z ≠ keyScaleAt h ch ∧ z ≠ valScaleAt h ch) → slots z = p.side.get z) ∧
    (∀ (q : Desc) (qs : List Byte) (page : Nat → Option Ipt),
      let h := c.b.toNat % 64
      let probes := bits c.b.toNat 13 6
      let head := bytesAt p c.asid (q.htab + 32 * h) 32
      let probed (tb : Nat) : List Nat :=
        let own := field qs (8 + 2 * tb) 2 / 2 ^ (16 - q.b)
        (if probes.testBit (2 * tb) then [own] else []) ++
          if probes.testBit (2 * tb + 1) then (List.range q.b).map fun i => own ^^^ 2 ^ i else []
      let bucket (tb beta : Nat) : Nat := q.bkbase + ((h * q.t + tb) * 2 ^ q.b + beta) * 64
      let chosen (tok : Nat) : Bool := decide (tok < q.vlen) && (List.range q.t).any fun tb => (probed tb).any fun beta =>
        let l := bytesAt p c.asid (bucket tb beta) 64
        (List.range (min (field l 0 4) 14)).any fun j => field l (8 + 4 * j) 4 == 256 * tok + q.seg % 256
      let mask (blk : Nat) : Nat := (((List.range 64).filter fun t => chosen (64 * blk + t)).map fun t => 2 ^ t).sum
      let picked := (List.range (ceilDiv q.vlen 64)).filterMap fun blk =>
        if mask blk = 0 then none else (page blk).map fun x => (blk, x, mask blk)
      let tokens := ((List.range q.vlen).filter fun tok => chosen tok && (page (tok / 64)).isSome).length
      alone → Described p c a q → q.lin = [] → h < q.nh → probes < 4 ^ q.t → bits c.b.toNat 31 16 ≠ 0 → Headed p c q h →
      field head 21 1 = 0 → Clean p core → Eng.linear d 16 16 = true → Eng.linear n 32 32 = true →
      (∀ f, localBytes { p with fresh := f } c d 16 = qs) → field qs 0 4 = q.pver → field qs 4 1 = q.t →
      (∀ tb < q.t, ∀ beta ∈ probed tb, Serves p c (bucket tb beta) 64 ∧ field (bytesAt p c.asid (bucket tb beta) 64) 4 4 = 0) →
      (∀ blk < ceilDiv q.vlen 64, mask blk ≠ 0 → match page blk with
        | some x => Counted p c.asid q.seg blk (h / q.hp) x
        | none => Uncounted p c.asid q.seg blk (h / q.hp)) →
      (field head 16 4 = 0 ∨ tokens ≤ field head 16 4) → picked.length ≤ bits c.b.toNat 31 16 → n + 32 + 16 * picked.length ≤ 0x800000 →
      Ends (.ecxKvsel c) c s 0
        (((List.range picked.length).zip picked).flatMap fun e => Eng.localWrites core (n + 32 + 16 * e.1)
          (bytesOf 3 e.2.1 ++ bytesOf 1 (b2n e.2.2.1.demoted) ++ bytesOf 3 e.2.2.1.pp ++ [0] ++ bytesOf 8 e.2.2.2))
        [Eng.localCells core n (bytesOf 4 picked.length ++ bytesOf 4 tokens ++ bytesOf 1 h ++ bytesOf 1 q.dcode ++ bytesOf 1 0 ++
          List.replicate 5 0 ++ bytesOf 8 q.vlen ++ bytesOf 8 a)] fun _ => True) ∧
    (∀ q, first → Described p c a q → leafKind (pageLeaf p c.asid a).entry ≠ 1 → covered p c a = false →
      let len := d % 2 ^ 24
      let e := ceilDiv len 64
      len < q.vlen →
      ((∀ x ∈ iptAll p, x.asid ≠ c.asid) → sequence (.ecxKvtrunc c) len (lineage (cutLineage q e))) ∧
      ∀ x, (iptAll p).filter (fun y => y.asid == c.asid) = [x] → Counted p c.asid q.seg x.block x.hg x →
        (∀ l ∈ q.lin, l.seg ≠ q.seg) → apart x → (1 < x.ref → x.block = len / 64 → len % 64 ≠ 0 → q.fb ≤ x.block → q.seg % 256 ≠ 255 →
          q.lin.length < 4 → sequence (.ecxKvtrunc c) len (lineage (cutLineage q e ++ [⟨a, q.seg, e⟩]) ++ cellsAt (k + 8) [BitVec.ofNat 8 (q.seg + 1)])) ∧
        (e ≤ x.block →
        let entry (y : Ipt) : List Host.Cell := cellsAt x.at_ (iptBytes y)
        let bump : Prop := q.fb ≤ x.block
        let cut := cutLineage q e
        (1 < x.ref → ¬bump → sequence (.ecxKvtrunc c) len (entry { x with ref := x.ref - 1 } ++ lineage cut)) ∧
        (1 < x.ref → bump → q.seg % 256 ≠ 255 → (q.lin.length < 4 ∨ e ≤ q.fb) → sequence (.ecxKvtrunc c) len
          (entry { x with ref := x.ref - 1 } ++ lineage (cut ++ if q.fb < e then [⟨a, q.seg, e⟩] else []) ++
            cellsAt (k + 8) [BitVec.ofNat 8 (q.seg + 1)])) ∧
        (x.ref ≤ 1 → x.demoted = true → sequence (.ecxKvtrunc c) len (entry { x with valid := false } ++ lineage cut)) ∧
        (x.ref ≤ 1 → x.demoted = false → q.ptop < q.kvpages → q.pool % 4 = 0 →
          let freed : Pkg := { p with mem := p.mem.setCells (entry { x with valid := false }) }
          let top := placeOf freed c.asid (q.pool + 4 * q.ptop)
          Serves freed c (q.pool + 4 * q.ptop) 4 → (top + 4 ≤ k ∨ k + 256 ≤ top) → (top + 4 ≤ x.at_ ∨ x.at_ + 16 ≤ top) →
          sequence (.ecxKvtrunc c) len (entry { x with valid := false } ++ lineage cut ++ cellsAt top (bytesOf 4 x.pp) ++
            cellsAt (k + 108) (bytesOf 4 (q.ptop + 1)))))) ∧
    (∀ (q r : Desc) (page : Nat → Nat → Option Ipt), first → Described p c d q → Described p c a r →
      leafKind (pageLeaf p c.asid a).entry ≠ 1 → n ≤ q.vlen → r.vlen = 0 → r.lin = [] → r.dcode = q.dcode → r.nh = q.nh → r.t = q.t →
      r.b = q.b → r.pver = q.pver → r.pstate = q.pstate → covered p c a = false →
      let e := ceilDiv n 64
      (∀ b < e, ∀ g < q.ng, match page b g with
        | some x => Counted p c.asid (q.resolve b).1 b g x ∧ x.ref < 65535 ∧ apart x
        | none => Uncounted p c.asid (q.resolve b).1 b g) →
      let lin := cutLineage q e ++ (if q.fb < e then [⟨d, q.seg, e⟩] else [])
      lin.length ≤ 4 → sequence (.ecxKvfork c) n (lineage lin ++ (List.range e).flatMap fun b => (List.range q.ng).flatMap fun g =>
        match page b g with
        | some x => cellsAt x.at_ (iptBytes { x with ref := x.ref + 1 })
        | none => []))

/-- R107, R153: `sys.fence` performs every pending store of its context, for every scope; for a scope from 1 on every command of
the part that is outstanding is consumed by every command that the part issues later, and a scope below 4 orders none for
other dies; no register and no other context changes. R107, R108, R200: a fence of the engine, or a stamp, that every command
of its closure has been ordered before: it waits while one of these is outstanding; then the fence starts with nothing to
write, and the stamp with its eight bytes, which hold the first fault among the commands named in bits 63:56, the sequence
number in 55:32 and the device time in 31:0. R103, R210: `bind` of aligned operands that meets no live binding of its ASID
adds one binding; `unbind` of a live binding removes it; each completes with status 0 and changes nothing else of the
bindings. A bind that meets one completes with 0x0B, an unbind that names none with 0x0D, and neither changes a binding. -/
def Obligations.FencesAndBindings : Prop :=
  (∀ s : State,
    let x := s.pkg.fire.ctx
    let sc := s.pkg.fire.b.toS.toNat
    let c := s.pkg.c x
    ∃ t, exec .sysFence s = .next t ∧ t.env = s.env ∧ (∀ e ∈ (t.pkg.c x).flight, e.kind = .store → e.store.isSome → e.done = true) ∧
      SameRegs c (t.pkg.c x) ∧ (t.pkg.c x).pc = c.pc ∧ (∀ y, y ≠ x → t.pkg.c y = s.pkg.c y) ∧
      (t.pkg.c x).fenceMark = (if 1 ≤ sc then s.pkg.nextCmd else c.fenceMark) ∧
      (t.pkg.c x).fenceWide = (if 4 ≤ sc then s.pkg.nextCmd else c.fenceWide)) ∧
  (∀ (env : Env) (unit op : Nat) (mk : Cmd → Instr) (f : Fire) (tmpl : NMap (List Byte)) (p : Pkg) (m : Command),
    m ∈ p.ownCmds f.ctx → p.present m.cmd.id = true → m.cmd.id < (p.c f.ctx).fenceMark →
    m.cmd.id ∈ ((issueCommand env unit op mk f tmpl p).cmd p.nextCmd).cmd.uses) ∧
  (∀ (c : Cmd) (s : State), s.pkg.present c.id = true →
    ((∃ n ∈ c.closure, s.pkg.present n = true) → ∃ t, exec (.ecFenceE c) s = .next t ∧ (t.pkg.cmd c.id).phase = .waiting) ∧
    ((∀ n ∈ c.closure, s.pkg.present n = false) → Fresh (s.pkg.cmd c.id) →
      Ends (.ecFenceE c) c s 0 [] [] (fun _ => True) ∧
      (c.a.toNat % 8 = 0 → c.a.toNat + 8 ≤ 0x800000 → s.pkg.powerOf (coreOf c.ctx) = 0 →
        let fault := (((c.uses.take c.named).filterMap fun id => ((s.pkg.cmd c.id).ended.find? fun e => e.1 == id).map (·.2)).find? (· != 0)).getD 0
        Ends (.ecStampw c) c s 0 [] [Eng.localCells (coreOf c.ctx) c.a.toNat
          (bytesOf 8 (fault % 256 * 2 ^ 56 + c.seq % 2 ^ 24 * 2 ^ 32 + s.env.dtime % 2 ^ 32))] fun _ => True))) ∧
  (∀ (c : Cmd) (s : State), s.pkg.present c.id = true → Fresh (s.pkg.cmd c.id) →
     let a := c.a.toNat
     let n := c.d.toNat
     let live := s.pkg.binds.filter fun b => b.asid == c.asid
     let mine (b : Binding) : Prop := b.asid = c.asid ∧ b.base = a ∧ b.len = n
     let ends (i : Instr) (status : Nat) (bs : List Binding) : Prop := Ends i c s status [] [] fun q => q.binds = bs
     (a % 64 = 0 → n % 64 = 0 → c.c.toNat % 8 = 0 → 0 < n →
       ((∃ b ∈ live, rangesMeet (a, n) (b.base, b.len) = true) → ends (.ecBind c) 0x0B s.pkg.binds) ∧
       ((∀ b ∈ live, rangesMeet (a, n) (b.base, b.len) = false) → live.length < 4096 →
         ends (.ecBind c) 0 (s.pkg.binds ++ [⟨c.asid, a, n, c.c.toNat⟩]))) ∧
     ((∃ b ∈ s.pkg.binds, mine b) → Ends (.ecUnbind c) c s 0 [] [] fun q => ∀ b, b ∈ q.binds ↔ b ∈ s.pkg.binds ∧ ¬mine b) ∧
     ((∀ b ∈ s.pkg.binds, ¬mine b) → ends (.ecUnbind c) 0x0D s.pkg.binds))

/-- R34, R211, R212: a barrier arrival of a part of a resident node, at a group that its context names, is recorded with the
number that its issue gave it, and its token waits for the episode, and so is a collective arrival with its elements (R213);
of a node that is not resident it completes with 0x09, at another group with 0x0F, and does not count. R211: an episode within one
package, of a node whose other packages there are none of. While a member part has neither arrived nor ended nothing happens. Then
every arrival completes together (R213): each that has a status of its own with that status, and with 0x12 the others where one has or
where a member ended without arriving; all with 0x13 where the arrivals disagree: where barriers meet collectives, where two
collectives differ in count, operation or type, or two broadcasts in their root, and where the root of a broadcast is not among
them; nothing is written then; else all with 0, and each collective's elements are written at its D with their words full. R214:
with the members in order of die, logical core and part, and each die's partial the left-to-right sum of its members, the total is
the sum of the two dies' partials where both have members; the exclusive prefix of a member adds die 0's partial, for a member of
die 1, and the sum of the earlier members of its die; a minimum and a maximum combine all, and a broadcast gives the root's
elements. That arrivals are numbered as they issue is the model's reading (log 43). -/
def Obligations.EpisodesComplete : Prop :=
  (∀ (c : Cmd) (s : State), s.pkg.present c.id = true → Fresh (s.pkg.cmd c.id) →
    let g := c.b.toNat % 256
    let home := (s.pkg.node c.node).resident
    (home = true → g ∈ c.groups → ∃ t a, exec (.ecBar c) s = .next t ∧ (t.pkg.cmd c.id).phase = .arrived ∧
      t.pkg.arrivals = s.pkg.arrivals ++ [a] ∧ a.node = c.node ∧ a.group = g ∧ a.number = (s.pkg.cmd c.id).progress ∧
      a.part = c.part ∧ a.coll = false ∧ a.own = 0 ∧ a.cmd = some c.id ∧ SameStorage s.pkg t.pkg) ∧
    (let n := c.c.toNat
     let bs := localBytes s.pkg c c.a.toNat (4 * n)
     home = true → g ∈ c.groups → n ≤ 65536 → bits c.b.toNat 11 8 ≤ 4 → bits c.b.toNat 15 12 ≤ 2 → Eng.linear c.a.toNat (4 * n) 4 = true →
      Eng.linear c.d.toNat (4 * n) 4 = true → Clean s.pkg (coreOf c.ctx) →
      ∃ t a, exec (.ecColl c) s = .next t ∧ (t.pkg.cmd c.id).phase = .arrived ∧ t.pkg.arrivals = s.pkg.arrivals ++ [a] ∧ a.node = c.node ∧
        a.group = g ∧ a.number = (s.pkg.cmd c.id).progress ∧ a.part = c.part ∧ a.coll = true ∧ a.own = 0 ∧ a.cmd = some c.id ∧ a.count = n ∧
        a.op = bits c.b.toNat 11 8 ∧ a.type = bits c.b.toNat 15 12 ∧ a.root = bits c.b.toNat 31 16 ∧
        a.data = (List.range n).map (fun i => BitVec.ofNat 32 (field bs (4 * i) 4)) ∧ SameStorage s.pkg t.pkg) ∧
    (home = false → ∃ t, exec (.ecBar c) s = .next t ∧ (t.pkg.cmd c.id).status = 9 ∧ t.pkg.arrivals = s.pkg.arrivals) ∧
    (home = true → g ∉ c.groups → ∃ t, exec (.ecBar c) s = .next t ∧ (t.pkg.cmd c.id).status = 0x0F ∧ t.pkg.arrivals = s.pkg.arrivals)) ∧
  (∀ (node group number : Nat) (s : State) (ms : List Arrival),
    let p := s.pkg
    let arrived := p.arrivals.filter fun a => a.node == node && a.group == group && a.number == number && a.cmd.isSome
    let coming : Prop := ∃ i ∈ memberParts p node group, (∀ a ∈ ms, a.part ≠ i) ∧ i ∉ (p.node node).ended
    let missing : Prop := ∃ i ∈ memberParts p node group, ∀ a ∈ ms, a.part ≠ i
    let faulty : Prop := ∃ a ∈ ms, a.own ≠ 0
    let differ : Prop := (∃ a ∈ ms, ∃ b ∈ ms, a.coll ≠ b.coll ∨ (a.coll = true ∧ b.coll = true ∧
        (a.count ≠ b.count ∨ a.op ≠ b.op ∨ a.type ≠ b.type ∨ (a.op = 4 ∧ a.root ≠ b.root)))) ∨
      ∃ a ∈ ms, a.coll = true ∧ a.op = 4 ∧ ∀ b ∈ ms, b.part ≠ a.root
    let die (a : Arrival) : Nat := dieOf ((p.pcoreOf a.lcore).getD 0)
    let before (a b : Arrival) : Prop := die a < die b ∨ (die a = die b ∧ (a.lcore < b.lcore ∨ (a.lcore = b.lcore ∧ a.part < b.part)))
    let cmdOf (a : Arrival) : Command := p.cmd (a.cmd.getD 0)
    let ends (t : State) (status : Arrival → Nat) : Prop := exec (.episodeComplete node group number) s = .next t ∧
      ∀ a ∈ ms, t.pkg.present (a.cmd.getD 0) = false ∧
        let k := (t.pkg.c (cmdOf a).cmd.ctx).tokens.get (cmdOf a).cmd.tok
        k.state = .complete ∧ k.status = status a ∧ k.acked = false
    let left (f : Lane → Lane → Lane) (xs : List Lane) : Option Lane := match xs with | [] => none | x :: ys => some (ys.foldl f x)
    let add (type : Nat) (x y : Lane) : Lane := if type = 0 then laneOf (addF32 x y) else x + y
    let least (type : Nat) (x y : Lane) : Lane :=
      if type = 0 then minF32 x y else if (if type = 1 then y.toInt < x.toInt else y.toNat < x.toNat) then y else x
    let greatest (type : Nat) (x y : Lane) : Lane :=
      if type = 0 then maxF32 x y else if (if type = 1 then x.toInt < y.toInt else x.toNat < y.toNat) then y else x
    let element (i : Nat) (a : Arrival) : Lane := a.data.getD i 0
    let onDie (f : Lane → Lane → Lane) (d i : Nat) : Option Lane := left f ((ms.filter fun a => die a == d).map (element i))
    let total (f : Lane → Lane → Lane) (i : Nat) : Lane := (left f ([onDie f 0 i, onDie f 1 i].filterMap id)).getD 0
    let value (a : Arrival) (i : Nat) : Lane := match a.op with
      | 0 => total (add a.type) i
      | 1 => total (least a.type) i
      | 2 => total (greatest a.type) i
      | 3 =>
        let earlier := (ms.takeWhile (· != a)).filter fun b => die b == die a
        (left (add a.type) ([if die a = 1 then onDie (add a.type) 0 i else none, left (add a.type) (earlier.map (element i))].filterMap id)).getD 0
      | _ => ((ms.find? fun b => b.part == a.root).map (element i)).getD 0
    let results : Pkg := ms.foldl (fun q a => if a.coll = false ∨ a.count = 0 then q else
      let at_ := (cmdOf a).cmd.d.toNat
      engineWrite (coreOf (cmdOf a).cmd.ctx) (cellsAt at_ ((List.range a.count).flatMap fun i => bytesOf 4 (value a i).toNat))
        (wordsOf at_ (4 * a.count)) q) p
    (number = 0 → exec (.episodeComplete node group number) s = .next s) ∧
    (number ≠ 0 → p.live node = true → (p.node node).gang = false → ms.Perm arrived → ms.Pairwise before →
      (coming → exec (.episodeComplete node group number) s = .next s) ∧
      ((∀ a ∈ ms, a.pkg = p.number ∧ a.own ≠ 0x13 ∧ p.present (a.cmd.getD 0) = true ∧ (cmdOf a).cmd.id = a.cmd.getD 0 ∧
          (cmdOf a).phase = .arrived ∧ (cmdOf a).late = [] ∧ (cmdOf a).away = [] ∧ p.powerOf (coreOf (cmdOf a).cmd.ctx) = 0 ∧
          ((p.c (cmdOf a).cmd.ctx).tokens.get (cmdOf a).cmd.tok).cmd = a.cmd.getD 0 ∧
          ((cmdOf a).unit = 12) ∧ (a.own = 0 → a.coll = true → a.op ≤ 4 ∧ Eng.linear (cmdOf a).cmd.d.toNat (4 * a.count) 4 = true)) →
        (ms.map (·.cmd)).Nodup → ¬coming →
        (missing ∨ faulty → ∃ t, ends t (fun a => if a.own = 0 then 0x12 else a.own) ∧ SameStorage p t.pkg) ∧
        (¬missing → ¬faulty → differ → ∃ t, ends t (fun _ => 0x13) ∧ SameStorage p t.pkg) ∧
        (¬missing → ¬faulty → ¬differ → ∃ t, ends t (fun _ => 0) ∧ SameStorage results t.pkg))))

/-- R201, R202: a kick of the issuing package's own core whose buffer lies in one view: one more notice stands to be offered,
with the words of R201, and the kick's token waits. R201, R203, R310: an offer of a notice in its own package. Where the
receiver's slot has room, its 32 bytes with the next sequence number are there, full, and the slot after it is the next;
where it has none, or where an earlier kick of the same part to the same core waits, the notice has been refused now and
nothing is delivered. A refused notice is offered again once the back-off interval of its sender's core has passed. -/
def Obligations.KicksAreDelivered : Prop :=
  (∀ (c : Cmd) (s : State), s.pkg.present c.id = true →
    let lcore := c.a.toNat % 128
    let n := c.c.toNat
    let d := c.d.toNat % 2 ^ 32
    bits c.a.toNat 13 8 = s.pkg.number → (s.pkg.node c.node).cores.testBit lcore = true →
    ∀ core, s.pkg.pcoreOf lcore = some core → n % 4 = 0 → (n = 0 ∨ (Eng.localOk d n = true ∧ d < 0x2000000)) →
    ∃ t m, exec (.ecKick c) s = .next t ∧ t.pkg.notices = s.pkg.notices ++ [m] ∧ m.core = core ∧ m.pkg = s.pkg.number ∧
      m.addr = d ∧ m.len = n ∧ m.cmd = c.id ∧ m.accepted = false ∧ (t.pkg.cmd c.id).phase = .arrived ∧
      m.bytes = noticeBytes s.pkg.number (s.pkg.lcoreOf (coreOf c.ctx)) c.ctx c ∧ SameStorage s.pkg t.pkg) ∧
  (∀ (nid : Nat) (m : Notice) (s : State),
    let p := s.pkg
    let k := p.k m.core
    p.notices.find? (fun n => n.id == nid) = some m → m.accepted = false → m.sent = false → m.sender / 512 = p.number →
    m.pkg = p.number →
    let offered (i : Instr) : Prop :=
      (waitsBehind p m = false → ringRoom p m.core = true → ∃ t, exec i s = .next t ∧
        SameStorage (engineWrite m.core (cellsAt (ringSlot k)
          (m.bytes.take 1 ++ [BitVec.ofNat 8 ((k.accepted.get m.sender + 1) % 256)] ++ m.bytes.drop 2)) (wordsOf (ringSlot k) 32) p) t.pkg ∧
        (t.pkg.k m.core).ringIdx = (k.ringIdx + 1) % 8 ∧
        (t.pkg.k m.core).accepted.get m.sender = (k.accepted.get m.sender + 1) % 256) ∧
      (waitsBehind p m = true ∨ ringRoom p m.core = false → ∃ t, exec i s = .next t ∧ SameStorage p t.pkg ∧
        (∀ e ∈ t.pkg.notices, e.id = nid → e.refusedAt = some s.env.clock) ∧ ∀ n, (t.pkg.k n).ringIdx = (p.k n).ringIdx)
    (m.refusedAt = none → offered (.noticeOffer nid)) ∧
    (∀ since, m.refusedAt = some since → since + backoff p (coreOf (m.sender % 512)) ≤ s.env.clock → offered (.noticeReoffer nid)) ∧
    (∀ since, m.refusedAt = some since → s.env.clock < since + backoff p (coreOf (m.sender % 512)) →
      exec (.noticeReoffer nid) s = .next s))

/-- R97, R187, R188: ENGINE_COMMAND_START. A queued command whose consumed commands have all completed, of a queue that is not
frozen, makes accesses next; one that another has to complete before stays queued. A waiting command that nothing holds
performs some of its writes and makes accesses next. TILE_TAKE and the timeout of an acquire let a waiting command go on.
How many accesses a step makes is the model's choice (log 25). -/
def Obligations.CommandsGoOn : Prop :=
  ∀ (id : Nat) (s : State),
    let p := s.pkg
    let m := p.cmd id
    p.present id = true →
    (∀ q : Pkg, (takeStep id q).micro = .run (q.cmd id).instr :: q.micro ∧ SameStorage q (takeStep id q)) ∧
    (m.phase = .queued → m.accepted = true → (p.c m.cmd.ctx).queueFrozen = false → (∀ n ∈ m.cmd.uses, p.present n = false) →
      ∃ rs, exec (.engineCommandStart id) s = .next { s with pkg := takeStep id { p with replicas := rs } } ∧
        ∀ r ∈ rs, r ∈ p.replicas) ∧
    (m.phase = .queued → (∃ n ∈ m.cmd.uses, p.present n = true ∧ earlySatisfied p m n = false) →
      exec (.engineCommandStart id) s = .next s) ∧
    (m.phase = .waiting → (∀ h ∈ p.held, h.cmd ≠ some id) → m.again = false →
      exec (.engineCommandStart id) s = .next { s with pkg := takeStep id (performSome s.env id p) }) ∧
    (m.phase = .waiting → (∀ h ∈ p.held, h.cmd ≠ some id) → m.unit = 13 → 1 ≤ m.op → m.op ≤ 4 →
      exec (.tileTake id) s = .next { s with pkg := p.push [.run m.instr] }) ∧
    (m.phase = .waiting → (∀ h ∈ p.held, h.cmd ≠ some id) → m.unit = 12 → m.op = 8 → m.progress = 1 → m.timedOut = false →
      m.cmd.c ≠ 0 → m.cmd.c.toNat ≤ s.env.dtime →
      exec (.acqwTimeout id) s = .next { s with pkg := (p.modCmd id fun m => { m with timedOut := true }).push [.run m.instr] })

/-- R188, R189, R194, R195: TOKEN_COMPLETE of a started command whose writes can all be performed: each write that is left is performed,
the full bits of lines after the words of their lines (R77), then those that come after all others, and last the stamp with its eight
bytes, which hold the status in bits 63:56, the sequence number in 55:32 and the device time in 31:0; no other byte, tag, word or bit
of any storage changes, and the command's token has completed with its status, unreported. The writes are of every kind that a command
makes in its own package: to device memory, an output region's stage page, a side slot, a scratchpad, an accumulator, a codebook
table and an element with a contribution to apply. -/
def Obligations.TokensComplete : Prop :=
  ∀ (id : Nat) (s : State),
    let p := s.pkg
    let m := p.cmd id
    let stamp := m.stamp.toList.map (PWrite.fill (bytesOf 8 (m.status % 256 * 2 ^ 56 + m.cmd.seq % 2 ^ 24 * 2 ^ 32 + s.env.dtime % 2 ^ 32)))
    let after := (m.writes ++ m.late ++ stamp).foldl (fun q w => written m.cmd.node w q) p
    let bits (w : PWrite) : Prop := ∃ core add lines, w = .acc core add [] lines
    p.present id = true → m.phase = .started → (∀ h ∈ p.held, h.cmd ≠ some id) → m.again = false → m.away = [] → m.spoiled = [] →
    (m.unit = 12 → m.op = 4 → ∀ e ∈ p.notices, e.cmd ≠ id) → ((p.c m.cmd.ctx).tokens.get m.cmd.tok).cmd = id →
    (∀ w ∈ m.writes ++ m.late ++ m.stamp.toList, Sound p id w) →
    (∀ w ∈ m.writes, bits w ∨ ((∀ core add words lines, w = .acc core add words lines → lines = []) ∧ inTurn m w = true)) →
    (∀ w ∈ m.late ++ m.stamp.toList, ∀ core add words lines, w ≠ .acc core add words lines) →
    ∃ t, exec (.tokenComplete id) s = .next t ∧ SameStorage after t.pkg ∧ (∀ e, t.pkg.cbt.get e = after.cbt.get e) ∧ t.pkg.present id = false ∧
      let k := (t.pkg.c m.cmd.ctx).tokens.get m.cmd.tok
      k.state = .complete ∧ k.status = m.status ∧ k.acked = false ∧
      ∀ j, j ≠ m.cmd.tok → (t.pkg.c m.cmd.ctx).tokens.get j = (p.c m.cmd.ctx).tokens.get j

/-! ## Records of the sys unit -/

/-- R313, R314, R315, R321: SYS_RECORD_WRITE of the first accepted operation of a context whose cluster is on. One whose effect
has been made writes its record, 16 bytes with its value and its status, and leaves the list; a read of a device register
writes the register's value with status 0, or status 4 where none is there; a freeze of another context in service that is
bound and not draining leaves it frozen with cause 0x28. A restore of an altered image, to which the spec gives no outcome,
is the one fault. That an altered image is known by its bytes, and the fault, are the model's choice (log 9). -/
def Obligations.SysRecords : Prop :=
  ∀ (x : Nat) (o : SysOp) (rest : List SysOp) (s : State), (s.pkg.c x).sysq = o :: rest → s.pkg.powerOf (coreOf x) = 0 →
    let place := o.c.toNat
    let record (value status : Nat) : List Host.Cell := cellsAt place (bytesOf 8 value ++ bytesOf 4 status ++ bytesOf 4 0)
    let ends (value status : Nat) : Prop := ∃ t, exec (.sysRecordWrite x) s = .next t ∧ (t.pkg.c x).sysq = rest ∧
      SameStorage (engineWrite (coreOf x) (record value status) (wordsOf place 16) s.pkg) t.pkg
    (o.done = true → ends o.value.toNat o.status) ∧
    (o.done = false → o.op = 3 → (∀ v, regRead o.a.toNat s.pkg = some v → ends v 0) ∧ (regRead o.a.toNat s.pkg = none → ends 0 4)) ∧
    (∀ y, o.done = false → o.op = 7 → o.b.toNat % 2 = 0 → sysTarget s.pkg x o.a.toNat = some y → (s.pkg.c y).phase ≠ .unbound →
      (s.pkg.c y).phase ≠ .draining → (s.pkg.c y).phase ≠ .frozen →
      ∃ t, exec (.sysRecordWrite x) s = .next t ∧ (t.pkg.c y).phase = .frozen ∧ (t.pkg.c y).cause = 0x28 ∧
        (t.pkg.c y).left = (s.pkg.c y).phase ∧ (t.pkg.c x).sysq = rest) ∧
    (∀ f, exec (.sysRecordWrite x) s = .fault f → f = .alteredImage ∧ o.op = 6 ∧ o.done = false)

/-! ## Nodes -/

/-- R341, R345: RECORD_TAKE while launch is enabled, dispatch is not frozen, fewer than 4,096 nodes are live and no taken
record is left to read: the next queue that has a record gives it. Its 512 bytes are read once, Q_HEAD advances by one
modulo 2^32, and the record is tested; one with a reason to refuse is refused with it, and one whose image is read and is as
R343 says makes a live node, which waits. While launch is disabled nothing is taken. The queue after which the turn starts at
reset is the model's choice (log 7). R350: a part that has waited in a core's queue for the time of PREEMPT_WAIT behind a
bound part of lower priority is hinted at, once; R340, R341, R379: a store to Q_TAIL within the ring and one to Q_CPL_HEAD set
the pointer, and a store past the ring changes nothing; the host's store does so through the block of the queue's own function
while its link is up, and behind window writes of the host that are still to be made it waits (R381); one through another
function's block, or while the link is down, changes nothing. A queue that was disabled is enabled with its pointers at 0.
RECORD_TAKE, PREEMPT_HINT, Q_TAIL_STORE, Q_CPL_HEAD_STORE and Q_CTL_ENABLE complete. The list of what has left the package is
the model's own (log 4), and so is the queue of the host's requests (log 82). -/
def Obligations.QueuesAndHints : Prop :=
  (∀ (s : State), s.pkg.taking = [] →
     let p := s.pkg
     (bits (p.regv 0x03000010) 0 0 = 0 → exec .recordTake s = .next s) ∧
     (bits (p.regv 0x03000010) 0 0 = 1 → frozenDispatch p = false → p.nodes.length < 4096 →
       ((queueOrder p.lastQueue).find? (canTake p) = none → exec .recordTake s = .next s) ∧
       ∀ q, (queueOrder p.lastQueue).find? (canTake p) = some q →
         ∃ u : TakenRec, ∃ p', exec .recordTake s = .next { s with pkg := admitRecord s.env u p' } ∧
           u.queue = q ∧ u.time = s.env.dtime ∧ u.order = p.nextOrder ∧ u.fw = (p.queue q).fw ∧ u.rollbacks = 0 ∧
           p'.lastQueue = q ∧ p'.nextOrder = p.nextOrder + 1 ∧
           p'.regv (queueReg q 0x18) = ((p.queue q).head + 1) % 2 ^ 32 ∧ p'.taking = [u] ∧ SameStorage p p' ∧
           ((∀ i < 16, p.badSector.get (launchSlot (p.queue q) (p.queue q).head / 32 + i) = false) →
             u.bytes = p.mem.getMany (launchSlot (p.queue q) (p.queue q).head) 512) ∧
           (∀ r, refuseReason p' u.id u.bytes = some r → admitRecord s.env u p' = refuseNode s.env.dtime (takenNode u) r p') ∧
           let n := takenNode u
           (u.id ≠ 0 → refuseReason p' u.id u.bytes = none →
             ∀ r x, unitRead s.env n.asid u.id 300 (checkImage n) (markRegions s.env.dtime n p') = .ok r x →
               (admitRecord s.env u p').live u.id = true ∧ ((admitRecord s.env u p').node u.id).phase = .waiting ∧
               (admitRecord s.env u p').node u.id = { n with foot := footprint n r.1 r.2 }))) ∧
  ∀ (core q v : Nat) (how : StorePath) (s : State),
    let p := s.pkg
    (∀ e, hintPart s.env p core = some e → ∃ t, exec (.preemptHint core) s = .next t ∧ t.pkg.out = p.out ++ [.hint e.node e.part core] ∧
      ∀ m, (t.pkg.k core).queue.any (fun d => d.node == e.node && d.part == e.part && !d.hinted) = false ∧ t.pkg.c m = p.c m) ∧
    (q < 1024 → v < 2 ^ 32 →
      (how = .inside ∨ (how = .host (p.queue q).fn ∧ p.hostUp = true ∧ ∀ r ∈ p.hostq, HostReq.posted r = false)) →
      (since v (p.queue q).head ≤ (p.queue q).size → ∃ t, exec (.qTailStore q v how) s = .next t ∧
        t.pkg.regv (queueReg q 0x10) = v ∧ SameStorage p t.pkg) ∧
      ((p.queue q).size < since v (p.queue q).head → exec (.qTailStore q v how) s = .next s) ∧
      exec (.qCplHeadStore q v how) s = .next { s with pkg := p.setReg (queueReg q 0x30) v }) ∧
    (q < 1024 → v < 2 ^ 32 → ∀ fn, (p.hostUp = false ∨ (p.queue q).fn ≠ fn) →
      exec (.qTailStore q v (.host fn)) s = .next s ∧ exec (.qCplHeadStore q v (.host fn)) s = .next s) ∧
    (q < 1024 → v < 2 ^ 32 → p.hostUp = true → (∃ r ∈ p.hostq, HostReq.posted r = true) →
      let waits (tail : Bool) : State := { s with pkg := { p with hostq := p.hostq ++ [.store tail q v (p.queue q).fn] } }
      exec (.qTailStore q v (.host (p.queue q).fn)) s = .next (waits true) ∧
      exec (.qCplHeadStore q v (.host (p.queue q).fn)) s = .next (waits false)) ∧
    (q < 1024 → v % 2 = 1 → (p.queue q).enable = false → ∃ t, exec (.qCtlEnable q v) s = .next t ∧
      (t.pkg.queue q).enable = true ∧ (t.pkg.queue q).tail = 0 ∧ (t.pkg.queue q).head = 0 ∧ (t.pkg.queue q).cplTail = 0 ∧
      (t.pkg.queue q).cplHead = 0 ∧ SameStorage p t.pkg)

/-- R31, R47, R347, R348: NODE_START of a waiting node all of whose predecessors have completed, while dispatch is not frozen: the
node runs, and every part of it is in the queue of the core that it is dealt to, or kept back for it; a gang's package proposes
the later of the record's tick and its take time and lead where device time is in sync and no port on the way has failed, and
refuses the node with reason 7 otherwise. A predecessor that had completed when its queue was enabled anew has completed.
GANG_PROPOSAL_RECEIVE of a live gang node of a package of the gang: its first proposal is kept, with the groups that the
package has members of, unless the timeout is over: then the node is refused with reason 7; a node that waits or agrees is
refused with reason 7 where the other refused it; a node that has started fails with reason 5 where the other refused it, and
so does every node where the other failed; a word about a record that is not taken here yet is kept. GANG_TIMEOUT of a node
whose proposal has not been met within the timeout refuses it with reason 7, and GANG_START_TICK at the agreed tick starts it.
A refused node is live no more, and its queue's completion pointer advances by one modulo 2^32, or, where a failed plane or a
record before it keeps its record, its record waits (R363). NODE_START, GANG_PROPOSAL_RECEIVE, GANG_TIMEOUT and
GANG_START_TICK complete. Ports that have failed are told from ports that have not trained as log 73 says; what another
package's words do here is the model's reading (log 71). -/
def Obligations.NodesStart : Prop :=
  (∀ (id : Nat) (s : State), s.pkg.live id = true →
    let p := s.pkg
    let n := p.node id
    let starts (i : Instr) : Prop := ∃ t, exec i s = .next t ∧ (t.pkg.node id).phase = .running ∧ SameStorage p t.pkg ∧
      (∀ x, t.pkg.c x = p.c x) ∧ ∀ core < 72, ∀ part ∈ partsOn p n core,
        (∃ e ∈ (t.pkg.k core).queue, e.node = id ∧ e.part = part) ∨ (id, part) ∈ (t.pkg.k core).backlog
    let q := id / 2 ^ 48
    let waits : Prop := (Eng.failedAt p (completionSlot p q)).isSome ∨ ∃ e ∈ p.owed, e.id / 2 ^ 48 = q
    let refused (i : Instr) : Prop := ∃ t, exec i s = .next t ∧ t.pkg = refuseNode s.env.dtime n 7 p ∧ t.pkg.live id = false ∧
      (∀ k, t.pkg.k k = p.k k) ∧ (¬waits → t.pkg.regv (queueReg q 0x28) = ((p.queue q).cplTail + 1) % 2 ^ 32) ∧
      (waits → ∃ o : Owed, o.id = id ∧ t.pkg.owed = p.owed ++ [o] ∧ t.pkg.regv (queueReg q 0x28) = p.regv (queueReg q 0x28))
    let fails (i : Instr) : Prop := ∃ t, exec i s = .next t ∧ (t.pkg.node id).phase = .ending ∧ (t.pkg.node id).fail = some 5 ∧
      SameStorage p t.pkg
    let done (d : Nat) : Prop := d ∈ n.met ∨ predSatisfied p d = true
    let ready : Prop := n.phase = .waiting ∧ frozenDispatch p = false ∧ ∀ d ∈ n.preds, done d
    let late : Prop := n.phase = .agreeing ∧ n.agreed = none ∧ n.proposedAt.getD 0 + gangTimeout p ≤ s.env.dtime
    (ready → n.gang = false → starts (.nodeStart id)) ∧
    (ready → n.gang = true → inSync p = true → (∀ k ∈ gangOthers p n, edgeLives p k = true) → (∀ e ∈ p.early, e.1 ≠ id) →
      ∃ t, exec (.nodeStart id) s = .next t ∧ (t.pkg.node id).phase = .agreeing ∧ (t.pkg.node id).proposedAt = some s.env.dtime ∧
        (t.pkg.node id).proposals = n.proposals ++ [(p.number, max n.tick (n.taken + gangLead p))] ∧ SameStorage p t.pkg) ∧
    (ready → n.gang = true → (inSync p = false ∨ ∃ k ∈ gangOthers p n, edgeLives p k = false) → refused (.nodeStart id)) ∧
    (n.phase = .waiting → (∃ d ∈ n.preds, ¬done d) → exec (.nodeStart id) s = .next s) ∧
    (late → refused (.gangTimeout id)) ∧
    (∀ tick, n.phase = .agreeing → n.agreed = some tick → tick ≤ s.env.dtime → starts (.gangStartTick id)) ∧
    ∀ pkg, n.gang = true → n.pkgs.testBit pkg = true → pkg ≠ p.number →
      (∀ tick gs, (∀ q ∈ n.proposals, q.1 ≠ pkg) →
        (late → refused (.gangProposalReceive id pkg (.proposal tick gs))) ∧
        (¬late → ∃ t, exec (.gangProposalReceive id pkg (.proposal tick gs)) s = .next t ∧
          (t.pkg.node id).proposals = n.proposals ++ [(pkg, tick)] ∧ (t.pkg.node id).phase = n.phase ∧
          (t.pkg.node id).members = n.members ++ gs.map (fun g => (pkg, g)) ∧ SameStorage p t.pkg)) ∧
      (n.phase = .waiting ∨ n.phase = .agreeing → refused (.gangProposalReceive id pkg .refused)) ∧
      (n.phase = .running ∨ n.phase = .committing → fails (.gangProposalReceive id pkg .refused)) ∧
      (n.phase = .waiting ∨ n.phase = .agreeing ∨ n.phase = .running ∨ n.phase = .committing →
        fails (.gangProposalReceive id pkg .failed))) ∧
  ∀ (id pkg : Nat) (w : GangWord) (s : State), s.pkg.live id = false → takenCount s.pkg (id / 2 ^ 48) < postingOf id →
    exec (.gangProposalReceive id pkg w) s = .next { s with pkg := { s.pkg with early := s.pkg.early ++ [(id, pkg, w)] } }

/-- R37, R344, R345: KERNEL_IMAGE_LOAD of a running node whose image is wanted on a core and not resident there: where its reads are
accepted and the footprint of what was read is free, the contents are in the scratchpad with every word they touch full, and the
image is resident with its entry, its trap vector and its templates; where it is not free, the load waits. Reads that fail
end the node with reason 7. KERNEL_IMAGE_LOAD completes. -/
def Obligations.ImagesLoad : Prop :=
  ∀ (core id : Nat) (s : State),
    let p := s.pkg
    let n := p.node id
    core < 72 → p.live id = true → n.phase = .running → imageWanted p core id = true → isResident (p.k core) id = false →
    p.powerOf core = 0 → nodeHeld p id core = false →
    (∀ h foot cs q, unitRead s.env n.asid id core (loadWork n) p = .ok (h, foot, cs) q →
      (footprintFree p core id foot = true →
        ∃ t, exec (.kernelImageLoad core id) s = .next t ∧
          (∃ i ∈ (t.pkg.k core).images, i.node = id ∧ i.entry = h.entry ∧ i.tvec = h.tvec ∧ i.foot = foot ∧
            ∀ k b, (cs.2.reverse.find? fun t => t.1 == k) = some (k, b) → i.tmpl.get k = b) ∧
          (∀ a, (t.pkg.k core).spad.get a =
            (((loadCells cs.1).reverse.find? fun c => c.1 == a).map (·.2)).getD ((q.k core).spad.get a)) ∧
          (∀ c ∈ loadCells cs.1, (t.pkg.k core).tags.get (c.1 / 4) = true) ∧
          ∀ m, m ≠ core → ∀ a, (t.pkg.k m).spad.get a = (q.k m).spad.get a) ∧
      (footprintFree p core id foot = false → ∃ t, exec (.kernelImageLoad core id) s = .next t ∧
        t.pkg = q.modNode id fun n => { n with foot := foot })) ∧
    ∀ q, unitRead s.env n.asid id core (loadWork n) p = .fail q → ∃ t, exec (.kernelImageLoad core id) s = .next t ∧
      (t.pkg.node id).phase = .ending ∧ (t.pkg.node id).fail = some 7

/-- R32, R33, R36: PART_BIND gives a free context the first of the queued parts that nothing keeps from being bound, where its
image is resident; one of a resident node is bound with every other part of the node, once all of its images are loaded and its
contexts free, and until then nothing is bound there. R36: what a part finds at its binding: the entry bundle as its next
address, the registers of its place, part, node, ASID, arguments and mode, the first group, the seed and the trap vector,
and 0 in every other register, port and token. PART_BIND completes. Which free context a part gets, and what keeps a part from
being bound, are the model's reading (logs 2, 19 and 75). -/
def Obligations.PartsAreBound : Prop :=
  (∀ (x node part : Nat) (s : State),
    let p := s.pkg
    let core := coreOf x
    x ∈ freeCtxs p core → firstPart p (((p.k core).queue.map fun e => (e.node, e.part)).filter (eligible p core)) = some (node, part) →
    ((p.node node).resident = false → isResident (p.k core) node = true →
      ∃ t, exec (.partBind x) s = .next t ∧ t.pkg = bindPart s.env.clock x node part p ∧ (t.pkg.c x).phase = .ready ∧
        (t.pkg.c x).node = some (p.node node).id ∧ (t.pkg.c x).part = part) ∧
    ((p.node node).resident = true →
      (bindsWhole p node = true → exec (.partBind x) s = .next { s with pkg := bindWhole s.env.clock node p }) ∧
      (bindsWhole p node = false → exec (.partBind x) s = .next s))) ∧
  (∀ (clock x node part : Nat) (i : Resident) (p : Pkg),
    let core := coreOf x
    let n := p.node node
    (p.k core).images.find? (fun j => j.node == node) = some i →
    let q := bindPart clock x node part p
    let c := q.c x
    c.phase = .ready ∧ c.pc = i.entry ∧ c.flight = [] ∧ c.node = some n.id ∧ c.part = part ∧ c.asid = n.asid ∧ c.smode = n.smode ∧
    (∀ k, c.s.get k = 0) ∧ (∀ k, c.v.get k = 0) ∧ c.p = 0 ∧ (∀ k, c.m.get k = 0) ∧ (∀ k, c.rport.get k = 0 ∧ c.vport.get k = 0) ∧
    (∀ k, c.tokens.get k = default) ∧ (∀ k, c.tmpl.get k = i.tmpl.get k) ∧
    (c.cr 0x0C0).toNat = x % 4 ∧ (core < 72 → (c.cr 0x0C2).toNat = core) ∧
    (part < 2 ^ 16 → (c.cr 0x0C6).toNat = part) ∧ (n.nparts < 2 ^ 16 → (c.cr 0x0C7).toNat = n.nparts) ∧
    (n.id < 2 ^ 64 → (c.cr 0x0C8).toNat = n.id) ∧ (n.asid < 2 ^ 16 → (c.cr 0x0C9).toNat = n.asid) ∧
    (n.aplace < 2 ^ 32 → (c.cr 0x0CA).toNat = n.aplace) ∧ (c.cr 0x0CB).toNat = (if n.smode then 1 else 0) ∧
    (c.cr 0x0D3).toNat = (n.seed + part) % 2 ^ 64 ∧ (i.tvec < 2 ^ 32 → i.tvec % 32 = 0 → c.tvec = i.tvec) ∧
    (∀ code ∈ [0x0D0, 0x0D1, 0x0D2, 0x0D4, 0x0D5, 0x0D6, 0x0D9, 0x0DA], c.cr code = 0) ∧
    (∀ y, y ≠ x → q.c y = p.c y) ∧ SameStorage p q)

/-- R35, R39, R113, R348, R349: a part ends once it drains, has no command outstanding and no record to write: its context is unbound
and the node knows the part as ended. A node whose part faulted unobserved is rolled back, one that has no page to replace
commits at once, and an ending node completes where no failed plane keeps its record and none of its queue waits before it: it is live no more, its queue's
completion pointer advances by one modulo 2^32, and no byte or tag of any core changes. PART_END, NODE_COMMIT and
NODE_COMPLETE complete. -/
def Obligations.NodesEnd : Prop :=
  ∀ (x id : Nat) (s : State),
    let p := s.pkg
    let n := p.node id
    ((p.c x).phase = .draining → p.cmdsOf x = [] → (p.c x).sysq = [] → (p.c x).node = some id →
      ∃ t, exec (.partEnd x) s = .next t ∧ (t.pkg.c x).phase = .unbound ∧ (t.pkg.c x).node = none ∧
        (t.pkg.c x).cursor = (p.c x).cursor ∧ (t.pkg.c x).seq = (p.c x).seq ∧ (∀ k, (t.pkg.c x).s.get k = (p.c x).s.get k) ∧
        (t.pkg.node id).ended = n.ended ++ [(p.c x).part] ∧ SameStorage p t.pkg) ∧
    (p.live id = true → n.phase = .committing → nodeHeld p id 301 = false →
      (n.unseen.isSome = true → exec (.nodeCommit id) s = .next { s with pkg := rollback s.env id p }) ∧
      (n.unseen = none → n.stage = [] → ∃ t, exec (.nodeCommit id) s = .next t ∧ (t.pkg.node id).phase = .ending ∧ SameStorage p t.pkg)) ∧
    (p.live id = true → n.phase = .ending → Eng.failedAt p (completionSlot p (id / 2 ^ 48)) = none →
      (∀ e ∈ p.owed, e.id / 2 ^ 48 ≠ id / 2 ^ 48) →
      ∃ t, exec (.nodeComplete id) s = .next t ∧ t.pkg.live id = false ∧
      t.pkg.regv (queueReg (id / 2 ^ 48) 0x28) = ((p.queue (id / 2 ^ 48)).cplTail + 1) % 2 ^ 32 ∧
      (∀ m, m ≠ id → t.pkg.node m = p.node m) ∧ (∀ y, t.pkg.c y = p.c y) ∧
      ∀ k a, (t.pkg.k k).spad.get a = (p.k k).spad.get a ∧ (t.pkg.k k).tags.get a = (p.k k).tags.get a)

/-! ## Device registers -/

/-- R5, R310, R358, R359, R389: REGISTER_WRITE of a register whose write does nothing more sets its fields and nothing else but for the
log's entry where dispatch freezes or resumes by it, within the limits that its table gives: a core's quantum in 64 to 256, its
back-off in 1 to 65,535, its watchdog interval 0 or at least 16,384, the power cap in 600 to 2,800. A write of NODE_ABORT is not
accepted while dispatch is frozen. A write that a row of its own makes goes on with that row, and one outside every register is
ignored. REGISTER_WRITE completes. -/
def Obligations.RegistersWrite : Prop :=
  ∀ (a v : Nat) (s : State),
    let p := s.pkg
    (hasReg a = false → exec (.registerWrite a v) s = .next s) ∧
    (hasReg a = true → writeRow a v p = .registerWrite a v → a ≠ 0x04000048 ∨ frozenDispatch p = false →
      ∃ t, exec (.registerWrite a v) s = .next t ∧ t.pkg = noteFreeze s.env.dtime p (plainWrite a v p) ∧
        (∀ b, t.pkg.regv b = (plainWrite a v p).regv b) ∧ SameStorage p t.pkg) ∧
    (writeRow 0x04000048 v p = .registerWrite 0x04000048 v → frozenDispatch p = true → exec (.registerWrite 0x04000048 v) s = .next s) ∧
    (hasReg a = true → (∀ b w, writeRow a v p ≠ .registerWrite b w) →
      exec (.registerWrite a v) s = .next { s with pkg := p.push [.run (writeRow a v p)] }) ∧
    (∀ core < 72, ∃ t, exec (.registerWrite (0x01000008 + 0x1000 * core) v) s = .next t ∧
      t.pkg.regv (0x01000008 + 0x1000 * core) = max 64 (min 256 (v % 512)) ∧
      ∀ b, b ≠ 0x01000008 + 0x1000 * core → t.pkg.regv b = p.regv b) ∧
    (∀ core < 72, ∃ t, exec (.registerWrite (0x01000010 + 0x1000 * core) v) s = .next t ∧
      (t.pkg.regv (0x01000010 + 0x1000 * core) = 0 ∨ 16384 ≤ t.pkg.regv (0x01000010 + 0x1000 * core))) ∧
    (∀ core < 72, ∃ t, exec (.registerWrite (0x01000018 + 0x1000 * core) v) s = .next t ∧
      t.pkg.regv (0x01000018 + 0x1000 * core) = max 1 (v % 65536)) ∧
    (∃ t, exec (.registerWrite 0x18 v) s = .next t ∧ t.pkg.regv 0x18 = max 600 (min 2800 (v % 65536)))

/-- R353 to R359: the fault and log blocks. Enabling a ring sets its pointers to 0; a head is what is written, modulo 2^32; a 1
written to CP_STAT clears its mismatch bit and no other, and a mismatch sets its pair's. The oldest record of a source is
written whole at its place in the ring where the ring has room, its tail advances by one and the command processors are
interrupted; without room a record of kind 1, 2, 6 or 8 is dropped and counted, and another stays. The oldest event is
written to the log while it has room. R335: POISON_CLR takes away every mark of the table word that it names; R330: a resolve
releases or fails the held accesses that its record names. A ring in a failed plane keeps its record waiting (log 70).
FAULT_RECORD_POST, EVENT_LOG_APPEND, CP_MISMATCH, FAULT_CTL_ENABLE, EVLOG_CTL_ENABLE, FAULT_HEAD_WRITE, EVLOG_HEAD_WRITE,
CP_STAT_CLEAR, POISON_CLR, TRANS_RESOLVE_RETRY and TRANS_RESOLVE_FAIL complete. The list of what has left the package is the
model's own (log 4). -/
def Obligations.FaultRegisters : Prop :=
  ∀ (v source pair : Nat) (s : State),
    let p := s.pkg
    let written (q : Pkg) (a n : Nat) (bs : List Byte) : Prop :=
      (∀ i < n, q.mem.get (a + i) = bs.getD i 0) ∧ ∀ b, b < a ∨ a + n ≤ b → q.mem.get b = p.mem.get b
    (∀ r, p.faultq.find? (fun r => r.source == source) = some r → Eng.failedAt p (faultSlot p) = none →
      (faultRoom p = true → ∃ t, exec (.faultRecordPost source) s = .next t ∧
        written t.pkg (bits (p.regv 0x04000000) 55 6 * 64 + 64 * (ringTail p false % ringSize p false)) 64
          (recordBytes r (ringTail p false)) ∧
        ringTail t.pkg false = (ringTail p false + 1) % 2 ^ 32 ∧ t.pkg.out = p.out ++ [.interrupt 0] ∧
        t.pkg.faultq = dropFirst source p.faultq) ∧
      (faultRoom p = false → r.kind ∈ [1, 2, 6, 8] → ∃ t, exec (.faultRecordPost source) s = .next t ∧
        t.pkg.faultq = dropFirst source p.faultq ∧ SameStorage p t.pkg) ∧
      (faultRoom p = false → r.kind ∉ [1, 2, 6, 8] → exec (.faultRecordPost source) s = .next s)) ∧
    (∀ e es, p.logq = e :: es → ringOn p true = true → Eng.failedAt p (eventSlot p) = none →
      (ringFree p true = true → ∃ t, exec .eventLogAppend s = .next t ∧
        written t.pkg (bits (p.regv 0x04000020) 55 6 * 64 + 32 * (ringTail p true % ringSize p true)) 32
          (eventBytes e (ringTail p true)) ∧ ringTail t.pkg true = (ringTail p true + 1) % 2 ^ 32) ∧
      (ringFree p true = false → exec .eventLogAppend s = .next s)) ∧
    (pair < 2 → ∃ t, exec (.cpMismatch pair) s = .next t ∧ (t.pkg.regv 0x04000040).testBit pair = true ∧ SameStorage p t.pkg ∧
      ∃ r ∈ t.pkg.faultq, r.kind = 0x0B) ∧
    (v % 2 = 1 → ringOn p false = false → ∃ t, exec (.faultCtlEnable v) s = .next t ∧ ringOn t.pkg false = true ∧
      ringTail t.pkg false = 0 ∧ ringHead t.pkg false = 0 ∧ SameStorage p t.pkg) ∧
    (v % 2 = 1 → ringOn p true = false → ∃ t, exec (.evlogCtlEnable v) s = .next t ∧ ringOn t.pkg true = true ∧
      ringTail t.pkg true = 0 ∧ ringHead t.pkg true = 0 ∧ SameStorage p t.pkg) ∧
    exec (.faultHeadWrite v) s = .next { s with pkg := p.setReg 0x04000018 (v % 2 ^ 32) } ∧
    (∃ t, exec (.evlogHeadWrite v) s = .next t ∧ ringHead t.pkg true = v % 2 ^ 32 ∧ SameStorage p t.pkg) ∧
    (∃ t, exec (.cpStatClear v) s = .next t ∧ SameStorage p t.pkg ∧ ∀ i < 2,
      (t.pkg.regv 0x04000040).testBit i = ((p.regv 0x04000040).testBit i && !v.testBit i)) ∧
    (∃ t, exec (.poisonClr v) s = .next t ∧ SameStorage p t.pkg ∧
      ∀ k, t.pkg.poisonTbl.get k = (p.poisonTbl.get k && k % 2 ^ 53 != v / 8 % 2 ^ 53)) ∧
    (∃ t, exec (.transResolveRetry v) s = .next t ∧ t.pkg = releaseHeld (transHeld (v % 2 ^ 32)) p ∧ SameStorage p t.pkg ∧
      (∀ h ∈ t.pkg.held, transHeld (v % 2 ^ 32) h = false) ∧ ∀ h ∈ p.held, transHeld (v % 2 ^ 32) h = false → h ∈ t.pkg.held) ∧
    (∃ t, exec (.transResolveFail v) s = .next t ∧
      t.pkg = failHeld s.env (transHeld (v % 2 ^ 32)) (fun h => if h.kind = 3 then 5 else 4) p ∧
      ∀ h ∈ t.pkg.held, transHeld (v % 2 ^ 32) h = false)

/-- R337, R345, R356: LAUNCH_CTL.enable is set where the core map agrees with the harvest and the package has had no fault, and
refused otherwise; an abort of a live node that is not restartable, or with action 2, fails it with reason 2; one of a
restartable node that runs, with action 1 and fewer rollbacks than the limit, starts the node over with one rollback more; a
node that has failed already ends as it would. While dispatch is frozen neither is accepted. LAUNCH_CTL_WRITE,
NODE_ABORT_ROLLBACK, NODE_ABORT_FAIL and DIE_LINK_FAIL complete. R351: when a die link fails the package has had a fault: launch is disabled, no taken record is left, every live node ends with reason 2,
and a record of kind 0x0F is on its way; nothing enables launch again before a reset. What becomes of taken records is the
model's reading (log 89). -/
def Obligations.LaunchAndAbort : Prop :=
  (∀ (v : Nat) (s : State),
    let p := s.pkg
    let id := v % 2 ^ 58
    (v % 2 = 1 → bits (p.regv 0x03000010) 0 0 = 0 → mapOk p v = false → ∃ t, exec (.launchCtlWrite v) s = .next t ∧
      bits (t.pkg.regv 0x03000010) 0 0 = 0 ∧ SameStorage p t.pkg) ∧
    (v % 2 = 1 → bits (p.regv 0x03000010) 0 0 = 0 → mapOk p v = true → p.broken = false → ∃ t, exec (.launchCtlWrite v) s = .next t ∧
      bits (t.pkg.regv 0x03000010) 0 0 = 1 ∧ SameStorage p t.pkg) ∧
    (frozenDispatch p = false → p.live id = true → (p.node id).fail = none →
      (∃ t, exec (.nodeAbortFail v) s = .next t ∧ (t.pkg.node id).phase = .ending ∧ (t.pkg.node id).fail = some 2 ∧
        SameStorage p t.pkg ∧ ∀ x, (p.c x).node = some id → x < 288 → (t.pkg.c x).phase = .unbound) ∧
      ((p.node id).restart = false → ∃ t, exec (.nodeAbortRollback v) s = .next t ∧ (t.pkg.node id).phase = .ending ∧
        (t.pkg.node id).fail = some 2) ∧
      ((p.node id).restart = true → (p.node id).phase = .running → (p.node id).rollbacks < retryLimit p →
        ∃ t, exec (.nodeAbortRollback v) s = .next t ∧ (t.pkg.node id).phase = .running ∧ (t.pkg.node id).ended = [] ∧
          (t.pkg.node id).rollbacks = (p.node id).rollbacks + 1 ∧ SameStorage p t.pkg ∧
          ∀ x, (p.c x).node = some id → x < 288 → (t.pkg.c x).phase = .unbound)) ∧
    (frozenDispatch p = false → p.live id = true → (p.node id).fail.isSome = true →
      ∃ t, exec (.nodeAbortFail v) s = .next t ∧ t.pkg.nodes = p.nodes ∧ SameStorage p t.pkg) ∧
    (frozenDispatch p = true → exec (.nodeAbortFail v) s = .next s ∧ exec (.nodeAbortRollback v) s = .next s)) ∧
  (∀ (link v : Nat) (s : State),
    let p := s.pkg
    (link < 3 → (∀ e ∈ p.nodes, e.2.id = e.1) → ∃ t, exec (.dieLinkFail link) s = .next t ∧ t.pkg.broken = true ∧
      bits (t.pkg.regv 0x03000010) 0 0 = 0 ∧ t.pkg.taking = [] ∧
      (∀ id, p.live id = true → (t.pkg.node id).phase = .ending ∧ (t.pkg.node id).fail = some 2) ∧
      ∃ r ∈ t.pkg.faultq, r.kind = 0x0F) ∧
    (p.broken = true → v % 2 = 1 → bits (p.regv 0x03000010) 0 0 = 0 → ∃ t, exec (.launchCtlWrite v) s = .next t ∧
      bits (t.pkg.regv 0x03000010) 0 0 = 0))

/-! ## Errors, repairs, moves, the skim engine -/

/-- R83, R84, R352, R361, R362: CORRECTED_ERROR in a core or a tile changes no byte. An uncorrectable one poisons the codeword,
marks the accumulator word, marks the sector, or leaves a latch with a parity error that the macro using it finds; a
corrected one in a scratchpad is on its way as a record of kind 1, one in a tile as a record of kind 2. A step of a repair
ends or begins; the end of a repair restarts its resource's count, spends one spare of its category and posts a record of
kind 8. R362, R363: PLANE_REMAP_COMPLETE serves the plane through an entry of the tile's remap table and posts a record of
kind 6, or, with no entry or reserve plane left, the plane has failed. REPAIR_RESOLVE of a record that no failed plane names
changes nothing; else no access is held at the plane any more, and after a remap the plane is no failed one. R388: what a
completed repair was is kept in the flash log.
CORRECTED_ERROR, REPAIR_STEP_COMPLETE, REPAIR_COMPLETE, PLANE_REMAP_COMPLETE and the three REPAIR_RESOLVE rows complete. That one row
carries every kind of error, and the places that stand for storages other than DRAM, are the model's choice (logs 34 and
35); which planes wait is log 16. -/
def Obligations.ErrorsAndRepairs : Prop :=
  (∀ (e : ErrorSite) (tile : Nat) (s : State),
    let p := s.pkg
    let core := (e.tile - 4608) % 72
    let next (i : Instr) (f : Pkg → Prop) : Prop := ∃ t, exec i s = .next t ∧ SameStorage p t.pkg ∧ f t.pkg
    (e.tile < 4608 → e.plane < 24576 → next (.correctedError e) fun q =>
      if e.correctable then ∃ r ∈ q.faultq, r.kind = 2 ∧ r.tile = e.tile
      else q.badSector.get (dramDpa e.tile e.plane (32 * (e.row % 128)) / 32) = true) ∧
    (4608 ≤ e.tile → e.tile < 4680 → next (.correctedError e) fun q =>
      if e.correctable then ∃ r ∈ q.faultq, r.kind = 1 ∧ r.pcore = core ∧ r.detail = e.bank
      else (q.k core).poison.get (e.row % 131072) = true) ∧
    (4752 ≤ e.tile → e.tile < 9360 → e.correctable = false → next (.correctedError e) fun q =>
      let tl := p.tiles.get (e.tile - 4752)
      let tl' := q.tiles.get (e.tile - 4752)
      if e.plane = 0 then (tl.active.valid = true → tl'.active.parity = true) ∧ tl'.shadow = tl.shadow
      else (tl.shadow.valid = true → tl'.shadow.parity = true) ∧ tl'.active = tl.active) ∧
    (4680 ≤ e.tile → e.tile < 4752 → e.correctable = false → next (.correctedError e) fun q =>
      (q.k core).badAcc.get (e.row % 524288) = true) ∧
    (∀ r, stepRepair p tile = some r → next (.repairStepComplete tile) fun q => q.repairs = p.repairs.map fun x =>
      if x = r then { r with pending := !r.pending, steps := if r.pending then r.steps - 1 else r.steps } else x) ∧
    (∀ r, doneRepair p tile false = some r → 1 ≤ r.category → r.category ≤ 3 → next (.repairComplete tile) fun q =>
      r ∉ q.repairs ∧ q.counts.get (resourceKey tile r.category r.index) = 0 ∧
      sparesLeft q tile r.category = sparesLeft p tile r.category - 1 ∧
      ∃ f ∈ q.faultq, f.kind = 8 ∧ f.code = r.category ∧ f.tile = tile ∧ f.detail = r.plane ∧ q.flash = p.flash ++ [f])) ∧
  (∀ (tile v : Nat) (s : State),
    let p := s.pkg
    let served (q : Pkg) (plane : Nat) : Prop := ∃ n < 16, remapUsed (remapEntry q tile n) = true ∧ bits (remapEntry q tile n) 14 0 = plane
    let goes (i : Instr) (f : Pkg → Prop) : Prop := ∃ t, exec i s = .next t ∧ f t.pkg
    (∀ r, doneRepair p tile true = some r →
      ((remapsLeft p tile = 0 ∨ reserveLeft p tile = 0) → goes (.planeRemapComplete tile) fun q =>
        ∃ f ∈ q.failed, f.tile = tile ∧ f.plane = r.plane) ∧
      (0 < remapsLeft p tile → 0 < reserveLeft p tile → r.plane < 24576 → (∃ n < 16, remapUsed (remapEntry p tile n) = false) →
        goes (.planeRemapComplete tile) fun q => served q r.plane ∧ SameStorage p q ∧
          ∃ f ∈ q.faultq, f.kind = 6 ∧ f.tile = tile ∧ f.detail = r.plane ∧ q.flash = p.flash ++ [f])) ∧
    (namedPlane p v = none → exec (.repairResolveRemap v) s = .next s ∧ exec (.repairResolveRelease v) s = .next s ∧
      exec (.repairResolveFail v) s = .next s) ∧
    (∀ f, namedPlane p v = some f →
      (0 < remapsLeft p f.tile → 0 < reserveLeft p f.tile → goes (.repairResolveRemap v) fun q =>
        f ∉ q.failed ∧ (∀ h ∈ q.held, heldAt f h = false) ∧ SameStorage p q ∧
          ∃ r : FaultRec, r.kind = 6 ∧ r.tile = f.tile ∧ r.detail = f.plane ∧ q.flash = p.flash ++ [r]) ∧
      goes (.repairResolveRelease v) (fun q => (∀ h ∈ q.held, heldAt f h = false) ∧ SameStorage p q ∧ q.nodes = p.nodes) ∧
      goes (.repairResolveFail v) fun q => ∀ h ∈ q.held, heldAt f h = false))

/-- R364, R374: MOVE_PAGE holds the page that it names; while it holds one, a further hold changes nothing; its clearing clears
quiet and releases what a move held. quiet becomes 1 only where no access to the page is outstanding. MOVE_CTL.go starts a
move of the held page once quiet is 1 and ends at once with status 6 before; MOVE_COMPLETE leaves no move and its status, 4
for a page that no leaf maps, or whose leaf is not columned or would come to lie on a plane index out of range, which moves
nothing; another move waits for a failed plane that it would write (log 96). R366, R367: SKIM_CTL.go starts a pass at page 0
where none is under way.
Each SKIM_PAGE takes one page: one that no leaf maps, that is retired or not in bonded DRAM, or that is clean where the pass takes
dirty pages alone, is passed over; one that is dirty, whose leaf covers later pages of the pass and at which nothing is held, pending or failed, is
hashed and copied. SKIM_PASS_END writes the counts and raises one interrupt. MOVE_PAGE_HOLD_SET, MOVE_PAGE_HOLD_CLEAR, MOVE_QUIET,
MOVE_CTL_GO, MOVE_COMPLETE, SKIM_CTL_GO, SKIM_PAGE and SKIM_PASS_END complete. Where a skim makes its writes is log 81. -/
def Obligations.PagesMoveAndSkim : Prop :=
  (∀ (v : Nat) (s : State),
    let p := s.pkg
    let hold (q : Pkg) : Nat := bits (q.regv movePage) 56 56
    let quiet (q : Pkg) : Nat := bits (q.regv movePage) 57 57
    let next (i : Instr) (f : Pkg → Prop) : Prop := ∃ t, exec i s = .next t ∧ f t.pkg
    (hold p = 1 → exec (.movePageHoldSet v) s = .next s) ∧
    (hold p = 0 → next (.movePageHoldSet v) fun q =>
      hold q = 1 ∧ quiet q = 0 ∧ bits (q.regv movePage) 55 0 = v % 2 ^ 56 ∧ SameStorage p q) ∧
    (hold p = 1 → next (.movePageHoldClear v) fun q => hold q = 0 ∧ quiet q = 0 ∧ (∀ h ∈ q.held, h.kind ≠ 0) ∧ SameStorage p q) ∧
    (hold p = 0 → next (.movePageHoldClear v) fun q => hold q = 0 ∧ bits (q.regv movePage) 55 0 = v % 2 ^ 56 ∧ SameStorage p q) ∧
    (moveQuietNow p = false → exec .moveQuiet s = .next s) ∧
    (moveQuietNow p = true → next .moveQuiet fun q => quiet q = 1 ∧ hold q = hold p ∧ SameStorage p q) ∧
    (p.move = none → quiet p = 0 → next (.moveCtlGo v) fun q => q.move = none ∧ q.regv moveStat = 2 + 2 ^ 8 * 6) ∧
    (p.move = none → quiet p = 1 → next (.moveCtlGo v) fun q => q.regv moveStat = 1 ∧
      q.move = some { asid := p.regv movePage % 2 ^ 16, page := bits (p.regv movePage) 55 16 * 65536, delta := v % 2 ^ 16 }) ∧
    (∀ m, p.move = some m →
      let refused : Prop := ∀ l, walk p m.asid m.page = .leaf l →
        leafKind l.entry ≠ 1 ∨ ∃ w ∈ movedPlanes p l m.page m.delta, w.2.2 < 0 ∨ 23679 < w.2.2
      (refused → next .moveComplete fun q => q.move = none ∧ q.regv moveStat = 2 + 2 ^ 8 * 4 ∧ SameStorage p q) ∧
      (¬refused → moveBarred m p = false → next .moveComplete fun q => q.move = none ∧
        ∃ st ∈ [0, 5], q.regv moveStat = 2 + 2 ^ 8 * st) ∧
      (¬refused → moveBarred m p = true → exec .moveComplete s = .next s))) ∧
  (∀ (v : Nat) (s : State),
    let p := s.pkg
    let all := bits (p.regv 0x04000090) 26 26 = 1
    (p.skim = none → ∃ t, exec (.skimCtlGo v) s = .next t ∧ t.pkg.skim = some {} ∧ t.pkg.regv skimStat = 0 ∧
      skimPages t.pkg = v % 2 ^ 24 ∧ SameStorage p t.pkg) ∧
    ∀ k, p.skim = some k →
      let va := skimVa p k.next
      (k.next < skimPages p → skimHeld p = false →
        ((∀ l, walk p (skimAsid p) va ≠ .leaf l) ∨
          (∃ l, walk p (skimAsid p) va = .leaf l ∧ (leafState l.entry = 2 ∨ 2 ≤ leafKind l.entry ∨
            (bits l.entry 5 5 = 0 ∧ ¬all ∧ k.cleared = false))) →
          ∃ t, exec .skimPage s = .next t ∧ SameStorage p t.pkg ∧
            t.pkg.skim = some { next := k.next + 1, copied := k.copied, errors := k.errors }) ∧
        ∀ l, walk p (skimAsid p) va = .leaf l → leafState l.entry ≠ 2 → leafKind l.entry < 2 → (bits l.entry 5 5 = 1 ∨ all) →
          k.cleared = false →
          (∀ a ∈ l.at_ :: skimHash p k.next :: (List.range 16).map (fun g => leafPlace p l (va + 4096 * g)),
            Eng.failedAt p a = none ∧ Eng.pendingAt p a = false) →
          (skimCopies p k l va (decide all) = true → ∀ g < 16, Eng.failedAt p (skimDest p k.next + 4096 * g) = none ∧
            Eng.pendingAt p (skimDest p k.next + 4096 * g) = false) →
          Eng.moveHold p (skimAsid p) va = false → lastSubpage p l k.next = false →
          exec .skimPage s = .next { s with pkg := skimCopy s.env.dtime k l va (decide all) p }) ∧
      (skimPages p ≤ k.next → exec .skimPage s = .next s ∧ ∃ t, exec .skimPassEnd s = .next t ∧ t.pkg.skim = none ∧
        t.pkg.out = p.out ++ [.interrupt 1] ∧ SameStorage p t.pkg ∧
        t.pkg.regv skimStat = k.copied % 2 ^ 24 + 2 ^ 24 * (k.errors % 2 ^ 24) + 2 ^ 56))

/-! ## The host, the edges, the die links -/

/-- R98, R380 to R382: a read or write of a host's window that is refused is counted and has no effect, and the read answers
Unsupported Request; an accepted one is on its way with the places that its window's leaves give, one for each byte, and an
accepted write has set D in each of those leaves and changed nothing else. What is on its way is served sector by sector: of a
write, each sector is still to be made, or its bytes are in memory, but for one whose plane has failed meanwhile; a doorbell
store behind it reaches its register only once no sector is left; a read answers once, with the bytes that memory held where no
sector was in error and no plane failed. When the link goes down HOST_STAT.up is 0 and no node changes; a poisoned completion
of a command that has started gives it status 0x07 unless it has one, and drops its writes to the host; a PTM request is
answered with device time in PCIe mode, whatever time it carries; an ATS invalidation removes the page's translation, and waits
to be completed. HOST_WINDOW_READ, HOST_WINDOW_WRITE, HOST_LINK_DOWN, HOST_POISONED_COMPLETION, HOST_PTM_REQUEST and
HOST_ATS_INVALIDATE complete. The list of what has left the package is the model's own (log 4), and so is the queue of the
host's requests and the moment at which each sector of them is made (logs 82, 83). -/
def Obligations.HostAccesses : Prop :=
  (∀ (fn offset n id : Nat) (data : List Byte) (s : State),
    let p := s.pkg
    let next (i : Instr) (f : Pkg → Prop) : Prop := ∃ t, exec i s = .next t ∧ f t.pkg
    (fn < 64 → p.hostUp = true →
      (hostAccess p fn offset n false = none → next (.hostWindowRead fn offset n) fun q =>
        q.out = p.out ++ [.hostData none] ∧ q.hostq = p.hostq ∧ SameStorage p q) ∧
      (∀ qs, hostAccess p fn offset n false = some qs → qs.length = n ∧ next (.hostWindowRead fn offset n) fun q =>
        q.hostq = p.hostq ++ [.read (hostPagesOf p fn offset n) (qs.map fun a => (a.1, none))] ∧ q.out = p.out ∧ SameStorage p q) ∧
      (hostAccess p fn offset data.length true = none → next (.hostWindowWrite fn offset data) fun q =>
        q.hostq = p.hostq ∧ SameStorage p q) ∧
      (∀ qs, hostAccess p fn offset data.length true = some qs → qs.length = data.length ∧
        next (.hostWindowWrite fn offset data) fun q =>
          q.hostq = p.hostq ++ [.write (hostPagesOf p fn offset data.length) ((qs.map (·.1)).zip data)] ∧
          (∀ a, q.mem.get a = if a ∈ qs.map (fun e => e.2.at_) then p.mem.get a ||| 0x20 else p.mem.get a) ∧
          (∀ a, q.side.get a = p.side.get a) ∧ ∀ c, q.k c = p.k c)) ∧
    (p.hostUp = true → next .hostLinkDown fun q => q.hostUp = false ∧ q.nodes = p.nodes ∧ SameStorage p q ∧
      ∃ r ∈ q.faultq, r.kind = 0x0C) ∧
    (p.present id = true → (p.cmd id).phase = .started ∨ (p.cmd id).phase = .waiting → usesHost p (p.cmd id) = true →
      next (.hostPoisonedCompletion id) fun q =>
        (q.cmd id).status = (if (p.cmd id).status = 0 then 7 else (p.cmd id).status) ∧
        (q.cmd id).writes = (p.cmd id).writes.filter (fun w => !hostWrite w) ∧ SameStorage p q) ∧
    (∀ time, p.hostUp = true → p.cxl = false →
      exec (.hostPtmRequest time) s = .next { s with pkg := { p with out := p.out ++ [.ptm s.env.dtime] } }) ∧
    ∀ asid va, next (.hostAtsInvalidate asid va) fun q => SameStorage p q ∧ q.atsWait = p.atsWait ++ [(asid, va)] ∧
      (∀ e ∈ q.tlb, e.asid ≠ asid ∨ e.page ≠ va / 65536) ∧ ∀ e ∈ p.tlb, e.asid ≠ asid → e ∈ q.tlb) ∧
  (∀ (ps : List (Nat × Nat)) (cells : List Host.Cell) (p : Pkg), p.hostq = [.write ps cells] → ∃ kept : Nat → Bool,
    (serveHost p).hostq = (if cells.all (fun c => !kept (c.1 / 32)) then [] else [.write ps (cells.filter fun c => kept (c.1 / 32))]) ∧
    ∀ a, (serveHost p).mem.get a =
      if kept (a / 32) = true ∨ (Eng.failedAt p (32 * (a / 32))).isSome then p.mem.get a
      else ((cells.reverse.find? fun c => c.1 == a).map (·.2)).getD (p.mem.get a)) ∧
  (∀ (ps : List (Nat × Nat)) (cells : List Host.Cell) (tail : Bool) (q v fn : Nat) (p : Pkg),
    p.hostq = [.write ps cells, .store tail q v fn] → q < 1024 →
    ((serveHost p).hostq = [] ∧ (serveHost p).reg = (doorbell tail q v { p with reg := (serveHost { p with hostq := [.write ps cells] }).reg }).reg) ∨
    ∃ rest, (serveHost p).hostq = [.write ps rest, .store tail q v fn] ∧ ∀ o < 64, (serveHost p).regv (queueReg q o) = p.regv (queueReg q o)) ∧
  ∀ (ps : List (Nat × Nat)) (places : List Nat) (p : Pkg), p.hostq = [.read ps (places.map fun a => (a, none))] →
    (∀ a ∈ places, p.badSector.get (a / 32) = false ∧ Eng.failedAt p (32 * (a / 32)) = none) →
    let q := serveHost p
    SameStorage p q ∧
    ((q.hostq = [] ∧ q.out = p.out ++ [.hostData (some (places.map p.mem.get))]) ∨
      ∃ bs, q.hostq = [.read ps bs] ∧ q.out = p.out ∧ bs.map (·.1) = places ∧ ∀ b ∈ bs, b.2 = none ∨ b.2 = some (p.mem.get b.1))

/-- R377, R383 to R385: a message that arrives over a port that is up takes effect where it is for this package, a remote copy's
bytes at their core, full, and the sender's package is told; one for another package is sent on; over a port that is down
nothing happens. A port that trains is up; one that fails is down until the next reset, and the time masters heard over it are
heard no more. R385: a time master is heard over a port that is up and enabled. A package that hears one master and is none takes
its time once, without stepping back, and is steered towards it by 200 ppm at most; it is in sync where it is within 20 ns of it.
One that hears two, or is one itself, keeps its own time and rate and is out of sync; device time never falls. Sync is lost
with a master. ULALM_MESSAGE_RECEIVE, TIME_SYNC_MESSAGE, EDGE_PORT_TRAINED and EDGE_PORT_FAIL complete. How messages are
numbered, answered and replayed is the model's (log 84), and so are how a master is followed and the 20 ns of each side (log 85). -/
def Obligations.EdgesAndTime : Prop :=
  ∀ (port : Nat) (word : TimeWord) (m : LinkMessage) (s : State),
    let p := s.pkg
    let up (q : Pkg) (k : Nat) : Bool := (q.regv edgeStat).testBit k
    let enabled : Bool := (p.regv 0x07000008).testBit (16 + port)
    (up p port = false → exec (.ulalmMessageReceive port m) s = .next s) ∧
    (up p port = true → takes p m = true → m.target ≠ p.number → exec (.ulalmMessageReceive port m) s = .next { s with pkg := forward m (replayed p) }) ∧
    (up p port = true → takes p m = true → m.target = p.number → m.kind = 0 → ∀ core, p.pcoreOf m.sequence = some core → core < 72 →
      let cells := cellsOf (m.data.take (m.data.length - 8))
      ∃ t, exec (.ulalmMessageReceive port m) s = .next t ∧
        SameStorage (engineWrite core cells ((cells.map fun c => c.1 / 4).eraseDups) p) t.pkg ∧
        let told := field m.data (m.data.length - 8) 8
        t.pkg.out = p.out ++ [.message m.source { source := p.number, target := m.source, kind := 12, sequence := told, data := [] }]) ∧
    ((up p port = false ∨ enabled = false) → exec (.timeSyncMessage port word) s = .next s) ∧
    (up p port = true → enabled = true → ∃ t, exec (.timeSyncMessage port word) s = .next t ∧ SameStorage p t.pkg ∧
      let heard := (p.masters ++ [(word.source, port)]).eraseDups
      let alone : Prop := (∀ e ∈ heard, e.1 = word.source) ∧ bits (p.regv 0x07000008) 12 12 = 0
      let apart : Nat := max t.env.dtime word.time - min t.env.dtime word.time
      t.pkg.masters = heard ∧ t.env.clock = s.env.clock ∧ s.env.dtime ≤ t.env.dtime ∧
      (alone → t.env.dtime = (if p.timed = true then s.env.dtime else max s.env.dtime word.time) ∧ t.pkg.timed = true ∧
        t.env.steer = (if word.time < t.env.dtime then -200 else if t.env.dtime < word.time then 200 else 0) ∧
        inSync t.pkg = decide (apart ≤ 20)) ∧
      (¬alone → t.env.dtime = s.env.dtime ∧ t.env.steer = 0 ∧ inSync t.pkg = false) ∧
      bits (t.pkg.regv 0x07000018) 31 16 = min apart 65535) ∧
    (port < 4 → enabled = true → port ∉ p.deadPorts → ∃ t, exec (.edgePortTrained port) s = .next t ∧
      up t.pkg port = true ∧ (∀ k < 4, k ≠ port → up t.pkg k = up p k) ∧ SameStorage p t.pkg) ∧
    (port ∈ p.deadPorts → exec (.edgePortTrained port) s = .next s) ∧
    (port < 4 → up p port = true → ∃ t, exec (.edgePortFail port) s = .next t ∧ up t.pkg port = false ∧ port ∈ t.pkg.deadPorts ∧
      t.env.dtime = s.env.dtime ∧ t.pkg.masters = p.masters.filter (fun e => e.2 != port) ∧
      (p.masters.any (fun e => e.2 == port) = true → t.env.steer = 0 ∧ bits (t.pkg.regv 0x07000018) 0 0 = 0))

/-! ## Reset, power, temperature -/

/-- R387, R388, R395: RESET_N_RELEASE runs bring-up to its end or to the step that stops it with an error code: device time is 0,
every byte of bonded DRAM, of the side slots and of the scratchpads is 0 and every tag empty, every context is unbound, nothing of
the package but the flash log survives, and PWR_CAP and the registers of every core hold their reset values; memory of the host and
of CXL devices, which is none of the package's, is as it was but for what a dirty line held. RESET_N_ASSERT puts the package in
reset with no more than that; PKG_RESET with its key runs bring-up, which may stop with an error code too, with any other value does
nothing. That the flash log is all that survives, the parameter of the release and what a dirty line loses are the model's reading
(logs 10 and 87); contexts hold 0 by log 5. -/
def Obligations.ResetsBringUp : Prop :=
  ∀ (error v : Nat) (s : State),
    let outer (q : Pkg) : Prop := ∀ a, isDram a = false → (∀ l ∈ s.pkg.lines, a ∉ l.2.dirty) → q.mem.get a = s.pkg.mem.get a
    let up (i : Instr) (error : Nat) : Prop := ∃ t, exec i s = .next t ∧ t.env.dtime = 0 ∧ t.pkg.inReset = false ∧
      (∀ a, isDram a = true → t.pkg.mem.get a = 0) ∧ outer t.pkg ∧ (∀ a, t.pkg.side.get a = 0) ∧ (∀ n, t.pkg.k n = {}) ∧
      (∀ x, t.pkg.c x = {}) ∧ t.pkg.nodes = [] ∧ t.pkg.cmds = [] ∧ t.pkg.flash = s.pkg.flash ∧
      t.pkg.regv 0x8 = 2 ^ stepsDone error - 1 + 2 ^ 8 * error ∧ t.pkg.regv 0x18 = 2800 ∧
      ∀ core < 72, t.pkg.regv (0x01000008 + 0x1000 * core) = 256 ∧ t.pkg.regv (0x01000010 + 0x1000 * core) = 0 ∧
        t.pkg.regv (0x01000018 + 0x1000 * core) = 256
    (s.pkg.inReset = true → error ≤ 5 → up (.resetNRelease error) error) ∧
    (s.pkg.inReset = false → exec (.resetNRelease error) s = .next s) ∧
    (∃ t, exec .resetNAssert s = .next t ∧ t.env = s.env ∧ outer t.pkg ∧
      t.pkg = { State.reset.pkg with flash := s.pkg.flash, mem := outerMemory s.pkg, fresh := s.pkg.fresh }) ∧
    (v % 65536 = 0xA5C3 → ∃ e ≤ 5, up (.pkgResetWrite v) e) ∧ (v % 65536 ≠ 0xA5C3 → exec (.pkgResetWrite v) s = .next s)

/-- R389 to R391: a lowering write to a cluster's power register is accepted where the cluster is quiescent and sets its refused
bit otherwise; a raising one is always accepted; a write while a transition runs changes nothing. The end of a transition
clears busy, and the state is the target; a cluster that leaves off has its contexts as after bring-up. R82: SPAD_FAIL
changes no byte. R117: a fill that lands changes no byte. R392 to R394: a power reading above the cap takes the clock one
step of 68.75 MHz down, at most twelve, and sets capped; one below it takes it one step up, and capped reads 0 at the top.
At 105 degrees hot is set and the clock is at its floor of 275 MHz; below 100 hot clears. At 120 degrees the module removes
power. That a lowered cluster counts as lowered at once is the model's reading (log 17). -/
def Obligations.PowerAndTemperature : Prop :=
  (∀ (k v line : Nat) (s : State), k < 18 →
    let p := s.pkg
    let a := cluPwr k
    let f (q : Pkg) (hi lo : Nat) : Nat := bits (q.regv a) hi lo
    let next (i : Instr) (g : Pkg → Prop) : Prop := ∃ t, exec i s = .next t ∧ g t.pkg
    (f p 16 16 = 1 → exec (.cluPwrLower k v) s = .next s ∧ exec (.cluPwrRaise k v) s = .next s) ∧
    (f p 16 16 = 0 → f p 1 0 < v % 4 → v % 4 ≠ 3 →
      (quiescent p k (v % 4) = true → next (.cluPwrLower k v) fun q =>
        f q 1 0 = v % 4 ∧ f q 9 8 = v % 4 ∧ f q 16 16 = 1 ∧ f q 17 17 = 0 ∧ SameStorage p q) ∧
      (quiescent p k (v % 4) = false → next (.cluPwrLower k v) fun q =>
        f q 1 0 = f p 1 0 ∧ f q 9 8 = f p 9 8 ∧ f q 16 16 = 0 ∧ f q 17 17 = 1 ∧ SameStorage p q)) ∧
    (f p 16 16 = 0 → v % 4 ≤ f p 1 0 → v % 4 ≠ 3 → next (.cluPwrRaise k v) fun q =>
      f q 1 0 = v % 4 ∧ f q 17 17 = 0 ∧ f q 16 16 = (if f p 9 8 = v % 4 then 0 else 1) ∧ SameStorage p q) ∧
    (f p 16 16 = 1 → next (.cluPwrTransitionEnd k) fun q => f q 16 16 = 0 ∧ f q 9 8 = f p 1 0 ∧ f q 1 0 = f p 1 0 ∧
      (f p 1 0 < f p 9 8 → f p 9 8 = 2 → ∀ x, clusterOf (coreOf x) = k → q.c x = {})) ∧
    (∀ core < 72, next (.spadFailWrite core v) fun q => bits (q.regv (0x04000100 + 8 * core)) 5 0 = v % 64 ∧ SameStorage p q) ∧
    ((p.lines.get line).pending = true → next (.memorySideCacheFillLands line) fun q =>
      (q.lines.get line).pending = false ∧ (∀ j, j ≠ line → q.lines.get j = p.lines.get j) ∧ SameStorage p q)) ∧
  (∀ (reading : Nat) (s : State),
    let p := s.pkg
    let cap := p.regv 0x18 % 2 ^ 16
    let capped (q : Pkg) : Nat := bits (q.regv 0x20) 40 40
    let hot (q : Pkg) : Nat := bits (q.regv 0x20) 41 41
    let next (i : Instr) (f : Pkg → Prop) : Prop := ∃ t, exec i s = .next t ∧ f t.pkg
    (reading ≤ cap → exec (.powerCapExceed reading) s = .next s) ∧
    (cap < reading → next (.powerCapExceed reading) fun q => q.slow = min 12 (p.slow + 1) ∧ capped q = 1 ∧ hot q = hot p ∧ SameStorage p q) ∧
    (reading < cap → 0 < p.slow → next (.powerHeadroom reading) fun q =>
      q.slow = p.slow - 1 ∧ capped q = (if p.slow = 1 then 0 else 1) ∧ hot q = hot p ∧ SameStorage p q) ∧
    (105 ≤ reading → next (.tempHot reading) fun q => hot q = 1 ∧ 4400 - 275 * clockSteps q = 1100 ∧ q.slow = p.slow ∧ SameStorage p q) ∧
    (reading < 100 → next (.tempCool reading) fun q => hot q = 0 ∧ q.slow = p.slow ∧ SameStorage p q) ∧
    (100 ≤ reading → exec (.tempCool reading) s = .next s) ∧
    (120 ≤ reading → next (.thermTrip reading) fun q => q.tripped = true ∧ q.inReset = true ∧ q.flash = p.flash ∧ q.nodes = []))

/-! ## The machine as a whole -/

/-- A step makes the next part of the step under way: a row, a trigger with its operands, the bundle at a context's next
address, the trowel instruction at a channel's; with none left it makes the next event that may happen, as time has passed.
The bundle fetched is the 32 bytes that stand at the address, where no store to them is still on its way or may go unseen
(R73, R120). The parts of a step and the choice of events are the model's own (logs 1 and 3). -/
def Obligations.StepsRunInstructions : Prop :=
  ∀ (s : State) (rest : List Micro),
    let r : State := { s with pkg := { s.pkg with micro := rest } }
    let first (m : Micro) (o : Out) : Prop := s.pkg.micro = m :: rest → step s = o
    (∀ i, first (.run i) (exec i r)) ∧
    (∀ f i, first (.fire f i) (exec i { r with pkg := { r.pkg with fire := f } })) ∧
    (∀ x, first (.bundle x) (exec (.bundleIssue x (r.pkg.fetchBundle x (r.pkg.c x).pc)) r)) ∧
    (∀ ch i, decodeTrowel (trowelWord s.pkg ch) = .ok i → first (.trowel ch) (exec i { r with pkg := { r.pkg with focus := ch } })) ∧
    (∀ ch e, decodeTrowel (trowelWord s.pkg ch) = .error e → first (.trowel ch) (.fault .reservedTrowelWord)) ∧
    (s.pkg.micro = [] → let i := nextEvent s.env
      let t : State := { s with env := advance s.env }
      (isEvent i = true → eventAllowed s.pkg i = true → step s = exec i (announce i t)) ∧
      (isEvent i = false ∨ eventAllowed s.pkg i = false → step s = .next t)) ∧
    ∀ x a, a % 4 = 0 → (s.pkg.k (coreOf x)).stale = [] → pending (s.pkg.c x) = [] →
      s.pkg.fetchBundle x a = bundleOfBytes ((s.pkg.k (coreOf x)).spad.getMany a 32)

/-- Words written out from R120 to R122, R136 and R262 to R265: a bundle that moves two short literals to sa0 and adds, and
trowel words of every form. -/
def Obligations.WordsDecode : Prop :=
  decodeTrowel 0b00011_00001_00010_00011_00000_0000000 = .ok (.twAddI32 1 2 3) ∧
  decodeTrowel 0b01001_10111_00000_00001_00010_0000000 = .ok (.twFmaF32 23 0 1 2) ∧
  decodeTrowel 0b10000_00100_00101_00000_00000_1100111 = .ok (.twSraImm 4 5 7) ∧
  decodeTrowel 0b10001_00000_00001_00010_00000_0010011 = .ok (.twCmp 1 2 2 3) ∧
  decodeTrowel 0b10100_00000000000_0000000000001010 = .ok (.twLoop 10) ∧
  decodeTrowel 0b10111_00000_00000_00000_00000_0000000 = .ok .twHalt ∧
  decodeTrowel 0b00001_11000_00000_00000_00000_0000000 = .error .reservedRegister ∧
  decodeTrowel 0b11000_00000_00000_00000_00000_0000000 = .error .reservedOpcode ∧
  decodeBundle 0x0020000100000002_041480_041A00_100000_100000_100000_100000_100000_100000#256 =
    { kind := 0, hdr := { rnd := 0, sat := false, fa := 1, fb := 0, join := false }, imm16 := 1, imm32 := 2,
      slots := { guard := 0, neg := false, src := 0x105, dst := 0x080 } :: { guard := 0, neg := false, src := 0x106, dst := 0x200 } ::
        List.replicate 6 Slot.empty } ∧
  decodeSrc 0x105 = some (.short 5) ∧ decodeDst 0x080 = .ok (.operand 0 0) ∧ decodeDst 0x200 = .ok (.trigger 0 0) ∧
  triggerStep 0 0 = some .saAdd

/-- R120 to R122, R262 to R265: decoding an encoded instruction gives it back: every well-formed trowel instruction with every
operand, and every bundle of eight slots, whatever its fields; no bit of either encoding is dropped, and a trowel word has
no second spelling. -/
def Obligations.EncodingsRoundTrip : Prop :=
  (∀ (i : Instr) (w : BitVec 32), i.wf = true → encodeTrowel i = some w → decodeTrowel w = .ok i ∧ decodeBytes (encode i) = .ok i) ∧
  (∀ b : Bundle, b.wf = true → decodeBundle (encodeBundle b) = b ∧ decodeBytes (encode (.bundleIssue 0 b)) = .ok (.bundleIssue 0 b)) ∧
  (∀ w : BitVec 256, encodeBundle (decodeBundle w) = w) ∧
  ∀ (w : BitVec 32) (i : Instr), decodeTrowel w = .ok i → i.wf = true ∧ encodeTrowel i = some w

/-- R8, R385: device time never steps back: from a state whose device time is at least T, every step leaves it at least T,
unless the step runs bring-up, which starts it at 0. How far time goes on is the model's free choice (log 1). -/
def Obligations.TimeNeverStepsBack : Prop :=
  ∀ (T : Nat) (s t : State), T ≤ s.env.dtime → step s = .next t →
    T ≤ t.env.dtime ∨ (t.env.dtime = 0 ∧ ∃ error before, t.pkg = broughtUp error before ∧ before.flash = s.pkg.flash)

/-- R70, R310, R337, R360, R387, R389: the machine after device reset: the package is held in reset, no context is bound, every
byte of memory, side slots and scratchpads reads 0 from a memory in its canonical form, and the registers that have a reset
value hold it. Where no rule gives a value at reset it is the model's choice: contexts (log 5), memory outside the package
(log 6), the group table (log 8), fuses (log 13). -/
def Obligations.ResetState : Prop :=
  let p := State.reset.pkg
  p.inReset = true ∧ State.reset.env.dtime = 0 ∧ p.micro = [] ∧ (∀ x, (p.c x).phase = .unbound) ∧ SameStorage {} p ∧
  (∀ a, p.mem.get a = 0 ∧ p.side.get a = 0) ∧ (∀ n a, (p.k n).spad.get a = 0 ∧ (p.k n).tags.get a = false) ∧
  p.mem.wf = true ∧ p.side.wf = true ∧ p.regv 0x18 = 2800 ∧ p.regv 0x04000050 = 0x4000 ∧ p.regv 0x04000058 = 0x40408 ∧
  p.regv 0x04000060 = 4 ∧
  (∀ n < 72, p.regv (0x01000008 + 0x1000 * n) = 256 ∧ p.regv (0x01000018 + 0x1000 * n) = 256) ∧
  ∀ k < 9, p.regv (0x03000040 + 8 * k) = 2 ^ 64 - 1

/-- R387, R388: a package in reset holds nothing of its own but its flash log, and stays so until RESET_N is released: every step
keeps that, or leaves the state that bring-up makes, with device time 0. That the flash log survives is what R388 says of a
completed repair; that it holds nothing else after a first reset, and how the release is followed, are the model's choice
(logs 10, 87). -/
def Obligations.ResetHolds : Prop :=
  let held (s : State) : Prop := ∃ before tripped, s.pkg = { heldInReset before with tripped := tripped }
  ∀ s t : State, held s → step s = .next t → held t ∨ ∃ error ≤ 5, t.pkg = broughtUp error s.pkg ∧ t.env.dtime = 0

/-- Every row of the table, with every operand and in every state, takes a next state, but for the restore of a snapshot image
that a program has altered, to which R321 gives no outcome: that the model stops there, and by what it knows such an image, is its
own choice (log 9). -/
def Obligations.EveryRowAnswers : Prop :=
  ∀ (i : Instr) (s : State), (∃ t, exec i s = .next t) ∨
    (∃ x o rest, i = .sysRecordWrite x ∧ (s.pkg.c x).sysq = o :: rest ∧ o.op = 6 ∧ o.done = false ∧ exec i s = .fault .alteredImage)
end

