-- ==== Sys2Proof/Laws/Memory.lean ====
section
/-! SUPPORT. Laws of the sparse map and of memory: what a read finds after each write, and that every write keeps the canonical
form, in which equal memories are equal lists. -/

namespace Sys2Proof

namespace NMap
variable {α : Type} [Inhabited α]

@[simp] theorem get_nil (k : Nat) : get ([] : NMap α) k = default := rfl

@[simp] theorem get_erase_self (m : NMap α) (k : Nat) : (m.erase k).get k = default := by
  induction m with
  | nil => rfl
  | cons e m ih =>
    obtain ⟨j, a⟩ := e
    by_cases h : j = k
    · subst h; simpa [erase, List.filter_cons] using ih
    · simpa [erase, List.filter_cons, h, get] using ih

theorem get_erase_of_ne (m : NMap α) {j k : Nat} (h : k ≠ j) : (m.erase j).get k = m.get k := by
  induction m with
  | nil => rfl
  | cons e m ih =>
    obtain ⟨i, a⟩ := e
    by_cases hj : i = j
    · subst hj
      simpa [erase, List.filter_cons, get, Ne.symm h] using ih
    · by_cases hk : i = k
      · subst hk; simp [erase, hj, get]
      · simpa [erase, List.filter_cons, hj, get, hk] using ih

@[simp] theorem get_insert_self (m : NMap α) (k : Nat) (v : α) : (m.insert k v).get k = v := by
  induction m with
  | nil => simp [insert, get]
  | cons e m ih =>
    obtain ⟨j, a⟩ := e
    by_cases h : j = k
    · simp [insert, h, get]
    · by_cases h2 : k < j
      · simp [insert, h, h2, get]
      · simpa [insert, h, h2, get] using ih

theorem get_insert_of_ne (m : NMap α) {j k : Nat} (v : α) (h : k ≠ j) : (m.insert j v).get k = m.get k := by
  induction m with
  | nil => simp [insert, get, Ne.symm h]
  | cons e m ih =>
    obtain ⟨i, a⟩ := e
    by_cases hj : i = j
    · subst hj; simp [insert, get, Ne.symm h]
    · by_cases h2 : j < i
      · simp [insert, hj, h2, get, Ne.symm h]
      · simp [insert, hj, h2, get, ih]

variable [DecidableEq α]

/-- A read after a write to the same place gives the value written. -/
@[simp] theorem get_set_self (m : NMap α) (k : Nat) (v : α) : (m.set k v).get k = v := by
  by_cases h : v = default <;> simp [set, h]

/-- A write leaves every other place alone. -/
theorem get_set_of_ne (m : NMap α) {j k : Nat} (v : α) (h : k ≠ j) : (m.set j v).get k = m.get k := by
  by_cases hv : v = default
  · simp [set, hv, get_erase_of_ne m h]
  · simp [set, hv, get_insert_of_ne m v h]

theorem get_set (m : NMap α) (j k : Nat) (v : α) : (m.set j v).get k = if k = j then v else m.get k := by
  by_cases h : k = j
  · simp [h]
  · simp [h, get_set_of_ne m v h]

@[simp] theorem get_modify_self (m : NMap α) (k : Nat) (f : α → α) : (m.modify k f).get k = f (m.get k) := by
  simp [modify]

theorem get_modify_of_ne (m : NMap α) {j k : Nat} (f : α → α) (h : k ≠ j) : (m.modify j f).get k = m.get k := by
  simp [modify, get_set_of_ne m _ h]

/-- Many writes: at each place the last one stands. -/
theorem get_foldl_set (cs : List (Nat × α)) (m : NMap α) (k : Nat) :
    (cs.foldl (fun m c => m.set c.1 c.2) m).get k = ((cs.reverse.find? fun c => c.1 == k).map (·.2)).getD (m.get k) := by
  induction cs generalizing m with
  | nil => rfl
  | cons c cs ih =>
    rw [List.foldl_cons, ih, List.reverse_cons, List.find?_append]
    cases h : cs.reverse.find? fun c => c.1 == k with
    | some d => simp
    | none =>
      by_cases hk : c.1 = k
      · subst hk; simp
      · simp [hk, get_set_of_ne m c.2 (Ne.symm hk)]

omit [DecidableEq α] in
/-- A map over values that keeps the default reads as the map of what it read. -/
theorem get_map_values (f : α → α) (h : f default = default) (m : NMap α) (k : Nat) :
    NMap.get (m.map fun q => (q.1, f q.2)) k = f (m.get k) := by
  induction m with
  | nil => exact h.symm
  | cons e m ih =>
    obtain ⟨j, a⟩ := e
    simp only [List.map_cons, get]
    split
    · rfl
    · exact ih

/-- Consecutive writes change the places they name and no other. -/
theorem get_setMany (vs : List α) (m : NMap α) (k j : Nat) :
    (m.setMany k vs).get j = if k ≤ j ∧ j < k + vs.length then vs.getD (j - k) default else m.get j := by
  induction vs generalizing m k with
  | nil => simp [setMany]
  | cons v vs ih =>
    rw [setMany, ih]
    by_cases h : j = k
    · subst h; simp
    · rw [get_set_of_ne m v h]
      by_cases h1 : k + 1 ≤ j ∧ j < k + 1 + vs.length
      · have h2 : k ≤ j ∧ j < k + (v :: vs).length := by simp; omega
        obtain ⟨n, hn⟩ : ∃ n, j = k + 1 + n := ⟨j - (k + 1), by omega⟩
        subst hn
        simp only [h1, h2, and_self, if_true]
        have : k + 1 + n - k = n + 1 := by omega
        simp [this]
      · have h2 : ¬(k ≤ j ∧ j < k + (v :: vs).length) := by simp; omega
        rw [if_neg h1, if_neg h2]

/-! ## The canonical form -/

/-- The canonical form: keys strictly rising, no default value listed. -/
theorem wf_iff (m : NMap α) : m.wf = true ↔ m.Pairwise (fun a b => a.1 < b.1) ∧ ∀ e ∈ m, e.2 ≠ default := by
  induction m with
  | nil => simp [wf]
  | cons e m ih =>
    obtain ⟨j, a⟩ := e
    cases m with
    | nil => simp [wf]
    | cons f m =>
      obtain ⟨k, b⟩ := f
      simp only [wf, Bool.and_eq_true, decide_eq_true_eq, ih]
      constructor
      · rintro ⟨⟨ha, hjk⟩, hp, hd⟩
        refine ⟨List.pairwise_cons.2 ⟨fun x hx => ?_, hp⟩, ?_⟩
        · rcases List.mem_cons.1 hx with rfl | hx
          · exact hjk
          · exact Nat.lt_trans hjk ((List.pairwise_cons.1 hp).1 x hx)
        · intro x hx
          rcases List.mem_cons.1 hx with rfl | hx
          · exact ha
          · exact hd x hx
      · rintro ⟨hp, hd⟩
        have hp' := List.pairwise_cons.1 hp
        exact ⟨⟨hd (j, a) (by simp), hp'.1 (k, b) (by simp)⟩, hp'.2, fun x hx => hd x (List.mem_cons_of_mem _ hx)⟩

theorem wf_erase {m : NMap α} (h : m.wf = true) (k : Nat) : (m.erase k).wf = true := by
  rw [wf_iff] at h ⊢
  exact ⟨h.1.filter _, fun e he => h.2 e (List.mem_filter.1 he).1⟩

omit [Inhabited α] [DecidableEq α] in
theorem mem_insert {m : NMap α} {k : Nat} {v : α} {e : Nat × α} (h : e ∈ m.insert k v) : e = (k, v) ∨ e ∈ m := by
  induction m with
  | nil => left; simpa [insert] using h
  | cons f m ih =>
    obtain ⟨j, a⟩ := f
    by_cases hj : j = k
    · simp only [insert, hj, if_true, List.mem_cons] at h
      rcases h with h | h
      · exact .inl h
      · exact .inr (List.mem_cons_of_mem _ h)
    · by_cases hk : k < j
      · simp only [insert, hj, hk, if_false, if_true, List.mem_cons] at h
        rcases h with h | h
        · exact .inl h
        · exact .inr (List.mem_cons.2 h)
      · simp only [insert, hj, hk, if_false, List.mem_cons] at h
        rcases h with h | h
        · exact .inr (List.mem_cons.2 (.inl h))
        · rcases ih h with h | h
          · exact .inl h
          · exact .inr (List.mem_cons_of_mem _ h)

theorem wf_insert {m : NMap α} (h : m.wf = true) (k : Nat) {v : α} (hv : v ≠ default) : (m.insert k v).wf = true := by
  rw [wf_iff] at h ⊢
  refine ⟨?_, fun e he => ?_⟩
  · obtain ⟨hp, -⟩ := h
    induction m with
    | nil => simp [insert]
    | cons f m ih =>
      obtain ⟨j, a⟩ := f
      have hp' := List.pairwise_cons.1 hp
      by_cases hj : j = k
      · simpa [insert, hj] using (by subst hj; exact ⟨hp'.1, hp'.2⟩ : (∀ x ∈ m, k < x.1) ∧ m.Pairwise _)
      · by_cases hk : k < j
        · simp only [insert, hj, hk, if_false, if_true]
          refine List.pairwise_cons.2 ⟨fun x hx => ?_, hp⟩
          rcases List.mem_cons.1 hx with rfl | hx
          · exact hk
          · exact Nat.lt_trans hk (hp'.1 x hx)
        · simp only [insert, hj, hk, if_false]
          refine List.pairwise_cons.2 ⟨fun x hx => ?_, ih hp'.2⟩
          rcases mem_insert hx with rfl | hx
          · simp only; omega
          · exact hp'.1 x hx
  · rcases mem_insert he with rfl | he
    · exact hv
    · exact h.2 e he

/-- A write keeps the canonical form. -/
theorem wf_set {m : NMap α} (h : m.wf = true) (k : Nat) (v : α) : (m.set k v).wf = true := by
  unfold set
  split
  · exact wf_erase h k
  · exact wf_insert h k ‹_›

theorem wf_modify {m : NMap α} (h : m.wf = true) (k : Nat) (f : α → α) : (m.modify k f).wf = true := wf_set h k _

theorem wf_setMany {m : NMap α} (h : m.wf = true) (k : Nat) (vs : List α) : (m.setMany k vs).wf = true := by
  induction vs generalizing m k with
  | nil => exact h
  | cons v vs ih => exact ih (wf_set h k v) (k + 1)

omit [DecidableEq α] in
theorem get_eq_default_of_lt {m : NMap α} {k : Nat} (h : ∀ e ∈ m, k < e.1) : m.get k = default := by
  induction m with
  | nil => rfl
  | cons e m ih =>
    have hk : ¬e.1 = k := by have := h e (by simp); omega
    simp only [get, hk, if_false]
    exact ih fun x hx => h x (List.mem_cons_of_mem _ hx)

/-- Two maps in canonical form that read the same everywhere are equal. -/
theorem eq_of_get {m n : NMap α} (hm : m.wf = true) (hn : n.wf = true) (h : ∀ k, m.get k = n.get k) : m = n := by
  rw [wf_iff] at hm hn
  induction m generalizing n with
  | nil =>
    cases n with
    | nil => rfl
    | cons e n => exact absurd (by simpa [get] using (h e.1).symm) (hn.2 e (by simp))
  | cons e m ih =>
    have hm1 := List.pairwise_cons.1 hm.1
    cases n with
    | nil => exact absurd (by simpa [get] using h e.1) (hm.2 e (by simp))
    | cons f n =>
      have hn1 := List.pairwise_cons.1 hn.1
      have below : ∀ {a b : Nat × α} {r : NMap α}, a.1 < b.1 → (∀ x ∈ r, b.1 < x.1) → get (b :: r) a.1 = default := by
        intro a b r hab hr
        refine get_eq_default_of_lt fun x hx => ?_
        rcases List.mem_cons.1 hx with rfl | hx
        · exact hab
        · exact Nat.lt_trans hab (hr x hx)
      rcases Nat.lt_trichotomy e.1 f.1 with hlt | heq | hgt
      · exact absurd (by have := h e.1; rw [below hlt hn1.1] at this; simpa [get] using this) (hm.2 e (by simp))
      · have hv : e.2 = f.2 := by have := h e.1; simpa [get, heq] using this
        have hef : e = f := Prod.ext heq hv
        subst hef
        congr 1
        refine ih ⟨hm1.2, fun x hx => hm.2 x (List.mem_cons_of_mem _ hx)⟩ ⟨hn1.2, fun x hx => hn.2 x (List.mem_cons_of_mem _ hx)⟩ fun k => ?_
        by_cases hk : e.1 = k
        · subst hk
          rw [get_eq_default_of_lt hm1.1, get_eq_default_of_lt hn1.1]
        · simpa [get, hk] using h k
      · exact absurd (by have := (h f.1).symm; rw [below hgt hm1.1] at this; simpa [get] using this) (hn.2 f (by simp))

end NMap

namespace Machine

/-! ## Memory -/

@[simp] theorem Memory.get_set_self (m : Memory) (a : Nat) (b : Byte) : (m.set a b).get a = b := NMap.get_set_self m a b
theorem Memory.get_set_of_ne (m : Memory) {a c : Nat} (b : Byte) (h : c ≠ a) : (m.set a b).get c = m.get c := NMap.get_set_of_ne m b h

/-- Bytes written at several places: each place holds the last byte written to it. -/
theorem Memory.get_setCells (m : Memory) (cs : List Host.Cell) (a : Nat) :
    (m.setCells cs).get a = ((cs.reverse.find? fun c => c.1 == a).map (·.2)).getD (m.get a) := NMap.get_foldl_set cs m a

/-- Bytes written at several places: no other place changes. -/
theorem Memory.get_setCells_of_not_mem (m : Memory) (cs : List Host.Cell) (a : Nat) (h : ∀ c ∈ cs, c.1 ≠ a) :
    (m.setCells cs).get a = m.get a := by
  rw [Memory.get_setCells, List.find?_eq_none.2]
  · rfl
  · intro c hc
    simpa using h c (by simpa using hc)

/-- Bytes written from an address on. -/
theorem Memory.get_setMany (m : Memory) (a : Nat) (bs : List Byte) (c : Nat) :
    (m.setMany a bs).get c = if a ≤ c ∧ c < a + bs.length then bs.getD (c - a) 0 else m.get c := NMap.get_setMany bs m a c

theorem Memory.wf_set {m : Memory} (h : m.wf = true) (a : Nat) (b : Byte) : (m.set a b).wf = true := NMap.wf_set h a b
theorem Memory.wf_setMany {m : Memory} (h : m.wf = true) (a : Nat) (bs : List Byte) : (m.setMany a bs).wf = true := NMap.wf_setMany h a bs

theorem Memory.wf_setCells {m : Memory} (h : m.wf = true) (cs : List Host.Cell) : (m.setCells cs).wf = true := by
  unfold Memory.setCells
  induction cs generalizing m with
  | nil => exact h
  | cons c cs ih => exact ih (Memory.wf_set h c.1 c.2)

/-- Equal reads are equal memories. -/
theorem Memory.eq_of_get {m n : Memory} (hm : m.wf = true) (hn : n.wf = true) (h : ∀ a, m.get a = n.get a) : m = n :=
  NMap.eq_of_get hm hn h

end Machine

end Sys2Proof
end

