-- ==== Sys2Proof/Laws/State.lean ====
section
/-! SUPPORT. Laws of the state: what each update of a package leaves as it was, field by field, and what it changes, as the
accessors read it. -/

namespace Sys2Proof.Machine

/-! ### Pkg.setC changes `ctx` alone -/

@[simp] theorem Pkg.setC_micro (p : Pkg) (x : Nat) (c : Ctx) : (p.setC x c).micro = p.micro := rfl
@[simp] theorem Pkg.setC_fire (p : Pkg) (x : Nat) (c : Ctx) : (p.setC x c).fire = p.fire := rfl
@[simp] theorem Pkg.setC_focus (p : Pkg) (x : Nat) (c : Ctx) : (p.setC x c).focus = p.focus := rfl
@[simp] theorem Pkg.setC_fresh (p : Pkg) (x : Nat) (c : Ctx) : (p.setC x c).fresh = p.fresh := rfl
@[simp] theorem Pkg.setC_core (p : Pkg) (x : Nat) (c : Ctx) : (p.setC x c).core = p.core := rfl
@[simp] theorem Pkg.setC_mem (p : Pkg) (x : Nat) (c : Ctx) : (p.setC x c).mem = p.mem := rfl
@[simp] theorem Pkg.setC_side (p : Pkg) (x : Nat) (c : Ctx) : (p.setC x c).side = p.side := rfl
@[simp] theorem Pkg.setC_badSector (p : Pkg) (x : Nat) (c : Ctx) : (p.setC x c).badSector = p.badSector := rfl
@[simp] theorem Pkg.setC_poisonTbl (p : Pkg) (x : Nat) (c : Ctx) : (p.setC x c).poisonTbl = p.poisonTbl := rfl
@[simp] theorem Pkg.setC_tlb (p : Pkg) (x : Nat) (c : Ctx) : (p.setC x c).tlb = p.tlb := rfl
@[simp] theorem Pkg.setC_binds (p : Pkg) (x : Nat) (c : Ctx) : (p.setC x c).binds = p.binds := rfl
@[simp] theorem Pkg.setC_replicas (p : Pkg) (x : Nat) (c : Ctx) : (p.setC x c).replicas = p.replicas := rfl
@[simp] theorem Pkg.setC_lines (p : Pkg) (x : Nat) (c : Ctx) : (p.setC x c).lines = p.lines := rfl
@[simp] theorem Pkg.setC_held (p : Pkg) (x : Nat) (c : Ctx) : (p.setC x c).held = p.held := rfl
@[simp] theorem Pkg.setC_nextGroup (p : Pkg) (x : Nat) (c : Ctx) : (p.setC x c).nextGroup = p.nextGroup := rfl
@[simp] theorem Pkg.setC_cmds (p : Pkg) (x : Nat) (c : Ctx) : (p.setC x c).cmds = p.cmds := rfl
@[simp] theorem Pkg.setC_nextCmd (p : Pkg) (x : Nat) (c : Ctx) : (p.setC x c).nextCmd = p.nextCmd := rfl
@[simp] theorem Pkg.setC_edges (p : Pkg) (x : Nat) (c : Ctx) : (p.setC x c).edges = p.edges := rfl
@[simp] theorem Pkg.setC_notices (p : Pkg) (x : Nat) (c : Ctx) : (p.setC x c).notices = p.notices := rfl
@[simp] theorem Pkg.setC_nextNotice (p : Pkg) (x : Nat) (c : Ctx) : (p.setC x c).nextNotice = p.nextNotice := rfl
@[simp] theorem Pkg.setC_arrivals (p : Pkg) (x : Nat) (c : Ctx) : (p.setC x c).arrivals = p.arrivals := rfl
@[simp] theorem Pkg.setC_shares (p : Pkg) (x : Nat) (c : Ctx) : (p.setC x c).shares = p.shares := rfl
@[simp] theorem Pkg.setC_nextWrite (p : Pkg) (x : Nat) (c : Ctx) : (p.setC x c).nextWrite = p.nextWrite := rfl
@[simp] theorem Pkg.setC_tiles (p : Pkg) (x : Nat) (c : Ctx) : (p.setC x c).tiles = p.tiles := rfl
@[simp] theorem Pkg.setC_stencil (p : Pkg) (x : Nat) (c : Ctx) : (p.setC x c).stencil = p.stencil := rfl
@[simp] theorem Pkg.setC_cbt (p : Pkg) (x : Nat) (c : Ctx) : (p.setC x c).cbt = p.cbt := rfl
@[simp] theorem Pkg.setC_chans (p : Pkg) (x : Nat) (c : Ctx) : (p.setC x c).chans = p.chans := rfl
@[simp] theorem Pkg.setC_nodes (p : Pkg) (x : Nat) (c : Ctx) : (p.setC x c).nodes = p.nodes := rfl
@[simp] theorem Pkg.setC_nextOrder (p : Pkg) (x : Nat) (c : Ctx) : (p.setC x c).nextOrder = p.nextOrder := rfl
@[simp] theorem Pkg.setC_taking (p : Pkg) (x : Nat) (c : Ctx) : (p.setC x c).taking = p.taking := rfl
@[simp] theorem Pkg.setC_lastQueue (p : Pkg) (x : Nat) (c : Ctx) : (p.setC x c).lastQueue = p.lastQueue := rfl
@[simp] theorem Pkg.setC_posted (p : Pkg) (x : Nat) (c : Ctx) : (p.setC x c).posted = p.posted := rfl
@[simp] theorem Pkg.setC_groups (p : Pkg) (x : Nat) (c : Ctx) : (p.setC x c).groups = p.groups := rfl
@[simp] theorem Pkg.setC_reg (p : Pkg) (x : Nat) (c : Ctx) : (p.setC x c).reg = p.reg := rfl
@[simp] theorem Pkg.setC_images (p : Pkg) (x : Nat) (c : Ctx) : (p.setC x c).images = p.images := rfl
@[simp] theorem Pkg.setC_early (p : Pkg) (x : Nat) (c : Ctx) : (p.setC x c).early = p.early := rfl
@[simp] theorem Pkg.setC_faultq (p : Pkg) (x : Nat) (c : Ctx) : (p.setC x c).faultq = p.faultq := rfl
@[simp] theorem Pkg.setC_logq (p : Pkg) (x : Nat) (c : Ctx) : (p.setC x c).logq = p.logq := rfl
@[simp] theorem Pkg.setC_repairs (p : Pkg) (x : Nat) (c : Ctx) : (p.setC x c).repairs = p.repairs := rfl
@[simp] theorem Pkg.setC_failed (p : Pkg) (x : Nat) (c : Ctx) : (p.setC x c).failed = p.failed := rfl
@[simp] theorem Pkg.setC_counts (p : Pkg) (x : Nat) (c : Ctx) : (p.setC x c).counts = p.counts := rfl
@[simp] theorem Pkg.setC_move (p : Pkg) (x : Nat) (c : Ctx) : (p.setC x c).move = p.move := rfl
@[simp] theorem Pkg.setC_skim (p : Pkg) (x : Nat) (c : Ctx) : (p.setC x c).skim = p.skim := rfl
@[simp] theorem Pkg.setC_deadPorts (p : Pkg) (x : Nat) (c : Ctx) : (p.setC x c).deadPorts = p.deadPorts := rfl
@[simp] theorem Pkg.setC_masters (p : Pkg) (x : Nat) (c : Ctx) : (p.setC x c).masters = p.masters := rfl
@[simp] theorem Pkg.setC_owed (p : Pkg) (x : Nat) (c : Ctx) : (p.setC x c).owed = p.owed := rfl
@[simp] theorem Pkg.setC_timed (p : Pkg) (x : Nat) (c : Ctx) : (p.setC x c).timed = p.timed := rfl
@[simp] theorem Pkg.setC_forwarded (p : Pkg) (x : Nat) (c : Ctx) : (p.setC x c).forwarded = p.forwarded := rfl
@[simp] theorem Pkg.setC_hostq (p : Pkg) (x : Nat) (c : Ctx) : (p.setC x c).hostq = p.hostq := rfl
@[simp] theorem Pkg.setC_atsWait (p : Pkg) (x : Nat) (c : Ctx) : (p.setC x c).atsWait = p.atsWait := rfl
@[simp] theorem Pkg.setC_pendingVec (p : Pkg) (x : Nat) (c : Ctx) : (p.setC x c).pendingVec = p.pendingVec := rfl
@[simp] theorem Pkg.setC_vectors (p : Pkg) (x : Nat) (c : Ctx) : (p.setC x c).vectors = p.vectors := rfl
@[simp] theorem Pkg.setC_inReset (p : Pkg) (x : Nat) (c : Ctx) : (p.setC x c).inReset = p.inReset := rfl
@[simp] theorem Pkg.setC_broken (p : Pkg) (x : Nat) (c : Ctx) : (p.setC x c).broken = p.broken := rfl
@[simp] theorem Pkg.setC_tripped (p : Pkg) (x : Nat) (c : Ctx) : (p.setC x c).tripped = p.tripped := rfl
@[simp] theorem Pkg.setC_slow (p : Pkg) (x : Nat) (c : Ctx) : (p.setC x c).slow = p.slow := rfl
@[simp] theorem Pkg.setC_masked (p : Pkg) (x : Nat) (c : Ctx) : (p.setC x c).masked = p.masked := rfl
@[simp] theorem Pkg.setC_flash (p : Pkg) (x : Nat) (c : Ctx) : (p.setC x c).flash = p.flash := rfl
@[simp] theorem Pkg.setC_out (p : Pkg) (x : Nat) (c : Ctx) : (p.setC x c).out = p.out := rfl

/-! ### Pkg.modC changes `ctx` alone -/

@[simp] theorem Pkg.modC_micro (p : Pkg) (x : Nat) (f : Ctx → Ctx) : (p.modC x f).micro = p.micro := rfl
@[simp] theorem Pkg.modC_fire (p : Pkg) (x : Nat) (f : Ctx → Ctx) : (p.modC x f).fire = p.fire := rfl
@[simp] theorem Pkg.modC_focus (p : Pkg) (x : Nat) (f : Ctx → Ctx) : (p.modC x f).focus = p.focus := rfl
@[simp] theorem Pkg.modC_fresh (p : Pkg) (x : Nat) (f : Ctx → Ctx) : (p.modC x f).fresh = p.fresh := rfl
@[simp] theorem Pkg.modC_core (p : Pkg) (x : Nat) (f : Ctx → Ctx) : (p.modC x f).core = p.core := rfl
@[simp] theorem Pkg.modC_mem (p : Pkg) (x : Nat) (f : Ctx → Ctx) : (p.modC x f).mem = p.mem := rfl
@[simp] theorem Pkg.modC_side (p : Pkg) (x : Nat) (f : Ctx → Ctx) : (p.modC x f).side = p.side := rfl
@[simp] theorem Pkg.modC_badSector (p : Pkg) (x : Nat) (f : Ctx → Ctx) : (p.modC x f).badSector = p.badSector := rfl
@[simp] theorem Pkg.modC_poisonTbl (p : Pkg) (x : Nat) (f : Ctx → Ctx) : (p.modC x f).poisonTbl = p.poisonTbl := rfl
@[simp] theorem Pkg.modC_tlb (p : Pkg) (x : Nat) (f : Ctx → Ctx) : (p.modC x f).tlb = p.tlb := rfl
@[simp] theorem Pkg.modC_binds (p : Pkg) (x : Nat) (f : Ctx → Ctx) : (p.modC x f).binds = p.binds := rfl
@[simp] theorem Pkg.modC_replicas (p : Pkg) (x : Nat) (f : Ctx → Ctx) : (p.modC x f).replicas = p.replicas := rfl
@[simp] theorem Pkg.modC_lines (p : Pkg) (x : Nat) (f : Ctx → Ctx) : (p.modC x f).lines = p.lines := rfl
@[simp] theorem Pkg.modC_held (p : Pkg) (x : Nat) (f : Ctx → Ctx) : (p.modC x f).held = p.held := rfl
@[simp] theorem Pkg.modC_nextGroup (p : Pkg) (x : Nat) (f : Ctx → Ctx) : (p.modC x f).nextGroup = p.nextGroup := rfl
@[simp] theorem Pkg.modC_cmds (p : Pkg) (x : Nat) (f : Ctx → Ctx) : (p.modC x f).cmds = p.cmds := rfl
@[simp] theorem Pkg.modC_nextCmd (p : Pkg) (x : Nat) (f : Ctx → Ctx) : (p.modC x f).nextCmd = p.nextCmd := rfl
@[simp] theorem Pkg.modC_edges (p : Pkg) (x : Nat) (f : Ctx → Ctx) : (p.modC x f).edges = p.edges := rfl
@[simp] theorem Pkg.modC_notices (p : Pkg) (x : Nat) (f : Ctx → Ctx) : (p.modC x f).notices = p.notices := rfl
@[simp] theorem Pkg.modC_nextNotice (p : Pkg) (x : Nat) (f : Ctx → Ctx) : (p.modC x f).nextNotice = p.nextNotice := rfl
@[simp] theorem Pkg.modC_arrivals (p : Pkg) (x : Nat) (f : Ctx → Ctx) : (p.modC x f).arrivals = p.arrivals := rfl
@[simp] theorem Pkg.modC_shares (p : Pkg) (x : Nat) (f : Ctx → Ctx) : (p.modC x f).shares = p.shares := rfl
@[simp] theorem Pkg.modC_nextWrite (p : Pkg) (x : Nat) (f : Ctx → Ctx) : (p.modC x f).nextWrite = p.nextWrite := rfl
@[simp] theorem Pkg.modC_tiles (p : Pkg) (x : Nat) (f : Ctx → Ctx) : (p.modC x f).tiles = p.tiles := rfl
@[simp] theorem Pkg.modC_stencil (p : Pkg) (x : Nat) (f : Ctx → Ctx) : (p.modC x f).stencil = p.stencil := rfl
@[simp] theorem Pkg.modC_cbt (p : Pkg) (x : Nat) (f : Ctx → Ctx) : (p.modC x f).cbt = p.cbt := rfl
@[simp] theorem Pkg.modC_chans (p : Pkg) (x : Nat) (f : Ctx → Ctx) : (p.modC x f).chans = p.chans := rfl
@[simp] theorem Pkg.modC_nodes (p : Pkg) (x : Nat) (f : Ctx → Ctx) : (p.modC x f).nodes = p.nodes := rfl
@[simp] theorem Pkg.modC_nextOrder (p : Pkg) (x : Nat) (f : Ctx → Ctx) : (p.modC x f).nextOrder = p.nextOrder := rfl
@[simp] theorem Pkg.modC_taking (p : Pkg) (x : Nat) (f : Ctx → Ctx) : (p.modC x f).taking = p.taking := rfl
@[simp] theorem Pkg.modC_lastQueue (p : Pkg) (x : Nat) (f : Ctx → Ctx) : (p.modC x f).lastQueue = p.lastQueue := rfl
@[simp] theorem Pkg.modC_posted (p : Pkg) (x : Nat) (f : Ctx → Ctx) : (p.modC x f).posted = p.posted := rfl
@[simp] theorem Pkg.modC_groups (p : Pkg) (x : Nat) (f : Ctx → Ctx) : (p.modC x f).groups = p.groups := rfl
@[simp] theorem Pkg.modC_reg (p : Pkg) (x : Nat) (f : Ctx → Ctx) : (p.modC x f).reg = p.reg := rfl
@[simp] theorem Pkg.modC_images (p : Pkg) (x : Nat) (f : Ctx → Ctx) : (p.modC x f).images = p.images := rfl
@[simp] theorem Pkg.modC_early (p : Pkg) (x : Nat) (f : Ctx → Ctx) : (p.modC x f).early = p.early := rfl
@[simp] theorem Pkg.modC_faultq (p : Pkg) (x : Nat) (f : Ctx → Ctx) : (p.modC x f).faultq = p.faultq := rfl
@[simp] theorem Pkg.modC_logq (p : Pkg) (x : Nat) (f : Ctx → Ctx) : (p.modC x f).logq = p.logq := rfl
@[simp] theorem Pkg.modC_repairs (p : Pkg) (x : Nat) (f : Ctx → Ctx) : (p.modC x f).repairs = p.repairs := rfl
@[simp] theorem Pkg.modC_failed (p : Pkg) (x : Nat) (f : Ctx → Ctx) : (p.modC x f).failed = p.failed := rfl
@[simp] theorem Pkg.modC_counts (p : Pkg) (x : Nat) (f : Ctx → Ctx) : (p.modC x f).counts = p.counts := rfl
@[simp] theorem Pkg.modC_move (p : Pkg) (x : Nat) (f : Ctx → Ctx) : (p.modC x f).move = p.move := rfl
@[simp] theorem Pkg.modC_skim (p : Pkg) (x : Nat) (f : Ctx → Ctx) : (p.modC x f).skim = p.skim := rfl
@[simp] theorem Pkg.modC_deadPorts (p : Pkg) (x : Nat) (f : Ctx → Ctx) : (p.modC x f).deadPorts = p.deadPorts := rfl
@[simp] theorem Pkg.modC_masters (p : Pkg) (x : Nat) (f : Ctx → Ctx) : (p.modC x f).masters = p.masters := rfl
@[simp] theorem Pkg.modC_owed (p : Pkg) (x : Nat) (f : Ctx → Ctx) : (p.modC x f).owed = p.owed := rfl
@[simp] theorem Pkg.modC_timed (p : Pkg) (x : Nat) (f : Ctx → Ctx) : (p.modC x f).timed = p.timed := rfl
@[simp] theorem Pkg.modC_forwarded (p : Pkg) (x : Nat) (f : Ctx → Ctx) : (p.modC x f).forwarded = p.forwarded := rfl
@[simp] theorem Pkg.modC_hostq (p : Pkg) (x : Nat) (f : Ctx → Ctx) : (p.modC x f).hostq = p.hostq := rfl
@[simp] theorem Pkg.modC_atsWait (p : Pkg) (x : Nat) (f : Ctx → Ctx) : (p.modC x f).atsWait = p.atsWait := rfl
@[simp] theorem Pkg.modC_pendingVec (p : Pkg) (x : Nat) (f : Ctx → Ctx) : (p.modC x f).pendingVec = p.pendingVec := rfl
@[simp] theorem Pkg.modC_vectors (p : Pkg) (x : Nat) (f : Ctx → Ctx) : (p.modC x f).vectors = p.vectors := rfl
@[simp] theorem Pkg.modC_inReset (p : Pkg) (x : Nat) (f : Ctx → Ctx) : (p.modC x f).inReset = p.inReset := rfl
@[simp] theorem Pkg.modC_broken (p : Pkg) (x : Nat) (f : Ctx → Ctx) : (p.modC x f).broken = p.broken := rfl
@[simp] theorem Pkg.modC_tripped (p : Pkg) (x : Nat) (f : Ctx → Ctx) : (p.modC x f).tripped = p.tripped := rfl
@[simp] theorem Pkg.modC_slow (p : Pkg) (x : Nat) (f : Ctx → Ctx) : (p.modC x f).slow = p.slow := rfl
@[simp] theorem Pkg.modC_masked (p : Pkg) (x : Nat) (f : Ctx → Ctx) : (p.modC x f).masked = p.masked := rfl
@[simp] theorem Pkg.modC_flash (p : Pkg) (x : Nat) (f : Ctx → Ctx) : (p.modC x f).flash = p.flash := rfl
@[simp] theorem Pkg.modC_out (p : Pkg) (x : Nat) (f : Ctx → Ctx) : (p.modC x f).out = p.out := rfl

/-! ### Pkg.setK changes `core` alone -/

@[simp] theorem Pkg.setK_micro (p : Pkg) (n : Nat) (k : Core) : (p.setK n k).micro = p.micro := rfl
@[simp] theorem Pkg.setK_fire (p : Pkg) (n : Nat) (k : Core) : (p.setK n k).fire = p.fire := rfl
@[simp] theorem Pkg.setK_focus (p : Pkg) (n : Nat) (k : Core) : (p.setK n k).focus = p.focus := rfl
@[simp] theorem Pkg.setK_fresh (p : Pkg) (n : Nat) (k : Core) : (p.setK n k).fresh = p.fresh := rfl
@[simp] theorem Pkg.setK_ctx (p : Pkg) (n : Nat) (k : Core) : (p.setK n k).ctx = p.ctx := rfl
@[simp] theorem Pkg.setK_mem (p : Pkg) (n : Nat) (k : Core) : (p.setK n k).mem = p.mem := rfl
@[simp] theorem Pkg.setK_side (p : Pkg) (n : Nat) (k : Core) : (p.setK n k).side = p.side := rfl
@[simp] theorem Pkg.setK_badSector (p : Pkg) (n : Nat) (k : Core) : (p.setK n k).badSector = p.badSector := rfl
@[simp] theorem Pkg.setK_poisonTbl (p : Pkg) (n : Nat) (k : Core) : (p.setK n k).poisonTbl = p.poisonTbl := rfl
@[simp] theorem Pkg.setK_tlb (p : Pkg) (n : Nat) (k : Core) : (p.setK n k).tlb = p.tlb := rfl
@[simp] theorem Pkg.setK_binds (p : Pkg) (n : Nat) (k : Core) : (p.setK n k).binds = p.binds := rfl
@[simp] theorem Pkg.setK_replicas (p : Pkg) (n : Nat) (k : Core) : (p.setK n k).replicas = p.replicas := rfl
@[simp] theorem Pkg.setK_lines (p : Pkg) (n : Nat) (k : Core) : (p.setK n k).lines = p.lines := rfl
@[simp] theorem Pkg.setK_held (p : Pkg) (n : Nat) (k : Core) : (p.setK n k).held = p.held := rfl
@[simp] theorem Pkg.setK_nextGroup (p : Pkg) (n : Nat) (k : Core) : (p.setK n k).nextGroup = p.nextGroup := rfl
@[simp] theorem Pkg.setK_cmds (p : Pkg) (n : Nat) (k : Core) : (p.setK n k).cmds = p.cmds := rfl
@[simp] theorem Pkg.setK_nextCmd (p : Pkg) (n : Nat) (k : Core) : (p.setK n k).nextCmd = p.nextCmd := rfl
@[simp] theorem Pkg.setK_edges (p : Pkg) (n : Nat) (k : Core) : (p.setK n k).edges = p.edges := rfl
@[simp] theorem Pkg.setK_notices (p : Pkg) (n : Nat) (k : Core) : (p.setK n k).notices = p.notices := rfl
@[simp] theorem Pkg.setK_nextNotice (p : Pkg) (n : Nat) (k : Core) : (p.setK n k).nextNotice = p.nextNotice := rfl
@[simp] theorem Pkg.setK_arrivals (p : Pkg) (n : Nat) (k : Core) : (p.setK n k).arrivals = p.arrivals := rfl
@[simp] theorem Pkg.setK_shares (p : Pkg) (n : Nat) (k : Core) : (p.setK n k).shares = p.shares := rfl
@[simp] theorem Pkg.setK_nextWrite (p : Pkg) (n : Nat) (k : Core) : (p.setK n k).nextWrite = p.nextWrite := rfl
@[simp] theorem Pkg.setK_tiles (p : Pkg) (n : Nat) (k : Core) : (p.setK n k).tiles = p.tiles := rfl
@[simp] theorem Pkg.setK_stencil (p : Pkg) (n : Nat) (k : Core) : (p.setK n k).stencil = p.stencil := rfl
@[simp] theorem Pkg.setK_cbt (p : Pkg) (n : Nat) (k : Core) : (p.setK n k).cbt = p.cbt := rfl
@[simp] theorem Pkg.setK_chans (p : Pkg) (n : Nat) (k : Core) : (p.setK n k).chans = p.chans := rfl
@[simp] theorem Pkg.setK_nodes (p : Pkg) (n : Nat) (k : Core) : (p.setK n k).nodes = p.nodes := rfl
@[simp] theorem Pkg.setK_nextOrder (p : Pkg) (n : Nat) (k : Core) : (p.setK n k).nextOrder = p.nextOrder := rfl
@[simp] theorem Pkg.setK_taking (p : Pkg) (n : Nat) (k : Core) : (p.setK n k).taking = p.taking := rfl
@[simp] theorem Pkg.setK_lastQueue (p : Pkg) (n : Nat) (k : Core) : (p.setK n k).lastQueue = p.lastQueue := rfl
@[simp] theorem Pkg.setK_posted (p : Pkg) (n : Nat) (k : Core) : (p.setK n k).posted = p.posted := rfl
@[simp] theorem Pkg.setK_groups (p : Pkg) (n : Nat) (k : Core) : (p.setK n k).groups = p.groups := rfl
@[simp] theorem Pkg.setK_reg (p : Pkg) (n : Nat) (k : Core) : (p.setK n k).reg = p.reg := rfl
@[simp] theorem Pkg.setK_images (p : Pkg) (n : Nat) (k : Core) : (p.setK n k).images = p.images := rfl
@[simp] theorem Pkg.setK_early (p : Pkg) (n : Nat) (k : Core) : (p.setK n k).early = p.early := rfl
@[simp] theorem Pkg.setK_faultq (p : Pkg) (n : Nat) (k : Core) : (p.setK n k).faultq = p.faultq := rfl
@[simp] theorem Pkg.setK_logq (p : Pkg) (n : Nat) (k : Core) : (p.setK n k).logq = p.logq := rfl
@[simp] theorem Pkg.setK_repairs (p : Pkg) (n : Nat) (k : Core) : (p.setK n k).repairs = p.repairs := rfl
@[simp] theorem Pkg.setK_failed (p : Pkg) (n : Nat) (k : Core) : (p.setK n k).failed = p.failed := rfl
@[simp] theorem Pkg.setK_counts (p : Pkg) (n : Nat) (k : Core) : (p.setK n k).counts = p.counts := rfl
@[simp] theorem Pkg.setK_move (p : Pkg) (n : Nat) (k : Core) : (p.setK n k).move = p.move := rfl
@[simp] theorem Pkg.setK_skim (p : Pkg) (n : Nat) (k : Core) : (p.setK n k).skim = p.skim := rfl
@[simp] theorem Pkg.setK_deadPorts (p : Pkg) (n : Nat) (k : Core) : (p.setK n k).deadPorts = p.deadPorts := rfl
@[simp] theorem Pkg.setK_masters (p : Pkg) (n : Nat) (k : Core) : (p.setK n k).masters = p.masters := rfl
@[simp] theorem Pkg.setK_owed (p : Pkg) (n : Nat) (k : Core) : (p.setK n k).owed = p.owed := rfl
@[simp] theorem Pkg.setK_timed (p : Pkg) (n : Nat) (k : Core) : (p.setK n k).timed = p.timed := rfl
@[simp] theorem Pkg.setK_forwarded (p : Pkg) (n : Nat) (k : Core) : (p.setK n k).forwarded = p.forwarded := rfl
@[simp] theorem Pkg.setK_hostq (p : Pkg) (n : Nat) (k : Core) : (p.setK n k).hostq = p.hostq := rfl
@[simp] theorem Pkg.setK_atsWait (p : Pkg) (n : Nat) (k : Core) : (p.setK n k).atsWait = p.atsWait := rfl
@[simp] theorem Pkg.setK_pendingVec (p : Pkg) (n : Nat) (k : Core) : (p.setK n k).pendingVec = p.pendingVec := rfl
@[simp] theorem Pkg.setK_vectors (p : Pkg) (n : Nat) (k : Core) : (p.setK n k).vectors = p.vectors := rfl
@[simp] theorem Pkg.setK_inReset (p : Pkg) (n : Nat) (k : Core) : (p.setK n k).inReset = p.inReset := rfl
@[simp] theorem Pkg.setK_broken (p : Pkg) (n : Nat) (k : Core) : (p.setK n k).broken = p.broken := rfl
@[simp] theorem Pkg.setK_tripped (p : Pkg) (n : Nat) (k : Core) : (p.setK n k).tripped = p.tripped := rfl
@[simp] theorem Pkg.setK_slow (p : Pkg) (n : Nat) (k : Core) : (p.setK n k).slow = p.slow := rfl
@[simp] theorem Pkg.setK_masked (p : Pkg) (n : Nat) (k : Core) : (p.setK n k).masked = p.masked := rfl
@[simp] theorem Pkg.setK_flash (p : Pkg) (n : Nat) (k : Core) : (p.setK n k).flash = p.flash := rfl
@[simp] theorem Pkg.setK_out (p : Pkg) (n : Nat) (k : Core) : (p.setK n k).out = p.out := rfl

/-! ### Pkg.modK changes `core` alone -/

@[simp] theorem Pkg.modK_micro (p : Pkg) (n : Nat) (f : Core → Core) : (p.modK n f).micro = p.micro := rfl
@[simp] theorem Pkg.modK_fire (p : Pkg) (n : Nat) (f : Core → Core) : (p.modK n f).fire = p.fire := rfl
@[simp] theorem Pkg.modK_focus (p : Pkg) (n : Nat) (f : Core → Core) : (p.modK n f).focus = p.focus := rfl
@[simp] theorem Pkg.modK_fresh (p : Pkg) (n : Nat) (f : Core → Core) : (p.modK n f).fresh = p.fresh := rfl
@[simp] theorem Pkg.modK_ctx (p : Pkg) (n : Nat) (f : Core → Core) : (p.modK n f).ctx = p.ctx := rfl
@[simp] theorem Pkg.modK_mem (p : Pkg) (n : Nat) (f : Core → Core) : (p.modK n f).mem = p.mem := rfl
@[simp] theorem Pkg.modK_side (p : Pkg) (n : Nat) (f : Core → Core) : (p.modK n f).side = p.side := rfl
@[simp] theorem Pkg.modK_badSector (p : Pkg) (n : Nat) (f : Core → Core) : (p.modK n f).badSector = p.badSector := rfl
@[simp] theorem Pkg.modK_poisonTbl (p : Pkg) (n : Nat) (f : Core → Core) : (p.modK n f).poisonTbl = p.poisonTbl := rfl
@[simp] theorem Pkg.modK_tlb (p : Pkg) (n : Nat) (f : Core → Core) : (p.modK n f).tlb = p.tlb := rfl
@[simp] theorem Pkg.modK_binds (p : Pkg) (n : Nat) (f : Core → Core) : (p.modK n f).binds = p.binds := rfl
@[simp] theorem Pkg.modK_replicas (p : Pkg) (n : Nat) (f : Core → Core) : (p.modK n f).replicas = p.replicas := rfl
@[simp] theorem Pkg.modK_lines (p : Pkg) (n : Nat) (f : Core → Core) : (p.modK n f).lines = p.lines := rfl
@[simp] theorem Pkg.modK_held (p : Pkg) (n : Nat) (f : Core → Core) : (p.modK n f).held = p.held := rfl
@[simp] theorem Pkg.modK_nextGroup (p : Pkg) (n : Nat) (f : Core → Core) : (p.modK n f).nextGroup = p.nextGroup := rfl
@[simp] theorem Pkg.modK_cmds (p : Pkg) (n : Nat) (f : Core → Core) : (p.modK n f).cmds = p.cmds := rfl
@[simp] theorem Pkg.modK_nextCmd (p : Pkg) (n : Nat) (f : Core → Core) : (p.modK n f).nextCmd = p.nextCmd := rfl
@[simp] theorem Pkg.modK_edges (p : Pkg) (n : Nat) (f : Core → Core) : (p.modK n f).edges = p.edges := rfl
@[simp] theorem Pkg.modK_notices (p : Pkg) (n : Nat) (f : Core → Core) : (p.modK n f).notices = p.notices := rfl
@[simp] theorem Pkg.modK_nextNotice (p : Pkg) (n : Nat) (f : Core → Core) : (p.modK n f).nextNotice = p.nextNotice := rfl
@[simp] theorem Pkg.modK_arrivals (p : Pkg) (n : Nat) (f : Core → Core) : (p.modK n f).arrivals = p.arrivals := rfl
@[simp] theorem Pkg.modK_shares (p : Pkg) (n : Nat) (f : Core → Core) : (p.modK n f).shares = p.shares := rfl
@[simp] theorem Pkg.modK_nextWrite (p : Pkg) (n : Nat) (f : Core → Core) : (p.modK n f).nextWrite = p.nextWrite := rfl
@[simp] theorem Pkg.modK_tiles (p : Pkg) (n : Nat) (f : Core → Core) : (p.modK n f).tiles = p.tiles := rfl
@[simp] theorem Pkg.modK_stencil (p : Pkg) (n : Nat) (f : Core → Core) : (p.modK n f).stencil = p.stencil := rfl
@[simp] theorem Pkg.modK_cbt (p : Pkg) (n : Nat) (f : Core → Core) : (p.modK n f).cbt = p.cbt := rfl
@[simp] theorem Pkg.modK_chans (p : Pkg) (n : Nat) (f : Core → Core) : (p.modK n f).chans = p.chans := rfl
@[simp] theorem Pkg.modK_nodes (p : Pkg) (n : Nat) (f : Core → Core) : (p.modK n f).nodes = p.nodes := rfl
@[simp] theorem Pkg.modK_nextOrder (p : Pkg) (n : Nat) (f : Core → Core) : (p.modK n f).nextOrder = p.nextOrder := rfl
@[simp] theorem Pkg.modK_taking (p : Pkg) (n : Nat) (f : Core → Core) : (p.modK n f).taking = p.taking := rfl
@[simp] theorem Pkg.modK_lastQueue (p : Pkg) (n : Nat) (f : Core → Core) : (p.modK n f).lastQueue = p.lastQueue := rfl
@[simp] theorem Pkg.modK_posted (p : Pkg) (n : Nat) (f : Core → Core) : (p.modK n f).posted = p.posted := rfl
@[simp] theorem Pkg.modK_groups (p : Pkg) (n : Nat) (f : Core → Core) : (p.modK n f).groups = p.groups := rfl
@[simp] theorem Pkg.modK_reg (p : Pkg) (n : Nat) (f : Core → Core) : (p.modK n f).reg = p.reg := rfl
@[simp] theorem Pkg.modK_images (p : Pkg) (n : Nat) (f : Core → Core) : (p.modK n f).images = p.images := rfl
@[simp] theorem Pkg.modK_early (p : Pkg) (n : Nat) (f : Core → Core) : (p.modK n f).early = p.early := rfl
@[simp] theorem Pkg.modK_faultq (p : Pkg) (n : Nat) (f : Core → Core) : (p.modK n f).faultq = p.faultq := rfl
@[simp] theorem Pkg.modK_logq (p : Pkg) (n : Nat) (f : Core → Core) : (p.modK n f).logq = p.logq := rfl
@[simp] theorem Pkg.modK_repairs (p : Pkg) (n : Nat) (f : Core → Core) : (p.modK n f).repairs = p.repairs := rfl
@[simp] theorem Pkg.modK_failed (p : Pkg) (n : Nat) (f : Core → Core) : (p.modK n f).failed = p.failed := rfl
@[simp] theorem Pkg.modK_counts (p : Pkg) (n : Nat) (f : Core → Core) : (p.modK n f).counts = p.counts := rfl
@[simp] theorem Pkg.modK_move (p : Pkg) (n : Nat) (f : Core → Core) : (p.modK n f).move = p.move := rfl
@[simp] theorem Pkg.modK_skim (p : Pkg) (n : Nat) (f : Core → Core) : (p.modK n f).skim = p.skim := rfl
@[simp] theorem Pkg.modK_deadPorts (p : Pkg) (n : Nat) (f : Core → Core) : (p.modK n f).deadPorts = p.deadPorts := rfl
@[simp] theorem Pkg.modK_masters (p : Pkg) (n : Nat) (f : Core → Core) : (p.modK n f).masters = p.masters := rfl
@[simp] theorem Pkg.modK_owed (p : Pkg) (n : Nat) (f : Core → Core) : (p.modK n f).owed = p.owed := rfl
@[simp] theorem Pkg.modK_timed (p : Pkg) (n : Nat) (f : Core → Core) : (p.modK n f).timed = p.timed := rfl
@[simp] theorem Pkg.modK_forwarded (p : Pkg) (n : Nat) (f : Core → Core) : (p.modK n f).forwarded = p.forwarded := rfl
@[simp] theorem Pkg.modK_hostq (p : Pkg) (n : Nat) (f : Core → Core) : (p.modK n f).hostq = p.hostq := rfl
@[simp] theorem Pkg.modK_atsWait (p : Pkg) (n : Nat) (f : Core → Core) : (p.modK n f).atsWait = p.atsWait := rfl
@[simp] theorem Pkg.modK_pendingVec (p : Pkg) (n : Nat) (f : Core → Core) : (p.modK n f).pendingVec = p.pendingVec := rfl
@[simp] theorem Pkg.modK_vectors (p : Pkg) (n : Nat) (f : Core → Core) : (p.modK n f).vectors = p.vectors := rfl
@[simp] theorem Pkg.modK_inReset (p : Pkg) (n : Nat) (f : Core → Core) : (p.modK n f).inReset = p.inReset := rfl
@[simp] theorem Pkg.modK_broken (p : Pkg) (n : Nat) (f : Core → Core) : (p.modK n f).broken = p.broken := rfl
@[simp] theorem Pkg.modK_tripped (p : Pkg) (n : Nat) (f : Core → Core) : (p.modK n f).tripped = p.tripped := rfl
@[simp] theorem Pkg.modK_slow (p : Pkg) (n : Nat) (f : Core → Core) : (p.modK n f).slow = p.slow := rfl
@[simp] theorem Pkg.modK_masked (p : Pkg) (n : Nat) (f : Core → Core) : (p.modK n f).masked = p.masked := rfl
@[simp] theorem Pkg.modK_flash (p : Pkg) (n : Nat) (f : Core → Core) : (p.modK n f).flash = p.flash := rfl
@[simp] theorem Pkg.modK_out (p : Pkg) (n : Nat) (f : Core → Core) : (p.modK n f).out = p.out := rfl

/-! ### Pkg.drawn changes `fresh` alone -/

@[simp] theorem Pkg.drawn_micro (p : Pkg) (n : Nat) : (p.drawn n).micro = p.micro := rfl
@[simp] theorem Pkg.drawn_fire (p : Pkg) (n : Nat) : (p.drawn n).fire = p.fire := rfl
@[simp] theorem Pkg.drawn_focus (p : Pkg) (n : Nat) : (p.drawn n).focus = p.focus := rfl
@[simp] theorem Pkg.drawn_ctx (p : Pkg) (n : Nat) : (p.drawn n).ctx = p.ctx := rfl
@[simp] theorem Pkg.drawn_core (p : Pkg) (n : Nat) : (p.drawn n).core = p.core := rfl
@[simp] theorem Pkg.drawn_mem (p : Pkg) (n : Nat) : (p.drawn n).mem = p.mem := rfl
@[simp] theorem Pkg.drawn_side (p : Pkg) (n : Nat) : (p.drawn n).side = p.side := rfl
@[simp] theorem Pkg.drawn_badSector (p : Pkg) (n : Nat) : (p.drawn n).badSector = p.badSector := rfl
@[simp] theorem Pkg.drawn_poisonTbl (p : Pkg) (n : Nat) : (p.drawn n).poisonTbl = p.poisonTbl := rfl
@[simp] theorem Pkg.drawn_tlb (p : Pkg) (n : Nat) : (p.drawn n).tlb = p.tlb := rfl
@[simp] theorem Pkg.drawn_binds (p : Pkg) (n : Nat) : (p.drawn n).binds = p.binds := rfl
@[simp] theorem Pkg.drawn_replicas (p : Pkg) (n : Nat) : (p.drawn n).replicas = p.replicas := rfl
@[simp] theorem Pkg.drawn_lines (p : Pkg) (n : Nat) : (p.drawn n).lines = p.lines := rfl
@[simp] theorem Pkg.drawn_held (p : Pkg) (n : Nat) : (p.drawn n).held = p.held := rfl
@[simp] theorem Pkg.drawn_nextGroup (p : Pkg) (n : Nat) : (p.drawn n).nextGroup = p.nextGroup := rfl
@[simp] theorem Pkg.drawn_cmds (p : Pkg) (n : Nat) : (p.drawn n).cmds = p.cmds := rfl
@[simp] theorem Pkg.drawn_nextCmd (p : Pkg) (n : Nat) : (p.drawn n).nextCmd = p.nextCmd := rfl
@[simp] theorem Pkg.drawn_edges (p : Pkg) (n : Nat) : (p.drawn n).edges = p.edges := rfl
@[simp] theorem Pkg.drawn_notices (p : Pkg) (n : Nat) : (p.drawn n).notices = p.notices := rfl
@[simp] theorem Pkg.drawn_nextNotice (p : Pkg) (n : Nat) : (p.drawn n).nextNotice = p.nextNotice := rfl
@[simp] theorem Pkg.drawn_arrivals (p : Pkg) (n : Nat) : (p.drawn n).arrivals = p.arrivals := rfl
@[simp] theorem Pkg.drawn_shares (p : Pkg) (n : Nat) : (p.drawn n).shares = p.shares := rfl
@[simp] theorem Pkg.drawn_nextWrite (p : Pkg) (n : Nat) : (p.drawn n).nextWrite = p.nextWrite := rfl
@[simp] theorem Pkg.drawn_tiles (p : Pkg) (n : Nat) : (p.drawn n).tiles = p.tiles := rfl
@[simp] theorem Pkg.drawn_stencil (p : Pkg) (n : Nat) : (p.drawn n).stencil = p.stencil := rfl
@[simp] theorem Pkg.drawn_cbt (p : Pkg) (n : Nat) : (p.drawn n).cbt = p.cbt := rfl
@[simp] theorem Pkg.drawn_chans (p : Pkg) (n : Nat) : (p.drawn n).chans = p.chans := rfl
@[simp] theorem Pkg.drawn_nodes (p : Pkg) (n : Nat) : (p.drawn n).nodes = p.nodes := rfl
@[simp] theorem Pkg.drawn_nextOrder (p : Pkg) (n : Nat) : (p.drawn n).nextOrder = p.nextOrder := rfl
@[simp] theorem Pkg.drawn_taking (p : Pkg) (n : Nat) : (p.drawn n).taking = p.taking := rfl
@[simp] theorem Pkg.drawn_lastQueue (p : Pkg) (n : Nat) : (p.drawn n).lastQueue = p.lastQueue := rfl
@[simp] theorem Pkg.drawn_posted (p : Pkg) (n : Nat) : (p.drawn n).posted = p.posted := rfl
@[simp] theorem Pkg.drawn_groups (p : Pkg) (n : Nat) : (p.drawn n).groups = p.groups := rfl
@[simp] theorem Pkg.drawn_reg (p : Pkg) (n : Nat) : (p.drawn n).reg = p.reg := rfl
@[simp] theorem Pkg.drawn_images (p : Pkg) (n : Nat) : (p.drawn n).images = p.images := rfl
@[simp] theorem Pkg.drawn_early (p : Pkg) (n : Nat) : (p.drawn n).early = p.early := rfl
@[simp] theorem Pkg.drawn_faultq (p : Pkg) (n : Nat) : (p.drawn n).faultq = p.faultq := rfl
@[simp] theorem Pkg.drawn_logq (p : Pkg) (n : Nat) : (p.drawn n).logq = p.logq := rfl
@[simp] theorem Pkg.drawn_repairs (p : Pkg) (n : Nat) : (p.drawn n).repairs = p.repairs := rfl
@[simp] theorem Pkg.drawn_failed (p : Pkg) (n : Nat) : (p.drawn n).failed = p.failed := rfl
@[simp] theorem Pkg.drawn_counts (p : Pkg) (n : Nat) : (p.drawn n).counts = p.counts := rfl
@[simp] theorem Pkg.drawn_move (p : Pkg) (n : Nat) : (p.drawn n).move = p.move := rfl
@[simp] theorem Pkg.drawn_skim (p : Pkg) (n : Nat) : (p.drawn n).skim = p.skim := rfl
@[simp] theorem Pkg.drawn_deadPorts (p : Pkg) (n : Nat) : (p.drawn n).deadPorts = p.deadPorts := rfl
@[simp] theorem Pkg.drawn_masters (p : Pkg) (n : Nat) : (p.drawn n).masters = p.masters := rfl
@[simp] theorem Pkg.drawn_owed (p : Pkg) (n : Nat) : (p.drawn n).owed = p.owed := rfl
@[simp] theorem Pkg.drawn_timed (p : Pkg) (n : Nat) : (p.drawn n).timed = p.timed := rfl
@[simp] theorem Pkg.drawn_forwarded (p : Pkg) (n : Nat) : (p.drawn n).forwarded = p.forwarded := rfl
@[simp] theorem Pkg.drawn_hostq (p : Pkg) (n : Nat) : (p.drawn n).hostq = p.hostq := rfl
@[simp] theorem Pkg.drawn_atsWait (p : Pkg) (n : Nat) : (p.drawn n).atsWait = p.atsWait := rfl
@[simp] theorem Pkg.drawn_pendingVec (p : Pkg) (n : Nat) : (p.drawn n).pendingVec = p.pendingVec := rfl
@[simp] theorem Pkg.drawn_vectors (p : Pkg) (n : Nat) : (p.drawn n).vectors = p.vectors := rfl
@[simp] theorem Pkg.drawn_inReset (p : Pkg) (n : Nat) : (p.drawn n).inReset = p.inReset := rfl
@[simp] theorem Pkg.drawn_broken (p : Pkg) (n : Nat) : (p.drawn n).broken = p.broken := rfl
@[simp] theorem Pkg.drawn_tripped (p : Pkg) (n : Nat) : (p.drawn n).tripped = p.tripped := rfl
@[simp] theorem Pkg.drawn_slow (p : Pkg) (n : Nat) : (p.drawn n).slow = p.slow := rfl
@[simp] theorem Pkg.drawn_masked (p : Pkg) (n : Nat) : (p.drawn n).masked = p.masked := rfl
@[simp] theorem Pkg.drawn_flash (p : Pkg) (n : Nat) : (p.drawn n).flash = p.flash := rfl
@[simp] theorem Pkg.drawn_out (p : Pkg) (n : Nat) : (p.drawn n).out = p.out := rfl

/-! ### Pkg.push changes `micro` alone -/

@[simp] theorem Pkg.push_fire (p : Pkg) (ms : List Micro) : (p.push ms).fire = p.fire := rfl
@[simp] theorem Pkg.push_focus (p : Pkg) (ms : List Micro) : (p.push ms).focus = p.focus := rfl
@[simp] theorem Pkg.push_fresh (p : Pkg) (ms : List Micro) : (p.push ms).fresh = p.fresh := rfl
@[simp] theorem Pkg.push_ctx (p : Pkg) (ms : List Micro) : (p.push ms).ctx = p.ctx := rfl
@[simp] theorem Pkg.push_core (p : Pkg) (ms : List Micro) : (p.push ms).core = p.core := rfl
@[simp] theorem Pkg.push_mem (p : Pkg) (ms : List Micro) : (p.push ms).mem = p.mem := rfl
@[simp] theorem Pkg.push_side (p : Pkg) (ms : List Micro) : (p.push ms).side = p.side := rfl
@[simp] theorem Pkg.push_badSector (p : Pkg) (ms : List Micro) : (p.push ms).badSector = p.badSector := rfl
@[simp] theorem Pkg.push_poisonTbl (p : Pkg) (ms : List Micro) : (p.push ms).poisonTbl = p.poisonTbl := rfl
@[simp] theorem Pkg.push_tlb (p : Pkg) (ms : List Micro) : (p.push ms).tlb = p.tlb := rfl
@[simp] theorem Pkg.push_binds (p : Pkg) (ms : List Micro) : (p.push ms).binds = p.binds := rfl
@[simp] theorem Pkg.push_replicas (p : Pkg) (ms : List Micro) : (p.push ms).replicas = p.replicas := rfl
@[simp] theorem Pkg.push_lines (p : Pkg) (ms : List Micro) : (p.push ms).lines = p.lines := rfl
@[simp] theorem Pkg.push_held (p : Pkg) (ms : List Micro) : (p.push ms).held = p.held := rfl
@[simp] theorem Pkg.push_nextGroup (p : Pkg) (ms : List Micro) : (p.push ms).nextGroup = p.nextGroup := rfl
@[simp] theorem Pkg.push_cmds (p : Pkg) (ms : List Micro) : (p.push ms).cmds = p.cmds := rfl
@[simp] theorem Pkg.push_nextCmd (p : Pkg) (ms : List Micro) : (p.push ms).nextCmd = p.nextCmd := rfl
@[simp] theorem Pkg.push_edges (p : Pkg) (ms : List Micro) : (p.push ms).edges = p.edges := rfl
@[simp] theorem Pkg.push_notices (p : Pkg) (ms : List Micro) : (p.push ms).notices = p.notices := rfl
@[simp] theorem Pkg.push_nextNotice (p : Pkg) (ms : List Micro) : (p.push ms).nextNotice = p.nextNotice := rfl
@[simp] theorem Pkg.push_arrivals (p : Pkg) (ms : List Micro) : (p.push ms).arrivals = p.arrivals := rfl
@[simp] theorem Pkg.push_shares (p : Pkg) (ms : List Micro) : (p.push ms).shares = p.shares := rfl
@[simp] theorem Pkg.push_nextWrite (p : Pkg) (ms : List Micro) : (p.push ms).nextWrite = p.nextWrite := rfl
@[simp] theorem Pkg.push_tiles (p : Pkg) (ms : List Micro) : (p.push ms).tiles = p.tiles := rfl
@[simp] theorem Pkg.push_stencil (p : Pkg) (ms : List Micro) : (p.push ms).stencil = p.stencil := rfl
@[simp] theorem Pkg.push_cbt (p : Pkg) (ms : List Micro) : (p.push ms).cbt = p.cbt := rfl
@[simp] theorem Pkg.push_chans (p : Pkg) (ms : List Micro) : (p.push ms).chans = p.chans := rfl
@[simp] theorem Pkg.push_nodes (p : Pkg) (ms : List Micro) : (p.push ms).nodes = p.nodes := rfl
@[simp] theorem Pkg.push_nextOrder (p : Pkg) (ms : List Micro) : (p.push ms).nextOrder = p.nextOrder := rfl
@[simp] theorem Pkg.push_taking (p : Pkg) (ms : List Micro) : (p.push ms).taking = p.taking := rfl
@[simp] theorem Pkg.push_lastQueue (p : Pkg) (ms : List Micro) : (p.push ms).lastQueue = p.lastQueue := rfl
@[simp] theorem Pkg.push_posted (p : Pkg) (ms : List Micro) : (p.push ms).posted = p.posted := rfl
@[simp] theorem Pkg.push_groups (p : Pkg) (ms : List Micro) : (p.push ms).groups = p.groups := rfl
@[simp] theorem Pkg.push_reg (p : Pkg) (ms : List Micro) : (p.push ms).reg = p.reg := rfl
@[simp] theorem Pkg.push_images (p : Pkg) (ms : List Micro) : (p.push ms).images = p.images := rfl
@[simp] theorem Pkg.push_early (p : Pkg) (ms : List Micro) : (p.push ms).early = p.early := rfl
@[simp] theorem Pkg.push_faultq (p : Pkg) (ms : List Micro) : (p.push ms).faultq = p.faultq := rfl
@[simp] theorem Pkg.push_logq (p : Pkg) (ms : List Micro) : (p.push ms).logq = p.logq := rfl
@[simp] theorem Pkg.push_repairs (p : Pkg) (ms : List Micro) : (p.push ms).repairs = p.repairs := rfl
@[simp] theorem Pkg.push_failed (p : Pkg) (ms : List Micro) : (p.push ms).failed = p.failed := rfl
@[simp] theorem Pkg.push_counts (p : Pkg) (ms : List Micro) : (p.push ms).counts = p.counts := rfl
@[simp] theorem Pkg.push_move (p : Pkg) (ms : List Micro) : (p.push ms).move = p.move := rfl
@[simp] theorem Pkg.push_skim (p : Pkg) (ms : List Micro) : (p.push ms).skim = p.skim := rfl
@[simp] theorem Pkg.push_deadPorts (p : Pkg) (ms : List Micro) : (p.push ms).deadPorts = p.deadPorts := rfl
@[simp] theorem Pkg.push_masters (p : Pkg) (ms : List Micro) : (p.push ms).masters = p.masters := rfl
@[simp] theorem Pkg.push_owed (p : Pkg) (ms : List Micro) : (p.push ms).owed = p.owed := rfl
@[simp] theorem Pkg.push_timed (p : Pkg) (ms : List Micro) : (p.push ms).timed = p.timed := rfl
@[simp] theorem Pkg.push_forwarded (p : Pkg) (ms : List Micro) : (p.push ms).forwarded = p.forwarded := rfl
@[simp] theorem Pkg.push_hostq (p : Pkg) (ms : List Micro) : (p.push ms).hostq = p.hostq := rfl
@[simp] theorem Pkg.push_atsWait (p : Pkg) (ms : List Micro) : (p.push ms).atsWait = p.atsWait := rfl
@[simp] theorem Pkg.push_pendingVec (p : Pkg) (ms : List Micro) : (p.push ms).pendingVec = p.pendingVec := rfl
@[simp] theorem Pkg.push_vectors (p : Pkg) (ms : List Micro) : (p.push ms).vectors = p.vectors := rfl
@[simp] theorem Pkg.push_inReset (p : Pkg) (ms : List Micro) : (p.push ms).inReset = p.inReset := rfl
@[simp] theorem Pkg.push_broken (p : Pkg) (ms : List Micro) : (p.push ms).broken = p.broken := rfl
@[simp] theorem Pkg.push_tripped (p : Pkg) (ms : List Micro) : (p.push ms).tripped = p.tripped := rfl
@[simp] theorem Pkg.push_slow (p : Pkg) (ms : List Micro) : (p.push ms).slow = p.slow := rfl
@[simp] theorem Pkg.push_masked (p : Pkg) (ms : List Micro) : (p.push ms).masked = p.masked := rfl
@[simp] theorem Pkg.push_flash (p : Pkg) (ms : List Micro) : (p.push ms).flash = p.flash := rfl
@[simp] theorem Pkg.push_out (p : Pkg) (ms : List Micro) : (p.push ms).out = p.out := rfl

/-! ### Pkg.setReg changes `reg` alone -/

@[simp] theorem Pkg.setReg_micro (p : Pkg) (a v : Nat) : (p.setReg a v).micro = p.micro := rfl
@[simp] theorem Pkg.setReg_fire (p : Pkg) (a v : Nat) : (p.setReg a v).fire = p.fire := rfl
@[simp] theorem Pkg.setReg_focus (p : Pkg) (a v : Nat) : (p.setReg a v).focus = p.focus := rfl
@[simp] theorem Pkg.setReg_fresh (p : Pkg) (a v : Nat) : (p.setReg a v).fresh = p.fresh := rfl
@[simp] theorem Pkg.setReg_ctx (p : Pkg) (a v : Nat) : (p.setReg a v).ctx = p.ctx := rfl
@[simp] theorem Pkg.setReg_core (p : Pkg) (a v : Nat) : (p.setReg a v).core = p.core := rfl
@[simp] theorem Pkg.setReg_mem (p : Pkg) (a v : Nat) : (p.setReg a v).mem = p.mem := rfl
@[simp] theorem Pkg.setReg_side (p : Pkg) (a v : Nat) : (p.setReg a v).side = p.side := rfl
@[simp] theorem Pkg.setReg_badSector (p : Pkg) (a v : Nat) : (p.setReg a v).badSector = p.badSector := rfl
@[simp] theorem Pkg.setReg_poisonTbl (p : Pkg) (a v : Nat) : (p.setReg a v).poisonTbl = p.poisonTbl := rfl
@[simp] theorem Pkg.setReg_tlb (p : Pkg) (a v : Nat) : (p.setReg a v).tlb = p.tlb := rfl
@[simp] theorem Pkg.setReg_binds (p : Pkg) (a v : Nat) : (p.setReg a v).binds = p.binds := rfl
@[simp] theorem Pkg.setReg_replicas (p : Pkg) (a v : Nat) : (p.setReg a v).replicas = p.replicas := rfl
@[simp] theorem Pkg.setReg_lines (p : Pkg) (a v : Nat) : (p.setReg a v).lines = p.lines := rfl
@[simp] theorem Pkg.setReg_held (p : Pkg) (a v : Nat) : (p.setReg a v).held = p.held := rfl
@[simp] theorem Pkg.setReg_nextGroup (p : Pkg) (a v : Nat) : (p.setReg a v).nextGroup = p.nextGroup := rfl
@[simp] theorem Pkg.setReg_cmds (p : Pkg) (a v : Nat) : (p.setReg a v).cmds = p.cmds := rfl
@[simp] theorem Pkg.setReg_nextCmd (p : Pkg) (a v : Nat) : (p.setReg a v).nextCmd = p.nextCmd := rfl
@[simp] theorem Pkg.setReg_edges (p : Pkg) (a v : Nat) : (p.setReg a v).edges = p.edges := rfl
@[simp] theorem Pkg.setReg_notices (p : Pkg) (a v : Nat) : (p.setReg a v).notices = p.notices := rfl
@[simp] theorem Pkg.setReg_nextNotice (p : Pkg) (a v : Nat) : (p.setReg a v).nextNotice = p.nextNotice := rfl
@[simp] theorem Pkg.setReg_arrivals (p : Pkg) (a v : Nat) : (p.setReg a v).arrivals = p.arrivals := rfl
@[simp] theorem Pkg.setReg_shares (p : Pkg) (a v : Nat) : (p.setReg a v).shares = p.shares := rfl
@[simp] theorem Pkg.setReg_nextWrite (p : Pkg) (a v : Nat) : (p.setReg a v).nextWrite = p.nextWrite := rfl
@[simp] theorem Pkg.setReg_tiles (p : Pkg) (a v : Nat) : (p.setReg a v).tiles = p.tiles := rfl
@[simp] theorem Pkg.setReg_stencil (p : Pkg) (a v : Nat) : (p.setReg a v).stencil = p.stencil := rfl
@[simp] theorem Pkg.setReg_cbt (p : Pkg) (a v : Nat) : (p.setReg a v).cbt = p.cbt := rfl
@[simp] theorem Pkg.setReg_chans (p : Pkg) (a v : Nat) : (p.setReg a v).chans = p.chans := rfl
@[simp] theorem Pkg.setReg_nodes (p : Pkg) (a v : Nat) : (p.setReg a v).nodes = p.nodes := rfl
@[simp] theorem Pkg.setReg_nextOrder (p : Pkg) (a v : Nat) : (p.setReg a v).nextOrder = p.nextOrder := rfl
@[simp] theorem Pkg.setReg_taking (p : Pkg) (a v : Nat) : (p.setReg a v).taking = p.taking := rfl
@[simp] theorem Pkg.setReg_lastQueue (p : Pkg) (a v : Nat) : (p.setReg a v).lastQueue = p.lastQueue := rfl
@[simp] theorem Pkg.setReg_posted (p : Pkg) (a v : Nat) : (p.setReg a v).posted = p.posted := rfl
@[simp] theorem Pkg.setReg_groups (p : Pkg) (a v : Nat) : (p.setReg a v).groups = p.groups := rfl
@[simp] theorem Pkg.setReg_images (p : Pkg) (a v : Nat) : (p.setReg a v).images = p.images := rfl
@[simp] theorem Pkg.setReg_early (p : Pkg) (a v : Nat) : (p.setReg a v).early = p.early := rfl
@[simp] theorem Pkg.setReg_faultq (p : Pkg) (a v : Nat) : (p.setReg a v).faultq = p.faultq := rfl
@[simp] theorem Pkg.setReg_logq (p : Pkg) (a v : Nat) : (p.setReg a v).logq = p.logq := rfl
@[simp] theorem Pkg.setReg_repairs (p : Pkg) (a v : Nat) : (p.setReg a v).repairs = p.repairs := rfl
@[simp] theorem Pkg.setReg_failed (p : Pkg) (a v : Nat) : (p.setReg a v).failed = p.failed := rfl
@[simp] theorem Pkg.setReg_counts (p : Pkg) (a v : Nat) : (p.setReg a v).counts = p.counts := rfl
@[simp] theorem Pkg.setReg_move (p : Pkg) (a v : Nat) : (p.setReg a v).move = p.move := rfl
@[simp] theorem Pkg.setReg_skim (p : Pkg) (a v : Nat) : (p.setReg a v).skim = p.skim := rfl
@[simp] theorem Pkg.setReg_deadPorts (p : Pkg) (a v : Nat) : (p.setReg a v).deadPorts = p.deadPorts := rfl
@[simp] theorem Pkg.setReg_masters (p : Pkg) (a v : Nat) : (p.setReg a v).masters = p.masters := rfl
@[simp] theorem Pkg.setReg_owed (p : Pkg) (a v : Nat) : (p.setReg a v).owed = p.owed := rfl
@[simp] theorem Pkg.setReg_timed (p : Pkg) (a v : Nat) : (p.setReg a v).timed = p.timed := rfl
@[simp] theorem Pkg.setReg_forwarded (p : Pkg) (a v : Nat) : (p.setReg a v).forwarded = p.forwarded := rfl
@[simp] theorem Pkg.setReg_hostq (p : Pkg) (a v : Nat) : (p.setReg a v).hostq = p.hostq := rfl
@[simp] theorem Pkg.setReg_atsWait (p : Pkg) (a v : Nat) : (p.setReg a v).atsWait = p.atsWait := rfl
@[simp] theorem Pkg.setReg_pendingVec (p : Pkg) (a v : Nat) : (p.setReg a v).pendingVec = p.pendingVec := rfl
@[simp] theorem Pkg.setReg_vectors (p : Pkg) (a v : Nat) : (p.setReg a v).vectors = p.vectors := rfl
@[simp] theorem Pkg.setReg_inReset (p : Pkg) (a v : Nat) : (p.setReg a v).inReset = p.inReset := rfl
@[simp] theorem Pkg.setReg_broken (p : Pkg) (a v : Nat) : (p.setReg a v).broken = p.broken := rfl
@[simp] theorem Pkg.setReg_tripped (p : Pkg) (a v : Nat) : (p.setReg a v).tripped = p.tripped := rfl
@[simp] theorem Pkg.setReg_slow (p : Pkg) (a v : Nat) : (p.setReg a v).slow = p.slow := rfl
@[simp] theorem Pkg.setReg_masked (p : Pkg) (a v : Nat) : (p.setReg a v).masked = p.masked := rfl
@[simp] theorem Pkg.setReg_flash (p : Pkg) (a v : Nat) : (p.setReg a v).flash = p.flash := rfl
@[simp] theorem Pkg.setReg_out (p : Pkg) (a v : Nat) : (p.setReg a v).out = p.out := rfl

/-! ### Pkg.setRegBits changes `reg` alone -/

@[simp] theorem Pkg.setRegBits_micro (p : Pkg) (a hi lo v : Nat) : (p.setRegBits a hi lo v).micro = p.micro := rfl
@[simp] theorem Pkg.setRegBits_fire (p : Pkg) (a hi lo v : Nat) : (p.setRegBits a hi lo v).fire = p.fire := rfl
@[simp] theorem Pkg.setRegBits_focus (p : Pkg) (a hi lo v : Nat) : (p.setRegBits a hi lo v).focus = p.focus := rfl
@[simp] theorem Pkg.setRegBits_fresh (p : Pkg) (a hi lo v : Nat) : (p.setRegBits a hi lo v).fresh = p.fresh := rfl
@[simp] theorem Pkg.setRegBits_ctx (p : Pkg) (a hi lo v : Nat) : (p.setRegBits a hi lo v).ctx = p.ctx := rfl
@[simp] theorem Pkg.setRegBits_core (p : Pkg) (a hi lo v : Nat) : (p.setRegBits a hi lo v).core = p.core := rfl
@[simp] theorem Pkg.setRegBits_mem (p : Pkg) (a hi lo v : Nat) : (p.setRegBits a hi lo v).mem = p.mem := rfl
@[simp] theorem Pkg.setRegBits_side (p : Pkg) (a hi lo v : Nat) : (p.setRegBits a hi lo v).side = p.side := rfl
@[simp] theorem Pkg.setRegBits_badSector (p : Pkg) (a hi lo v : Nat) : (p.setRegBits a hi lo v).badSector = p.badSector := rfl
@[simp] theorem Pkg.setRegBits_poisonTbl (p : Pkg) (a hi lo v : Nat) : (p.setRegBits a hi lo v).poisonTbl = p.poisonTbl := rfl
@[simp] theorem Pkg.setRegBits_tlb (p : Pkg) (a hi lo v : Nat) : (p.setRegBits a hi lo v).tlb = p.tlb := rfl
@[simp] theorem Pkg.setRegBits_binds (p : Pkg) (a hi lo v : Nat) : (p.setRegBits a hi lo v).binds = p.binds := rfl
@[simp] theorem Pkg.setRegBits_replicas (p : Pkg) (a hi lo v : Nat) : (p.setRegBits a hi lo v).replicas = p.replicas := rfl
@[simp] theorem Pkg.setRegBits_lines (p : Pkg) (a hi lo v : Nat) : (p.setRegBits a hi lo v).lines = p.lines := rfl
@[simp] theorem Pkg.setRegBits_held (p : Pkg) (a hi lo v : Nat) : (p.setRegBits a hi lo v).held = p.held := rfl
@[simp] theorem Pkg.setRegBits_nextGroup (p : Pkg) (a hi lo v : Nat) : (p.setRegBits a hi lo v).nextGroup = p.nextGroup := rfl
@[simp] theorem Pkg.setRegBits_cmds (p : Pkg) (a hi lo v : Nat) : (p.setRegBits a hi lo v).cmds = p.cmds := rfl
@[simp] theorem Pkg.setRegBits_nextCmd (p : Pkg) (a hi lo v : Nat) : (p.setRegBits a hi lo v).nextCmd = p.nextCmd := rfl
@[simp] theorem Pkg.setRegBits_edges (p : Pkg) (a hi lo v : Nat) : (p.setRegBits a hi lo v).edges = p.edges := rfl
@[simp] theorem Pkg.setRegBits_notices (p : Pkg) (a hi lo v : Nat) : (p.setRegBits a hi lo v).notices = p.notices := rfl
@[simp] theorem Pkg.setRegBits_nextNotice (p : Pkg) (a hi lo v : Nat) : (p.setRegBits a hi lo v).nextNotice = p.nextNotice := rfl
@[simp] theorem Pkg.setRegBits_arrivals (p : Pkg) (a hi lo v : Nat) : (p.setRegBits a hi lo v).arrivals = p.arrivals := rfl
@[simp] theorem Pkg.setRegBits_shares (p : Pkg) (a hi lo v : Nat) : (p.setRegBits a hi lo v).shares = p.shares := rfl
@[simp] theorem Pkg.setRegBits_nextWrite (p : Pkg) (a hi lo v : Nat) : (p.setRegBits a hi lo v).nextWrite = p.nextWrite := rfl
@[simp] theorem Pkg.setRegBits_tiles (p : Pkg) (a hi lo v : Nat) : (p.setRegBits a hi lo v).tiles = p.tiles := rfl
@[simp] theorem Pkg.setRegBits_stencil (p : Pkg) (a hi lo v : Nat) : (p.setRegBits a hi lo v).stencil = p.stencil := rfl
@[simp] theorem Pkg.setRegBits_cbt (p : Pkg) (a hi lo v : Nat) : (p.setRegBits a hi lo v).cbt = p.cbt := rfl
@[simp] theorem Pkg.setRegBits_chans (p : Pkg) (a hi lo v : Nat) : (p.setRegBits a hi lo v).chans = p.chans := rfl
@[simp] theorem Pkg.setRegBits_nodes (p : Pkg) (a hi lo v : Nat) : (p.setRegBits a hi lo v).nodes = p.nodes := rfl
@[simp] theorem Pkg.setRegBits_nextOrder (p : Pkg) (a hi lo v : Nat) : (p.setRegBits a hi lo v).nextOrder = p.nextOrder := rfl
@[simp] theorem Pkg.setRegBits_taking (p : Pkg) (a hi lo v : Nat) : (p.setRegBits a hi lo v).taking = p.taking := rfl
@[simp] theorem Pkg.setRegBits_lastQueue (p : Pkg) (a hi lo v : Nat) : (p.setRegBits a hi lo v).lastQueue = p.lastQueue := rfl
@[simp] theorem Pkg.setRegBits_posted (p : Pkg) (a hi lo v : Nat) : (p.setRegBits a hi lo v).posted = p.posted := rfl
@[simp] theorem Pkg.setRegBits_groups (p : Pkg) (a hi lo v : Nat) : (p.setRegBits a hi lo v).groups = p.groups := rfl
@[simp] theorem Pkg.setRegBits_images (p : Pkg) (a hi lo v : Nat) : (p.setRegBits a hi lo v).images = p.images := rfl
@[simp] theorem Pkg.setRegBits_early (p : Pkg) (a hi lo v : Nat) : (p.setRegBits a hi lo v).early = p.early := rfl
@[simp] theorem Pkg.setRegBits_faultq (p : Pkg) (a hi lo v : Nat) : (p.setRegBits a hi lo v).faultq = p.faultq := rfl
@[simp] theorem Pkg.setRegBits_logq (p : Pkg) (a hi lo v : Nat) : (p.setRegBits a hi lo v).logq = p.logq := rfl
@[simp] theorem Pkg.setRegBits_repairs (p : Pkg) (a hi lo v : Nat) : (p.setRegBits a hi lo v).repairs = p.repairs := rfl
@[simp] theorem Pkg.setRegBits_failed (p : Pkg) (a hi lo v : Nat) : (p.setRegBits a hi lo v).failed = p.failed := rfl
@[simp] theorem Pkg.setRegBits_counts (p : Pkg) (a hi lo v : Nat) : (p.setRegBits a hi lo v).counts = p.counts := rfl
@[simp] theorem Pkg.setRegBits_move (p : Pkg) (a hi lo v : Nat) : (p.setRegBits a hi lo v).move = p.move := rfl
@[simp] theorem Pkg.setRegBits_skim (p : Pkg) (a hi lo v : Nat) : (p.setRegBits a hi lo v).skim = p.skim := rfl
@[simp] theorem Pkg.setRegBits_deadPorts (p : Pkg) (a hi lo v : Nat) : (p.setRegBits a hi lo v).deadPorts = p.deadPorts := rfl
@[simp] theorem Pkg.setRegBits_masters (p : Pkg) (a hi lo v : Nat) : (p.setRegBits a hi lo v).masters = p.masters := rfl
@[simp] theorem Pkg.setRegBits_owed (p : Pkg) (a hi lo v : Nat) : (p.setRegBits a hi lo v).owed = p.owed := rfl
@[simp] theorem Pkg.setRegBits_timed (p : Pkg) (a hi lo v : Nat) : (p.setRegBits a hi lo v).timed = p.timed := rfl
@[simp] theorem Pkg.setRegBits_forwarded (p : Pkg) (a hi lo v : Nat) : (p.setRegBits a hi lo v).forwarded = p.forwarded := rfl
@[simp] theorem Pkg.setRegBits_hostq (p : Pkg) (a hi lo v : Nat) : (p.setRegBits a hi lo v).hostq = p.hostq := rfl
@[simp] theorem Pkg.setRegBits_atsWait (p : Pkg) (a hi lo v : Nat) : (p.setRegBits a hi lo v).atsWait = p.atsWait := rfl
@[simp] theorem Pkg.setRegBits_pendingVec (p : Pkg) (a hi lo v : Nat) : (p.setRegBits a hi lo v).pendingVec = p.pendingVec := rfl
@[simp] theorem Pkg.setRegBits_vectors (p : Pkg) (a hi lo v : Nat) : (p.setRegBits a hi lo v).vectors = p.vectors := rfl
@[simp] theorem Pkg.setRegBits_inReset (p : Pkg) (a hi lo v : Nat) : (p.setRegBits a hi lo v).inReset = p.inReset := rfl
@[simp] theorem Pkg.setRegBits_broken (p : Pkg) (a hi lo v : Nat) : (p.setRegBits a hi lo v).broken = p.broken := rfl
@[simp] theorem Pkg.setRegBits_tripped (p : Pkg) (a hi lo v : Nat) : (p.setRegBits a hi lo v).tripped = p.tripped := rfl
@[simp] theorem Pkg.setRegBits_slow (p : Pkg) (a hi lo v : Nat) : (p.setRegBits a hi lo v).slow = p.slow := rfl
@[simp] theorem Pkg.setRegBits_masked (p : Pkg) (a hi lo v : Nat) : (p.setRegBits a hi lo v).masked = p.masked := rfl
@[simp] theorem Pkg.setRegBits_flash (p : Pkg) (a hi lo v : Nat) : (p.setRegBits a hi lo v).flash = p.flash := rfl
@[simp] theorem Pkg.setRegBits_out (p : Pkg) (a hi lo v : Nat) : (p.setRegBits a hi lo v).out = p.out := rfl

/-! ### Pkg.modNode changes `nodes` alone -/

@[simp] theorem Pkg.modNode_micro (p : Pkg) (id : Nat) (f : Node → Node) : (p.modNode id f).micro = p.micro := rfl
@[simp] theorem Pkg.modNode_fire (p : Pkg) (id : Nat) (f : Node → Node) : (p.modNode id f).fire = p.fire := rfl
@[simp] theorem Pkg.modNode_focus (p : Pkg) (id : Nat) (f : Node → Node) : (p.modNode id f).focus = p.focus := rfl
@[simp] theorem Pkg.modNode_fresh (p : Pkg) (id : Nat) (f : Node → Node) : (p.modNode id f).fresh = p.fresh := rfl
@[simp] theorem Pkg.modNode_ctx (p : Pkg) (id : Nat) (f : Node → Node) : (p.modNode id f).ctx = p.ctx := rfl
@[simp] theorem Pkg.modNode_core (p : Pkg) (id : Nat) (f : Node → Node) : (p.modNode id f).core = p.core := rfl
@[simp] theorem Pkg.modNode_mem (p : Pkg) (id : Nat) (f : Node → Node) : (p.modNode id f).mem = p.mem := rfl
@[simp] theorem Pkg.modNode_side (p : Pkg) (id : Nat) (f : Node → Node) : (p.modNode id f).side = p.side := rfl
@[simp] theorem Pkg.modNode_badSector (p : Pkg) (id : Nat) (f : Node → Node) : (p.modNode id f).badSector = p.badSector := rfl
@[simp] theorem Pkg.modNode_poisonTbl (p : Pkg) (id : Nat) (f : Node → Node) : (p.modNode id f).poisonTbl = p.poisonTbl := rfl
@[simp] theorem Pkg.modNode_tlb (p : Pkg) (id : Nat) (f : Node → Node) : (p.modNode id f).tlb = p.tlb := rfl
@[simp] theorem Pkg.modNode_binds (p : Pkg) (id : Nat) (f : Node → Node) : (p.modNode id f).binds = p.binds := rfl
@[simp] theorem Pkg.modNode_replicas (p : Pkg) (id : Nat) (f : Node → Node) : (p.modNode id f).replicas = p.replicas := rfl
@[simp] theorem Pkg.modNode_lines (p : Pkg) (id : Nat) (f : Node → Node) : (p.modNode id f).lines = p.lines := rfl
@[simp] theorem Pkg.modNode_held (p : Pkg) (id : Nat) (f : Node → Node) : (p.modNode id f).held = p.held := rfl
@[simp] theorem Pkg.modNode_nextGroup (p : Pkg) (id : Nat) (f : Node → Node) : (p.modNode id f).nextGroup = p.nextGroup := rfl
@[simp] theorem Pkg.modNode_cmds (p : Pkg) (id : Nat) (f : Node → Node) : (p.modNode id f).cmds = p.cmds := rfl
@[simp] theorem Pkg.modNode_nextCmd (p : Pkg) (id : Nat) (f : Node → Node) : (p.modNode id f).nextCmd = p.nextCmd := rfl
@[simp] theorem Pkg.modNode_edges (p : Pkg) (id : Nat) (f : Node → Node) : (p.modNode id f).edges = p.edges := rfl
@[simp] theorem Pkg.modNode_notices (p : Pkg) (id : Nat) (f : Node → Node) : (p.modNode id f).notices = p.notices := rfl
@[simp] theorem Pkg.modNode_nextNotice (p : Pkg) (id : Nat) (f : Node → Node) : (p.modNode id f).nextNotice = p.nextNotice := rfl
@[simp] theorem Pkg.modNode_arrivals (p : Pkg) (id : Nat) (f : Node → Node) : (p.modNode id f).arrivals = p.arrivals := rfl
@[simp] theorem Pkg.modNode_shares (p : Pkg) (id : Nat) (f : Node → Node) : (p.modNode id f).shares = p.shares := rfl
@[simp] theorem Pkg.modNode_nextWrite (p : Pkg) (id : Nat) (f : Node → Node) : (p.modNode id f).nextWrite = p.nextWrite := rfl
@[simp] theorem Pkg.modNode_tiles (p : Pkg) (id : Nat) (f : Node → Node) : (p.modNode id f).tiles = p.tiles := rfl
@[simp] theorem Pkg.modNode_stencil (p : Pkg) (id : Nat) (f : Node → Node) : (p.modNode id f).stencil = p.stencil := rfl
@[simp] theorem Pkg.modNode_cbt (p : Pkg) (id : Nat) (f : Node → Node) : (p.modNode id f).cbt = p.cbt := rfl
@[simp] theorem Pkg.modNode_chans (p : Pkg) (id : Nat) (f : Node → Node) : (p.modNode id f).chans = p.chans := rfl
@[simp] theorem Pkg.modNode_nextOrder (p : Pkg) (id : Nat) (f : Node → Node) : (p.modNode id f).nextOrder = p.nextOrder := rfl
@[simp] theorem Pkg.modNode_taking (p : Pkg) (id : Nat) (f : Node → Node) : (p.modNode id f).taking = p.taking := rfl
@[simp] theorem Pkg.modNode_lastQueue (p : Pkg) (id : Nat) (f : Node → Node) : (p.modNode id f).lastQueue = p.lastQueue := rfl
@[simp] theorem Pkg.modNode_posted (p : Pkg) (id : Nat) (f : Node → Node) : (p.modNode id f).posted = p.posted := rfl
@[simp] theorem Pkg.modNode_groups (p : Pkg) (id : Nat) (f : Node → Node) : (p.modNode id f).groups = p.groups := rfl
@[simp] theorem Pkg.modNode_reg (p : Pkg) (id : Nat) (f : Node → Node) : (p.modNode id f).reg = p.reg := rfl
@[simp] theorem Pkg.modNode_images (p : Pkg) (id : Nat) (f : Node → Node) : (p.modNode id f).images = p.images := rfl
@[simp] theorem Pkg.modNode_early (p : Pkg) (id : Nat) (f : Node → Node) : (p.modNode id f).early = p.early := rfl
@[simp] theorem Pkg.modNode_faultq (p : Pkg) (id : Nat) (f : Node → Node) : (p.modNode id f).faultq = p.faultq := rfl
@[simp] theorem Pkg.modNode_logq (p : Pkg) (id : Nat) (f : Node → Node) : (p.modNode id f).logq = p.logq := rfl
@[simp] theorem Pkg.modNode_repairs (p : Pkg) (id : Nat) (f : Node → Node) : (p.modNode id f).repairs = p.repairs := rfl
@[simp] theorem Pkg.modNode_failed (p : Pkg) (id : Nat) (f : Node → Node) : (p.modNode id f).failed = p.failed := rfl
@[simp] theorem Pkg.modNode_counts (p : Pkg) (id : Nat) (f : Node → Node) : (p.modNode id f).counts = p.counts := rfl
@[simp] theorem Pkg.modNode_move (p : Pkg) (id : Nat) (f : Node → Node) : (p.modNode id f).move = p.move := rfl
@[simp] theorem Pkg.modNode_skim (p : Pkg) (id : Nat) (f : Node → Node) : (p.modNode id f).skim = p.skim := rfl
@[simp] theorem Pkg.modNode_deadPorts (p : Pkg) (id : Nat) (f : Node → Node) : (p.modNode id f).deadPorts = p.deadPorts := rfl
@[simp] theorem Pkg.modNode_masters (p : Pkg) (id : Nat) (f : Node → Node) : (p.modNode id f).masters = p.masters := rfl
@[simp] theorem Pkg.modNode_owed (p : Pkg) (id : Nat) (f : Node → Node) : (p.modNode id f).owed = p.owed := rfl
@[simp] theorem Pkg.modNode_timed (p : Pkg) (id : Nat) (f : Node → Node) : (p.modNode id f).timed = p.timed := rfl
@[simp] theorem Pkg.modNode_forwarded (p : Pkg) (id : Nat) (f : Node → Node) : (p.modNode id f).forwarded = p.forwarded := rfl
@[simp] theorem Pkg.modNode_hostq (p : Pkg) (id : Nat) (f : Node → Node) : (p.modNode id f).hostq = p.hostq := rfl
@[simp] theorem Pkg.modNode_atsWait (p : Pkg) (id : Nat) (f : Node → Node) : (p.modNode id f).atsWait = p.atsWait := rfl
@[simp] theorem Pkg.modNode_pendingVec (p : Pkg) (id : Nat) (f : Node → Node) : (p.modNode id f).pendingVec = p.pendingVec := rfl
@[simp] theorem Pkg.modNode_vectors (p : Pkg) (id : Nat) (f : Node → Node) : (p.modNode id f).vectors = p.vectors := rfl
@[simp] theorem Pkg.modNode_inReset (p : Pkg) (id : Nat) (f : Node → Node) : (p.modNode id f).inReset = p.inReset := rfl
@[simp] theorem Pkg.modNode_broken (p : Pkg) (id : Nat) (f : Node → Node) : (p.modNode id f).broken = p.broken := rfl
@[simp] theorem Pkg.modNode_tripped (p : Pkg) (id : Nat) (f : Node → Node) : (p.modNode id f).tripped = p.tripped := rfl
@[simp] theorem Pkg.modNode_slow (p : Pkg) (id : Nat) (f : Node → Node) : (p.modNode id f).slow = p.slow := rfl
@[simp] theorem Pkg.modNode_masked (p : Pkg) (id : Nat) (f : Node → Node) : (p.modNode id f).masked = p.masked := rfl
@[simp] theorem Pkg.modNode_flash (p : Pkg) (id : Nat) (f : Node → Node) : (p.modNode id f).flash = p.flash := rfl
@[simp] theorem Pkg.modNode_out (p : Pkg) (id : Nat) (f : Node → Node) : (p.modNode id f).out = p.out := rfl

/-! ### Pkg.modCmd changes `cmds` alone -/

@[simp] theorem Pkg.modCmd_micro (p : Pkg) (id : Nat) (f : Command → Command) : (p.modCmd id f).micro = p.micro := rfl
@[simp] theorem Pkg.modCmd_fire (p : Pkg) (id : Nat) (f : Command → Command) : (p.modCmd id f).fire = p.fire := rfl
@[simp] theorem Pkg.modCmd_focus (p : Pkg) (id : Nat) (f : Command → Command) : (p.modCmd id f).focus = p.focus := rfl
@[simp] theorem Pkg.modCmd_fresh (p : Pkg) (id : Nat) (f : Command → Command) : (p.modCmd id f).fresh = p.fresh := rfl
@[simp] theorem Pkg.modCmd_ctx (p : Pkg) (id : Nat) (f : Command → Command) : (p.modCmd id f).ctx = p.ctx := rfl
@[simp] theorem Pkg.modCmd_core (p : Pkg) (id : Nat) (f : Command → Command) : (p.modCmd id f).core = p.core := rfl
@[simp] theorem Pkg.modCmd_mem (p : Pkg) (id : Nat) (f : Command → Command) : (p.modCmd id f).mem = p.mem := rfl
@[simp] theorem Pkg.modCmd_side (p : Pkg) (id : Nat) (f : Command → Command) : (p.modCmd id f).side = p.side := rfl
@[simp] theorem Pkg.modCmd_badSector (p : Pkg) (id : Nat) (f : Command → Command) : (p.modCmd id f).badSector = p.badSector := rfl
@[simp] theorem Pkg.modCmd_poisonTbl (p : Pkg) (id : Nat) (f : Command → Command) : (p.modCmd id f).poisonTbl = p.poisonTbl := rfl
@[simp] theorem Pkg.modCmd_tlb (p : Pkg) (id : Nat) (f : Command → Command) : (p.modCmd id f).tlb = p.tlb := rfl
@[simp] theorem Pkg.modCmd_binds (p : Pkg) (id : Nat) (f : Command → Command) : (p.modCmd id f).binds = p.binds := rfl
@[simp] theorem Pkg.modCmd_replicas (p : Pkg) (id : Nat) (f : Command → Command) : (p.modCmd id f).replicas = p.replicas := rfl
@[simp] theorem Pkg.modCmd_lines (p : Pkg) (id : Nat) (f : Command → Command) : (p.modCmd id f).lines = p.lines := rfl
@[simp] theorem Pkg.modCmd_held (p : Pkg) (id : Nat) (f : Command → Command) : (p.modCmd id f).held = p.held := rfl
@[simp] theorem Pkg.modCmd_nextGroup (p : Pkg) (id : Nat) (f : Command → Command) : (p.modCmd id f).nextGroup = p.nextGroup := rfl
@[simp] theorem Pkg.modCmd_nextCmd (p : Pkg) (id : Nat) (f : Command → Command) : (p.modCmd id f).nextCmd = p.nextCmd := rfl
@[simp] theorem Pkg.modCmd_edges (p : Pkg) (id : Nat) (f : Command → Command) : (p.modCmd id f).edges = p.edges := rfl
@[simp] theorem Pkg.modCmd_notices (p : Pkg) (id : Nat) (f : Command → Command) : (p.modCmd id f).notices = p.notices := rfl
@[simp] theorem Pkg.modCmd_nextNotice (p : Pkg) (id : Nat) (f : Command → Command) : (p.modCmd id f).nextNotice = p.nextNotice := rfl
@[simp] theorem Pkg.modCmd_arrivals (p : Pkg) (id : Nat) (f : Command → Command) : (p.modCmd id f).arrivals = p.arrivals := rfl
@[simp] theorem Pkg.modCmd_shares (p : Pkg) (id : Nat) (f : Command → Command) : (p.modCmd id f).shares = p.shares := rfl
@[simp] theorem Pkg.modCmd_nextWrite (p : Pkg) (id : Nat) (f : Command → Command) : (p.modCmd id f).nextWrite = p.nextWrite := rfl
@[simp] theorem Pkg.modCmd_tiles (p : Pkg) (id : Nat) (f : Command → Command) : (p.modCmd id f).tiles = p.tiles := rfl
@[simp] theorem Pkg.modCmd_stencil (p : Pkg) (id : Nat) (f : Command → Command) : (p.modCmd id f).stencil = p.stencil := rfl
@[simp] theorem Pkg.modCmd_cbt (p : Pkg) (id : Nat) (f : Command → Command) : (p.modCmd id f).cbt = p.cbt := rfl
@[simp] theorem Pkg.modCmd_chans (p : Pkg) (id : Nat) (f : Command → Command) : (p.modCmd id f).chans = p.chans := rfl
@[simp] theorem Pkg.modCmd_nodes (p : Pkg) (id : Nat) (f : Command → Command) : (p.modCmd id f).nodes = p.nodes := rfl
@[simp] theorem Pkg.modCmd_nextOrder (p : Pkg) (id : Nat) (f : Command → Command) : (p.modCmd id f).nextOrder = p.nextOrder := rfl
@[simp] theorem Pkg.modCmd_taking (p : Pkg) (id : Nat) (f : Command → Command) : (p.modCmd id f).taking = p.taking := rfl
@[simp] theorem Pkg.modCmd_lastQueue (p : Pkg) (id : Nat) (f : Command → Command) : (p.modCmd id f).lastQueue = p.lastQueue := rfl
@[simp] theorem Pkg.modCmd_posted (p : Pkg) (id : Nat) (f : Command → Command) : (p.modCmd id f).posted = p.posted := rfl
@[simp] theorem Pkg.modCmd_groups (p : Pkg) (id : Nat) (f : Command → Command) : (p.modCmd id f).groups = p.groups := rfl
@[simp] theorem Pkg.modCmd_reg (p : Pkg) (id : Nat) (f : Command → Command) : (p.modCmd id f).reg = p.reg := rfl
@[simp] theorem Pkg.modCmd_images (p : Pkg) (id : Nat) (f : Command → Command) : (p.modCmd id f).images = p.images := rfl
@[simp] theorem Pkg.modCmd_early (p : Pkg) (id : Nat) (f : Command → Command) : (p.modCmd id f).early = p.early := rfl
@[simp] theorem Pkg.modCmd_faultq (p : Pkg) (id : Nat) (f : Command → Command) : (p.modCmd id f).faultq = p.faultq := rfl
@[simp] theorem Pkg.modCmd_logq (p : Pkg) (id : Nat) (f : Command → Command) : (p.modCmd id f).logq = p.logq := rfl
@[simp] theorem Pkg.modCmd_repairs (p : Pkg) (id : Nat) (f : Command → Command) : (p.modCmd id f).repairs = p.repairs := rfl
@[simp] theorem Pkg.modCmd_failed (p : Pkg) (id : Nat) (f : Command → Command) : (p.modCmd id f).failed = p.failed := rfl
@[simp] theorem Pkg.modCmd_counts (p : Pkg) (id : Nat) (f : Command → Command) : (p.modCmd id f).counts = p.counts := rfl
@[simp] theorem Pkg.modCmd_move (p : Pkg) (id : Nat) (f : Command → Command) : (p.modCmd id f).move = p.move := rfl
@[simp] theorem Pkg.modCmd_skim (p : Pkg) (id : Nat) (f : Command → Command) : (p.modCmd id f).skim = p.skim := rfl
@[simp] theorem Pkg.modCmd_deadPorts (p : Pkg) (id : Nat) (f : Command → Command) : (p.modCmd id f).deadPorts = p.deadPorts := rfl
@[simp] theorem Pkg.modCmd_masters (p : Pkg) (id : Nat) (f : Command → Command) : (p.modCmd id f).masters = p.masters := rfl
@[simp] theorem Pkg.modCmd_owed (p : Pkg) (id : Nat) (f : Command → Command) : (p.modCmd id f).owed = p.owed := rfl
@[simp] theorem Pkg.modCmd_timed (p : Pkg) (id : Nat) (f : Command → Command) : (p.modCmd id f).timed = p.timed := rfl
@[simp] theorem Pkg.modCmd_forwarded (p : Pkg) (id : Nat) (f : Command → Command) : (p.modCmd id f).forwarded = p.forwarded := rfl
@[simp] theorem Pkg.modCmd_hostq (p : Pkg) (id : Nat) (f : Command → Command) : (p.modCmd id f).hostq = p.hostq := rfl
@[simp] theorem Pkg.modCmd_atsWait (p : Pkg) (id : Nat) (f : Command → Command) : (p.modCmd id f).atsWait = p.atsWait := rfl
@[simp] theorem Pkg.modCmd_pendingVec (p : Pkg) (id : Nat) (f : Command → Command) : (p.modCmd id f).pendingVec = p.pendingVec := rfl
@[simp] theorem Pkg.modCmd_vectors (p : Pkg) (id : Nat) (f : Command → Command) : (p.modCmd id f).vectors = p.vectors := rfl
@[simp] theorem Pkg.modCmd_inReset (p : Pkg) (id : Nat) (f : Command → Command) : (p.modCmd id f).inReset = p.inReset := rfl
@[simp] theorem Pkg.modCmd_broken (p : Pkg) (id : Nat) (f : Command → Command) : (p.modCmd id f).broken = p.broken := rfl
@[simp] theorem Pkg.modCmd_tripped (p : Pkg) (id : Nat) (f : Command → Command) : (p.modCmd id f).tripped = p.tripped := rfl
@[simp] theorem Pkg.modCmd_slow (p : Pkg) (id : Nat) (f : Command → Command) : (p.modCmd id f).slow = p.slow := rfl
@[simp] theorem Pkg.modCmd_masked (p : Pkg) (id : Nat) (f : Command → Command) : (p.modCmd id f).masked = p.masked := rfl
@[simp] theorem Pkg.modCmd_flash (p : Pkg) (id : Nat) (f : Command → Command) : (p.modCmd id f).flash = p.flash := rfl
@[simp] theorem Pkg.modCmd_out (p : Pkg) (id : Nat) (f : Command → Command) : (p.modCmd id f).out = p.out := rfl

/-! ### Pkg.modChan changes `chans` alone -/

@[simp] theorem Pkg.modChan_micro (p : Pkg) (ch : Nat) (f : Channel → Channel) : (p.modChan ch f).micro = p.micro := rfl
@[simp] theorem Pkg.modChan_fire (p : Pkg) (ch : Nat) (f : Channel → Channel) : (p.modChan ch f).fire = p.fire := rfl
@[simp] theorem Pkg.modChan_focus (p : Pkg) (ch : Nat) (f : Channel → Channel) : (p.modChan ch f).focus = p.focus := rfl
@[simp] theorem Pkg.modChan_fresh (p : Pkg) (ch : Nat) (f : Channel → Channel) : (p.modChan ch f).fresh = p.fresh := rfl
@[simp] theorem Pkg.modChan_ctx (p : Pkg) (ch : Nat) (f : Channel → Channel) : (p.modChan ch f).ctx = p.ctx := rfl
@[simp] theorem Pkg.modChan_core (p : Pkg) (ch : Nat) (f : Channel → Channel) : (p.modChan ch f).core = p.core := rfl
@[simp] theorem Pkg.modChan_mem (p : Pkg) (ch : Nat) (f : Channel → Channel) : (p.modChan ch f).mem = p.mem := rfl
@[simp] theorem Pkg.modChan_side (p : Pkg) (ch : Nat) (f : Channel → Channel) : (p.modChan ch f).side = p.side := rfl
@[simp] theorem Pkg.modChan_badSector (p : Pkg) (ch : Nat) (f : Channel → Channel) : (p.modChan ch f).badSector = p.badSector := rfl
@[simp] theorem Pkg.modChan_poisonTbl (p : Pkg) (ch : Nat) (f : Channel → Channel) : (p.modChan ch f).poisonTbl = p.poisonTbl := rfl
@[simp] theorem Pkg.modChan_tlb (p : Pkg) (ch : Nat) (f : Channel → Channel) : (p.modChan ch f).tlb = p.tlb := rfl
@[simp] theorem Pkg.modChan_binds (p : Pkg) (ch : Nat) (f : Channel → Channel) : (p.modChan ch f).binds = p.binds := rfl
@[simp] theorem Pkg.modChan_replicas (p : Pkg) (ch : Nat) (f : Channel → Channel) : (p.modChan ch f).replicas = p.replicas := rfl
@[simp] theorem Pkg.modChan_lines (p : Pkg) (ch : Nat) (f : Channel → Channel) : (p.modChan ch f).lines = p.lines := rfl
@[simp] theorem Pkg.modChan_held (p : Pkg) (ch : Nat) (f : Channel → Channel) : (p.modChan ch f).held = p.held := rfl
@[simp] theorem Pkg.modChan_nextGroup (p : Pkg) (ch : Nat) (f : Channel → Channel) : (p.modChan ch f).nextGroup = p.nextGroup := rfl
@[simp] theorem Pkg.modChan_cmds (p : Pkg) (ch : Nat) (f : Channel → Channel) : (p.modChan ch f).cmds = p.cmds := rfl
@[simp] theorem Pkg.modChan_nextCmd (p : Pkg) (ch : Nat) (f : Channel → Channel) : (p.modChan ch f).nextCmd = p.nextCmd := rfl
@[simp] theorem Pkg.modChan_edges (p : Pkg) (ch : Nat) (f : Channel → Channel) : (p.modChan ch f).edges = p.edges := rfl
@[simp] theorem Pkg.modChan_notices (p : Pkg) (ch : Nat) (f : Channel → Channel) : (p.modChan ch f).notices = p.notices := rfl
@[simp] theorem Pkg.modChan_nextNotice (p : Pkg) (ch : Nat) (f : Channel → Channel) : (p.modChan ch f).nextNotice = p.nextNotice := rfl
@[simp] theorem Pkg.modChan_arrivals (p : Pkg) (ch : Nat) (f : Channel → Channel) : (p.modChan ch f).arrivals = p.arrivals := rfl
@[simp] theorem Pkg.modChan_shares (p : Pkg) (ch : Nat) (f : Channel → Channel) : (p.modChan ch f).shares = p.shares := rfl
@[simp] theorem Pkg.modChan_nextWrite (p : Pkg) (ch : Nat) (f : Channel → Channel) : (p.modChan ch f).nextWrite = p.nextWrite := rfl
@[simp] theorem Pkg.modChan_tiles (p : Pkg) (ch : Nat) (f : Channel → Channel) : (p.modChan ch f).tiles = p.tiles := rfl
@[simp] theorem Pkg.modChan_stencil (p : Pkg) (ch : Nat) (f : Channel → Channel) : (p.modChan ch f).stencil = p.stencil := rfl
@[simp] theorem Pkg.modChan_cbt (p : Pkg) (ch : Nat) (f : Channel → Channel) : (p.modChan ch f).cbt = p.cbt := rfl
@[simp] theorem Pkg.modChan_nodes (p : Pkg) (ch : Nat) (f : Channel → Channel) : (p.modChan ch f).nodes = p.nodes := rfl
@[simp] theorem Pkg.modChan_nextOrder (p : Pkg) (ch : Nat) (f : Channel → Channel) : (p.modChan ch f).nextOrder = p.nextOrder := rfl
@[simp] theorem Pkg.modChan_taking (p : Pkg) (ch : Nat) (f : Channel → Channel) : (p.modChan ch f).taking = p.taking := rfl
@[simp] theorem Pkg.modChan_lastQueue (p : Pkg) (ch : Nat) (f : Channel → Channel) : (p.modChan ch f).lastQueue = p.lastQueue := rfl
@[simp] theorem Pkg.modChan_posted (p : Pkg) (ch : Nat) (f : Channel → Channel) : (p.modChan ch f).posted = p.posted := rfl
@[simp] theorem Pkg.modChan_groups (p : Pkg) (ch : Nat) (f : Channel → Channel) : (p.modChan ch f).groups = p.groups := rfl
@[simp] theorem Pkg.modChan_reg (p : Pkg) (ch : Nat) (f : Channel → Channel) : (p.modChan ch f).reg = p.reg := rfl
@[simp] theorem Pkg.modChan_images (p : Pkg) (ch : Nat) (f : Channel → Channel) : (p.modChan ch f).images = p.images := rfl
@[simp] theorem Pkg.modChan_early (p : Pkg) (ch : Nat) (f : Channel → Channel) : (p.modChan ch f).early = p.early := rfl
@[simp] theorem Pkg.modChan_faultq (p : Pkg) (ch : Nat) (f : Channel → Channel) : (p.modChan ch f).faultq = p.faultq := rfl
@[simp] theorem Pkg.modChan_logq (p : Pkg) (ch : Nat) (f : Channel → Channel) : (p.modChan ch f).logq = p.logq := rfl
@[simp] theorem Pkg.modChan_repairs (p : Pkg) (ch : Nat) (f : Channel → Channel) : (p.modChan ch f).repairs = p.repairs := rfl
@[simp] theorem Pkg.modChan_failed (p : Pkg) (ch : Nat) (f : Channel → Channel) : (p.modChan ch f).failed = p.failed := rfl
@[simp] theorem Pkg.modChan_counts (p : Pkg) (ch : Nat) (f : Channel → Channel) : (p.modChan ch f).counts = p.counts := rfl
@[simp] theorem Pkg.modChan_move (p : Pkg) (ch : Nat) (f : Channel → Channel) : (p.modChan ch f).move = p.move := rfl
@[simp] theorem Pkg.modChan_skim (p : Pkg) (ch : Nat) (f : Channel → Channel) : (p.modChan ch f).skim = p.skim := rfl
@[simp] theorem Pkg.modChan_deadPorts (p : Pkg) (ch : Nat) (f : Channel → Channel) : (p.modChan ch f).deadPorts = p.deadPorts := rfl
@[simp] theorem Pkg.modChan_masters (p : Pkg) (ch : Nat) (f : Channel → Channel) : (p.modChan ch f).masters = p.masters := rfl
@[simp] theorem Pkg.modChan_owed (p : Pkg) (ch : Nat) (f : Channel → Channel) : (p.modChan ch f).owed = p.owed := rfl
@[simp] theorem Pkg.modChan_timed (p : Pkg) (ch : Nat) (f : Channel → Channel) : (p.modChan ch f).timed = p.timed := rfl
@[simp] theorem Pkg.modChan_forwarded (p : Pkg) (ch : Nat) (f : Channel → Channel) : (p.modChan ch f).forwarded = p.forwarded := rfl
@[simp] theorem Pkg.modChan_hostq (p : Pkg) (ch : Nat) (f : Channel → Channel) : (p.modChan ch f).hostq = p.hostq := rfl
@[simp] theorem Pkg.modChan_atsWait (p : Pkg) (ch : Nat) (f : Channel → Channel) : (p.modChan ch f).atsWait = p.atsWait := rfl
@[simp] theorem Pkg.modChan_pendingVec (p : Pkg) (ch : Nat) (f : Channel → Channel) : (p.modChan ch f).pendingVec = p.pendingVec := rfl
@[simp] theorem Pkg.modChan_vectors (p : Pkg) (ch : Nat) (f : Channel → Channel) : (p.modChan ch f).vectors = p.vectors := rfl
@[simp] theorem Pkg.modChan_inReset (p : Pkg) (ch : Nat) (f : Channel → Channel) : (p.modChan ch f).inReset = p.inReset := rfl
@[simp] theorem Pkg.modChan_broken (p : Pkg) (ch : Nat) (f : Channel → Channel) : (p.modChan ch f).broken = p.broken := rfl
@[simp] theorem Pkg.modChan_tripped (p : Pkg) (ch : Nat) (f : Channel → Channel) : (p.modChan ch f).tripped = p.tripped := rfl
@[simp] theorem Pkg.modChan_slow (p : Pkg) (ch : Nat) (f : Channel → Channel) : (p.modChan ch f).slow = p.slow := rfl
@[simp] theorem Pkg.modChan_masked (p : Pkg) (ch : Nat) (f : Channel → Channel) : (p.modChan ch f).masked = p.masked := rfl
@[simp] theorem Pkg.modChan_flash (p : Pkg) (ch : Nat) (f : Channel → Channel) : (p.modChan ch f).flash = p.flash := rfl
@[simp] theorem Pkg.modChan_out (p : Pkg) (ch : Nat) (f : Channel → Channel) : (p.modChan ch f).out = p.out := rfl

/-! ### emit changes `out` alone -/

@[simp] theorem emit_micro (p : Pkg) (m : OutMsg) : (emit m p).micro = p.micro := rfl
@[simp] theorem emit_fire (p : Pkg) (m : OutMsg) : (emit m p).fire = p.fire := rfl
@[simp] theorem emit_focus (p : Pkg) (m : OutMsg) : (emit m p).focus = p.focus := rfl
@[simp] theorem emit_fresh (p : Pkg) (m : OutMsg) : (emit m p).fresh = p.fresh := rfl
@[simp] theorem emit_ctx (p : Pkg) (m : OutMsg) : (emit m p).ctx = p.ctx := rfl
@[simp] theorem emit_core (p : Pkg) (m : OutMsg) : (emit m p).core = p.core := rfl
@[simp] theorem emit_mem (p : Pkg) (m : OutMsg) : (emit m p).mem = p.mem := rfl
@[simp] theorem emit_side (p : Pkg) (m : OutMsg) : (emit m p).side = p.side := rfl
@[simp] theorem emit_badSector (p : Pkg) (m : OutMsg) : (emit m p).badSector = p.badSector := rfl
@[simp] theorem emit_poisonTbl (p : Pkg) (m : OutMsg) : (emit m p).poisonTbl = p.poisonTbl := rfl
@[simp] theorem emit_tlb (p : Pkg) (m : OutMsg) : (emit m p).tlb = p.tlb := rfl
@[simp] theorem emit_binds (p : Pkg) (m : OutMsg) : (emit m p).binds = p.binds := rfl
@[simp] theorem emit_replicas (p : Pkg) (m : OutMsg) : (emit m p).replicas = p.replicas := rfl
@[simp] theorem emit_lines (p : Pkg) (m : OutMsg) : (emit m p).lines = p.lines := rfl
@[simp] theorem emit_held (p : Pkg) (m : OutMsg) : (emit m p).held = p.held := rfl
@[simp] theorem emit_nextGroup (p : Pkg) (m : OutMsg) : (emit m p).nextGroup = p.nextGroup := rfl
@[simp] theorem emit_cmds (p : Pkg) (m : OutMsg) : (emit m p).cmds = p.cmds := rfl
@[simp] theorem emit_nextCmd (p : Pkg) (m : OutMsg) : (emit m p).nextCmd = p.nextCmd := rfl
@[simp] theorem emit_edges (p : Pkg) (m : OutMsg) : (emit m p).edges = p.edges := rfl
@[simp] theorem emit_notices (p : Pkg) (m : OutMsg) : (emit m p).notices = p.notices := rfl
@[simp] theorem emit_nextNotice (p : Pkg) (m : OutMsg) : (emit m p).nextNotice = p.nextNotice := rfl
@[simp] theorem emit_arrivals (p : Pkg) (m : OutMsg) : (emit m p).arrivals = p.arrivals := rfl
@[simp] theorem emit_shares (p : Pkg) (m : OutMsg) : (emit m p).shares = p.shares := rfl
@[simp] theorem emit_nextWrite (p : Pkg) (m : OutMsg) : (emit m p).nextWrite = p.nextWrite := rfl
@[simp] theorem emit_tiles (p : Pkg) (m : OutMsg) : (emit m p).tiles = p.tiles := rfl
@[simp] theorem emit_stencil (p : Pkg) (m : OutMsg) : (emit m p).stencil = p.stencil := rfl
@[simp] theorem emit_cbt (p : Pkg) (m : OutMsg) : (emit m p).cbt = p.cbt := rfl
@[simp] theorem emit_chans (p : Pkg) (m : OutMsg) : (emit m p).chans = p.chans := rfl
@[simp] theorem emit_nodes (p : Pkg) (m : OutMsg) : (emit m p).nodes = p.nodes := rfl
@[simp] theorem emit_nextOrder (p : Pkg) (m : OutMsg) : (emit m p).nextOrder = p.nextOrder := rfl
@[simp] theorem emit_taking (p : Pkg) (m : OutMsg) : (emit m p).taking = p.taking := rfl
@[simp] theorem emit_lastQueue (p : Pkg) (m : OutMsg) : (emit m p).lastQueue = p.lastQueue := rfl
@[simp] theorem emit_posted (p : Pkg) (m : OutMsg) : (emit m p).posted = p.posted := rfl
@[simp] theorem emit_groups (p : Pkg) (m : OutMsg) : (emit m p).groups = p.groups := rfl
@[simp] theorem emit_reg (p : Pkg) (m : OutMsg) : (emit m p).reg = p.reg := rfl
@[simp] theorem emit_images (p : Pkg) (m : OutMsg) : (emit m p).images = p.images := rfl
@[simp] theorem emit_early (p : Pkg) (m : OutMsg) : (emit m p).early = p.early := rfl
@[simp] theorem emit_faultq (p : Pkg) (m : OutMsg) : (emit m p).faultq = p.faultq := rfl
@[simp] theorem emit_logq (p : Pkg) (m : OutMsg) : (emit m p).logq = p.logq := rfl
@[simp] theorem emit_repairs (p : Pkg) (m : OutMsg) : (emit m p).repairs = p.repairs := rfl
@[simp] theorem emit_failed (p : Pkg) (m : OutMsg) : (emit m p).failed = p.failed := rfl
@[simp] theorem emit_counts (p : Pkg) (m : OutMsg) : (emit m p).counts = p.counts := rfl
@[simp] theorem emit_move (p : Pkg) (m : OutMsg) : (emit m p).move = p.move := rfl
@[simp] theorem emit_skim (p : Pkg) (m : OutMsg) : (emit m p).skim = p.skim := rfl
@[simp] theorem emit_deadPorts (p : Pkg) (m : OutMsg) : (emit m p).deadPorts = p.deadPorts := rfl
@[simp] theorem emit_masters (p : Pkg) (m : OutMsg) : (emit m p).masters = p.masters := rfl
@[simp] theorem emit_owed (p : Pkg) (m : OutMsg) : (emit m p).owed = p.owed := rfl
@[simp] theorem emit_timed (p : Pkg) (m : OutMsg) : (emit m p).timed = p.timed := rfl
@[simp] theorem emit_forwarded (p : Pkg) (m : OutMsg) : (emit m p).forwarded = p.forwarded := rfl
@[simp] theorem emit_hostq (p : Pkg) (m : OutMsg) : (emit m p).hostq = p.hostq := rfl
@[simp] theorem emit_atsWait (p : Pkg) (m : OutMsg) : (emit m p).atsWait = p.atsWait := rfl
@[simp] theorem emit_pendingVec (p : Pkg) (m : OutMsg) : (emit m p).pendingVec = p.pendingVec := rfl
@[simp] theorem emit_vectors (p : Pkg) (m : OutMsg) : (emit m p).vectors = p.vectors := rfl
@[simp] theorem emit_inReset (p : Pkg) (m : OutMsg) : (emit m p).inReset = p.inReset := rfl
@[simp] theorem emit_broken (p : Pkg) (m : OutMsg) : (emit m p).broken = p.broken := rfl
@[simp] theorem emit_tripped (p : Pkg) (m : OutMsg) : (emit m p).tripped = p.tripped := rfl
@[simp] theorem emit_slow (p : Pkg) (m : OutMsg) : (emit m p).slow = p.slow := rfl
@[simp] theorem emit_masked (p : Pkg) (m : OutMsg) : (emit m p).masked = p.masked := rfl
@[simp] theorem emit_flash (p : Pkg) (m : OutMsg) : (emit m p).flash = p.flash := rfl

/-! ### logEvent changes `logq` alone -/

@[simp] theorem logEvent_micro (p : Pkg) (e : LogEvent) : (logEvent e p).micro = p.micro := rfl
@[simp] theorem logEvent_fire (p : Pkg) (e : LogEvent) : (logEvent e p).fire = p.fire := rfl
@[simp] theorem logEvent_focus (p : Pkg) (e : LogEvent) : (logEvent e p).focus = p.focus := rfl
@[simp] theorem logEvent_fresh (p : Pkg) (e : LogEvent) : (logEvent e p).fresh = p.fresh := rfl
@[simp] theorem logEvent_ctx (p : Pkg) (e : LogEvent) : (logEvent e p).ctx = p.ctx := rfl
@[simp] theorem logEvent_core (p : Pkg) (e : LogEvent) : (logEvent e p).core = p.core := rfl
@[simp] theorem logEvent_mem (p : Pkg) (e : LogEvent) : (logEvent e p).mem = p.mem := rfl
@[simp] theorem logEvent_side (p : Pkg) (e : LogEvent) : (logEvent e p).side = p.side := rfl
@[simp] theorem logEvent_badSector (p : Pkg) (e : LogEvent) : (logEvent e p).badSector = p.badSector := rfl
@[simp] theorem logEvent_poisonTbl (p : Pkg) (e : LogEvent) : (logEvent e p).poisonTbl = p.poisonTbl := rfl
@[simp] theorem logEvent_tlb (p : Pkg) (e : LogEvent) : (logEvent e p).tlb = p.tlb := rfl
@[simp] theorem logEvent_binds (p : Pkg) (e : LogEvent) : (logEvent e p).binds = p.binds := rfl
@[simp] theorem logEvent_replicas (p : Pkg) (e : LogEvent) : (logEvent e p).replicas = p.replicas := rfl
@[simp] theorem logEvent_lines (p : Pkg) (e : LogEvent) : (logEvent e p).lines = p.lines := rfl
@[simp] theorem logEvent_held (p : Pkg) (e : LogEvent) : (logEvent e p).held = p.held := rfl
@[simp] theorem logEvent_nextGroup (p : Pkg) (e : LogEvent) : (logEvent e p).nextGroup = p.nextGroup := rfl
@[simp] theorem logEvent_cmds (p : Pkg) (e : LogEvent) : (logEvent e p).cmds = p.cmds := rfl
@[simp] theorem logEvent_nextCmd (p : Pkg) (e : LogEvent) : (logEvent e p).nextCmd = p.nextCmd := rfl
@[simp] theorem logEvent_edges (p : Pkg) (e : LogEvent) : (logEvent e p).edges = p.edges := rfl
@[simp] theorem logEvent_notices (p : Pkg) (e : LogEvent) : (logEvent e p).notices = p.notices := rfl
@[simp] theorem logEvent_nextNotice (p : Pkg) (e : LogEvent) : (logEvent e p).nextNotice = p.nextNotice := rfl
@[simp] theorem logEvent_arrivals (p : Pkg) (e : LogEvent) : (logEvent e p).arrivals = p.arrivals := rfl
@[simp] theorem logEvent_shares (p : Pkg) (e : LogEvent) : (logEvent e p).shares = p.shares := rfl
@[simp] theorem logEvent_nextWrite (p : Pkg) (e : LogEvent) : (logEvent e p).nextWrite = p.nextWrite := rfl
@[simp] theorem logEvent_tiles (p : Pkg) (e : LogEvent) : (logEvent e p).tiles = p.tiles := rfl
@[simp] theorem logEvent_stencil (p : Pkg) (e : LogEvent) : (logEvent e p).stencil = p.stencil := rfl
@[simp] theorem logEvent_cbt (p : Pkg) (e : LogEvent) : (logEvent e p).cbt = p.cbt := rfl
@[simp] theorem logEvent_chans (p : Pkg) (e : LogEvent) : (logEvent e p).chans = p.chans := rfl
@[simp] theorem logEvent_nodes (p : Pkg) (e : LogEvent) : (logEvent e p).nodes = p.nodes := rfl
@[simp] theorem logEvent_nextOrder (p : Pkg) (e : LogEvent) : (logEvent e p).nextOrder = p.nextOrder := rfl
@[simp] theorem logEvent_taking (p : Pkg) (e : LogEvent) : (logEvent e p).taking = p.taking := rfl
@[simp] theorem logEvent_lastQueue (p : Pkg) (e : LogEvent) : (logEvent e p).lastQueue = p.lastQueue := rfl
@[simp] theorem logEvent_posted (p : Pkg) (e : LogEvent) : (logEvent e p).posted = p.posted := rfl
@[simp] theorem logEvent_groups (p : Pkg) (e : LogEvent) : (logEvent e p).groups = p.groups := rfl
@[simp] theorem logEvent_reg (p : Pkg) (e : LogEvent) : (logEvent e p).reg = p.reg := rfl
@[simp] theorem logEvent_images (p : Pkg) (e : LogEvent) : (logEvent e p).images = p.images := rfl
@[simp] theorem logEvent_early (p : Pkg) (e : LogEvent) : (logEvent e p).early = p.early := rfl
@[simp] theorem logEvent_faultq (p : Pkg) (e : LogEvent) : (logEvent e p).faultq = p.faultq := rfl
@[simp] theorem logEvent_repairs (p : Pkg) (e : LogEvent) : (logEvent e p).repairs = p.repairs := rfl
@[simp] theorem logEvent_failed (p : Pkg) (e : LogEvent) : (logEvent e p).failed = p.failed := rfl
@[simp] theorem logEvent_counts (p : Pkg) (e : LogEvent) : (logEvent e p).counts = p.counts := rfl
@[simp] theorem logEvent_move (p : Pkg) (e : LogEvent) : (logEvent e p).move = p.move := rfl
@[simp] theorem logEvent_skim (p : Pkg) (e : LogEvent) : (logEvent e p).skim = p.skim := rfl
@[simp] theorem logEvent_deadPorts (p : Pkg) (e : LogEvent) : (logEvent e p).deadPorts = p.deadPorts := rfl
@[simp] theorem logEvent_masters (p : Pkg) (e : LogEvent) : (logEvent e p).masters = p.masters := rfl
@[simp] theorem logEvent_owed (p : Pkg) (e : LogEvent) : (logEvent e p).owed = p.owed := rfl
@[simp] theorem logEvent_timed (p : Pkg) (e : LogEvent) : (logEvent e p).timed = p.timed := rfl
@[simp] theorem logEvent_forwarded (p : Pkg) (e : LogEvent) : (logEvent e p).forwarded = p.forwarded := rfl
@[simp] theorem logEvent_hostq (p : Pkg) (e : LogEvent) : (logEvent e p).hostq = p.hostq := rfl
@[simp] theorem logEvent_atsWait (p : Pkg) (e : LogEvent) : (logEvent e p).atsWait = p.atsWait := rfl
@[simp] theorem logEvent_pendingVec (p : Pkg) (e : LogEvent) : (logEvent e p).pendingVec = p.pendingVec := rfl
@[simp] theorem logEvent_vectors (p : Pkg) (e : LogEvent) : (logEvent e p).vectors = p.vectors := rfl
@[simp] theorem logEvent_inReset (p : Pkg) (e : LogEvent) : (logEvent e p).inReset = p.inReset := rfl
@[simp] theorem logEvent_broken (p : Pkg) (e : LogEvent) : (logEvent e p).broken = p.broken := rfl
@[simp] theorem logEvent_tripped (p : Pkg) (e : LogEvent) : (logEvent e p).tripped = p.tripped := rfl
@[simp] theorem logEvent_slow (p : Pkg) (e : LogEvent) : (logEvent e p).slow = p.slow := rfl
@[simp] theorem logEvent_masked (p : Pkg) (e : LogEvent) : (logEvent e p).masked = p.masked := rfl
@[simp] theorem logEvent_flash (p : Pkg) (e : LogEvent) : (logEvent e p).flash = p.flash := rfl
@[simp] theorem logEvent_out (p : Pkg) (e : LogEvent) : (logEvent e p).out = p.out := rfl

/-! ### postRecord changes `faultq` alone -/

@[simp] theorem postRecord_micro (p : Pkg) (r : FaultRec) : (postRecord r p).micro = p.micro := rfl
@[simp] theorem postRecord_fire (p : Pkg) (r : FaultRec) : (postRecord r p).fire = p.fire := rfl
@[simp] theorem postRecord_focus (p : Pkg) (r : FaultRec) : (postRecord r p).focus = p.focus := rfl
@[simp] theorem postRecord_fresh (p : Pkg) (r : FaultRec) : (postRecord r p).fresh = p.fresh := rfl
@[simp] theorem postRecord_ctx (p : Pkg) (r : FaultRec) : (postRecord r p).ctx = p.ctx := rfl
@[simp] theorem postRecord_core (p : Pkg) (r : FaultRec) : (postRecord r p).core = p.core := rfl
@[simp] theorem postRecord_mem (p : Pkg) (r : FaultRec) : (postRecord r p).mem = p.mem := rfl
@[simp] theorem postRecord_side (p : Pkg) (r : FaultRec) : (postRecord r p).side = p.side := rfl
@[simp] theorem postRecord_badSector (p : Pkg) (r : FaultRec) : (postRecord r p).badSector = p.badSector := rfl
@[simp] theorem postRecord_poisonTbl (p : Pkg) (r : FaultRec) : (postRecord r p).poisonTbl = p.poisonTbl := rfl
@[simp] theorem postRecord_tlb (p : Pkg) (r : FaultRec) : (postRecord r p).tlb = p.tlb := rfl
@[simp] theorem postRecord_binds (p : Pkg) (r : FaultRec) : (postRecord r p).binds = p.binds := rfl
@[simp] theorem postRecord_replicas (p : Pkg) (r : FaultRec) : (postRecord r p).replicas = p.replicas := rfl
@[simp] theorem postRecord_lines (p : Pkg) (r : FaultRec) : (postRecord r p).lines = p.lines := rfl
@[simp] theorem postRecord_held (p : Pkg) (r : FaultRec) : (postRecord r p).held = p.held := rfl
@[simp] theorem postRecord_nextGroup (p : Pkg) (r : FaultRec) : (postRecord r p).nextGroup = p.nextGroup := rfl
@[simp] theorem postRecord_cmds (p : Pkg) (r : FaultRec) : (postRecord r p).cmds = p.cmds := rfl
@[simp] theorem postRecord_nextCmd (p : Pkg) (r : FaultRec) : (postRecord r p).nextCmd = p.nextCmd := rfl
@[simp] theorem postRecord_edges (p : Pkg) (r : FaultRec) : (postRecord r p).edges = p.edges := rfl
@[simp] theorem postRecord_notices (p : Pkg) (r : FaultRec) : (postRecord r p).notices = p.notices := rfl
@[simp] theorem postRecord_nextNotice (p : Pkg) (r : FaultRec) : (postRecord r p).nextNotice = p.nextNotice := rfl
@[simp] theorem postRecord_arrivals (p : Pkg) (r : FaultRec) : (postRecord r p).arrivals = p.arrivals := rfl
@[simp] theorem postRecord_shares (p : Pkg) (r : FaultRec) : (postRecord r p).shares = p.shares := rfl
@[simp] theorem postRecord_nextWrite (p : Pkg) (r : FaultRec) : (postRecord r p).nextWrite = p.nextWrite := rfl
@[simp] theorem postRecord_tiles (p : Pkg) (r : FaultRec) : (postRecord r p).tiles = p.tiles := rfl
@[simp] theorem postRecord_stencil (p : Pkg) (r : FaultRec) : (postRecord r p).stencil = p.stencil := rfl
@[simp] theorem postRecord_cbt (p : Pkg) (r : FaultRec) : (postRecord r p).cbt = p.cbt := rfl
@[simp] theorem postRecord_chans (p : Pkg) (r : FaultRec) : (postRecord r p).chans = p.chans := rfl
@[simp] theorem postRecord_nodes (p : Pkg) (r : FaultRec) : (postRecord r p).nodes = p.nodes := rfl
@[simp] theorem postRecord_nextOrder (p : Pkg) (r : FaultRec) : (postRecord r p).nextOrder = p.nextOrder := rfl
@[simp] theorem postRecord_taking (p : Pkg) (r : FaultRec) : (postRecord r p).taking = p.taking := rfl
@[simp] theorem postRecord_lastQueue (p : Pkg) (r : FaultRec) : (postRecord r p).lastQueue = p.lastQueue := rfl
@[simp] theorem postRecord_posted (p : Pkg) (r : FaultRec) : (postRecord r p).posted = p.posted := rfl
@[simp] theorem postRecord_groups (p : Pkg) (r : FaultRec) : (postRecord r p).groups = p.groups := rfl
@[simp] theorem postRecord_reg (p : Pkg) (r : FaultRec) : (postRecord r p).reg = p.reg := rfl
@[simp] theorem postRecord_images (p : Pkg) (r : FaultRec) : (postRecord r p).images = p.images := rfl
@[simp] theorem postRecord_early (p : Pkg) (r : FaultRec) : (postRecord r p).early = p.early := rfl
@[simp] theorem postRecord_logq (p : Pkg) (r : FaultRec) : (postRecord r p).logq = p.logq := rfl
@[simp] theorem postRecord_repairs (p : Pkg) (r : FaultRec) : (postRecord r p).repairs = p.repairs := rfl
@[simp] theorem postRecord_failed (p : Pkg) (r : FaultRec) : (postRecord r p).failed = p.failed := rfl
@[simp] theorem postRecord_counts (p : Pkg) (r : FaultRec) : (postRecord r p).counts = p.counts := rfl
@[simp] theorem postRecord_move (p : Pkg) (r : FaultRec) : (postRecord r p).move = p.move := rfl
@[simp] theorem postRecord_skim (p : Pkg) (r : FaultRec) : (postRecord r p).skim = p.skim := rfl
@[simp] theorem postRecord_deadPorts (p : Pkg) (r : FaultRec) : (postRecord r p).deadPorts = p.deadPorts := rfl
@[simp] theorem postRecord_masters (p : Pkg) (r : FaultRec) : (postRecord r p).masters = p.masters := rfl
@[simp] theorem postRecord_owed (p : Pkg) (r : FaultRec) : (postRecord r p).owed = p.owed := rfl
@[simp] theorem postRecord_timed (p : Pkg) (r : FaultRec) : (postRecord r p).timed = p.timed := rfl
@[simp] theorem postRecord_forwarded (p : Pkg) (r : FaultRec) : (postRecord r p).forwarded = p.forwarded := rfl
@[simp] theorem postRecord_hostq (p : Pkg) (r : FaultRec) : (postRecord r p).hostq = p.hostq := rfl
@[simp] theorem postRecord_atsWait (p : Pkg) (r : FaultRec) : (postRecord r p).atsWait = p.atsWait := rfl
@[simp] theorem postRecord_pendingVec (p : Pkg) (r : FaultRec) : (postRecord r p).pendingVec = p.pendingVec := rfl
@[simp] theorem postRecord_vectors (p : Pkg) (r : FaultRec) : (postRecord r p).vectors = p.vectors := rfl
@[simp] theorem postRecord_inReset (p : Pkg) (r : FaultRec) : (postRecord r p).inReset = p.inReset := rfl
@[simp] theorem postRecord_broken (p : Pkg) (r : FaultRec) : (postRecord r p).broken = p.broken := rfl
@[simp] theorem postRecord_tripped (p : Pkg) (r : FaultRec) : (postRecord r p).tripped = p.tripped := rfl
@[simp] theorem postRecord_slow (p : Pkg) (r : FaultRec) : (postRecord r p).slow = p.slow := rfl
@[simp] theorem postRecord_masked (p : Pkg) (r : FaultRec) : (postRecord r p).masked = p.masked := rfl
@[simp] theorem postRecord_flash (p : Pkg) (r : FaultRec) : (postRecord r p).flash = p.flash := rfl
@[simp] theorem postRecord_out (p : Pkg) (r : FaultRec) : (postRecord r p).out = p.out := rfl

/-! ### addEntry changes `ctx` alone -/

@[simp] theorem addEntry_micro (p : Pkg) (x : Nat) (e : Entry) : (addEntry x e p).micro = p.micro := rfl
@[simp] theorem addEntry_fire (p : Pkg) (x : Nat) (e : Entry) : (addEntry x e p).fire = p.fire := rfl
@[simp] theorem addEntry_focus (p : Pkg) (x : Nat) (e : Entry) : (addEntry x e p).focus = p.focus := rfl
@[simp] theorem addEntry_fresh (p : Pkg) (x : Nat) (e : Entry) : (addEntry x e p).fresh = p.fresh := rfl
@[simp] theorem addEntry_core (p : Pkg) (x : Nat) (e : Entry) : (addEntry x e p).core = p.core := rfl
@[simp] theorem addEntry_mem (p : Pkg) (x : Nat) (e : Entry) : (addEntry x e p).mem = p.mem := rfl
@[simp] theorem addEntry_side (p : Pkg) (x : Nat) (e : Entry) : (addEntry x e p).side = p.side := rfl
@[simp] theorem addEntry_badSector (p : Pkg) (x : Nat) (e : Entry) : (addEntry x e p).badSector = p.badSector := rfl
@[simp] theorem addEntry_poisonTbl (p : Pkg) (x : Nat) (e : Entry) : (addEntry x e p).poisonTbl = p.poisonTbl := rfl
@[simp] theorem addEntry_tlb (p : Pkg) (x : Nat) (e : Entry) : (addEntry x e p).tlb = p.tlb := rfl
@[simp] theorem addEntry_binds (p : Pkg) (x : Nat) (e : Entry) : (addEntry x e p).binds = p.binds := rfl
@[simp] theorem addEntry_replicas (p : Pkg) (x : Nat) (e : Entry) : (addEntry x e p).replicas = p.replicas := rfl
@[simp] theorem addEntry_lines (p : Pkg) (x : Nat) (e : Entry) : (addEntry x e p).lines = p.lines := rfl
@[simp] theorem addEntry_held (p : Pkg) (x : Nat) (e : Entry) : (addEntry x e p).held = p.held := rfl
@[simp] theorem addEntry_nextGroup (p : Pkg) (x : Nat) (e : Entry) : (addEntry x e p).nextGroup = p.nextGroup := rfl
@[simp] theorem addEntry_cmds (p : Pkg) (x : Nat) (e : Entry) : (addEntry x e p).cmds = p.cmds := rfl
@[simp] theorem addEntry_nextCmd (p : Pkg) (x : Nat) (e : Entry) : (addEntry x e p).nextCmd = p.nextCmd := rfl
@[simp] theorem addEntry_edges (p : Pkg) (x : Nat) (e : Entry) : (addEntry x e p).edges = p.edges := rfl
@[simp] theorem addEntry_notices (p : Pkg) (x : Nat) (e : Entry) : (addEntry x e p).notices = p.notices := rfl
@[simp] theorem addEntry_nextNotice (p : Pkg) (x : Nat) (e : Entry) : (addEntry x e p).nextNotice = p.nextNotice := rfl
@[simp] theorem addEntry_arrivals (p : Pkg) (x : Nat) (e : Entry) : (addEntry x e p).arrivals = p.arrivals := rfl
@[simp] theorem addEntry_shares (p : Pkg) (x : Nat) (e : Entry) : (addEntry x e p).shares = p.shares := rfl
@[simp] theorem addEntry_nextWrite (p : Pkg) (x : Nat) (e : Entry) : (addEntry x e p).nextWrite = p.nextWrite := rfl
@[simp] theorem addEntry_tiles (p : Pkg) (x : Nat) (e : Entry) : (addEntry x e p).tiles = p.tiles := rfl
@[simp] theorem addEntry_stencil (p : Pkg) (x : Nat) (e : Entry) : (addEntry x e p).stencil = p.stencil := rfl
@[simp] theorem addEntry_cbt (p : Pkg) (x : Nat) (e : Entry) : (addEntry x e p).cbt = p.cbt := rfl
@[simp] theorem addEntry_chans (p : Pkg) (x : Nat) (e : Entry) : (addEntry x e p).chans = p.chans := rfl
@[simp] theorem addEntry_nodes (p : Pkg) (x : Nat) (e : Entry) : (addEntry x e p).nodes = p.nodes := rfl
@[simp] theorem addEntry_nextOrder (p : Pkg) (x : Nat) (e : Entry) : (addEntry x e p).nextOrder = p.nextOrder := rfl
@[simp] theorem addEntry_taking (p : Pkg) (x : Nat) (e : Entry) : (addEntry x e p).taking = p.taking := rfl
@[simp] theorem addEntry_lastQueue (p : Pkg) (x : Nat) (e : Entry) : (addEntry x e p).lastQueue = p.lastQueue := rfl
@[simp] theorem addEntry_posted (p : Pkg) (x : Nat) (e : Entry) : (addEntry x e p).posted = p.posted := rfl
@[simp] theorem addEntry_groups (p : Pkg) (x : Nat) (e : Entry) : (addEntry x e p).groups = p.groups := rfl
@[simp] theorem addEntry_reg (p : Pkg) (x : Nat) (e : Entry) : (addEntry x e p).reg = p.reg := rfl
@[simp] theorem addEntry_images (p : Pkg) (x : Nat) (e : Entry) : (addEntry x e p).images = p.images := rfl
@[simp] theorem addEntry_early (p : Pkg) (x : Nat) (e : Entry) : (addEntry x e p).early = p.early := rfl
@[simp] theorem addEntry_faultq (p : Pkg) (x : Nat) (e : Entry) : (addEntry x e p).faultq = p.faultq := rfl
@[simp] theorem addEntry_logq (p : Pkg) (x : Nat) (e : Entry) : (addEntry x e p).logq = p.logq := rfl
@[simp] theorem addEntry_repairs (p : Pkg) (x : Nat) (e : Entry) : (addEntry x e p).repairs = p.repairs := rfl
@[simp] theorem addEntry_failed (p : Pkg) (x : Nat) (e : Entry) : (addEntry x e p).failed = p.failed := rfl
@[simp] theorem addEntry_counts (p : Pkg) (x : Nat) (e : Entry) : (addEntry x e p).counts = p.counts := rfl
@[simp] theorem addEntry_move (p : Pkg) (x : Nat) (e : Entry) : (addEntry x e p).move = p.move := rfl
@[simp] theorem addEntry_skim (p : Pkg) (x : Nat) (e : Entry) : (addEntry x e p).skim = p.skim := rfl
@[simp] theorem addEntry_deadPorts (p : Pkg) (x : Nat) (e : Entry) : (addEntry x e p).deadPorts = p.deadPorts := rfl
@[simp] theorem addEntry_masters (p : Pkg) (x : Nat) (e : Entry) : (addEntry x e p).masters = p.masters := rfl
@[simp] theorem addEntry_owed (p : Pkg) (x : Nat) (e : Entry) : (addEntry x e p).owed = p.owed := rfl
@[simp] theorem addEntry_timed (p : Pkg) (x : Nat) (e : Entry) : (addEntry x e p).timed = p.timed := rfl
@[simp] theorem addEntry_forwarded (p : Pkg) (x : Nat) (e : Entry) : (addEntry x e p).forwarded = p.forwarded := rfl
@[simp] theorem addEntry_hostq (p : Pkg) (x : Nat) (e : Entry) : (addEntry x e p).hostq = p.hostq := rfl
@[simp] theorem addEntry_atsWait (p : Pkg) (x : Nat) (e : Entry) : (addEntry x e p).atsWait = p.atsWait := rfl
@[simp] theorem addEntry_pendingVec (p : Pkg) (x : Nat) (e : Entry) : (addEntry x e p).pendingVec = p.pendingVec := rfl
@[simp] theorem addEntry_vectors (p : Pkg) (x : Nat) (e : Entry) : (addEntry x e p).vectors = p.vectors := rfl
@[simp] theorem addEntry_inReset (p : Pkg) (x : Nat) (e : Entry) : (addEntry x e p).inReset = p.inReset := rfl
@[simp] theorem addEntry_broken (p : Pkg) (x : Nat) (e : Entry) : (addEntry x e p).broken = p.broken := rfl
@[simp] theorem addEntry_tripped (p : Pkg) (x : Nat) (e : Entry) : (addEntry x e p).tripped = p.tripped := rfl
@[simp] theorem addEntry_slow (p : Pkg) (x : Nat) (e : Entry) : (addEntry x e p).slow = p.slow := rfl
@[simp] theorem addEntry_masked (p : Pkg) (x : Nat) (e : Entry) : (addEntry x e p).masked = p.masked := rfl
@[simp] theorem addEntry_flash (p : Pkg) (x : Nat) (e : Entry) : (addEntry x e p).flash = p.flash := rfl
@[simp] theorem addEntry_out (p : Pkg) (x : Nat) (e : Entry) : (addEntry x e p).out = p.out := rfl

/-! ### A context register written -/

@[simp] theorem Ctx.setCr_phase (c : Ctx) (code : Nat) (x : Word) : (c.setCr code x).phase = c.phase := rfl
@[simp] theorem Ctx.setCr_left (c : Ctx) (code : Nat) (x : Word) : (c.setCr code x).left = c.left := rfl
@[simp] theorem Ctx.setCr_pc (c : Ctx) (code : Nat) (x : Word) : (c.setCr code x).pc = c.pc := rfl
@[simp] theorem Ctx.setCr_s (c : Ctx) (code : Nat) (x : Word) : (c.setCr code x).s = c.s := rfl
@[simp] theorem Ctx.setCr_v (c : Ctx) (code : Nat) (x : Word) : (c.setCr code x).v = c.v := rfl
@[simp] theorem Ctx.setCr_p (c : Ctx) (code : Nat) (x : Word) : (c.setCr code x).p = c.p := rfl
@[simp] theorem Ctx.setCr_m (c : Ctx) (code : Nat) (x : Word) : (c.setCr code x).m = c.m := rfl
@[simp] theorem Ctx.setCr_rport (c : Ctx) (code : Nat) (x : Word) : (c.setCr code x).rport = c.rport := rfl
@[simp] theorem Ctx.setCr_vport (c : Ctx) (code : Nat) (x : Word) : (c.setCr code x).vport = c.vport := rfl
@[simp] theorem Ctx.setCr_tokens (c : Ctx) (code : Nat) (x : Word) : (c.setCr code x).tokens = c.tokens := rfl
@[simp] theorem Ctx.setCr_cursor (c : Ctx) (code : Nat) (x : Word) : (c.setCr code x).cursor = c.cursor := rfl
@[simp] theorem Ctx.setCr_seq (c : Ctx) (code : Nat) (x : Word) : (c.setCr code x).seq = c.seq := rfl
@[simp] theorem Ctx.setCr_tmpl (c : Ctx) (code : Nat) (x : Word) : (c.setCr code x).tmpl = c.tmpl := rfl
@[simp] theorem Ctx.setCr_flight (c : Ctx) (code : Nat) (x : Word) : (c.setCr code x).flight = c.flight := rfl
@[simp] theorem Ctx.setCr_nextOrder (c : Ctx) (code : Nat) (x : Word) : (c.setCr code x).nextOrder = c.nextOrder := rfl
@[simp] theorem Ctx.setCr_joins (c : Ctx) (code : Nat) (x : Word) : (c.setCr code x).joins = c.joins := rfl
@[simp] theorem Ctx.setCr_divHold (c : Ctx) (code : Nat) (x : Word) : (c.setCr code x).divHold = c.divHold := rfl
@[simp] theorem Ctx.setCr_sortHold (c : Ctx) (code : Nat) (x : Word) : (c.setCr code x).sortHold = c.sortHold := rfl
@[simp] theorem Ctx.setCr_spoiled (c : Ctx) (code : Nat) (x : Word) : (c.setCr code x).spoiled = c.spoiled := rfl
@[simp] theorem Ctx.setCr_check (c : Ctx) (code : Nat) (x : Word) : (c.setCr code x).check = c.check := rfl
@[simp] theorem Ctx.setCr_wake (c : Ctx) (code : Nat) (x : Word) : (c.setCr code x).wake = c.wake := rfl
@[simp] theorem Ctx.setCr_watchdog (c : Ctx) (code : Nat) (x : Word) : (c.setCr code x).watchdog = c.watchdog := rfl
@[simp] theorem Ctx.setCr_blockedAt (c : Ctx) (code : Nat) (x : Word) : (c.setCr code x).blockedAt = c.blockedAt := rfl
@[simp] theorem Ctx.setCr_waited (c : Ctx) (code : Nat) (x : Word) : (c.setCr code x).waited = c.waited := rfl
@[simp] theorem Ctx.setCr_cause (c : Ctx) (code : Nat) (x : Word) : (c.setCr code x).cause = c.cause := rfl
@[simp] theorem Ctx.setCr_queueFrozen (c : Ctx) (code : Nat) (x : Word) : (c.setCr code x).queueFrozen = c.queueFrozen := rfl
@[simp] theorem Ctx.setCr_window (c : Ctx) (code : Nat) (x : Word) : (c.setCr code x).window = c.window := rfl
@[simp] theorem Ctx.setCr_sysq (c : Ctx) (code : Nat) (x : Word) : (c.setCr code x).sysq = c.sysq := rfl
@[simp] theorem Ctx.setCr_node (c : Ctx) (code : Nat) (x : Word) : (c.setCr code x).node = c.node := rfl
@[simp] theorem Ctx.setCr_part (c : Ctx) (code : Nat) (x : Word) : (c.setCr code x).part = c.part := rfl
@[simp] theorem Ctx.setCr_asid (c : Ctx) (code : Nat) (x : Word) : (c.setCr code x).asid = c.asid := rfl
@[simp] theorem Ctx.setCr_smode (c : Ctx) (code : Nat) (x : Word) : (c.setCr code x).smode = c.smode := rfl
@[simp] theorem Ctx.setCr_unseen (c : Ctx) (code : Nat) (x : Word) : (c.setCr code x).unseen = c.unseen := rfl
@[simp] theorem Ctx.setCr_halted (c : Ctx) (code : Nat) (x : Word) : (c.setCr code x).halted = c.halted := rfl
@[simp] theorem Ctx.setCr_arrived (c : Ctx) (code : Nat) (x : Word) : (c.setCr code x).arrived = c.arrived := rfl
@[simp] theorem Ctx.setCr_fenceMark (c : Ctx) (code : Nat) (x : Word) : (c.setCr code x).fenceMark = c.fenceMark := rfl
@[simp] theorem Ctx.setCr_fenceWide (c : Ctx) (code : Nat) (x : Word) : (c.setCr code x).fenceWide = c.fenceWide := rfl

/-! ### A store performed (R153) -/

@[simp] theorem Core.apply_conveyed (n node x : Nat) (st : LStore) (k : Core) : (Core.apply n node x st k).conveyed = k.conveyed := rfl
@[simp] theorem Core.apply_last (n node x : Nat) (st : LStore) (k : Core) : (Core.apply n node x st k).last = k.last := rfl
@[simp] theorem Core.apply_running (n node x : Nat) (st : LStore) (k : Core) : (Core.apply n node x st k).running = k.running := rfl
@[simp] theorem Core.apply_quantum (n node x : Nat) (st : LStore) (k : Core) : (Core.apply n node x st k).quantum = k.quantum := rfl
@[simp] theorem Core.apply_queue (n node x : Nat) (st : LStore) (k : Core) : (Core.apply n node x st k).queue = k.queue := rfl
@[simp] theorem Core.apply_backlog (n node x : Nat) (st : LStore) (k : Core) : (Core.apply n node x st k).backlog = k.backlog := rfl
@[simp] theorem Core.apply_images (n node x : Nat) (st : LStore) (k : Core) : (Core.apply n node x st k).images = k.images := rfl
@[simp] theorem Core.apply_kickq (n node x : Nat) (st : LStore) (k : Core) : (Core.apply n node x st k).kickq = k.kickq := rfl
@[simp] theorem Core.apply_ringIdx (n node x : Nat) (st : LStore) (k : Core) : (Core.apply n node x st k).ringIdx = k.ringIdx := rfl
@[simp] theorem Core.apply_accepted (n node x : Nat) (st : LStore) (k : Core) : (Core.apply n node x st k).accepted = k.accepted := rfl

/-! ### What the accessors read after an update -/

@[simp] theorem Pkg.c_setC_self (p : Pkg) (x : Nat) (c : Ctx) : (p.setC x c).c x = c := NMap.get_set_self _ _ _
theorem Pkg.c_setC_of_ne (p : Pkg) {x y : Nat} (c : Ctx) (h : y ≠ x) : (p.setC x c).c y = p.c y := NMap.get_set_of_ne _ _ h
@[simp] theorem Pkg.c_modC_self (p : Pkg) (x : Nat) (f : Ctx → Ctx) : (p.modC x f).c x = f (p.c x) := NMap.get_set_self _ _ _
theorem Pkg.c_modC_of_ne (p : Pkg) {x y : Nat} (f : Ctx → Ctx) (h : y ≠ x) : (p.modC x f).c y = p.c y := NMap.get_set_of_ne _ _ h
@[simp] theorem Pkg.k_setK_self (p : Pkg) (n : Nat) (k : Core) : (p.setK n k).k n = k := NMap.get_set_self _ _ _
theorem Pkg.k_setK_of_ne (p : Pkg) {n m : Nat} (k : Core) (h : m ≠ n) : (p.setK n k).k m = p.k m := NMap.get_set_of_ne _ _ h
@[simp] theorem Pkg.k_modK_self (p : Pkg) (n : Nat) (f : Core → Core) : (p.modK n f).k n = f (p.k n) := NMap.get_set_self _ _ _
theorem Pkg.k_modK_of_ne (p : Pkg) {n m : Nat} (f : Core → Core) (h : m ≠ n) : (p.modK n f).k m = p.k m := NMap.get_set_of_ne _ _ h
@[simp] theorem Pkg.node_modNode_self (p : Pkg) (id : Nat) (f : Node → Node) : (p.modNode id f).node id = f (p.node id) := NMap.get_set_self _ _ _
theorem Pkg.node_modNode_of_ne (p : Pkg) {id n : Nat} (f : Node → Node) (h : n ≠ id) : (p.modNode id f).node n = p.node n :=
  NMap.get_set_of_ne _ _ h
@[simp] theorem Pkg.cmd_modCmd_self (p : Pkg) (id : Nat) (f : Command → Command) : (p.modCmd id f).cmd id = f (p.cmd id) := NMap.get_set_self _ _ _
theorem Pkg.cmd_modCmd_of_ne (p : Pkg) {id n : Nat} (f : Command → Command) (h : n ≠ id) : (p.modCmd id f).cmd n = p.cmd n :=
  NMap.get_set_of_ne _ _ h
@[simp] theorem Pkg.chan_modChan_self (p : Pkg) (ch : Nat) (f : Channel → Channel) : (p.modChan ch f).chans.get ch = f (p.chans.get ch) :=
  NMap.get_set_self _ _ _
theorem Pkg.chan_modChan_of_ne (p : Pkg) {ch n : Nat} (f : Channel → Channel) (h : n ≠ ch) : (p.modChan ch f).chans.get n = p.chans.get n :=
  NMap.get_set_of_ne _ _ h
theorem Pkg.regv_setReg_self (p : Pkg) (a v : Nat) : (p.setReg a v).regv a = v % 2 ^ 64 := by
  simp [Pkg.regv, Pkg.setReg, BitVec.toNat_ofNat]
theorem Pkg.regv_setReg_of_ne (p : Pkg) {a b : Nat} (v : Nat) (h : b ≠ a) : (p.setReg a v).regv b = p.regv b := by
  simp [Pkg.regv, Pkg.setReg, NMap.get_set_of_ne _ _ h]
theorem Pkg.regv_setRegBits_of_ne (p : Pkg) {a b : Nat} (hi lo v : Nat) (h : b ≠ a) : (p.setRegBits a hi lo v).regv b = p.regv b :=
  Pkg.regv_setReg_of_ne p _ h
theorem Pkg.regv_lt (p : Pkg) (a : Nat) : p.regv a < 2 ^ 64 := (p.reg.get a).isLt
@[simp] theorem Ctx.cr_setCr_self (c : Ctx) (code : Nat) (x : Word) : (c.setCr code x).cr code = x &&& cregMask code := NMap.get_set_self _ _ _
theorem Ctx.cr_setCr_of_ne (c : Ctx) {code d : Nat} (x : Word) (h : d ≠ code) : (c.setCr code x).cr d = c.cr d := NMap.get_set_of_ne _ _ h

/-! The accessors see the fields alone. -/

@[simp] theorem Pkg.setK_read_c (p : Pkg) (n : Nat) (k : Core) (y : Nat) : Pkg.c (p.setK n k) y = p.c y := rfl
@[simp] theorem Pkg.modK_read_c (p : Pkg) (n : Nat) (f : Core → Core) (y : Nat) : Pkg.c (p.modK n f) y = p.c y := rfl
@[simp] theorem Pkg.drawn_read_c (p : Pkg) (n : Nat) (y : Nat) : Pkg.c (p.drawn n) y = p.c y := rfl
@[simp] theorem Pkg.push_read_c (p : Pkg) (ms : List Micro) (y : Nat) : Pkg.c (p.push ms) y = p.c y := rfl
@[simp] theorem Pkg.setReg_read_c (p : Pkg) (a v : Nat) (y : Nat) : Pkg.c (p.setReg a v) y = p.c y := rfl
@[simp] theorem Pkg.setRegBits_read_c (p : Pkg) (a hi lo v : Nat) (y : Nat) : Pkg.c (p.setRegBits a hi lo v) y = p.c y := rfl
@[simp] theorem Pkg.modNode_read_c (p : Pkg) (id : Nat) (f : Node → Node) (y : Nat) : Pkg.c (p.modNode id f) y = p.c y := rfl
@[simp] theorem Pkg.modCmd_read_c (p : Pkg) (id : Nat) (f : Command → Command) (y : Nat) : Pkg.c (p.modCmd id f) y = p.c y := rfl
@[simp] theorem Pkg.modChan_read_c (p : Pkg) (ch : Nat) (f : Channel → Channel) (y : Nat) : Pkg.c (p.modChan ch f) y = p.c y := rfl
@[simp] theorem emit_read_c (p : Pkg) (o : OutMsg) (y : Nat) : Pkg.c (emit o p) y = p.c y := rfl
@[simp] theorem logEvent_read_c (p : Pkg) (e : LogEvent) (y : Nat) : Pkg.c (logEvent e p) y = p.c y := rfl
@[simp] theorem postRecord_read_c (p : Pkg) (r : FaultRec) (y : Nat) : Pkg.c (postRecord r p) y = p.c y := rfl
@[simp] theorem Pkg.setC_read_k (p : Pkg) (x : Nat) (c : Ctx) (m : Nat) : Pkg.k (p.setC x c) m = p.k m := rfl
@[simp] theorem Pkg.modC_read_k (p : Pkg) (x : Nat) (f : Ctx → Ctx) (m : Nat) : Pkg.k (p.modC x f) m = p.k m := rfl
@[simp] theorem Pkg.drawn_read_k (p : Pkg) (n : Nat) (m : Nat) : Pkg.k (p.drawn n) m = p.k m := rfl
@[simp] theorem Pkg.push_read_k (p : Pkg) (ms : List Micro) (m : Nat) : Pkg.k (p.push ms) m = p.k m := rfl
@[simp] theorem Pkg.setReg_read_k (p : Pkg) (a v : Nat) (m : Nat) : Pkg.k (p.setReg a v) m = p.k m := rfl
@[simp] theorem Pkg.setRegBits_read_k (p : Pkg) (a hi lo v : Nat) (m : Nat) : Pkg.k (p.setRegBits a hi lo v) m = p.k m := rfl
@[simp] theorem Pkg.modNode_read_k (p : Pkg) (id : Nat) (f : Node → Node) (m : Nat) : Pkg.k (p.modNode id f) m = p.k m := rfl
@[simp] theorem Pkg.modCmd_read_k (p : Pkg) (id : Nat) (f : Command → Command) (m : Nat) : Pkg.k (p.modCmd id f) m = p.k m := rfl
@[simp] theorem Pkg.modChan_read_k (p : Pkg) (ch : Nat) (f : Channel → Channel) (m : Nat) : Pkg.k (p.modChan ch f) m = p.k m := rfl
@[simp] theorem emit_read_k (p : Pkg) (o : OutMsg) (m : Nat) : Pkg.k (emit o p) m = p.k m := rfl
@[simp] theorem logEvent_read_k (p : Pkg) (e : LogEvent) (m : Nat) : Pkg.k (logEvent e p) m = p.k m := rfl
@[simp] theorem postRecord_read_k (p : Pkg) (r : FaultRec) (m : Nat) : Pkg.k (postRecord r p) m = p.k m := rfl
@[simp] theorem Pkg.setC_read_regv (p : Pkg) (x : Nat) (c : Ctx) (b : Nat) : Pkg.regv (p.setC x c) b = p.regv b := rfl
@[simp] theorem Pkg.modC_read_regv (p : Pkg) (x : Nat) (f : Ctx → Ctx) (b : Nat) : Pkg.regv (p.modC x f) b = p.regv b := rfl
@[simp] theorem Pkg.setK_read_regv (p : Pkg) (n : Nat) (k : Core) (b : Nat) : Pkg.regv (p.setK n k) b = p.regv b := rfl
@[simp] theorem Pkg.modK_read_regv (p : Pkg) (n : Nat) (f : Core → Core) (b : Nat) : Pkg.regv (p.modK n f) b = p.regv b := rfl
@[simp] theorem Pkg.drawn_read_regv (p : Pkg) (n : Nat) (b : Nat) : Pkg.regv (p.drawn n) b = p.regv b := rfl
@[simp] theorem Pkg.push_read_regv (p : Pkg) (ms : List Micro) (b : Nat) : Pkg.regv (p.push ms) b = p.regv b := rfl
@[simp] theorem Pkg.modNode_read_regv (p : Pkg) (id : Nat) (f : Node → Node) (b : Nat) : Pkg.regv (p.modNode id f) b = p.regv b := rfl
@[simp] theorem Pkg.modCmd_read_regv (p : Pkg) (id : Nat) (f : Command → Command) (b : Nat) : Pkg.regv (p.modCmd id f) b = p.regv b := rfl
@[simp] theorem Pkg.modChan_read_regv (p : Pkg) (ch : Nat) (f : Channel → Channel) (b : Nat) : Pkg.regv (p.modChan ch f) b = p.regv b := rfl
@[simp] theorem emit_read_regv (p : Pkg) (o : OutMsg) (b : Nat) : Pkg.regv (emit o p) b = p.regv b := rfl
@[simp] theorem logEvent_read_regv (p : Pkg) (e : LogEvent) (b : Nat) : Pkg.regv (logEvent e p) b = p.regv b := rfl
@[simp] theorem postRecord_read_regv (p : Pkg) (r : FaultRec) (b : Nat) : Pkg.regv (postRecord r p) b = p.regv b := rfl
@[simp] theorem Pkg.setC_read_node (p : Pkg) (x : Nat) (c : Ctx) (m : Nat) : Pkg.node (p.setC x c) m = p.node m := rfl
@[simp] theorem Pkg.modC_read_node (p : Pkg) (x : Nat) (f : Ctx → Ctx) (m : Nat) : Pkg.node (p.modC x f) m = p.node m := rfl
@[simp] theorem Pkg.setK_read_node (p : Pkg) (n : Nat) (k : Core) (m : Nat) : Pkg.node (p.setK n k) m = p.node m := rfl
@[simp] theorem Pkg.modK_read_node (p : Pkg) (n : Nat) (f : Core → Core) (m : Nat) : Pkg.node (p.modK n f) m = p.node m := rfl
@[simp] theorem Pkg.drawn_read_node (p : Pkg) (n : Nat) (m : Nat) : Pkg.node (p.drawn n) m = p.node m := rfl
@[simp] theorem Pkg.push_read_node (p : Pkg) (ms : List Micro) (m : Nat) : Pkg.node (p.push ms) m = p.node m := rfl
@[simp] theorem Pkg.setReg_read_node (p : Pkg) (a v : Nat) (m : Nat) : Pkg.node (p.setReg a v) m = p.node m := rfl
@[simp] theorem Pkg.setRegBits_read_node (p : Pkg) (a hi lo v : Nat) (m : Nat) : Pkg.node (p.setRegBits a hi lo v) m = p.node m := rfl
@[simp] theorem Pkg.modCmd_read_node (p : Pkg) (id : Nat) (f : Command → Command) (m : Nat) : Pkg.node (p.modCmd id f) m = p.node m := rfl
@[simp] theorem Pkg.modChan_read_node (p : Pkg) (ch : Nat) (f : Channel → Channel) (m : Nat) : Pkg.node (p.modChan ch f) m = p.node m := rfl
@[simp] theorem emit_read_node (p : Pkg) (o : OutMsg) (m : Nat) : Pkg.node (emit o p) m = p.node m := rfl
@[simp] theorem logEvent_read_node (p : Pkg) (e : LogEvent) (m : Nat) : Pkg.node (logEvent e p) m = p.node m := rfl
@[simp] theorem postRecord_read_node (p : Pkg) (r : FaultRec) (m : Nat) : Pkg.node (postRecord r p) m = p.node m := rfl
@[simp] theorem Pkg.setC_read_cmd (p : Pkg) (x : Nat) (c : Ctx) (m : Nat) : Pkg.cmd (p.setC x c) m = p.cmd m := rfl
@[simp] theorem Pkg.modC_read_cmd (p : Pkg) (x : Nat) (f : Ctx → Ctx) (m : Nat) : Pkg.cmd (p.modC x f) m = p.cmd m := rfl
@[simp] theorem Pkg.setK_read_cmd (p : Pkg) (n : Nat) (k : Core) (m : Nat) : Pkg.cmd (p.setK n k) m = p.cmd m := rfl
@[simp] theorem Pkg.modK_read_cmd (p : Pkg) (n : Nat) (f : Core → Core) (m : Nat) : Pkg.cmd (p.modK n f) m = p.cmd m := rfl
@[simp] theorem Pkg.drawn_read_cmd (p : Pkg) (n : Nat) (m : Nat) : Pkg.cmd (p.drawn n) m = p.cmd m := rfl
@[simp] theorem Pkg.push_read_cmd (p : Pkg) (ms : List Micro) (m : Nat) : Pkg.cmd (p.push ms) m = p.cmd m := rfl
@[simp] theorem Pkg.setReg_read_cmd (p : Pkg) (a v : Nat) (m : Nat) : Pkg.cmd (p.setReg a v) m = p.cmd m := rfl
@[simp] theorem Pkg.setRegBits_read_cmd (p : Pkg) (a hi lo v : Nat) (m : Nat) : Pkg.cmd (p.setRegBits a hi lo v) m = p.cmd m := rfl
@[simp] theorem Pkg.modNode_read_cmd (p : Pkg) (id : Nat) (f : Node → Node) (m : Nat) : Pkg.cmd (p.modNode id f) m = p.cmd m := rfl
@[simp] theorem Pkg.modChan_read_cmd (p : Pkg) (ch : Nat) (f : Channel → Channel) (m : Nat) : Pkg.cmd (p.modChan ch f) m = p.cmd m := rfl
@[simp] theorem emit_read_cmd (p : Pkg) (o : OutMsg) (m : Nat) : Pkg.cmd (emit o p) m = p.cmd m := rfl
@[simp] theorem logEvent_read_cmd (p : Pkg) (e : LogEvent) (m : Nat) : Pkg.cmd (logEvent e p) m = p.cmd m := rfl
@[simp] theorem postRecord_read_cmd (p : Pkg) (r : FaultRec) (m : Nat) : Pkg.cmd (postRecord r p) m = p.cmd m := rfl
@[simp] theorem Pkg.setC_read_live (p : Pkg) (x : Nat) (c : Ctx) (m : Nat) : Pkg.live (p.setC x c) m = p.live m := rfl
@[simp] theorem Pkg.modC_read_live (p : Pkg) (x : Nat) (f : Ctx → Ctx) (m : Nat) : Pkg.live (p.modC x f) m = p.live m := rfl
@[simp] theorem Pkg.setK_read_live (p : Pkg) (n : Nat) (k : Core) (m : Nat) : Pkg.live (p.setK n k) m = p.live m := rfl
@[simp] theorem Pkg.modK_read_live (p : Pkg) (n : Nat) (f : Core → Core) (m : Nat) : Pkg.live (p.modK n f) m = p.live m := rfl
@[simp] theorem Pkg.drawn_read_live (p : Pkg) (n : Nat) (m : Nat) : Pkg.live (p.drawn n) m = p.live m := rfl
@[simp] theorem Pkg.push_read_live (p : Pkg) (ms : List Micro) (m : Nat) : Pkg.live (p.push ms) m = p.live m := rfl
@[simp] theorem Pkg.setReg_read_live (p : Pkg) (a v : Nat) (m : Nat) : Pkg.live (p.setReg a v) m = p.live m := rfl
@[simp] theorem Pkg.setRegBits_read_live (p : Pkg) (a hi lo v : Nat) (m : Nat) : Pkg.live (p.setRegBits a hi lo v) m = p.live m := rfl
@[simp] theorem Pkg.modCmd_read_live (p : Pkg) (id : Nat) (f : Command → Command) (m : Nat) : Pkg.live (p.modCmd id f) m = p.live m := rfl
@[simp] theorem Pkg.modChan_read_live (p : Pkg) (ch : Nat) (f : Channel → Channel) (m : Nat) : Pkg.live (p.modChan ch f) m = p.live m := rfl
@[simp] theorem emit_read_live (p : Pkg) (o : OutMsg) (m : Nat) : Pkg.live (emit o p) m = p.live m := rfl
@[simp] theorem logEvent_read_live (p : Pkg) (e : LogEvent) (m : Nat) : Pkg.live (logEvent e p) m = p.live m := rfl
@[simp] theorem postRecord_read_live (p : Pkg) (r : FaultRec) (m : Nat) : Pkg.live (postRecord r p) m = p.live m := rfl
@[simp] theorem Pkg.setC_read_present (p : Pkg) (x : Nat) (c : Ctx) (m : Nat) : Pkg.present (p.setC x c) m = p.present m := rfl
@[simp] theorem Pkg.modC_read_present (p : Pkg) (x : Nat) (f : Ctx → Ctx) (m : Nat) : Pkg.present (p.modC x f) m = p.present m := rfl
@[simp] theorem Pkg.setK_read_present (p : Pkg) (n : Nat) (k : Core) (m : Nat) : Pkg.present (p.setK n k) m = p.present m := rfl
@[simp] theorem Pkg.modK_read_present (p : Pkg) (n : Nat) (f : Core → Core) (m : Nat) : Pkg.present (p.modK n f) m = p.present m := rfl
@[simp] theorem Pkg.drawn_read_present (p : Pkg) (n : Nat) (m : Nat) : Pkg.present (p.drawn n) m = p.present m := rfl
@[simp] theorem Pkg.push_read_present (p : Pkg) (ms : List Micro) (m : Nat) : Pkg.present (p.push ms) m = p.present m := rfl
@[simp] theorem Pkg.setReg_read_present (p : Pkg) (a v : Nat) (m : Nat) : Pkg.present (p.setReg a v) m = p.present m := rfl
@[simp] theorem Pkg.setRegBits_read_present (p : Pkg) (a hi lo v : Nat) (m : Nat) : Pkg.present (p.setRegBits a hi lo v) m = p.present m := rfl
@[simp] theorem Pkg.modNode_read_present (p : Pkg) (id : Nat) (f : Node → Node) (m : Nat) : Pkg.present (p.modNode id f) m = p.present m := rfl
@[simp] theorem Pkg.modChan_read_present (p : Pkg) (ch : Nat) (f : Channel → Channel) (m : Nat) : Pkg.present (p.modChan ch f) m = p.present m := rfl
@[simp] theorem emit_read_present (p : Pkg) (o : OutMsg) (m : Nat) : Pkg.present (emit o p) m = p.present m := rfl
@[simp] theorem logEvent_read_present (p : Pkg) (e : LogEvent) (m : Nat) : Pkg.present (logEvent e p) m = p.present m := rfl
@[simp] theorem postRecord_read_present (p : Pkg) (r : FaultRec) (m : Nat) : Pkg.present (postRecord r p) m = p.present m := rfl

end Sys2Proof.Machine
end

