-- ==== Sys2Proof/Laws/Ops.lean ====
section
/-! SUPPORT. Laws of the shared operations: bit fields of registers, bytes and lanes, what is left alone, stores and their
performance, entries in flight, a command's accesses. -/

namespace Sys2Proof

/-! ## Bit fields -/

theorem bits_eq (x hi lo : Nat) : bits x hi lo = x / 2 ^ lo % 2 ^ (hi + 1 - lo) := by
  simp [bits, Nat.shiftRight_eq_div_pow]

theorem bits_lt (x hi lo : Nat) : bits x hi lo < 2 ^ (hi + 1 - lo) := Nat.mod_lt _ (Nat.two_pow_pos _)

theorem testBit_bits (x hi lo i : Nat) : (bits x hi lo).testBit i = (decide (i < hi + 1 - lo) && x.testBit (lo + i)) := by
  rw [bits_eq, Nat.testBit_mod_two_pow, Nat.testBit_div_two_pow, Nat.add_comm lo]

/-! ## Bytes and lanes -/

theorem digits_lt (w : Nat) (ds : List Nat) : digits w ds < 2 ^ (w * ds.length) := by
  induction ds with
  | nil => simp [digits]
  | cons d ds ih =>
    rw [digits, List.length_cons, Nat.mul_add, Nat.mul_one, Nat.add_comm (w * ds.length), Nat.pow_add]
    have h : d % 2 ^ w < 2 ^ w := Nat.mod_lt _ (Nat.two_pow_pos w)
    have : 2 ^ w * digits w ds + 2 ^ w ≤ 2 ^ w * 2 ^ (w * ds.length) := by
      rw [← Nat.mul_succ]; exact Nat.mul_le_mul_left _ ih
    omega

/-- Digit j of a number written in digits. -/
theorem digit_digits (w j : Nat) (ds : List Nat) : digits w ds / 2 ^ (w * j) % 2 ^ w = ds.getD j 0 % 2 ^ w := by
  induction ds generalizing j with
  | nil => simp [digits]
  | cons d ds ih =>
    have hd : d % 2 ^ w < 2 ^ w := Nat.mod_lt _ (Nat.two_pow_pos w)
    cases j with
    | zero => simp [digits, Nat.add_mul_mod_self_left]
    | succ j =>
      rw [digits, Nat.mul_add, Nat.mul_one, Nat.add_comm (w * j), Nat.pow_add, ← Nat.div_div_eq_div_mul,
        Nat.add_mul_div_left _ _ (Nat.two_pow_pos w), Nat.div_eq_of_lt hd, Nat.zero_add, ih]
      simp

theorem digits_append (w : Nat) (xs ys : List Nat) : digits w (xs ++ ys) = digits w xs + 2 ^ (w * xs.length) * digits w ys := by
  induction xs with
  | nil => simp [digits]
  | cons x xs ih =>
    rw [List.cons_append, digits, ih, digits, List.length_cons, Nat.mul_add w, Nat.mul_one, Nat.add_comm (w * xs.length), Nat.pow_add,
      Nat.mul_add, Nat.mul_assoc, Nat.add_assoc]

/-- A lane of a vector built from lanes. -/
theorem Vec.lane_ofLanes (ls : List Lane) {j : Nat} (h : j < 128) : (Vec.ofLanes ls).lane j = ls.getD j 0 := by
  apply BitVec.eq_of_toNat_eq
  have key : ∀ N k x : Nat, N = 32 * j + (32 + k) → x % 2 ^ N / 2 ^ (32 * j) % 2 ^ 32 = x / 2 ^ (32 * j) % 2 ^ 32 := by
    rintro N k x rfl
    rw [Nat.pow_add, Nat.mod_mul_right_div_self, Nat.mod_mod_of_dvd]
    exact Nat.pow_dvd_pow 2 (by omega)
  simp only [Vec.lane, Vec.ofLanes, BitVec.extractLsb'_toNat, BitVec.toNat_ofNat, Nat.shiftRight_eq_div_pow]
  rw [key _ (4064 - 32 * j) _ (by omega), digit_digits]
  by_cases hj : j < ls.length
  · simp [List.getD_eq_getElem?_getD, hj, Nat.mod_eq_of_lt (ls[j]).isLt]
  · simp [List.getD_eq_getElem?_getD, hj]

@[simp] theorem Vec.lane_tab (f : Nat → Lane) {j : Nat} (h : j < 128) : (Vec.tab f).lane j = f j := by
  rw [Vec.tab, Vec.lane_ofLanes _ h]; simp [h]

@[simp] theorem bytesOf_length (n x : Nat) : (bytesOf n x).length = n := by simp [bytesOf]

theorem bytesOf_getD (n x i : Nat) (h : i < n) : (bytesOf n x).getD i 0 = BitVec.ofNat 8 (x / 256 ^ i) := by
  simp [bytesOf, h, Nat.shiftRight_eq_div_pow, Nat.pow_mul]

theorem natOf_lt (bs : List Byte) : natOf bs < 2 ^ (8 * bs.length) := by
  simpa [natOf] using digits_lt 8 (bs.map BitVec.toNat)

/-- The bytes of the number that bytes stand for are these bytes (R3). -/
theorem bytesOf_natOf (bs : List Byte) : bytesOf bs.length (natOf bs) = bs := by
  apply List.ext_getElem (by simp)
  intro i h1 h2
  have := digit_digits 8 i (bs.map BitVec.toNat)
  simp only [bytesOf, List.getElem_map, List.getElem_range, Nat.shiftRight_eq_div_pow, natOf]
  apply BitVec.eq_of_toNat_eq
  rw [BitVec.toNat_ofNat, this]
  simp [List.getD_eq_getElem?_getD, h2, Nat.mod_eq_of_lt (bs[i]).isLt]

/-- The number that the low bytes of a number stand for (R3). -/
theorem natOf_bytesOf (n x : Nat) : natOf (bytesOf n x) = x % 2 ^ (8 * n) := by
  induction n generalizing x with
  | zero => simp [bytesOf, natOf, digits, Nat.mod_one]
  | succ n ih =>
    have : bytesOf (n + 1) x = BitVec.ofNat 8 x :: bytesOf n (x / 256) := by
      simp only [bytesOf, List.range_succ_eq_map, List.map_cons, List.map_map, Nat.mul_zero, Nat.shiftRight_zero]
      congr 1
      apply List.map_congr_left
      intro i _
      simp only [Function.comp, Nat.shiftRight_eq_div_pow, Nat.div_div_eq_div_mul]
      congr 2
      rw [show 8 * i.succ = 8 + 8 * i by omega, Nat.pow_add]
    rw [this]
    change BitVec.toNat (BitVec.ofNat 8 x) % 2 ^ 8 + 2 ^ 8 * natOf (bytesOf n (x / 256)) = _
    rw [ih, BitVec.toNat_ofNat, Nat.mod_mod, show 8 * (n + 1) = 8 + 8 * n by omega, Nat.pow_add, Nat.mod_mul]

namespace Machine

/-- A register with a field replaced: the field's bits are the new ones, every other bit is as it was. -/
theorem testBit_setBits (x v i : Nat) {hi lo : Nat} (h : lo ≤ hi + 1) :
    (setBits x hi lo v).testBit i = if lo ≤ i ∧ i < hi + 1 then v.testBit (i - lo) else x.testBit i := by
  obtain ⟨w, hw⟩ : ∃ w, hi + 1 = lo + w := ⟨hi + 1 - lo, by omega⟩
  have hx : x = 2 ^ lo * (2 ^ w * (x / 2 ^ lo / 2 ^ w) + x / 2 ^ lo % 2 ^ w) + x % 2 ^ lo := by
    rw [Nat.div_add_mod, Nat.div_add_mod]
  have hs : setBits x hi lo v = 2 ^ lo * (2 ^ w * (x / 2 ^ lo / 2 ^ w) + v % 2 ^ w) + x % 2 ^ lo := by
    unfold setBits
    rw [bits_eq]
    have e : hi + 1 - lo = w := by omega
    rw [e]
    conv => lhs; lhs; lhs; rw [hx]
    generalize x / 2 ^ lo / 2 ^ w = B
    generalize x / 2 ^ lo % 2 ^ w = M
    generalize x % 2 ^ lo = A
    generalize v % 2 ^ w = V
    have : 2 ^ lo * (2 ^ w * B + M) + A - M * 2 ^ lo = 2 ^ lo * (2 ^ w * B) + A := by
      rw [Nat.mul_add, Nat.mul_comm M]; omega
    rw [this, Nat.mul_add, Nat.mul_comm V]; omega
  rw [hs, Nat.testBit_two_pow_mul_add _ (Nat.mod_lt _ (Nat.two_pow_pos lo))]
  by_cases h1 : i < lo
  · simp [h1, Nat.testBit_mod_two_pow, Nat.not_le.2 h1]
  · rw [if_neg h1, Nat.testBit_two_pow_mul_add _ (Nat.mod_lt _ (Nat.two_pow_pos w))]
    by_cases h2 : i - lo < w
    · have h3 : lo ≤ i ∧ i < hi + 1 := by omega
      simp [h2, h3, Nat.testBit_mod_two_pow]
    · have h3 : ¬(lo ≤ i ∧ i < hi + 1) := by omega
      rw [if_neg h2, if_neg h3, Nat.testBit_div_two_pow, Nat.testBit_div_two_pow]
      congr 1; omega

theorem bits_setBits_self (x v : Nat) {hi lo : Nat} (h : lo ≤ hi + 1) : bits (setBits x hi lo v) hi lo = v % 2 ^ (hi + 1 - lo) := by
  apply Nat.eq_of_testBit_eq
  intro i
  rw [testBit_bits, testBit_setBits _ _ _ h, Nat.testBit_mod_two_pow]
  by_cases h1 : i < hi + 1 - lo
  · have : lo ≤ lo + i ∧ lo + i < hi + 1 := by omega
    simp [h1, this]
  · simp [h1]

/-- A field apart from the one replaced is as it was. -/
theorem bits_setBits_of_disjoint (x v : Nat) {hi lo hi' lo' : Nat} (h : lo ≤ hi + 1) (d : hi' < lo ∨ hi < lo') :
    bits (setBits x hi lo v) hi' lo' = bits x hi' lo' := by
  apply Nat.eq_of_testBit_eq
  intro i
  rw [testBit_bits, testBit_bits, testBit_setBits _ _ _ h]
  by_cases h1 : i < hi' + 1 - lo'
  · have : ¬(lo ≤ lo' + i ∧ lo' + i < hi + 1) := by omega
    rw [if_neg this]
  · simp [h1]

theorem setBits_lt {x v hi lo n : Nat} (h : lo ≤ hi + 1) (hn : hi < n) (hx : x < 2 ^ n) : setBits x hi lo v < 2 ^ n := by
  apply Nat.lt_pow_two_of_testBit
  intro i hi'
  rw [testBit_setBits _ _ _ h, if_neg (by omega)]
  exact Nat.testBit_lt_two_pow (Nat.lt_of_lt_of_le hx (Nat.pow_le_pow_right (by omega) hi'))

theorem Pkg.regv_setRegBits_self (p : Pkg) (a v : Nat) {hi lo : Nat} (h : lo ≤ hi + 1) (hn : hi < 64) :
    (p.setRegBits a hi lo v).regv a = setBits (p.regv a) hi lo v := by
  rw [Pkg.setRegBits, Pkg.regv_setReg_self, Nat.mod_eq_of_lt (setBits_lt h hn (p.regv_lt a))]

end Machine

open Machine

/-! ## What is left alone -/

theorem SameStorage.refl (p : Pkg) : SameStorage p p := ⟨fun _ => rfl, fun _ => rfl, fun _ _ => rfl, fun _ _ => rfl, fun _ _ => rfl, fun _ _ => rfl⟩

theorem SameStorage.trans {p q r : Pkg} (h : SameStorage p q) (k : SameStorage q r) : SameStorage p r :=
  ⟨fun a => (k.mem a).trans (h.mem a), fun a => (k.side a).trans (h.side a), fun n a => (k.spad n a).trans (h.spad n a),
   fun n a => (k.tags n a).trans (h.tags n a), fun n a => (k.acc n a).trans (h.acc n a), fun n a => (k.lines n a).trans (h.lines n a)⟩

/-- Packages that agree on memory, side slots and cores agree on every byte. -/
theorem SameStorage.of_eq {p q : Pkg} (hm : q.mem = p.mem) (hs : q.side = p.side) (hc : q.core = p.core) : SameStorage p q := by
  constructor <;> intros <;> simp [Pkg.k, hm, hs, hc]

/-- A core changed in nothing but its scheduling state, its images, its kicks and its ring. -/
theorem SameStorage.modK (p : Pkg) (n : Nat) (f : Core → Core) (h : ∀ k, (f k).spad = k.spad ∧ (f k).tags = k.tags ∧ (f k).acc = k.acc ∧
    (f k).lines = k.lines) : SameStorage p (p.modK n f) := by
  have key : ∀ m, ((p.modK n f).k m).spad = (p.k m).spad ∧ ((p.modK n f).k m).tags = (p.k m).tags ∧
      ((p.modK n f).k m).acc = (p.k m).acc ∧ ((p.modK n f).k m).lines = (p.k m).lines := by
    intro m
    by_cases hm : m = n
    · subst hm; simpa using h (p.k m)
    · simp [Pkg.k_modK_of_ne p f hm]
  exact ⟨fun _ => rfl, fun _ => rfl, fun m a => by rw [(key m).1], fun m a => by rw [(key m).2.1], fun m a => by rw [(key m).2.2.1],
    fun m a => by rw [(key m).2.2.2]⟩

theorem SameRegs.refl (c : Ctx) : SameRegs c c :=
  ⟨fun _ => rfl, fun _ => rfl, rfl, fun _ => rfl, fun _ => rfl, fun _ => rfl, fun _ => rfl, fun _ => rfl, fun _ => rfl⟩

theorem SameRegs.trans {c d e : Ctx} (h : SameRegs c d) (k : SameRegs d e) : SameRegs c e :=
  ⟨fun n => (k.s n).trans (h.s n), fun n => (k.v n).trans (h.v n), k.p.trans h.p, fun n => (k.m n).trans (h.m n),
   fun n => (k.creg n).trans (h.creg n), fun n => (k.rport n).trans (h.rport n), fun n => (k.vport n).trans (h.vport n),
   fun n => (k.tokens n).trans (h.tokens n), fun n => (k.tmpl n).trans (h.tmpl n)⟩

namespace Machine

@[simp] theorem State.put_eq (s : State) (p : Pkg) : s.put p = .next { s with pkg := p } := rfl

/-! ## Entries in flight (R43) -/

@[simp] theorem addEntry_c_self (x : Nat) (e : Entry) (p : Pkg) :
    (addEntry x e p).c x = { p.c x with flight := (p.c x).flight ++ [{ e with order := (p.c x).nextOrder }],
                                         nextOrder := (p.c x).nextOrder + 1 } := NMap.get_set_self _ _ _

theorem addEntry_c_of_ne {x y : Nat} (e : Entry) (p : Pkg) (h : y ≠ x) : (addEntry x e p).c y = p.c y := NMap.get_set_of_ne _ _ h

/-- A new entry in flight is all that a trigger which adds one changes. -/
theorem inFlight_only (x : Nat) (e : Entry) (s : State) : OnlyFlight x s (inFlight x e s) where
  env := rfl
  storage := .of_eq rfl rfl rfl
  others := fun _ h => addEntry_c_of_ne e s.pkg h
  regs := by constructor <;> simp [inFlight, Ctx.cr]
  pc := by simp [inFlight]
  phase := by simp [inFlight]
  cores := rfl
  cmds := rfl
  nodes := rfl
  reg := rfl
  records := rfl
  held := rfl

/-- What `deliver` puts in flight, in the terms of the claims. -/
theorem deliver_eq (x unit op l : Nat) (r : Option Val) (h : Option Vec) (flags : Nat) (s : State) :
    s.put (deliver x unit op l r h flags s.pkg) = .next (inFlight x (landing unit op l r h (BitVec.ofNat 32 flags)) s) := rfl

/-! ## Stores performed (R153) -/

theorem Core.get_spad_apply (n node x : Nat) (st : LStore) (k : Core) (a : Nat) :
    (Core.apply n node x st k).spad.get a = ((st.bytes.reverse.find? fun c => c.1 == a).map (·.2)).getD (k.spad.get a) :=
  Memory.get_setCells _ _ _

theorem Core.get_tags_apply (n node x : Nat) (st : LStore) (k : Core) (w : Nat) :
    (Core.apply n node x st k).tags.get w = ((st.tags.reverse.find? fun g => g.1 == w).map (·.2)).getD (k.tags.get w) :=
  NMap.get_foldl_set _ _ _

theorem Core.wf_apply (n node x : Nat) (st : LStore) {k : Core} (h : k.spad.wf = true) : (Core.apply n node x st k).spad.wf = true :=
  Memory.wf_setCells h _

/-- Two cores that differ in nothing but what other views may still see of the old (R75). -/
def SameCore (k l : Core) : Prop := l = { k with stale := l.stale }

theorem SameCore.rfl {k : Core} : SameCore k k := by cases k; exact .refl _
theorem SameCore.trans {k l m : Core} (a : SameCore k l) (b : SameCore l m) : SameCore k m := by
  unfold SameCore at *
  rw [a] at b
  rw [b]

/-- What is noted of performed writes changes no core's storage. -/
theorem Pkg.k_modStale (f : Stale → Stale) (p : Pkg) (n : Nat) : (p.modStale f).k n = { p.k n with stale := (p.k n).stale.map f } :=
  NMap.get_map_values (fun k : Core => { k with stale := k.stale.map f }) (Eq.refl _) p.core n

theorem modStale_same (f : Stale → Stale) (p : Pkg) (n : Nat) : SameCore (p.k n) ((p.modStale f).k n) := by
  rw [Pkg.k_modStale]; rfl

theorem SameCore.spad {k l : Core} (h : SameCore k l) : l.spad = k.spad := by rw [h]

/-- Everything that noting what tags convey can do: one core's note of it. -/
theorem conveyTags_frame (n : Nat) (ws ids : List Nat) (p : Pkg) :
    let q := conveyTags n ws ids p
    (∀ m, (q.k m).spad = (p.k m).spad) ∧ (∀ m, m ≠ n → q.k m = p.k m) ∧ q.ctx = p.ctx ∧ q.mem = p.mem ∧ q.side = p.side ∧
    q.reg = p.reg ∧ q.nodes = p.nodes ∧ q.cmds = p.cmds ∧ q.held = p.held ∧ q.faultq = p.faultq ∧ q.micro = p.micro := by
  simp only [conveyTags]
  split
  · exact ⟨fun _ => rfl, fun _ _ => rfl, rfl, rfl, rfl, rfl, rfl, rfl, rfl, rfl, rfl⟩
  · refine ⟨fun m => ?_, fun m hm => Pkg.k_modK_of_ne _ _ hm, rfl, rfl, rfl, rfl, rfl, rfl, rfl, rfl, rfl⟩
    by_cases hm : m = n
    · subst hm; rw [Pkg.k_modK_self]
    · rw [Pkg.k_modK_of_ne _ _ hm]

/-- An engine's write of a command leaves every core's scratchpad in canonical form. -/
theorem wf_engineWriteBy (carry : List Carry) (after : List Nat) (node n : Nat) (cells : List Host.Cell) (full : List Nat) {p : Pkg}
    (h : ∀ m, (p.k m).spad.wf = true) (m : Nat) : ((engineWriteBy carry after node n cells full p).k m).spad.wf = true := by
  have step : ∀ (q : Pkg) (f : Core → Core) (i : Nat), (∀ m, (q.k m).spad.wf = true) → (∀ k, k.spad.wf = true → (f k).spad.wf = true) →
      ((({ q.modK n f with nextWrite := i } : Pkg)).k m).spad.wf = true := by
    intro q f i hq hf
    show ((q.modK n f).k m).spad.wf = true
    by_cases hm : m = n
    · subst hm; rw [Pkg.k_modK_self]; exact hf _ (hq m)
    · rw [Pkg.k_modK_of_ne _ _ hm]; exact hq m
  unfold engineWriteBy
  refine step _ _ _ ?_ fun k hk => Memory.wf_setCells hk _
  intro i
  rw [(conveyTags_frame _ _ _ _).1]
  split
  · exact h i
  · rw [(modStale_same _ p i).spad]; exact h i

theorem wf_engineWrite (n : Nat) (cells : List Host.Cell) (full : List Nat) {p : Pkg} (h : ∀ m, (p.k m).spad.wf = true) (m : Nat) :
    ((engineWrite n cells full p).k m).spad.wf = true := wf_engineWriteBy [] [] 0 n cells full h m

/-- Everything that one store performed can do: its core's storage, and what is noted of performed writes. -/
theorem applyStore_frame (x : Nat) (st : LStore) (p : Pkg) :
    let q := applyStore x st p
    q.ctx = p.ctx ∧ (∀ m, m ≠ coreOf x → SameCore (p.k m) (q.k m)) ∧ q.mem = p.mem ∧ q.side = p.side ∧ q.reg = p.reg ∧
    q.nodes = p.nodes ∧ q.cmds = p.cmds ∧ q.held = p.held ∧ q.faultq = p.faultq ∧ q.micro = p.micro := by
  intro q
  have hq : ∀ m, m ≠ coreOf x → SameCore (p.k m) (q.k m) := by
    intro m hm
    show SameCore _ ((Pkg.modK _ (coreOf x) _).k m)
    rw [Pkg.k_modK_of_ne _ _ hm, (conveyTags_frame _ _ _ _).2.1 m hm]
    split
    · exact .rfl
    · exact modStale_same _ p m
  refine ⟨?_, hq, ?_⟩
  · simp only [q, applyStore, Pkg.modStale, conveyTags]; split <;> split <;> rfl
  · refine ⟨?_, ?_, ?_, ?_, ?_, ?_, ?_, ?_⟩ <;> (simp only [q, applyStore, Pkg.modStale, conveyTags]; split <;> split <;> rfl)

/-- Everything that performing stores of a context can do: the core's storage, the marks on the context's own entries, and what is noted
of performed writes. -/
theorem performWhere_frame (x : Nat) (which : Entry → LStore → Bool) (p : Pkg) :
    let q := performWhere x which p
    (∀ y, y ≠ x → q.c y = p.c y) ∧ SameRegs (p.c x) (q.c x) ∧ (q.c x).pc = (p.c x).pc ∧ (q.c x).phase = (p.c x).phase ∧
    (∀ m, m ≠ coreOf x → SameCore (p.k m) (q.k m)) ∧ q.mem = p.mem ∧ q.side = p.side ∧ q.reg = p.reg ∧ q.nodes = p.nodes ∧
    q.cmds = p.cmds ∧ q.held = p.held ∧ q.faultq = p.faultq ∧ q.micro = p.micro := by
  intro q
  have fold : ∀ (es : List Entry) (r : Pkg),
      let t := es.foldl (fun p e => match e.store with
        | some st => applyStore x st p
        | none => p) r
      t.ctx = r.ctx ∧ (∀ m, m ≠ coreOf x → SameCore (r.k m) (t.k m)) ∧ t.mem = r.mem ∧ t.side = r.side ∧ t.reg = r.reg ∧
      t.nodes = r.nodes ∧ t.cmds = r.cmds ∧ t.held = r.held ∧ t.faultq = r.faultq ∧ t.micro = r.micro := by
    intro es
    induction es with
    | nil => intro r; exact ⟨rfl, fun _ _ => .rfl, rfl, rfl, rfl, rfl, rfl, rfl, rfl, rfl⟩
    | cons e es ih =>
      intro r
      simp only [List.foldl_cons]
      cases h : e.store with
      | none => exact ih r
      | some st =>
        obtain ⟨h1, h2, h3, h4, h5, h6, h7, h8, h9, h10⟩ := ih (applyStore x st r)
        obtain ⟨k1, k2, k3, k4, k5, k6, k7, k8, k9, k10⟩ := applyStore_frame x st r
        exact ⟨h1.trans k1, fun m hm => (k2 m hm).trans (h2 m hm), h3.trans k3, h4.trans k4, h5.trans k5, h6.trans k6, h7.trans k7,
          h8.trans k8, h9.trans k9, h10.trans k10⟩
  obtain ⟨t, mark, hq, h1, h2, h3⟩ : ∃ (t : Pkg) (mark : Entry → Entry), q = t.modC x (fun c => { c with flight := c.flight.map mark }) ∧
      t.ctx = p.ctx ∧ (∀ m, m ≠ coreOf x → SameCore (p.k m) (t.k m)) ∧ t.mem = p.mem ∧ t.side = p.side ∧ t.reg = p.reg ∧
      t.nodes = p.nodes ∧ t.cmds = p.cmds ∧ t.held = p.held ∧ t.faultq = p.faultq ∧ t.micro = p.micro := ⟨_, _, rfl, fold _ p⟩
  have hc : ∀ y, t.c y = p.c y := fun y => by simp [Pkg.c, h1]
  rw [hq]
  refine ⟨fun y hy => (Pkg.c_modC_of_ne _ _ hy).trans (hc y), ?_, ?_, ?_, h2, h3⟩
  · rw [Pkg.c_modC_self, hc]
    exact ⟨fun _ => rfl, fun _ => rfl, rfl, fun _ => rfl, fun _ => rfl, fun _ => rfl, fun _ => rfl, fun _ => rfl, fun _ => rfl⟩
  · rw [Pkg.c_modC_self, hc]
  · rw [Pkg.c_modC_self, hc]

/-! ## Device memory -/

theorem writeCells_get (cells : List Host.Cell) (p : Pkg) (a : Nat) :
    (writeCells cells p).mem.get a = ((cells.reverse.find? fun c => c.1 == a).map (·.2)).getD (p.mem.get a) := Memory.get_setCells _ _ _

theorem wf_writeCells (cells : List Host.Cell) {p : Pkg} (h : p.mem.wf = true) : (writeCells cells p).mem.wf = true := Memory.wf_setCells h _

theorem wf_setDirty (l : Leaf) {p : Pkg} (h : p.mem.wf = true) : (setDirty l p).mem.wf = true := by
  unfold setDirty; exact Memory.wf_set h _ _

theorem wf_clearDirty (l : Leaf) {p : Pkg} (h : p.mem.wf = true) : (clearDirty l p).mem.wf = true := Memory.wf_set h _ _

theorem wf_movePlane (ti src dst : Nat) {p : Pkg} (h : p.mem.wf = true) (k : p.side.wf = true) :
    (movePlane ti src dst p).mem.wf = true ∧ (movePlane ti src dst p).side.wf = true := by
  simp only [movePlane, Memory.wf_setMany h, Memory.wf_setMany k, and_self]

/-- The memories after device reset are in canonical form. -/
theorem wf_reset : State.reset.pkg.mem.wf = true ∧ State.reset.pkg.side.wf = true ∧ ∀ n, (State.reset.pkg.k n).spad.wf = true :=
  ⟨rfl, rfl, fun _ => rfl⟩

/-! ## Engine commands -/

/-- A command's accesses always lead to a next state, at the same time (R187, R188). -/
theorem runCmd_next (c : Cmd) (body : Eng Unit) (s : State) : ∃ p, runCmd c body s = .next { s with pkg := p } := by
  unfold runCmd
  split
  · exact ⟨s.pkg, rfl⟩
  · split <;> exact ⟨_, rfl⟩

/-- A command whose accesses are all accepted has started, with its writes, its status and its stamp. -/
theorem runCmd_accepted {c : Cmd} {body : Eng Unit} {s : State} {w : Work} (h : s.pkg.present c.id = true)
    (a : Accepted body c s w) : runCmd c body s = .next { s with pkg := w.p.modCmd c.id fun m => if m.phase = .arrived then m else
      { w.save m with phase := .started, status := if w.status = 0 then m.status else w.status, late := w.late, log := [],
                      parts := [] } } := by
  unfold Accepted at a
  simp [runCmd, h, a]

/-- A trowel instruction that takes a step, where its channel takes none or has halted. -/
theorem twStep_idle (needs : Nat) (unit : Pkg → DriveStep → Nat → Trowel → Trowel) (store : DriveStep → Channel → Pkg → Pkg)
    (flow : Channel → Channel) (s : State) (h : (s.pkg.chans.get s.pkg.focus).step = none ∨ (s.pkg.chans.get s.pkg.focus).halted = true) :
    twStep needs unit store flow s = .next s := by
  unfold twStep
  rcases h with h | h
  · simp [h]
  · simp only
    split
    · rfl
    · simp [h]

end Machine

end Sys2Proof
end

