-- ==== Sys2Proof/Laws/Engine.lean ====
section
/-! SUPPORT. Laws of the accesses of an engine command: how a body runs, and what its accesses come to at an address that is
served plainly. -/

namespace Sys2Proof.Machine

open Eng

/-! ## How a body runs -/

theorem Eng.run_bind {α β} (m : Eng α) (f : α → Eng β) (v : View) (w : Work) :
     (m >>= f) v w = match m v w with | .ok a w => f a v w | .error e w => .error e w := by
  show (EStateM.bind (m v) fun a => f a v) w = _
  unfold EStateM.bind
  cases m v w <;> rfl
theorem Eng.run_map {α β} (m : Eng α) (f : α → β) (v : View) (w : Work) :
     (f <$> m) v w = match m v w with | .ok a w => .ok (f a) w | .error e w => .error e w := by
  show (EStateM.map f (m v)) w = _
  unfold EStateM.map
  cases m v w <;> rfl
theorem Eng.run_pure {α} (a : α) (v : View) (w : Work) : (pure a : Eng α) v w = .ok a w := rfl
theorem Eng.run_read (v : View) (w : Work) : (read : Eng View) v w = .ok v w := rfl
theorem Eng.run_get (v : View) (w : Work) : (get : Eng Work) v w = .ok w w := rfl
theorem Eng.run_pkg (v : View) (w : Work) : pkg v w = .ok w.p w := rfl
theorem Eng.run_modPkg (f : Pkg → Pkg) (v : View) (w : Work) : modPkg f v w = .ok () { w with p := f w.p } := rfl
theorem Eng.run_modify (f : Work → Work) (v : View) (w : Work) : (modify f : Eng Unit) v w = .ok () (f w) := rfl
theorem Eng.run_need {b : Bool} (n : Nat) (h : b = true) (v : View) (w : Work) : need b n v w = .ok () w := by simp [need, h]; rfl
theorem Eng.run_forIn_nil {α β : Type} (b : β) (f : α → β → Eng (ForInStep β)) (v : View) (w : Work) :
    (forIn [] b f : Eng β) v w = .ok b w := rfl
theorem Eng.run_forIn_cons {α β : Type} (a : α) (as : List α) (b : β) (f : α → β → Eng (ForInStep β)) (v : View) (w : Work) :
    (forIn (a :: as) b f : Eng β) v w = match f a b v w with
      | .ok (.done b) w => .ok b w
      | .ok (.yield b) w => (forIn as b f : Eng β) v w
      | .error e w => .error e w := by
  rw [List.forIn_cons, run_bind]
  cases f a b v w with
  | ok r w' => cases r <;> rfl
  | error e w' => rfl
theorem Eng.run_discard {α} (m : Eng α) (v : View) (w : Work) :
    (discard m) v w = match m v w with | .ok _ w => .ok () w | .error e w => .error e w := run_map m (fun _ => ()) v w
theorem Eng.run_emitWrite (x : PWrite) (v : View) (w : Work) : emitWrite x v w = .ok [] { w with writes := w.writes ++ [x] } := rfl
theorem Eng.run_writeLate (x : PWrite) (v : View) (w : Work) : writeLate x v w = .ok () { w with late := w.late ++ [x] } := rfl

/-! ## A command at work on a package whose tables stand -/

/-- A command at work in one step: nothing but walks has been noted and values drawn, and every page translated has the leaf of the
tables. -/
structure Quiet (p : Pkg) (c : Cmd) (w : Work) : Prop where
  pkg     : ∃ t n, w.p = { p with tlb := t, fresh := n } ∧
    ∀ e ∈ t, e ∈ p.tlb ∨ (e.asid = c.asid → e.walk = walk p c.asid (e.page * 65536))
  leaves  : ∀ e ∈ w.leaves, e.1 = c.asid → walk p c.asid (e.2.1 * 65536) = .leaf e.2.2
  whole   : w.whole = true
  replay  : w.replay = []
  pending : w.pending = none
  quiet   : w.quiet = false

/-- The work of a command none of whose accesses has been made is quiet. -/
theorem Quiet.start {p : Pkg} {c : Cmd} (h : Fresh (p.cmd c.id)) : Quiet p c (Work.of p c.id) where
  pkg := ⟨p.tlb, p.fresh, rfl, fun _ h => .inl h⟩
  leaves := fun e he => by simp [Work.of, h.leaves] at he
  whole := h.whole
  replay := h.log
  pending := rfl
  quiet := rfl

/-- A later state of a command at work: still quiet, with some writes added. -/
structure LaterBy (p : Pkg) (c : Cmd) (ws : List PWrite) (w w' : Work) : Prop where
  quiet  : Quiet p c w'
  writes : w'.writes = w.writes ++ ws
  late   : w'.late = w.late
  stamp  : w'.stamp = w.stamp
  status : w'.status = w.status

/-- Nothing but translations and draws has been added. -/
abbrev Later (p : Pkg) (c : Cmd) : Work → Work → Prop := LaterBy p c []

theorem LaterBy.rfl {p : Pkg} {c : Cmd} {w : Work} (h : Quiet p c w) : Later p c w w :=
  ⟨h, (List.append_nil _).symm, Eq.refl _, Eq.refl _, Eq.refl _⟩
theorem LaterBy.trans {p : Pkg} {c : Cmd} {ws xs : List PWrite} {u v w : Work} (a : LaterBy p c ws u v) (b : LaterBy p c xs v w) :
    LaterBy p c (ws ++ xs) u w :=
  ⟨b.quiet, by rw [b.writes, a.writes, List.append_assoc], b.late.trans a.late, b.stamp.trans a.stamp, b.status.trans a.status⟩

/-- More draws leave it quiet. -/
theorem Quiet.drawn {p : Pkg} {c : Cmd} {w : Work} (h : Quiet p c w) (n : Nat) : Later p c w { w with p := w.p.drawn n } := by
  obtain ⟨t, m, e, a⟩ := h.pkg
  exact ⟨⟨⟨t, m + n, by simp [e, Pkg.drawn], a⟩, h.leaves, h.whole, h.replay, h.pending, h.quiet⟩, (List.append_nil _).symm, rfl, rfl, rfl⟩

/-! ## Accesses of one step -/

/-- An access that a quiet command makes. -/
theorem access_quiet {p : Pkg} {c : Cmd} {v : View} {m : Eng (List Byte)} {bs : List Byte} {ws : List PWrite} {w t : Work}
    (q : Quiet p c w) (h : m v w = .ok bs t) (l : LaterBy p c ws w t) :
    ∃ t', access m v w = .ok bs t' ∧ LaterBy p c ws w t' ∧ t'.p = t.p := by
  refine ⟨{ t with replay := [], got := .bytes bs :: w.got }, ?_,
    ⟨⟨l.quiet.pkg, l.quiet.leaves, l.quiet.whole, rfl, l.quiet.pending, l.quiet.quiet⟩, l.writes, l.late, l.stamp, l.status⟩, rfl⟩
  unfold access
  simp [q.replay, q.whole, h]

/-- Accesses in any order, each of which a quiet command makes and leaves the package as `I` says. -/
theorem anyOrder_quiet {p : Pkg} {c : Cmd} {v : View} {α : Type} (I : Pkg → Prop) (f : α → List Byte) (g : α → List PWrite)
    (m : α → Eng (List Byte)) : ∀ (qs : List α) {w : Work}, Quiet p c w → I w.p →
      (∀ x ∈ qs, ∀ {u : Work}, Quiet p c u → I u.p → ∃ t, m x v u = .ok (f x) t ∧ LaterBy p c (g x) u t ∧ I t.p) →
      ∃ t, anyOrder (qs.map m) v w = .ok (qs.map fun x => .bytes (f x)) t ∧ LaterBy p c (qs.flatMap g) w t ∧ I t.p := by
  intro qs
  induction qs with
  | nil => exact fun {w} q i _ => ⟨w, rfl, .rfl q, i⟩
  | cons x qs ih =>
    intro w q i h
    obtain ⟨t, e, l, i⟩ := h x (List.mem_cons_self ..) q i
    obtain ⟨t, e, l, ht⟩ := access_quiet q e l
    obtain ⟨u, e', l', i'⟩ := ih l.quiet (ht ▸ i) fun y hy => h y (List.mem_cons_of_mem _ hy)
    refine ⟨u, ?_, l.trans l', i'⟩
    have a : among (m x) v w = .ok (.bytes (f x)) t := by unfold among; simp only [e]
    simp only [List.map_cons, anyOrder, run_bind, a, e']
    rfl

theorem settle_quiet {p : Pkg} {c : Cmd} {v : View} {w : Work} (q : Quiet p c w) : settle v w = .ok () w := by
  unfold settle
  simp [run_bind, run_get, q.pending, run_pure]

/-- Reads in any order. -/
theorem readAll_quiet {p : Pkg} {c : Cmd} {v : View} {α : Type} (I : Pkg → Prop) (f : α → List Byte) (m : α → Eng (List Byte)) (qs : List α)
    {w : Work} (q : Quiet p c w) (i : I w.p)
    (h : ∀ x ∈ qs, ∀ {u : Work}, Quiet p c u → I u.p → ∃ t, m x v u = .ok (f x) t ∧ Later p c u t ∧ I t.p) :
    ∃ t, readAll (qs.map m) v w = .ok (qs.flatMap f) t ∧ Later p c w t ∧ I t.p := by
  obtain ⟨t, e, l, i'⟩ := anyOrder_quiet I f (fun _ => []) m qs q i h
  rw [show (qs.flatMap fun _ => ([] : List PWrite)) = [] by simp] at l
  refine ⟨t, ?_, l, i'⟩
  unfold readAll
  simp only [run_bind, e, settle_quiet l.quiet]
  simp [run_pure, List.flatMap_map, Answer.data]

/-- Writes in any order. -/
theorem writeAll_quiet {p : Pkg} {c : Cmd} {v : View} {α : Type} (g : α → List PWrite) (m : α → Eng (List Byte)) (qs : List α) {w : Work}
    (q : Quiet p c w) (h : ∀ x ∈ qs, ∀ {u : Work}, Quiet p c u → ∃ t, m x v u = .ok [] t ∧ LaterBy p c (g x) u t) :
    ∃ t, (do discard (anyOrder (qs.map m)); settle : Eng Unit) v w = .ok () t ∧ LaterBy p c (qs.flatMap g) w t := by
  obtain ⟨t, e, l, _⟩ := anyOrder_quiet (fun _ => True) (fun _ => []) g m qs q trivial fun x hx u hu _ =>
    let ⟨t, e, l⟩ := h x hx hu; ⟨t, e, l, trivial⟩
  refine ⟨t, ?_, l⟩
  simp only [run_bind, run_discard, e, settle_quiet l.quiet]

/-! ## Walks and granules -/

theorem levelIndex_page {level va vb : Nat} (h : va / 65536 = vb / 65536) : levelIndex level va = levelIndex level vb := by
  have e : ∀ lo, 16 ≤ lo → va / 2 ^ lo = vb / 2 ^ lo := by
    intro lo hl
    obtain ⟨k, rfl⟩ := Nat.exists_eq_add_of_le hl
    rw [Nat.pow_add, ← Nat.div_div_eq_div_mul, ← Nat.div_div_eq_div_mul]
    simp only [Nat.reducePow] at h ⊢
    rw [h]
  unfold levelIndex
  split <;> simp only [bits_eq] <;> rw [e _ (by decide)]

theorem walkFrom_page (p : Pkg) (s : AsidSlot) {va vb : Nat} (h : va / 65536 = vb / 65536) (l t : Nat) :
    walkFrom p s va l t = walkFrom p s vb l t := by
  have hl : ∀ level a e, leafAt p s level a e va = leafAt p s level a e vb := by
    intro level a e
    unfold leafAt
    rw [h]
  induction l generalizing t with
  | zero => simp only [walkFrom, levelIndex_page h, hl]
  | succ l ih => simp only [walkFrom, levelIndex_page h, hl, ih]

/-- A walk depends on the page alone. -/
theorem walk_page (p : Pkg) (asid : Nat) {va vb : Nat} (h : va / 65536 = vb / 65536) : walk p asid va = walk p asid vb := by
  unfold walk
  split
  · rfl
  · split
    · rfl
    · exact walkFrom_page p _ h 4 _

theorem walkFrom_shape (p : Pkg) (s : AsidSlot) (va : Nat) (l t : Nat) {f : Leaf} (h : walkFrom p s va l t = .leaf f)
    (k : leafKind f.entry = 1) :
    (shapeAt p.mem f.shapeAt).base % 65536 = 0 ∧ (shapeAt p.mem f.shapeAt).base ≤ va / 65536 * 65536 := by
  have hl : ∀ level a e, leafAt p s level a e va = .leaf f →
      (shapeAt p.mem f.shapeAt).base % 65536 = 0 ∧ (shapeAt p.mem f.shapeAt).base ≤ va / 65536 * 65536 := by
    intro level a e h
    unfold leafAt at h
    simp only at h
    split at h
    · cases h
    · split at h
      · cases h
      · split at h
        · rename_i ok
          cases h
          simp only [] at k
          simp only [k, leafOk, if_true, columnedOk, Bool.and_eq_true, decide_eq_true_eq, beq_iff_eq] at ok ⊢
          exact ⟨ok.2.1.1.2, ok.2.1.1.1⟩
        · cases h
  have hr : ∀ a w, readEntry p s.ats a = .error w → w ≠ .leaf f := by
    intro a w h
    unfold readEntry at h
    simp only at h
    split at h
    · cases h; simp
    · split at h <;> cases h; simp
  induction l generalizing t with
  | zero =>
    simp only [walkFrom] at h
    split at h
    · rename_i e; exact absurd h (hr _ _ e)
    · split at h
      · cases h
      · split at h
        · cases h
        · exact hl _ _ _ h
  | succ l ih =>
    simp only [walkFrom] at h
    split at h
    · rename_i e; exact absurd h (hr _ _ e)
    · split at h
      · cases h
      · split at h
        · exact hl _ _ _ h
        · split at h
          · cases h
          · split at h
            · cases h
            · exact ih _ h

/-- The record of a columned leaf lies at whole pages, not above the leaf's page. -/
theorem walk_shape {p : Pkg} {asid va : Nat} {f : Leaf} (h : walk p asid va = .leaf f) (k : leafKind f.entry = 1) :
    (shapeAt p.mem f.shapeAt).base % 65536 = 0 ∧ (shapeAt p.mem f.shapeAt).base ≤ va / 65536 * 65536 := by
  unfold walk at h
  split at h
  · cases h
  · split at h
    · cases h
    · exact walkFrom_shape p _ va _ _ h k

theorem walkFrom_huge (p : Pkg) (s : AsidSlot) {va vb : Nat} (e : va / 2 ^ 30 = vb / 2 ^ 30) (l t : Nat) {f : Leaf}
    (h : walkFrom p s va l t = .leaf f) (hl : f.level = 2) (hk : leafKind f.entry = 0) : walkFrom p s vb l t = .leaf f := by
  have hi : ∀ level, 2 ≤ level → levelIndex level vb = levelIndex level va := by
    intro level h2
    have d : ∀ lo, 30 ≤ lo → vb / 2 ^ lo = va / 2 ^ lo := by
      intro lo h
      obtain ⟨k, rfl⟩ := Nat.exists_eq_add_of_le h
      rw [Nat.pow_add, ← Nat.div_div_eq_div_mul, ← Nat.div_div_eq_div_mul, e]
    unfold levelIndex
    split
    · omega
    · omega
    all_goals rw [bits_eq, bits_eq, d _ (by decide)]
  have hf : ∀ level a x, leafAt p s level a x va = .leaf f → level = 2 ∧ leafAt p s level a x vb = .leaf f := by
    intro level a x h
    unfold leafAt at h ⊢
    simp only at h ⊢
    split at h
    · cases h
    · rename_i n
      split at h
      · cases h
      · split at h
        · rename_i b ok
          cases h
          simp only at hl hk
          refine ⟨hl, ?_⟩
          rw [if_neg n]
          simp only [leafOk, hk] at ok ⊢
          simp [ok]
        · cases h
  have hr : ∀ a w, readEntry p s.ats a = .error w → w ≠ .leaf f := by
    intro a w h
    unfold readEntry at h
    simp only at h
    split at h
    · cases h; simp
    · split at h <;> cases h; simp
  induction l generalizing t with
  | zero =>
    simp only [walkFrom] at h
    split at h
    · rename_i x; exact absurd h (hr _ _ x)
    · split at h
      · cases h
      · split at h
        · cases h
        · exact absurd (hf _ _ _ h).1 (by decide)
  | succ l ih =>
    by_cases h2 : 2 ≤ l + 1
    · simp only [walkFrom, hi _ h2] at h ⊢
      split at h
      · rename_i x; exact absurd h (hr _ _ x)
      · rename_i ent x
        split at h
        · cases h
        · split at h
          · rename_i y z
            rw [if_neg y, if_pos z]
            exact (hf _ _ _ h).2
          · split at h
            · cases h
            · split at h
              · cases h
              · rename_i y z u v
                rw [if_neg y, if_neg z, if_neg u, if_neg v]
                exact ih _ h
    · obtain rfl : l = 0 := by omega
      simp only [walkFrom] at h
      split at h
      · rename_i x; exact absurd h (hr _ _ x)
      · split at h
        · cases h
        · split at h
          · exact absurd (hf _ _ _ h).1 (by decide)
          · split at h
            · cases h
            · split at h
              · cases h
              · split at h
                · rename_i x; exact absurd h (hr _ _ x)
                · split at h
                  · cases h
                  · split at h
                    · cases h
                    · exact absurd (hf _ _ _ h).1 (by decide)

/-- A bonded leaf of 1 GiB answers the walk of every address of its page. -/
theorem walk_huge {p : Pkg} {asid va vb : Nat} (e : va / 2 ^ 30 = vb / 2 ^ 30) {f : Leaf} (h : walk p asid va = .leaf f) (hl : f.level = 2)
    (hk : leafKind f.entry = 0) : walk p asid vb = .leaf f := by
  unfold walk at h ⊢
  split at h
  · cases h
  · split at h
    · cases h
    · exact walkFrom_huge p _ e 4 _ h hl hk

/-- Within a 4 KiB granule a leaf maps addresses in a row. -/
theorem leafPlace_add {p : Pkg} {asid va : Nat} {f : Leaf} (h : walk p asid va = .leaf f) (hk : leafKind f.entry ≠ 3) {i : Nat}
    (hi : va % 4096 + i < 4096) :
    leafPlace p f (va + i) = leafPlace p f va + i := by
  have hx : ∃ m, pageSize f.level = 4096 * m := by
    unfold pageSize; split
    · exact ⟨16, rfl⟩
    · exact ⟨512, rfl⟩
    · exact ⟨262144, rfl⟩
  obtain ⟨m, hm⟩ := hx
  have h1 : (va + i) % (4096 * m) = va % (4096 * m) + i := by
    rw [Nat.mod_mul, Nat.mod_mul (a := 4096)] 
    have a1 : (va + i) % 4096 = va % 4096 + i := by omega
    have a2 : (va + i) / 4096 = va / 4096 := by omega
    rw [a1, a2]; omega
  have h2 : va % (4096 * m) % 4096 = va % 4096 := Nat.mod_mul_right_mod va 4096 m
  unfold leafPlace
  simp only [hm, h1]
  have a3 : (va % (4096 * m) + i) / 4096 = va % (4096 * m) / 4096 := by omega
  have a4 : (va % (4096 * m) + i) % 4096 = va % (4096 * m) % 4096 + i := by omega
  split
  · rw [a3, a4]; simp only [dramDpa]; omega
  · rename_i k
    have := walk_shape h k
    have a5 : (va + i - (shapeAt p.mem f.shapeAt).base) / 4096 = (va - (shapeAt p.mem f.shapeAt).base) / 4096 := by omega
    have a6 : (va + i) % 4096 = va % 4096 + i := by omega
    simp only [columnPlace]
    rw [a5, a6]; simp only [dramDpa]; omega
  · rw [a3, a4]; simp only [dramDpa]; omega
  · rename_i k0 k1 k2
    have b0 : leafKind f.entry ≠ 0 := k0
    have b1 : leafKind f.entry ≠ 1 := k1
    have b2 : leafKind f.entry ≠ 2 := k2
    have : leafKind f.entry < 4 := bits_lt _ 3 2
    omega

/-! ## A plainly served address -/

/-- The package after a translation at a plainly served address: the walk is cached, and a free value has been drawn. -/
def noted (p : Pkg) (c : Cmd) (va : Nat) (l : Leaf) : Pkg := (noteWalk c.asid va (.leaf l) p).drawn 1

theorem noted_eq (p : Pkg) (c : Cmd) (va : Nat) (l : Leaf) : ∃ t, noted p c va l = { p with tlb := t, fresh := p.fresh + 1 } ∧
    (t = p.tlb ∨ t = p.tlb ++ [⟨c.asid, va / 65536, .leaf l⟩]) := by
  unfold noted noteWalk
  simp only
  split
  · exact ⟨p.tlb, rfl, .inl rfl⟩
  · exact ⟨_, rfl, .inr rfl⟩

theorem served_walk {p : Pkg} {c : Cmd} {va k : Nat} {l : Leaf} (h : Served p c va k l) : pageLeaf p c.asid va = l ∧ placeOf p c.asid va = k := by
  have : pageLeaf p c.asid va = l := by simp [pageLeaf, h.walk]
  exact ⟨this, by rw [placeOf, this]; exact h.place⟩

theorem reach_served {p c va k l} (env : Env) (h : Served p c va k l) (w : Work) (hp : ∃ t n, w.p = { p with tlb := t, fresh := n }) :
    reach va k ⟨env, c⟩ w = .ok () w := by
  obtain ⟨t, n, hp⟩ := hp
  have a : failedAt w.p k = none := by rw [hp]; exact h.plane
  have b : pendingAt w.p k = false := by rw [hp]; exact h.repair
  unfold reach
  simp [run_bind, run_pkg, run_read, a, b, h.dram, run_pure]

/-- The leaf of a page comes by the tables, and is kept. -/
theorem leafFor_quiet {p : Pkg} {c : Cmd} {va k : Nat} {l : Leaf} (env : Env) (h : Served p c va k l) {w : Work} (q : Quiet p c w) :
    ∃ w', leafFor va ⟨env, c⟩ w = .ok l w' ∧ Later p c w w' := by
  obtain ⟨t, n, hp, ht⟩ := q.pkg
  have hn : need (decide (va < 2 ^ 56)) 4 ⟨env, c⟩ w = .ok () w := run_need _ (by simpa using h.range) _ _
  have hpg : va / 65536 = va / 65536 * 65536 / 65536 := by omega
  have hw : walk p c.asid (va / 65536 * 65536) = .leaf l := by rw [← walk_page p c.asid hpg]; exact h.walk
  unfold leafFor
  simp only [run_bind, run_read, hn, run_get]
  cases hf : w.leaves.find? (fun e => e.1 == c.asid && e.2.1 == va / 65536) with
  | some e =>
    have hm := List.mem_of_find?_eq_some hf
    have he := List.find?_some hf
    simp only [Bool.and_eq_true, beq_iff_eq] at he
    have := q.leaves e hm he.1
    rw [he.2, hw] at this
    cases this
    exact ⟨w, rfl, .rfl q⟩
  | none =>
    have hwalk : walk w.p c.asid va = .leaf l := by rw [hp]; exact h.walk
    have hcached : ∀ x ∈ cachedWalks w.p c.asid va, x = .leaf l := by
      intro x hx
      rw [hp] at hx
      simp only [cachedWalks, List.mem_map, List.mem_filter, Bool.and_eq_true, beq_iff_eq] at hx
      obtain ⟨e, ⟨he, ha, hg⟩, rfl⟩ := hx
      rcases ht e he with h1 | h1
      · refine h.cached _ ?_
        simp only [cachedWalks, List.mem_map, List.mem_filter, Bool.and_eq_true, beq_iff_eq]
        exact ⟨e, ⟨h1, ha, hg⟩, .refl _⟩
      · rw [h1 ha, hg]; exact hw
    have hc : chooseWalk w.p c.asid va = .leaf l := by
      have : (cachedWalks w.p c.asid va).filter (fun x => x != .leaf l) = [] := by
        rw [List.filter_eq_nil_iff]; intro x hx; simp [hcached x hx]
      unfold chooseWalk
      simp only [hwalk, this, List.getD_nil]
    obtain ⟨u, hu, hu'⟩ := noted_eq w.p c va l
    refine ⟨{ w with p := noted w.p c va l, leaves := w.leaves ++ [(c.asid, va / 65536, l)] }, ?_,
      ⟨⟨⟨u, w.p.fresh + 1, ?_, ?_⟩, ?_, q.whole, q.replay, q.pending, q.quiet⟩, (List.append_nil _).symm, rfl, rfl, rfl⟩⟩
    · simp only [hc, leafBy, run_bind, run_read, run_get, run_modPkg]
      simp [run_bind, h.kind, run_modify, run_pure, noted]
    · rw [hu, hp]
    · intro e he
      rcases hu' with rfl | rfl
      · rw [hp] at he; exact ht e he
      · rcases List.mem_append.1 he with he | he
        · rw [hp] at he; exact ht e he
        · simp only [List.mem_singleton] at he
          subst he
          exact .inr fun _ => hw.symm
    · intro e he ha
      rcases List.mem_append.1 he with he | he
      · exact q.leaves e he ha
      · simp only [List.mem_singleton] at he
        subst he
        exact hw

theorem translate_quiet {p : Pkg} {c : Cmd} {va k : Nat} {l : Leaf} (env : Env) (h : Served p c va k l) (wr dirty : Bool) {w : Work}
    (q : Quiet p c w) : ∃ w', Eng.translate va wr dirty ⟨env, c⟩ w = .ok l w' ∧ Later p c w w' := by
  obtain ⟨w', hl, lt⟩ := leafFor_quiet env h q
  obtain ⟨t, n, hp, ht⟩ := lt.quiet.pkg
  have hm : moveHold w'.p c.asid va = false := by rw [hp]; exact h.free
  refine ⟨w', ?_, lt⟩
  unfold Eng.translate goThrough
  simp [run_bind, hl, run_need, h.state, run_read, h.writable, h.dirty, run_pkg, hm, run_pure]

/-- The place of an access. -/
theorem place_quiet {p : Pkg} {c : Cmd} {va k : Nat} {l : Leaf} (env : Env) (h : Served p c va k l) (wr : Bool) {w : Work}
    (q : Quiet p c w) : ∃ w', place va wr ⟨env, c⟩ w = .ok (k, false) w' ∧ Later p c w w' := by
  obtain ⟨t, n, hp, ht⟩ := q.pkg
  have hi : inOutput w.p c.node va = false := by rw [hp]; exact h.unstaged
  obtain ⟨w', tr, lt⟩ := translate_quiet env h wr true q
  obtain ⟨t', n', hp', ht'⟩ := lt.quiet.pkg
  have rc := reach_served env h w' ⟨t', n', hp'⟩
  have hk : leafPlace w'.p l va = k := by rw [hp']; exact h.place
  refine ⟨w', ?_, lt⟩
  unfold place
  simp [run_bind, run_map, run_pkg, run_read, hi, tr, rc, hk, Leaf.priv, h.kind]

/-- The place of a sync word. -/
theorem wordPlace_quiet {p : Pkg} {c : Cmd} {va k : Nat} {l : Leaf} (env : Env) (h : Served p c va k l) (wr : Bool) {w : Work}
    (q : Quiet p c w) : ∃ w', wordPlace va wr ⟨env, c⟩ w = .ok (k, false) w' ∧ Later p c w w' := by
  obtain ⟨w', tr, lt⟩ := translate_quiet env h wr true q
  obtain ⟨t', n', hp', ht'⟩ := lt.quiet.pkg
  have rc := reach_served env h w' ⟨t', n', hp'⟩
  have hk : leafPlace w'.p l va = k := by rw [hp']; exact h.place
  refine ⟨w', ?_, lt⟩
  unfold wordPlace
  simp [run_bind, run_map, run_pkg, tr, rc, hk, Leaf.priv, h.kind]

/-- The write of a release. -/
theorem releaseWrites_quiet {p : Pkg} {c : Cmd} {va k : Nat} {l : Leaf} (env : Env) (h : Served p c va k l) (add : Bool) (x : Word) {w : Work}
    (q : Quiet p c w) : ∃ w', releaseWrites va add x ⟨env, c⟩ w = .ok [.dev none false (cellsAt k (bytesOf 8 (if add then
        BitVec.ofNat 64 (natOf (p.mem.getMany k 8)) + x else x).toNat))] w' ∧
      Later p c w w' := by
  obtain ⟨w', wp, lt⟩ := wordPlace_quiet env h true q
  obtain ⟨t, n, hp, ht⟩ := lt.quiet.pkg
  have hb : w'.p.badSector.get (k / 32) = false := by rw [hp]; exact h.sound 0 (by omega)
  have hi : inOutput w'.p c.node va = false := by rw [hp]; exact h.unstaged
  have hm : w'.p.mem.getMany k 8 = p.mem.getMany k 8 := by rw [hp]
  refine ⟨w', ?_, lt⟩
  unfold releaseWrites
  simp [run_bind, run_pkg, run_read, wp, hb, hi, hm, run_pure]

/-- A release stores or adds its value at once, and nothing else of the package changes but what is noted and drawn. -/
theorem releaseStore_quiet {p : Pkg} {c : Cmd} {va k : Nat} {l : Leaf} (env : Env) (h : Served p c va k l) (add : Bool) (x : Word) {w : Work}
    (q : Quiet p c w) : ∃ w' t n, releaseStore va add x ⟨env, c⟩ w = .ok () w' ∧ w'.writes = w.writes ∧ w'.late = w.late ∧
      w'.stamp = w.stamp ∧ w'.status = w.status ∧
      w'.p = writeCells (cellsAt k (bytesOf 8 (if add then
        BitVec.ofNat 64 (natOf (p.mem.getMany k 8)) + x else x).toNat)) { p with tlb := t, fresh := n } := by
  obtain ⟨w', rw_, lt⟩ := releaseWrites_quiet env h add x q
  obtain ⟨t, n, hp, ht⟩ := lt.quiet.pkg
  have hw : w'.writes = w.writes := by simpa using lt.writes
  refine ⟨{ w' with p := writeCells (cellsAt k (bytesOf 8 (if add then
        BitVec.ofNat 64 (natOf (p.mem.getMany k 8)) + x else x).toNat)) w'.p }, t, n, ?_, hw, lt.late, lt.stamp, lt.status, by rw [← hp]⟩
  unfold releaseStore
  simp [run_bind, run_read, rw_, run_modPkg, run_pure]

/-! ## Blocks of a range -/

/-- The sizes of blocks that accesses are cut into. -/
abbrev BlockSize (g : Nat) : Prop := g = 4 ∨ g = 32 ∨ g = 4096

theorem blocks_block {g va n : Nat} (hg : BlockSize g) {q : Nat × Nat} (h : q ∈ blocks g va n) :
    va ≤ q.1 ∧ q.1 + q.2 ≤ va + n ∧ q.1 % g + q.2 ≤ g ∧ 0 < q.2 := by
  unfold blocks at h
  split at h
  · cases h
  · simp only [List.mem_map, List.mem_range] at h
    obtain ⟨i, hi, rfl⟩ := h
    rcases hg with rfl | rfl | rfl <;> simp only <;> omega

theorem blocks_one {g va n : Nat} (hg : BlockSize g) (hn : 0 < n) (h : va % g + n ≤ g) : blocks g va n = [(va, n)] := by
  have h1 : (va + n - 1) / g - va / g + 1 = 1 := by rcases hg with rfl | rfl | rfl <;> omega
  have h2 : max va (va / g * g) = va := by rcases hg with rfl | rfl | rfl <;> omega
  have h3 : min (va + n) ((va / g + 1) * g) = va + n := by rcases hg with rfl | rfl | rfl <;> omega
  unfold blocks
  rw [if_neg (by omega), h1]
  simp [h2, h3]

theorem blocks_more {g va n : Nat} (hg : BlockSize g) (h : g < va % g + n) :
    blocks g va n = (va, g - va % g) :: blocks g (va + (g - va % g)) (n - (g - va % g)) := by
  have e1 : (va + n - 1) / g - va / g + 1 = ((va + n - 1) / g - (va / g + 1) + 1) + 1 := by rcases hg with rfl | rfl | rfl <;> omega
  have e2 : (va + (g - va % g)) / g = va / g + 1 := by rcases hg with rfl | rfl | rfl <;> omega
  have e3 : va + (g - va % g) + (n - (g - va % g)) = va + n := by rcases hg with rfl | rfl | rfl <;> omega
  unfold blocks
  rw [if_neg (by rcases hg with rfl | rfl | rfl <;> omega), if_neg (by rcases hg with rfl | rfl | rfl <;> omega), e1, List.range_succ_eq_map,
    List.map_cons, List.map_map]
  simp only [e2, e3]
  congr 1
  · simp only [Nat.add_zero]
    rw [Prod.mk.injEq]
    rcases hg with rfl | rfl | rfl <;> omega
  · apply List.map_congr_left
    intro i _
    simp only [Function.comp_apply, Nat.succ_eq_add_one]
    rw [Prod.mk.injEq]
    have : va / g + (i + 1) = va / g + 1 + i := by omega
    rw [this]
    rcases hg with rfl | rfl | rfl <;> omega

/-- Induction over the blocks of a range. -/
theorem blocks_induct {g : Nat} (hg : BlockSize g) {P : Nat → Nat → Prop} (zero : ∀ va, P va 0)
    (one : ∀ va n, 0 < n → va % g + n ≤ g → P va n)
    (more : ∀ va n, g < va % g + n → P (va + (g - va % g)) (n - (g - va % g)) → P va n) (va n : Nat) : P va n := by
  induction n using Nat.strongRecOn generalizing va with
  | _ n ih =>
    by_cases h0 : n = 0
    · subst h0; exact zero va
    · by_cases h : va % g + n ≤ g
      · exact one va n (by omega) h
      · exact more va n (by omega) (ih _ (by rcases hg with rfl | rfl | rfl <;> omega) _)

/-- Values at consecutive places, block by block. -/
theorem blocks_flatMap {α : Type} {g : Nat} (hg : BlockSize g) (f : Nat → α) (va n : Nat) :
    (blocks g va n).flatMap (fun q => (List.range q.2).map fun i => f (q.1 + i)) = (List.range n).map fun i => f (va + i) := by
  induction va, n using blocks_induct hg with
  | zero va => simp [blocks]
  | one va n hn h => simp [blocks_one hg hn h]
  | more va n h ih =>
    rw [blocks_more hg h, List.flatMap_cons, ih]
    have hs : g - va % g ≤ n := by omega
    conv => rhs; rw [show n = (g - va % g) + (n - (g - va % g)) by omega, List.range_add, List.map_append, List.map_map]
    congr 1
    apply List.map_congr_left
    intro i _
    simp only [Function.comp_apply, Nat.add_assoc]

/-! ## Plainly served ranges -/

/-- The place of a later byte of a granule. -/
theorem placeOf_add {p : Pkg} {c : Cmd} {va n i : Nat} (h : Serves p c va n) (hi : i < n) (hg : va % 4096 + i < 4096) :
    placeOf p c.asid (va + i) = placeOf p c.asid va + i := by
  have s := h va (by omega) (by omega)
  have e : walk p c.asid (va + i) = walk p c.asid va := walk_page p c.asid (by omega)
  have : pageLeaf p c.asid (va + i) = pageLeaf p c.asid va := by simp only [pageLeaf, e]
  rw [placeOf, this, leafPlace_add s.walk s.kind hg]
  rfl

theorem Serves.sub {p : Pkg} {c : Cmd} {va n vb m : Nat} (h : Serves p c va n) (h1 : va ≤ vb) (h2 : vb + m ≤ va + n) : Serves p c vb m :=
  fun a ha hb => h a (by omega) (by omega)

/-- A read of the package's own DRAM has no completion from outside. -/
theorem hubCompletion_dram {k : Nat} (h : isDram k = true) (v : View) (w : Work) : hubCompletion k v w = .ok () w := by
  unfold hubCompletion
  simp [run_bind, run_map, run_pkg, run_read, h]

/-- A read of bytes of one sector. -/
theorem readSector_quiet {p : Pkg} {c : Cmd} {va n : Nat} (env : Env) (h : Serves p c va n) (hn : 0 < n) (hg : va % 32 + n ≤ 32)
    {w : Work} (q : Quiet p c w) : ∃ w', readSector va n ⟨env, c⟩ w = .ok (bytesAt p c.asid va n) w' ∧ Later p c w w' := by
  obtain ⟨w', hp, lt⟩ := place_quiet env (h va (by omega) (by omega)) false q
  obtain ⟨t, m, e, ht⟩ := lt.quiet.pkg
  have hb : w'.p.badSector.get (placeOf p c.asid va / 32) = false := by
    rw [e]; exact (h va (by omega) (by omega)).sound 0 (by omega)
  have hm : w'.p.mem.getMany (placeOf p c.asid va) n = bytesAt p c.asid va n := by
    rw [show w'.p.mem = p.mem by rw [e]]
    unfold bytesAt
    apply List.map_congr_left
    intro i hi
    rw [List.mem_range] at hi
    rw [placeOf_add h hi (by omega)]
    rfl
  refine ⟨w', ?_, lt⟩
  unfold readSector readPlace
  simp [run_bind, run_map, hp, hubCompletion_dram (h va (by omega) (by omega)).dram, run_pkg, die, run_read, hb, hm]

/-- A read of device memory over a plainly served range. -/
theorem devRead_quiet {p : Pkg} {c : Cmd} (env : Env) {va n : Nat} {w : Work} (q : Quiet p c w) (h : Serves p c va n) :
    ∃ w', devRead va n ⟨env, c⟩ w = .ok (bytesAt p c.asid va n) w' ∧ Later p c w w' := by
  obtain ⟨w', e, lt, _⟩ := readAll_quiet (v := ⟨env, c⟩) (fun _ => True) (fun x : Nat × Nat => bytesAt p c.asid x.1 x.2)
    (fun q => readSector q.1 q.2) (blocks 32 va n) q trivial fun x hx u hu _ => by
      obtain ⟨h1, h2, h3, h4⟩ := blocks_block (.inr (.inl rfl)) hx
      obtain ⟨t, e, l⟩ := readSector_quiet env (Serves.sub h h1 h2) h4 h3 hu
      exact ⟨t, e, l, trivial⟩
  refine ⟨w', ?_, lt⟩
  unfold devRead
  rw [e]
  congr 1
  exact blocks_flatMap (.inr (.inl rfl)) (fun a => p.mem.get (placeOf p c.asid a)) va n

theorem devNum_quiet {p : Pkg} {c : Cmd} (env : Env) {va n : Nat} {w : Work} (q : Quiet p c w) (h : Serves p c va n) :
    ∃ w', devNum va n ⟨env, c⟩ w = .ok (natOf (bytesAt p c.asid va n)) w' ∧ Later p c w w' := by
  obtain ⟨w', e, lt⟩ := devRead_quiet env q h
  refine ⟨w', ?_, lt⟩
  unfold devNum
  simp [run_bind, e, run_pure]

theorem cellsAt_move (a k : Nat) (bs : List Byte) : ((cellsAt a bs).map fun c => (k + c.1 - a, c.2)) = cellsAt k bs := by
  unfold cellsAt
  rw [List.map_map]
  apply List.map_congr_left
  intro q _
  simp only [Function.comp_apply, Prod.mk.injEq, and_true]
  omega

/-- The write of bytes of one sector. -/
theorem sectorWrite_quiet {p : Pkg} {c : Cmd} {va n : Nat} (env : Env) (h : Serves p c va n) {bs : List Byte} (hb : bs.length = n) (hn : 0 < n)
    {w : Work} (q : Quiet p c w) :
    ∃ w', sectorWrite (cellsAt va bs) ⟨env, c⟩ w = .ok (.dev (some va) false (cellsAt (placeOf p c.asid va) bs)) w' ∧ Later p c w w' := by
  have s := h va (by omega) (by omega)
  obtain ⟨w', hp, lt⟩ := place_quiet env s true q
  obtain ⟨t, m, e, ht⟩ := q.pkg
  have hi : inOutput w.p c.node va = false := by rw [e]; exact s.unstaged
  have hd : ((cellsAt va bs).headD (0, 0)).1 = va := by
    cases bs with
    | nil => simp at hb; omega
    | cons b bs => simp [cellsAt, List.range_succ_eq_map]
  refine ⟨w', ?_, lt⟩
  unfold sectorWrite
  simp only [run_bind, run_read, hd, run_pkg, hi]
  simp [run_bind, hp, run_pure, cellsAt_move]

/-- A write of device memory over a plainly served range. -/
theorem devWrite_quiet {p : Pkg} {c : Cmd} (env : Env) {va : Nat} {bs : List Byte} {w : Work} (q : Quiet p c w)
    (h : Serves p c va bs.length) : ∃ w', devWrite va bs ⟨env, c⟩ w = .ok () w' ∧ LaterBy p c (granuleWrites p c.asid va bs) w w' := by
  let g (x : Nat × Nat) : PWrite := .dev (some x.1) false (cellsAt (placeOf p c.asid x.1) ((bs.drop (x.1 - va)).take x.2))
  obtain ⟨w', e, lt⟩ := writeAll_quiet (v := ⟨env, c⟩) (fun x => [g x])
    (fun q => do emitWrite (← sectorWrite (cellsAt q.1 ((bs.drop (q.1 - va)).take q.2)))) (blocks 32 va bs.length) q
    fun x hx u hu => by
      obtain ⟨h1, h2, h3, h4⟩ := blocks_block (.inr (.inl rfl)) hx
      obtain ⟨t, e, l⟩ := sectorWrite_quiet env (Serves.sub h h1 h2) (bs := (bs.drop (x.1 - va)).take x.2) (by simp; omega) h4 hu
      refine ⟨{ t with writes := t.writes ++ [g x] }, ?_, ⟨⟨l.quiet.pkg, l.quiet.leaves, l.quiet.whole, l.quiet.replay, l.quiet.pending,
        l.quiet.quiet⟩, by simp [l.writes], l.late, l.stamp, l.status⟩⟩
      simp only [run_bind, e, run_emitWrite]
      rfl
  refine ⟨w', e, ?_⟩
  rwa [show (blocks 32 va bs.length).flatMap (fun x => [g x]) = granuleWrites p c.asid va bs from List.flatMap_pure_eq_map ..] at lt

/-! ## Local storage -/

theorem awake_on (env : Env) (c : Cmd) (w : Work) (n : Nat) (h : w.p.powerOf n = 0) : awake n ⟨env, c⟩ w = .ok () w := by
  unfold awake
  simp [run_bind, run_pkg, h, run_pure]

/-- A write of local bytes at a range that lies in one view, on a core whose cluster is on. -/
theorem localWrite_quiet {p : Pkg} {c : Cmd} (env : Env) {a : Nat} {bs : List Byte} {w : Work} (q : Quiet p c w)
    (ok : localOk a bs.length = true) (on : p.powerOf (coreOf c.ctx) = 0) :
    ∃ w', localWrite a bs ⟨env, c⟩ w = .ok () w' ∧ LaterBy p c (localWrites (coreOf c.ctx) a bs) w w' := by
  obtain ⟨t, n, hp, ht⟩ := q.pkg
  have aw := awake_on env c w (coreOf c.ctx) (by rw [hp]; exact on)
  have hn := run_need 2 ok ⟨env, c⟩ w
  obtain ⟨w', e, lt⟩ := writeAll_quiet (v := ⟨env, c⟩) (fun x => [x]) emitWrite (localWrites (coreOf c.ctx) a bs) q fun x _ u hu =>
    ⟨{ u with writes := u.writes ++ [x] }, rfl, ⟨⟨hu.pkg, hu.leaves, hu.whole, hu.replay, hu.pending, hu.quiet⟩, rfl, rfl, rfl, rfl⟩⟩
  refine ⟨w', ?_, by simpa using lt⟩
  unfold localWrite
  simp only [run_bind, run_read, hn, aw]
  simpa only [run_bind] using e

/-- A read of one word of scratchpad in a clean core. -/
theorem readWord_quiet {p : Pkg} {c : Cmd} (env : Env) {a n : Nat} {w : Work} (q : Quiet p c w) (ha : a < 0x2000000)
    (hc : Clean p (coreOf c.ctx)) : Eng.readWord a n ⟨env, c⟩ w = .ok (localBytes w.p c a n) w := by
  obtain ⟨t, m, hp, ht⟩ := q.pkg
  have hz : ∀ x, (w.p.k (coreOf c.ctx)).poison.get x = false := by intro x; rw [hp]; exact hc.2 x
  unfold Eng.readWord
  simp only [run_bind, run_read, run_pkg, ha, if_true, hz]
  simp [run_bind, run_pure, spendWord, run_get, q.whole, localBytes]

/-- A read of scratchpad bytes at a range that lies in one view, of a clean core. -/
theorem localRead_quiet {p : Pkg} {c : Cmd} (env : Env) {a n : Nat} {w : Work} (q : Quiet p c w) (ok : localOk a n = true)
    (ha : a < 0x2000000) (hc : Clean p (coreOf c.ctx)) :
    ∃ w', localRead a n ⟨env, c⟩ w = .ok (localBytes w.p c a n) w' ∧ Later p c w w' := by
  obtain ⟨t, m, hp, ht⟩ := q.pkg
  have aw := awake_on env c w (coreOf c.ctx) (by rw [hp]; exact hc.1)
  have hn := run_need 2 ok ⟨env, c⟩ w
  have hs : ∀ x ∈ blocks 4 a n, x.1 < 0x2000000 ∧ decide (spadSize ≤ x.1) = decide (spadSize ≤ a) := by
    intro x hx
    obtain ⟨h1, h2, h3, h4⟩ := blocks_block (.inl rfl) hx
    have hz : spadSize = 0x800000 := rfl
    simp only [localOk, Bool.or_eq_true, Bool.and_eq_true, decide_eq_true_eq] at ok
    refine ⟨by omega, ?_⟩
    rw [decide_eq_decide]
    omega
  let f (b : Nat) : Byte := BitVec.ofNat 8
    ((engineWord w.p (w.p.cmd c.id) (decide (spadSize ≤ a)) (spadByte b / 4)).toNat / 256 ^ (spadByte b % 4))
  obtain ⟨u, e, l, hu⟩ := readAll_quiet (v := ⟨env, c⟩) (fun x => x = w.p) (fun x : Nat × Nat => (List.range x.2).map fun i => f (x.1 + i))
    (fun q => Eng.readWord q.1 q.2) (blocks 4 a n) q rfl fun x hx u hu e => by
      obtain ⟨h2, h3⟩ := hs x hx
      refine ⟨u, ?_, .rfl hu, e⟩
      rw [readWord_quiet env hu h2 hc, e]
      unfold localBytes
      rw [h3]
  obtain ⟨t', n', e', d'⟩ := l.quiet.pkg
  refine ⟨_, ?_, l.trans (l.quiet.drawn (0x400000 * ((u.p.k (coreOf c.ctx)).stale.length + (u.p.c c.ctx).flight.length + 1)))⟩
  unfold localRead
  simp only [run_bind, run_read, hn, aw, e]
  rw [blocks_flatMap (.inl rfl) f a n]
  rfl

/-! ## What a command's step comes to -/

/-- A fresh command whose accesses are all accepted has started, with the writes, the late writes and the status that they come to. -/
theorem run_started {c : Cmd} {body : Eng Unit} {s : State} {w : Work} (h : s.pkg.present c.id = true) (f : Fresh (s.pkg.cmd c.id))
    (hc : w.p.cmd c.id = s.pkg.cmd c.id) (hst : w.stamp = none) (hs : w.status = 0) (a : Accepted body c s w) :
    ∃ t, runCmd c body s = .next t ∧ Started (t.pkg.cmd c.id) 0 (w.writes.flatMap splitWrite) w.late ∧
      ∃ g, t.pkg = w.p.modCmd c.id g := by
  refine ⟨_, runCmd_accepted h a, ?_, (fun m => if m.phase = .arrived then m else
    { w.save m with phase := .started, status := if w.status = 0 then m.status else w.status, late := w.late, log := [], parts := [] }), rfl⟩
  constructor <;> simp [hc, f.phase, hst, hs, Work.save, f.writes, f.status]

end Sys2Proof.Machine
end

