-- ==== Sys2Proof/Laws/PerInstr.lean ====
section
/-! SUPPORT. A statement for every row of the table, as syntax: its trigger code, where it has one, names it. -/

namespace Sys2Proof.Laws.TriggerCodes

/-- R126, R136: the code of a row that a bundle triggers is a trigger port, and the operation at that port is the row: a step of a
unit, a step that an engine unit takes at the trigger, or an engine command with its operands. -/
def Statement (i : Instr) : Prop :=
  ∀ code, triggerCode i = some code →
    let f := (code - 0x200) / 32
    let op := code % 32
    decodeDst (BitVec.ofNat 10 code) = .ok (.trigger f op) ∧ encodeDst (.trigger f op) = BitVec.ofNat 10 code ∧
    (triggerStep f op = some i ∨ engineStep f op = some (.now i) ∨ ∃ mk c, engineStep f op = some (.command mk) ∧ mk c = i)

/-- A row without a trigger code. -/
theorem of_none {i : Instr} (h : triggerCode i = none) : Statement i := fun code hc => by rw [h] at hc; cases hc

/-- A row with the trigger code `n`. -/
theorem of_code {i : Instr} {n : Nat} (h : triggerCode i = some n)
    (a : decodeDst (BitVec.ofNat 10 n) = .ok (.trigger ((n - 0x200) / 32) (n % 32)) ∧
      encodeDst (.trigger ((n - 0x200) / 32) (n % 32)) = BitVec.ofNat 10 n)
    (b : triggerStep ((n - 0x200) / 32) (n % 32) = some i ∨ engineStep ((n - 0x200) / 32) (n % 32) = some (.now i) ∨
      ∃ mk c, engineStep ((n - 0x200) / 32) (n % 32) = some (.command mk) ∧ mk c = i) : Statement i := by
  intro code hc
  rw [h] at hc
  cases hc
  exact ⟨a.1, a.2, b⟩

theorem bundleIssue (x : Nat) (b : Bundle) : Statement (.bundleIssue x b) := of_none rfl
theorem entryLanding (x : Nat) : Statement (.entryLanding x) := of_none rfl
theorem branchEffect (x : Nat) : Statement (.branchEffect x) := of_none rfl
theorem contextChoose (core : Nat) : Statement (.contextChoose core) := of_none rfl
theorem quantumExpiry (core : Nat) : Statement (.quantumExpiry core) := of_none rfl
theorem agingExpiry (core : Nat) : Statement (.agingExpiry core) := of_none rfl
theorem sleepWake (x : Nat) : Statement (.sleepWake x) := of_none rfl
theorem waitTimeout (x : Nat) : Statement (.waitTimeout x) := of_none rfl
theorem partBind (x : Nat) : Statement (.partBind x) := of_none rfl
theorem kernelImageLoad (core node : Nat) : Statement (.kernelImageLoad core node) := of_none rfl
theorem partEnd (x : Nat) : Statement (.partEnd x) := of_none rfl
theorem nodeStart (node : Nat) : Statement (.nodeStart node) := of_none rfl
theorem nodeComplete (node : Nat) : Statement (.nodeComplete node) := of_none rfl
theorem nodeCommit (node : Nat) : Statement (.nodeCommit node) := of_none rfl
theorem recordTake : Statement .recordTake := of_none rfl
theorem gangProposalReceive (node pkg : Nat) (m : GangWord) : Statement (.gangProposalReceive node pkg m) := of_none rfl
theorem gangTimeout (node : Nat) : Statement (.gangTimeout node) := of_none rfl
theorem gangStartTick (node : Nat) : Statement (.gangStartTick node) := of_none rfl
theorem preemptHint (core : Nat) : Statement (.preemptHint core) := of_none rfl
theorem engineCommandStart (id : Nat) : Statement (.engineCommandStart id) := of_none rfl
theorem tokenComplete (id : Nat) : Statement (.tokenComplete id) := of_none rfl
theorem tileTake (id : Nat) : Statement (.tileTake id) := of_none rfl
theorem noticeOffer (nid : Nat) : Statement (.noticeOffer nid) := of_none rfl
theorem noticeReoffer (nid : Nat) : Statement (.noticeReoffer nid) := of_none rfl
theorem episodeComplete (node group number : Nat) : Statement (.episodeComplete node group number) := of_none rfl
theorem acqwTimeout (id : Nat) : Statement (.acqwTimeout id) := of_none rfl
theorem buDriveStep (ch : Nat) : Statement (.buDriveStep ch) := of_none rfl
theorem sysRecordWrite (x : Nat) : Statement (.sysRecordWrite x) := of_none rfl
theorem hostAtsInvalidate (asid va : Nat) : Statement (.hostAtsInvalidate asid va) := of_none rfl
theorem faultRecordPost (source : Nat) : Statement (.faultRecordPost source) := of_none rfl
theorem eventLogAppend : Statement .eventLogAppend := of_none rfl
theorem cpMismatch (pair : Nat) : Statement (.cpMismatch pair) := of_none rfl
theorem correctedError (site : ErrorSite) : Statement (.correctedError site) := of_none rfl
theorem repairStepComplete (tile : Nat) : Statement (.repairStepComplete tile) := of_none rfl
theorem repairComplete (tile : Nat) : Statement (.repairComplete tile) := of_none rfl
theorem planeRemapComplete (tile : Nat) : Statement (.planeRemapComplete tile) := of_none rfl
theorem moveComplete : Statement .moveComplete := of_none rfl
theorem moveQuiet : Statement .moveQuiet := of_none rfl
theorem skimPage : Statement .skimPage := of_none rfl
theorem skimPassEnd : Statement .skimPassEnd := of_none rfl
theorem hostWindowRead (fn offset n : Nat) : Statement (.hostWindowRead fn offset n) := of_none rfl
theorem hostWindowWrite (fn offset : Nat) (data : List Byte) : Statement (.hostWindowWrite fn offset data) := of_none rfl
theorem qTailStore (q v : Nat) (how : StorePath) : Statement (.qTailStore q v how) := of_none rfl
theorem qCplHeadStore (q v : Nat) (how : StorePath) : Statement (.qCplHeadStore q v how) := of_none rfl
theorem hostLinkDown : Statement .hostLinkDown := of_none rfl
theorem hostPoisonedCompletion (id : Nat) : Statement (.hostPoisonedCompletion id) := of_none rfl
theorem hostPtmRequest (time : Nat) : Statement (.hostPtmRequest time) := of_none rfl
theorem edgePortFail (port : Nat) : Statement (.edgePortFail port) := of_none rfl
theorem ulalmMessageReceive (port : Nat) (m : LinkMessage) : Statement (.ulalmMessageReceive port m) := of_none rfl
theorem dieLinkFail (link : Nat) : Statement (.dieLinkFail link) := of_none rfl
theorem timeSyncMessage (port : Nat) (time : TimeWord) : Statement (.timeSyncMessage port time) := of_none rfl
theorem resetNRelease (failStep : Nat) : Statement (.resetNRelease failStep) := of_none rfl
theorem powerCapExceed (reading : Nat) : Statement (.powerCapExceed reading) := of_none rfl
theorem powerHeadroom (reading : Nat) : Statement (.powerHeadroom reading) := of_none rfl
theorem tempHot (reading : Nat) : Statement (.tempHot reading) := of_none rfl
theorem tempCool (reading : Nat) : Statement (.tempCool reading) := of_none rfl
theorem thermTrip (reading : Nat) : Statement (.thermTrip reading) := of_none rfl
theorem cluPwrTransitionEnd (cluster : Nat) : Statement (.cluPwrTransitionEnd cluster) := of_none rfl
theorem launchCtlWrite (v : Nat) : Statement (.launchCtlWrite v) := of_none rfl
theorem qCtlEnable (q v : Nat) : Statement (.qCtlEnable q v) := of_none rfl
theorem faultCtlEnable (v : Nat) : Statement (.faultCtlEnable v) := of_none rfl
theorem evlogCtlEnable (v : Nat) : Statement (.evlogCtlEnable v) := of_none rfl
theorem faultHeadWrite (v : Nat) : Statement (.faultHeadWrite v) := of_none rfl
theorem evlogHeadWrite (v : Nat) : Statement (.evlogHeadWrite v) := of_none rfl
theorem cpStatClear (v : Nat) : Statement (.cpStatClear v) := of_none rfl
theorem nodeAbortRollback (v : Nat) : Statement (.nodeAbortRollback v) := of_none rfl
theorem nodeAbortFail (v : Nat) : Statement (.nodeAbortFail v) := of_none rfl
theorem transResolveRetry (v : Nat) : Statement (.transResolveRetry v) := of_none rfl
theorem transResolveFail (v : Nat) : Statement (.transResolveFail v) := of_none rfl
theorem poisonClr (v : Nat) : Statement (.poisonClr v) := of_none rfl
theorem repairResolveRemap (v : Nat) : Statement (.repairResolveRemap v) := of_none rfl
theorem repairResolveRelease (v : Nat) : Statement (.repairResolveRelease v) := of_none rfl
theorem repairResolveFail (v : Nat) : Statement (.repairResolveFail v) := of_none rfl
theorem movePageHoldSet (v : Nat) : Statement (.movePageHoldSet v) := of_none rfl
theorem movePageHoldClear (v : Nat) : Statement (.movePageHoldClear v) := of_none rfl
theorem moveCtlGo (v : Nat) : Statement (.moveCtlGo v) := of_none rfl
theorem skimCtlGo (v : Nat) : Statement (.skimCtlGo v) := of_none rfl
theorem spadFailWrite (core v : Nat) : Statement (.spadFailWrite core v) := of_none rfl
theorem pkgResetWrite (v : Nat) : Statement (.pkgResetWrite v) := of_none rfl
theorem cluPwrLower (cluster v : Nat) : Statement (.cluPwrLower cluster v) := of_none rfl
theorem cluPwrRaise (cluster v : Nat) : Statement (.cluPwrRaise cluster v) := of_none rfl
theorem registerWrite (addr v : Nat) : Statement (.registerWrite addr v) := of_none rfl
theorem ecCopy (c : Cmd) : Statement (.ecCopy c) := of_code rfl (by decide) (.inr (.inr ⟨_, _, rfl, rfl⟩))
theorem ecCopyl (c : Cmd) : Statement (.ecCopyl c) := of_code rfl (by decide) (.inr (.inr ⟨_, _, rfl, rfl⟩))
theorem ecRetile (c : Cmd) : Statement (.ecRetile c) := of_code rfl (by decide) (.inr (.inr ⟨_, _, rfl, rfl⟩))
theorem ecKick (c : Cmd) : Statement (.ecKick c) := of_code rfl (by decide) (.inr (.inr ⟨_, _, rfl, rfl⟩))
theorem ecPull (c : Cmd) : Statement (.ecPull c) := of_code rfl (by decide) (.inr (.inr ⟨_, _, rfl, rfl⟩))
theorem ecAmo (c : Cmd) : Statement (.ecAmo c) := of_code rfl (by decide) (.inr (.inr ⟨_, _, rfl, rfl⟩))
theorem ecAmor (c : Cmd) : Statement (.ecAmor c) := of_code rfl (by decide) (.inr (.inr ⟨_, _, rfl, rfl⟩))
theorem ecAcq (c : Cmd) : Statement (.ecAcq c) := of_code rfl (by decide) (.inr (.inr ⟨_, _, rfl, rfl⟩))
theorem ecAcqw (c : Cmd) : Statement (.ecAcqw c) := of_code rfl (by decide) (.inr (.inr ⟨_, _, rfl, rfl⟩))
theorem ecRel (c : Cmd) : Statement (.ecRel c) := of_code rfl (by decide) (.inr (.inr ⟨_, _, rfl, rfl⟩))
theorem ecBind (c : Cmd) : Statement (.ecBind c) := of_code rfl (by decide) (.inr (.inr ⟨_, _, rfl, rfl⟩))
theorem ecUnbind (c : Cmd) : Statement (.ecUnbind c) := of_code rfl (by decide) (.inr (.inr ⟨_, _, rfl, rfl⟩))
theorem ecBar (c : Cmd) : Statement (.ecBar c) := of_code rfl (by decide) (.inr (.inr ⟨_, _, rfl, rfl⟩))
theorem ecColl (c : Cmd) : Statement (.ecColl c) := of_code rfl (by decide) (.inr (.inr ⟨_, _, rfl, rfl⟩))
theorem ecPref (c : Cmd) : Statement (.ecPref c) := of_code rfl (by decide) (.inr (.inr ⟨_, _, rfl, rfl⟩))
theorem ecStampw (c : Cmd) : Statement (.ecStampw c) := of_code rfl (by decide) (.inr (.inr ⟨_, _, rfl, rfl⟩))
theorem ecFenceE (c : Cmd) : Statement (.ecFenceE c) := of_code rfl (by decide) (.inr (.inr ⟨_, _, rfl, rfl⟩))
theorem ecxWld (c : Cmd) : Statement (.ecxWld c) := of_code rfl (by decide) (.inr (.inr ⟨_, _, rfl, rfl⟩))
theorem ecxMx (c : Cmd) : Statement (.ecxMx c) := of_code rfl (by decide) (.inr (.inr ⟨_, _, rfl, rfl⟩))
theorem ecxMxs (c : Cmd) : Statement (.ecxMxs c) := of_code rfl (by decide) (.inr (.inr ⟨_, _, rfl, rfl⟩))
theorem ecxMxsel (c : Cmd) : Statement (.ecxMxsel c) := of_code rfl (by decide) (.inr (.inr ⟨_, _, rfl, rfl⟩))
theorem ecxSwap (c : Cmd) : Statement (.ecxSwap c) := of_code rfl (by decide) (.inr (.inr ⟨_, _, rfl, rfl⟩))
theorem ecxCbt (c : Cmd) : Statement (.ecxCbt c) := of_code rfl (by decide) (.inr (.inr ⟨_, _, rfl, rfl⟩))
theorem ecxKvapp (c : Cmd) : Statement (.ecxKvapp c) := of_code rfl (by decide) (.inr (.inr ⟨_, _, rfl, rfl⟩))
theorem ecxKvsel (c : Cmd) : Statement (.ecxKvsel c) := of_code rfl (by decide) (.inr (.inr ⟨_, _, rfl, rfl⟩))
theorem ecxKvtrunc (c : Cmd) : Statement (.ecxKvtrunc c) := of_code rfl (by decide) (.inr (.inr ⟨_, _, rfl, rfl⟩))
theorem ecxKvfork (c : Cmd) : Statement (.ecxKvfork c) := of_code rfl (by decide) (.inr (.inr ⟨_, _, rfl, rfl⟩))
theorem ecxSig (c : Cmd) : Statement (.ecxSig c) := of_code rfl (by decide) (.inr (.inr ⟨_, _, rfl, rfl⟩))
theorem ecxSigld (c : Cmd) : Statement (.ecxSigld c) := of_code rfl (by decide) (.inr (.inr ⟨_, _, rfl, rfl⟩))
theorem ecxBuLoad (c : Cmd) : Statement (.ecxBuLoad c) := of_code rfl (by decide) (.inr (.inr ⟨_, _, rfl, rfl⟩))
theorem ecxBuMode (c : Cmd) : Statement (.ecxBuMode c) := of_code rfl (by decide) (.inr (.inr ⟨_, _, rfl, rfl⟩))
theorem ecxBuDrive (c : Cmd) : Statement (.ecxBuDrive c) := of_code rfl (by decide) (.inr (.inr ⟨_, _, rfl, rfl⟩))
theorem ecxChk (c : Cmd) : Statement (.ecxChk c) := of_code rfl (by decide) (.inr (.inr ⟨_, _, rfl, rfl⟩))
theorem twNop : Statement .twNop := of_none rfl
theorem twLd (rd : BitVec 5) : Statement (.twLd rd) := of_none rfl
theorem twSt (ra : BitVec 5) : Statement (.twSt ra) := of_none rfl
theorem twAddI32 (rd ra rb : BitVec 5) : Statement (.twAddI32 rd ra rb) := of_none rfl
theorem twSubI32 (rd ra rb : BitVec 5) : Statement (.twSubI32 rd ra rb) := of_none rfl
theorem twMulI32 (rd ra rb : BitVec 5) : Statement (.twMulI32 rd ra rb) := of_none rfl
theorem twAddF32 (rd ra rb : BitVec 5) : Statement (.twAddF32 rd ra rb) := of_none rfl
theorem twSubF32 (rd ra rb : BitVec 5) : Statement (.twSubF32 rd ra rb) := of_none rfl
theorem twMulF32 (rd ra rb : BitVec 5) : Statement (.twMulF32 rd ra rb) := of_none rfl
theorem twFmaF32 (rd ra rb rc : BitVec 5) : Statement (.twFmaF32 rd ra rb rc) := of_none rfl
theorem twMin (rd ra rb : BitVec 5) (f : Bool) : Statement (.twMin rd ra rb f) := of_none rfl
theorem twMax (rd ra rb : BitVec 5) (f : Bool) : Statement (.twMax rd ra rb f) := of_none rfl
theorem twAnd (rd ra rb : BitVec 5) : Statement (.twAnd rd ra rb) := of_none rfl
theorem twOr (rd ra rb : BitVec 5) : Statement (.twOr rd ra rb) := of_none rfl
theorem twXor (rd ra rb : BitVec 5) : Statement (.twXor rd ra rb) := of_none rfl
theorem twShlReg (rd ra rb : BitVec 5) : Statement (.twShlReg rd ra rb) := of_none rfl
theorem twShlImm (rd ra : BitVec 5) (s : BitVec 5) : Statement (.twShlImm rd ra s) := of_none rfl
theorem twShrReg (rd ra rb : BitVec 5) : Statement (.twShrReg rd ra rb) := of_none rfl
theorem twShrImm (rd ra : BitVec 5) (s : BitVec 5) : Statement (.twShrImm rd ra s) := of_none rfl
theorem twSraReg (rd ra rb : BitVec 5) : Statement (.twSraReg rd ra rb) := of_none rfl
theorem twSraImm (rd ra : BitVec 5) (s : BitVec 5) : Statement (.twSraImm rd ra s) := of_none rfl
theorem twCmp (ra rb : BitVec 5) (m : BitVec 2) (c : BitVec 3) : Statement (.twCmp ra rb m c) := of_none rfl
theorem twSel (rd ra rb : BitVec 5) : Statement (.twSel rd ra rb) := of_none rfl
theorem twHmix (rd ra rb : BitVec 5) : Statement (.twHmix rd ra rb) := of_none rfl
theorem twLoop (n : BitVec 16) : Statement (.twLoop n) := of_none rfl
theorem twLoopx (n : BitVec 16) : Statement (.twLoopx n) := of_none rfl
theorem twEndl : Statement .twEndl := of_none rfl
theorem twHalt : Statement .twHalt := of_none rfl
theorem resetNAssert : Statement .resetNAssert := of_none rfl
theorem memorySideCacheFillLands (line : Nat) : Statement (.memorySideCacheFillLands line) := of_none rfl
theorem edgePortTrained (port : Nat) : Statement (.edgePortTrained port) := of_none rfl
theorem saAdd : Statement .saAdd := of_code rfl (by decide) (.inl rfl)
theorem saSub : Statement .saSub := of_code rfl (by decide) (.inl rfl)
theorem saAnd : Statement .saAnd := of_code rfl (by decide) (.inl rfl)
theorem saOr : Statement .saOr := of_code rfl (by decide) (.inl rfl)
theorem saXor : Statement .saXor := of_code rfl (by decide) (.inl rfl)
theorem saAndn : Statement .saAndn := of_code rfl (by decide) (.inl rfl)
theorem saShl : Statement .saShl := of_code rfl (by decide) (.inl rfl)
theorem saShr : Statement .saShr := of_code rfl (by decide) (.inl rfl)
theorem saSra : Statement .saSra := of_code rfl (by decide) (.inl rfl)
theorem saRol : Statement .saRol := of_code rfl (by decide) (.inl rfl)
theorem saMinI : Statement .saMinI := of_code rfl (by decide) (.inl rfl)
theorem saMaxI : Statement .saMaxI := of_code rfl (by decide) (.inl rfl)
theorem saMinN : Statement .saMinN := of_code rfl (by decide) (.inl rfl)
theorem saMaxN : Statement .saMaxN := of_code rfl (by decide) (.inl rfl)
theorem saEq : Statement .saEq := of_code rfl (by decide) (.inl rfl)
theorem saNe : Statement .saNe := of_code rfl (by decide) (.inl rfl)
theorem saLtI : Statement .saLtI := of_code rfl (by decide) (.inl rfl)
theorem saLtN : Statement .saLtN := of_code rfl (by decide) (.inl rfl)
theorem saLeI : Statement .saLeI := of_code rfl (by decide) (.inl rfl)
theorem saLeN : Statement .saLeN := of_code rfl (by decide) (.inl rfl)
theorem saSel : Statement .saSel := of_code rfl (by decide) (.inl rfl)
theorem saPass : Statement .saPass := of_code rfl (by decide) (.inl rfl)
theorem saSxt : Statement .saSxt := of_code rfl (by decide) (.inl rfl)
theorem saZxt : Statement .saZxt := of_code rfl (by decide) (.inl rfl)
theorem saClz : Statement .saClz := of_code rfl (by decide) (.inl rfl)
theorem saCtz : Statement .saCtz := of_code rfl (by decide) (.inl rfl)
theorem saPopc : Statement .saPopc := of_code rfl (by decide) (.inl rfl)
theorem saBrev : Statement .saBrev := of_code rfl (by decide) (.inl rfl)
theorem saAddsh : Statement .saAddsh := of_code rfl (by decide) (.inl rfl)
theorem saBfx : Statement .saBfx := of_code rfl (by decide) (.inl rfl)
theorem saBfi : Statement .saBfi := of_code rfl (by decide) (.inl rfl)
theorem smMul : Statement .smMul := of_code rfl (by decide) (.inl rfl)
theorem smMulhI : Statement .smMulhI := of_code rfl (by decide) (.inl rfl)
theorem smMulhN : Statement .smMulhN := of_code rfl (by decide) (.inl rfl)
theorem smMad : Statement .smMad := of_code rfl (by decide) (.inl rfl)
theorem smMulwI : Statement .smMulwI := of_code rfl (by decide) (.inl rfl)
theorem smMulwN : Statement .smMulwN := of_code rfl (by decide) (.inl rfl)
theorem smDivI : Statement .smDivI := of_code rfl (by decide) (.inl rfl)
theorem smDivN : Statement .smDivN := of_code rfl (by decide) (.inl rfl)
theorem smRemI : Statement .smRemI := of_code rfl (by decide) (.inl rfl)
theorem smRemN : Statement .smRemN := of_code rfl (by decide) (.inl rfl)
theorem brJmp : Statement .brJmp := of_code rfl (by decide) (.inl rfl)
theorem brCall : Statement .brCall := of_code rfl (by decide) (.inl rfl)
theorem brRet : Statement .brRet := of_code rfl (by decide) (.inl rfl)
theorem brBrz : Statement .brBrz := of_code rfl (by decide) (.inl rfl)
theorem brBrnz : Statement .brBrnz := of_code rfl (by decide) (.inl rfl)
theorem brLoop : Statement .brLoop := of_code rfl (by decide) (.inl rfl)
theorem brLoopx : Statement .brLoopx := of_code rfl (by decide) (.inl rfl)
theorem brSetlc : Statement .brSetlc := of_code rfl (by decide) (.inl rfl)
theorem brSetlcx : Statement .brSetlcx := of_code rfl (by decide) (.inl rfl)
theorem brRot : Statement .brRot := of_code rfl (by decide) (.inl rfl)
theorem brEnd : Statement .brEnd := of_code rfl (by decide) (.inl rfl)
theorem brYield : Statement .brYield := of_code rfl (by decide) (.inl rfl)
theorem brTrap : Statement .brTrap := of_code rfl (by decide) (.inl rfl)
theorem brRett : Statement .brRett := of_code rfl (by decide) (.inl rfl)
theorem brSleep : Statement .brSleep := of_code rfl (by decide) (.inl rfl)
theorem lsLdB : Statement .lsLdB := of_code rfl (by decide) (.inl rfl)
theorem lsLdH : Statement .lsLdH := of_code rfl (by decide) (.inl rfl)
theorem lsLdW : Statement .lsLdW := of_code rfl (by decide) (.inl rfl)
theorem lsLdD : Statement .lsLdD := of_code rfl (by decide) (.inl rfl)
theorem lsLdfW : Statement .lsLdfW := of_code rfl (by decide) (.inl rfl)
theorem lsLdcW : Statement .lsLdcW := of_code rfl (by decide) (.inl rfl)
theorem lsLdfD : Statement .lsLdfD := of_code rfl (by decide) (.inl rfl)
theorem lsLdcD : Statement .lsLdcD := of_code rfl (by decide) (.inl rfl)
theorem lsStB : Statement .lsStB := of_code rfl (by decide) (.inl rfl)
theorem lsStH : Statement .lsStH := of_code rfl (by decide) (.inl rfl)
theorem lsStW : Statement .lsStW := of_code rfl (by decide) (.inl rfl)
theorem lsStD : Statement .lsStD := of_code rfl (by decide) (.inl rfl)
theorem lsStpW : Statement .lsStpW := of_code rfl (by decide) (.inl rfl)
theorem lsStpD : Statement .lsStpD := of_code rfl (by decide) (.inl rfl)
theorem lsStnW : Statement .lsStnW := of_code rfl (by decide) (.inl rfl)
theorem lsLdV : Statement .lsLdV := of_code rfl (by decide) (.inl rfl)
theorem lsLdfV : Statement .lsLdfV := of_code rfl (by decide) (.inl rfl)
theorem lsLdcV : Statement .lsLdcV := of_code rfl (by decide) (.inl rfl)
theorem lsStV : Statement .lsStV := of_code rfl (by decide) (.inl rfl)
theorem lsStpV : Statement .lsStpV := of_code rfl (by decide) (.inl rfl)
theorem lsStnV : Statement .lsStnV := of_code rfl (by decide) (.inl rfl)
theorem lsLdVs : Statement .lsLdVs := of_code rfl (by decide) (.inl rfl)
theorem lsStVs : Statement .lsStVs := of_code rfl (by decide) (.inl rfl)
theorem lsLdVb : Statement .lsLdVb := of_code rfl (by decide) (.inl rfl)
theorem lsLdVg : Statement .lsLdVg := of_code rfl (by decide) (.inl rfl)
theorem lsStVg : Statement .lsStVg := of_code rfl (by decide) (.inl rfl)
theorem lsLdTg : Statement .lsLdTg := of_code rfl (by decide) (.inl rfl)
theorem lsStTg : Statement .lsStTg := of_code rfl (by decide) (.inl rfl)
theorem lsLdAcc : Statement .lsLdAcc := of_code rfl (by decide) (.inl rfl)
theorem lsLdfAcc : Statement .lsLdfAcc := of_code rfl (by decide) (.inl rfl)
theorem lsStAcc : Statement .lsStAcc := of_code rfl (by decide) (.inl rfl)
theorem lsLdSc : Statement .lsLdSc := of_code rfl (by decide) (.inl rfl)
theorem vfAddF32 : Statement .vfAddF32 := of_code rfl (by decide) (.inl rfl)
theorem vfSubF32 : Statement .vfSubF32 := of_code rfl (by decide) (.inl rfl)
theorem vfMulF32 : Statement .vfMulF32 := of_code rfl (by decide) (.inl rfl)
theorem vfFmaF32 : Statement .vfFmaF32 := of_code rfl (by decide) (.inl rfl)
theorem vfFms : Statement .vfFms := of_code rfl (by decide) (.inl rfl)
theorem vfFnma : Statement .vfFnma := of_code rfl (by decide) (.inl rfl)
theorem vfMinF32 : Statement .vfMinF32 := of_code rfl (by decide) (.inl rfl)
theorem vfMaxF32 : Statement .vfMaxF32 := of_code rfl (by decide) (.inl rfl)
theorem vfAbsF32 : Statement .vfAbsF32 := of_code rfl (by decide) (.inl rfl)
theorem vfNegF32 : Statement .vfNegF32 := of_code rfl (by decide) (.inl rfl)
theorem vfSclF32 : Statement .vfSclF32 := of_code rfl (by decide) (.inl rfl)
theorem vfAddBf16 : Statement .vfAddBf16 := of_code rfl (by decide) (.inl rfl)
theorem vfMulBf16 : Statement .vfMulBf16 := of_code rfl (by decide) (.inl rfl)
theorem vfFmaBf16 : Statement .vfFmaBf16 := of_code rfl (by decide) (.inl rfl)
theorem vfDotBf16 : Statement .vfDotBf16 := of_code rfl (by decide) (.inl rfl)
theorem vfAddF16 : Statement .vfAddF16 := of_code rfl (by decide) (.inl rfl)
theorem vfMulF16 : Statement .vfMulF16 := of_code rfl (by decide) (.inl rfl)
theorem vfFmaF16 : Statement .vfFmaF16 := of_code rfl (by decide) (.inl rfl)
theorem vfDotF16 : Statement .vfDotF16 := of_code rfl (by decide) (.inl rfl)
theorem vfCmpEqF32 : Statement .vfCmpEqF32 := of_code rfl (by decide) (.inl rfl)
theorem vfCmpLtF32 : Statement .vfCmpLtF32 := of_code rfl (by decide) (.inl rfl)
theorem vfCmpLeF32 : Statement .vfCmpLeF32 := of_code rfl (by decide) (.inl rfl)
theorem vfCmpUnF32 : Statement .vfCmpUnF32 := of_code rfl (by decide) (.inl rfl)
theorem vfAmx : Statement .vfAmx := of_code rfl (by decide) (.inl rfl)
theorem vfCls : Statement .vfCls := of_code rfl (by decide) (.inl rfl)
theorem viAddI32 : Statement .viAddI32 := of_code rfl (by decide) (.inl rfl)
theorem viSubI32 : Statement .viSubI32 := of_code rfl (by decide) (.inl rfl)
theorem viMulI32 : Statement .viMulI32 := of_code rfl (by decide) (.inl rfl)
theorem viAnd : Statement .viAnd := of_code rfl (by decide) (.inl rfl)
theorem viOr : Statement .viOr := of_code rfl (by decide) (.inl rfl)
theorem viXor : Statement .viXor := of_code rfl (by decide) (.inl rfl)
theorem viAndn : Statement .viAndn := of_code rfl (by decide) (.inl rfl)
theorem viShl : Statement .viShl := of_code rfl (by decide) (.inl rfl)
theorem viShr : Statement .viShr := of_code rfl (by decide) (.inl rfl)
theorem viSra : Statement .viSra := of_code rfl (by decide) (.inl rfl)
theorem viMinI32 : Statement .viMinI32 := of_code rfl (by decide) (.inl rfl)
theorem viMaxI32 : Statement .viMaxI32 := of_code rfl (by decide) (.inl rfl)
theorem viMinN32 : Statement .viMinN32 := of_code rfl (by decide) (.inl rfl)
theorem viMaxN32 : Statement .viMaxN32 := of_code rfl (by decide) (.inl rfl)
theorem viEqI32 : Statement .viEqI32 := of_code rfl (by decide) (.inl rfl)
theorem viLtI32 : Statement .viLtI32 := of_code rfl (by decide) (.inl rfl)
theorem viLtN32 : Statement .viLtN32 := of_code rfl (by decide) (.inl rfl)
theorem viSel : Statement .viSel := of_code rfl (by decide) (.inl rfl)
theorem viBc : Statement .viBc := of_code rfl (by decide) (.inl rfl)
theorem viIota : Statement .viIota := of_code rfl (by decide) (.inl rfl)
theorem viAddI16 : Statement .viAddI16 := of_code rfl (by decide) (.inl rfl)
theorem viSubI16 : Statement .viSubI16 := of_code rfl (by decide) (.inl rfl)
theorem viAddsI8 : Statement .viAddsI8 := of_code rfl (by decide) (.inl rfl)
theorem viMand : Statement .viMand := of_code rfl (by decide) (.inl rfl)
theorem viMor : Statement .viMor := of_code rfl (by decide) (.inl rfl)
theorem viMxor : Statement .viMxor := of_code rfl (by decide) (.inl rfl)
theorem viMnot : Statement .viMnot := of_code rfl (by decide) (.inl rfl)
theorem viMpop : Statement .viMpop := of_code rfl (by decide) (.inl rfl)
theorem viMfirst : Statement .viMfirst := of_code rfl (by decide) (.inl rfl)
theorem viMlast : Statement .viMlast := of_code rfl (by decide) (.inl rfl)
theorem viPopcI32 : Statement .viPopcI32 := of_code rfl (by decide) (.inl rfl)
theorem viClzI32 : Statement .viClzI32 := of_code rfl (by decide) (.inl rfl)
theorem vcCvt : Statement .vcCvt := of_code rfl (by decide) (.inl rfl)
theorem vcCvtwLo : Statement .vcCvtwLo := of_code rfl (by decide) (.inl rfl)
theorem vcCvtwHi : Statement .vcCvtwHi := of_code rfl (by decide) (.inl rfl)
theorem vcPack : Statement .vcPack := of_code rfl (by decide) (.inl rfl)
theorem vcF2i : Statement .vcF2i := of_code rfl (by decide) (.inl rfl)
theorem vcI2f : Statement .vcI2f := of_code rfl (by decide) (.inl rfl)
theorem vcQmx : Statement .vcQmx := of_code rfl (by decide) (.inl rfl)
theorem vcDqmx : Statement .vcDqmx := of_code rfl (by decide) (.inl rfl)
theorem vcCbd : Statement .vcCbd := of_code rfl (by decide) (.inl rfl)
theorem vcRint : Statement .vcRint := of_code rfl (by decide) (.inl rfl)
theorem vcCvta : Statement .vcCvta := of_code rfl (by decide) (.inl rfl)
theorem vcSetsc : Statement .vcSetsc := of_code rfl (by decide) (.inl rfl)
theorem vcSrseed : Statement .vcSrseed := of_code rfl (by decide) (.inl rfl)
theorem sfExp2 : Statement .sfExp2 := of_code rfl (by decide) (.inl rfl)
theorem sfLog2 : Statement .sfLog2 := of_code rfl (by decide) (.inl rfl)
theorem sfRcp : Statement .sfRcp := of_code rfl (by decide) (.inl rfl)
theorem sfRsqrt : Statement .sfRsqrt := of_code rfl (by decide) (.inl rfl)
theorem sfSqrt : Statement .sfSqrt := of_code rfl (by decide) (.inl rfl)
theorem sfExp : Statement .sfExp := of_code rfl (by decide) (.inl rfl)
theorem sfTanh : Statement .sfTanh := of_code rfl (by decide) (.inl rfl)
theorem sfSigm : Statement .sfSigm := of_code rfl (by decide) (.inl rfl)
theorem sfErf : Statement .sfErf := of_code rfl (by decide) (.inl rfl)
theorem sfSinpi : Statement .sfSinpi := of_code rfl (by decide) (.inl rfl)
theorem sfCospi : Statement .sfCospi := of_code rfl (by decide) (.inl rfl)
theorem sfSilu : Statement .sfSilu := of_code rfl (by decide) (.inl rfl)
theorem xcRsumF32 : Statement .xcRsumF32 := of_code rfl (by decide) (.inl rfl)
theorem xcRmaxF32 : Statement .xcRmaxF32 := of_code rfl (by decide) (.inl rfl)
theorem xcRminF32 : Statement .xcRminF32 := of_code rfl (by decide) (.inl rfl)
theorem xcRsumI32 : Statement .xcRsumI32 := of_code rfl (by decide) (.inl rfl)
theorem xcRmaxI32 : Statement .xcRmaxI32 := of_code rfl (by decide) (.inl rfl)
theorem xcRminI32 : Statement .xcRminI32 := of_code rfl (by decide) (.inl rfl)
theorem xcScanF32 : Statement .xcScanF32 := of_code rfl (by decide) (.inl rfl)
theorem xcScanI32 : Statement .xcScanI32 := of_code rfl (by decide) (.inl rfl)
theorem xcPerm : Statement .xcPerm := of_code rfl (by decide) (.inl rfl)
theorem xcRotl : Statement .xcRotl := of_code rfl (by decide) (.inl rfl)
theorem xcBcl : Statement .xcBcl := of_code rfl (by decide) (.inl rfl)
theorem xcCmpr : Statement .xcCmpr := of_code rfl (by decide) (.inl rfl)
theorem xcExpd : Statement .xcExpd := of_code rfl (by decide) (.inl rfl)
theorem xcSort : Statement .xcSort := of_code rfl (by decide) (.inl rfl)
theorem xcSeg : Statement .xcSeg := of_code rfl (by decide) (.inl rfl)
theorem xcSegsumF32 : Statement .xcSegsumF32 := of_code rfl (by decide) (.inl rfl)
theorem xcCpy : Statement .xcCpy := of_code rfl (by decide) (.inl rfl)
theorem ecWait : Statement .ecWait := of_code rfl (by decide) (.inr (.inl rfl))
theorem ecTest : Statement .ecTest := of_code rfl (by decide) (.inr (.inl rfl))
theorem ecTmpl : Statement .ecTmpl := of_code rfl (by decide) (.inr (.inl rfl))
theorem ckS : Statement .ckS := of_code rfl (by decide) (.inl rfl)
theorem ckV : Statement .ckV := of_code rfl (by decide) (.inl rfl)
theorem ckVm : Statement .ckVm := of_code rfl (by decide) (.inl rfl)
theorem ckG : Statement .ckG := of_code rfl (by decide) (.inl rfl)
theorem ckSg : Statement .ckSg := of_code rfl (by decide) (.inl rfl)
theorem sysFence : Statement .sysFence := of_code rfl (by decide) (.inl rfl)
theorem sysCrd : Statement .sysCrd := of_code rfl (by decide) (.inl rfl)
theorem sysCwr : Statement .sysCwr := of_code rfl (by decide) (.inl rfl)
theorem sysMld : Statement .sysMld := of_code rfl (by decide) (.inl rfl)
theorem sysMst : Statement .sysMst := of_code rfl (by decide) (.inl rfl)
theorem sysSnap : Statement .sysSnap := of_code rfl (by decide) (.inl rfl)
theorem sysSnapld : Statement .sysSnapld := of_code rfl (by decide) (.inl rfl)
theorem sysFreeze : Statement .sysFreeze := of_code rfl (by decide) (.inl rfl)
theorem sysThaw : Statement .sysThaw := of_code rfl (by decide) (.inl rfl)
theorem sysTlbi : Statement .sysTlbi := of_code rfl (by decide) (.inl rfl)
theorem sysHalt : Statement .sysHalt := of_code rfl (by decide) (.inl rfl)
theorem sysGrp : Statement .sysGrp := of_code rfl (by decide) (.inl rfl)
theorem sysLaunch : Statement .sysLaunch := of_code rfl (by decide) (.inl rfl)

end Sys2Proof.Laws.TriggerCodes
end

