-- ==== Sys2Proof/Tests/Slice0.lean ====
section
/-! SUPPORT. Tests of the model: encodings written out from the spec, ill-formed terms, single steps with the results the spec
gives, and for every obligation states and operands that meet its hypotheses. -/

namespace Sys2Proof.Tests

open Machine

set_option Elab.async false

/-- A state in which a trigger of context 0 has these operands. -/
def fired (a b : Val) (c d : Val := .s 0) : State :=
  let f : Fire := { ctx := 0, a := a, b := b, c := c, d := d }
  { pkg := { fire := f } }
/-- The entry that the trigger has put on its way. -/
def entryOf (i : Instr) (s : State) : Entry :=
  match exec i s with
  | .next t => (t.pkg.c 0).flight.headD default
  | _ => default
/-- The scalar that the trigger has put on its way. -/
def scalarOf (i : Instr) (s : State) : Word := ((entryOf i s).r.getD (Val.s 0)).toS
/-- Lane j of the vector that the trigger has put on its way. -/
def laneOut (i : Instr) (s : State) (j : Nat) : Lane := ((entryOf i s).r.getD (Val.s 0)).toV.lane j
/-! ## Encodings: words written out field by field from R262 to R265 (op, rd, ra, rb, rc, fn; the loop form op, 0, count) -/

theorem test_word_nop : decodeTrowel 0b00000_00000_00000_00000_00000_0000000 = .ok .twNop := by rfl
theorem test_word_ld : decodeTrowel 0b00001_10111_00000_00000_00000_0000000 = .ok (.twLd 23) := by rfl
theorem test_word_st : decodeTrowel 0b00010_00000_00110_00000_00000_0000000 = .ok (.twSt 6) := by rfl
theorem test_word_integer_arithmetic :
    decodeTrowel 0b00011_00001_00010_00011_00000_0000000 = .ok (.twAddI32 1 2 3) ∧
    decodeTrowel 0b00100_00001_00010_00011_00000_0000000 = .ok (.twSubI32 1 2 3) ∧
    decodeTrowel 0b00101_00001_00010_00011_00000_0000000 = .ok (.twMulI32 1 2 3) := by decide
theorem test_word_float_arithmetic :
    decodeTrowel 0b00110_10110_00010_00011_00000_0000000 = .ok (.twAddF32 22 2 3) ∧
    decodeTrowel 0b00111_10110_00010_00011_00000_0000000 = .ok (.twSubF32 22 2 3) ∧
    decodeTrowel 0b01000_10110_00010_00011_00000_0000000 = .ok (.twMulF32 22 2 3) ∧
    decodeTrowel 0b01001_10110_00010_00011_00100_0000000 = .ok (.twFmaF32 22 2 3 4) := by decide
theorem test_word_min_max :
    decodeTrowel 0b01010_00001_00010_00011_00000_0000000 = .ok (.twMin 1 2 3 false) ∧
    decodeTrowel 0b01011_00001_00010_00011_00000_0000001 = .ok (.twMax 1 2 3 true) := by decide
theorem test_word_bitwise :
    decodeTrowel 0b01100_00001_00010_00011_00000_0000000 = .ok (.twAnd 1 2 3) ∧
    decodeTrowel 0b01101_00001_00010_00011_00000_0000000 = .ok (.twOr 1 2 3) ∧
    decodeTrowel 0b01110_00001_00010_00011_00000_0000000 = .ok (.twXor 1 2 3) := by decide
theorem test_word_shift_by_register :
    decodeTrowel 0b01111_00001_00010_00011_00000_0000000 = .ok (.twShlReg 1 2 3) ∧
    decodeTrowel 0b10000_00001_00010_00011_00000_0000000 = .ok (.twShrReg 1 2 3) ∧
    decodeTrowel 0b10000_00001_00010_00011_00000_1000000 = .ok (.twSraReg 1 2 3) := by decide
theorem test_word_shift_by_number :
    decodeTrowel 0b01111_00001_00010_00000_00000_0111111 = .ok (.twShlImm 1 2 31) ∧
    decodeTrowel 0b10000_00001_00010_00000_00000_0100001 = .ok (.twShrImm 1 2 1) ∧
    decodeTrowel 0b10000_00001_00010_00000_00000_1100111 = .ok (.twSraImm 1 2 7) := by decide
theorem test_word_cmp_sel_hmix :
    decodeTrowel 0b10001_00000_00010_00011_00000_0010101 = .ok (.twCmp 2 3 2 5) ∧
    decodeTrowel 0b10010_00001_00010_00011_00000_0000000 = .ok (.twSel 1 2 3) ∧
    decodeTrowel 0b10011_00001_00010_00011_00000_0000000 = .ok (.twHmix 1 2 3) := by decide
theorem test_word_sequence :
    decodeTrowel 0b10100_00000000000_1111111111111111 = .ok (.twLoop 65535) ∧
    decodeTrowel 0b10101_00000000000_0000000000000010 = .ok (.twLoopx 2) ∧
    decodeTrowel 0b10110_00000_00000_00000_00000_0000000 = .ok .twEndl ∧
    decodeTrowel 0b10111_00000_00000_00000_00000_0000000 = .ok .twHalt := by decide

/-- R262, R263, R265: reserved opcodes and registers, a field that the form does not use, the reserved combination. -/
theorem test_word_rejected :
    decodeTrowel 0b11111_00000_00000_00000_00000_0000000 = .error .reservedOpcode ∧
    decodeTrowel 0b00011_11000_00000_00000_00000_0000000 = .error .reservedRegister ∧
    decodeTrowel 0b00000_00001_00000_00000_00000_0000000 = .error .unusedField ∧
    decodeTrowel 0b01111_00001_00010_00000_00000_1000000 = .error .unusedField ∧
    decodeTrowel 0b01111_00001_00010_00001_00000_0100000 = .error .unusedField ∧
    decodeTrowel 0b10100_00000000001_0000000000000000 = .error .unusedField ∧
    decodeTrowel 0b10001_00000_00010_00011_00000_0011000 ≠ .ok (.twCmp 2 3 3 0) := by decide

/-- R120 to R122: a header with rne (0), fa = 1 and the literals 1 and 2, then `5 -> sa0.o1`, `6 -> sa0.add`, six empty slots. -/
theorem test_bundle_slots : (decodeBundle 0x0020000100000002_041480_041A00_100000_100000_100000_100000_100000_100000#256).slots.take 2 =
    [{ guard := 0, neg := false, src := 0x105, dst := 0x080 }, { guard := 0, neg := false, src := 0x106, dst := 0x200 }] := by decide
/-- R124 to R126: ports by their codes, reserved and read-only ones. -/
theorem test_ports :
    decodeSrc 0x01F = some (.s 31) ∧ decodeSrc 0x104 = some (.short 4) ∧ decodeSrc 0x072 = some (.r 2) ∧ decodeSrc 0x3FF = none ∧
    decodeDst 0x087 = .ok (.operand 1 3) ∧ decodeDst 0x249 = .ok (.trigger 2 9) ∧ decodeDst 0x24A = .error .reservedDestination ∧ decodeDst 0x0D7 = .error .readOnlyRegister ∧
    decodeDst 0x070 = .error .reservedDestination := by decide

/-! ## Ill-formed terms -/

theorem test_wf_refuses_registers :
    (Instr.twLd 24).wf = false ∧ (Instr.twSt 24).wf = false ∧ (Instr.twAddI32 24 0 0).wf = false ∧ (Instr.twAddI32 0 24 0).wf = false ∧
    (Instr.twAddI32 0 0 24).wf = false ∧ (Instr.twSubI32 0 0 24).wf = false ∧ (Instr.twMulI32 0 31 0).wf = false ∧
    (Instr.twAddF32 24 0 0).wf = false ∧ (Instr.twSubF32 0 24 0).wf = false ∧ (Instr.twMulF32 0 0 24).wf = false ∧
    (Instr.twFmaF32 0 0 0 24).wf = false ∧ (Instr.twMin 0 24 0 true).wf = false ∧ (Instr.twMax 0 0 24 false).wf = false ∧
    (Instr.twAnd 24 0 0).wf = false ∧ (Instr.twOr 0 24 0).wf = false ∧ (Instr.twXor 0 0 24).wf = false ∧
    (Instr.twShlReg 0 0 24).wf = false ∧ (Instr.twShlImm 0 24 0).wf = false ∧ (Instr.twShrReg 24 0 0).wf = false ∧
    (Instr.twShrImm 24 0 0).wf = false ∧ (Instr.twSraReg 0 0 24).wf = false ∧ (Instr.twSraImm 0 24 0).wf = false ∧
    (Instr.twCmp 24 0 0 0).wf = false ∧ (Instr.twCmp 0 24 0 0).wf = false ∧ (Instr.twSel 0 0 24).wf = false ∧
    (Instr.twHmix 0 0 24).wf = false := by decide
theorem test_wf_refuses_combination : (Instr.twCmp 0 0 3 0).wf = false := by decide
theorem test_wf_refuses_seven_slots :
    let b : Bundle := { kind := 0, hdr := {}, imm16 := 0, imm32 := 0, slots := List.replicate 7 Slot.empty }
    (Instr.bundleIssue 0 b).wf = false := by decide

/-! ## Steps with the results the spec gives -/

/-- R143: the sum modulo 2^64; a shift takes the amount modulo 64; `bfx` of eight bits, sign-extended. -/
theorem test_sa : scalarOf .saAdd (fired (.s 0xFFFFFFFFFFFFFFFF) (.s 2)) = 1 ∧
    scalarOf .saSra (fired (.s 0x8000000000000000) (.s 65)) = 0xC000000000000000 ∧
    scalarOf .saBfx (fired (.s 0x0F80) (.s 0x11C4)) = 0xFFFFFFFFFFFFFFF8 ∧
    scalarOf .saClz (fired (.s 0) (.s 0)) = 64 := by decide
/-- R144: a quotient is rounded toward 0; a division by 0 gives all ones and the dividend. -/
theorem test_sm : scalarOf .smDivI (fired (.s (-7)) (.s 2)) = (-3) ∧ scalarOf .smRemI (fired (.s (-7)) (.s 2)) = (-1) ∧
    scalarOf .smDivN (fired (.s 7) (.s 0)) = (-1) ∧ scalarOf .smRemI (fired (.s 7) (.s 0)) = 7 ∧
    scalarOf .smMulhI (fired (.s (-1)) (.s 1)) = (-1) := by decide
/-- R168: halves without a carry between them, signed saturating bytes, a broadcast within each cluster of 16 lanes. -/
theorem test_vi :
    laneOut .viAddI16 (fired (.v (Vec.splat 0x0001FFFF)) (.v (Vec.splat 0x00010001))) 5 = 0x00020000 ∧
    laneOut .viAddsI8 (fired (.v (Vec.splat 0x7F800102)) (.v (Vec.splat 0x01FF0304))) 127 = 0x7F800406 ∧
    laneOut .viBc (fired (.v (Vec.tab fun j => BitVec.ofNat 32 j)) (.v (Vec.splat 3))) 40 = 35 := by decide +kernel
/-- R164: 1.0 + 1.0 = 2.0; an infinity less an infinity is the canonical NaN. R166: the class of −0.0 is bit 3. -/
theorem test_vf :
    laneOut .vfAddF32 (fired (.v (Vec.splat 0x3F800000)) (.v (Vec.splat 0x3F800000))) 7 = 0x40000000 ∧
    laneOut .vfSubF32 (fired (.v (Vec.splat 0x7F800000)) (.v (Vec.splat 0x7F800000))) 7 = 0x7FC00000 ∧
    laneOut .vfCls (fired (.v (Vec.splat 0)) (.v (Vec.splat 0x80000000))) 7 = 8 := by decide +kernel
/-- R179, R181: the sum of 128 ones; a rotation left by one lane. -/
theorem test_xc :
    laneOut .xcRsumI32 (fired (.s 0) (.v (Vec.splat 1))) 9 = 128 ∧
    laneOut .xcRotl (fired (.v (Vec.splat 1)) (.v (Vec.tab fun j => BitVec.ofNat 32 j))) 127 = 0 := by decide +kernel

/-! ## Witnesses: states and operands that meet the hypotheses of the obligations -/

theorem witness_IntegerResults :
    (fired (.s 5) (.s 5) (.s 1)).pkg.fire.c.toS ≠ 0 ∧ (fired (.s 5) (.s 0)).pkg.fire.c.toS = 0 ∧ (fired (.s 5) (.s 0)).pkg.fire.b.toS = 0 ∧
    (2 ^ (63 - 63) ≤ (1 : Word).toNat ∧ (1 : Word).toNat < 2 ^ (64 - 63)) ∧
    (2 ^ (63 - 0) ≤ (-1 : Word).toNat ∧ (-1 : Word).toNat < 2 ^ (64 - 0)) ∧
    ((0x8000000000000000 : Word).getLsbD 63 ∧ ∀ m < 63, !(0x8000000000000000 : Word).getLsbD m) ∧
    (∀ i < 64, (0x8000000000000000 : Word).getLsbD i = (1 : Word).getLsbD (63 - i)) ∧
    (∀ i < 64, (0xF : Word).getLsbD i = (if i < 4 then (0xF0 : Word).getLsbD (4 + i) else false)) ∧
    (∀ i < 64, (0x5A0 : Word).getLsbD i = (if 4 ≤ i ∧ i < 8 then (0xA : Word).getLsbD (i - 4) else (0x500 : Word).getLsbD i)) := by decide +kernel
theorem witness_ProductsAndQuotients :
    (fired (.s 5) (.s 0)).pkg.fire.b.toS = 0 ∧ (fired (.s 5) (.s (-1))).pkg.fire.b.toS ≠ 0 := by decide +kernel
theorem witness_IntegerLanes :
    let one := (fired (.v (Vec.splat 3)) (.v (Vec.splat 1))).pkg.fire.b.toV
    let top := (fired (.v (Vec.splat 3)) (.v (Vec.splat (-1)))).pkg.fire.b.toV
    ((0 : Vec).lane 127 = 0) ∧ (2 ^ (31 - 31) ≤ (one.lane 0).toNat ∧ (one.lane 0).toNat < 2 ^ (32 - 31)) ∧
    (2 ^ (31 - 0) ≤ (top.lane 127).toNat ∧ (top.lane 127).toNat < 2 ^ (32 - 0)) := by decide +kernel
theorem witness_FloatLanes :
    let e (w : Lane) : Nat := w.toNat / 2 ^ 23 % 256
    let m (w : Lane) : Nat := w.toNat % 2 ^ 23
    (e 0x7F800001 = 255 ∧ m 0x7F800001 ≠ 0) ∧ (e 0xFF800000 = 255 ∧ m 0xFF800000 = 0) ∧ (e 0x80000000 = 0 ∧ m 0x80000000 = 0) ∧
    (e 0x007FFFFF = 0 ∧ m 0x007FFFFF ≠ 0) ∧ (0 < e 0x00800000 ∧ e 0x00800000 < 255) ∧ (0 < e 0xFF7FFFFF ∧ e 0xFF7FFFFF < 255) := by decide +kernel
theorem witness_SpecialFunctions :
    (Lane.val ((Vec.splat 0x7FC00001).lane 0)).isNan ∧ !(Lane.val ((Vec.splat 0x3F800000).lane 127)).isNan := by decide +kernel
/-- Lane 5 of a segment that starts at lane 3, and of one that starts at lane 0. -/
theorem witness_CrossLanes :
    let a : Vec := Vec.tab fun j => if j = 3 then 1 else 0
    let head (a : Vec) (j h : Nat) : Prop := h ≤ j ∧ (h = 0 ∨ a.lane h ≠ 0) ∧ ∀ k, h < k → k ≤ j → a.lane k = 0
    head a 5 3 ∧ head 0 5 0 := by
  refine ⟨⟨by decide +kernel, by decide +kernel, fun k h1 h2 => ?_⟩, ⟨by decide +kernel, by decide +kernel, fun k h1 h2 => ?_⟩⟩
  · obtain rfl | rfl : k = 4 ∨ k = 5 := by omega
    all_goals decide +kernel
  · obtain rfl | rfl | rfl | rfl | rfl : k = 1 ∨ k = 2 ∨ k = 3 ∨ k = 4 ∨ k = 5 := by omega
    all_goals decide +kernel

/-- A trigger whose bundle has these header formats and rounding. -/
def withHeader (rnd : BitVec 3) (fa fb : BitVec 4) : State :=
  let h : Header := { rnd := rnd, fa := fa, fb := fb }
  let f : Fire := { ctx := 0, hdr := h }
  { pkg := { fire := f } }
theorem witness_Conversions :
    let fa (s : State) : Nat := s.pkg.fire.hdr.fa.toNat
    let fb (s : State) : Nat := s.pkg.fire.hdr.fb.toNat
    (withHeader 6 5 0).pkg.fire.hdr.rnd = 6 ∧ (fa (withHeader 0 5 5) ≤ 5 ∧ fb (withHeader 0 5 5) ≤ 5) ∧
    ¬(fa (withHeader 0 6 5) ≤ 5 ∧ fb (withHeader 0 6 5) ≤ 5) ∧
    (fa (withHeader 0 1 0) ≤ 5 ∧ fb (withHeader 0 1 0) ≤ 5 ∧ fmtWidth (fa (withHeader 0 1 0)) < fmtWidth (fb (withHeader 0 1 0))) ∧
    ¬(fa (withHeader 0 0 1) ≤ 5 ∧ fb (withHeader 0 0 1) ≤ 5 ∧ fmtWidth (fa (withHeader 0 0 1)) < fmtWidth (fb (withHeader 0 0 1))) ∧
    (fa (withHeader 0 0 11) ≤ 5 ∧ (fb (withHeader 0 0 11) = 11 ∨ fb (withHeader 0 0 11) = 15)) ∧
    (fa (withHeader 0 5 15) ≤ 5 ∧ (fb (withHeader 0 5 15) = 11 ∨ fb (withHeader 0 5 15) = 15)) ∧
    ¬(fa (withHeader 0 0 12) ≤ 5 ∧ (fb (withHeader 0 0 12) = 11 ∨ fb (withHeader 0 0 12) = 15)) ∧
    ((fa (withHeader 0 15 5) = 11 ∨ fa (withHeader 0 15 5) = 15) ∧ fb (withHeader 0 15 5) ≤ 5) ∧
    ¬((fa (withHeader 0 15 6) = 11 ∨ fa (withHeader 0 15 6) = 15) ∧ fb (withHeader 0 15 6) ≤ 5) := by decide +kernel
/-- Windows at the end of the elements and past it; sources of the scales. -/
theorem witness_Conversions_windows :
    let n (wa wb : Nat) : Nat := if wb ≤ wa then 4096 / wa else 4096 / wb
    let first (wa wb q : Nat) : Nat := if wb ≤ wa then 0 else q * n wa wb
    let block (z : Nat) : Prop := (6 ≤ z ∧ z ≤ 10) ∨ z = 12
    let el (x : Lane) (e : Nat) : FVal := elementValue 0 (element 32 (Vec.splat x).toNat e)
    (first 16 32 1 + n 16 32 ≤ 4096 / 16 ∧ 4096 / 16 < first 16 32 2 + n 16 32) ∧
    (2 ≤ 5 ∧ 3 ≤ 5 ∧ fmtWidth 3 < fmtWidth 2 ∧ ¬fmtWidth 2 < fmtWidth 2) ∧ ((fmtOf 2).isSome ∧ 2 ≤ 2 ∧ ¬3 ≤ 2) ∧
    ((2 ≤ 2 ∧ block 12) ∧ ¬block 11) ∧ (1 % 2 = 1 ∧ 2 % 2 = 0) ∧
    el 0x7FC00000 31 = .nan ∧ el 0 31 = .fin false 0 (-149) ∧ (el 0x3F800000 31 ≠ .nan ∧ ∃ m ∈ [2 ^ 23], el 0x3F800000 31 = .fin false m (-23) ∧ m ≠ 0) ∧
    (let k := 4096 / fmtWidth 0
     (7 + 1) * k ≤ 4096 / fmtWidth 10 ∧ 4096 / fmtWidth 10 < (8 + 1) * k ∧ (15 + 1) * (k / 8) ≤ 256 ∧ (9 + 1) * (k / 8) ≤ 170 ∧
     170 < (10 + 1) * (k / 8) ∧ 256 < (15 + 1) * (4096 / fmtWidth 1 / 8)) := by decide +kernel
/-- Entries that a check leaves: of equal operands, and of operands that differ. -/
theorem witness_Checks :
    let e (b : Vec) : Entry := { landing 14 3 2 (some (.v 1)) (some b) 0 with kind := .check, trig := 64 }
    ((e 1).kind = .check ∧ (e 1).r = some (.v 1) ∧ (e 1).h = some 1 ∧ (1 : Vec) = 1) ∧ ((e 2).h = some 2 ∧ (1 : Vec) ≠ 2) := by decide +kernel
theorem witness_TriggersFrame :
    triggerStep 0 0 = some .saAdd ∧ triggerStep 14 4 = some .ckSg ∧ triggerStep 10 11 = some .sfSilu ∧ triggerStep 11 16 = some .xcCpy ∧
    (∃ t, exec .saAdd (fired (.s 1) (.s 2)) = .next t) ∧
    triggerStep 4 0 = some .lsLdB ∧ triggerStep 5 31 = some .lsLdSc ∧ 0 ∉ [4, 5, 6, 7, 12, 13, 16, 17, 19, 26] ∧
    lsOk 0 (fired (.s 0x7FFFFF) (.s 0)).pkg.fire = true ∧
    (fired (.s 0x7FFFFF) (.s 0)).pkg.fire.sound = false ∧
    lsPoisoned 0 (fired (.s 0x7FFFFF) (.s 0)).pkg.fire [] (fired (.s 0x7FFFFF) (.s 0)).pkg = false ∧
    (∃ t, exec .lsLdB (fired (.s 0x7FFFFF) (.s 0)) = .next t) ∧
    triggerStep 5 26 = some .lsLdTg ∧ lsOk 26 (fired (.s 0x7FFF80) (.s 0)).pkg.fire = true ∧
    lsPoisoned 26 (fired (.s 0x7FFF80) (.s 0)).pkg.fire [] (fired (.s 0x7FFF80) (.s 0)).pkg = false ∧
    (∃ t, exec .lsLdTg (fired (.s 0x7FFF80) (.s 0)) = .next t) := by
  refine ⟨rfl, rfl, rfl, rfl, ⟨_, rfl⟩, rfl, rfl, by decide, by decide +kernel, rfl, by decide +kernel, ⟨_, rfl⟩, rfl,
    by decide +kernel, by decide +kernel, ⟨_, rfl⟩⟩
/-- Context 0 as given; nothing else. -/
def inCtx (c : Ctx) : State := { pkg := { ctx := [(0, c)] } }
/-- A branch entry of the operation that is due, with its target. -/
def branch (op : Nat) (t : Option Nat) : Entry := { unit := 3, op := op, left := 1, order := 0, kind := .branch, target := t }
/-- Operands of a br trigger. -/
def branching (a b lc p : Word) : Fire :=
  let r : SrcRegs := { lc := lc, lcx := lc, p := p.setWidth 8 }
  { ctx := 0, a := .s a, b := .s b, src := r }

theorem witness_BranchTriggers :
    let ok (t : Nat) : Prop := t % 32 = 0 ∧ t < 0x800000
    let taken (f : Fire) : Prop := f.src.lc ≠ 0 ∨ (1 ≤ f.a.toS.toNat % 4 ∧ f.src.p.getLsbD 4) ∨
      (2 ≤ f.a.toS.toNat % 4 ∧ f.src.p.getLsbD 5) ∨ (f.a.toS.toNat % 4 = 3 ∧ f.src.p.getLsbD 6)
    ok (branching 0 0x7FFFE0 0 0).b.toS.toNat ∧ ¬ok (branching 0 0x800000 0 0).b.toS.toNat ∧ ¬ok (branching 0 16 0 0).b.toS.toNat ∧
    (inCtx {}).pkg.fire.ctx = 0 ∧ ((inCtx {}).pkg.c 0).flight = [] ∧
    (branching 0 0 0 0).a.toS = 0 ∧ (branching 1 0 0 0).a.toS ≠ 0 ∧
    taken (branching 0 0 1 0) ∧ taken (branching 3 0 0 0x40) ∧ ¬taken (branching 0 0 0 0x70) ∧ ¬taken (branching 2 0 0 0x40) ∧
    (branching 0 0 1 0).src.lcx ≠ 0 ∧ (branching 0 0 0 0).src.lcx = 0 ∧
    (let trap : Entry := branch 12 (some 5)
     let due (c : Ctx) : Option Entry := c.flight.find? fun e => redirects e && e.left == 1 && e.target.isSome
     let cut (c : Ctx) : Prop := c.tvec ≠ 0 ∧ ∃ e ∈ due c, e.op = 12
     cut ((inCtx (({ flight := [trap] } : Ctx).setCr 0x0D8 0x1000)).pkg.c 0) ∧ ¬cut ((inCtx { flight := [trap] }).pkg.c 0)) := by decide
theorem witness_BranchEffects :
    let due (e : Entry) : Option Entry := dueBranch ((inCtx { flight := [e] }).pkg.c 0)
    dueBranch ((inCtx {}).pkg.c 0) = none ∧ due (branch 0 (some 64)) = some (branch 0 (some 64)) ∧ due (branch 3 none) = some (branch 3 none) ∧
    due (branch 9 none) = some (branch 9 none) ∧ due (branch 10 none) = some (branch 10 none) ∧ due (branch 11 none) = some (branch 11 none) ∧
    due (branch 12 (some 5)) = some (branch 12 (some 5)) ∧ due (branch 13 (some 32)) = some (branch 13 (some 32)) ∧
    (due (branch 14 (some 0)) = some (branch 14 (some 0)) ∧ (branch 14 (some 0)).target.getD 0 ≤ (inCtx {}).env.dtime) ∧
    (due (branch 14 (some 1)) = some (branch 14 (some 1)) ∧ (inCtx {}).env.dtime < (branch 14 (some 1)).target.getD 0) := by decide

/-- A load or store of context 0 at the address. -/
def at_ (a : Word) : State := fired (.s a) (.s 0)
/-- The same where the first codeword of the scratchpad cannot be corrected. -/
def poisonedAt (a : Word) : State :=
  let k : Core := { poison := [(0, true)] }
  { at_ a with pkg := { (at_ a).pkg with core := [(0, k)] } }
theorem witness_AcceptedAddresses :
    (triggerStep 4 3 = some .lsLdD ∧ lsOk 3 (at_ 0x7FFFFC).pkg.fire = false) ∧ (triggerStep 5 28 = some .lsLdAcc ∧ lsOk 28 (at_ 0).pkg.fire = false) ∧
    (triggerStep 4 3 = some .lsLdD ∧ lsOk 3 (poisonedAt 56).pkg.fire = true ∧
      (poisonedAt 56).pkg.fire.sound = false ∧ lsPoisoned 3 (poisonedAt 56).pkg.fire [] (poisonedAt 56).pkg = true) := by decide +kernel
/-- The last accepted address of every form of load, and of store. -/
theorem witness_Loads :
    let fine (op : Nat) (s : State) : Prop := lsOk op s.pkg.fire = true ∧ lsPoisoned op s.pkg.fire [] s.pkg = false
    fine 0 (at_ 0x7FFFFF) ∧ fine 1 (at_ 0x7FFFFE) ∧ (∀ op ∈ [2, 4, 5, 23], fine op (at_ 0x7FFFFC)) ∧
    (∀ op ∈ [3, 6, 7, 31], fine op (at_ 0x7FFFF8)) ∧ (∀ op ∈ [15, 16, 17], fine op (at_ 0x7FFE00)) ∧ fine 21 (at_ 0x17FFE00) ∧
    fine 24 (at_ 0x100) ∧ fine 26 (at_ 0x7FFF80) ∧ fine 26 (at_ 0x21FE000) ∧ (∀ op ∈ [28, 29], fine op (at_ 0x21FFF00)) := by decide +kernel
theorem witness_Stores :
    let fine (op : Nat) (s : State) : Prop := lsOk op s.pkg.fire = true ∧ lsPoisoned op s.pkg.fire [] s.pkg = false
    fine 8 (at_ 0x7FFFFF) ∧ fine 9 (at_ 0x7FFFFE) ∧ (∀ op ∈ [10, 12, 14], fine op (at_ 0x7FFFFC)) ∧
    (∀ op ∈ [11, 13], fine op (at_ 0x7FFFF8)) ∧ (∀ op ∈ [18, 19, 20], fine op (at_ 0x7FFE00)) ∧ fine 22 (at_ 0x17FFE00) ∧
    fine 25 (at_ 0x100) ∧ (fine 27 (at_ 0x7FFF80) ∧ ea (at_ 0x7FFF80).pkg.fire < 0x800000) ∧
    (fine 27 (at_ 0x21FE000) ∧ 0x800000 ≤ ea (at_ 0x21FE000).pkg.fire) ∧ fine 30 (at_ 0x21FFF00) := by decide +kernel
theorem witness_StoragePerformed :
    let st : LStore := { mode := 3, acc := [(0, 1), (63, 2)] }
    (st.acc.map (·.1)).Nodup ∧ (63, 2) ∈ st.acc ∧ (∀ c ∈ st.acc, c.1 ≠ 1) ∧ 5 ∈ [5, 6] ∧ 7 ∉ [5, 6] := by decide

/-- A scalar result due at sa0, a vector result and its second due at xc, an `amx` result due at vf1. -/
def results : List Entry :=
  [landing 0 0 1 (some (.s 7)) none 1, landing 11 13 1 (some (.v 7)) (some 9) 0, landing 2 4 1 (some (.s 7)) (some 9) 0,
   { landing 7 23 1 (some (.v 7)) none 0 with amax := some 0x3F800000, ns := true }]
theorem witness_ResultsLand :
    (∀ e ∈ results, e.kind = .result ∧ e.fixed = []) ∧ (results.map fun e => (e.unit, e.r)).take 2 = [(0, some (.s 7)), (11, some (.v 7))] ∧
    (results.map fun e => (e.unit, e.h)).drop 1 = [(11, some 9), (2, some 9), (7, none)] ∧
    (results.map (·.amax)) = [none, none, none, some 0x3F800000] := by decide +kernel
theorem witness_FlagsAreSticky :
    let c : Ctx := ({ flight := [landing 0 0 1 (some (.s 7)) none 2] } : Ctx).setCr 0x0D0 1
    ((inCtx c).pkg.c 0).fflags.getLsbD 0 ∧ ∃ t, exec (.entryLanding 0) (inCtx c) = .next t :=
  ⟨by decide, _, rfl⟩
theorem witness_EntriesLand :
    let st : LStore := { bytes := [(8, 1)] }
    let e : Entry := { landing 4 10 1 none none 0 with kind := .store, store := some st }
    (((inCtx { flight := [landing 0 0 1 (some (.s 7)) none 2] }).pkg.c 0).flight = [landing 0 0 1 (some (.s 7)) none 2] ∧
      (landing 0 0 1 (some (.s 7)) none 2).left = 1 ∧ (landing 0 0 1 (some (.s 7)) none 2).kind = .result) ∧
    (((inCtx { flight := [e] }).pkg.c 0).flight = [e] ∧ e.left = 1 ∧ e.kind = .store ∧ e.done = false ∧ e.store = some st) ∧
    (let k : Core := { badAcc := [(63, true)] }
     let add : LStore := { mode := 1, acc := [(63, 2)] }
     add.mode ≠ 0 ∧ ∃ a ∈ add.acc, k.badAcc.get a.1 = true) ∧
    (∀ e ∈ ((inCtx { flight := [landing 2 0 3 none none 0] }).pkg.c 0).flight, e.left ≠ 1) := by decide

/-- A bundle of these moves, source and destination codes, and empty slots. -/
def bundle (ms : List (BitVec 10 × BitVec 10)) : Bundle :=
  { kind := 0, hdr := {}, imm16 := 0, imm32 := 0,
    slots := ms.map (fun m => { guard := 0, neg := false, src := m.1, dst := m.2 }) ++ List.replicate (8 - ms.length) Slot.empty }
/-- `5 -> sa0.o1`, `6 -> sa0.add`. -/
def adding : Bundle := bundle [(0x105, 0x080), (0x106, 0x200)]
/-- `0 -> sys.crd`. -/
def reading : Bundle := bundle [(0x100, 0x3E1)]
/-- `0 -> ls0.ldf.w`. -/
def waiting : Bundle := bundle [(0x100, 0x284)]
/-- `5 -> ec.wait`: tokens 0 and 2. -/
def awaiting : Bundle := bundle [(0x105, 0x38E)]
/-- `1 -> ls0.ld.w`, `1 -> br.jmp`, `0 -> ls0.ld.w`. -/
def crooked : Bundle := bundle [(0x101, 0x282)]
def astray : Bundle := bundle [(0x101, 0x260)]
def plain : Bundle := bundle [(0x100, 0x282)]
/-- The first codeword cannot be corrected; context 0 stands past it. -/
def spoilt : State := { pkg := { ctx := [(0, { pc := 64 })], core := [(0, { poison := [(0, true)] })] } }
/-- The triggers of a bundle that fire in context 0. -/
def fires (s : State) (b : Bundle) : List Trig := firing (s.pkg.c 0) (triggers 0 (s.pkg.c 0) b (moves 0 (s.pkg.c 0) b))
/-- A bundle of context 0 is neither illegal nor privileged, and its codeword is sound. -/
def legal (s : State) (b : Bundle) : Bool :=
  let c := s.pkg.c 0
  let all := triggers 0 c b (moves 0 c b)
  !(s.pkg.k 0).poison.get (c.pc / 64) && !illegal c b (moves 0 c b) all && !all.any privileged && !b.hdr.join
/-- None of its triggers blocks, whatever free values its accesses have drawn. -/
def goes (s : State) (b : Bundle) : Bool := (blocking (s.pkg.drawn (accessDraws s.pkg 0)) 0 (fires s b)).isNone
theorem witness_BundlesTrapOrBlock :
    let c : Ctx := (inCtx {}).pkg.c 0
    let all (b : Bundle) := triggers 0 c b (moves 0 c b)
    let bad : Bundle := { adding with kind := 7 }
    let k : Core := { poison := [(0, true)] }
    (({ core := [(0, k)] } : Pkg).k (coreOf 0)).poison.get (c.pc / 64) = true ∧ ((inCtx {}).pkg.k 0).poison.get (c.pc / 64) = false ∧
    (inCtx { check := some (0, 1) }).pkg.c 0 = { check := some (0, 1) } ∧ illegal c bad (moves 0 c bad) (all bad) = true ∧ illegal c reading (moves 0 c reading) (all reading) = false ∧
    (c.smode = false ∧ ∃ t ∈ all reading, privileged t = true) ∧
    illegal c waiting (moves 0 c waiting) (all waiting) = false ∧ (∀ t ∈ all waiting, privileged t = false) ∧
    (∃ u, blocking ((inCtx {}).pkg.drawn (accessDraws (inCtx {}).pkg 0)) 0 (firing c (all waiting)) = some u) := by
  refine ⟨rfl, rfl, rfl, by decide +kernel, by decide +kernel, by decide +kernel, by decide +kernel, by decide +kernel, _, rfl⟩
/-- Tokens 0 and 2 of a wait, one of them faulted and neither; an address, a target and data that are not accepted. -/
theorem witness_BundlesTrapOrBlock_issue :
    let held (status : Nat) : State := inCtx { tokens := [(0, { state := .complete }), (2, { state := .complete, status := status })] }
    let waits (s : State) (k : Nat) : Prop := ∃ t ∈ fires s awaiting, t.unit = 12 ∧ t.op = 14 ∧ t.fire.b.toS.getLsbD k = true
    let faulted (s : State) (k : Nat) : Prop :=
      ((s.pkg.c 0).tokens.get k).state = .complete ∧ ((s.pkg.c 0).tokens.get k).status ≠ 0 ∧ ((s.pkg.c 0).tokens.get k).acked = false
    (legal (held 5) awaiting = true ∧ goes (held 5) awaiting = true ∧ waits (held 5) 2 ∧ faulted (held 5) 2 ∧ ∀ j < 2, ¬faulted (held 5) j) ∧
    (legal (held 0) awaiting = true ∧ goes (held 0) awaiting = true ∧ ∀ k < 64, ¬faulted (held 0) k) ∧
    (legal (inCtx {}) crooked = true ∧ goes (inCtx {}) crooked = true ∧ ∃ t ∈ fires (inCtx {}) crooked, badAddress t = true) ∧
    (legal (inCtx {}) astray = true ∧ goes (inCtx {}) astray = true ∧ (∀ t ∈ fires (inCtx {}) astray, badAddress t = false) ∧
      ∃ t ∈ fires (inCtx {}) astray, badTarget t = true) ∧
    (legal spoilt plain = true ∧ goes spoilt plain = true ∧ (∀ t ∈ fires spoilt plain, badAddress t = false ∧ badTarget t = false) ∧
      ∃ t ∈ fires spoilt plain, badData (spoilt.pkg.drawn (accessDraws spoilt.pkg 0)) 0 (fires spoilt plain) t = true) := by decide +kernel
/-- One trigger of each kind whose condition R40 gives. -/
theorem witness_BundlesTrapOrBlock_conditions :
    let t (unit op : Nat) (a : Word) : Trig := ⟨unit, op, (at_ a).pkg.fire⟩
    lsOk 4 (t 4 4 0x7FFFFC).fire = true ∧ lsOk 12 (t 5 12 0x7FFFFC).fire = true ∧ lsOk 29 (t 4 29 0x21FFF00).fire = true ∧
    lsOk 0 (t 4 0 0x7FFFFF).fire = true ∧ isCommand (t 12 0 0) = true ∧ isCommand (t 12 3 0) = true ∧ isCommand (t 12 14 0) = false ∧
    (isCommand (t 15 0 0) = false ∧ (t 15 0 0).unit ≠ 4 ∧ (t 15 0 0).unit ≠ 5 ∧ (t 15 0 0).unit ≠ 12) := by decide +kernel
theorem witness_BundlesIssue :
    let p := (inCtx {}).pkg.drawn (accessDraws (inCtx {}).pkg 0)
    let c : Ctx := (inCtx {}).pkg.c 0
    let ts := firing c (triggers 0 c adding (moves 0 c adding))
    (p.k 0).poison.get (c.pc / 64) = false ∧ illegal c adding (moves 0 c adding) (triggers 0 c adding (moves 0 c adding)) = false ∧
    (∀ t ∈ triggers 0 c adding (moves 0 c adding), privileged t = false) ∧ blocking p 0 ts = none ∧
    (∀ t ∈ ts, t.unit = 12 → t.op = 14 → waitFault c t.fire.b.toS = none) ∧
    (∀ t ∈ ts, badAddress t = false ∧ badTarget t = false ∧ badData p 0 ts t = false) ∧
    c.spoiled = false ∧ badOwn p 0 ts = false ∧ badAmong 0 (performs ts c.joins) p = false ∧ c.check = none ∧
    (∀ t ∈ ts, t.unit ≠ 12 ∧ t.unit ≠ 13) := by decide +kernel
theorem witness_TrapsTaken :
    let c : Ctx := ({} : Ctx).setCr 0x0D8 0x1000
    (5 : Nat) < 256 ∧ (255 : Nat) < 256 ∧ 2 ^ 48 - 1 < 2 ^ 48 ∧ 0x7FFFE0 < 2 ^ 32 ∧ 0x7FFFE0 % 32 = 0 ∧
    ((inCtx {}).pkg.c 0).tvec = 0 ∧ ((inCtx c).pkg.c 0).tvec ≠ 0 ∧
    (((inCtx { check := some (64, 1) }).pkg.c 0).tvec = 0 ∧ ((inCtx { check := some (64, 1) }).pkg.c 0).check = some (64, 1)) := by decide

/-- R130, R131, R43: the bundle's move is done and its sum lands at the next bundle: sa0.r holds 11. -/
theorem test_bundle_adds :
    (match exec (.bundleIssue 0 adding) (inCtx {}) with
     | .next t => ((t.pkg.c 0).pc, t.pkg.micro.length)
     | _ => (0, 0)) = (32, 1) ∧ scalarOf .saAdd (fired (.s 5) (.s 6)) = 11 := by decide +kernel
/-- Context x of core 0 ready at 0 with empty bundles in the scratchpad. -/
def readyCtx : State := inCtx { phase := .ready }
/-- Context 0 holds issue, with `a` bundles of its quantum issued and the count of rule 5 given; context 1 is ready, of node 1. -/
def sharing (a waited waited' prio : Nat) : State :=
  let x : Ctx := { phase := .running, waited := waited }
  let y : Ctx := { phase := .ready, waited := waited', node := some 1 }
  let k : Core := { running := some 0, quantum := a }
  { pkg := { ctx := [(0, x), (1, y)], core := [(0, k)], nodes := [(1, { id := 1, priority := prio })], reg := [(0x01000008, 256)] } }
theorem witness_CoresChoose :
    let p := readyCtx.pkg
    let higher (p : Pkg) (r x : Nat) : Bool := isReady p x && decide (p.priority r < p.priority x)
    let clear (env : Env) (q : Pkg) (x : Nat) : Prop :=
      dueBranch (q.c x) = none ∧ dueHalt (q.c x) = none ∧ (q.c x).pc < 0x800000 ∧ nextBlocks env x q = none
    wakeBlocked readyCtx.env 0 p = p ∧ (∀ q ∈ [(sharing 255 1024 0 0).pkg, (sharing 255 0 1024 0).pkg, (sharing 255 0 0 0).pkg, (sharing 255 0 0 1).pkg],
      wakeBlocked {} 0 q = q) ∧
    (0 < 72 ∧ p.powerOf 0 = 0 ∧ (p.k 0).running = none ∧ agedCtx p 0 = none) ∧ firstOf p 0 (isReady p) = some 0 ∧ clear readyCtx.env (giveIssue 0 0 p) 0 ∧
    (71 < 72 ∧ p.powerOf 71 = 0 ∧ (p.k 71).running = none ∧ agedCtx p 71 = none ∧ firstOf p 71 (isReady p) = none) ∧
    (let q := (sharing 255 1024 0 0).pkg
     (q.k 0).running = some 0 ∧ 1024 ≤ (q.c 0).waited ∧ clear {} q 0) ∧
    (let q := (sharing 255 0 1024 0).pkg
     (q.c 0).waited < 1024 ∧ agedCtx q 0 = some 1 ∧ clear {} (giveIssue 0 1 q) 1) ∧
    (let q := (sharing 255 0 0 0).pkg
     (q.k 0).running = some 0 ∧ agedCtx q 0 = none ∧ (q.k 0).quantum < bits (q.regv 0x01000008) 8 0 ∧ firstOf q 0 (higher q 0) = none ∧ clear {} q 0) ∧
    (let q := (sharing 255 0 0 1).pkg
     firstOf q 0 (higher q 0) = some 1 ∧ agedCtx q 0 = none ∧ clear {} (giveIssue 0 1 q) 1) ∧
    (let q (n : Nat) : Pkg := { ctx := [(n, { phase := .blocked })] }
     coreOf 1 = 0 ∧ ((q 1).c 1).phase = .blocked ∧ nextBlocks {} 1 (q 1) = none ∧ (∀ y < 4, y ≠ 1 → ((q 1).c y).phase ≠ .blocked)) := by decide +kernel
/-- Context 0 holds issue and has issued its whole quantum; context 1 is ready and has waited for 1,024 issue cycles. -/
def crowded : State :=
  let a : Ctx := { phase := .running }
  let b : Ctx := { phase := .ready, waited := 1024 }
  let k : Core := { running := some 0, quantum := 256 }
  { pkg := { State.reset.pkg with ctx := [(0, a), (1, b)], core := [(0, k)] } }
/-- Context 0 is blocked at `ldf.w` of an empty word, its watchdog one clock from its end; context 1 sleeps until time 0. -/
def stuck : State :=
  let a : Ctx := { phase := .blocked, watchdog := 3 }
  let b : Ctx := { phase := .sleeping, wake := 0 }
  let k : Core := { spad := Memory.setMany [] 0 (bytesOf 32 (encodeBundle waiting).toNat) }
  { env := { clock := 1 }, pkg := { ctx := [(0, a), (1, b)], core := [(0, k)], reg := [(0x01000010, 4)] } }
theorem witness_SchedulingEvents :
    let p := crowded.pkg
    ((p.k 0).running = some 0 ∧ bits (p.regv (0x01000008 + 0x1000 * 0)) 8 0 ≤ (p.k 0).quantum ∧
      firstOf p 0 (fun z => isReady p z && decide (p.priority 0 ≤ p.priority z)) = some 1) ∧
    (firstOf p 0 (fun z => isReady p z && decide (1024 ≤ (p.c z).waited)) = some 1 ∧ ∀ r, (p.k 0).running = some r → (p.c r).waited < 1024) ∧
    (let q := (sharing 0 1024 1024 0).pkg
     (q.k 0).running = some 0 ∧ 1024 ≤ (q.c 0).waited) ∧
    ((stuck.pkg.c 1).phase = .sleeping ∧ (stuck.pkg.c 1).wake ≤ stuck.env.dtime) ∧
    ((stuck.pkg.c 0).phase = .blocked ∧ stuck.pkg.regv (0x01000010 + 0x1000 * coreOf 0) ≠ 0 ∧
      stuck.pkg.regv (0x01000010 + 0x1000 * coreOf 0) ≤ (stuck.pkg.c 0).watchdog + (stuck.env.clock - (stuck.pkg.c 0).blockedAt) ∧
      nextBlocks stuck.env 0 stuck.pkg = some 4) := by decide +kernel

/-- Context 0 at 32 with tokens: k0 complete with status 5, k1 outstanding, k63 complete with status 0. -/
def tokens (a b : Word) (tvec : Word := 0) (sound : Bool := true) : State :=
  let c : Ctx := ({ pc := 32, tokens := [(0, { state := .complete, status := 5, unit := 13, op := 31 }), (1, { state := .outstanding }), (63, { state := .complete })] } : Ctx).setCr 0x0D8 tvec
  let f : Fire := { ctx := 0, a := .s a, b := .s b, sound := sound }
  { pkg := { ctx := [(0, c)], fire := f } }
theorem witness_TokenOperations :
    let named (s : State) (k : Nat) : Prop := k < 64 ∧ s.pkg.fire.b.toS.getLsbD k
    let ended (s : State) (k : Nat) : Prop := ((s.pkg.c 0).tokens.get k).state = .complete ∨ ((s.pkg.c 0).tokens.get k).state = .free
    let bad (s : State) (k : Nat) : Prop := ((s.pkg.c 0).tokens.get k).state = .complete ∧ ((s.pkg.c 0).tokens.get k).status ≠ 0 ∧
      ((s.pkg.c 0).tokens.get k).acked = false
    (∀ k < 64, named (tokens 0 0x8000000000000000) k →
      ended (tokens 0 0x8000000000000000) k ∧ ¬bad (tokens 0 0x8000000000000000) k) ∧
    (named (tokens 0 1) 0 ∧ bad (tokens 0 1) 0 ∧ ∀ k < 64, named (tokens 0 1) k → ended (tokens 0 1) k) ∧
    (named (tokens 0 1 0x1000) 0 ∧ bad (tokens 0 1 0x1000) 0 ∧ ∀ k < 64, named (tokens 0 1 0x1000) k → ended (tokens 0 1 0x1000) k) ∧
    (named (tokens 0 2) 1 ∧ ¬ended (tokens 0 2) 1) := by decide +kernel
theorem witness_TokenOperations_fields :
    (((tokens 0 1).pkg.c 0).tokens.get 0).status = 5 ∧ (((tokens 0 1).pkg.c 0).tokens.get 0).unit = 13 ∧
    (((tokens 0 1).pkg.c 0).tokens.get 0).op = 31 ∧ ((tokens 0 1).pkg.c 0).pc - 32 = 0 ∧
    (((tokens 0 1).pkg.c 0).tvec = 0 ∧ ((tokens 0 1 0x1000).pkg.c 0).tvec ≠ 0) ∧
    ((0x7FFFC0 : Word).toNat % 64 = 0 ∧ (tokens 0x7FFFC0 63).pkg.fire.a.toS.toNat + 64 ≤ 0x800000 ∧
      (tokens 0x7FFFC0 63 0 false).pkg.fire.sound = false ∧
      ∀ i < 16, (tokens 0x7FFFC0 63 0 false).pkg.poisonedAt 0 false ((tokens 0x7FFFC0 63).pkg.c 0).joins [] (0x7FFFC0 / 4 + i) = false) := by decide +kernel

/-- A sys trigger of context 0 with these operands; context 1 of its core as given. -/
def sysTrigger (a b c : Word) (y : Ctx) : State :=
  let f : Fire := { ctx := 0, a := .s a, b := .s b, c := .s c }
  let x : Ctx := { phase := .running, pc := 32 }
  { pkg := { ctx := [(0, x), (1, y)], fire := f } }
theorem witness_SysOperations :
    let n (s : State) : Nat := s.pkg.fire.b.toS.toNat % 8192
    let good (a : Nat) : Prop := a % 16 = 0 ∧ a + 16 ≤ 0x800000
    (n (sysTrigger 0 0x0C0 0 {}) = 0x0C0 ∧ n (sysTrigger 0 0x0DA 0 {}) = 0x0DA ∧ n (sysTrigger 0 0x1C0 0 {}) = 0x1C0 ∧
      0x1C0 < 0x1000 ∧ 0x1C0 % 256 = 0x0C0 ∧ n (sysTrigger 0 0x0D7 0 {}) = 0x0D7 ∧
      n (sysTrigger 0 0x0BF 0 {}) = 0x0BF ∧ n (sysTrigger 0 0x0DB 0 {}) = 0x0DB ∧ n (sysTrigger 0 0xFFF 0 {}) = 0xFFF ∧ n (sysTrigger 0 0x1030 0 {}) = 0x1030) ∧
    (4 * (0 / 4) + (sysTrigger 1 0x0D0 0 {}).pkg.fire.a.toS.toNat % 4 ≠ 0 ∧ ((sysTrigger 1 0x0D0 0 {}).pkg.c 1).phase = .unbound ∧
      ((sysTrigger 1 0x0D0 0 { phase := .frozen }).pkg.c 1).phase = .frozen) ∧
    (((sysTrigger 1 0x0D0 0 { phase := .ready }).pkg.c 1).phase ≠ .frozen ∧ ((sysTrigger 1 0x0D0 0 { phase := .ready }).pkg.c 1).phase ≠ .unbound) ∧
    4 * (0 / 4) + (sysTrigger 4 0x0D0 0 {}).pkg.fire.a.toS.toNat % 4 = 0 ∧
    ((sysTrigger 0 0 0 {}).pkg.fire.b.toS.getLsbD 0 = false ∧ ((sysTrigger 0 0 0 {}).pkg.c 0).phase = .running) ∧
    ¬good 0x7FFFF8 ∧ ¬good 0x800000 ∧ good 0x7FFFF0 ∧ ((sysTrigger 0 0 0x7FFFF0 {}).pkg.c 0).sysq.length < 8 ∧
    8 ≤ ((inCtx { sysq := List.replicate 8 { op := 3, a := 0, d := 0, c := 0, b := 0 } }).pkg.c 0).sysq.length := by decide +kernel

/-- Command 1 of context 0 as given, in the phase given, with others outstanding beside it. -/
def command (c : Cmd) (phase : CmdPhase) (others : List (Nat × Command)) : State :=
  let m : Command := { cmd := c, phase := phase }
  { pkg := { cmds := (1, m) :: others } }
theorem witness_FencesAndBindings :
    let other : Command := { cmd := { id := 2 }, phase := .started }
    let c : Cmd := { id := 1, a := 0x7FFFF8, closure := [2] }
    let waits := command c .queued [(2, other)]
    let free := command c .queued []
    (1 ≤ (fired (.s 0) (.s 1)).pkg.fire.b.toS.toNat ∧ 4 ≤ (fired (.s 0) (.s 5)).pkg.fire.b.toS.toNat ∧ (fired (.s 0) (.s 0)).pkg.fire.b.toS.toNat = 0) ∧
    (let m : Command := { cmd := { id := 1 } }
     let p : Pkg := { cmds := [(1, m)], ctx := [(0, { fenceMark := 2 })] }
     m ∈ p.ownCmds (fired (.s 0) (.s 1)).pkg.fire.ctx ∧ p.present m.cmd.id = true ∧ m.cmd.id < (p.c 0).fenceMark) ∧
    (waits.pkg.present c.id = true ∧ ∃ n ∈ c.closure, waits.pkg.present n = true) ∧
    (free.pkg.present c.id = true ∧ (∀ n ∈ c.closure, free.pkg.present n = false) ∧ (free.pkg.cmd c.id).phase ≠ .arrived) ∧
    c.a.toNat % 8 = 0 ∧ c.a.toNat + 8 ≤ 0x800000 ∧ free.pkg.powerOf (coreOf c.ctx) = 0 := by decide

/-- Channel 0 takes a step of the kind, with its places and program position. -/
def channel (kind : Nat) (places : List Nat) (c : Channel) : State :=
  let st : DriveStep := { kind := kind, slot := 0, burst := 0, cmd := 1, places := places }
  { pkg := { chans := [(0, { c with step := some st })] } }
theorem witness_TrowelLanes :
    let s := channel 0 [] { halted := false }
    (s.pkg.chans.get s.pkg.focus).step = some ⟨0, 0, 0, 1, []⟩ ∧ (s.pkg.chans.get s.pkg.focus).halted = false ∧ (2 : BitVec 2) ≠ 3 := by decide
theorem witness_TrowelPrograms :
    let read := channel 1 [0, 256] { halted := false }
    let write := channel 2 [0, 256] { halted := false }
    ((read.pkg.chans.get 0).step = some ⟨1, 0, 0, 1, [0, 256]⟩ ∧ (read.pkg.chans.get 0).halted = false) ∧
    ((write.pkg.chans.get 0).step = some ⟨2, 0, 0, 1, [0, 256]⟩ ∧ (write.pkg.chans.get 0).halted = false) ∧
    (∀ i < [0, 256].length, ∀ j < [0, 256].length, i ≠ j → [0, 256].getD i 0 + 256 ≤ [0, 256].getD j 0 ∨ [0, 256].getD j 0 + 256 ≤ [0, 256].getD i 0) ∧
    (∀ p ∈ [0, 256], 512 < p ∨ p + 256 ≤ 512) := by decide
/-- Channel 0 is driven by command 1, one idle step of which is left. -/
def driven (halted : Bool) : State :=
  let c : Cmd := { id := 1, c := 1, local0 := [0, 0, 0, 0] }
  let m : Command := { instr := .ecxBuDrive c, cmd := c, unit := 13, op := 14, phase := .arrived }
  { pkg := { cmds := [(1, m)], chans := [(0, { holder := some 1, halted := halted })] } }
theorem witness_TrowelPrograms_sequence :
    let at_ (lvl lc0 lc1 : Nat) : Channel := (channel 0 [] { halted := false, lvl := lvl, lc0 := lc0, lc1 := lc1 }).pkg.chans.get 0
    ((at_ 0 0 0).step = some ⟨0, 0, 0, 1, []⟩ ∧ (at_ 0 0 0).halted = false ∧ (1 : BitVec 16) ≠ 0) ∧
    ((at_ 2 0 2).lvl = 2 ∧ 1 < (at_ 2 0 2).lc1) ∧ ((at_ 2 0 1).lvl = 2 ∧ (at_ 2 0 1).lc1 ≤ 1) ∧
    ((at_ 1 2 0).lvl ≠ 2 ∧ 1 < (at_ 1 2 0).lc0) ∧ ((at_ 1 1 0).lvl ≠ 2 ∧ (at_ 1 1 0).lc0 ≤ 1) ∧
    ((channel 0 [] {}).pkg.chans.get 0).holder = none ∧
    ∀ halted : Bool, let p := (driven halted).pkg
      let m := p.cmd 1
      (p.chans.get 0).holder = some 1 ∧ p.present 1 = true ∧ stepping m = true ∧ (∀ h ∈ p.held, h.cmd ≠ some 1) ∧
      m.progress < m.cmd.c.toNat ∧ field m.cmd.local0 (4 * m.progress) 4 / 2 ^ 30 = 0 ∧ (p.chans.get 0).halted = halted := by decide
/-! ### Engine commands: an ASID whose first GiB of addresses a table of three levels maps to planes -/

/-- The bytes of a number placed at an address. -/
def num (a n x : Nat) : List Host.Cell := (List.range n).map fun i => (a + i, BitVec.ofNat 8 (x / 256 ^ i))
/-- The device-memory place of address 65,536 n + b of the ASID, b below 4,096. -/
def dev (n b : Nat) : Nat := dramDpa (16 * n) 0 b
/-- A sequence descriptor of one head and one table, whose pool has room for one page; where `lin` says so, block 0 is of another
segment (R240, R241). -/
def descriptor (a vlen : Nat) (lin : Bool := false) : List Host.Cell :=
  num a 8 vlen ++ num (a + 8) 4 0x100 ++ (if lin then num (a + 12) 1 1 ++ num (a + 16) 15 (0x20400 + 2 ^ 64 * 0x200 + 2 ^ 96) else []) ++
    num (a + 81) 3 0x060101 ++ num (a + 84) 4 1 ++ num (a + 88) 8 0x30000 ++ num (a + 104) 4 1 ++ num (a + 112) 8 0x50000 ++
    num (a + 120) 8 0x40000 ++ num (a + 128) 8 0x20200
/-- Slots of ASIDs 0 and 1, their tables, shape records of each, three descriptors, the head of a projection state. The table of ASID 1
maps its two regions, of 16 planes in one tile and of one plane in 64 tiles, through columned pages. -/
def memory : Memory :=
  (num 2 1 1 ++ num 4 4 2 ++ num 8 8 0x1000 ++ num 16 8 0x4000 ++ num 0x40 2 1 ++ num 0x42 1 1 ++ num 0x44 4 2 ++ num 0x48 8 0x6000 ++
    num 0x50 8 0x4080 ++ num 0x1000 8 0x2001 ++ num 0x2000 8 0x3001 ++ num 0x3000 8 0x33 ++
    num 0x4000 8 0x10000 ++ num 0x400A 2 0x101 ++ num 0x400C 4 1 ++ num 0x4010 5 1 ++ num 0x401C 4 0xB0000000 ++
    num 0x4040 8 0x100000 ++ num 0x404A 2 0x140 ++ num 0x404C 4 1 ++ num 0x4050 5 1 ++
    num 0x4080 8 0x10000 ++ num 0x408A 2 0x101 ++ num 0x408C 4 16 ++ num 0x4090 5 1 ++ num 0x409C 4 0xB0000000 ++ num 0x40A0 2 1 ++
    num 0x40C0 8 0x100000 ++ num 0x40CA 2 0x140 ++ num 0x40CC 4 1 ++ num 0x40D0 5 1 ++ num 0x40E0 2 1 ++
    num 0x6000 8 0x7001 ++ num 0x7000 8 0x8001 ++ num 0x8000 8 0x9001 ++ num 0x9000 8 0xA001 ++ num 0xA008 8 0x37 ++
    (List.range 4).flatMap (fun i => num (0xA080 + 8 * i) 8 0x10037) ++ descriptor (dev 2 0) 64 ++ descriptor (dev 2 0x400) 0 ++ descriptor (dev 2 0x800) 128 true ++
    num (dev 3 0) 6 0x000100000001).filter fun c => c.2 != 0
/-- A latch that holds i8 weights of the ASID. -/
def latch : Latch := { valid := true, fmt := 11, layout := 0xB0000000 }
/-- A resident node on core 0, group 1 of which is tile 0 alone; the latches of the tile loaded, the channel in broadcast mode, a
projection state loaded, a notice of context 1 accepted. -/
def base : Pkg :=
  let n : Node := { id := 1, phase := .running, resident := true, cbright := true, cores := 1 }
  let m : Notice := { id := 7, sender := 1, core := 0, bytes := num 0 32 0x80000000 |>.map (·.2), len := 4, accepted := true }
  let ch : Channel := { mode := some 1 }
  let st : Stencil := { valid := true, addr := 0x30000, bytes := [1, 0, 0, 0, 1, 0] }
  let t : Tile := { active := latch, shadow := latch }
  { mem := memory, nodes := [(1, n)], groups := [(1, num 0 19 (1 + 2 ^ 144) |>.map (·.2))], notices := [m],
    chans := [(0, ch)], stencil := [(0, st)], tiles := [(0, t)], binds := [⟨0, 0x70000, 64, 8⟩] }
/-- Command 1 outstanding in that package. -/
def ready (c : Cmd) : State := { pkg := { base with cmds := [(1, { cmd := c, phase := .started })] } }
theorem witness_Fresh (c : Cmd) : Fresh ((ready c).pkg.cmd 1) := ⟨rfl, rfl, rfl, rfl, rfl, rfl, rfl, rfl, nofun⟩
/-- A command of context 0 with its operands A, D, C, B and the bytes read at its issue. -/
def cmd (a d c b : Word) (bytes : List Byte := []) (h : Header := {}) : Cmd :=
  { id := 1, hdr := h, a := a, d := d, c := c, b := b, node := 1, groups := [1], local0 := bytes }
/-- Whether every access is accepted. -/
def accepts (body : Eng Unit) (c : Cmd) : Bool :=
  (ready c).pkg.present c.id && match body ⟨(ready c).env, c⟩ (Work.of (ready c).pkg c.id) with | .ok _ _ => true | .error _ _ => false
theorem accepted_of {body : Eng Unit} {c : Cmd} (h : accepts body c = true) :
    (ready c).pkg.present c.id = true ∧ ∃ w, Accepted body c (ready c) w := by
  simp only [accepts, Bool.and_eq_true] at h
  refine ⟨h.1, ?_⟩
  match hb : body ⟨(ready c).env, c⟩ (Work.of (ready c).pkg c.id) with
  | .ok u w => exact ⟨w, hb⟩
  | .error e w => rw [hb] at h; exact absurd h.2 (by simp)
def i8 : Header := { fa := 11, fb := 11 }
def f32to4 : Header := { fa := 0, fb := 10 }
/-- A copy template of one element of four bytes (R196). -/
def template : List Byte := (num 0 64 (0x020101 + 2 ^ 128)).map (·.2)
/-- A macro record of one vector, one tile, one column and one element, fed by core 0 (R223). -/
def macroBytes : List Byte := [1, 0, 1, 1, 0, 0, 1, 1, 0x80] ++ List.replicate 23 0
/-- For every row its command. -/
def cases : List Cmd :=
  [{ cmd 0x1000 0x20000 4 0 with tmpl := template }, cmd 0x1000 0x2000 4 5, cmd 0x40000 0x10000 0 0xE0000000, cmd 0x7FFF00 0x2000 4 0 (num 0 32 0x80000000 |>.map (·.2)),
   cmd 0x50000 1 0 0x301000100, cmd 0x50000 0x100 1 0x303000100, cmd 0x50000 0 0 0x100, cmd 0x50000 0 0 0x100,
   cmd 0x50000 1 0 0, cmd 0x50000 64 0x60000 0, cmd 0x70000 64 0 0, cmd 0 0 0 1, cmd 0x100 0x200 1 1, cmd 0x50000 0 0 64,
   cmd 0x7FFFF8 0 0 0, cmd 0 0 0 5, { cmd 0x10000 0xB0000000 0 1 [] i8 with asid := 1 }, cmd 0x100 0 0 1 macroBytes i8, cmd 0x100 0 0 1 macroBytes i8,
   cmd 0x100 0x200 0 1 (macroBytes ++ List.replicate 32 0) f32to4, cmd 0 0 0 1, cmd 0x50000 0 1 0, cmd 0x20000 0 0 0 [] f32to4,
   cmd 0x20000 0x100 0x200 0x10000, cmd 0x20000 0 0 0, cmd 0x20400 0x20000 64 0, cmd 0x30000 0 1 0x100, cmd 0x30000 0 0 0,
   { cmd 0 0 1 0 [0, 0, 0, 0xB8] with asid := 1 }, cmd 1 0 0 1, { cmd 0x100000 0 1 0 [0, 0, 0, 0] with asid := 1 }, cmd 0x50000 0 0 0]

/-- Whether the command at a place of the list is accepted. -/
def acceptedAt (i : Nat) : Bool := accepts ((engineRows.getD i (.ecCopy, ecCopyWork)).2 (cases.getD i default)) (cases.getD i default)
theorem witness_accepted_retile : acceptedAt 2 = true := by decide +kernel
theorem witness_accepted_wld : acceptedAt 16 = true := by decide +kernel
theorem witness_accepted_first : ∀ i < 16, i = 2 ∨ acceptedAt i = true := by decide +kernel
theorem witness_accepted_last : ∀ i < 15, acceptedAt (17 + i) = true := by decide +kernel
theorem witness_accepted (i : Nat) (h : i < 32) : acceptedAt i = true := by
  rcases Nat.lt_trichotomy i 16 with hi | rfl | hi
  · rcases witness_accepted_first i hi with rfl | h'
    · exact witness_accepted_retile
    · exact h'
  · exact witness_accepted_wld
  · obtain ⟨j, rfl⟩ := Nat.exists_eq_add_of_le hi
    exact witness_accepted_last j (by omega)
theorem witness_EngineCommandsStart : ∀ q ∈ engineRows, ∃ (c : Cmd) (s : State), s.pkg.present c.id = true ∧ ∃ w, Accepted (q.2 c) c s w := by
  intro q hq
  obtain ⟨i, hi, rfl⟩ := List.getElem_of_mem hq
  have h := witness_accepted i hi
  rw [acceptedAt] at h
  rw [List.getD_eq_getElem _ _ hi] at h
  exact ⟨_, _, accepted_of h⟩
/-- How the accesses of a command stop: a status, a hold, a wait. -/
def stopOf (body : Eng Unit) (c : Cmd) : Option Nat :=
  match body ⟨(ready c).env, c⟩ (Work.of (ready c).pkg c.id) with
  | .error (.status n) _ => some n
  | .error (.held _) _ => some 1000
  | .error .wait _ => some 1001
  | _ => none
/-- A stamp at an odd address; an acquire of an address without a leaf; a fence of a command that is outstanding. -/
theorem witness_EngineCommandsStart_stops :
    stopOf (ecStampwWork (cmd 1 0 0 0)) (cmd 1 0 0 0) = some 2 ∧ stopOf (ecAcqWork (cmd 0x10000000000 0 0 0x100)) (cmd 0x10000000000 0 0 0x100) = some 1000 ∧
    stopOf (ecFenceEWork { cmd 0 0 0 5 with closure := [1] }) { cmd 0 0 0 5 with closure := [1] } = some 1001 := by decide +kernel
/-- The leaf of an address of the ASID. -/
def leafOf (va : Nat) : Leaf := match walk (ready (cmd 0 0 0 0)).pkg 0 va with | .leaf l => l | _ => {}
/-- A command whose address is served plainly: the last aligned word of a granule. -/
def sync (d c b : Word) : Cmd := cmd 0x20FF8 d c b
theorem witness_Served : Served (ready (sync 0 0 0x7FFFF0)).pkg (sync 0 0 0x7FFFF0) 0x20FF8 (dev 2 0xFF8) (leafOf 0x20FF8) where
  range := by decide +kernel
  walk := by decide +kernel
  cached := by decide +kernel
  kind := by decide +kernel
  state := by decide +kernel
  writable := by decide +kernel
  dirty := by decide +kernel
  free := by decide +kernel
  unstaged := by decide +kernel
  place := by decide +kernel
  dram := by decide +kernel
  plane := by decide +kernel
  repair := by decide +kernel
  sound := by decide +kernel
/-- The return record at the last place of the scratchpad. -/
theorem witness_SyncCommands :
    let s := ready (sync 0 0 0x7FFFF0)
    let late (progress : Nat) : Pkg := { s.pkg with cmds := [(1, { cmd := sync 0 0 0x57FFFF0, phase := .waiting, timedOut := true, progress := progress })] }
    s.pkg.present 1 = true ∧ s.pkg.powerOf 0 = 0 ∧ 0x20FF8 % 8 = 0 ∧
    Eng.linear (returnAddr 0x7FFFF0) 16 16 = true ∧ Eng.linear (returnAddr 0x800000) 16 16 = false ∧
    bits (0x57FFFF0 : Word).toNat 26 24 < 6 ∧ (s.pkg.cmd 1).timedOut = false ∧
    (let x : Word := BitVec.ofNat 64 (natOf (s.pkg.mem.getMany (dev 2 0xFF8) 8))
     acqCond 0 x 0 = true ∧ acqCond 0 x 1 = false) ∧
    (∀ progress ∈ [0, 1], (late progress).present 1 = true ∧ ((late progress).cmd 1).timedOut = true ∧ ((late progress).cmd 1).progress = progress) ∧
    covered s.pkg (sync 0 0 0) 0x20FF8 = false ∧
    (opCode 0x30A000100 = 10 ∧ opType 0x200000100 = 2 ∧ opCode 0x200000100 = 0 ∧ atomicOk 10 2 = true ∧ atomicOk 0 4 = true) ∧
    atomicBehind s.pkg (sync 0 0 0) 0 [0x20FF8] = false := by decide +kernel
theorem witness_CopyCommands_local :
    let c := cmd 0x1FFFFFC 0x7FFFFC 4 5
    c.b.toNat % 16 = 5 ∧ c.b.getLsbD 4 = false ∧ 0 < c.c.toNat ∧ c.c.toNat < 2 ^ 32 ∧ Eng.localOk (0x7FFFFC % 2 ^ 32) 4 = true ∧
    Eng.localOk 0x17FFFFC 4 = true ∧ Eng.localOk 0x21FFFFC 4 = true ∧ Eng.localOk 0x7FFFFD 4 = false ∧
    (0x17FFFFC : Nat) < 0x2000000 ∧ (ready c).pkg.powerOf (coreOf c.ctx) = 0 := by decide +kernel
theorem witness_CopyCommands_clean (l : Nat) : ((ready (cmd 0 0 4 5)).pkg.k 0).poison.get l = false := rfl
/-- The tables of `memory` give the first GiB one leaf, of bonded DRAM, writable and dirty. -/
theorem leaf_facts : leafKind (leafOf 0).entry = 0 ∧ (leafOf 0).level = 2 ∧ bits (leafOf 0).entry 43 32 = 0 ∧ bits (leafOf 0).entry 16 16 = 0 ∧
    bits (leafOf 0).entry 58 44 = 0 ∧ leafState (leafOf 0).entry ≠ 2 ∧ bits (leafOf 0).entry 4 4 = 1 ∧ bits (leafOf 0).entry 5 5 = 1 := by decide +kernel
theorem walk_cmds (p : Pkg) (x : NMap Command) (y : NMap Core) (asid va : Nat) : walk { p with cmds := x, core := y } asid va = walk p asid va := rfl
/-- Nothing in a package stands in the way of a plain access. -/
def Clear (p : Pkg) : Prop :=
  bits (p.regv 0x04000070) 56 56 = 0 ∧ (p.node 1).restart = false ∧ p.tlb = [] ∧ p.failed = [] ∧ p.repairs = [] ∧ p.badSector = []
/-- Then an address is served plainly by its leaf. -/
theorem served_of {p : Pkg} (hp : Clear p) {c : Cmd} (hc : c.node = 1) {a : Nat} {l : Leaf} (hr : a < 2 ^ 56) (hw : walk p c.asid a = .leaf l)
    (k : leafKind l.entry ≠ 3) (st : leafState l.entry ≠ 2) (w : bits l.entry 4 4 = 1) (d : bits l.entry 5 5 = 1)
    (hd : isDram (leafPlace p l a) = true) : Served p c a (placeOf p c.asid a) (pageLeaf p c.asid a) := by
  obtain ⟨hm, hn, ht, hf, hr', hb⟩ := hp
  have hl : pageLeaf p c.asid a = l := by simp only [pageLeaf, hw]
  have hk : placeOf p c.asid a = leafPlace p l a := by rw [placeOf, hl]
  rw [hl, hk]
  exact
    { range := hr, walk := hw, cached := by simp [cachedWalks, ht], kind := k, state := st, writable := w, dirty := d
      free := by simp [Eng.moveHold, hm], unstaged := by simp [Eng.inOutput, hc, hn], place := rfl, dram := hd
      plane := by simp [Eng.failedAt, hf], repair := by simp [Eng.pendingAt, hr'], sound := by intro _ _; rw [hb]; rfl }
/-- Every range below 2 MiB is served plainly where the tables say so and nothing stands in the way. -/
theorem serves_of {p : Pkg} (hp : Clear p) {c : Cmd} (hc : c.asid = 0) (hn : c.node = 1) (hw : walk p 0 0 = .leaf (leafOf 0))
    {va n : Nat} (h : va + n ≤ 2 ^ 21) : Serves p c va n := by
  obtain ⟨k, lv, b1, b2, b3, st, w, d⟩ := leaf_facts
  intro a _ ha
  have hwa : walk p c.asid a = .leaf (leafOf 0) := by
    rw [hc]
    exact walk_huge (by omega) hw lv k
  refine served_of hp hn (by omega) hwa (by rw [k]; decide) st w d ?_
  unfold leafPlace
  simp only [k, lv, b1, b2, b3, pageSize, dramDpa, isDram, decide_eq_true_eq]
  omega
/-- The page at an address is a columned one, writable and dirty, in bonded DRAM. -/
def columned (p : Pkg) (asid va : Nat) : Bool :=
  match walk p asid va with
  | .leaf l => leafKind l.entry == 1 && leafState l.entry != 2 && bits l.entry 4 4 == 1 && bits l.entry 5 5 == 1 &&
      (List.range 16).all fun g => decide (leafPlace p l (va + 4096 * g) + 4096 ≤ 2 ^ 54)
  | _ => false
theorem granule_at (a : Nat) : a / 65536 * 65536 + 4096 * (a % 65536 / 4096) + a % 4096 = a := by omega
theorem granule_offset (a : Nat) : (a / 65536 * 65536 + 4096 * (a % 65536 / 4096)) % 4096 + a % 4096 < 4096 := by omega
theorem columned_cmds (p : Pkg) (x : NMap Command) (asid va : Nat) : columned { p with cmds := x } asid va = columned p asid va := rfl
/-- Columned pages where nothing stands in the way are served plainly. -/
theorem serves_pages {p : Pkg} (hp : Clear p) {c : Cmd} (hn : c.node = 1) {va n : Nat} (hv : va % 65536 = 0) (hr : va + 65536 * n ≤ 2 ^ 56)
    (h : (List.range n).all (fun i => columned p c.asid (va + 65536 * i)) = true) :
    Serves p c va (65536 * n) ∧ ∀ o < 65536 * n, leafKind (pageLeaf p c.asid (va + o)).entry = 1 := by
  have page (a : Nat) (h1 : va ≤ a) (h2 : a < va + 65536 * n) : ∃ l, walk p c.asid a = .leaf l ∧ leafKind l.entry = 1 ∧ leafState l.entry ≠ 2 ∧
      bits l.entry 4 4 = 1 ∧ bits l.entry 5 5 = 1 ∧ isDram (leafPlace p l a) = true := by
    have hc := List.all_eq_true.1 h ((a - va) / 65536) (List.mem_range.2 (by omega))
    have hb : a / 65536 * 65536 = va + 65536 * ((a - va) / 65536) := by omega
    rw [← hb] at hc
    unfold columned at hc
    have hw : ∀ g < 16, walk p c.asid (a / 65536 * 65536 + 4096 * g) = walk p c.asid a := fun g _ => walk_page p _ (by omega)
    rw [show walk p c.asid (a / 65536 * 65536) = walk p c.asid a from walk_page p _ (by omega)] at hc
    split at hc
    · rename_i l hl
      simp only [Bool.and_eq_true, beq_iff_eq, bne_iff_ne, List.all_eq_true, List.mem_range, decide_eq_true_eq] at hc
      obtain ⟨⟨⟨⟨k, st⟩, w⟩, d⟩, g⟩ := hc
      refine ⟨l, hl, k, st, w, d, ?_⟩
      have hg := g (a % 65536 / 4096) (Nat.div_lt_of_lt_mul (Nat.mod_lt a (by decide)))
      have := leafPlace_add ((hw (a % 65536 / 4096) (Nat.div_lt_of_lt_mul (Nat.mod_lt a (by decide)))).trans hl) (by rw [k]; decide)
        (i := a % 4096) (granule_offset a)
      rw [granule_at] at this
      simp only [isDram, decide_eq_true_eq]
      omega
    · cases hc
  refine ⟨fun a h1 h2 => ?_, fun o ho => ?_⟩
  · obtain ⟨l, hl, k, st, w, d, hd⟩ := page a h1 h2
    exact served_of hp hn (by omega) hl (by rw [k]; decide) st w d hd
  · obtain ⟨l, hl, k, _⟩ := page (va + o) (by omega) (by omega)
    simp only [pageLeaf, hl, k]
theorem base_walk : walk base 0 0 = .leaf (leafOf 0) := by decide +kernel
theorem base_free : Clear base := by unfold Clear; decide +kernel
theorem clear_cmds {p : Pkg} (x : NMap Command) (h : Clear p) : Clear { p with cmds := x } := h
/-- A package whose tables serve every page below 2 MiB and in which nothing stands in the way. -/
structure Still (p : Pkg) : Prop where
  walk  : walk p 0 0 = .leaf (leafOf 0)
  plain : Clear p
theorem Still.serves {p : Pkg} (h : Still p) (x : NMap Command) (y : NMap Core) (c : Cmd) (hc : c.asid = 0) (hn : c.node = 1) {va n : Nat}
    (hv : va + n ≤ 2 ^ 21) : Serves { p with cmds := x, core := y } c va n := by
  exact serves_of (p := { p with cmds := x, core := y }) h.plain hc hn ((walk_cmds p x y 0 _).trans h.walk) hv
theorem base_still : Still base := ⟨base_walk, base_free⟩
/-- Served ranges of the ready state, whatever its command of node 1. -/
theorem ready_serves (a d c b : Word) (bytes : List Byte) (h : Header) {va n : Nat} (hv : va + n ≤ 2 ^ 21) :
    Serves (ready (cmd a d c b bytes h)).pkg (cmd a d c b bytes h) va n :=
  base_still.serves [(1, { cmd := cmd a d c b bytes h, phase := .started })] base.core _ rfl rfl hv
/-- The regions of ASID 1 are served plainly through columned pages. -/
theorem witness_columned (c : Cmd) (hc : c.asid = 1) (hn : c.node = 1) {va n : Nat} (hv : va % 65536 = 0) (hr : va + 65536 * n ≤ 2 ^ 56)
    (h : (List.range n).all (fun i => columned base 1 (va + 65536 * i)) = true) :
    Serves (ready c).pkg c va (65536 * n) ∧ ∀ o < 65536 * n, leafKind (pageLeaf (ready c).pkg c.asid (va + o)).entry = 1 :=
  serves_pages (p := { base with cmds := [(1, { cmd := c, phase := .started })] }) (clear_cmds _ base_free) hn hv hr
    (by simp only [hc, columned_cmds]; exact h)
theorem witness_ArrayCommands_region : (List.range 1).all (fun i => columned base 1 (0x10000 + 65536 * i)) = true := by decide +kernel
theorem witness_ChannelCommands_region : (List.range 4).all (fun i => columned base 1 (0x100000 + 65536 * i)) = true := by decide +kernel
/-- Every region's record and slot can be read there. -/
theorem witness_regions {c : Cmd} {base : Nat} {r : Shape} (h : regionAt (ready c).pkg c.asid base = some r) : RegionAt (ready c).pkg c base r :=
  ⟨h, fun _ _ => rfl, rfl⟩
/-- A record's fact, where there is a record. -/
def given {α : Type} (o : Option α) (f : α → Bool) : Bool := match o with | some x => f x | none => false
/-- A result's fact, where there is one. -/
def done {α : Type} (c : Cmd) (m : Eng α) (w : Work) (f : α → Work → Bool) : Bool := match m ⟨(ready c).env, c⟩ w with | .ok x w => f x w | .error _ _ => false
/-- Copies between the last words and device memory; one element by a template; a pull of the notice of context 1; a retile of 0x10000; the
hashes of no page. Their ranges of device memory are served by `ready_serves`. -/
theorem witness_CopyCommands :
    let p := (ready (cmd 0 0 0 0)).pkg
    let t := templateOf template
    (5 % 16 = 5 ∧ 4 % 16 = 4 ∧ 1 % 16 = 1 ∧ (0 : Word).toNat % 16 = 0 ∧ (0 : Word).getLsbD 4 = false) ∧
    Eng.localOk 0x7FFFFC 4 = true ∧ (template ≠ [] ∧ t.xform ≠ 2 ∧ t.cmode ≠ 1 ∧ 4 % 16 = 4) ∧
    (templateOffsets t).all (fun o => decide (((0x20000 + o.1) % 2 ^ 64).toNat % 2 ^ t.esize = 0) &&
      Eng.localOk (swizzleSide t.xform 1 ((0x7FFFFC + o.2) % 2 ^ 64).toNat % 2 ^ 32) (2 ^ t.esize)) = true ∧
    (0x7FFF00 ≤ 0x7FFF00 ∧ 0x7FFF00 ≤ 0x7FFFE0 ∧ 0x7FFF00 % 32 = 0 ∧ (p.cmd 1).badRecord = false) ∧
    given (slotNotice p 0 (num 0 32 0x80000000 |>.map (·.2))) (fun m => decide (0 + 4 ≤ m.len) && m.sender / 512 == p.number &&
      Eng.localOk (m.addr + 0) 4 && decide (m.addr + 0 < 0x2000000)) = true ∧
    (field (num 0 32 0x80000000 |>.map (·.2)) 0 4).testBit 31 = true ∧ p.powerOf 0 = 0 ∧
    given (regionAt p 0 0x10000) (fun r =>
      let f := blockForm (0xB0000000 / 2 ^ 28)
      r.ok && r.planes % f.pb == 0 && f.bs == 0 && decide (0x40000 + (r.planes / f.pb * (r.kt * f.ku) * (r.nt * 64) * f.w + 7) / 8 ≤ 2 ^ 21) &&
      decide (r.base + r.size ≤ 2 ^ 21)) = true ∧
    bits 0xB0000000 26 16 = 0 ∧ Eng.linear 0x800000 0 8 = true := by decide +kernel
theorem witness_CopyCommands_serves : Serves (ready (cmd 0x20000 0 4 4)).pkg (cmd 0x20000 0 4 4) 0x20000 4 := ready_serves _ _ _ _ _ _ (by decide)
theorem witness_SyncCommands_contributions :
    let c := cmd 0x50000 0x7FFFF8 1 0x303000100
    commutes (opCode c.b) = true ∧ atomicOk (opCode c.b) (opType c.b) = true ∧ atomicBytes (opType c.b) = 8 ∧ 0x7FFFF8 + 1 * 8 ≤ 0x800000 ∧
    0x50000 % 8 = 0 ∧ atomicBehind (ready c).pkg c (opCode c.b) [0x50000] = false := by decide +kernel
/-- The last entry of a table; a latch load of the region of tile 0; a macro of one tile; a list of one entry that no page backs. -/
theorem witness_ArrayCommands :
    let c := cmd 0x50000 0 1 0x00FF0000
    (((ready c).pkg.node c.node).cbright = true ∧ bits c.b.toNat 15 1 = 0 ∧ bits c.b.toNat 31 16 + 1 = 256) ∧
    (let c := { cmd 0x10000 0xB0000000 0 1 [] i8 with asid := 1 }
     given (regionAt (ready c).pkg 1 0x10000) (fun r => done c (rectOf c 1 true) { p := (ready c).pkg } fun rc _ =>
      decide (r.ok = true ∧ r.layout ≠ 0 ∧ r.layout / 2 ^ 28 = 11 ∧ r.layout = 0xB0000000 ∧ rc.joined = false ∧ rc.die = r.die ∧ rc.rows = memberRows r.rows ∧
        rc.nt = r.nt ∧ rc.ca = r.c0 ∧ rc.cb + 1 = r.c0 + r.kt ∧ 0 < r.planes / planesOf 11 ∧ rc.kt = 1 ∧ rc.nt = 1 ∧
        r.base = 0x10000 ∧ r.size = 65536 * 1)) = true) := by decide +kernel
theorem witness_ArrayCommands_macro :
    let c := cmd 0x7FFFE0 0 0 1 macroBytes i8
    let p := (ready c).pkg
    let r := macroOf c.local0
    (p.cmd 1).badRecord = false ∧ Eng.linear 0x7FFFE0 32 32 = true ∧ macroOk c.local0 = true ∧ (0 < r.m ∧ 0 < r.kt ∧ 0 < r.nt ∧ r.ke < (blockForm 11).kd) ∧
    done c (rectOf c 1 true) { p := p } (fun rc w => decide (r.kt = rc.kt ∧ r.nt = rc.nt ∧ r.join = rc.joined) &&
      done c (checkFeeders c rc r (slicePitch 11 (blockForm 11).kd) r.m) w (fun _ _ => true) &&
      rc.tiles.all (fun i => (p.tiles.get i).owner == none && (p.tiles.get i).active == latch && (p.tiles.get i).shadow == latch) &&
      (List.range r.nt).all fun nt => p.powerOf (rc.accCore nt) == 0) = true ∧ fillsUnderWay p = [] ∧
    (latch.valid = true ∧ latch.asid = 0 ∧ latch.fmt = 11 ∧ latch.layout.testBit 27 = r.x ∧ latch.parity = false) ∧
    (p.cmd 1).progress = 0 ∧ (p.cmd 1).saved = [] ∧ (p.cmd 1).swapped = false ∧
    (r.feeders.all fun f => p.powerOf ((p.pcoreOf f.core).getD 0) == 0) = true := by decide +kernel
/-- A drive of one idle entry over the region of 0x100000. -/
theorem witness_ChannelCommands_drive :
    let c := { cmd 0x100000 0x7FFFFC 1 0 [0, 0, 0, 0] with asid := 1 }
    let p := (ready c).pkg
    given (regionAt p 1 0x100000) (fun r => decide (r.ok = true ∧ r.die = 0 ∧ r.c0 = 0 ∧ r.kt = 64 ∧ r.rows.testBit 0 = true ∧
      (memberRows r.rows).findIdx (· == 0) < r.nt ∧ 0 < r.planes ∧ r.base = 0x100000 ∧ r.size = 65536 * 4) && !staged p 1 r &&
      (localWords c).all fun w => decide (twOpcode w / 8 < 3) && bits w.toNat 25 15 == 0 && decide (bits w.toNat 14 0 < r.planes)) = true ∧
    Eng.linear 0x7FFFFC 4 4 = true := by decide +kernel
/-- The package with the page table away from the slots, and a query of the sequences' state in core 0's scratchpad. -/
def calm : Pkg := { base with reg := [(0x02000008, 0x8000000)], core := [(0, { spad := [(0x100, 1), (0x104, 1)] })] }
def calmly (c : Cmd) : State := { pkg := { calm with cmds := [(1, { cmd := c, phase := .started })] } }
theorem calm_still : Still calm := ⟨by decide +kernel, by unfold Clear; decide +kernel⟩
theorem calm_serves (a d c b : Word) (bytes : List Byte) (h : Header) {va n : Nat} (hv : va + n ≤ 2 ^ 21) :
    Serves (calmly (cmd a d c b bytes h)).pkg (cmd a d c b bytes h) va n :=
  calm_still.serves [(1, { cmd := cmd a d c b bytes h, phase := .started })] calm.core _ rfl rfl hv
/-- Bytes of the first GiB as that leaf places them. -/
def plainBytes (p : Pkg) (va n : Nat) : List Byte := (List.range n).map fun i => p.mem.get (leafPlace p { entry := 0x33, level := 2, at_ := 0x3000 } (va + i))
theorem leafOf_zero : leafOf 0 = { entry := 0x33, level := 2, at_ := 0x3000 } := by decide +kernel
theorem still_bytes {p : Pkg} (h : Still p) (x : NMap Command) {va n : Nat} (hv : va + n ≤ 2 ^ 30) :
    bytesAt { p with cmds := x } 0 va n = plainBytes p va n := by
  unfold bytesAt plainBytes
  apply List.map_congr_left
  intro i hi
  rw [List.mem_range] at hi
  have w : walk { p with cmds := x } 0 (va + i) = .leaf (leafOf 0) :=
    walk_huge (by omega) ((walk_cmds p x p.core 0 0).trans h.walk) leaf_facts.2.1 leaf_facts.1
  have : placeOf { p with cmds := x } 0 (va + i) = leafPlace p { entry := 0x33, level := 2, at_ := 0x3000 } (va + i) := by
    simp only [placeOf, pageLeaf, w, leafOf_zero]
    rfl
  rw [this]
/-- The two sequences, their head, a projection state with its stencil slot; their bytes are those of `still_bytes`. -/
theorem witness_AttentionCommands :
    let p := (calmly (cmd 0x20000 0 0 0)).pkg
    let c := cmd 0x20000 0 0 0
    let b := plainBytes calm 0x20000 256
    let b' := plainBytes calm 0x20400 256
    let q := descOf 0x20000 b
    let q' := descOf 0x20400 b'
    let h := plainBytes calm 0x30000 64
    let e := plainBytes calm q.htab 32
    0x20000 % 256 = 0 ∧ descOk b q = true ∧ descOk b' q' = true ∧ q.nh = 1 ∧ q.lin = [] ∧ q'.lin = [] ∧ q.vlen = 64 ∧ q'.vlen = 0 ∧
    leafKind (pageLeaf p 0 0x20000).entry ≠ 1 ∧ covered p c 0x20000 = false ∧ covered p c 0x20400 = false ∧
    (iptAll p).all (fun x => x.asid != 0) = true ∧ (q.resolve 0).1 = 0x100 ∧
    (q'.dcode = q.dcode ∧ q'.nh = q.nh ∧ q'.t = q.t ∧ q'.b = q.b ∧ q'.pver = q.pver ∧ q'.pstate = q.pstate ∧ q.ng = 1 ∧ q.fb = 0) ∧
    (field e 0 8 % 64 = 0 ∧ field e 12 4 ≤ field e 8 4 ∧ field e 20 1 ≤ 2 ∧ field e 21 1 = 0 ∧ field e 23 1 ≤ 7 ∧ field e 24 8 = 0) ∧
    (field h 0 4 ≠ 0 ∧ stT h = 1 ∧ field h 5 1 ≤ 2 ∧ (h.drop 6).all (· == 0) = true) ∧
    given (stencilSlot p fun t => t.asid == 0 && t.addr == 0x30000) (fun st => Eng.linear 0 (1 * stDim st.bytes * (fmtWidth 0 / 8)) 4) = true ∧
    inWide 0 = true ∧ (bits 0x10000 13 6 = 0 ∧ bits 0x10000 31 16 = 1) ∧ Eng.linear 0x100 16 16 = true ∧ Eng.linear 0x7FFFE0 32 32 = true ∧
    (let qs := localBytes p c 0x100 16
     field qs 0 4 = q.pver ∧ field qs 4 1 = q.t) ∧
    (p.allCmds.all fun m => m.cmd.ctx != 0 || decide (1 ≤ m.cmd.id)) = true := by decide +kernel
theorem witness_AttentionCommands_uncounted : Uncounted (calmly (cmd 0x20400 0x20000 64 0)).pkg 0 0x100 0 0 :=
  ⟨by unfold SoundIpt; decide +kernel, by decide +kernel⟩
/-- The table counts page 0 for the first block of the sequence of 0x20000, of a head that its descriptor and no leaf names. -/
def listed : Pkg :=
  let a := iptBase calm + 128 * ((iptHash 0 0x100 0 0).toNat % iptBuckets calm)
  { calm with mem := iptBytes { at_ := a, ovf := false, valid := true, demoted := false, asid := 0, hg := 0, seg := 0x100, block := 0, pp := 0, ref := 1 }
      |> cellsAt a |> calm.mem.setCells }
theorem witness_ArrayCommands_counted :
    (∃ x, Counted listed 0 0x100 0 0 x ∧ x.pp = 0 ∧ x.demoted = false) ∧
    (let q := descOf 0x20000 (plainBytes listed 0x20000 256)
     descOk (plainBytes listed 0x20000 256) q = true ∧ q.lin = [] ∧ q.dcode = 0 ∧ q.seg = 0x100 ∧ kvAddress listed 0 q 0 = none ∧ 0 < 64 ∧ 0 / q.hp = 0) := by
  refine ⟨⟨((iptBucket listed 0 0x100 0 0).find? (iptKey 0 0x100 0 0)).getD default, ⟨?_, ?_⟩, ?_, ?_⟩, ?_⟩
  · unfold SoundIpt
    decide +kernel
  all_goals decide +kernel
theorem listed_still : Still listed := ⟨by decide +kernel, by unfold Clear; decide +kernel⟩
/-- A list of one entry: its header and the entry, for block 0 of that sequence. -/
def listBytes : List Byte := macroBytes ++ (num 0 48 (1 + 2 ^ 136 * 4 + 2 ^ 192 * 0x20000)).map (·.2)
theorem witness_ArrayCommands_list :
    let c := cmd 0x100 0x200 0 1 listBytes { fa := 10, fb := 10 }
    let p : Pkg := { listed with cmds := [(1, { cmd := c, phase := .started })] }
    let r := macroOf c.local0
    let hdr := (c.local0.drop 32).take 32
    let e := ((c.local0.drop 64).drop (16 * 0)).take 16
    field hdr 0 4 = 1 ∧ headerClean hdr = true ∧ field hdr 9 1 = 0 ∧ field hdr 8 1 = 0 ∧ field hdr 24 8 = 0x20000 ∧ 0x200 + 32 + 16 * 1 ≤ 0x800000 ∧
    macroOk c.local0 = true ∧ r.join = false ∧ r.ke < 128 ∧ r.lb + 1 * r.m ≤ 8192 ∧ r.x = false ∧ 0 < r.m ∧ 0 < r.kt ∧ 0 < r.nt ∧
    (entryClean e = true ∧ field e 0 3 = 0 ∧ field e 4 3 = 0) ∧
    done c (rectOf c 1 false) { p := p } (fun rc w => decide (r.kt = rc.kt ∧ r.nt = rc.nt) && decide rc.tiles.Nodup &&
      (rc.find (entryTile e)).isSome && rc.tiles.all (fun i => (p.tiles.get i).owner == none) &&
      (List.range r.nt).all (fun nt => p.powerOf (rc.accCore nt) == 0) &&
      done c (checkFeeders c rc r (slicePitch 10 128) (r.m * 1)) w (fun _ _ => true)) = true ∧
    Eng.linear 0x100 32 32 = true ∧ Eng.linear 0x200 32 32 = true ∧ (p.cmd 1).badRecord = false ∧ (p.cmd 1).progress = 0 ∧ (p.cmd 1).saved = [] ∧
    (p.core.all fun q => q.2.poison.isEmpty) = true ∧ p.badSector = [] ∧ p.failed = [] ∧ p.repairs = [] ∧
    (∀ j < 16, isDram (dramDpa 0 j 0) = true) := by decide +kernel
/-- No free value bears on what a command finds in a scratchpad with no store in flight and none that a reader may miss. -/
theorem engineWord_still {p : Pkg} {m : Command} (h : (p.k (coreOf m.cmd.ctx)).stale = []) (k : (p.c m.cmd.ctx).flight = []) (f : Nat)
    (b : Bool) (w : Nat) : Eng.engineWord { p with fresh := f } m b w = Eng.engineWord p m b w := by
  have h' : (Pkg.k { p with fresh := f } (coreOf m.cmd.ctx)).stale = [] := h
  have k' : (Pkg.c { p with fresh := f } m.cmd.ctx).flight = [] := k
  unfold Eng.engineWord Eng.looseWord
  simp only [h, h', pending, k, k']
  rfl
/-! #### Packages that differ above the slots and tables -/

theorem low_set (m : NMap Byte) (k : Nat) (v : Byte) (h : 0x20000 ≤ k) :
    (m.set k v).filter (fun e => decide (e.1 < 0x20000)) = m.filter fun e => decide (e.1 < 0x20000) := by
  unfold NMap.set
  split
  · unfold NMap.erase
    rw [List.filter_filter]
    apply List.filter_congr
    intro e _
    by_cases he : e.1 = k
    · simp [he]; omega
    · simp [he]
  · induction m with
    | nil => simp [NMap.insert]; omega
    | cons e m ih =>
      obtain ⟨j, a⟩ := e
      have hk : ¬k < 0x20000 := by omega
      unfold NMap.insert
      split
      · rename_i he
        subst he
        simp [hk]
      · split
        · simp [List.filter_cons, hk]
        · simp only [List.filter_cons, ih]
theorem low_setCells (cells : List Host.Cell) (h : ∀ b ∈ cells, 0x20000 ≤ b.1) (m : Memory) :
    (m.setCells cells).filter (fun e => decide (e.1 < 0x20000)) = m.filter fun e => decide (e.1 < 0x20000) := by
  induction cells generalizing m with
  | nil => rfl
  | cons b cells ih =>
    show ((m.set b.1 b.2).setCells cells).filter _ = _
    rw [ih (fun q hq => h q (List.mem_cons_of_mem _ hq))]
    exact low_set m b.1 b.2 (h b (List.mem_cons_self ..))
theorem findSome_low {α : Type} (f g : Host.Cell → Option α) (m : Memory) (hf : ∀ e, 0x20000 ≤ e.1 → f e = none) (h : ∀ e, e.1 < 0x20000 → f e = g e) :
    m.findSome? f = (m.filter fun e => decide (e.1 < 0x20000)).findSome? g := by
  induction m with
  | nil => rfl
  | cons e m ih =>
    by_cases he : e.1 < 0x20000
    · simp [he, List.findSome?_cons, h e he, ih]
    · simp [he, hf e (by omega), ih]
theorem getMany_congr {m m' : Memory} {a n : Nat} (h : ∀ z, a ≤ z → z < a + n → m.get z = m'.get z) : m.getMany a n = m'.getMany a n := by
  unfold Memory.getMany NMap.getMany
  exact List.map_congr_left fun i hi => h _ (by omega) (by rw [List.mem_range] at hi; omega)
/-- A package like `calm` where memory above the slots holds something else, and the side slots. -/
structure Above (cells : List Host.Cell) (r : Pkg) : Prop where
  mem   : r.mem = calm.mem.setCells cells
  above : ∀ b ∈ cells, 0x20000 ≤ b.1
  reg   : r.reg = calm.reg
  tbl   : r.poisonTbl = []
  plain : Clear r
theorem Above.get {cells : List Host.Cell} {r : Pkg} (h : Above cells r) {z : Nat} (hz : ∀ b ∈ cells, b.1 ≠ z) : r.mem.get z = calm.mem.get z := by
  rw [h.mem]
  exact Memory.get_setCells_of_not_mem _ _ _ hz
theorem Above.low {cells : List Host.Cell} {r : Pkg} (h : Above cells r) {z : Nat} (hz : z < 0x20000) : r.mem.get z = calm.mem.get z :=
  h.get fun b hb => by have := h.above b hb; omega
theorem Above.slot {cells : List Host.Cell} {r : Pkg} (h : Above cells r) : findSlot r 0 = findSlot calm 0 := by
  have hb : asidBase calm = 0 := by decide +kernel
  have hr : asidBase r = 0 := by rw [← hb]; simp only [asidBase, Pkg.regv, h.reg]
  unfold findSlot
  simp only [hb, hr]
  rw [findSome_low (m := calm.mem) _ _ (fun e he => if_neg (by omega)) fun e _ => rfl, ← low_setCells cells h.above calm.mem, ← h.mem]
  refine findSome_low _ _ _ (fun e he => if_neg (by omega)) fun e he => ?_
  have g1 : r.mem.getMany (e.1 - 2) 2 = calm.mem.getMany (e.1 - 2) 2 ∨ e.1 < 2 := by
    by_cases h2 : e.1 < 2
    · exact .inr h2
    · exact .inl (getMany_congr fun z _ _ => h.low (by omega))
  rcases g1 with g1 | h2
  · rw [g1]
    by_cases h3 : 0 + 2 ≤ e.1 ∧ e.1 < 0 + 64 * 2048 ∧ (e.1 - 0) % 64 = 2
    · have : slotOf r.mem (e.1 - 2) = slotOf calm.mem (e.1 - 2) := by
        unfold slotOf
        rw [show r.mem.getMany (e.1 - 2) 64 = calm.mem.getMany (e.1 - 2) 64 from getMany_congr fun z _ _ => h.low (by omega)]
      rw [this]
    · rw [if_neg (by tauto), if_neg (by tauto)]
  · rw [if_neg (by omega), if_neg (by omega)]
theorem Above.entry {cells : List Host.Cell} {r : Pkg} (h : Above cells r) {a : Nat} (ha : a + 8 ≤ 0x20000) :
    readEntry r none a = .ok (natOf (calm.mem.getMany a 8)) := by
  have hd : isDram a = true := by simp only [isDram, decide_eq_true_eq]; omega
  unfold readEntry
  simp only [hostKey, h.tbl, h.plain.2.2.2.2.2, hd]
  rw [show r.mem.getMany a 8 = calm.mem.getMany a 8 from getMany_congr fun z _ _ => h.low (by omega)]
  rfl
theorem walk_down {p : Pkg} {s : AsidSlot} {va l t t' e : Nat} (h : readEntry p s.ats (t + 8 * levelIndex (l + 1) va) = .ok e)
    (k : e % 2 = 1 ∧ bits e 1 1 = 0 ∧ bits e 9 2 = 0 ∧ bits e 63 56 = 0 ∧ bits e 55 8 * 256 = t' ∧ t' % tableSize l = 0) :
    walkFrom p s va (l + 1) t = walkFrom p s va l t' := by
  obtain ⟨a, b, c, d, f, g⟩ := k
  subst f
  simp [walkFrom, h, a, b, c, d, g]
theorem calm_slot : ∃ s, findSlot calm 0 = some s ∧ s.ats = none ∧ s.root = 0x1000 := by
  refine ⟨(findSlot calm 0).getD default, ?_⟩
  decide +kernel
theorem Above.walk {cells : List Host.Cell} {r : Pkg} (h : Above cells r) : Machine.walk r 0 0 = .leaf (leafOf 0) := by
  obtain ⟨s, hs, ha, hroot⟩ := calm_slot
  have hb (a : Nat) : badTable r a = none := by simp only [badTable, h.tbl, h.plain.2.2.2.2.2]; rfl
  unfold Machine.walk
  rw [h.slot, hs]
  simp only [hb, hroot]
  have e1 : natOf (calm.mem.getMany 0x1000 8) = 0x2001 ∧ natOf (calm.mem.getMany 0x2000 8) = 0x3001 ∧ natOf (calm.mem.getMany 0x3000 8) = 0x33 := by
    decide +kernel
  rw [walk_down (l := 3) (t' := 0x2000) ((congrArg (readEntry r · _) ha).trans (h.entry (by decide))) (by rw [show 0x1000 + 8 * levelIndex (3 + 1) 0 = 0x1000 from rfl, e1.1]; decide),
    walk_down (l := 2) (t' := 0x3000) ((congrArg (readEntry r · _) ha).trans (h.entry (by decide))) (by rw [show 0x2000 + 8 * levelIndex (2 + 1) 0 = 0x2000 from rfl, e1.2.1]; decide)]
  rw [walkFrom, ha, h.entry (by decide), show 0x3000 + 8 * levelIndex (1 + 1) 0 = 0x3000 from rfl, e1.2.2, leafOf_zero]
  simp only [leafAt, ha]
  rfl
theorem Above.still {cells : List Host.Cell} {r : Pkg} (h : Above cells r) : Still r := ⟨h.walk, h.plain⟩
theorem Above.place {cells : List Host.Cell} {r : Pkg} (h : Above cells r) {va : Nat} (hv : va < 2 ^ 21) :
    placeOf r 0 va = dramDpa (va / 4096) 0 (va % 4096) := by
  have w : Machine.walk r 0 va = .leaf (leafOf 0) := walk_huge (by omega) h.walk leaf_facts.2.1 leaf_facts.1
  obtain ⟨k, lv, b1, b2, b3, _⟩ := leaf_facts
  simp only [placeOf, pageLeaf, w, leafPlace, k, lv, b1, b2, b3, pageSize, dramDpa]
  omega
theorem Above.bytes {cells : List Host.Cell} {r : Pkg} (h : Above cells r) {va n : Nat} (hv : va + n ≤ 2 ^ 21)
    (far : ∀ b ∈ cells, ∀ i < n, b.1 ≠ dramDpa ((va + i) / 4096) 0 ((va + i) % 4096)) : bytesAt r 0 va n = plainBytes calm va n := by
  rw [show bytesAt r 0 va n = plainBytes r va n from still_bytes (p := r) h.still r.cmds (by omega)]
  unfold plainBytes
  apply List.map_congr_left
  intro i hi
  rw [List.mem_range] at hi
  have e (p : Pkg) : leafPlace p { entry := 0x33, level := 2, at_ := 0x3000 } (va + i) = dramDpa ((va + i) / 4096) 0 ((va + i) % 4096) := by
    have := leaf_facts
    rw [leafOf_zero] at this
    obtain ⟨k, lv, b1, b2, b3, _⟩ := this
    simp only [leafPlace, k, b1, b2, b3, pageSize, dramDpa]
    omega
  rw [e, e]
  exact h.get fun b hb => far b hb i hi
theorem Above.serves {cells : List Host.Cell} {r : Pkg} (h : Above cells r) {c : Cmd} (hc : c.asid = 0) (hn : c.node = 1) {va n : Nat}
    (hv : va + n ≤ 2 ^ 21) : Serves r c va n := h.still.serves r.cmds r.core c hc hn hv
/-- The cells lie in other granules than that of the descriptors. -/
def Off (cells : List Host.Cell) : Prop := ∀ b ∈ cells, b.1 < 2 ^ 32 ∨ 2 ^ 32 + 4096 ≤ b.1
theorem Above.page {cells : List Host.Cell} {r : Pkg} (h : Above cells r) (o : Off cells) {va n : Nat} (l : 0x20000 ≤ va) (hv : va + n ≤ 0x21000) :
    bytesAt r 0 va n = plainBytes calm va n := h.bytes (by omega) fun b hb i _ => by
  have := o b hb
  have e : (va + i) / 4096 = 32 := by omega
  rw [e, dramDpa]
  omega
/-- The sequence of 0x20000. -/
def longer : Desc := { at_ := 0x20000, vlen := 64, seg := 0x100, lin := [], dcode := 0, nh := 1, t := 1, b := 6, pver := 1, pstate := 0x30000, kvbase := 0,
                       kvpages := 1, ptop := 0, pool := 0x50000, bkbase := 0x40000, htab := 0x20200 }
/-- That of 0x20400, of no token, and that of 0x20800, whose first block is another segment's. -/
def empty : Desc := { longer with at_ := 0x20400, vlen := 0 }
def forked : Desc := { longer with at_ := 0x20800, vlen := 128, lin := [⟨0x20400, 0x200, 1⟩] }
theorem descriptors : ∀ q ∈ [longer, empty, forked], q = descOf q.at_ (plainBytes calm q.at_ 256) ∧ descOk (plainBytes calm q.at_ 256) q = true ∧
    q.at_ % 256 = 0 ∧ 0x20000 ≤ q.at_ ∧ q.at_ + 256 ≤ 0x21000 := by decide +kernel
theorem Above.described {cells : List Host.Cell} {r : Pkg} (h : Above cells r) (o : Off cells) {c : Cmd} (hc : c.asid = 0) (hn : c.node = 1) {q : Desc}
    (hq : q ∈ [longer, empty, forked]) : Described r c q.at_ q := by
  obtain ⟨e, ok, al, lo, hi⟩ := descriptors q hq
  have b : bytesAt r c.asid q.at_ 256 = plainBytes calm q.at_ 256 := by rw [hc]; exact h.page o lo hi
  exact { align := al, served := h.serves hc hn (by omega), desc := by rw [b]; exact e, ok := by rw [b]; exact ok }
theorem head_bytes : plainBytes calm 0x20200 32 = List.replicate 32 0 := by decide +kernel
theorem Above.headed {cells : List Host.Cell} {r : Pkg} (h : Above cells r) (o : Off cells) {c : Cmd} (hc : c.asid = 0) (hn : c.node = 1) {q : Desc}
    (hq : q ∈ [longer, empty, forked]) : Headed r c q 0 ∧ bytesAt r c.asid q.htab 32 = List.replicate 32 0 := by
  have ht : q.htab = 0x20200 := by simp only [List.mem_cons, List.not_mem_nil, or_false] at hq; rcases hq with rfl | rfl | rfl <;> rfl
  have b : bytesAt r c.asid q.htab 32 = List.replicate 32 0 := by rw [hc, ht, h.page o (by decide) (by decide), head_bytes]
  have z : q.htab + 32 * 0 = q.htab := rfl
  refine ⟨?_, b⟩
  constructor <;> rw [z]
  · rw [ht]; exact h.serves hc hn (by decide)
  all_goals (rw [b]; decide)
/-- The table's entry of a page of a block of the segment 0x100, in the first place of its bucket, and the package that holds it. -/
def countedAs (block pp ref : Nat) (demoted : Bool) : Ipt :=
  { at_ := iptBase calm + 128 * ((iptHash 0 0x100 block 0).toNat % iptBuckets calm), ovf := false, valid := true, demoted := demoted, asid := 0, hg := 0,
    seg := 0x100, block := block, pp := pp, ref := ref }
def countCells (x : Ipt) : List Host.Cell := cellsAt x.at_ (iptBytes x)
/-- The package with an entry and a command. -/
def counting (x : Ipt) (c : Cmd) : Pkg := { calm with cmds := [(1, { cmd := c, phase := .started })], mem := calm.mem.setCells (countCells x) }
theorem counting_above (x : Ipt) (c : Cmd) (h : 0x8000000 ≤ x.at_ ∧ x.at_ + 16 ≤ 2 ^ 32) : Above (countCells x) (counting x c) ∧ Off (countCells x) := by
  have key : ∀ b ∈ countCells x, 0x8000000 ≤ b.1 ∧ b.1 < 2 ^ 32 := by
    intro b hb
    unfold countCells cellsAt at hb
    obtain ⟨q, hq, rfl⟩ := List.mem_map.1 hb
    have h1 := (List.of_mem_zip hq).1
    have h2 : (iptBytes x).length = 16 := by simp [iptBytes]
    rw [h2, List.mem_range] at h1
    dsimp only
    omega
  exact ⟨⟨rfl, fun b hb => by have := key b hb; omega, rfl, rfl, calm_still.plain⟩, fun b hb => .inl (key b hb).2⟩
/-- A truncation of the sequence at its address. -/
def truncating (q : Desc) (n : Nat) : Cmd := cmd (BitVec.ofNat 64 q.at_) (BitVec.ofNat 64 n) 0 0
/-- The package with that truncation at work. -/
def cutting (x : Ipt) (q : Desc) (n : Nat) : Pkg := counting x (truncating q n)
/-- What a truncation meets where the entry is the only one of its ASID. -/
def Cuts (x : Ipt) (q : Desc) (n : Nat) : Prop :=
  let p := cutting x q n
  let es := iptBucket p 0 q.seg x.block x.hg
  (0x8000000 ≤ x.at_ ∧ x.at_ + 16 ≤ 2 ^ 32) ∧ leafKind (pageLeaf p 0 q.at_).entry ≠ 1 ∧ covered p (truncating q n) q.at_ = false ∧ n < q.vlen ∧
  (iptAll p).filter (fun y => y.asid == 0) = [x] ∧
  (∀ e ∈ es, isDram e.at_ = true ∧ Eng.failedAt p e.at_ = none ∧ Eng.pendingAt p e.at_ = false ∧ p.badSector.get (e.at_ / 32) = false ∧
    (e.valid = true → e.reserved = 0)) ∧
  es.find? (iptKey 0 q.seg x.block x.hg) = some x ∧ (∀ l ∈ q.lin, l.seg ≠ q.seg) ∧ x.at_ + 16 ≤ placeOf p 0 q.at_
theorem cutting_only {x : Ipt} {q : Desc} {n : Nat} : ∀ e ∈ (cutting x q n).allCmds, e = { cmd := truncating q n, phase := .started } :=
  fun _ he => List.mem_singleton.1 he
/-- The truncation completes there. -/
def Cut (x : Ipt) (q : Desc) (n : Nat) : Prop := ∃ ws, Ends (.ecxKvtrunc (truncating q n)) (truncating q n) { pkg := cutting x q n } 0 ws
  [.dev none false (cellsAt (placeOf (cutting x q n) 0 q.at_) (bytesOf 8 n))] fun _ => True
/-- A shared page of the block that the cut divides; one above the cut; one of another segment's block; a demoted page; one that goes back to
the pool. -/
theorem witness_AttentionCommands_divided (H : Obligations.AttentionCommands) : Cut (countedAs 0 0 2 false) longer 1 := by
  have ⟨r, k, b, l, o, s, f, d, a⟩ : Cuts (countedAs 0 0 2 false) longer 1 := by unfold Cuts; decide +kernel
  have h := counting_above _ (truncating longer 1) r
  have hd : Described (cutting (countedAs 0 0 2 false) longer 1) (truncating longer 1) longer.at_ longer := h.1.described h.2 rfl rfl (by decide)
  have t := ((H (truncating longer 1) { pkg := cutting (countedAs 0 0 2 false) longer 1 } rfl ⟨rfl, rfl, rfl, rfl, rfl, rfl, rfl, rfl, nofun⟩).2.2.2.2.2.2.1 longer
    ⟨fun e he h1 => absurd (by rw [cutting_only e he]) h1, fun e he _ => by rw [cutting_only e he]⟩ hd k b l).2 _ o ⟨s, f⟩ d (.inl a)
  obtain ⟨ws, e, _⟩ := t.1 (by decide) (by decide) (by decide) (by decide) (by decide) (by decide)
  exact ⟨ws, e⟩
theorem witness_AttentionCommands_shared (H : Obligations.AttentionCommands) : Cut (countedAs 0 0 2 false) longer 0 := by
  have ⟨r, k, b, l, o, s, f, d, a⟩ : Cuts (countedAs 0 0 2 false) longer 0 := by unfold Cuts; decide +kernel
  have h := counting_above _ (truncating longer 0) r
  have hd : Described (cutting (countedAs 0 0 2 false) longer 0) (truncating longer 0) longer.at_ longer := h.1.described h.2 rfl rfl (by decide)
  have t := ((H (truncating longer 0) { pkg := cutting (countedAs 0 0 2 false) longer 0 } rfl ⟨rfl, rfl, rfl, rfl, rfl, rfl, rfl, rfl, nofun⟩).2.2.2.2.2.2.1 longer
    ⟨fun e he h1 => absurd (by rw [cutting_only e he]) h1, fun e he _ => by rw [cutting_only e he]⟩ hd k b l).2 _ o ⟨s, f⟩ d (.inl a)
  obtain ⟨ws, e, _⟩ := (t.2 (by decide)).2.1 (by decide) (by decide) (by decide) (.inl (by decide))
  exact ⟨ws, e⟩
theorem witness_AttentionCommands_inherited (H : Obligations.AttentionCommands) : Cut (countedAs 0 0 2 false) forked 0 := by
  have ⟨r, k, b, l, o, s, f, d, a⟩ : Cuts (countedAs 0 0 2 false) forked 0 := by unfold Cuts; decide +kernel
  have h := counting_above _ (truncating forked 0) r
  have hd : Described (cutting (countedAs 0 0 2 false) forked 0) (truncating forked 0) forked.at_ forked := h.1.described h.2 rfl rfl (by decide)
  have t := ((H (truncating forked 0) { pkg := cutting (countedAs 0 0 2 false) forked 0 } rfl ⟨rfl, rfl, rfl, rfl, rfl, rfl, rfl, rfl, nofun⟩).2.2.2.2.2.2.1 forked
    ⟨fun e he h1 => absurd (by rw [cutting_only e he]) h1, fun e he _ => by rw [cutting_only e he]⟩ hd k b l).2 _ o ⟨s, f⟩ d (.inl a)
  obtain ⟨ws, e, _⟩ := (t.2 (by decide)).1 (by decide) (by decide)
  exact ⟨ws, e⟩
theorem witness_AttentionCommands_demoted (H : Obligations.AttentionCommands) : Cut (countedAs 0 0 1 true) longer 0 := by
  have ⟨r, k, b, l, o, s, f, d, a⟩ : Cuts (countedAs 0 0 1 true) longer 0 := by unfold Cuts; decide +kernel
  have h := counting_above _ (truncating longer 0) r
  have hd : Described (cutting (countedAs 0 0 1 true) longer 0) (truncating longer 0) longer.at_ longer := h.1.described h.2 rfl rfl (by decide)
  have t := ((H (truncating longer 0) { pkg := cutting (countedAs 0 0 1 true) longer 0 } rfl ⟨rfl, rfl, rfl, rfl, rfl, rfl, rfl, rfl, nofun⟩).2.2.2.2.2.2.1 longer
    ⟨fun e he h1 => absurd (by rw [cutting_only e he]) h1, fun e he _ => by rw [cutting_only e he]⟩ hd k b l).2 _ o ⟨s, f⟩ d (.inl a)
  obtain ⟨ws, e, _⟩ := (t.2 (by decide)).2.2.1 (by decide) (by decide)
  exact ⟨ws, e⟩
theorem countCells_range (x : Ipt) (h : 0x8000000 ≤ x.at_ ∧ x.at_ + 16 ≤ 2 ^ 32) : ∀ b ∈ countCells x, 0x8000000 ≤ b.1 ∧ b.1 < 2 ^ 32 := by
  intro b hb
  unfold countCells cellsAt at hb
  obtain ⟨q, hq, rfl⟩ := List.mem_map.1 hb
  have h1 := (List.of_mem_zip hq).1
  rw [show (iptBytes x).length = 16 by simp [iptBytes], List.mem_range] at h1
  dsimp only
  omega
theorem clear_mem {p : Pkg} (m : Memory) (sd : NMap Byte) (h : Clear p) : Clear { p with mem := m, side := sd } := h
theorem setCells_append (m : Memory) (a b : List Host.Cell) : (m.setCells a).setCells b = m.setCells (a ++ b) := List.foldl_append.symm
theorem witness_AttentionCommands_returned (H : Obligations.AttentionCommands) : Cut (countedAs 0 0 1 false) longer 0 := by
  have ⟨r, k, b, l, o, s, f, d, a⟩ : Cuts (countedAs 0 0 1 false) longer 0 := by unfold Cuts; decide +kernel
  have h := counting_above _ (truncating longer 0) r
  have hd : Described (cutting (countedAs 0 0 1 false) longer 0) (truncating longer 0) longer.at_ longer := h.1.described h.2 rfl rfl (by decide)
  have t := ((H (truncating longer 0) { pkg := cutting (countedAs 0 0 1 false) longer 0 } rfl ⟨rfl, rfl, rfl, rfl, rfl, rfl, rfl, rfl, nofun⟩).2.2.2.2.2.2.1 longer
    ⟨fun e he h1 => absurd (by rw [cutting_only e he]) h1, fun e he _ => by rw [cutting_only e he]⟩ hd k b l).2 _ o ⟨s, f⟩ d (.inl a)
  let cells := countCells (countedAs 0 0 1 false) ++ countCells { countedAs 0 0 1 false with valid := false }
  let freed : Pkg := { cutting (countedAs 0 0 1 false) longer 0 with mem := calm.mem.setCells cells }
  have hf : Above cells freed := by
    refine ⟨rfl, fun b hb => ?_, rfl, rfl, clear_mem (p := cutting (countedAs 0 0 1 false) longer 0) _ _ h.1.plain⟩
    rcases List.mem_append.1 hb with hb | hb
    · have := countCells_range _ r b hb; omega
    · have := countCells_range { countedAs 0 0 1 false with valid := false } r b hb; omega
  have e1 : ({ cutting (countedAs 0 0 1 false) longer 0 with
      mem := (cutting (countedAs 0 0 1 false) longer 0).mem.setCells (countCells { countedAs 0 0 1 false with valid := false }) } : Pkg) = freed :=
    congrArg (fun m : Memory => ({ cutting (countedAs 0 0 1 false) longer 0 with mem := m } : Pkg)) (setCells_append ..)
  have top : placeOf freed 0 0x50000 = 0x280000000 := (hf.place (by decide)).trans (by decide)
  have low : placeOf (cutting (countedAs 0 0 1 false) longer 0) 0 longer.at_ = 0x100000000 := (h.1.place (by decide)).trans (by decide)
  have u := (t.2 (by decide)).2.2.2 (by decide) (by decide) (by decide) (by decide)
  erw [e1] at u
  obtain ⟨ws, e, _⟩ := u (hf.serves rfl rfl (by decide))
    (.inr (by show placeOf (cutting (countedAs 0 0 1 false) longer 0) 0 longer.at_ + 256 ≤ placeOf freed 0 0x50000; rw [top, low]; decide))
    (.inr (by show (countedAs 0 0 1 false).at_ + 16 ≤ placeOf freed 0 0x50000; rw [top]; exact Nat.le_trans r.2 (by decide)))
  exact ⟨ws, e⟩
/-- A fork of all 64 tokens of the longer sequence, of which the table counts the one page. -/
def forking : Cmd := cmd 0x20400 0x20000 64 0
theorem witness_AttentionCommands_fork (H : Obligations.AttentionCommands) : ∃ ws,
    let p := counting (countedAs 0 0 1 false) forking
    Ends (.ecxKvfork forking) forking { pkg := p } 0 ws [.dev none false (cellsAt (placeOf p 0 0x20400) (bytesOf 8 64))] fun _ => True := by
  have ⟨r, k, b, s, f, a⟩ : let x := countedAs 0 0 1 false
      let p := counting x forking
      let es := iptBucket p 0 0x100 0 0
      (0x8000000 ≤ x.at_ ∧ x.at_ + 16 ≤ 2 ^ 32) ∧ leafKind (pageLeaf p 0 0x20400).entry ≠ 1 ∧ covered p forking 0x20400 = false ∧
      (∀ e ∈ es, isDram e.at_ = true ∧ Eng.failedAt p e.at_ = none ∧ Eng.pendingAt p e.at_ = false ∧ p.badSector.get (e.at_ / 32) = false ∧
        (e.valid = true → e.reserved = 0)) ∧
      es.find? (iptKey 0 0x100 0 0) = some x ∧ x.at_ + 16 ≤ placeOf p 0 0x20400 := by decide +kernel
  have h := counting_above _ forking r
  have only : ∀ e ∈ (counting (countedAs 0 0 1 false) forking).allCmds, e = { cmd := forking, phase := .started } := fun _ he => List.mem_singleton.1 he
  have hd : Described (counting (countedAs 0 0 1 false) forking) forking longer.at_ longer := h.1.described h.2 rfl rfl (by decide)
  have hc : Described (counting (countedAs 0 0 1 false) forking) forking empty.at_ empty := h.1.described h.2 rfl rfl (by decide)
  obtain ⟨ws, e, _⟩ := (H forking { pkg := counting (countedAs 0 0 1 false) forking } rfl ⟨rfl, rfl, rfl, rfl, rfl, rfl, rfl, rfl, nofun⟩).2.2.2.2.2.2.2 longer empty
    (fun _ _ => some (countedAs 0 0 1 false)) ⟨fun e he h1 => absurd (by rw [only e he]) h1, fun e he _ => by rw [only e he]⟩ hd hc k (by decide) rfl rfl rfl rfl rfl rfl
    rfl rfl b
    (fun i hi g hg => by
      have hi : i = 0 := by have := show i < 1 from hi; omega
      have hg : g = 0 := by have := show g < 1 from hg; omega
      subst hi hg
      exact ⟨⟨s, f⟩, by decide, .inl a⟩)
    (by decide)
  exact ⟨ws, e⟩
/-- A selection over the longer sequence by the bucket of the query's own signature, whose line lists token 0. -/
def selecting : Cmd := cmd 0x20000 0x100 0x200 0x10040
def probing : Pkg :=
  let p := counting (countedAs 0 0 1 false) selecting
  { p with mem := p.mem.setCells [(dev 4 0, 1)] }
theorem probing_above : Above (countCells (countedAs 0 0 1 false) ++ [(dev 4 0, 1)]) probing ∧ Off (countCells (countedAs 0 0 1 false) ++ [(dev 4 0, 1)]) := by
  have r : 0x8000000 ≤ (countedAs 0 0 1 false).at_ ∧ (countedAs 0 0 1 false).at_ + 16 ≤ 2 ^ 32 := by decide +kernel
  have key : ∀ b ∈ countCells (countedAs 0 0 1 false) ++ [(dev 4 0, 1)], 0x20000 ≤ b.1 ∧ (b.1 < 2 ^ 32 ∨ 2 ^ 32 + 4096 ≤ b.1) := by
    intro b hb
    rcases List.mem_append.1 hb with hb | hb
    · have := countCells_range _ r b hb; omega
    · rw [List.mem_singleton.1 hb]; decide
  exact ⟨⟨setCells_append .., fun b hb => (key b hb).1, rfl, rfl,
    clear_mem (p := counting (countedAs 0 0 1 false) selecting) _ _ (counting_above _ selecting r).1.plain⟩, fun b hb => (key b hb).2⟩
def query : List Byte := [1, 0, 0, 0, 1, 0, 0, 0, 0, 0, 0, 0, 0, 0, 0, 0]
/-- A command's words of the scratchpad of core 0 do not depend on free values. -/
theorem localBytes_still {p : Pkg} {c : Cmd} (h : (p.k (coreOf (p.cmd c.id).cmd.ctx)).stale = []) (k : (p.c (p.cmd c.id).cmd.ctx).flight = []) (f a n : Nat) :
    localBytes { p with fresh := f } c a n = localBytes p c a n := by
  unfold localBytes
  apply List.map_congr_left
  intro i _
  exact congrArg (fun x : Lane => BitVec.ofNat 8 (x.toNat / _)) (engineWord_still h k f _ _)
theorem witness_AttentionCommands_probe (H : Obligations.AttentionCommands) :
    (∃ ws late, Ends (.ecxKvsel selecting) selecting { pkg := probing } 0 ws late fun _ => True) ∧
    field (bytesAt probing 0 0x40000 64) 0 4 = 1 ∧ field (bytesAt probing 0 0x40000 64) 8 4 = 256 * 0 + 0x100 % 256 := by
  have ⟨s, f, h1, h2, qs, clean⟩ : let x := countedAs 0 0 1 false
      let p := probing
      let es := iptBucket p 0 0x100 0 0
      (∀ e ∈ es, isDram e.at_ = true ∧ Eng.failedAt p e.at_ = none ∧ Eng.pendingAt p e.at_ = false ∧ p.badSector.get (e.at_ / 32) = false ∧
        (e.valid = true → e.reserved = 0)) ∧ es.find? (iptKey 0 0x100 0 0) = some x ∧
      (p.k (coreOf (p.cmd 1).cmd.ctx)).stale = [] ∧ (p.c (p.cmd 1).cmd.ctx).flight = [] ∧ localBytes p selecting 0x100 16 = query ∧ p.powerOf 0 = 0 := by decide +kernel
  have ⟨h, o⟩ := probing_above
  have line : bytesAt probing 0 0x40000 64 = 1 :: List.replicate 63 0 := by
    have e : bytesAt probing 0 0x40000 64 = (List.range 64).map fun i => probing.mem.get (dev 4 i) := by
      unfold bytesAt
      apply List.map_congr_left
      intro i hi
      rw [List.mem_range] at hi
      rw [h.place (by omega), show (0x40000 + i) / 4096 = 16 * 4 by omega, show (0x40000 + i) % 4096 = i by omega]
      rfl
    rw [e]
    decide +kernel
  refine ⟨?_, by rw [line]; decide, by rw [line]; decide⟩
  have only : ∀ e ∈ probing.allCmds, e = { cmd := selecting, phase := .started } := fun _ he => List.mem_singleton.1 he
  have hd : Described probing selecting longer.at_ longer := h.described o rfl rfl (by decide)
  have ⟨hh, hb⟩ := h.headed o (c := selecting) rfl rfl (q := longer) (by decide)
  have hb : bytesAt probing selecting.asid (longer.htab + 32 * (selecting.b.toNat % 64)) 32 = List.replicate 32 0 := hb
  have k := (H selecting { pkg := probing } rfl ⟨rfl, rfl, rfl, rfl, rfl, rfl, rfl, rfl, nofun⟩).2.2.2.2.2.1 longer query (fun _ => some (countedAs 0 0 1 false))
    (fun e he h1 => absurd (by rw [only e he]) h1) hd rfl (by decide) (by decide) (by decide) hh (by rw [hb]; decide)
    ⟨clean, fun _ => rfl⟩ (by decide +kernel) (by decide +kernel) (fun f => (localBytes_still h1 h2 f ..).trans qs) rfl rfl
    (fun tb ht beta hbeta => by
      have ht : tb = 0 := by have := show tb < 1 from ht; omega
      subst ht
      have : beta = 0 := List.mem_singleton.1 hbeta
      subst this
      exact ⟨h.serves rfl rfl (by decide), by show field (bytesAt probing 0 0x40000 64) 4 4 = 0; rw [line]; decide⟩)
    (fun blk hblk _ => by
      have : blk = 0 := by have := show blk < 1 from hblk; omega
      subst this
      exact ⟨s, f⟩)
    (.inl (by rw [hb]; decide)) (List.length_filterMap_le ..) (by
      refine Nat.le_trans (Nat.add_le_add_left (Nat.mul_le_mul_left 16 (List.length_filterMap_le ..)) _) ?_
      decide)
  exact ⟨_, _, k⟩
/-- An append of one token of zeros to the longer sequence, whose next block has page 100. -/
def appending : Cmd := cmd 0x20000 0x2000 1 0 [] f32to4
def next : Ipt := countedAs 1 100 1 false
def filing : Pkg := counting next appending
def state : Stencil := { valid := true, addr := 0x30000, bytes := [1, 0, 0, 0, 1, 0] }
def zeros : List Byte := List.replicate 512 0
/-- The bucket of the token in the table of a head, as the rules give it (R244, R245, R248). -/
def bucketOf (st : Stencil) (bs : List Byte) (h tb : Nat) : Nat :=
  let key := sourceElems appending.hdr.fa.toNat bs (2 * h * longer.dim) longer.dim
  let scale (ch : Nat) : Nat := blockScale 10 ((key.drop (32 * (ch / 32))).take 32)
  longer.bkbase + ((h * longer.t + tb) * 2 ^ longer.b + signature st.bytes tb ((List.range longer.dim).map fun ch =>
    scaled (scale ch) (elementValue 10 ((quantise 10 (scale ch) (modeFor appending.hdr (BitVec.ofNat 64 (natOf appending.local0)) (2 * h * longer.dim + ch))
      (key.getD ch .nan)).bits % 16))) / 2 ^ (16 - longer.b)) * 64
theorem bucketOf_zero : bucketOf state zeros 0 0 = 0x40000 := by decide +kernel
theorem next_range : 0x8000000 ≤ next.at_ ∧ next.at_ + 16 ≤ 2 ^ 32 := by decide +kernel
theorem filing_above : Above (countCells next) filing ∧ Off (countCells next) := counting_above next appending next_range
theorem filing_line {cells : List Host.Cell} {r : Pkg} (h : Above cells r) : placeOf r 0 0x40000 = 2 ^ 33 := by
  rw [h.place (by decide)]
  decide
theorem filing_bucket {r : Pkg} {cells : List Host.Cell} (hr : r.mem = filing.mem.setCells cells) (he : r.reg = filing.reg)
    (hc : ∀ b ∈ cells, b.1 < 0x650000 ∨ 2 ^ 33 ≤ b.1) : iptBucket r 0 0x100 1 0 = iptBucket filing 0 0x100 1 0 := by
  have hb : iptBase filing = 0x8000000 ∧ iptBuckets filing = 16 := by decide +kernel
  have hb' : iptBase r = 0x8000000 ∧ iptBuckets r = 16 := by
    refine ⟨?_, ?_⟩
    · rw [← hb.1]; simp only [iptBase, Pkg.regv, he]
    · rw [← hb.2]; unfold iptBuckets Pkg.regv; rw [he]
  unfold iptBucket
  rw [hb.1, hb.2, hb'.1, hb'.2]
  apply List.map_congr_left
  intro i hi
  rw [List.mem_range] at hi
  unfold iptAt
  rw [show r.mem.getMany _ 16 = filing.mem.getMany _ 16 from getMany_congr fun z h1 h2 => by
    rw [hr]
    refine Memory.get_setCells_of_not_mem _ _ _ fun b hb => ?_
    have := hc b hb
    omega]
theorem append_of (H : Obligations.AttentionCommands) (zeros : List Byte) (state : Stencil) (bucket : bucketOf state zeros 0 0 = 0x40000)
    (bs : localBytes filing appending 0x2000 512 = zeros) (st : stencilSlot filing (fun t => t.asid == 0 && t.addr == 0x30000 && field t.bytes 0 4 == 1 &&
      stT t.bytes == 1 && field t.bytes 5 1 == 0) = some state) :
    ∃ ws, Ends (.ecxKvapp appending) appending { pkg := filing } 0 ws [.dev none false (cellsAt (placeOf filing 0 0x20000) (bytesOf 8 65))] fun _ => True := by
  have ⟨k, b, s, f, h1, h2, clean⟩ : leafKind (pageLeaf filing 0 0x20000).entry ≠ 1 ∧ covered filing appending 0x20000 = false ∧
      (∀ e ∈ iptBucket filing 0 0x100 1 0, isDram e.at_ = true ∧ Eng.failedAt filing e.at_ = none ∧ Eng.pendingAt filing e.at_ = false ∧
        filing.badSector.get (e.at_ / 32) = false ∧ (e.valid = true → e.reserved = 0)) ∧ (iptBucket filing 0 0x100 1 0).find? (iptKey 0 0x100 1 0) = some next ∧
      (filing.k (coreOf (filing.cmd 1).cmd.ctx)).stale = [] ∧ (filing.c (filing.cmd 1).cmd.ctx).flight = [] ∧ filing.powerOf 0 = 0 := by decide +kernel
  have ⟨h, o⟩ := filing_above
  have only : ∀ e ∈ filing.allCmds, e = { cmd := appending, phase := .started } := fun _ he => List.mem_singleton.1 he
  have hd : Described filing appending longer.at_ longer := h.described o rfl rfl (by decide)
  have line : placeOf filing 0 (bucketOf state zeros 0 0) = 2 ^ 33 := by rw [bucket]; exact filing_line h
  have chain : bytesAt filing 0 (bucketOf state zeros 0 0) 64 = List.replicate 64 0 := by
    have e : bytesAt filing 0 0x40000 64 = (List.range 64).map fun i => filing.mem.get (dev 4 i) := by
      unfold bytesAt
      apply List.map_congr_left
      intro i hi
      rw [List.mem_range] at hi
      rw [h.place (by omega), show (0x40000 + i) / 4096 = 16 * 4 by omega, show (0x40000 + i) % 4096 = i by omega]
      rfl
    rw [bucket, e]
    decide +kernel
  have bad (z : Nat) : filing.badSector.get z = false := by rw [h.plain.2.2.2.2.2]; rfl
  have whole (z : Nat) : Eng.failedAt filing z = none := by simp [Eng.failedAt, h.plain.2.2.2.1]
  have mended (z : Nat) : Eng.pendingAt filing z = false := by simp [Eng.pendingAt, h.plain.2.2.2.2.1]
  have one {h : Nat} (hh : h < longer.nh) : h = 0 := by have := show h < 1 from hh; omega
  have tab {h : Nat} (hh : h < longer.t) : h = 0 := by have := show h < 1 from hh; omega
  have grp {h : Nat} (hh : h < longer.ng) : h = 0 := by have := show h < 1 from hh; omega
  have k := (H appending { pkg := filing } rfl ⟨rfl, rfl, rfl, rfl, rfl, rfl, rfl, rfl, nofun⟩).2.2.2.2.1 longer state (fun _ => next) zeros rfl (by decide) (by decide)
    ⟨fun e he h1 => absurd (by rw [only e he]) h1, fun e he _ => by rw [only e he]⟩ b k (by decide) (by decide) ⟨clean, fun _ => rfl⟩ (by decide +kernel)
    (fun f => (localBytes_still h1 h2 f ..).trans bs) st
    (fun g hg => by
      obtain rfl := grp hg
      refine ⟨by decide, rfl, fun g' hg' _ => grp hg', fun i hi => ⟨whole _, mended _, fun _ _ => bad _, fun h tb ht => .inr ?_⟩⟩
      obtain rfl := one ht.1
      obtain rfl := tab ht.2.1
      show _ ≤ placeOf filing 0 (bucketOf state zeros 0 0)
      rw [line]
      show dramDpa (100 / 1480) (16 * (100 % 1480) + i) 0 + 4096 ≤ 2 ^ 33
      simp only [dramDpa]
      omega)
    (fun h tb ht => by
      obtain rfl := one ht.1
      obtain rfl := tab ht.2.1
      refine ⟨?_, ?_, .inl ?_, fun h' tb' ht' => .inl ⟨one ht'.1, tab ht'.2.1⟩⟩
      · show field (bytesAt filing 0 (bucketOf state zeros 0 0) 64) 4 4 = 0
        rw [chain]; decide
      · show field (bytesAt filing 0 (bucketOf state zeros 0 0) 64) 0 4 < 14
        rw [chain]; decide
      · show field (bytesAt filing 0 (bucketOf state zeros 0 0) 64) 0 4 = 0
        rw [chain]; decide)
    (fun cells sd hc => by
      have hc : ∀ b ∈ cells, 0x640000 ≤ b.1 ∧ b.1 < 0x650000 ∨ 2 ^ 33 ≤ b.1 := by
        intro b hb
        rcases hc b hb with ⟨g, hg, i, hi, l, u⟩ | ⟨h', tb, ht, l, _⟩
        · obtain rfl := grp hg
          have l : dramDpa (100 / 1480) (16 * (100 % 1480) + i) 0 ≤ b.1 := l
          have u : b.1 < dramDpa (100 / 1480) (16 * (100 % 1480) + i) 0 + 4096 := u
          simp only [dramDpa] at l u
          omega
        · obtain rfl := one ht.1
          obtain rfl := tab ht.2.1
          have l : placeOf filing 0 (bucketOf state zeros 0 0) ≤ b.1 := l
          rw [line] at l
          exact .inr l
      intro r
      have hr : r.mem = filing.mem.setCells cells := rfl
      have above : Above (countCells next ++ cells) r := by
        refine ⟨setCells_append .., fun b hb => ?_, rfl, rfl, clear_mem (p := filing) _ _ h.plain⟩
        rcases List.mem_append.1 hb with hb | hb
        · exact h.above b hb
        · have := hc b hb; omega
      have off : Off (countCells next ++ cells) := by
        intro b hb
        rcases List.mem_append.1 hb with hb | hb
        · exact o b hb
        · have := hc b hb; omega
      have same := filing_bucket (r := r) hr rfl (fun b hb => by have := hc b hb; omega)
      have ⟨hh, hb⟩ := above.headed off (c := appending) rfl rfl (q := longer) (by decide)
      have ⟨_, hb'⟩ := h.headed o (c := appending) rfl rfl (q := longer) (by decide)
      refine ⟨above.described off rfl rfl (q := longer) (by decide), fun h' hh' => ?_, fun g hg => ?_, fun h' tb ht => ?_⟩
      · obtain rfl := one hh'
        exact ⟨hh, hb.trans hb'.symm⟩
      · obtain rfl := grp hg
        refine ⟨⟨?_, ?_⟩, ?_⟩
        · show SoundIpt r (iptBucket r 0 0x100 1 0)
          rw [same]
          intro e he
          have := s e he
          exact ⟨this.1, by simp [Eng.failedAt, above.plain.2.2.2.1], by simp [Eng.pendingAt, above.plain.2.2.2.2.1],
            by rw [above.plain.2.2.2.2.2]; rfl, this.2.2.2.2⟩
        · show (iptBucket r 0 0x100 1 0).find? (iptKey 0 0x100 1 0) = some next
          rw [same]
          exact f
        · show kvAddress r 0 longer 100 = none
          unfold kvAddress
          rw [show List.range longer.kvpages = [0] from rfl, List.find?_cons, show Machine.walk r 0 (longer.kvbase + 65536 * 0) = .leaf (leafOf 0) from above.walk]
          have := leaf_facts.1
          simp [this]
      · obtain rfl := one ht.1
        obtain rfl := tab ht.2.1
        refine ⟨?_, ?_⟩
        · show Serves r appending (bucketOf state zeros 0 0) 64
          rw [bucket]
          exact above.serves rfl rfl (by decide)
        · show placeOf r 0 (bucketOf state zeros 0 0) = placeOf filing 0 (bucketOf state zeros 0 0)
          rw [line, bucket]
          exact filing_line above)
  obtain ⟨ws, _, _, e, _⟩ := k
  exact ⟨ws, e⟩
theorem witness_AttentionCommands_append (H : Obligations.AttentionCommands) :
    ∃ ws, Ends (.ecxKvapp appending) appending { pkg := filing } 0 ws [.dev none false (cellsAt (placeOf filing 0 0x20000) (bytesOf 8 65))] fun _ => True :=
  append_of H zeros state bucketOf_zero (by decide +kernel) (by decide +kernel)
theorem witness_AttentionCommands_query (f : Nat) :
    let s := calmly (cmd 0x20000 0x100 0x200 0x10000)
    localBytes { s.pkg with fresh := f } (cmd 0x20000 0x100 0x200 0x10000) 0x100 16 = localBytes s.pkg (cmd 0x20000 0x100 0x200 0x10000) 0x100 16 := by
  intro s
  have h : (s.pkg.k (coreOf (s.pkg.cmd 1).cmd.ctx)).stale = [] := by decide +kernel
  have k : (s.pkg.c (s.pkg.cmd 1).cmd.ctx).flight = [] := by decide +kernel
  unfold localBytes
  apply List.map_congr_left
  intro i _
  exact congrArg (fun x : Lane => BitVec.ofNat 8 (x.toNat / _)) (engineWord_still h k f _ _)
/-- A swap of the one tile of group 1. -/
theorem witness_ArrayCommands_swap :
    let c := cmd 0 0 0 1
    (match rectOf c 1 true ⟨(ready c).env, c⟩ { p := (ready c).pkg } with
     | .ok rc _ => decide (rc.tiles = [0] ∧ ∀ i ∈ rc.tiles, ((ready c).pkg.tiles.get i).owner = none)
     | .error _ _ => false) = true ∧ fillsUnderWay (ready c).pkg = [] := by decide +kernel
/-- A program of one word, at the last word of the scratchpad; the channel in the mode for ASID 0, and in normal mode. -/
theorem witness_ChannelCommands :
    let c := { cmd 0x7FFFFC 0 1 0 [0, 0, 0, 0xB8] with asid := 1 }
    let p := (ready c).pkg
    Eng.linear 0x7FFFFC 4 4 = true ∧ Eng.linear 0x7FFFFC 8 4 = false ∧ (localWords c).all trowelOk = true ∧
    loopsOk (localWords c) = true ∧ (p.cmd 1).badRecord = false ∧ (p.chans.get 0).mode = some 1 ∧ (p.chans.get 0).holder = none ∧
    (∀ e ∈ p.allCmds, ownerOf e.cmd = ownerOf c → c.id ≤ e.cmd.id) ∧ (p.cmd 1).phase ≠ .waiting ∧
    (NMap.get { p with chans := [] }.chans 0).mode = none ∧ (1 : Word).getLsbD 0 = true ∧ (2 : Word).getLsbD 0 = false := by decide +kernel
theorem witness_FencesAndBindings_binds :
    let s := ready (cmd 0x70000 64 8 0)
    let live := s.pkg.binds.filter fun b => b.asid == 0
    s.pkg.present 1 = true ∧ 0x70000 % 64 = 0 ∧
    (∃ b ∈ live, rangesMeet (0x70000, 64) (b.base, b.len) = true) ∧
    ((∀ b ∈ live, rangesMeet (0x70040, 64) (b.base, b.len) = false) ∧ (∀ b ∈ live, rangesMeet (0x6FFC0, 64) (b.base, b.len) = false)) ∧
    live.length < 4096 ∧ (∃ b ∈ s.pkg.binds, b.asid = 0 ∧ b.base = 0x70000 ∧ b.len = 64) ∧
    (∀ b ∈ s.pkg.binds, ¬(b.asid = 0 ∧ b.base = 0x70000 ∧ b.len = 128)) := by decide +kernel

/-- Node 1 with two parts on core 0, both members of group 1; the arrivals as given. -/
def episode (as : List Arrival) (ended : List Nat := []) : State :=
  let n : Node := { id := 1, phase := .running, resident := true, cores := 1, nparts := 2, ended := ended }
  let m (id : Nat) : Command := { cmd := { id := id, ctx := id, d := 0x7FFFFC }, phase := .arrived, unit := 12, op := 12 }
  let x (id : Nat) : Ctx := { tokens := [(0, { state := .outstanding, cmd := id })] }
  { pkg := { ctx := [(1, x 1), (2, x 2)], nodes := [(1, n)], groups := [(1, num 0 19 (1 + 2 ^ 144) |>.map (·.2))], arrivals := as, cmds := [(1, m 1), (2, m 2)] } }
/-- An arrival of a part of node 1 at group 1: at a barrier with a status of its own, or with a collective of one element. -/
def arrival (part : Nat) (own : Nat := 0) : Arrival :=
  { node := 1, group := 1, number := 1, part := part, lcore := 0, cmd := some (part + 1), own := own }
def collective (part : Nat) (op : Nat := 0) (type : Nat := 0) (count : Nat := 1) (root : Nat := 0) : Arrival :=
  { arrival part with coll := true, op := op, type := type, count := count, root := root, data := [0x3F800000] }
/-- A collective of one element at the last word. -/
theorem witness_EpisodesComplete_collective :
    let c := cmd 0x7FFFFC 0x200 1 0x2401
    (((ready c).pkg.node c.node).resident = true ∧ c.b.toNat % 256 ∈ c.groups) ∧ bits c.b.toNat 11 8 = 4 ∧ bits c.b.toNat 15 12 = 2 ∧
    Eng.linear 0x7FFFFC 4 4 = true ∧ Eng.linear 0x200 4 4 = true ∧ Clean (ready c).pkg 0 :=
  ⟨by decide +kernel, by decide, by decide, by decide +kernel, by decide +kernel, by decide +kernel, witness_CopyCommands_clean⟩
/-- An episode's arrivals, in order, can complete. -/
def complete (as : List Arrival) (ended : List Nat := []) : Bool :=
  let p := (episode as ended).pkg
  let die (a : Arrival) : Nat := dieOf ((p.pcoreOf a.lcore).getD 0)
  let cmdOf (a : Arrival) : Command := p.cmd (a.cmd.getD 0)
  decide (p.live 1 = true ∧ (p.node 1).gang = false) &&
  decide (as.Perm (p.arrivals.filter fun a => a.node == 1 && a.group == 1 && a.number == 1 && a.cmd.isSome)) &&
  decide (as.Pairwise fun a b => die a < die b ∨ (die a = die b ∧ (a.lcore < b.lcore ∨ (a.lcore = b.lcore ∧ a.part < b.part)))) &&
  (as.all fun a => decide (a.pkg = p.number ∧ a.own ≠ 0x13 ∧ p.present (a.cmd.getD 0) = true ∧ (cmdOf a).cmd.id = a.cmd.getD 0 ∧
    (cmdOf a).phase = .arrived ∧ (cmdOf a).late = [] ∧ (cmdOf a).away = [] ∧ p.powerOf (coreOf (cmdOf a).cmd.ctx) = 0) &&
    decide (((p.c (cmdOf a).cmd.ctx).tokens.get (cmdOf a).cmd.tok).cmd = a.cmd.getD 0 ∧ (cmdOf a).unit = 12 ∧
      (a.own = 0 → a.coll = true → a.op ≤ 4 ∧ Eng.linear (cmdOf a).cmd.d.toNat (4 * a.count) 4 = true))) &&
  decide ((as.map (·.cmd)).Nodup ∧ ¬∃ i ∈ memberParts p 1 1, (∀ a ∈ as, a.part ≠ i) ∧ i ∉ (p.node 1).ended)
/-- A member part has not arrived; an arrival has a status of its own; the arrivals disagree. -/
def missing (as : List Arrival) (ended : List Nat := []) : Bool := decide (∃ i ∈ memberParts (episode as ended).pkg 1 1, ∀ a ∈ as, a.part ≠ i)
def faulty (as : List Arrival) : Bool := decide (∃ a ∈ as, a.own ≠ 0)
def differ (ms : List Arrival) : Bool := decide ((∃ a ∈ ms, ∃ b ∈ ms, a.coll ≠ b.coll ∨ (a.coll = true ∧ b.coll = true ∧
    (a.count ≠ b.count ∨ a.op ≠ b.op ∨ a.type ≠ b.type ∨ (a.op = 4 ∧ a.root ≠ b.root)))) ∨ ∃ a ∈ ms, a.coll = true ∧ a.op = 4 ∧ ∀ b ∈ ms, b.part ≠ a.root)
theorem witness_EpisodesComplete_arrivals :
    ((ready (cmd 0 0 0 1)).pkg.node 1).resident = true ∧ 1 ∈ (cmd 0 0 0 1).groups ∧ 255 ∉ (cmd 0 0 0 1).groups ∧
      ((ready { cmd 0 0 0 1 with node := 2 }).pkg.node 2).resident = false ∧ ((ready (cmd 0 0 0 1)).pkg.cmd 1).phase ≠ .arrived := by decide +kernel
/-- One part still to come; one that ended without arriving; one with a status of its own. -/
theorem witness_EpisodesComplete_missing :
    (let p := (episode [arrival 0]).pkg
     p.live 1 = true ∧ ∃ i ∈ memberParts p 1 1, (∀ a ∈ [arrival 0], a.part ≠ i) ∧ i ∉ (p.node 1).ended) ∧
    (complete [arrival 0] [1] && missing [arrival 0] [1]) = true ∧ (complete [arrival 0, arrival 1 2] && faulty [arrival 0, arrival 1 2]) = true := by
  decide +kernel
theorem witness_EpisodesComplete_differ : ∀ as ∈ [[collective 0, arrival 1], [collective 0, collective 1 0 0 0], [collective 0, collective 1 1],
    [collective 0, collective 1 0 1], [collective 0 4 0 1 0, collective 1 4 0 1 1], [collective 0 4 0 1 2, collective 1 4 0 1 2]],
    (complete as && !missing as && !faulty as && differ as) = true := by decide +kernel
theorem witness_EpisodesComplete_agree : ∀ as ∈ [[arrival 0, arrival 1], [collective 0, collective 1], [collective 0 1 1, collective 1 1 1],
    [collective 0 2 2, collective 1 2 2], [collective 0 3, collective 1 3], [collective 0 4 0 1 1, collective 1 4 0 1 1]],
    (complete as && !missing as && !faulty as && !differ as) = true := by decide +kernel

/-- A notice from context 0 to core 1, refused as given; core 1's next ring slot full or not. -/
def offering (refused : Option Nat) (full : Bool) (clock : Nat) : State :=
  let m : Notice := { id := 7, sender := 0, core := 1, cmd := 1, refusedAt := refused }
  let k : Core := { tags := if full then [(0x7FFF00 / 4, true)] else [] }
  { env := { clock := clock }, pkg := { notices := [m], core := [(1, k)], reg := [(0x01000018, 256)] } }
theorem witness_KicksAreDelivered :
    (let c := cmd 0 0x7FFFFC 4 0
     let p := (ready c).pkg
     p.present 1 = true ∧ bits c.a.toNat 13 8 = p.number ∧ (p.node c.node).cores.testBit (c.a.toNat % 128) = true ∧ p.pcoreOf 0 = some 0 ∧
     c.c.toNat % 4 = 0 ∧ Eng.localOk 0x7FFFFC 4 = true) ∧
    (let p := (offering none false 0).pkg
     ∃ m, p.notices.find? (fun n => n.id == 7) = some m ∧ m.accepted = false ∧ m.sent = false ∧ m.sender / 512 = p.number ∧
       m.pkg = p.number ∧ m.refusedAt = none ∧ waitsBehind p m = false ∧ ringRoom p m.core = true) ∧
    (let p := (offering (some 0) true 256).pkg
     ringRoom (offering none true 0).pkg 1 = false ∧ ∃ m, p.notices.find? (fun n => n.id == 7) = some m ∧ m.refusedAt = some 0 ∧ ringRoom p m.core = false ∧
       0 + backoff p (coreOf (m.sender % 512)) ≤ (offering (some 0) true 256).env.clock ∧
       (offering (some 0) true 255).env.clock < 0 + backoff p (coreOf (m.sender % 512))) := by
  refine ⟨by decide +kernel, ⟨_, rfl, rfl, rfl, rfl, rfl, rfl, by decide +kernel, by decide +kernel⟩,
    ⟨by decide +kernel, _, rfl, rfl, by decide +kernel, by decide +kernel, by decide +kernel⟩⟩

/-- Command 1 as given. -/
def only (m : Command) : State := { env := { dtime := 5 }, pkg := { cmds := [(1, m)] } }
theorem witness_CommandsGoOn :
    let c : Cmd := { id := 1, c := 5, uses := [2] }
    let ok (m : Command) : Prop := (only m).pkg.present 1 = true ∧ (only m).pkg.cmd 1 = m ∧ ∀ h ∈ (only m).pkg.held, h.cmd ≠ some 1
    (ok { cmd := c } ∧ ((only { cmd := c }).pkg.c 0).queueFrozen = false ∧ ((only { cmd := c }).pkg.cmd 1).accepted = true ∧
      ∀ n ∈ c.uses, (only { cmd := c }).pkg.present n = false) ∧
    (let p := (command c .queued [(2, { cmd := { id := 2 }, phase := .started })]).pkg
     p.present 1 = true ∧ (p.cmd 1).phase = .queued ∧ ∃ n ∈ (p.cmd 1).cmd.uses, p.present n = true ∧ earlySatisfied p (p.cmd 1) n = false) ∧
    (ok { cmd := c, phase := .waiting } ∧ ((only { cmd := c, phase := .waiting }).pkg.cmd 1).again = false) ∧
    ok { cmd := c, phase := .waiting, unit := 13, op := 1 } ∧ ok { cmd := c, phase := .waiting, unit := 13, op := 4 } ∧
    (ok { cmd := c, phase := .waiting, unit := 12, op := 8, progress := 1 } ∧ c.c ≠ 0 ∧ c.c.toNat ≤ (only { cmd := c }).env.dtime) := by decide +kernel
/-- A write of every kind, the address 0x10000 in an output region that has a stage page. -/
def kinds : List PWrite :=
  [.dev none false [(0x8000, 1)], .staged {} [(0x10000, 2)], .side none none [(5, 3)], .side (some 0x10000) (some {}) [(0, 4)], .spad 0 [(8, 1)] [2],
   .code 0 [(64, 1)] [16], .cbt 7 9, .accBytes 0 [(4, 1)], .acc 0 1 [(192, 5)] [], .acc 0 0 [] [3], .amo 0x8000 none false 0x8008 0 0 1,
   .amo 0x10000 (some {}) false 0x10008 0 0 1]
/-- A started command with those writes, one for the end and a stamp. -/
def writing : State :=
  let m : Command := { cmd := { id := 1, tok := 63, node := 1 }, phase := .started, unit := 13, op := 1, writes := kinds,
                       late := [.dev none false [(0x9000, 1)]], stamp := some (.spad 0 [(256, 0)] [64]) }
  let c : Ctx := { tokens := [(63, { state := .outstanding, cmd := 1 })] }
  let n : Node := { id := 1, restart := true, outputs := [(0x10000, 65536)], stage := [(0x10000, 3)] }
  { pkg := { cmds := [(1, m)], ctx := [(0, c)], nodes := [(1, n)] } }
theorem witness_TokensComplete_sound : ∀ w ∈ kinds ++ [.dev none false [(0x9000, 1)], .spad 0 [(256, 0)] [64]], Sound writing.pkg 1 w := by
  intro w hw
  have only : ∀ e ∈ writing.pkg.allCmds, e.cmd.id = 1 := by decide +kernel
  have staged : ∀ w ∈ kinds ++ [.dev none false [(0x9000, 1)], .spad 0 [(256, 0)] [64]],
      (writeStage w).all fun va => (Eng.stageOf writing.pkg (writing.pkg.cmd 1).cmd.node va).isSome := by decide +kernel
  have here : ∀ w ∈ kinds ++ [.dev none false [(0x9000, 1)], .spad 0 [(256, 0)] [64]], (match w with | .remote _ _ _ => false | _ => true) = true := by decide
  exact { planes := fun _ _ => ⟨by simp [Eng.failedAt, writing], by simp [Eng.pendingAt, writing]⟩, core := fun n _ => by simp [Pkg.powerOf, Pkg.regv, writing]; rfl, adds := fun _ _ _ _ _ _ _ _ => rfl
          here := fun k n cells e => by subst e; exact absurd (here _ hw) (by simp)
          staged := fun va hv => by have := staged w hw; rw [hv] at this; exact this
          only := fun _ e he h => absurd (only e he) h }
theorem witness_TokensComplete :
    let p := writing.pkg
    let m := p.cmd 1
    p.present 1 = true ∧ m.phase = .started ∧ (∀ h ∈ p.held, h.cmd ≠ some 1) ∧ m.again = false ∧ m.away = [] ∧ m.spoiled = [] ∧ m.unit ≠ 12 ∧
    ((p.c m.cmd.ctx).tokens.get m.cmd.tok).cmd = 1 ∧ m.writes ++ m.late ++ m.stamp.toList = kinds ++ [.dev none false [(0x9000, 1)], .spad 0 [(256, 0)] [64]] ∧
    (∀ w ∈ m.writes, inTurn m w = true) ∧
    (m.writes.map fun w => match w with | .acc _ _ words lines => (words.length, lines.length) | _ => (0, 0)) =
      [(0, 0), (0, 0), (0, 0), (0, 0), (0, 0), (0, 0), (0, 0), (0, 0), (1, 0), (0, 1), (0, 0), (0, 0)] := by decide +kernel
/-- Context 0 with one accepted sys operation; context 4, of core 1, as given. -/
def accepted (o : SysOp) (y : Ctx) : State :=
  let c : Ctx := { phase := .running, sysq := [o] }
  { pkg := { ctx := [(0, c), (4, y)] } }
theorem witness_SysRecords :
    let o (op : Nat) (a : Word) (done : Bool) : SysOp := { op := op, a := a, d := 0, c := 0, b := 0, done := done, value := 7, status := 5 }
    let s (op : Nat) (a : Word) (done : Bool) (y : Ctx) : Pkg := (accepted (o op a done) y).pkg
    (((s 3 0x18 true {}).c 0).sysq = [o 3 0x18 true] ∧ (s 3 0x18 true {}).powerOf (coreOf 0) = 0) ∧ (o 3 0x18 true).done = true ∧
    ((o 3 0x18 false).done = false ∧ (regRead 0x18 (s 3 0x18 false {})).isSome = true ∧ regRead 0x28 (s 3 0x28 false {}) = none) ∧
    ((o 7 1 false).b.toNat % 2 = 0 ∧ sysTarget (s 7 1 false {}) 0 1 = some 4 ∧ ((s 7 1 false { phase := .ready }).c 4).phase = .ready ∧
      ((s 7 1 false { phase := .blocked }).c 4).phase = .blocked) := by decide +kernel

/-- Node 1 runs with a part queued on core 0; its image, at address 0x40000, has one section of eight bytes. -/
def loading (images : List Resident) (resident : Bool) (version : Nat := 1) : State :=
  let n : Node := { id := 1, phase := .running, image := 0x40000, cores := 1, nparts := 1, resident := resident }
  let k : Core := { queue := [{ node := 1, part := 0 }], images := images }
  { pkg := { nodes := [(1, n)], core := [(0, k)], mem := memory.setCells (num (dev 4 0) 2 version ++ num (dev 4 2) 2 1 ++ num (dev 4 4) 4 0x1000 ++
      num (dev 4 16) 4 64 ++ num (dev 4 20) 4 0x1000 ++ num (dev 4 24) 4 8 ++ num (dev 4 64) 8 0x1122334455667788) } }
/-- Launch enabled; queue 3 with the head and tail given, and room in its completion ring. -/
def launching (enable ctl head tail : Word) : State :=
  { pkg := { reg := [(0x03000010, enable), (queueReg 3 8, ctl), (queueReg 3 0x10, tail), (queueReg 3 0x18, head), (queueReg 3 0x30, head)] } }
theorem witness_QueuesAndHints_records :
    let p := (launching 1 1 0xFFFFFFFF 0).pkg
    bits ((launching 0 1 0 1).pkg.regv 0x03000010) 0 0 = 0 ∧
    (p.taking = [] ∧ bits (p.regv 0x03000010) 0 0 = 1 ∧ frozenDispatch p = false ∧ p.nodes.length < 4096) ∧
    (queueOrder (launching 1 1 5 5).pkg.lastQueue).find? (canTake (launching 1 1 5 5).pkg) = none ∧
    (queueOrder p.lastQueue).find? (canTake p) = some 3 ∧
    (∀ i < 16, p.badSector.get (launchSlot (p.queue 3) (p.queue 3).head / 32 + i) = false) ∧
    refuseReason p 1 (List.replicate 512 0) = some 1 := by decide +kernel
/-- The ring of queue 3 at page 6 with one record: one part on core 0, no region, the image of `loading`. -/
def posted : Pkg :=
  { (loading [] false).pkg with
    mem := (loading [] false).pkg.mem.setCells (num (dev 6 0) 8 (0x0001000000000001) ++ num (dev 6 8) 8 0x40000 ++ num (dev 6 32) 1 1),
    reg := [(0x03000010, 0x4801), (queueReg 3 0, BitVec.ofNat 64 (dev 6 0)), (queueReg 3 8, 1), (queueReg 3 0x10, 1)] }
theorem witness_QueuesAndHints_accepted :
    let u : TakenRec := { queue := 3, id := nodeIdOf 3 0, order := 0, fw := false, time := 0, bytes := posted.mem.getMany (dev 6 0) 512 }
    (queueOrder posted.lastQueue).find? (canTake posted) = some 3 ∧ launchSlot (posted.queue 3) (posted.queue 3).head = dev 6 0 ∧
    u.id ≠ 0 ∧ refuseReason posted u.id u.bytes = none ∧
    (match unitRead {} (takenNode u).asid u.id 300 (checkImage (takenNode u)) (markRegions 0 (takenNode u) posted) with
     | .ok r _ => r.2.length | _ => 0) = 1 := by decide +kernel

/-- Node 1 as given; edge ports dead as given; in sync or not. -/
def withNode (n : Node) (dead : List Nat) (sync : Word) : State :=
  { env := { dtime := 1000000 }, pkg := { nodes := [(1, n)], deadPorts := dead, reg := [(0x07000018, sync)] } }
theorem witness_NodesStart :
    let p (n : Node) : Pkg := (withNode n [] 1).pkg
    let gang : Node := { id := 1, gang := true, pkgs := 3 }
    ((p { id := 1 }).live 1 = true ∧ ((p { id := 1 }).node 1).phase = .waiting ∧ frozenDispatch (p { id := 1 }) = false ∧
      ((p { id := 1 }).node 1).gang = false) ∧
    (predSatisfied (p { id := 1, preds := [2] }) 2 = false ∧ 2 ∉ ({ id := 1, preds := [2] } : Node).met) ∧
    (2 ∈ ({ id := 1, preds := [2], met := [2] } : Node).met ∧ predSatisfied (p { id := 1, preds := [0] }) 0 = true) ∧
    (inSync (p gang) = true ∧ (∀ k ∈ gangOthers (p gang) gang, edgeLives (p gang) k = true) ∧ gangOthers (p gang) gang = [1]) ∧
    inSync (withNode gang [] 0).pkg = false ∧
    (((withNode gang [0, 1, 2, 3] 1).pkg).live 1 = true ∧ ∃ k ∈ gangOthers (withNode gang [0, 1, 2, 3] 1).pkg gang,
      edgeLives (withNode gang [0, 1, 2, 3] 1).pkg k = false) ∧ (∀ e ∈ (p gang).early, e.1 ≠ 1) ∧
    ((p gang).node 1).proposals = [] ∧ ((p { gang with phase := .running }).node 1).phase = .running ∧
    ((p gang).live 2 = false ∧ takenCount (p gang) (2 / 2 ^ 48) < postingOf 2) ∧
    (0 + gangTimeout (p { gang with phase := .agreeing, proposedAt := some 0 }) ≤ (withNode gang [] 1).env.dtime ∧
      (withNode gang [] 1).env.dtime < 1000000 + gangTimeout (p { gang with phase := .agreeing, proposedAt := some 1000000 })) ∧
    (let q : Pkg := { (p gang) with failed := [{ tile := 0, plane := 0, group := 1 }] }
     (Eng.failedAt q (completionSlot q 0)).isSome ∧ (Eng.failedAt (p gang) (completionSlot (p gang) 0)).isSome = false ∧ (p gang).owed = []) ∧
    ((p { gang with phase := .agreeing, agreed := some 1000000 }).node 1).agreed = some 1000000 ∧
    (gang.pkgs.testBit 1 = true ∧ 1 ≠ (p gang).number) := by decide +kernel

theorem witness_ImagesLoad :
    let s := loading [] false
    let read (s : State) : Option (Nat × Bool) := match unitRead s.env 0 1 0 (loadWork (s.pkg.node 1)) s.pkg with
      | .ok r _ => some (r.2.2.1.length, footprintFree s.pkg 0 1 r.2.1)
      | _ => none
    0 < 72 ∧ s.pkg.live 1 = true ∧ (s.pkg.node 1).phase = .running ∧ (∃ e ∈ (s.pkg.k 0).queue, e.node = 1) ∧ isResident (s.pkg.k 0) 1 = false ∧
    imageWanted s.pkg 0 1 = true ∧ s.pkg.powerOf 0 = 0 ∧ nodeHeld s.pkg 1 0 = false ∧
    read s = some (8, true) ∧ read (loading [{ node := 2, foot := [(0x1007, 1)] }] false) = some (8, false) ∧
    read (loading [] false 2) = none ∧
    (match unitRead (loading [] false 2).env 0 1 0 (loadWork ((loading [] false 2).pkg.node 1)) (loading [] false 2).pkg with
     | .fail _ => true | _ => false) = true := by decide +kernel
theorem witness_PartsAreBound :
    let first (p : Pkg) : Option (Nat × Nat) := firstPart p (((p.k (coreOf 0)).queue.map fun e => (e.node, e.part)).filter (eligible p (coreOf 0)))
    let p := (loading [{ node := 1, entry := 0x1000, tvec := 0x2000 }] false).pkg
    let q := (loading [{ node := 1 }] true).pkg
    (0 ∈ freeCtxs p (coreOf 0) ∧ first p = some (1, 0) ∧ (p.node 1).resident = false ∧ isResident (p.k (coreOf 0)) 1 = true) ∧
    (0 ∈ freeCtxs q (coreOf 0) ∧ first q = some (1, 0) ∧ (q.node 1).resident = true ∧ bindsWhole q 1 = true) ∧
    (let q := (loading [] true).pkg
     0 ∈ freeCtxs q (coreOf 0) ∧ first q = some (1, 0) ∧ (q.node 1).resident = true ∧ bindsWhole q 1 = false) ∧
    (p.k (coreOf 0)).images.find? (fun j => j.node == 1) = some { node := 1, entry := 0x1000, tvec := 0x2000 } ∧
    (0x2000 < 2 ^ 32 ∧ 0x2000 % 32 = 0) := by decide +kernel
theorem witness_NodesEnd :
    let c : Ctx := { phase := .draining, node := some 1 }
    let p (n : Node) : Pkg := { ctx := [(0, c)], nodes := [(1, n)] }
    (((p { id := 1 }).c 0).phase = .draining ∧ (p { id := 1 }).cmdsOf 0 = [] ∧ ((p { id := 1 }).c 0).sysq = [] ∧ ((p { id := 1 }).c 0).node = some 1) ∧
    ((p { id := 1, phase := .committing }).live 1 = true ∧ nodeHeld (p { id := 1, phase := .committing }) 1 301 = false) ∧
    (({ id := 1, phase := .committing, unseen := some 5 } : Node).unseen.isSome = true) ∧
    (({ id := 1, phase := .committing } : Node).unseen = none ∧ ({ id := 1, phase := .committing } : Node).stage = []) ∧
    ((p { id := 1, phase := .ending }).live 1 = true ∧
      Eng.failedAt (p { id := 1, phase := .ending }) (completionSlot (p { id := 1, phase := .ending }) (1 / 2 ^ 48)) = none ∧
      (p { id := 1, phase := .ending }).owed = []) := by decide +kernel
theorem witness_QueuesAndHints :
    (let c : Ctx := { phase := .running, node := some 1 }
     let k : Core := { queue := [{ node := 2, part := 0 }] }
     let p : Pkg := { ctx := [(0, c)], core := [(0, k)], nodes := [(1, { id := 1 }), (2, { id := 2, priority := 1 })], reg := [(0x03000038, 9)] }
     hintPart { clock := 9 } p 0 = some { node := 2, part := 0 }) ∧
    (let p := (launching 1 1 0xFFFFFFFF 0xFFFFFFFF).pkg
     3 < 1024 ∧ since 15 (p.queue 3).head ≤ (p.queue 3).size ∧ (p.queue 3).size < since 16 (p.queue 3).head ∧ (p.queue 4).enable = false) ∧
    (let p (q : List HostReq) : Pkg := { reg := [(0x07000000, 2)], hostq := q }
     (p []).hostUp = true ∧ ((p []).queue 3).fn = 0 ∧ ((p []).queue 3).fn ≠ 63 ∧ (∀ r ∈ (p [.read [] []]).hostq, HostReq.posted r = false) ∧
      (∃ r ∈ (p [.write [] []]).hostq, HostReq.posted r = true)) ∧ ({} : Pkg).hostUp = false := by decide +kernel
theorem witness_RegistersWrite :
    let p := State.reset.pkg
    hasReg 0x1C = false ∧ (hasReg 0x18 = true ∧ writeRow 0x18 700 p = .registerWrite 0x18 700) ∧
    (hasReg 0x10 = true ∧ writeRow 0x10 0xA5C3 p = .pkgResetWrite 0xA5C3) ∧
    (writeRow 0x04000048 5 p = .registerWrite 0x04000048 5 ∧ frozenDispatch { reg := [(0x04000040, 1)] } = true ∧ frozenDispatch p = false) ∧
    (hasReg 0x04000068 = true ∧ writeRow 0x04000068 0 p = .repairResolveRemap 0) := by decide +kernel

/-- A package with a record, an event and a ring of each kind on, tails and heads as given. -/
def rings (kind : Nat) (on tail : Word) : Pkg :=
  { faultq := [{ source := 5, kind := kind }], logq := [⟨0, 1, 0, 0⟩],
    reg := [(0x04000008, on), (0x04000010, tail), (0x04000028, on), (0x04000030, tail)] }
theorem witness_FaultRegisters :
    (rings 3 1 0).faultq.find? (fun r => r.source == 5) = some { source := 5, kind := 3 } ∧ faultRoom (rings 3 1 63) = true ∧
    Eng.failedAt (rings 3 1 63) (faultSlot (rings 3 1 63)) = none ∧ Eng.failedAt (rings 3 1 63) (eventSlot (rings 3 1 63)) = none ∧
    (faultRoom (rings 8 1 64) = false ∧ 8 ∈ [1, 2, 6, 8]) ∧ (faultRoom (rings 3 0 0) = false ∧ 3 ∉ [1, 2, 6, 8]) ∧
    ((rings 3 1 63).logq = ⟨0, 1, 0, 0⟩ :: [] ∧ ringOn (rings 3 1 63) true = true ∧ ringFree (rings 3 1 63) true = true) ∧
    ringFree (rings 3 1 64) true = false ∧ 1 < 2 ∧ (1 % 2 = 1 ∧ ringOn (rings 3 0 0) false = false ∧ ringOn (rings 3 0 0) true = false) := by
  decide +kernel
/-- CORE_MAP as firmware writes it where no row is harvested. -/
def coreMap : NMap Word := (List.range 9).map fun k => (0x03000040 + 8 * k, BitVec.ofNat 64 (digits 8 ((List.range 8).map fun i => 8 * k + i)))
theorem witness_LaunchAndAbort :
    let p : Pkg := { reg := coreMap }
    let q : Pkg := { nodes := [(1, { id := 1 })] }
    ((1 + 256 * 72) % 2 = 1 ∧ bits (p.regv 0x03000010) 0 0 = 0 ∧ mapOk p (1 + 256 * 72) = true ∧ p.broken = false) ∧ mapOk p (1 + 256 * 71) = false ∧
    (frozenDispatch q = false ∧ q.live (1 % 2 ^ 58) = true ∧ (q.node 1).fail = none ∧ (q.node 1).restart = false) ∧
    (let q : Pkg := { nodes := [(1, { id := 1, phase := .running, restart := true })], reg := [(0x03000010, 0x10000)] }
     q.live (1 % 2 ^ 58) = true ∧ (q.node 1).fail = none ∧ (q.node 1).restart = true ∧ (q.node 1).phase = .running ∧
      (q.node 1).rollbacks < retryLimit q) ∧
    (({ nodes := [(1, { id := 1, phase := .ending, fail := some 2 })] } : Pkg).live (1 % 2 ^ 58) = true ∧
      (({ nodes := [(1, { id := 1, phase := .ending, fail := some 2 })] } : Pkg).node 1).fail.isSome = true) ∧ frozenDispatch { reg := [(0x04000040, 1)] } = true ∧
    ((2 : Nat) < 3 ∧ ∀ e ∈ q.nodes, e.2.id = e.1) ∧ (({ broken := true } : Pkg).broken = true) := by decide +kernel
theorem witness_ErrorsAndRepairs :
    let r (steps category : Nat) : Repair := { tile := 4607, category := category, index := 0, steps := steps }
    let p (steps category : Nat) (budget : Word) : Pkg := { repairs := [r steps category], reg := [(tileReg 4607 0, budget)] }
    let f : FailedPlane := { tile := 4607, plane := 9, group := 1, rec_ := some 6 }
    let e (tile : Nat) : ErrorSite := { tile := tile, plane := 24575, row := 0, bank := 0, lane := 0, correctable := false }
    ((e 4607).tile < 4608 ∧ (e 4607).plane < 24576) ∧ (4608 ≤ (e 4679).tile ∧ (e 4679).tile < 4680) ∧
    (4752 ≤ (e 9359).tile ∧ (e 9359).tile < 9360 ∧ (e 9359).correctable = false) ∧
    (4680 ≤ (e 4751).tile ∧ (e 4751).tile < 4752 ∧ (e 4751).correctable = false) ∧
    stepRepair (p 1 1 0) 4607 = some (r 1 1) ∧ (doneRepair (p 0 1 0) 4607 false = some (r 0 1) ∧ doneRepair (p 0 3 0) 4607 false = some (r 0 3)) ∧
    (doneRepair (p 0 4 0) 4607 true = some (r 0 4) ∧ remapsLeft (p 0 4 0) 4607 = 0) ∧
    (0 < remapsLeft (p 0 4 0x40100000) 4607 ∧ 0 < reserveLeft (p 0 4 0x40100000) 4607 ∧
      ∃ n < 16, remapUsed (remapEntry (p 0 4 0x40100000) 4607 n) = false) ∧
    namedPlane (p 0 4 0) 6 = none ∧ namedPlane { failed := [f] } 6 = some f := by decide +kernel
/-- MOVE_PAGE as given, over the tables of `memory`. -/
def moving (page : Word) (m : Option PageMove) : Pkg := { mem := memory, reg := [(movePage, page)], move := m }
/-- A skim pass over two pages from address va on, at the page given. -/
def skimming (va : Word) (next : Nat) : Pkg :=
  { mem := memory, reg := [(0x04000088, va), (0x04000090, 2)], skim := some { next := next } }
theorem witness_PagesMoveAndSkim :
    let hold (p : Pkg) : Nat := bits (p.regv movePage) 56 56
    let quiet (p : Pkg) : Nat := bits (p.regv movePage) 57 57
    (hold (moving 0x100000000050000 none) = 1 ∧ moveQuietNow (moving 0x100000000050000 none) = true) ∧
    (hold (moving 0 none) = 0 ∧ quiet (moving 0 none) = 0 ∧ moveQuietNow (moving 0 none) = false) ∧ quiet (moving 0x300000000050000 none) = 1 ∧
    ((moving 0 (some ⟨0, 0x10000000000, 0⟩)).move = some ⟨0, 0x10000000000, 0⟩ ∧ walk (moving 0 none) 0 0x10000000000 = .trans) ∧
    (let q : Pkg := { moving 0 none with failed := [{ tile := 0, plane := 16, group := 1 }] }
     given (match walk (moving 0 none) 1 0x10000 with | .leaf l => some l | _ => none) (fun l => leafKind l.entry == 1 &&
       (movedPlanes (moving 0 none) l 0x10000 16).all fun w => decide (¬(w.2.2 < 0 ∨ 23679 < w.2.2))) = true ∧
     moveBarred ⟨1, 0x10000, 16⟩ (moving 0 none) = false ∧ moveBarred ⟨1, 0x10000, 16⟩ q = true) ∧
    ((skimming 0x50000 0).skim = some { next := 0 } ∧ skimHeld (skimming 0x50000 0) = false ∧ 0 < skimPages (skimming 0x50000 0)) ∧ skimPages (skimming 0x50000 2) ≤ 2 ∧
    walk (skimming 0x10000000000 0) (skimAsid (skimming 0x10000000000 0)) (skimVa (skimming 0x10000000000 0) 0) = .trans ∧
    (∃ l, walk (skimming 0x50000 0) (skimAsid (skimming 0x50000 0)) (skimVa (skimming 0x50000 0) 0) = .leaf l ∧ leafState l.entry ≠ 2 ∧
      leafKind l.entry < 2 ∧ bits l.entry 5 5 = 1 ∧ lastSubpage (skimming 0x50000 0) l 0 = false ∧
      (∀ a ∈ l.at_ :: skimHash (skimming 0x50000 0) 0 ::
          (List.range 16).map (fun g => leafPlace (skimming 0x50000 0) l (0x50000 + 4096 * g)),
        Eng.failedAt (skimming 0x50000 0) a = none ∧ Eng.pendingAt (skimming 0x50000 0) a = false) ∧
      (∀ g < 16,
        Eng.failedAt (skimming 0x50000 0) (skimDest (skimming 0x50000 0) 0 + 4096 * g) = none ∧
        Eng.pendingAt (skimming 0x50000 0) (skimDest (skimming 0x50000 0) 0 + 4096 * g) = false) ∧
      Eng.moveHold (skimming 0x50000 0) 0 0x50000 = false) := by
  refine ⟨by decide +kernel, by decide +kernel, by decide +kernel, by decide +kernel, by decide +kernel, by decide +kernel, by decide +kernel, by decide +kernel,
    { entry := 0x33, level := 2, at_ := 0x3000 }, by decide +kernel⟩

/-- The window of function 63 lets the host write ASID 0; a repair keeps the planes of tile 80 waiting where asked. -/
def window (repair : Bool) : Pkg :=
  { mem := memory, reg := [(0x07000000, 2), (0x07000100 + 8 * 63, 3)],
    repairs := if repair then [{ tile := 80, category := 1, index := 0, steps := 1 }] else [] }
theorem witness_HostAccesses :
    63 < 64 ∧ (window false).hostUp = true ∧ hostAccess (window false) 62 0 8 false = none ∧ hostAccess (window false) 62 0 8 true = none ∧
    (∀ wr : Bool, (hostAccess (window true) 63 0x50000 8 wr).map (fun qs => qs.map (·.1)) = some ((List.range 8).map (dev 5 0 + ·))) ∧
    (let w : PWrite := .dev none false [(2 ^ 54, 1)]
     let m : Command := { cmd := { id := 1 }, phase := .started, writes := [w] }
     let p : Pkg := { cmds := [(1, m)] }
     p.present 1 = true ∧ (p.cmd 1).phase = .started ∧ usesHost p (p.cmd 1) = true) ∧ (window false).cxl = false ∧
    (let r : HostReq := .read [(0, 0x50000)] ([dev 5 0, dev 5 1].map fun a => (a, none))
     let p : Pkg := { window true with hostq := [r] }
     p.hostq = [r] ∧ (∀ a ∈ [dev 5 0, dev 5 1], p.badSector.get (a / 32) = false ∧ Eng.failedAt p (32 * (a / 32)) = none)) ∧
    (let w : HostReq := .write [(0, 0x50000)] [(dev 5 0, 1)]
     ({ window true with hostq := [w, .store true 1023 0 63] } : Pkg).hostq = [w, .store true 1023 0 63] ∧ 1023 < 1024) := by decide +kernel
/-- One master heard, or two, or none; by a package that is none itself, or is one. -/
theorem witness_EdgesAndTime :
    let p (up : Word) (dead : List Nat) : Pkg := { reg := [(0x07000008, 0xF0000), (edgeStat, up)], deadPorts := dead }
    let m (target : Nat) : LinkMessage := { source := 5, target := target, kind := 0, sequence := 71, data := [] }
    let heard (old : List (Nat × Nat)) : List (Nat × Nat) := (old ++ [(5, 3)]).eraseDups
    ((p 8 []).regv edgeStat).testBit 3 = true ∧ ((p 0 []).regv edgeStat).testBit 0 = false ∧
    (takes (p 8 []) (m 1) = true ∧ (m 1).target ≠ (p 8 []).number) ∧ (takes (p 8 []) (m 0) = true ∧ (m 0).target = (p 8 []).number ∧ (p 8 []).pcoreOf 71 = some 71) ∧
    (((p 0 []).regv 0x07000008).testBit (16 + 3) = true ∧ 3 ∉ (p 0 []).deadPorts) ∧ 3 ∈ (p 0 [3]).deadPorts ∧
    ((∀ e ∈ heard [(5, 3), (5, 0)], e.1 = 5) ∧ bits ((p 8 []).regv 0x07000008) 12 12 = 0) ∧ ¬(∀ e ∈ heard [(6, 3)], e.1 = 5) ∧
    (let q : Pkg := { reg := [(0x07000008, 0x1000), (edgeStat, 8)] }
     bits (q.regv 0x07000008) 12 12 = 1 ∧ (q.regv 0x07000008).testBit (16 + 3) = false) ∧
    (({ masters := [(5, 3)] } : Pkg).masters.any fun e => e.2 == 3) = true := by decide +kernel
theorem witness_ResetsBringUp :
    State.reset.pkg.inReset = true ∧ 5 ≤ 5 ∧ ({ inReset := false } : Pkg).inReset = false ∧ 0x1A5C3 % 65536 = 0xA5C3 ∧ 0xA5C4 % 65536 ≠ 0xA5C3 ∧
    (isDram (2 ^ 54) = false ∧ ∀ l ∈ State.reset.pkg.lines, 2 ^ 54 ∉ l.2.dirty) := by decide +kernel
theorem witness_PowerAndTemperature :
    let p (v : Word) : Pkg := { reg := [(0x18, 600), (cluPwr 17, v)], slow := 12 }
    let busy : Pkg := { ctx := [(4 * 68, { phase := .ready })] }
    17 < 18 ∧ bits ((p 0x10000).regv (cluPwr 17)) 16 16 = 1 ∧
    (bits ((p 0).regv (cluPwr 17)) 16 16 = 0 ∧ bits ((p 0).regv (cluPwr 17)) 1 0 < 2 % 4 ∧ 2 % 4 ≠ 3 ∧ quiescent (p 0) 17 (2 % 4) = true) ∧
    quiescent busy 17 2 = false ∧ 0 % 4 ≤ bits ((p 0x202).regv (cluPwr 17)) 1 0 ∧
    (bits ((p 0x10200).regv (cluPwr 17)) 1 0 < bits ((p 0x10200).regv (cluPwr 17)) 9 8 ∧ bits ((p 0x10200).regv (cluPwr 17)) 9 8 = 2) ∧
    (({ lines := [(5, { pending := true })] } : Pkg).lines.get 5).pending = true ∧
    (600 ≤ (p 0).regv 0x18 % 2 ^ 16 ∧ (p 0).regv 0x18 % 2 ^ 16 < 601 ∧ 599 < (p 0).regv 0x18 % 2 ^ 16 ∧ 0 < (p 0).slow) := by decide +kernel
/-! ### Steps -/

/-- R263: the trowel word `add.i32 w1, w2, w3` is fetched and done: word 1 next, w1 the sum. -/
theorem test_step_trowel :
    let ch : Channel := { units := [(63, { w := [(2, 7), (3, 2 ^ 32 - 1)] })] }
    let s : State := { pkg := { chans := [(0, ch)] } }
    (match step (s.withFetchWord 32 0b00011_00001_00010_00011_00000_0000000) with
     | .next t => (twLane (((t.pkg.chans.get 0).units.get 63).reg 1) 0, (t.pkg.chans.get 0).pc)
     | _ => (0, 0)) = (6, 1) := by decide +kernel
/-- R120, R130: the bundle written out in `test_bundle_slots` is fetched and issues: the next address is 32, its trigger is next. -/
theorem test_step_bundle :
    (match step (State.reset.withFetchWord 256 0x0020000100000002_041480_041A00_100000_100000_100000_100000_100000_100000) with
     | .next t => ((t.pkg.c 0).pc, t.pkg.micro.length)
     | _ => (0, 0)) = (32, 1) := by decide +kernel
/-- R387: after RESET_N's release the package is out of reset. -/
theorem test_release : (match exec (.resetNRelease 0) State.reset with | .next t => t.pkg.inReset | _ => true) = false := by decide +kernel
/-- R389: PKG_RESET with a wrong key does nothing. -/
theorem test_pkg_reset_key : exec (.pkgResetWrite 0) State.reset = .next State.reset := by rfl
/-- R310: a quantum below 64 is 64. -/
theorem test_quantum : (match exec (.registerWrite 0x01000008 5) State.reset with | .next t => t.pkg.regv 0x01000008 | _ => 0) = 64 := by
  decide +kernel
/-- R145, R43: a due jump gives its context the target as its next address. -/
theorem test_jump_taken : (match exec (.branchEffect 0) (inCtx { flight := [branch 0 (some 64)] }) with | .next t => (t.pkg.c 0).pc | _ => 0) = 64 := by
  decide +kernel
/-- R153, R77: a store that lands alone writes its byte and sets its word full. -/
theorem test_store_lands :
    let st : LStore := { bytes := [(8, 0x5A)], tags := [(2, true)] }
    let e : Entry := { landing 4 8 1 none none 0 with kind := .store, store := some st }
    (match exec (.entryLanding 0) (inCtx { flight := [e] }) with
     | .next t => ((t.pkg.k 0).spad.get 8, (t.pkg.k 0).tags.get 2, (t.pkg.k 0).tags.get 3)
     | _ => (0, false, false)) = (0x5A, true, false) := by decide +kernel
/-- R205, R206: an atomic add returns the old value and leaves the sum; the word held 64, here at the first descriptor's `vlen`. -/
theorem test_atomic_add :
    let c := cmd 0x20000 1 0 0x303000100
    (match exec (.ecAmo c) (ready c) with
     | .next t => (t.pkg.mem.get (dev 2 0), (t.pkg.cmd 1).status)
     | _ => (0, 99)) = (65, 0) := by decide +kernel
/-- R227: one vector of one active element through a latch of zero weights: a line write of one word. -/
theorem test_macro_line :
    let c := cmd 0x100 0 0 1 macroBytes i8
    (match exec (.ecxMx c) (ready c) with
     | .next t => (t.pkg.cmd 1).writes
     | _ => []) = [.acc 0 0 [(0, 0)] []] := by decide +kernel
/-- R217, R351: the macro that finds a latch in parity error empties it, writes no line with it and completes with 0x07. -/
theorem test_macro_parity :
    let c := cmd 0x100 0 0 1 macroBytes i8
    let site : ErrorSite := { tile := 4752, plane := 0, row := 0, bank := 0, lane := 0, correctable := false }
    (match exec (.correctedError site) (ready c) with
     | .next s => (match exec (.ecxMx c) s with
       | .next t => ((t.pkg.cmd 1).status, (t.pkg.cmd 1).writes, (t.pkg.tiles.get 0).active.valid, t.pkg.faultq.map (·.kind))
       | _ => (0, [], true, []))
     | _ => (0, [], true, [])) = (7, [], false, [9]) := by decide +kernel

theorem witness_StepsRunInstructions :
    let s (i : Instr) (reset : Bool) : State := { env := { schedule := [i] }, pkg := { inReset := reset } }
    (([.run .twNop, .bundle 0] : List Micro) = .run .twNop :: [.bundle 0]) ∧
    decodeTrowel (trowelWord { chans := [(71, { prog := [0xB8000000] })] } 71) = .ok .twHalt ∧
    decodeTrowel (trowelWord { chans := [(71, { prog := [0xC0000000] })] } 71) = .error .reservedOpcode ∧
    ((s (.resetNRelease 0) true).pkg.micro = [] ∧ isEvent (nextEvent (s (.resetNRelease 0) true).env) = true ∧
      eventAllowed (s (.resetNRelease 0) true).pkg (nextEvent (s (.resetNRelease 0) true).env) = true) ∧
    eventAllowed (s .recordTake true).pkg (nextEvent (s .recordTake true).env) = false ∧ isEvent (nextEvent (s .saAdd false).env) = false ∧
    (0x7FFFE0 % 4 = 0 ∧ ((s .saAdd false).pkg.k 0).stale = [] ∧ pending ((s .saAdd false).pkg.c 0) = []) := by
  refine ⟨rfl, rfl, rfl, by decide +kernel, by decide +kernel, rfl, by decide +kernel⟩
theorem witness_EncodingsRoundTrip :
    ((Instr.twCmp 23 0 2 7).wf = true ∧ (encodeTrowel (.twCmp 23 0 2 7)).isSome = true) ∧ ((Instr.twLoop 65535).wf = true ∧
      (encodeTrowel (.twLoop 65535)).isSome = true) ∧ adding.wf = true ∧
    decodeTrowel 0b10001_00000_10111_00000_00000_0010111 = .ok (.twCmp 23 0 2 7) := by decide +kernel
theorem witness_TimeNeverStepsBack : 5 ≤ (only { cmd := { id := 1 } }).env.dtime ∧
    ∃ t, step { (only { cmd := { id := 1 } }) with pkg := { micro := [.run .twNop] } } = .next t := ⟨by decide, _, rfl⟩
theorem witness_ResetHolds :
    (∃ log, State.reset.pkg = { State.reset.pkg with flash := log }) ∧
    ∃ t, step { State.reset with env := { schedule := [.saAdd] } } = .next t := ⟨⟨[], rfl⟩, _, rfl⟩

end Sys2Proof.Tests
end

namespace Sys2Proof.Proofs.DeviceRegisters

open Machine

/-! ### What the note of a freeze and a plain write leave alone -/

/-- R358: a note of dispatch freezing or resuming reaches the list of events for the log alone. -/
theorem noteFreeze_eq (d : Nat) (p q : Pkg) : ∃ l, noteFreeze d p q = { q with logq := l } := by
  unfold noteFreeze
  split
  · exact ⟨_, rfl⟩
  · split <;> exact ⟨_, rfl⟩

@[simp] theorem noteFreeze_regv (d : Nat) (p q : Pkg) (b : Nat) : (noteFreeze d p q).regv b = q.regv b := by
  obtain ⟨l, h⟩ := noteFreeze_eq d p q
  rw [h]; rfl

theorem noteFreeze_sameStorage (d : Nat) (p q : Pkg) : SameStorage q (noteFreeze d p q) := by
  obtain ⟨l, h⟩ := noteFreeze_eq d p q
  rw [h]; exact .of_eq rfl rfl rfl

section
variable {p q : Pkg} {a hi lo v : Nat}

theorem sameStorage_setReg (h : SameStorage p q) : SameStorage p (q.setReg a v) := h.trans (.of_eq rfl rfl rfl)
theorem sameStorage_setRegBits (h : SameStorage p q) : SameStorage p (q.setRegBits a hi lo v) := sameStorage_setReg h
theorem sameStorage_putBits (h : SameStorage p q) : SameStorage p (q.putBits a hi lo v) := sameStorage_setReg h
theorem sameStorage_forgetMasters (h : SameStorage p q) : SameStorage p { q with masters := [], timed := false } :=
  h.trans (.of_eq rfl rfl rfl)

end

theorem coreRegWrite_sameStorage (n off v : Nat) (p : Pkg) : SameStorage p (coreRegWrite n off v p) := by
  unfold coreRegWrite
  split <;> simp only [sameStorage_setReg, SameStorage.refl]

/-- R5: whatever register it names, a plain write reaches no memory, side slot or core. The cases are the blocks of R386: a core's
registers, a queue's, the core map, the windows, and single ones, of which EDGE_CTL forgets the time masters as well (R385). -/
theorem plainWrite_sameStorage (a v : Nat) (p : Pkg) : SameStorage p (plainWrite a v p) := by
  dsimp only [plainWrite]
  split
  · exact coreRegWrite_sameStorage ..
  split
  · split <;> simp only [sameStorage_setReg, sameStorage_putBits, SameStorage.refl]
  split
  · split <;> simp only [sameStorage_setReg, SameStorage.refl]
  split
  · exact sameStorage_putBits (sameStorage_putBits (sameStorage_putBits (.refl p)))
  repeat' split
  case h_28.isFalse =>
    exact sameStorage_forgetMasters (sameStorage_setRegBits (sameStorage_putBits (sameStorage_putBits (.refl p))))
  all_goals simp only [sameStorage_setReg, sameStorage_setRegBits, sameStorage_putBits, SameStorage.refl]

/-! ### REGISTER_WRITE, case by case -/

/-- An address outside every register (R386). -/
theorem exec_registerWrite_outside {a : Nat} (h : hasReg a = false) (v : Nat) (s : State) :
    exec (.registerWrite a v) s = .next s := by
  simp [exec, execRegisterWrite, h]

theorem exec_registerWrite_plain {a v : Nat} {s : State} (h : hasReg a = true) (row : writeRow a v s.pkg = .registerWrite a v)
    (accepted : a ≠ 0x04000048 ∨ frozenDispatch s.pkg = false) :
    exec (.registerWrite a v) s = s.put (noteFreeze s.env.dtime s.pkg (plainWrite a v s.pkg)) := by
  have go : ¬(a = 0x04000048 ∧ frozenDispatch s.pkg = true) := by
    rintro ⟨rfl, frozen⟩
    simp [frozen] at accepted
  simp only [exec, execRegisterWrite, h, row, go, if_true, if_false]

/-- R359: NODE_ABORT takes no write while dispatch is frozen. -/
theorem exec_registerWrite_frozen {v : Nat} {s : State} (row : writeRow 0x04000048 v s.pkg = .registerWrite 0x04000048 v)
    (frozen : frozenDispatch s.pkg = true) : exec (.registerWrite 0x04000048 v) s = .next s := by
  have h : hasReg 0x04000048 = true := by decide
  simp only [exec, execRegisterWrite, h, row, frozen, and_self, if_true]

theorem exec_registerWrite_row {a v : Nat} {s : State} (h : hasReg a = true)
    (row : ∀ b w, writeRow a v s.pkg ≠ .registerWrite b w) :
    exec (.registerWrite a v) s = s.put (s.pkg.push [.run (writeRow a v s.pkg)]) := by
  show execRegisterWrite a v s = _
  rw [execRegisterWrite, if_pos h]
  split
  next b w e => exact absurd e (row b w)
  next => rfl

/-! ### The control registers of a core (R310) -/

section

variable {core off : Nat}

theorem hasReg_coreReg (hc : core < 72) (aligned : off % 8 = 0) (ho : off ≤ 0x30) : hasReg (coreReg core off) = true := by
  have lo : 0x01000000 ≤ coreReg core off := by unfold coreReg; omega
  have hi : coreReg core off < 0x01000000 + 0x1000 * 72 := by unfold coreReg; omega
  have page : coreReg core off % 0x1000 = off := by unfold coreReg; omega
  have multiple : coreReg core off % 8 = 0 := by unfold coreReg; omega
  simp [hasReg, coreOffset, page, multiple, lo, hi, ho]

theorem writeRow_coreReg (hc : core < 72) (ho : off < 0x1000) (v : Nat) (p : Pkg) :
    writeRow (coreReg core off) v p = .registerWrite (coreReg core off) v := by
  have lo : 0x01000000 ≤ coreReg core off := by unfold coreReg; omega
  have hi : coreReg core off < 0x02000000 := by unfold coreReg; omega
  unfold writeRow
  rw [if_neg (by omega), if_neg (by omega), if_neg (by omega)]
  split
  case h_15 => rfl
  all_goals omega

theorem plainWrite_coreReg (hc : core < 72) (ho : off < 0x1000) (v : Nat) (p : Pkg) :
    plainWrite (coreReg core off) v p = coreRegWrite core off v p := by
  have number : (0x01000000 + 0x1000 * core + off - 0x01000000) / 0x1000 = core := by omega
  have page : (0x01000000 + 0x1000 * core + off) % 0x1000 = off := by omega
  unfold plainWrite coreReg
  rw [if_pos (by omega), number, page]

/-- REGISTER_WRITE of a control register of a core: each register then reads as the core's own write leaves it. -/
theorem exec_registerWrite_coreReg (hc : core < 72) (aligned : off % 8 = 0) (ho : off ≤ 0x30) (v : Nat) (s : State) :
    ∃ t, exec (.registerWrite (coreReg core off) v) s = .next t ∧
      ∀ b, t.pkg.regv b = (coreRegWrite core off v s.pkg).regv b := by
  have single : coreReg core off ≠ 0x04000048 := by unfold coreReg; omega
  have written := exec_registerWrite_plain (hasReg_coreReg hc aligned ho) (writeRow_coreReg hc (by omega) v s.pkg) (.inl single)
  rw [plainWrite_coreReg hc (by omega)] at written
  exact ⟨_, written, fun b => noteFreeze_regv ..⟩

theorem regv_coreRegWrite_quantum (p : Pkg) (v : Nat) :
    (coreRegWrite core 0x08 v p).regv (coreReg core 0x08) = max 64 (min 256 (v % 512)) ∧
      ∀ b, b ≠ coreReg core 0x08 → (coreRegWrite core 0x08 v p).regv b = p.regv b := by
  refine ⟨?_, fun b hb => Pkg.regv_setReg_of_ne p _ hb⟩
  show (p.setReg _ _).regv _ = _
  rw [Pkg.regv_setReg_self]
  omega

theorem regv_coreRegWrite_watchdog (p : Pkg) (v : Nat) :
    (coreRegWrite core 0x10 v p).regv (coreReg core 0x10) = 0 ∨
      16384 ≤ (coreRegWrite core 0x10 v p).regv (coreReg core 0x10) := by
  show (p.setReg _ _).regv _ = 0 ∨ 16384 ≤ (p.setReg _ _).regv _
  rw [Pkg.regv_setReg_self]
  split <;> omega

theorem regv_coreRegWrite_backoff (p : Pkg) (v : Nat) :
    (coreRegWrite core 0x18 v p).regv (coreReg core 0x18) = max 1 (v % 65536) := by
  show (p.setReg _ _).regv _ = _
  rw [Pkg.regv_setReg_self]
  omega

end

/-- R389: PWR_CAP stays within 600 to 2,800. -/
theorem exec_registerWrite_powerCap (v : Nat) (s : State) :
    ∃ t, exec (.registerWrite 0x18 v) s = .next t ∧ t.pkg.regv 0x18 = max 600 (min 2800 (v % 65536)) := by
  have written : exec (.registerWrite 0x18 v) s = _ :=
    exec_registerWrite_plain (by decide) rfl (.inl (by decide))
  refine ⟨_, written, ?_⟩
  show (noteFreeze _ _ (s.pkg.setReg 0x18 (clamp 600 2800 (v % 65536)))).regv 0x18 = _
  rw [noteFreeze_regv, Pkg.regv_setReg_self, clamp]
  omega

/-- Settles O45: the outcomes of REGISTER_WRITE one by one, and the limits of the registers that clamp what they take. -/
theorem registersWrite : Obligations.RegistersWrite := by
  unfold Obligations.RegistersWrite
  intro a v s p
  refine ⟨fun h => exec_registerWrite_outside h v s, fun h row accepted => ?_, exec_registerWrite_frozen,
    exec_registerWrite_row, fun core hc => ?_, fun core hc => ?_, fun core hc => ?_, exec_registerWrite_powerCap v s⟩
  · exact ⟨_, exec_registerWrite_plain h row accepted, rfl, fun b => noteFreeze_regv ..,
      (plainWrite_sameStorage a v p).trans (noteFreeze_sameStorage ..)⟩
  · have place : 0x01000008 + 0x1000 * core = coreReg core 0x08 := by unfold coreReg; omega
    obtain ⟨t, run, reads⟩ := exec_registerWrite_coreReg (off := 0x08) hc (by decide) (by decide) v s
    obtain ⟨clamped, others⟩ := regv_coreRegWrite_quantum (core := core) p v
    exact place ▸ ⟨t, run, (reads _).trans clamped, fun b hb => (reads b).trans (others b hb)⟩
  · have place : 0x01000010 + 0x1000 * core = coreReg core 0x10 := by unfold coreReg; omega
    obtain ⟨t, run, reads⟩ := exec_registerWrite_coreReg (off := 0x10) hc (by decide) (by decide) v s
    rw [place]
    exact ⟨t, run, reads _ ▸ regv_coreRegWrite_watchdog p v⟩
  · have place : 0x01000018 + 0x1000 * core = coreReg core 0x18 := by unfold coreReg; omega
    obtain ⟨t, run, reads⟩ := exec_registerWrite_coreReg (off := 0x18) hc (by decide) (by decide) v s
    rw [place]
    exact ⟨t, run, (reads _).trans (regv_coreRegWrite_backoff p v)⟩

end Sys2Proof.Proofs.DeviceRegisters

namespace Sys2Proof.Proofs.BesideEvents

open Machine

/-! ### The flash log beside an event (R388)

Nothing that goes on beside an event reaches the module flash: each operation of `outside` keeps the log. -/

/-- Operations that each keep the flash log keep it together. -/
theorem foldl_flash {α : Type} {f : Pkg → α → Pkg} (keeps : ∀ p a, (f p a).flash = p.flash) (l : List α) (p : Pkg) :
    (l.foldl f p).flash = p.flash := by
  induction l generalizing p with
  | nil => rfl
  | cons a l ih => rw [List.foldl_cons, ih, keeps]

@[simp] theorem countUp_flash (a hi lo : Nat) (p : Pkg) : (countUp a hi lo p).flash = p.flash := by
  rw [countUp, Pkg.setRegBits_flash]
@[simp] theorem writeCells_flash (cells : List Host.Cell) (p : Pkg) : (writeCells cells p).flash = p.flash := rfl
@[simp] theorem ageReplicas_flash (cs : List Cmd) (ls : List Nat) (p : Pkg) : (ageReplicas cs ls p).flash = p.flash := rfl
@[simp] theorem refuseHost_flash (p : Pkg) : (refuseHost p).flash = p.flash := by rw [refuseHost, countUp_flash]

@[simp] theorem ringWrite_flash (a : Nat) (bs : List Byte) (p : Pkg) : (ringWrite a bs p).flash = p.flash := by
  unfold ringWrite
  (repeat' split) <;> simp

@[simp] theorem joinHub_flash (d node k : Nat) (p : Pkg) : (joinHub d node k p).flash = p.flash := by
  unfold joinHub Eng.joinPlane
  (repeat' split) <;> rfl

@[simp] theorem sendVector_flash (v : Nat) (p : Pkg) : (sendVector v p).flash = p.flash := by
  unfold sendVector
  split <;> rfl

@[simp] theorem writeCompletion_flash (d : Nat) (o : Owed) (p : Pkg) : (writeCompletion d o p).flash = p.flash := by
  simp [writeCompletion]

@[simp] theorem setTail_flash (q v : Nat) (p : Pkg) : (setTail q v p).flash = p.flash :=
  Pkg.setReg_flash p (queueReg q 0x10) v

@[simp] theorem doorbell_flash (tail : Bool) (q v : Nat) (p : Pkg) : (doorbell tail q v p).flash = p.flash := by
  unfold doorbell
  (repeat' split) <;> simp

/-! #### The host's accesses (R381) -/

theorem serveWrite_flash (kept : List HostReq) (ss : List Nat) (cells : List Host.Cell) (p : Pkg) :
    (serveWrite kept ss cells p).1.flash = p.flash := by
  induction ss generalizing cells p with
  | nil => rfl
  | cons s ss ih =>
    unfold serveWrite
    dsimp only
    split
    · rw [ih, Pkg.drawn_flash]
      split
      · exact refuseHost_flash p
      · rfl
    · rw [ih, Pkg.drawn_flash]

theorem serveRead_flash (kept : List HostReq) (ss : List Nat) (bs : List (Nat × Option Byte)) (p : Pkg) :
    (serveRead kept ss bs p).1.flash = p.flash := by
  induction ss generalizing bs p with
  | nil => rfl
  | cons s ss ih =>
    unfold serveRead
    split
    · split
      · rfl
      · rw [ih, Pkg.drawn_flash]
    · rw [ih, Pkg.drawn_flash]

theorem serveReq_flash (kept : List HostReq) (r : HostReq) (p : Pkg) : (serveReq kept r p).1.flash = p.flash := by
  cases r with
  | write ps cells => exact serveWrite_flash ..
  | read ps bs =>
    unfold serveReq
    dsimp only
    split
    · rw [emit_flash, refuseHost_flash, serveRead_flash]
    · split
      · rw [emit_flash, serveRead_flash]
      · rw [serveRead_flash]
  | store tail q v fn =>
    unfold serveReq
    dsimp only
    split
    · rfl
    · rw [doorbell_flash]
      rfl

theorem serveAll_flash (rs kept : List HostReq) (p : Pkg) : (serveAll rs kept p).flash = p.flash := by
  induction rs generalizing kept p with
  | nil => rfl
  | cons r rs ih => exact (ih ..).trans (serveReq_flash kept r p)

@[simp] theorem serveHost_flash (p : Pkg) : (serveHost p).flash = p.flash := serveAll_flash ..

/-! #### What else waits, and what arrives -/

@[simp] theorem settleAts_flash (p : Pkg) : (settleAts p).flash = p.flash := by
  unfold settleAts
  exact foldl_flash (fun q e => emit_flash q _) _ _

@[simp] theorem settleOwed_flash (d : Nat) (p : Pkg) : (settleOwed d p).flash = p.flash := by
  refine foldl_flash (fun q o => ?_) _ _
  dsimp only
  split
  · rfl
  · exact writeCompletion_flash ..

@[simp] theorem hubWaits_flash (d : Nat) (p : Pkg) : (hubWaits d p).flash = p.flash := by
  unfold hubWaits
  split
  · rfl
  · exact foldl_flash (fun q k => joinHub_flash d 0 k q) _ _

@[simp] theorem sendTime_flash (env : Env) (p : Pkg) : (sendTime env p).flash = p.flash := by
  unfold sendTime
  split <;> rfl

@[simp] theorem goOn_flash (s : State) : (goOn s).pkg.flash = s.pkg.flash := by
  unfold goOn
  split
  · simp
  · rfl

@[simp] theorem writeVector_flash (fn : Nat) (p : Pkg) (c : Host.Cell) : (writeVector fn p c).flash = p.flash := by
  unfold writeVector maskVector
  dsimp only
  (repeat' split) <;> rfl

@[simp] theorem loseMasters_flash (gone : Nat × Nat → Bool) (s : State) : (loseMasters gone s).pkg.flash = s.pkg.flash := by
  unfold loseMasters
  split
  · exact Pkg.setRegBits_flash s.pkg 0x07000018 0 0 0
  · rfl

@[simp] theorem receive_flash (o : Outside) (s : State) : (receive o s).pkg.flash = s.pkg.flash := by
  cases o with
  | memoryWrite key data => rfl
  | vectorWrite fn offset data =>
    dsimp only [receive]
    split
    · exact foldl_flash (writeVector_flash fn) _ _
    · rfl
  | managementRead which => rfl
  | masterSilent source => exact loseMasters_flash ..
  | _ =>
    dsimp only [receive]
    split <;> rfl

@[simp] theorem outside_flash (s : State) : (outside s).pkg.flash = s.pkg.flash := by
  unfold outside
  dsimp only
  (repeat' split) <;> simp

@[simp] theorem announce_flash (i : Instr) (s : State) : (announce i s).pkg.flash = s.pkg.flash := by
  unfold announce
  dsimp only
  split <;> simp

/-! ### Device time beside an event

The outside may stop the correction of device time (R385), never device time. -/

@[simp] theorem goOn_env (s : State) : (goOn s).env = s.env := by
  unfold goOn
  split <;> rfl

@[simp] theorem loseMasters_dtime (gone : Nat × Nat → Bool) (s : State) : (loseMasters gone s).env.dtime = s.env.dtime := by
  unfold loseMasters
  split <;> rfl

@[simp] theorem receive_dtime (o : Outside) (s : State) : (receive o s).env.dtime = s.env.dtime := by
  cases o with
  | memoryWrite key data => rfl
  | managementRead which => rfl
  | masterSilent source => exact loseMasters_dtime ..
  | _ =>
    dsimp only [receive]
    split <;> rfl

@[simp] theorem outside_dtime (s : State) : (outside s).env.dtime = s.env.dtime := by
  unfold outside
  dsimp only
  (repeat' split) <;> simp

@[simp] theorem announce_dtime (i : Instr) (s : State) : (announce i s).env.dtime = s.env.dtime := by
  unfold announce
  dsimp only
  split <;> simp

end Sys2Proof.Proofs.BesideEvents

namespace Sys2Proof.Proofs.DeviceTime

open Machine BesideEvents

/-- Where the outcome is a next state, its device time is no earlier than that of `s`. -/
structure TimeOnward (s : State) (o : Out) : Prop where
  le : ∀ t, o = .next t → s.env.dtime ≤ t.env.dtime

section
variable (s : State)

/-- What changes the package alone, or nothing, keeps device time. -/
theorem timeOnward_put (p : Pkg) : TimeOnward s (s.put p) :=
  ⟨fun _ h => by cases h; exact Nat.le_refl _⟩

theorem timeOnward_next {s t : State} (h : s.env.dtime ≤ t.env.dtime) : TimeOnward s (.next t) :=
  ⟨fun _ e => by cases e; exact h⟩

theorem timeOnward_fault (f : Fault) : TimeOnward s (.fault f) := ⟨fun _ h => by cases h⟩

theorem timeOnward_ite {c : Prop} [Decidable c] {a b : Out} (ha : TimeOnward s a) (hb : TimeOnward s b) :
    TimeOnward s (if c then a else b) := by
  split
  · exact ha
  · exact hb

/-! ### The operations that many rows share -/

theorem runCmd_timeOnward (c : Cmd) (body : Eng Unit) : TimeOnward s (runCmd c body s) := by
  obtain ⟨p, h⟩ := runCmd_next c body s
  exact h ▸ timeOnward_put s p

theorem lsTrigger_timeOnward (op : Nat) (act : Fire → Pkg → Pkg) : TimeOnward s (lsTrigger op act s) :=
  timeOnward_ite s (timeOnward_put ..) (timeOnward_ite s (timeOnward_put ..) (timeOnward_put ..))

theorem brTrigger_timeOnward (op : Nat) (taken : Bool) (target : Option Nat) (fixed : List (Fixed × Word)) :
    TimeOnward s (brTrigger op taken target fixed s) :=
  timeOnward_ite s (timeOnward_put ..) (timeOnward_put ..)

theorem twStep_timeOnward (needs : Nat) (unit : Pkg → DriveStep → Nat → Trowel → Trowel)
    (store : DriveStep → Channel → Pkg → Pkg) (flow : Channel → Channel) : TimeOnward s (twStep needs unit store flow s) := by
  dsimp only [twStep]
  (repeat' split) <;> exact timeOnward_put ..

theorem twIdle_timeOnward (unit : Trowel → Trowel) : TimeOnward s (twIdle unit s) := twStep_timeOnward ..

theorem twLanes_timeOnward (rd ra rb : BitVec 5) (f : Lane → Lane → Lane) : TimeOnward s (twLanes rd ra rb f s) :=
  twIdle_timeOnward ..

/-! ### Rows whose outcome is more than a choice of packages -/

/-- R40, R307: whichever trap a bundle takes, and where it issues or waits, time stands still. -/
theorem execBundleIssue_timeOnward (x : Nat) (b : Bundle) : TimeOnward s (execBundleIssue x b s) := by
  refine timeOnward_ite s (timeOnward_put ..) (timeOnward_ite s (timeOnward_put ..) (timeOnward_ite s (timeOnward_put ..) ?_))
  extract_lets seen
  split
  · exact timeOnward_put ..
  split
  · exact timeOnward_put ..
  · exact timeOnward_ite s (timeOnward_put ..) (timeOnward_ite s (timeOnward_put ..)
      (timeOnward_ite s (timeOnward_put ..) (timeOnward_ite s (timeOnward_put ..) (timeOnward_put ..))))

theorem execBrCall_timeOnward : TimeOnward s (execBrCall s) :=
  timeOnward_ite s ⟨(brTrigger_timeOnward _ 1 true _ []).le⟩ (brTrigger_timeOnward ..)

theorem execEcKick_timeOnward (c : Cmd) : TimeOnward s (execEcKick c s) := by
  obtain ⟨p, h⟩ := runCmd_next c (ecKickWork c) s
  rw [execEcKick, h]
  exact timeOnward_ite s (timeOnward_put ..) (timeOnward_put ..)

theorem execSysRecordWrite_timeOnward (x : Nat) : TimeOnward s (execSysRecordWrite x s) := by
  unfold execSysRecordWrite
  split
  · exact timeOnward_put ..
  refine timeOnward_ite s (timeOnward_put ..) (timeOnward_ite s (timeOnward_put ..) ?_)
  split
  case h_4 => exact timeOnward_fault ..
  all_goals exact timeOnward_put ..

/-- R385: a failing port can take the master away, which stops the correction of device time alone. -/
theorem execEdgePortFail_timeOnward (port : Nat) : TimeOnward s (execEdgePortFail port s) :=
  timeOnward_ite s (timeOnward_next (by rw [loseMasters_dtime])) (timeOnward_put ..)

/-- R385: the first master's time is taken only where it is later. -/
theorem execTimeSyncMessage_timeOnward (port : Nat) (word : TimeWord) : TimeOnward s (execTimeSyncMessage port word s) := by
  refine timeOnward_ite s (timeOnward_ite s (timeOnward_next ?_) (timeOnward_next (Nat.le_refl _))) (timeOnward_put ..)
  dsimp only
  split
  · exact Nat.le_max_left ..
  · exact Nat.le_refl _

end

/-! ### Every row -/

/-- The rows that run bring-up (R387, R388). -/
def runsBringUp : Instr → Bool
  | .resetNRelease _ => true
  | .pkgResetWrite _ => true
  | _ => false

/-- R8, R385: no row but those that run bring-up sets device time back. The first cases are the rows with a lemma above and the
families of rows that share an operation; those after them choose between packages, or change nothing, by conditions; every
other row answers with a package at once. -/
theorem exec_timeOnward {i : Instr} (h : runsBringUp i = false) (s : State) : TimeOnward s (exec i s) := by
  cases i
  case resetNRelease | pkgResetWrite => cases h
  case bundleIssue x b => exact execBundleIssue_timeOnward s x b
  case brCall => exact execBrCall_timeOnward s
  case ecKick c => exact execEcKick_timeOnward s c
  case sysRecordWrite x => exact execSysRecordWrite_timeOnward s x
  case edgePortFail port => exact execEdgePortFail_timeOnward s port
  case timeSyncMessage port word => exact execTimeSyncMessage_timeOnward s port word
  case ecCopy | ecCopyl | ecRetile | ecPull | ecAmo | ecAmor | ecAcq | ecAcqw | ecRel | ecBind | ecUnbind | ecBar | ecColl | ecPref
      | ecStampw | ecFenceE | ecxWld | ecxMx | ecxMxs | ecxMxsel | ecxSwap | ecxCbt | ecxKvapp | ecxKvsel | ecxKvtrunc | ecxKvfork |
      ecxSig | ecxSigld | ecxBuLoad | ecxBuMode | ecxBuDrive | ecxChk =>
    dsimp only [exec]
    exact runCmd_timeOnward ..
  case lsLdB | lsLdH | lsLdW | lsLdD | lsLdfW | lsLdcW | lsLdfD | lsLdcD | lsStB | lsStH | lsStW | lsStD | lsStpW | lsStpD | lsStnW
      | lsLdV | lsLdfV | lsLdcV | lsStV | lsStpV | lsStnV | lsLdVs | lsStVs | lsLdVb | lsLdVg | lsStVg | lsLdTg | lsStTg | lsLdAcc |
      lsLdfAcc | lsStAcc | lsLdSc =>
    dsimp only [exec]
    exact lsTrigger_timeOnward ..
  case twAddI32 | twSubI32 | twMulI32 | twAddF32 | twSubF32 | twMulF32 | twMin | twMax | twAnd | twOr | twXor | twShlReg | twShlImm
      | twShrReg | twShrImm | twSraReg | twSraImm =>
    dsimp only [exec]
    exact twLanes_timeOnward ..
  case twNop | twFmaF32 | twCmp | twSel | twHmix =>
    dsimp only [exec]
    exact twIdle_timeOnward ..
  case twLd | twSt | twLoop | twLoopx =>
    dsimp only [exec]
    exact twStep_timeOnward ..
  case brJmp | brRet | brBrz | brBrnz | brLoop | brLoopx | brRett =>
    dsimp only [exec, execBrLoop, execBrLoopx]
    exact brTrigger_timeOnward ..
  -- scheduling of contexts
  case contextChoose | quantumExpiry | agingExpiry | sleepWake | waitTimeout =>
    dsimp only [exec, execContextChoose, execQuantumExpiry, execAgingExpiry, execSleepWake, execWaitTimeout]
    (repeat' split) <;> exact timeOnward_put ..
  -- launch records, nodes and parts
  case partBind | kernelImageLoad | partEnd | nodeStart | nodeComplete | nodeCommit | recordTake | gangProposalReceive | gangTimeout
      | gangStartTick | preemptHint | qTailStore | qCplHeadStore | launchCtlWrite | qCtlEnable =>
    dsimp only [exec, execPartBind, execKernelImageLoad, execPartEnd, execNodeStart, execNodeComplete, execNodeCommit,
      execRecordTake, execGangProposalReceive, execGangTimeout, execGangStartTick, execPreemptHint, execQTailStore,
      execQCplHeadStore, execLaunchCtlWrite, execQCtlEnable]
    (repeat' split) <;> exact timeOnward_put ..
  -- engine commands, notices and episodes
  case engineCommandStart | tokenComplete | tileTake | noticeOffer | noticeReoffer | episodeComplete | acqwTimeout | buDriveStep |
      memorySideCacheFillLands =>
    dsimp only [exec, execEngineCommandStart, execTokenComplete, execTileTake, execNoticeOffer, execNoticeReoffer,
      execEpisodeComplete, execAcqwTimeout, execBuDriveStep, execMemorySideCacheFillLands]
    (repeat' split) <;> exact timeOnward_put ..
  -- fault records, repairs and registers
  case faultRecordPost | eventLogAppend | cpMismatch | correctedError | repairStepComplete | repairComplete | planeRemapComplete |
      faultCtlEnable | evlogCtlEnable | repairResolveRemap | repairResolveRelease | repairResolveFail | registerWrite =>
    dsimp only [exec, execFaultRecordPost, execEventLogAppend, execCpMismatch, execCorrectedError, execRepairStepComplete,
      execRepairComplete, execPlaneRemapComplete, execFaultCtlEnable, execEvlogCtlEnable, execRepairResolveRemap,
      execRepairResolveRelease, execRepairResolveFail, execRegisterWrite]
    (repeat' split) <;> exact timeOnward_put ..
  -- page moves and the skim engine
  case moveComplete | moveQuiet | skimPage | skimPassEnd | movePageHoldSet | movePageHoldClear | moveCtlGo | skimCtlGo =>
    dsimp only [exec, execMoveComplete, execMoveQuiet, execSkimPage, execSkimPassEnd, execMovePageHoldSet, execMovePageHoldClear,
      execMoveCtlGo, execSkimCtlGo]
    (repeat' split) <;> exact timeOnward_put ..
  -- host and edges
  case hostWindowRead | hostWindowWrite | hostLinkDown | hostPoisonedCompletion | hostPtmRequest | ulalmMessageReceive | dieLinkFail
      | edgePortTrained =>
    dsimp only [exec, execHostWindowRead, execHostWindowWrite, execHostLinkDown, execHostPoisonedCompletion, execHostPtmRequest,
      execUlalmMessageReceive, execDieLinkFail, execEdgePortTrained]
    (repeat' split) <;> exact timeOnward_put ..
  -- power and temperature
  case powerCapExceed | powerHeadroom | tempHot | tempCool | thermTrip | cluPwrTransitionEnd | spadFailWrite | cluPwrLower |
      cluPwrRaise =>
    dsimp only [exec, execPowerCapExceed, execPowerHeadroom, execTempHot, execTempCool, execThermTrip, execCluPwrTransitionEnd,
      execSpadFailWrite, execCluPwrLower, execCluPwrRaise]
    (repeat' split) <;> exact timeOnward_put ..
  -- parts of a bundle or of a trowel step
  case branchEffect | twEndl | ecWait | ecTmpl =>
    dsimp only [exec, execBranchEffect, execTwEndl, execEcWait, execEcTmpl]
    (repeat' split) <;> exact timeOnward_put ..
  all_goals exact timeOnward_put ..

/-- R387, R388: a row that runs bring-up either finds no cause to, or leaves what bring-up makes of the package with its flash log. -/
theorem exec_runsBringUp {i : Instr} (h : runsBringUp i = true) {s t : State} (run : exec i s = .next t) :
    t = s ∨ ∃ error before, t = bringUp error before ∧ before.pkg.flash = s.pkg.flash := by
  cases i
  case resetNRelease failStep =>
    dsimp only [exec, execResetNRelease] at run
    split at run
    · exact .inr ⟨failStep, s, (Host.Outcome.next.inj run).symm, rfl⟩
    · exact .inl (Host.Outcome.next.inj run).symm
  case pkgResetWrite v =>
    dsimp only [exec, execPkgResetWrite] at run
    split at run
    · exact .inr ⟨_, _, (Host.Outcome.next.inj run).symm, rfl⟩
    · exact .inl (Host.Outcome.next.inj run).symm
  all_goals cases h

/-- What one row does to device time: it goes on or stands still, unless bring-up starts it at 0 (R8, R385). -/
theorem exec_time {i : Instr} {s t : State} (run : exec i s = .next t) :
    s.env.dtime ≤ t.env.dtime ∨ ∃ error before, t = bringUp error before ∧ before.pkg.flash = s.pkg.flash := by
  cases h : runsBringUp i with
  | false => exact .inl ((exec_timeOnward h s).le t run)
  | true =>
    obtain rfl | up := exec_runsBringUp h run
    · exact .inl (Nat.le_refl _)
    · exact .inr up

/-! ### Steps -/

/-- The passage of time before an event (R2, R7). -/
theorem advance_dtime (e : Env) : e.dtime ≤ (advance e).dtime := Nat.le_add_right ..

/-- What a step is, as far as time and the flash log go: one row, from a state that is no earlier and has the same flash log, or a
change that leaves device time no earlier. -/
theorem step_row_or_onward {s t : State} (run : step s = .next t) :
    (∃ i u, exec i u = .next t ∧ s.env.dtime ≤ u.env.dtime ∧ u.pkg.flash = s.pkg.flash) ∨ s.env.dtime ≤ t.env.dtime := by
  unfold step at run
  split at run
  case h_1 m rest _ =>
    cases m with
    | run i => exact .inl ⟨i, _, run, Nat.le_refl _, rfl⟩
    | fire f i => exact .inl ⟨i, _, run, Nat.le_refl _, rfl⟩
    | issue f unit op tmpl =>
      cases run
      exact .inr (Nat.le_refl _)
    | bundle x => exact .inl ⟨_, _, run, Nat.le_refl _, rfl⟩
    | trowel ch =>
      dsimp only at run
      split at run
      · exact .inl ⟨_, _, run, Nat.le_refl _, rfl⟩
      · cases run
  case h_2 =>
    dsimp only at run
    split at run
    · refine .inl ⟨_, _, run, ?_, announce_flash ..⟩
      rw [announce_dtime]
      exact advance_dtime s.env
    · cases run
      exact .inr (advance_dtime s.env)

/-- Settles O57: every step runs a row from a state no earlier than its own, or runs none; and only bring-up starts time anew. -/
theorem timeNeverStepsBack : Obligations.TimeNeverStepsBack := by
  unfold Obligations.TimeNeverStepsBack
  intro T s t hT run
  obtain ⟨i, u, row, later, sameFlash⟩ | later := step_row_or_onward run
  · obtain onward | ⟨error, before, rfl, kept⟩ := exec_time row
    · exact .inl (hT.trans (later.trans onward))
    · exact .inr ⟨rfl, error, before.pkg, rfl, kept.trans sameFlash⟩
  · exact .inl (hT.trans later)

end Sys2Proof.Proofs.DeviceTime

namespace Sys2Proof.Proofs.StorageFrames

open Machine

/-! ### Cores with the same cells

What most operations do to a core leaves its scratchpad, tags, accumulator and line bits as they were; where they do so for every core,
and leave memory and side slots, they leave all storage. -/

/-- Two cores with the same scratchpad, tags, accumulator and line bits. -/
structure SameCells (k l : Core) : Prop where
  spad  : l.spad = k.spad
  tags  : l.tags = k.tags
  acc   : l.acc = k.acc
  lines : l.lines = k.lines

theorem SameCells.rfl {k : Core} : SameCells k k := ⟨Eq.refl _, Eq.refl _, Eq.refl _, Eq.refl _⟩
theorem SameCells.of_eq {k l : Core} (h : l = k) : SameCells k l := h ▸ .rfl
theorem SameCells.trans {k l m : Core} (a : SameCells k l) (b : SameCells l m) : SameCells k m :=
  ⟨b.spad.trans a.spad, b.tags.trans a.tags, b.acc.trans a.acc, b.lines.trans a.lines⟩

theorem SameCells.symm {k l : Core} (h : SameCells k l) : SameCells l k := ⟨h.spad.symm, h.tags.symm, h.acc.symm, h.lines.symm⟩

/-- Two packages with the same memory and side slots, whose cores have the same cells. -/
structure SameParts (p q : Pkg) : Prop where
  mem   : q.mem = p.mem
  side  : q.side = p.side
  cells : ∀ n, SameCells (p.k n) (q.k n)

theorem SameParts.rfl {p : Pkg} : SameParts p p := ⟨Eq.refl _, Eq.refl _, fun _ => .rfl⟩
theorem SameParts.trans {p q r : Pkg} (a : SameParts p q) (b : SameParts q r) : SameParts p r :=
  ⟨b.mem.trans a.mem, b.side.trans a.side, fun n => (a.cells n).trans (b.cells n)⟩

theorem SameParts.symm {p q : Pkg} (h : SameParts p q) : SameParts q p := ⟨h.mem.symm, h.side.symm, fun n => (h.cells n).symm⟩

/-- An update of fields that hold no storage. -/
theorem SameParts.of_fields {p q : Pkg} (mem : q.mem = p.mem) (side : q.side = p.side) (core : q.core = p.core) : SameParts p q :=
  ⟨mem, side, fun n => .of_eq (by rw [Pkg.k, Pkg.k, core])⟩

theorem SameParts.storage {p q : Pkg} (h : SameParts p q) : SameStorage p q where
  mem a := by rw [h.mem]
  side a := by rw [h.side]
  spad n a := by rw [(h.cells n).spad]
  tags n a := by rw [(h.cells n).tags]
  acc n a := by rw [(h.cells n).acc]
  lines n a := by rw [(h.cells n).lines]

/-- Operations that each leave the parts leave them together. -/
theorem SameParts.foldl {α : Type} {f : Pkg → α → Pkg} (h : ∀ p a, SameParts p (f p a)) (as : List α) (p : Pkg) :
    SameParts p (as.foldl f p) := by
  induction as generalizing p with
  | nil => exact .rfl
  | cons a as ih => exact (h p a).trans (ih (f p a))

theorem sameParts_ite {p a b : Pkg} {c : Prop} [Decidable c] (ha : SameParts p a) (hb : SameParts p b) :
    SameParts p (if c then a else b) := by
  split
  · exact ha
  · exact hb

theorem sameParts_modK (p : Pkg) (n : Nat) (f : Core → Core) (h : ∀ k, SameCells k (f k)) : SameParts p (p.modK n f) where
  mem := Eq.refl _
  side := Eq.refl _
  cells m := by
    by_cases hm : m = n
    · subst hm
      rw [Pkg.k_modK_self]
      exact h _
    · exact .of_eq (Pkg.k_modK_of_ne p f hm)

/-- Every core changed alike, a core without an entry too. -/
theorem k_mapCores (p : Pkg) (f : Core → Core) (h : f default = default) (n : Nat) :
    ({ p with core := p.core.map fun q => (q.1, f q.2) } : Pkg).k n = f (p.k n) := NMap.get_map_values f h p.core n

theorem sameParts_mapCores (p : Pkg) (f : Core → Core) (h : f default = default) (keeps : ∀ k, SameCells k (f k)) :
    SameParts p { p with core := p.core.map fun q => (q.1, f q.2) } where
  mem := Eq.refl _
  side := Eq.refl _
  cells n := by
    rw [k_mapCores p f h]
    exact keeps _

theorem sameParts_modStale (p : Pkg) (f : Stale → Stale) : SameParts p (p.modStale f) :=
  sameParts_mapCores p (fun k => { k with stale := k.stale.map f }) (Eq.refl _) fun _ => ⟨Eq.refl _, Eq.refl _, Eq.refl _, Eq.refl _⟩

theorem sameParts_conveyTags (n : Nat) (ws ids : List Nat) (p : Pkg) : SameParts p (conveyTags n ws ids p) :=
  sameParts_ite .rfl (sameParts_modK p n _ fun _ => ⟨Eq.refl _, Eq.refl _, Eq.refl _, Eq.refl _⟩)

theorem sameParts_modC (p : Pkg) (x : Nat) (f : Ctx → Ctx) : SameParts p (p.modC x f) := .of_fields (Eq.refl _) (Eq.refl _) (Eq.refl _)

/-! ### A store of a context performed (R153) -/

/-- What a store makes of a core's cells depends on these alone, not on the number of the write, its node or its context. -/
theorem SameCells.apply {k l : Core} (h : SameCells k l) (n node x n' node' x' : Nat) (st : LStore) :
    SameCells (Core.apply n node x st k) (Core.apply n' node' x' st l) := by
  constructor <;> simp only [Core.apply, h.spad, h.tags, h.acc, h.lines]

theorem sameParts_applyStore (x : Nat) (st : LStore) (p : Pkg) :
    SameParts (p.modK (coreOf x) (Core.apply 0 0 x st)) (applyStore x st p) := by
  obtain ⟨q, same, e⟩ : ∃ q, SameParts p q ∧ applyStore x st p =
      { q.modK (coreOf x) (Core.apply q.nextWrite ((q.c x).node.getD 0) x st) with nextWrite := q.nextWrite + 1 } :=
    ⟨_, (sameParts_ite .rfl (sameParts_modStale p _)).trans (sameParts_conveyTags ..), rfl⟩
  rw [e]
  refine ⟨same.mem, same.side, fun m => ?_⟩
  show SameCells _ ((q.modK _ _).k m)
  by_cases hm : m = coreOf x
  · subst hm
    rw [Pkg.k_modK_self, Pkg.k_modK_self]
    exact (same.cells _).apply ..
  · rw [Pkg.k_modK_of_ne _ _ hm, Pkg.k_modK_of_ne _ _ hm]
    exact same.cells m

end Sys2Proof.Proofs.StorageFrames

namespace Sys2Proof.Proofs.Landing

open Machine StorageFrames

/-! ### What landing makes of the entries in flight (R43, R130) -/

theorem landPort_flight (code : Nat) (v : Val) (c : Ctx) : (landPort code v c).flight = c.flight := by
  unfold landPort
  split <;> rfl

theorem landFixed_flight (c : Ctx) (q : Fixed × Word) : (landFixed c q).flight = c.flight := by
  unfold landFixed
  split <;> rfl

theorem foldl_landFixed_flight (qs : List (Fixed × Word)) (c : Ctx) : (qs.foldl landFixed c).flight = c.flight := by
  induction qs generalizing c with
  | nil => rfl
  | cons q qs ih => rw [List.foldl_cons, ih, landFixed_flight]

theorem landAmax_flight (cand : Option Lane) (c : Ctx) : (landAmax cand c).flight = c.flight := by
  unfold landAmax
  split
  · rfl
  · split <;> rfl

/-- A result lands in ports, flags and registers, and leaves what is in flight. -/
theorem landResult_flight (e : Entry) (c : Ctx) : (landResult e c).flight = c.flight := by
  unfold landResult
  rw [foldl_landFixed_flight, landAmax_flight]
  show Ctx.flight (match e.h with | some _ => _ | none => _) = _
  cases e.h with
  | none =>
    cases e.r with
    | none => rfl
    | some v => exact landPort_flight ..
  | some h =>
    dsimp only
    split <;> rw [landPort_flight] <;> cases e.r with
    | none => rfl
    | some v => exact landPort_flight ..

/-! ### Where no bad store is among those performed (R156) -/

theorem badStore_of_overwrites {k : Core} {c : Ctx} {e : Entry} (h : ∀ st, e.store = some st → st.mode = 0) : badStore k c e = false := by
  unfold badStore
  cases hs : e.store with
  | none => simp
  | some st => simp [h st hs]

theorem badAmong_of_overwrites {x : Nat} {which : Entry → LStore → Bool} {p : Pkg}
    (h : ∀ e ∈ (p.c x).flight, ∀ st, e.store = some st → st.mode = 0) : badAmong x which p = false := by
  simp only [badAmong, List.any_eq_false]
  intro e he
  simp [badStore_of_overwrites (h e he)]

/-- The due entries landed one after the other. -/
def landDue (env : Env) (x : Nat) (p : Pkg) : Pkg := ((p.c x).flight.filter fun e => e.left == 1).foldl (fun p e => landEntry env x e p) p

/-- What is not due stays in flight. -/
def keepUndue (x : Nat) (p : Pkg) : Pkg := p.modC x fun c => { c with flight := c.flight.filter fun e => e.left != 1 }

theorem landAll_of_sound {env : Env} {x : Nat} {p : Pkg} (h : badAmong x (dueStore (p.c x)) p = false) :
    landAll env x p = keepUndue x (landDue env x p) := by
  simp only [landAll, h]
  rfl

theorem landAll_of_bad {env : Env} {x : Nat} {p : Pkg} (h : badAmong x (dueStore (p.c x)) p = true) :
    landAll env x p = keepUndue x (landDue env x ((dropBad x (dueStore (p.c x)) p).modC x fun c => { c with spoiled := true })) := by
  simp only [landAll, h]
  rfl

theorem keepUndue_left_ne (x : Nat) (p : Pkg) : ∀ e ∈ ((keepUndue x p).c x).flight, e.left ≠ 1 := by
  intro e he
  rw [keepUndue, Pkg.c_modC_self] at he
  simpa using (List.mem_filter.1 he).2

/-! ### One entry in flight, due -/

section
variable {env : Env} {x : Nat} {p : Pkg} {e : Entry} (alone : (p.c x).flight = [e]) (due : e.left = 1)
include alone due

theorem landDue_alone : landDue env x p = landEntry env x e p := by
  simp [landDue, alone, due]

theorem landAll_result (kind : e.kind = .result) :
    landAll env x p = (landEntry env x e p).modC x fun c => { c with flight := [] } := by
  have sound : badAmong x (dueStore (p.c x)) p = false := by simp [badAmong, alone, badStore, kind]
  rw [landAll_of_sound sound, landDue_alone alone due]
  simp only [landEntry, kind, keepUndue, Pkg.modC, Pkg.c_setC_self, landResult_flight, alone]
  simp [due]

end

/-! ### A store alone in flight (R153, R156) -/

/-- A store that would combine with an uncorrectable word of the accumulator. -/
def Bad (k : Core) (st : LStore) : Prop := st.mode ≠ 0 ∧ ∃ a ∈ st.acc, k.badAcc.get a.1 = true

section
variable {env : Env} {x : Nat} {p : Pkg} {e : Entry} {st : LStore} (alone : (p.c x).flight = [e]) (due : e.left = 1)
  (kind : e.kind = .store) (open_ : e.done = false) (store : e.store = some st)
include alone due kind open_ store

theorem badAmong_alone : badAmong x (dueStore (p.c x)) p = true ↔ Bad (p.k (coreOf x)) st := by
  simp [badAmong, alone, badStore, kind, open_, store, dueStore, due, Bad, badAfter]

omit due in
/-- A store alone in flight is performed and marked so. -/
theorem landStore_alone : landStore x e p =
    (applyStore x st p).modC x fun c => { c with flight := c.flight.map fun d => if [e].any (fun f => f.order == d.order) then
      { d with done := true } else d } := by
  simp [landStore, store, performWhere, alone, kind, open_]

theorem landAll_store (good : ¬Bad (p.k (coreOf x)) st) :
    ((landAll env x p).c x).flight = [] ∧ SameRegs (p.c x) ((landAll env x p).c x) ∧
      SameStorage (p.modK (coreOf x) (Core.apply 0 0 x st)) (landAll env x p) := by
  have sound : badAmong x (dueStore (p.c x)) p = false :=
    Bool.eq_false_iff.2 fun h => good ((badAmong_alone alone due kind open_ store).1 h)
  obtain ⟨ctx, _⟩ := applyStore_frame x st p
  have same : (applyStore x st p).c x = p.c x := by rw [Pkg.c, Pkg.c, ctx]
  have all : landAll env x p = keepUndue x (landStore x e p) := by
    rw [landAll_of_sound sound, landDue_alone alone due, landEntry, kind]
  rw [all, landStore_alone alone kind open_ store]
  refine ⟨?_, ?_, ?_⟩
  · simp [keepUndue, same, alone, due]
  · rw [keepUndue, Pkg.c_modC_self, Pkg.c_modC_self, same]
    exact ⟨fun _ => rfl, fun _ => rfl, rfl, fun _ => rfl, fun _ => rfl, fun _ => rfl, fun _ => rfl, fun _ => rfl, fun _ => rfl⟩
  · exact ((sameParts_applyStore x st p).trans ((sameParts_modC _ x _).trans (sameParts_modC _ x _))).storage

/-- A bad store writes nothing, and the bundle at hand meets it (log 33). -/
theorem landAll_bad (bad : Bad (p.k (coreOf x)) st) :
    ((landAll env x p).c x).flight = [] ∧ SameRegs (p.c x) ((landAll env x p).c x) ∧
      SameStorage p (landAll env x p) ∧ ((landAll env x p).c x).spoiled = true := by
  have met : badAmong x (dueStore (p.c x)) p = true := (badAmong_alone alone due kind open_ store).2 bad
  have dropped : (badStore (p.k (coreOf x)) (p.c x) e && e.store.any (dueStore (p.c x) e)) = true := by
    simpa [badAmong, alone] using met
  obtain ⟨q, hq⟩ : ∃ q, q = (dropBad x (dueStore (p.c x)) p).modC x (fun c => { c with spoiled := true }) := ⟨_, rfl⟩
  have ctx : q.c x = { p.c x with flight := [{ e with done := true }], spoiled := true } := by
    simp only [hq, dropBad, Pkg.c_modC_self, alone, List.map_cons, List.map_nil, dropped, if_true]
  have still : SameParts p q := by
    rw [hq]
    exact SameParts.trans (by unfold dropBad; exact sameParts_modC ..) (sameParts_modC ..)
  have done_ : (q.c x).flight = [{ e with done := true }] := by rw [ctx]
  have lands : landEntry env x { e with done := true } q = q.modC x fun c => { c with flight := c.flight.map fun d => d } := by
    simp [landEntry, kind, landStore, store, performWhere, done_]
  have all : landAll env x p = keepUndue x (q.modC x fun c => { c with flight := c.flight.map fun d => d }) := by
    rw [landAll_of_bad met, ← hq, landDue_alone done_ due, lands]
  rw [all]
  refine ⟨?_, ?_, ?_, ?_⟩
  · simp [keepUndue, done_, due]
  · rw [keepUndue, Pkg.c_modC_self, Pkg.c_modC_self, ctx]
    exact ⟨fun _ => rfl, fun _ => rfl, rfl, fun _ => rfl, fun _ => rfl, fun _ => rfl, fun _ => rfl, fun _ => rfl, fun _ => rfl⟩
  · exact (still.trans ((sameParts_modC _ x _).trans (sameParts_modC _ x _))).storage
  · simp [keepUndue, ctx]

end

/-- Where nothing is due nothing lands. -/
theorem landAll_undue {env : Env} {x : Nat} {p : Pkg} (h : ∀ e ∈ (p.c x).flight, e.left ≠ 1) : landAll env x p = keepUndue x p := by
  have none_ : ((p.c x).flight.filter fun e => e.left == 1) = [] := List.filter_eq_nil_iff.2 fun e he => by simp [h e he]
  have sound : badAmong x (dueStore (p.c x)) p = false := by
    simp only [badAmong, List.any_eq_false]
    intro e he
    have undue : ∀ st, dueStore (p.c x) e st = false := fun st => by
      simp only [dueStore, Bool.or_eq_false_iff, List.any_eq_false]
      exact ⟨by simp [h e he], fun d hd => by simp [h d hd]⟩
    cases hs : e.store <;> simp [undue]
  rw [landAll_of_sound sound, landDue, none_]
  rfl

theorem keepUndue_undue {x : Nat} {p : Pkg} (h : ∀ e ∈ (p.c x).flight, e.left ≠ 1) (y : Nat) : (keepUndue x p).c y = p.c y := by
  by_cases same : y = x
  · subst same
    have all : ((p.c y).flight.filter fun e => e.left != 1) = (p.c y).flight := List.filter_eq_self.2 fun e he => by simp [h e he]
    rw [keepUndue, Pkg.c_modC_self, all]
  · exact Pkg.c_modC_of_ne _ _ same

/-- Settles O18: landing is `landDue` and then `keepUndue`, but for a bad store, which is dropped first. -/
theorem entriesLand : Obligations.EntriesLand := by
  unfold Obligations.EntriesLand
  intro x s fl k bad
  refine ⟨⟨_, rfl, rfl, keepUndue_left_ne x _⟩, fun overwrites => ?_, fun e alone due kind => ?_, fun e st alone due kind open_ store => ?_,
    fun undue => ?_⟩
  · show s.put (landAll s.env x s.pkg) = _
    rw [landAll_of_sound (badAmong_of_overwrites overwrites)]
    rfl
  · show s.put (landAll s.env x s.pkg) = _
    rw [landAll_result alone due kind]
    rfl
  · by_cases h : bad st
    · obtain ⟨flight, regs, storage, spoiled⟩ := landAll_bad (env := s.env) alone due kind open_ store h
      exact ⟨_, rfl, flight, regs, fun good => absurd h good, fun _ => ⟨storage, spoiled⟩⟩
    · obtain ⟨flight, regs, storage⟩ := landAll_store (env := s.env) alone due kind open_ store h
      exact ⟨_, rfl, flight, regs, fun _ => storage, fun b => absurd b h⟩
  · refine ⟨_, rfl, ?_, ?_⟩
    · show ∀ y, (landAll s.env x s.pkg).c y = _
      rw [landAll_undue undue]
      exact keepUndue_undue undue
    · show SameStorage _ (landAll s.env x s.pkg)
      rw [landAll_undue undue]
      exact (sameParts_modC _ x _).storage

end Sys2Proof.Proofs.Landing

namespace Sys2Proof.Proofs.TriggerFrames

open Machine StorageFrames

/-! ### Triggers that only compute (R43) -/

/-- A row that puts one entry of its context in flight, and does nothing else. -/
def OnlyEnters (i : Instr) : Prop := ∀ s, ∃ e, exec i s = .next (inFlight s.pkg.fire.ctx e s)

/-- The rows of the units that only compute. -/
def computing : List Instr := saOps ++ smOps ++ vfOps ++ viOps ++ sfOps ++ xcOps ++ ckOps

theorem computing_onlyEnters : ∀ i ∈ computing, OnlyEnters i := by
  simp only [computing, saOps, smOps, vfOps, viOps, sfOps, xcOps, ckOps, List.cons_append, List.nil_append, List.forall_mem_cons,
    List.not_mem_nil, false_implies, implies_true, and_true]
  and_intros
  all_goals exact fun _ => ⟨_, rfl⟩

theorem mem_computing {f op : Nat} {i : Instr} (unit : f ≤ 2 ∨ (6 ≤ f ∧ f ≤ 8) ∨ f = 10 ∨ f = 11 ∨ f = 14)
    (h : triggerStep f op = some i) : i ∈ computing := by
  have units : f = 0 ∨ f = 1 ∨ f = 2 ∨ f = 6 ∨ f = 7 ∨ f = 8 ∨ f = 10 ∨ f = 11 ∨ f = 14 := by omega
  rcases units with rfl | rfl | rfl | rfl | rfl | rfl | rfl | rfl | rfl 
  all_goals
    simp only [triggerStep] at h
    simp [computing, List.mem_of_getElem? h]

/-! ### Loads and stores that change nothing at their trigger (R153) -/

/-- A trigger of ls finds its address accepted and no uncorrectable data (R72, R83). -/
structure AcceptedAccess (op : Nat) (s : State) : Prop where
  address : lsOk op s.pkg.fire = true
  sound   : s.pkg.fire.sound = false → lsPoisoned op s.pkg.fire [] s.pkg = false

theorem lsTrigger_accepted {op : Nat} {act : Fire → Pkg → Pkg} {s : State} (h : AcceptedAccess op s) :
    lsTrigger op act s = .next { s with pkg := act s.pkg.fire s.pkg } := by
  have data : (!s.pkg.fire.sound && lsPoisoned op s.pkg.fire [] s.pkg) = false := by
    cases sound : s.pkg.fire.sound with
    | true => rfl
    | false => simp [h.sound sound]
  simp [lsTrigger, h.address, data]

/-- A row of ls whose accepted trigger puts one entry of its context in flight, with the free values drawn that the access may take. -/
def EntersByAccess (op : Nat) (i : Instr) : Prop :=
  ∀ s, AcceptedAccess op s → ∃ e n, exec i s = .next { s with pkg := (addEntry s.pkg.fire.ctx e s.pkg).drawn n }

def plainLoads : List Nat := [0, 1, 2, 3, 15, 21, 23, 24, 31]
/-- The stores, and the loads of an accumulator line, which draw nothing. -/
def plainStores : List Nat := [8, 9, 10, 11, 14, 18, 20, 22, 25, 27, 28, 29, 30]

theorem plainLoads_enter {op : Nat} {i : Instr} (plain : op ∈ plainLoads) (h : lsOps[op]? = some i) : EntersByAccess op i := by
  simp only [plainLoads, List.mem_cons, List.not_mem_nil, or_false] at plain
  rcases plain with rfl | rfl | rfl | rfl | rfl | rfl | rfl | rfl | rfl <;> cases h
  all_goals
    intro s accepted
    dsimp only [exec]
    exact ⟨_, _, lsTrigger_accepted accepted⟩

theorem plainStores_enter {op : Nat} {i : Instr} (plain : op ∈ plainStores) (h : lsOps[op]? = some i) : EntersByAccess op i := by
  simp only [plainStores, List.mem_cons, List.not_mem_nil, or_false] at plain
  rcases plain with rfl | rfl | rfl | rfl | rfl | rfl | rfl | rfl | rfl | rfl | rfl | rfl | rfl <;> cases h
  all_goals
    intro s accepted
    dsimp only [exec]
    exact ⟨_, 0, lsTrigger_accepted accepted⟩

theorem plain_of_lt : ∀ op < 32, op ∉ [4, 5, 6, 7, 12, 13, 16, 17, 19, 26] → op ∈ plainLoads ∨ op ∈ plainStores := by decide

theorem plain_enter {op : Nat} {i : Instr} (plain : op ∉ [4, 5, 6, 7, 12, 13, 16, 17, 19, 26]) (h : lsOps[op]? = some i) :
    EntersByAccess op i := by
  obtain ⟨bound, _⟩ := List.getElem?_eq_some_iff.1 h
  exact (plain_of_lt op bound plain).elim (plainLoads_enter · h) (plainStores_enter · h)

/-! ### Loads that find tags full without consuming them (R80) -/

/-- What noting the order of an access after the writes that tags convey leaves of a package: storage, registers, every other context. -/
structure Acquired (x : Nat) (p q : Pkg) : Prop where
  parts  : SameParts p q
  others : ∀ y, y ≠ x → q.c y = p.c y
  regs   : SameRegs (p.c x) (q.c x)
  pc     : (q.c x).pc = (p.c x).pc
  phase  : (q.c x).phase = (p.c x).phase
  cmds   : q.cmds = p.cmds
  nodes  : q.nodes = p.nodes
  reg    : q.reg = p.reg
  faultq : q.faultq = p.faultq

theorem acquired_acquireTags (x : Nat) (ws : List Nat) (p : Pkg) : Acquired x p (acquireTags x ws p) := by
  unfold acquireTags
  extract_lets last learn ids q
  have noted : Acquired x p q :=
    ⟨sameParts_modStale p learn, fun _ _ => rfl, .refl _, rfl, rfl, rfl, rfl, rfl, rfl⟩
  split
  · exact noted
  · refine ⟨noted.parts.trans (sameParts_modC ..), fun y hy => Pkg.c_modC_of_ne _ _ hy, ?_, ?_, ?_, rfl, rfl, rfl, rfl⟩
    · rw [Pkg.c_modC_self]
      exact ⟨fun _ => rfl, fun _ => rfl, rfl, fun _ => rfl, fun _ => rfl, fun _ => rfl, fun _ => rfl, fun _ => rfl, fun _ => rfl⟩
    · rw [Pkg.c_modC_self]; rfl
    · rw [Pkg.c_modC_self]; rfl

/-- A row of ls whose accepted trigger notes what its tags convey and then puts one entry of its context in flight. -/
def EntersByTags (op : Nat) (i : Instr) : Prop :=
  ∀ s, AcceptedAccess op s → ∃ ws e n,
    exec i s = .next { s with pkg := (addEntry s.pkg.fire.ctx e (acquireTags s.pkg.fire.ctx ws s.pkg)).drawn n }

theorem tagged_enter {op : Nat} {i : Instr} (tagged : op ∈ [4, 6, 16, 26]) (h : lsOps[op]? = some i) : EntersByTags op i := by
  simp only [List.mem_cons, List.not_mem_nil, or_false] at tagged
  rcases tagged with rfl | rfl | rfl | rfl <;> cases h
  all_goals
    intro s accepted
    dsimp only [exec]
    exact ⟨_, _, _, lsTrigger_accepted accepted⟩

/-! ### The frames -/

/-- Draws besides the entry in flight. -/
theorem onlyFlight_drawn {x : Nat} {s t : State} (h : OnlyFlight x s t) (n : Nat) :
    OnlyFlight x s { t with pkg := t.pkg.drawn n } :=
  { h with storage := h.storage.trans (.of_eq rfl rfl rfl) }

/-- The operations of ls0 and of ls1 are the same. -/
theorem triggerStep_ls {f op : Nat} {i : Instr} (unit : f = 4 ∨ f = 5) (h : triggerStep f op = some i) : lsOps[op]? = some i := by
  rcases unit with rfl | rfl <;> exact h

/-- Settles O9: each trigger's row is an entry in flight, of the tagged loads after `acquireTags`. -/
theorem triggersFrame : Obligations.TriggersFrame := by
  unfold Obligations.TriggersFrame
  refine ⟨fun f op i s t unit step run => ?_, fun f op i s t unit step plain ok sound run => ?_,
    fun f op i s t unit step tagged ok sound run => ?_⟩
  · obtain ⟨e, entered⟩ := computing_onlyEnters i (mem_computing unit step) s
    obtain rfl := Host.Outcome.next.inj (entered.symm.trans run)
    exact inFlight_only _ e s
  · obtain ⟨e, n, entered⟩ := plain_enter plain (triggerStep_ls unit step) s ⟨ok, sound⟩
    obtain rfl := Host.Outcome.next.inj (entered.symm.trans run)
    exact onlyFlight_drawn (inFlight_only _ e s) n
  · intro x
    obtain ⟨ws, e, n, entered⟩ := tagged_enter tagged (triggerStep_ls unit step) s ⟨ok, sound⟩
    obtain rfl := Host.Outcome.next.inj (entered.symm.trans run)
    have noted := acquired_acquireTags x ws s.pkg
    have enters := inFlight_only x e { s with pkg := acquireTags x ws s.pkg }
    exact ⟨rfl, noted.parts.storage.trans (enters.storage.trans (.of_eq rfl rfl rfl)), noted.regs.trans enters.regs,
      enters.pc.trans noted.pc, enters.phase.trans noted.phase, fun y hy => (enters.others y hy).trans (noted.others y hy),
      noted.cmds, noted.nodes, noted.reg, noted.faultq⟩

end Sys2Proof.Proofs.TriggerFrames

namespace Sys2Proof.Proofs.Scheduling

open Machine

/-! ### The context of the highest priority (R41, rule 2) -/

/-- Rule 2's choice between the best context so far and the next one of the rotation. -/
def better (p : Pkg) : Option Nat → Nat → Option Nat
  | none, x => some x
  | some y, x => if p.priority y < p.priority x then some x else some y

theorem firstOf_eq_foldl (p : Pkg) (n : Nat) (ok : Nat → Bool) :
    firstOf p n ok = ((Machine.rotation (p.k n) n).filter ok).foldl (better p) none := by
  unfold firstOf
  congr 1
  funext best x
  cases best <;> rfl

/-- From a context on, the choice is a context of the list or that one, with no priority above its own. -/
theorem foldl_better_some (p : Pkg) (xs : List Nat) (b : Nat) :
    ∃ x, xs.foldl (better p) (some b) = some x ∧ (x = b ∨ x ∈ xs) ∧ p.priority b ≤ p.priority x ∧
      ∀ y ∈ xs, p.priority y ≤ p.priority x := by
  induction xs generalizing b with
  | nil => exact ⟨b, rfl, .inl rfl, Nat.le_refl _, by simp⟩
  | cons a xs ih =>
    rw [List.foldl_cons, better]
    split
    case isTrue less =>
      obtain ⟨x, chosen, among, above, best⟩ := ih a
      refine ⟨x, chosen, .inr ?_, by omega, fun y hy => ?_⟩
      · rcases among with rfl | among
        · exact List.mem_cons_self ..
        · exact List.mem_cons_of_mem _ among
      · rcases List.mem_cons.1 hy with rfl | hy
        · exact above
        · exact best y hy
    case isFalse notLess =>
      obtain ⟨x, chosen, among, above, best⟩ := ih b
      refine ⟨x, chosen, among.imp id (List.mem_cons_of_mem _), above, fun y hy => ?_⟩
      rcases List.mem_cons.1 hy with rfl | hy
      · omega
      · exact best y hy

/-- The rotation runs over the contexts of its core, each of them. -/
theorem mem_rotation {k : Core} {n y : Nat} : y ∈ Machine.rotation k n ↔ coreOf y = n := by
  simp only [Machine.rotation, coreOf, List.mem_map, List.mem_range]
  constructor
  · rintro ⟨i, hi, rfl⟩
    omega
  · intro h
    exact ⟨(y % 4 + 4 - (k.last + 1) % 4) % 4, by omega, by omega⟩

theorem firstOf_some {p : Pkg} {n x : Nat} {ok : Nat → Bool} (h : firstOf p n ok = some x) :
    ok x ∧ coreOf x = n ∧ ∀ y, coreOf y = n → ok y → p.priority y ≤ p.priority x := by
  rw [firstOf_eq_foldl] at h
  have candidates : ∀ y, y ∈ (Machine.rotation (p.k n) n).filter ok ↔ coreOf y = n ∧ ok y := fun y => by
    rw [List.mem_filter, mem_rotation]
  revert h candidates
  cases (Machine.rotation (p.k n) n).filter ok with
  | nil => intro h; cases h
  | cons a xs =>
    intro h candidates
    obtain ⟨z, chosen, among, above, best⟩ := foldl_better_some p xs a
    obtain rfl : z = x := Option.some.inj (chosen.symm.trans h)
    obtain ⟨home, passes⟩ := (candidates z).1 (List.mem_cons.2 among)
    refine ⟨passes, home, fun y hy oky => ?_⟩
    rcases List.mem_cons.1 ((candidates y).2 ⟨hy, oky⟩) with rfl | hy
    · exact above
    · exact best y hy

theorem firstOf_none {p : Pkg} {n : Nat} {ok : Nat → Bool} (h : firstOf p n ok = none) (y : Nat) (hy : coreOf y = n) : ok y = false := by
  rw [firstOf_eq_foldl] at h
  by_contra passes
  have candidate : y ∈ (Machine.rotation (p.k n) n).filter ok := List.mem_filter.2 ⟨mem_rotation.2 hy, by simpa using passes⟩
  revert h candidate
  cases (Machine.rotation (p.k n) n).filter ok with
  | nil => intro _ h; cases h
  | cons a xs =>
    intro h
    obtain ⟨z, chosen, _⟩ := foldl_better_some p xs a
    cases chosen.symm.trans h

/-! ### What a core's rules make of the choice (R41) -/

section
variable {p : Pkg} {n x r : Nat}

theorem agedRunning_eq_some (run : (p.k n).running = some x) (aged : 1024 ≤ (p.c x).waited) : agedRunning p n = some x := by
  simp [agedRunning, run, Option.filter, aged]

theorem agedRunning_eq_none (h : ∀ x, (p.k n).running = some x → (p.c x).waited < 1024) : agedRunning p n = none := by
  unfold agedRunning
  cases run : (p.k n).running with
  | none => rfl
  | some x => simpa [Option.filter] using h x run

/-- The quantum register of a core, as the statements write its address. -/
theorem quantumOf_eq : quantumOf p n = bits (p.regv (0x01000008 + 0x1000 * n)) 8 0 := by
  rw [quantumOf, show coreReg n 0x008 = 0x01000008 + 0x1000 * n by unfold coreReg; omega]

theorem wdogInterval_eq : wdogInterval p n = p.regv (0x01000010 + 0x1000 * n) := by
  rw [wdogInterval, show coreReg n 0x010 = 0x01000010 + 0x1000 * n by unfold coreReg; omega]

theorem chooseCtx_agedRunning (h : agedRunning p n = some x) : chooseCtx n p = (some x, p) := by
  simp [chooseCtx, h]

theorem chooseCtx_aged (h : agedRunning p n = none) (aged : agedCtx p n = some x) : chooseCtx n p = (some x, giveIssue n x p) := by
  simp [chooseCtx, h, aged]

/-- Whether a context outranks the running one and is ready (R41, rule 4). -/
def outranks (p : Pkg) (r x : Nat) : Bool := isReady p x && decide (p.priority r < p.priority x)

section
variable (h : agedRunning p n = none) (young : agedCtx p n = none)
include h young

theorem chooseCtx_keeps (run : (p.k n).running = some r) (due : (p.k n).quantum < quantumOf p n)
    (none_ : firstOf p n (outranks p r) = none) : chooseCtx n p = (some r, p) := by
  have undue : quantumDue p n = false := by simp [quantumDue, due]
  have top : firstOf p n (fun x => isReady p x && decide (p.priority r < p.priority x)) = none := none_
  simp [chooseCtx, h, young, undue, run, top]

theorem chooseCtx_displaced (run : (p.k n).running = some r) (due : (p.k n).quantum < quantumOf p n)
    (some_ : firstOf p n (outranks p r) = some x) : chooseCtx n p = (some x, giveIssue n x p) := by
  have undue : quantumDue p n = false := by simp [quantumDue, due]
  have top : firstOf p n (fun x => isReady p x && decide (p.priority r < p.priority x)) = some x := some_
  simp [chooseCtx, h, young, undue, run, top]

theorem chooseCtx_taken (idle : (p.k n).running = none) (top : firstOf p n (isReady p) = some x) :
    chooseCtx n p = (some x, giveIssue n x p) := by
  simp [chooseCtx, h, young, quantumDue, idle, top]

theorem chooseCtx_holds (idle : (p.k n).running = none) (none_ : firstOf p n (isReady p) = none) : chooseCtx n p = (none, p) := by
  simp [chooseCtx, h, young, quantumDue, idle, none_]

end
end

/-! ### The chosen context's next bundle -/

/-- Nothing is due at the next bundle of a context, which can be fetched and does not block. -/
structure Clear (env : Env) (q : Pkg) (x : Nat) : Prop where
  branch : dueBranch (q.c x) = none
  halt   : dueHalt (q.c x) = none
  fetch  : (q.c x).pc < 0x800000
  open_  : nextBlocks env x q = none

theorem nextIssue_of_clear {env : Env} {q : Pkg} {x : Nat} (n : Nat) (h : Clear env q x) :
    nextIssue env n x q = q.push [.run (.entryLanding x), .bundle x] := by
  have inside : ¬spadSize ≤ (q.c x).pc := Nat.not_le.2 h.fetch
  simp [nextIssue, h.branch, h.halt, inside, h.open_]

section
variable {n : Nat} {s : State} (core : n < 72) (on : s.pkg.powerOf n = 0)
include core on

theorem exec_contextChoose_of_chosen {q : Pkg} {x : Nat} (h : chooseCtx n (wakeBlocked s.env n s.pkg) = (some x, q)) :
    exec (.contextChoose n) s = .next { s with pkg := nextIssue s.env n x q } := by
  simp [exec, execContextChoose, core, on, h]

theorem exec_contextChoose_of_none {q : Pkg} (h : chooseCtx n (wakeBlocked s.env n s.pkg) = (none, q)) :
    exec (.contextChoose n) s = .next { s with pkg := q } := by
  simp [exec, execContextChoose, core, on, h]

theorem exec_contextChoose_of_clear {q : Pkg} {x : Nat} (h : chooseCtx n (wakeBlocked s.env n s.pkg) = (some x, q))
    (clear : Clear s.env q x) :
    exec (.contextChoose n) s = .next { s with pkg := q.push [.run (.entryLanding x), .bundle x] } := by
  rw [exec_contextChoose_of_chosen core on h, nextIssue_of_clear n clear]

end

/-! ### Blocked contexts that wake (R39) -/

/-- One context's turn: it wakes where it is blocked and its next bundle can issue. -/
def wakeOne (env : Env) (p : Pkg) (x : Nat) : Pkg :=
  if (p.c x).phase = .blocked ∧ (nextBlocks env x p).isNone then readyCtx env x p else p

theorem wakeBlocked_eq_foldl (env : Env) (n : Nat) (p : Pkg) :
    wakeBlocked env n p = ((List.range 4).map (4 * n + ·)).foldl (wakeOne env) p := by
  rw [List.foldl_map]
  rfl

theorem foldl_wakeOne_idle {env : Env} {p : Pkg} {xs : List Nat} (h : ∀ y ∈ xs, (p.c y).phase ≠ .blocked) :
    xs.foldl (wakeOne env) p = p := by
  induction xs with
  | nil => rfl
  | cons y ys ih =>
    have still : wakeOne env p y = p := if_neg fun w => h y (List.mem_cons_self ..) w.1
    rw [List.foldl_cons, still, ih fun z hz => h z (List.mem_cons_of_mem _ hz)]

theorem readyCtx_phase_ne_blocked {env : Env} {p : Pkg} {x y : Nat} (h : y ≠ x → (p.c y).phase ≠ .blocked) :
    ((readyCtx env x p).c y).phase ≠ .blocked := by
  by_cases same : y = x
  · subst same
    simp [readyCtx]
  · rw [readyCtx, Pkg.c_modC_of_ne _ _ same]
    exact h same

/-- Where at most one context is blocked, it alone has a turn that changes anything. -/
theorem foldl_wakeOne_one {env : Env} {p : Pkg} {x : Nat} {xs : List Nat} (mem : x ∈ xs)
    (others : ∀ y ∈ xs, y ≠ x → (p.c y).phase ≠ .blocked) : xs.foldl (wakeOne env) p = wakeOne env p x := by
  induction xs with
  | nil => cases mem
  | cons y ys ih =>
    have rest : ∀ z ∈ ys, z ≠ x → (p.c z).phase ≠ .blocked := fun z hz => others z (List.mem_cons_of_mem _ hz)
    rw [List.foldl_cons]
    by_cases same : y = x
    · subst same
      by_cases wakes : (p.c y).phase = .blocked ∧ (nextBlocks env y p).isNone
      · have woken : wakeOne env p y = readyCtx env y p := if_pos wakes
        rw [woken]
        exact foldl_wakeOne_idle fun z hz => readyCtx_phase_ne_blocked (rest z hz)
      · have still : wakeOne env p y = p := if_neg wakes
        rw [still]
        by_cases again : y ∈ ys
        · rw [ih again rest, still]
        · exact foldl_wakeOne_idle fun z hz => rest z hz fun e => again (e ▸ hz)
    · have still : wakeOne env p y = p := if_neg fun w => others y (List.mem_cons_self ..) same w.1
      rw [still]
      exact ih ((List.mem_cons.1 mem).resolve_left (Ne.symm same)) rest

theorem wakeBlocked_one {env : Env} {p : Pkg} {n x : Nat} (home : coreOf x = n)
    (others : ∀ y, coreOf y = n → y ≠ x → (p.c y).phase ≠ .blocked) : wakeBlocked env n p = wakeOne env p x := by
  have mem : ∀ y, y ∈ (List.range 4).map (4 * n + ·) ↔ coreOf y = n := fun y => by
    simp only [List.mem_map, List.mem_range, coreOf]
    exact ⟨fun ⟨i, hi, e⟩ => by omega, fun h => ⟨y % 4, by omega, by omega⟩⟩
  rw [wakeBlocked_eq_foldl]
  exact foldl_wakeOne_one ((mem x).2 home) fun y hy => others y ((mem y).1 hy)

/-- A context that becomes ready from a block, with the clock cycles of the block counted (R309). -/
theorem readyCtx_of_blocked {env : Env} {p : Pkg} {x : Nat} (h : (p.c x).phase = .blocked) :
    readyCtx env x p =
      p.modC x fun c => { c with phase := .ready, watchdog := c.watchdog + (env.clock - c.blockedAt), waited := 0 } := by
  simp [readyCtx, Pkg.modC, watchdogCount, h]

/-- Settles O22: the choice follows `chooseCtx`'s cases, rule 2 is a maximum over the rotation, and waking is a fold over the four
contexts of the core. -/
theorem coresChoose : Obligations.CoresChoose := by
  unfold Obligations.CoresChoose
  refine ⟨?_, fun p n ok => ⟨fun x h => firstOf_some h, fun h => firstOf_none h⟩, ?_⟩
  · intro n s p clear takes higher first core on
    have goes : ∀ {q : Pkg} {x : Nat}, chooseCtx n p = (some x, q) → takes q x := fun chosen ⟨branch, halt, fetch, open_⟩ =>
      exec_contextChoose_of_clear core on chosen ⟨branch, halt, fetch, open_⟩
    refine ⟨fun x ⟨run, aged⟩ => goes (chooseCtx_agedRunning (agedRunning_eq_some run aged)), fun fresh => ?_⟩
    have notAged : agedRunning p n = none := agedRunning_eq_none fun x run => Nat.lt_of_not_le fun aged => fresh x ⟨run, aged⟩
    refine ⟨fun x aged => goes (chooseCtx_aged notAged aged), fun young => ⟨fun r run due => ?_, fun idle => ?_⟩⟩
    · rw [← quantumOf_eq] at due
      exact ⟨fun h => goes (chooseCtx_keeps notAged young run due h), fun x h => goes (chooseCtx_displaced notAged young run due h)⟩
    · exact ⟨fun h => exec_contextChoose_of_none core on (chooseCtx_holds notAged young idle h),
        fun x h => goes (chooseCtx_taken notAged young idle h)⟩
  · intro env p n x home others q
    have one : q = wakeOne env p x := wakeBlocked_one home others
    refine ⟨fun blocked open_ => ?_, fun stays => ?_⟩
    · rw [one, wakeOne, if_pos ⟨blocked, by rw [open_]; rfl⟩, readyCtx_of_blocked blocked]
    · rw [one, wakeOne, if_neg]
      rintro ⟨blocked, open_⟩
      exact stays.elim (fun h => h blocked) fun h => h (by simpa using open_)

/-- Settles O23, event by event. -/
theorem schedulingEvents : Obligations.SchedulingEvents := by
  unfold Obligations.SchedulingEvents
  intro n x s p goes
  refine ⟨?_, ⟨?_, ?_⟩, ?_, ?_⟩
  · intro r y run due next
    have quantum : quantumDue p n = true := by simp [quantumDue, run, quantumOf_eq, due]
    have pass : passQuantum n p = giveIssue n y p := by simp [passQuantum, run, next]
    show execQuantumExpiry n s = _
    rw [execQuantumExpiry, if_pos quantum, pass]
    rfl
  · intro y aged young
    have ctx : agedCtx p n = some y := aged
    show execAgingExpiry n s = _
    simp [execAgingExpiry, agedRunning_eq_none young, ctx, p]
  · intro r run aged
    show execAgingExpiry n s = _
    simp [execAgingExpiry, agedRunning_eq_some run aged, p]
  · intro asleep due
    show execSleepWake x s = _
    rw [execSleepWake, if_pos ⟨asleep, due⟩]
    rfl
  · intro w u blocked on due next
    have count : watchdogCount s.env (p.c x) = (p.c x).watchdog + (s.env.clock - (p.c x).blockedAt) := if_pos blocked
    show execWaitTimeout x s = _
    simp only [execWaitTimeout]
    rw [if_pos ⟨blocked, by rw [wdogInterval_eq]; exact on, by rw [wdogInterval_eq]; exact count ▸ due⟩, next]
    rfl

end Sys2Proof.Proofs.Scheduling

namespace Sys2Proof.Proofs.Completion

open Machine StorageFrames

/-! ### What the operations of a completion change (R340, R348, R379)

Each lemma lists the fields that an operation may change: all others are those of the package it acts on. -/

theorem foldl_emit_eq {α : Type} (m : Pkg → α → OutMsg) (as : List α) (p : Pkg) :
    ∃ o, as.foldl (fun q a => emit (m q a) q) p = { p with out := o } := by
  induction as generalizing p with
  | nil => exact ⟨p.out, rfl⟩
  | cons a as ih => exact ih (emit (m p a) p)

theorem gangSay_eq (n : Node) (word tick : Nat) (p : Pkg) : ∃ o, gangSay n word tick p = { p with out := o } := foldl_emit_eq _ _ p

theorem sendVector_eq (v : Nat) (p : Pkg) : ∃ vs o, sendVector v p = { p with pendingVec := vs, out := o } := by
  unfold sendVector
  split <;> exact ⟨_, _, rfl⟩

/-- The host's part of a ring may be lost with its link, which HOST_STAT counts (R382). -/
theorem ringWrite_eq (a : Nat) (bs : List Byte) (p : Pkg) : ∃ r m b, ringWrite a bs p = { p with reg := r, mem := m, badSector := b } := by
  unfold ringWrite
  split
  · exact ⟨_, _, _, rfl⟩
  · split <;> exact ⟨_, _, _, rfl⟩

theorem joinHub_eq (dtime node k : Nat) (p : Pkg) :
    ∃ q g f, joinHub dtime node k p = { p with faultq := q, nextGroup := g, failed := f } := by
  unfold joinHub Eng.joinPlane
  split
  · exact ⟨_, _, _, rfl⟩
  · dsimp only
    split <;> exact ⟨_, _, _, rfl⟩

/-- A completion record written: its queue's completion pointer goes on by one (R341). -/
theorem writeCompletion_eq (dtime : Nat) (o : Owed) (p : Pkg) : ∃ r m b l vs out,
    writeCompletion dtime o p = { p with reg := r, mem := m, badSector := b, logq := l, pendingVec := vs, out := out } ∧
      (r.get (queueReg (o.id / 2 ^ 48) 0x28)).toNat = ((p.queue (o.id / 2 ^ 48)).cplTail + 1) % 2 ^ 32 := by
  obtain ⟨r, m, b, ring⟩ := ringWrite_eq (completionSlot p (o.id / 2 ^ 48)) o.bytes p
  obtain ⟨tail, bound⟩ : ∃ tail, tail = ((p.queue (o.id / 2 ^ 48)).cplTail + 1) % 2 ^ 32 := ⟨_, rfl⟩
  obtain ⟨vs, out, sent⟩ := sendVector_eq (1024 * (p.queue (o.id / 2 ^ 48)).fn + o.id / 2 ^ 48)
    (logEvent ⟨dtime, 3, o.id, o.word⟩ ({ p with reg := r, mem := m, badSector := b }.setReg (queueReg (o.id / 2 ^ 48) 0x28) tail))
  refine ⟨r.set (queueReg (o.id / 2 ^ 48) 0x28) (BitVec.ofNat 64 tail), m, b, p.logq ++ [⟨dtime, 3, o.id, o.word⟩], vs, out, ?_, ?_⟩
  · unfold writeCompletion
    dsimp only
    rw [ring, ← bound, sent]
    rfl
  · rw [NMap.get_set_self, BitVec.toNat_ofNat, ← bound]
    omega

/-- A completion record has to wait: a failed plane keeps its place, or one of its queue waits before it (R363). -/
def Waits (p : Pkg) (q : Nat) : Prop := (Eng.failedAt p (completionSlot p q)).isSome ∨ ∃ e ∈ p.owed, e.id / 2 ^ 48 = q

theorem waits_iff {p : Pkg} {q : Nat} : (completionHeld p q || p.owed.any fun e => e.id / 2 ^ 48 == q) = true ↔ Waits p q := by
  simp [completionHeld, Waits]

section
variable (dtime id status reason rollbacks detail : Nat) (p : Pkg)

theorem postCompletion_now (free : ¬Waits p (id / 2 ^ 48)) : ∃ r m b l vs out,
    postCompletion dtime id status reason rollbacks detail p =
        { p with reg := r, mem := m, badSector := b, logq := l, pendingVec := vs, out := out } ∧
      (r.get (queueReg (id / 2 ^ 48) 0x28)).toNat = ((p.queue (id / 2 ^ 48)).cplTail + 1) % 2 ^ 32 := by
  unfold postCompletion
  extract_lets bs o q
  rw [if_neg fun h => free (waits_iff.1 h)]
  exact writeCompletion_eq dtime o p

theorem postCompletion_waits (waits : Waits p (id / 2 ^ 48)) : ∃ (o : Owed) (q : List FaultRec) (g : Nat) (f : List FailedPlane),
    postCompletion dtime id status reason rollbacks detail p =
        { p with owed := p.owed ++ [o], faultq := q, nextGroup := g, failed := f } ∧ o.id = id := by
  unfold postCompletion
  extract_lets bs o q
  rw [if_pos (waits_iff.2 waits)]
  obtain ⟨r, g, f, joined⟩ := joinHub_eq dtime id (completionSlot p q) { p with owed := p.owed ++ [o] }
  exact ⟨o, r, g, f, joined, rfl⟩

end

/-! ### A node's end (R113, R348) -/

theorem addShare_eq (h : Share) (p : Pkg) : ∃ s a, addShare h p = { p with shares := s, arrivals := a } := by
  unfold addShare
  dsimp only
  split <;> exact ⟨_, _, rfl⟩

theorem endShare_eq (node : Nat) (p : Pkg) : ∃ s a o, endShare node p = { p with shares := s, arrivals := a, out := o } := by
  unfold endShare
  dsimp only
  split
  · exact ⟨_, _, _, rfl⟩
  · obtain ⟨o, told⟩ := foldl_emit_eq (fun (_ : Pkg) (k : Nat) => OutMsg.message k _) _ p
    rw [told]
    obtain ⟨s, a, added⟩ := addShare_eq _ { p with out := o }
    exact ⟨s, a, o, added⟩

/-- What a package keeps that only does without some of its lines, shares, words and notices: all that a completion reads. -/
structure SameHub (p q : Pkg) : Prop where
  reg    : q.reg = p.reg
  failed : q.failed = p.failed
  owed   : q.owed = p.owed
  ctx    : q.ctx = p.ctx
  nodes  : q.nodes = p.nodes
  parts  : SameParts p q

theorem SameHub.trans {p q r : Pkg} (a : SameHub p q) (b : SameHub q r) : SameHub p r :=
  ⟨b.reg.trans a.reg, b.failed.trans a.failed, b.owed.trans a.owed, b.ctx.trans a.ctx, b.nodes.trans a.nodes, a.parts.trans b.parts⟩

theorem sameHub_ite {p a b : Pkg} {c : Prop} [Decidable c] (ha : SameHub p a) (hb : SameHub p b) :
    SameHub p (if c then a else b) := by
  split
  · exact ha
  · exact hb

theorem sameHub_gangSay (n : Node) (word tick : Nat) (p : Pkg) : SameHub p (gangSay n word tick p) := by
  obtain ⟨o, said⟩ := gangSay_eq n word tick p
  rw [said]
  exact ⟨rfl, rfl, rfl, rfl, rfl, .of_fields rfl rfl rfl⟩

theorem sameHub_endShare (node : Nat) (p : Pkg) : SameHub p (endShare node p) := by
  obtain ⟨s, a, o, ended⟩ := endShare_eq node p
  rw [ended]
  exact ⟨rfl, rfl, rfl, rfl, rfl, .of_fields rfl rfl rfl⟩

theorem sameHub_releaseNode (node : Nat) (p : Pkg) : SameHub p (releaseNode node p) := by
  have conveyed (q : Pkg) : SameParts q (conveyNode node q) := sameParts_modStale q _
  exact ⟨rfl, rfl, rfl, rfl, rfl, SameParts.trans (.of_fields rfl rfl rfl) ((conveyed _).trans (.of_fields rfl rfl rfl))⟩

/-! ### A part's end (R35) -/

theorem acknowledge_eq (nid : Nat) (p : Pkg) : ∃ ns cs o, acknowledge nid p = { p with notices := ns, cmds := cs, out := o } := by
  unfold acknowledge
  split
  · dsimp only
    split <;> exact ⟨_, _, _, rfl⟩
  · exact ⟨_, _, _, rfl⟩

theorem foldl_acknowledge_eq (ns : List Notice) (p : Pkg) :
    ∃ ms cs o, ns.foldl (fun q m => acknowledge m.id q) p = { p with notices := ms, cmds := cs, out := o } := by
  induction ns generalizing p with
  | nil => exact ⟨_, _, _, rfl⟩
  | cons n ns ih =>
    obtain ⟨ms, cs, o, first⟩ := acknowledge_eq n.id p
    obtain ⟨ms', cs', o', rest⟩ := ih (acknowledge n.id p)
    rw [List.foldl_cons, rest, first]
    exact ⟨_, _, _, rfl⟩

theorem sameParts_modNode (p : Pkg) (id : Nat) (f : Node → Node) : SameParts p (p.modNode id f) := .of_fields rfl rfl rfl

theorem leaveCore_frame (node core : Nat) (p : Pkg) :
    (leaveCore node core p).ctx = p.ctx ∧ (leaveCore node core p).nodes = p.nodes ∧ SameParts p (leaveCore node core p) := by
  unfold leaveCore
  split
  · exact ⟨rfl, rfl, .rfl⟩
  · extract_lets q ns
    obtain ⟨ms, cs, o, told⟩ := foldl_acknowledge_eq ns q
    have image : SameParts p q := sameParts_modK p core _ fun _ => ⟨rfl, rfl, rfl, rfl⟩
    rw [told]
    exact ⟨rfl, rfl, image.trans (.of_fields rfl rfl rfl)⟩

theorem afterParts_frame (node : Nat) (p : Pkg) :
    (afterParts node p).ctx = p.ctx ∧ ((afterParts node p).node node).ended = (p.node node).ended ∧ SameParts p (afterParts node p) := by
  unfold afterParts
  dsimp only
  split
  · refine ⟨rfl, ?_, .of_fields rfl rfl rfl⟩
    rw [Pkg.node_modNode_self]
  · exact ⟨rfl, rfl, .rfl⟩

theorem sameCells_ite {k a b : Core} {c : Prop} [Decidable c] (ha : SameCells k a) (hb : SameCells k b) :
    SameCells k (if c then a else b) := by
  split
  · exact ha
  · exact hb

theorem sameParts_unbindCtx (x : Nat) (p : Pkg) : SameParts p (unbindCtx x p) :=
  SameParts.trans (sameParts_modC p x _) (sameParts_modK _ (coreOf x)
    (fun k => if k.running = some x then { k with running := none, quantum := 0 } else k)
    fun _ => sameCells_ite ⟨rfl, rfl, rfl, rfl⟩ .rfl)

/-- A part's end unbinds its context, whose registers and count stay, and its node knows the part as ended. -/
theorem endPart_frame (x node : Nat) (p : Pkg) :
    (endPart x node p).c x = (unbindCtx x p).c x ∧
      ((endPart x node p).node node).ended = (p.node node).ended ++ [(p.c x).part] ∧ SameParts p (endPart x node p) := by
  unfold endPart
  extract_lets part bad known q r
  obtain ⟨ctx, nodes, left⟩ := leaveCore_frame node (coreOf x) r
  obtain ⟨ctx', ended, after⟩ := afterParts_frame node (leaveCore node (coreOf x) r)
  refine ⟨?_, ?_, ?_⟩
  · rw [Pkg.c, ctx', ctx]
    rfl
  · rw [ended, Pkg.node, nodes]
    exact congrArg Node.ended (Pkg.node_modNode_self ..)
  · have unbound : SameParts p q := ((sameParts_modStale p _).trans (sameParts_unbindCtx x _)).trans (.of_fields rfl rfl rfl)
    have known : SameParts q r := .of_fields rfl rfl rfl
    exact unbound.trans (known.trans (left.trans after))

/-- What a context keeps at its unbinding. -/
theorem unbindCtx_self (x : Nat) (p : Pkg) :
    ((unbindCtx x p).c x).phase = .unbound ∧ ((unbindCtx x p).c x).node = none ∧ ((unbindCtx x p).c x).cursor = (p.c x).cursor ∧
      ((unbindCtx x p).c x).seq = (p.c x).seq ∧ ((unbindCtx x p).c x).s = (p.c x).s := by
  unfold unbindCtx
  dsimp only
  rw [show ∀ (q : Pkg) f, (q.modK (coreOf x) f).c x = q.c x from fun _ _ => rfl, Pkg.c_modC_self]
  exact ⟨rfl, rfl, rfl, rfl, rfl⟩

theorem exec_partEnd {x id : Nat} {s : State} (draining : (s.pkg.c x).phase = .draining) (drained : s.pkg.cmdsOf x = [])
    (written : (s.pkg.c x).sysq = []) (node : (s.pkg.c x).node = some id) :
    exec (.partEnd x) s = .next { s with pkg := endPart x id s.pkg } := by
  show execPartEnd x s = _
  simp [execPartEnd, draining, drained, written, node]

/-! ### NODE_COMMIT of a node with no page to replace (R349) -/

/-- A unit's read that reads nothing leaves the package as it is. -/
theorem unitRead_nothing {α : Type} (env : Env) (asid node core : Nat) (a : α) (p : Pkg) :
    unitRead env asid node core (pure a) p = .ok a p := by
  show UnitRead.ok a { p with ctx := p.ctx, faultq := p.faultq.take _ ++ (p.faultq.drop _).map _ } = _
  rw [List.take_length, List.drop_length, List.map_nil, List.append_nil]

theorem commitPlaces_nil {n : Node} (h : n.stage = []) : commitPlaces n = pure [] := by
  rw [commitPlaces, h, List.mapM_nil]

section
variable {id : Nat} {s : State} (live : s.pkg.live id = true)
include live

theorem exec_nodeCommit_unseen (committing : (s.pkg.node id).phase = .committing) (free : nodeHeld s.pkg id 301 = false)
    (unseen : (s.pkg.node id).unseen.isSome = true) :
    exec (.nodeCommit id) s = .next { s with pkg := rollback s.env id s.pkg } := by
  show execNodeCommit id s = _
  simp [execNodeCommit, live, committing, free, unseen]

theorem exec_nodeCommit_nil (committing : (s.pkg.node id).phase = .committing) (free : nodeHeld s.pkg id 301 = false)
    (unseen : (s.pkg.node id).unseen = none) (stage : (s.pkg.node id).stage = []) :
    exec (.nodeCommit id) s =
      .next { s with pkg := s.pkg.modNode id fun n => { n with stage := [], phase := .ending } } := by
  show execNodeCommit id s = _
  simp [execNodeCommit, live, committing, free, unseen, commitPlaces_nil stage, unitRead_nothing]

/-! ### NODE_COMPLETE (R113, R348) -/

theorem exec_nodeComplete (ending : (s.pkg.node id).phase = .ending)
    (place : Eng.failedAt s.pkg (completionSlot s.pkg (id / 2 ^ 48)) = none) :
    ∃ status reason rollbacks detail early, ∃ q, SameHub s.pkg q ∧ exec (.nodeComplete id) s = .next { s with
      pkg := postCompletion s.env.dtime id status reason rollbacks detail { q with nodes := q.nodes.erase id, early := early } } := by
  show ∃ status reason rollbacks detail early, ∃ q, _ ∧ execNodeComplete id s = _
  unfold execNodeComplete
  extract_lets p n o q q'
  rw [if_pos ⟨live, ending, Option.isNone_iff_eq_none.2 place⟩]
  have ended : SameHub p q := (sameHub_releaseNode id p).trans (sameHub_endShare id _)
  exact ⟨_, _, _, _, _, q', sameHub_ite (ended.trans (sameHub_gangSay n 2 0 q)) ended, rfl⟩

end

theorem SameHub.queue {p q : Pkg} (hub : SameHub p q) (n : Nat) : q.queue n = p.queue n := by
  rw [Pkg.queue, Pkg.queue]
  unfold Pkg.regv
  rw [hub.reg]

theorem SameHub.waits {p q : Pkg} (hub : SameHub p q) (n : Nat) : Waits q n ↔ Waits p n := by
  unfold Waits Eng.failedAt completionSlot
  rw [hub.queue, hub.failed, hub.owed]

/-- With nothing of a failed plane in its way, the record of a node's completion is written, and leaves the rest as it is. -/
theorem postCompletion_ends {id : Nat} {p q : Pkg} (hub : SameHub p q) (early : List (Nat × Nat × GangWord))
    (place : Eng.failedAt p (completionSlot p (id / 2 ^ 48)) = none) (first : ∀ e ∈ p.owed, e.id / 2 ^ 48 ≠ id / 2 ^ 48)
    (dtime status reason rollbacks detail : Nat) :
    ∃ t, t = postCompletion dtime id status reason rollbacks detail { q with nodes := q.nodes.erase id, early := early } ∧
      t.nodes = p.nodes.erase id ∧ t.ctx = p.ctx ∧ t.core = q.core ∧
      t.regv (queueReg (id / 2 ^ 48) 0x28) = ((p.queue (id / 2 ^ 48)).cplTail + 1) % 2 ^ 32 := by
  obtain ⟨r, m, b, l, vs, out, posted, tail⟩ := postCompletion_now dtime id status reason rollbacks detail
    { q with nodes := q.nodes.erase id, early := early } 
    fun waits => by
      rcases (hub.waits _).1 waits with kept | ⟨e, before, same⟩
      · exact absurd kept (place ▸ Bool.false_ne_true)
      · exact first e before same
  refine ⟨_, rfl, ?_⟩
  rw [posted]
  exact ⟨congrArg (·.erase id) hub.nodes, hub.ctx, rfl, tail.trans (congrArg (fun u : Queue => (u.cplTail + 1) % 2 ^ 32) (hub.queue _))⟩

theorem live_of_erased {p q : Pkg} {id : Nat} (h : q.nodes = p.nodes.erase id) : q.live id = false := by
  rw [Pkg.live, h, NMap.get_erase_self]
  cases id with
  | zero => rfl
  | succ n => rfl

theorem node_of_erased {p q : Pkg} {id m : Nat} (h : q.nodes = p.nodes.erase id) (other : m ≠ id) : q.node m = p.node m := by
  rw [Pkg.node, h, NMap.get_erase_of_ne _ other, Pkg.node]

/-- Settles O44: a part's end and a completion by what each of their operations leaves as it is, a commit by the absence of pages. -/
theorem nodesEnd : Obligations.NodesEnd := by
  intro x id s p n
  refine ⟨fun draining drained written node => ?_, fun live committing free => ⟨exec_nodeCommit_unseen live committing free, ?_⟩,
    fun live ending place first => ?_⟩
  · obtain ⟨ctx, ended, parts⟩ := endPart_frame x id p
    obtain ⟨phase, unnamed, cursor, seq, regs⟩ := unbindCtx_self x p
    refine ⟨_, exec_partEnd draining drained written node, ?_⟩
    have ctx : (endPart x id s.pkg).c x = (unbindCtx x p).c x := ctx
    rw [ctx]
    exact ⟨phase, unnamed, cursor, seq, fun k => by rw [regs], ended, parts.storage⟩
  · intro unseen stage
    refine ⟨_, exec_nodeCommit_nil live committing free unseen stage, ?_, ?_⟩
    · rw [Pkg.node_modNode_self]
    · exact (sameParts_modNode p id fun n => { n with stage := [], phase := .ending }).storage
  · obtain ⟨status, reason, rollbacks, detail, early, q, hub, done⟩ := exec_nodeComplete live ending place
    obtain ⟨t, rfl, nodes, ctx, core, tail⟩ := postCompletion_ends hub early place first s.env.dtime status reason rollbacks detail
    refine ⟨_, done, live_of_erased nodes, tail, fun m other => node_of_erased nodes other, fun y => by rw [Pkg.c, ctx, Pkg.c],
      fun k a => ?_⟩
    rw [Pkg.k, core, ← Pkg.k, (hub.parts.cells k).spad, (hub.parts.cells k).tags]
    exact ⟨rfl, rfl⟩

end Sys2Proof.Proofs.Completion

namespace Sys2Proof.Proofs.Dealing

open Machine StorageFrames Completion

/-! ### Parts dealt to a core (R347)

A part that has been dealt is in its core's queue or is kept back for it, and admitting parts keeps it so. -/

/-- A part of a node is in a core's queue or is kept back for it. -/
def Dealt (p : Pkg) (core : Nat) (part : Nat × Nat) : Prop :=
  (∃ e ∈ (p.k core).queue, e.node = part.1 ∧ e.part = part.2) ∨ part ∈ (p.k core).backlog

/-- A part kept back for a core enters its queue. -/
def admitPart (clock : Nat) (b : Nat × Nat) (k : Core) : Core :=
  { k with backlog := k.backlog.filter (· != b), queue := k.queue ++ [{ node := b.1, part := b.2, since := clock }] }

theorem dealt_admitPart {p : Pkg} {m : Nat} {part : Nat × Nat} (h : Dealt p m part) (clock core : Nat) (b : Nat × Nat) :
    Dealt (p.modK core (admitPart clock b)) m part := by
  unfold Dealt
  by_cases hm : m = core
  · subst hm
    rw [Pkg.k_modK_self]
    rcases h with ⟨q, mem, named⟩ | kept
    · exact .inl ⟨q, List.mem_append_left _ mem, named⟩
    · by_cases admitted : part = b
      · exact .inl ⟨_, List.mem_append_right _ (List.mem_singleton_self _), by rw [admitted]; exact ⟨rfl, rfl⟩⟩
      · exact .inr (List.mem_filter.2 ⟨kept, by simpa using admitted⟩)
  · rw [Pkg.k_modK_of_ne _ _ hm]
    exact h

theorem admitParts_frame (clock core n : Nat) (p : Pkg) :
    (∃ cs, admitParts clock core n p = { p with core := cs }) ∧ SameParts p (admitParts clock core n p) ∧
      ∀ m part, Dealt p m part → Dealt (admitParts clock core n p) m part := by
  induction n generalizing p with
  | zero => exact ⟨⟨_, rfl⟩, .rfl, fun _ _ h => h⟩
  | succ n ih =>
    rw [admitParts]
    split
    · split
      · exact ⟨⟨_, rfl⟩, .rfl, fun _ _ h => h⟩
      · next b _ =>
        obtain ⟨outside, parts, dealt⟩ := ih (p.modK core (admitPart clock b))
        have moved : SameParts p (p.modK core (admitPart clock b)) := sameParts_modK p core _ fun _ => ⟨rfl, rfl, rfl, rfl⟩
        exact ⟨outside, moved.trans parts, fun m part h => dealt m part (dealt_admitPart h clock core b)⟩
    · exact ⟨⟨_, rfl⟩, .rfl, fun _ _ h => h⟩

/-- Parts of a node kept back for a core. -/
def keepBack (id : Nat) (parts : List Nat) (k : Core) : Core := { k with backlog := k.backlog ++ parts.map fun i => (id, i) }

/-- A core's parts of a node kept back for it, and those admitted for which there is room. -/
def dealTo (clock id : Nat) (n : Node) (p : Pkg) (core : Nat) : Pkg :=
  admitParts clock core 16 (p.modK core (keepBack id (partsOn p n core)))

theorem deal_eq (clock id : Nat) (p : Pkg) :
    deal clock id p = (dealSequence p (p.node id).cores).eraseDups.foldl (dealTo clock id (p.node id)) p := rfl

theorem dealTo_frame (clock id : Nat) (n : Node) (p : Pkg) (core : Nat) :
    (∃ cs, dealTo clock id n p core = { p with core := cs }) ∧ SameParts p (dealTo clock id n p core) ∧
      (∀ m part, Dealt p m part → Dealt (dealTo clock id n p core) m part) ∧
      ∀ i ∈ partsOn p n core, Dealt (dealTo clock id n p core) core (id, i) := by
  obtain ⟨⟨cs, outside⟩, parts, dealt⟩ := admitParts_frame clock core 16
    (p.modK core (keepBack id (partsOn p n core)))
  have kept : SameParts p (p.modK core (keepBack id (partsOn p n core))) := sameParts_modK p core _ fun _ => ⟨rfl, rfl, rfl, rfl⟩
  refine ⟨⟨cs, outside⟩, kept.trans parts, fun m part h => dealt m part ?_,
    fun i mem => dealt core _ (.inr ?_)⟩
  · unfold Dealt
    by_cases hm : m = core
    · subst hm
      rw [Pkg.k_modK_self]
      exact h.imp_right fun kept => List.mem_append_left _ kept
    · rw [Pkg.k_modK_of_ne _ _ hm]
      exact h
  · rw [Pkg.k_modK_self]
    exact List.mem_append_right _ (List.mem_map_of_mem mem)

theorem foldl_dealTo_frame (clock id : Nat) (n : Node) (cores : List Nat) (p : Pkg) :
    (∃ cs, cores.foldl (dealTo clock id n) p = { p with core := cs }) ∧ SameParts p (cores.foldl (dealTo clock id n) p) ∧
      (∀ m part, Dealt p m part → Dealt (cores.foldl (dealTo clock id n) p) m part) ∧
      ∀ core ∈ cores, ∀ i ∈ partsOn p n core, Dealt (cores.foldl (dealTo clock id n) p) core (id, i) := by
  induction cores generalizing p with
  | nil => exact ⟨⟨_, rfl⟩, .rfl, fun _ _ h => h, nofun⟩
  | cons c cores ih =>
    obtain ⟨⟨cs, outside⟩, parts, keeps, deals⟩ := dealTo_frame clock id n p c
    obtain ⟨⟨cs', outside'⟩, parts', keeps', deals'⟩ := ih (dealTo clock id n p c)
    have same (core : Nat) : partsOn (dealTo clock id n p c) n core = partsOn p n core := by rw [outside]; rfl
    refine ⟨⟨cs', ?_⟩, parts.trans parts', fun m part h => keeps' m part (keeps m part h), fun core mem i of => ?_⟩
    · rw [List.foldl_cons, outside', outside]
    · rcases List.mem_cons.1 mem with rfl | later
      · exact keeps' core _ (deals i of)
      · exact deals' core later i (by rwa [same])

/-- A core to which a part is dealt is of the deal's sequence. -/
theorem mem_dealSequence_of_mem_partsOn {p : Pkg} {n : Node} {core i : Nat} (mem : i ∈ partsOn p n core) (inRange : core < 72) :
    core ∈ dealSequence p n.cores := by
  have at_ : (dealSequence p n.cores).getD (i % (dealSequence p n.cores).length) 72 = core := by
    simpa [partsOn] using (List.mem_filter.1 mem).2
  by_cases h : i % (dealSequence p n.cores).length < (dealSequence p n.cores).length
  · rw [List.getD_eq_getElem _ _ h] at at_
    exact at_ ▸ List.getElem_mem h
  · rw [List.getD_eq_default _ _ (Nat.le_of_not_lt h)] at at_
    omega

/-- The node runs, and every part of it is in its core's queue or kept back for it (R347). -/
theorem startNode_frame (env : Env) (id : Nat) (p : Pkg) :
    ((startNode env id p).node id).phase = .running ∧ SameParts p (startNode env id p) ∧ (∀ x, (startNode env id p).c x = p.c x) ∧
      ∀ core < 72, ∀ part ∈ partsOn p (p.node id) core, Dealt (startNode env id p) core (id, part) := by
  obtain ⟨q, running⟩ : ∃ q, q = p.modNode id fun n => { n with phase := .running } := ⟨_, rfl⟩
  have node : q.node id = { p.node id with phase := .running } := by rw [running, Pkg.node_modNode_self]
  obtain ⟨⟨cs, outside⟩, parts, -, deals⟩ := foldl_dealTo_frame env.clock id (q.node id) (dealSequence q (q.node id).cores).eraseDups q
  rw [← deal_eq] at outside parts deals
  have started : startNode env id p = logEvent ⟨env.dtime, 2, id, 0⟩ (deal env.clock id q) := by rw [running]; rfl
  have same (core : Nat) : partsOn q (q.node id) core = partsOn p (p.node id) core := by rw [node, running]; rfl
  have before : SameParts p q := running ▸ sameParts_modNode p id _
  rw [started]
  refine ⟨?_, (before.trans parts).trans (.of_fields rfl rfl rfl), fun x => ?_, fun core inRange part mem => ?_⟩
  · show ((deal env.clock id q).node id).phase = _
    rw [outside]
    exact congrArg Node.phase node
  · show (deal env.clock id q).c x = _
    rw [outside, running]
    rfl
  · rw [← same] at mem
    exact deals core (List.mem_eraseDups.2 (mem_dealSequence_of_mem_partsOn mem inRange)) part mem

end Sys2Proof.Proofs.Dealing

namespace Sys2Proof.Proofs.Starting

open Machine StorageFrames Completion Dealing

/-! ### A node refused (R345, R363) -/

/-- A refused node is live no more, and no core changes; its queue's completion pointer goes on, or its record waits. -/
theorem refuseNode_frame (dtime reason : Nat) (n : Node) (p : Pkg) :
    let t := refuseNode dtime n reason p
    let q := n.id / 2 ^ 48
    t.live n.id = false ∧ (∀ k, t.k k = p.k k) ∧
      (¬Waits p q → t.regv (queueReg q 0x28) = ((p.queue q).cplTail + 1) % 2 ^ 32) ∧
      (Waits p q → ∃ o : Owed, o.id = n.id ∧ t.owed = p.owed ++ [o] ∧ t.regv (queueReg q 0x28) = p.regv (queueReg q 0x28)) := by
  intro t q
  obtain ⟨r, gone⟩ : ∃ r : Pkg, r = { p with nodes := p.nodes.erase n.id, taking := p.taking.filter fun t => t.id != n.id } := ⟨_, rfl⟩
  obtain ⟨o, said⟩ := gangSay_eq n 1 0 (postCompletion dtime n.id 2 reason 0 0 r)
  have refused : t = { postCompletion dtime n.id 2 reason 0 0 r with out := o } := by rw [← said, gone]; rfl
  have same : Waits r q ↔ Waits p q := by rw [gone]; rfl
  have dead : r.live n.id = false := live_of_erased (p := p) (by rw [gone])
  by_cases waits : Waits p q
  · obtain ⟨w, fq, g, f, posted, named⟩ := postCompletion_waits dtime n.id 2 reason 0 0 r (same.2 waits)
    rw [refused, posted]
    exact ⟨dead, fun k => by rw [gone]; rfl, fun free => absurd waits free, fun _ => ⟨w, named, by rw [gone], by rw [gone]; rfl⟩⟩
  · obtain ⟨reg, m, b, l, vs, out, posted, tail⟩ := postCompletion_now dtime n.id 2 reason 0 0 r (mt same.1 waits)
    rw [refused, posted]
    exact ⟨dead, fun k => by rw [gone]; rfl, fun _ => tail.trans (by rw [gone]; rfl), fun h => absurd h waits⟩

/-! ### A node failed (R348, R356) -/

theorem sameParts_admitAll (clock : Nat) (p : Pkg) : SameParts p (admitAll clock p) :=
  .foldl (fun q n => (admitParts_frame clock n 16 q).2.1) _ p

theorem sameParts_dropCommand (id status : Nat) (p : Pkg) : SameParts p (dropCommand id status p) := .of_fields rfl rfl rfl

/-- Stopping a node takes it out of every queue and leaves all storage as it is. -/
theorem sameParts_stopNode (clock n : Nat) (p : Pkg) : SameParts p (stopNode clock n p) := by
  unfold stopNode
  extract_lets before ids p₁ p₂ p₃
  have dropped : SameParts p p₁ := .foldl (fun q id => sameParts_dropCommand id 0 q) ids p
  have unbound : SameParts p₁ p₂ := .foldl (fun q x => sameParts_unbindCtx x q) _ p₁
  have forgotten : SameParts p₂ p₃ := sameParts_modStale p₂ _
  have cleared := sameParts_mapCores p₃ (fun k => { k with
      queue := k.queue.filter fun e => e.node != n, backlog := k.backlog.filter fun e => e.1 != n,
      images := k.images.filter fun e => e.node != n, kickq := k.kickq.filter fun e => !ids.contains e }) rfl fun _ => ⟨rfl, rfl, rfl, rfl⟩
  refine dropped.trans (unbound.trans (forgotten.trans (cleared.trans (.trans ?_ (sameParts_admitAll clock _)))))
  exact .of_fields rfl rfl rfl

theorem failNode_frame (clock n reason : Nat) (p : Pkg) :
    ((failNode clock n reason p).node n).phase = .ending ∧ ((failNode clock n reason p).node n).fail = some reason ∧
      SameParts p (failNode clock n reason p) := by
  refine ⟨?_, ?_, (sameParts_stopNode clock n p).trans (sameParts_modNode _ n _)⟩ <;>
  · rw [failNode, Pkg.node_modNode_self]

/-! ### A gang's proposals (R47, R348) -/

/-- Agreeing sets a node's agreed tick, and no more. -/
theorem agree_frame (id : Nat) (p : Pkg) :
    (∃ tick, (agree id p).node id = { p.node id with agreed := tick }) ∧ (agree id p).early = p.early ∧ SameParts p (agree id p) := by
  unfold agree
  extract_lets n all
  split
  · refine ⟨⟨_, Pkg.node_modNode_self ..⟩, rfl, sameParts_modNode p id _⟩
  · exact ⟨⟨_, rfl⟩, rfl, .rfl⟩

/-- The node agrees: its package's proposal is the later of the record's tick and the take time and lead. -/
structure Proposed (env : Env) (id : Nat) (p t : Pkg) : Prop where
  phase     : (t.node id).phase = .agreeing
  at_       : (t.node id).proposedAt = some env.dtime
  proposals : (t.node id).proposals =
    (p.node id).proposals ++ [(p.number, max (p.node id).tick ((p.node id).taken + gangLead p))]
  parts     : SameParts p t

theorem proposed_propose {env : Env} {id : Nat} {p : Pkg} (early : ∀ e ∈ p.early, e.1 ≠ id) : Proposed env id p (propose env id p) := by
  unfold propose
  extract_lets n t p₁ p₂ words p₃
  obtain ⟨o, said⟩ := gangSay_eq n 0 t p₁
  obtain ⟨⟨tick, node⟩, kept, agreed⟩ := agree_frame id (gangSay n 0 t p₁)
  have node₁ : (gangSay n 0 t p₁).node id =
      { n with phase := .agreeing, proposedAt := some env.dtime, proposals := n.proposals ++ [(p.number, t)] } := by
    have at_ : p₁.node id = { n with phase := .agreeing, proposedAt := some env.dtime, proposals := n.proposals ++ [(p.number, t)] } :=
      Pkg.node_modNode_self ..
    rw [said]
    exact at_
  have quiet : words = [] := List.filter_eq_nil_iff.2 fun e mem => by
    have mem : e ∈ p.early := by
      rw [kept, said] at mem
      exact mem
    simpa using early e mem
  rw [quiet]
  have node₃ : p₃.node id = { (gangSay n 0 t p₁).node id with agreed := tick } := node
  rw [node₁] at node₃
  have before : SameParts p (gangSay n 0 t p₁) := (sameParts_modNode p id _).trans (sameHub_gangSay n 0 t p₁).parts
  exact ⟨congrArg Node.phase node₃, congrArg Node.proposedAt node₃, congrArg Node.proposals node₃,
    before.trans (agreed.trans (.of_fields rfl rfl rfl))⟩

/-! ### The rows (R31, R347, R348) -/

theorem exec_nodeStart_unmet {id : Nat} {s : State}
    (unmet : ∃ d ∈ (s.pkg.node id).preds, ¬(d ∈ (s.pkg.node id).met ∨ predSatisfied s.pkg d = true)) :
    exec (.nodeStart id) s = .next s := by
  obtain ⟨d, mem, open_⟩ := unmet
  have some_ : predsMet s.pkg (s.pkg.node id) = false := List.all_eq_false.2 ⟨d, mem, by simpa using open_⟩
  show execNodeStart id s = _
  exact if_neg (by simp [some_])

section
variable {id : Nat} {s : State} (live : s.pkg.live id = true)
include live

theorem node_id : (s.pkg.node id).id = id := by
  simp only [Pkg.live, Bool.and_eq_true] at live
  exact beq_iff_eq.1 live.2

section
variable (waiting : (s.pkg.node id).phase = .waiting) (thawed : frozenDispatch s.pkg = false)
  (met : ∀ d ∈ (s.pkg.node id).preds, d ∈ (s.pkg.node id).met ∨ predSatisfied s.pkg d = true)
include waiting thawed met

/-- A node that waits, all of whose predecessors have completed, starts while dispatch is not frozen. -/
theorem exec_nodeStart :
    exec (.nodeStart id) s =
      if (s.pkg.node id).gang then
        if inSync s.pkg && (gangOthers s.pkg (s.pkg.node id)).all (edgeLives s.pkg) then s.put (propose s.env id s.pkg)
        else s.put (refuseNode s.env.dtime (s.pkg.node id) 7 s.pkg)
      else s.put (startNode s.env id s.pkg) := by
  have all : predsMet s.pkg (s.pkg.node id) = true := List.all_eq_true.2 fun d mem => by simpa using met d mem
  show execNodeStart id s = _
  exact if_pos (by simp [live, waiting, thawed, all])

theorem exec_nodeStart_alone (alone : (s.pkg.node id).gang = false) : exec (.nodeStart id) s = s.put (startNode s.env id s.pkg) := by
  rw [exec_nodeStart live waiting thawed met, if_neg (by simp [alone])]

theorem exec_nodeStart_gang (gang : (s.pkg.node id).gang = true) (sync : inSync s.pkg = true)
    (alive : ∀ k ∈ gangOthers s.pkg (s.pkg.node id), edgeLives s.pkg k = true) :
    exec (.nodeStart id) s = s.put (propose s.env id s.pkg) := by
  have all : (gangOthers s.pkg (s.pkg.node id)).all (edgeLives s.pkg) = true := List.all_eq_true.2 alive
  rw [exec_nodeStart live waiting thawed met, if_pos gang, sync, all, Bool.and_self, if_pos rfl]

theorem exec_nodeStart_cut (gang : (s.pkg.node id).gang = true)
    (cut : inSync s.pkg = false ∨ ∃ k ∈ gangOthers s.pkg (s.pkg.node id), edgeLives s.pkg k = false) :
    exec (.nodeStart id) s = s.put (refuseNode s.env.dtime (s.pkg.node id) 7 s.pkg) := by
  have fails : (inSync s.pkg && (gangOthers s.pkg (s.pkg.node id)).all (edgeLives s.pkg)) = false := by
    rcases cut with unsync | ⟨k, mem, lost⟩
    · rw [unsync, Bool.false_and]
    · rw [List.all_eq_false.2 ⟨k, mem, by simp [lost]⟩, Bool.and_false]
  rw [exec_nodeStart live waiting thawed met, if_pos gang, fails, if_neg Bool.false_ne_true]

end

theorem exec_gangTimeout (late : gangLate s.env s.pkg (s.pkg.node id) = true) :
    exec (.gangTimeout id) s = s.put (refuseNode s.env.dtime (s.pkg.node id) 7 s.pkg) := by
  show execGangTimeout id s = _
  exact if_pos (by simp [live, late])

theorem exec_gangStartTick {tick : Nat} (agreeing : (s.pkg.node id).phase = .agreeing) (agreed : (s.pkg.node id).agreed = some tick)
    (reached : tick ≤ s.env.dtime) : exec (.gangStartTick id) s = s.put (startNode s.env id s.pkg) := by
  show execGangStartTick id s = _
  simp [execGangStartTick, live, agreeing, agreed, reached]

theorem exec_gangProposalReceive {pkg : Nat} (w : GangWord) (gang : (s.pkg.node id).gang = true)
    (member : (s.pkg.node id).pkgs.testBit pkg = true) (other : pkg ≠ s.pkg.number) :
    exec (.gangProposalReceive id pkg w) s = s.put (gangHear s.env id pkg w s.pkg) := by
  show execGangProposalReceive id pkg w s = _
  simp [execGangProposalReceive, live, gang, member, other]

end

theorem gangLate_iff {env : Env} {p : Pkg} {n : Node} :
    gangLate env p n = true ↔ n.phase = .agreeing ∧ n.agreed = none ∧ n.proposedAt.getD 0 + gangTimeout p ≤ env.dtime := by
  simp [gangLate, and_assoc]

theorem any_false_of_first {ps : List (Nat × Nat)} {pkg : Nat} (first : ∀ q ∈ ps, q.1 ≠ pkg) : ¬(ps.any fun q => q.1 == pkg) = true := by
  simp only [List.any_eq_true, not_exists, not_and]
  intro q mem same
  exact first q mem (beq_iff_eq.1 same)

theorem gangHear_late {env : Env} {id pkg tick : Nat} {gs : List Nat} {p : Pkg} (first : ∀ q ∈ (p.node id).proposals, q.1 ≠ pkg)
    (late : gangLate env p (p.node id) = true) :
    gangHear env id pkg (.proposal tick gs) p = refuseNode env.dtime (p.node id) 7 p :=
  (if_neg (any_false_of_first first)).trans (if_pos late)

theorem gangHear_refused_early {env : Env} {id pkg : Nat} {p : Pkg} (early : (p.node id).phase = .waiting ∨ (p.node id).phase = .agreeing) :
    gangHear env id pkg .refused p = refuseNode env.dtime (p.node id) 7 p := if_pos early

theorem gangHear_refused_started {env : Env} {id pkg : Nat} {p : Pkg}
    (started : (p.node id).phase = .running ∨ (p.node id).phase = .committing) :
    gangHear env id pkg .refused p = failNode env.clock id 5 p :=
  (if_neg (by rcases started with h | h <;> simp [h])).trans (if_pos started)

theorem gangHear_failed {env : Env} {id pkg : Nat} {p : Pkg} (any : (p.node id).phase = .waiting ∨ (p.node id).phase = .agreeing ∨
    (p.node id).phase = .running ∨ (p.node id).phase = .committing) :
    gangHear env id pkg .failed p = failNode env.clock id 5 p := if_pos any

/-- A first proposal within the timeout is kept, with the groups that its package has members of. -/
theorem gangHear_proposal {env : Env} {id pkg tick : Nat} {gs : List Nat} {p : Pkg} (first : ∀ q ∈ (p.node id).proposals, q.1 ≠ pkg)
    (inTime : gangLate env p (p.node id) = false) :
    let t := gangHear env id pkg (.proposal tick gs) p
    (t.node id).proposals = (p.node id).proposals ++ [(pkg, tick)] ∧ (t.node id).phase = (p.node id).phase ∧
      (t.node id).members = (p.node id).members ++ gs.map (fun g => (pkg, g)) ∧ SameParts p t := by
  obtain ⟨q, said⟩ : ∃ q, q = p.modNode id fun n =>
      { n with proposals := n.proposals ++ [(pkg, tick)], members := n.members ++ gs.map fun g => (pkg, g) } := ⟨_, rfl⟩
  have at_ : q.node id = { p.node id with
      proposals := (p.node id).proposals ++ [(pkg, tick)], members := (p.node id).members ++ gs.map fun g => (pkg, g) } := by
    rw [said, Pkg.node_modNode_self]
  have heard : gangHear env id pkg (.proposal tick gs) p = agree id q := by
    rw [said]
    exact (if_neg (any_false_of_first first)).trans (if_neg (by simp [inTime]))
  obtain ⟨⟨t, agreed⟩, -, parts⟩ := agree_frame id q
  have before : SameParts p q := said ▸ sameParts_modNode p id _
  dsimp only
  rw [heard, agreed, at_]
  exact ⟨rfl, rfl, rfl, before.trans parts⟩

/-- Settles O41: each row ends in a start, a refusal, a failure or a proposal, of which one lemma each says what it leaves. -/
theorem nodesStart : Obligations.NodesStart := by
  refine ⟨fun id s live => ?_, fun id pkg w s dead posted => ?_⟩
  · intro p n starts q waits refused fails done ready late
    have starting {i : Instr} (h : exec i s = s.put (startNode s.env id p)) : starts i := by
      obtain ⟨phase, parts, ctx, deals⟩ := startNode_frame s.env id p
      exact ⟨_, h, phase, parts.storage, ctx, deals⟩
    have refusing {i : Instr} (h : exec i s = s.put (refuseNode s.env.dtime n 7 p)) : refused i := by
      obtain ⟨gone, cores, now, later⟩ := refuseNode_frame s.env.dtime 7 n p
      rw [node_id live] at gone now later
      exact ⟨_, h, rfl, gone, cores, now, later⟩
    have failing {i : Instr} (h : exec i s = s.put (failNode s.env.clock id 5 p)) : fails i := by
      obtain ⟨phase, reason, parts⟩ := failNode_frame s.env.clock id 5 p
      exact ⟨_, h, phase, reason, parts.storage⟩
    refine ⟨fun ⟨waiting, thawed, met⟩ alone => starting (exec_nodeStart_alone live waiting thawed met alone),
      fun ⟨waiting, thawed, met⟩ gang sync alive early => ?_,
      fun ⟨waiting, thawed, met⟩ gang cut => refusing (exec_nodeStart_cut live waiting thawed met gang cut),
      fun _ unmet => exec_nodeStart_unmet unmet,
      fun late => refusing (exec_gangTimeout live (gangLate_iff.2 late)),
      fun tick agreeing agreed reached => starting (exec_gangStartTick live agreeing agreed reached),
      fun pkg gang member other => ?_⟩
    · obtain ⟨phase, at_, proposals, parts⟩ := proposed_propose (env := s.env) (id := id) early
      exact ⟨_, exec_nodeStart_gang live waiting thawed met gang sync alive, phase, at_, proposals, parts.storage⟩
    · have hears (w : GangWord) {r : Pkg} (h : gangHear s.env id pkg w p = r) : exec (.gangProposalReceive id pkg w) s = s.put r :=
        h ▸ exec_gangProposalReceive live w gang member other
      refine ⟨fun tick gs first => ⟨fun late => refusing (hears _ (gangHear_late first (gangLate_iff.2 late))), fun inTime => ?_⟩,
        fun early => refusing (hears _ (gangHear_refused_early early)),
        fun started => failing (hears _ (gangHear_refused_started started)),
        fun any => failing (hears _ (gangHear_failed any))⟩
      obtain ⟨proposals, phase, members, parts⟩ := gangHear_proposal (tick := tick) (gs := gs) first
        (Bool.eq_false_iff.2 (mt gangLate_iff.1 inTime))
      exact ⟨_, hears _ rfl, proposals, phase, members, parts.storage⟩
  · show execGangProposalReceive id pkg w s = _
    exact (if_neg (by simp [dead])).trans (if_pos (.inl posted))

end Sys2Proof.Proofs.Starting

namespace Sys2Proof.Proofs.EngineWrites

open Machine StorageFrames

/-! ### A local write of an engine or of hardware (R80, R141)

To the cells of its core it does what its bytes and words say; what is noted of performed writes takes no part in that. -/

/-- A core with bytes written and words set full. -/
def writtenCore (cells : List Host.Cell) (full : List Nat) (k : Core) : Core :=
  { k with spad := k.spad.setCells cells, tags := full.foldl (fun m w => m.set w true) k.tags }

theorem sameCells_writtenCore {k l : Core} (h : SameCells k l) (cells : List Host.Cell) (full : List Nat) :
    SameCells (writtenCore cells full k) (writtenCore cells full l) := by
  constructor <;> simp only [writtenCore, h.spad, h.tags, h.acc, h.lines]

/-- One core changed on each side, in ways that agree on its cells. -/
theorem sameParts_modK_modK {p q : Pkg} (same : SameParts p q) (n : Nat) {f g : Core → Core}
    (agree : ∀ {k l}, SameCells k l → SameCells (f k) (g l)) : SameParts (p.modK n f) (q.modK n g) := by
  refine ⟨same.mem, same.side, fun m => ?_⟩
  by_cases hm : m = n
  · subst hm
    rw [Pkg.k_modK_self, Pkg.k_modK_self]
    exact agree (same.cells m)
  · rw [Pkg.k_modK_of_ne _ _ hm, Pkg.k_modK_of_ne _ _ hm]
    exact same.cells m

theorem sameParts_engineWriteBy (carry : List Carry) (after : List Nat) (node n : Nat) (cells : List Host.Cell) (full : List Nat)
    (p : Pkg) : SameParts (p.modK n (writtenCore cells full)) (engineWriteBy carry after node n cells full p) := by
  unfold engineWriteBy
  extract_lets sets p' q
  have noted : SameParts p q := (sameParts_ite .rfl (sameParts_modStale p _)).trans (sameParts_conveyTags n full after _)
  have written (g : Core → Core) (agree : ∀ k, SameCells (writtenCore cells full k) (g k)) :
      SameParts (p.modK n (writtenCore cells full)) { q.modK n g with nextWrite := q.nextWrite + 1 } :=
    (sameParts_modK_modK noted n fun h => (sameCells_writtenCore h cells full).trans (agree _)).trans (.of_fields rfl rfl rfl)
  refine written _ fun k => ?_
  exact ⟨rfl, rfl, rfl, rfl⟩

theorem get_setFull (ws : List Nat) (m : NMap Bool) {w : Nat} (h : w ∈ ws) : (ws.foldl (fun m w => m.set w true) m).get w = true := by
  have pairs : ws.foldl (fun m w => m.set w true) m = (ws.map fun w => (w, true)).foldl (fun m c => m.set c.1 c.2) m := by
    rw [List.foldl_map]
  rw [pairs, NMap.get_foldl_set]
  cases found : (ws.map fun w => (w, true)).reverse.find? fun c => c.1 == w with
  | none => exact absurd (List.find?_eq_none.1 found (w, true) (by simpa using h)) (by simp)
  | some c =>
    obtain ⟨v, -, rfl⟩ : ∃ v ∈ ws, (v, true) = c := by simpa using List.mem_of_find?_eq_some found
    rfl

end Sys2Proof.Proofs.EngineWrites

namespace Sys2Proof.Proofs.ImageLoads

open Machine StorageFrames EngineWrites

/-! ### An image placed in a core (R344) -/

section
variable (core : Nat) (h : ImageHead) (foot : List (Nat × Nat)) (cs : List Host.Cell × List (Nat × List Byte)) (n : Nat) (p : Pkg)

theorem sameParts_placeImage :
    SameParts (p.modK core (writtenCore (loadCells cs.1) (((loadCells cs.1).map fun c => c.1 / 4).eraseDups)))
      (placeImage core h foot cs n p) := by
  unfold placeImage engineWrite
  dsimp only
  refine (sameParts_engineWriteBy [] [] 0 core _ _ p).trans (sameParts_modK _ core _ fun k => ?_)
  exact ⟨rfl, rfl, rfl, rfl⟩

theorem placeImage_resident : ∃ i ∈ ((placeImage core h foot cs n p).k core).images, i.node = n ∧ i.entry = h.entry ∧ i.tvec = h.tvec ∧
    i.foot = foot ∧ ∀ k, i.tmpl.get k = ((cs.2.reverse.find? fun t => t.1 == k).map (·.2)).getD default := by
  refine ⟨⟨n, h.entry, h.tvec, cs.2.foldl (fun m t => m.set t.1 t.2) [], foot⟩, ?_, rfl, rfl, rfl, rfl, fun k => ?_⟩
  · rw [placeImage, Pkg.k_modK_self]
    exact List.mem_append_right _ (List.mem_singleton_self _)
  · rw [NMap.get_foldl_set]
    rfl

theorem placeImage_spad (a : Nat) : ((placeImage core h foot cs n p).k core).spad.get a =
    (((loadCells cs.1).reverse.find? fun c => c.1 == a).map (·.2)).getD ((p.k core).spad.get a) := by
  rw [((sameParts_placeImage core h foot cs n p).cells core).spad, Pkg.k_modK_self]
  exact Memory.get_setCells ..

theorem placeImage_full {c : Host.Cell} (mem : c ∈ loadCells cs.1) :
    ((placeImage core h foot cs n p).k core).tags.get (c.1 / 4) = true := by
  rw [((sameParts_placeImage core h foot cs n p).cells core).tags, Pkg.k_modK_self]
  exact get_setFull _ _ (List.mem_eraseDups.2 (List.mem_map_of_mem mem))

theorem placeImage_spad_of_ne {m : Nat} (other : m ≠ core) : ((placeImage core h foot cs n p).k m).spad = (p.k m).spad := by
  rw [((sameParts_placeImage core h foot cs n p).cells m).spad, Pkg.k_modK_of_ne _ _ other]

end

/-- Settles O42: the load's three outcomes are those of its reads and of its footprint. -/
theorem imagesLoad : Obligations.ImagesLoad := by
  intro core id s p n inRange live running wanted absent power free
  have runs : exec (.kernelImageLoad core id) s = match unitRead s.env n.asid id core (loadWork n) p with
    | .ok r q =>
      if footprintFree p core id r.2.1 then s.put (placeImage core r.1 r.2.1 r.2.2 id q)
      else s.put (q.modNode id fun n => { n with foot := r.2.1 })
    | .wait => .next s
    | .held p => s.put p
    | .fail p => s.put (failNode s.env.clock id 7 p) := by
    show execKernelImageLoad core id s = _
    exact if_pos ⟨inRange, live, running, wanted, by simpa using absent, power, by simpa using free⟩
  rw [runs]
  refine ⟨fun h foot cs q read => ⟨fun fits => ?_, fun held => ?_⟩, fun q read => ?_⟩
  · rw [read]
    obtain ⟨i, mem, node, entry, tvec, at_, tmpl⟩ := placeImage_resident core h foot cs id q
    refine ⟨_, if_pos fits, ⟨i, mem, node, entry, tvec, at_, fun k b last => ?_⟩, placeImage_spad core h foot cs id q,
      fun c mem => placeImage_full core h foot cs id q mem, fun m other a => ?_⟩
    · rw [tmpl, last]
      rfl
    · rw [placeImage_spad_of_ne core h foot cs id q other]
  · rw [read]
    exact ⟨_, if_neg (by simp [held]), rfl⟩
  · rw [read]
    refine ⟨_, rfl, ?_⟩
    rw [failNode, Pkg.node_modNode_self]
    exact ⟨rfl, rfl⟩

end Sys2Proof.Proofs.ImageLoads

namespace Sys2Proof.Proofs.Arrivals

open Machine StorageFrames

/-! ### An arrival is recorded, or its command completes with a status (R34, R211 to R213) -/

theorem run_need_false {b : Bool} (n : Nat) (h : b = false) (v : View) (w : Work) : Eng.need b n v w = .error (.status n) w := by
  rw [Eng.need, h]
  rfl

/-- An arrival of a command, as it stands in the package. -/
def arrival (p : Pkg) (c : Cmd) (coll : Bool) (own count op type root : Nat) (data : List Lane) : Arrival where
  node := c.node
  group := c.b.toNat % 256
  number := (p.cmd c.id).progress
  part := c.part
  lcore := p.lcoreOf (coreOf c.ctx)
  pkg := p.number
  cmd := some c.id
  coll := coll
  own := own
  count := count
  op := op
  type := type
  root := root
  data := data

theorem run_arrivalOk {env : Env} {c : Cmd} {w : Work} (home : (w.p.node c.node).resident = true) (named : c.b.toNat % 256 ∈ c.groups) :
    arrivalOk c (c.b.toNat % 256) ⟨env, c⟩ w = .ok () w := by
  unfold arrivalOk
  rw [Eng.run_bind, Eng.run_pkg]
  dsimp only
  rw [Eng.run_bind, Eng.run_need 9 home]
  exact Eng.run_need 0x0F (by simpa [groupNamed] using named) _ _

theorem run_arrivalOk_away {env : Env} {c : Cmd} {w : Work} (away : (w.p.node c.node).resident = false) :
    arrivalOk c (c.b.toNat % 256) ⟨env, c⟩ w = .error (.status 9) w := by
  unfold arrivalOk
  rw [Eng.run_bind, Eng.run_pkg]
  dsimp only
  rw [Eng.run_bind, run_need_false 9 away]

theorem run_arrivalOk_other {env : Env} {c : Cmd} {w : Work} (home : (w.p.node c.node).resident = true)
    (other : c.b.toNat % 256 ∉ c.groups) : arrivalOk c (c.b.toNat % 256) ⟨env, c⟩ w = .error (.status 0x0F) w := by
  unfold arrivalOk
  rw [Eng.run_bind, Eng.run_pkg]
  dsimp only
  rw [Eng.run_bind, Eng.run_need 9 home]
  exact run_need_false 0x0F (by simpa [groupNamed] using other) _ _

section
variable {c : Cmd} {s : State} (present : s.pkg.present c.id = true)
include present

/-- A command whose accesses come to an arrival waits for its episode. -/
theorem runCmd_arrives {body : Eng Unit} {w : Work} {coll : Bool} {own count op type root : Nat} {data : List Lane} {t n}
    (quiet : w.p = { s.pkg with tlb := t, fresh := n })
    (arrives : body ⟨s.env, c⟩ (Work.of s.pkg c.id) = arrive c (c.b.toNat % 256) coll own count op type root data ⟨s.env, c⟩ w) :
    ∃ u, runCmd c body s = .next u ∧ (u.pkg.cmd c.id).phase = .arrived ∧
      u.pkg.arrivals = s.pkg.arrivals ++ [arrival s.pkg c coll own count op type root data] ∧ SameStorage s.pkg u.pkg := by
  refine ⟨_, runCmd_accepted present (Eq.trans arrives (Eng.run_modPkg _ _ w)), ?_, ?_, ?_⟩
  · dsimp only
    rw [Pkg.cmd_modCmd_self, Pkg.cmd_modCmd_self]
    rfl
  · rw [quiet]
    rfl
  · rw [quiet]
    exact SameParts.storage (.of_fields rfl rfl rfl)

/-- A command whose accesses come to a status has it, and no arrival is recorded. -/
theorem runCmd_fails {body : Eng Unit} {status : Nat}
    (fails : body ⟨s.env, c⟩ (Work.of s.pkg c.id) = .error (.status status) (Work.of s.pkg c.id)) :
    ∃ u, runCmd c body s = .next u ∧ (u.pkg.cmd c.id).status = status ∧ u.pkg.arrivals = s.pkg.arrivals := by
  have ends : runCmd c body s = s.put (endFaulted c.id status ((Work.of s.pkg c.id).p.modCmd c.id fun m =>
      { (Work.of s.pkg c.id).save m with log := [], parts := [] })) := by simp [runCmd, present, fails]
  refine ⟨_, ends, ?_, rfl⟩
  show ((endFaulted _ _ _).cmd c.id).status = status
  simp [endFaulted]

end

theorem ecBarWork_eq (c : Cmd) (v : View) (w : Work) (ok : arrivalOk c (c.b.toNat % 256) v w = .ok () w) :
    ecBarWork c v w = arrive c (c.b.toNat % 256) false 0 0 0 0 0 [] v w := by
  unfold ecBarWork
  rw [Eng.run_bind, ok]

theorem ecBarWork_fails (c : Cmd) (v : View) (w : Work) {e : Stop} (bad : arrivalOk c (c.b.toNat % 256) v w = .error e w) :
    ecBarWork c v w = .error e w := by
  unfold ecBarWork
  rw [Eng.run_bind, bad]

/-- A collective's arrival with its elements, where its operands are sound. -/
theorem ecCollWork_eq {c : Cmd} {v : View} {w w' : Work} {bs : List Byte}
    (ok : arrivalOk c (c.b.toNat % 256) v w = .ok () w)
    (form : (decide (c.c.toNat ≤ 65536) && decide (bits c.b.toNat 11 8 ≤ 4) && decide (bits c.b.toNat 15 12 ≤ 2)) = true)
    (places : (Eng.linear c.a.toNat (4 * c.c.toNat) 4 && Eng.linear c.d.toNat (4 * c.c.toNat) 4) = true)
    (reads : Eng.localRead c.a.toNat (4 * c.c.toNat) v w = .ok bs w') :
    ecCollWork c v w = arrive c (c.b.toNat % 256) true 0 c.c.toNat (bits c.b.toNat 11 8) (bits c.b.toNat 15 12) (bits c.b.toNat 31 16)
      ((List.range c.c.toNat).map fun i => BitVec.ofNat 32 (field bs (4 * i) 4)) v w' := by
  unfold ecCollWork
  rw [Eng.run_bind, ok]
  dsimp only
  have got : Eng.attempt (do
      Eng.need (decide (c.c.toNat ≤ 65536) && decide (bits c.b.toNat 11 8 ≤ 4) && decide (bits c.b.toNat 15 12 ≤ 2)) 0x0E
      Eng.need (Eng.linear c.a.toNat (4 * c.c.toNat) 4 && Eng.linear c.d.toNat (4 * c.c.toNat) 4) 2
      Eng.localRead c.a.toNat (4 * c.c.toNat)) v w = .ok (.ok bs) w' := by
    unfold Eng.attempt
    rw [Eng.run_bind, Eng.run_need 0x0E form]
    dsimp only
    rw [Eng.run_bind, Eng.run_need 2 places]
    dsimp only
    rw [reads]
  rw [Eng.run_bind, got]

theorem localOk_of_linear {a n align : Nat} (h : Eng.linear a n align = true) : Eng.localOk a n = true ∧ a < 0x2000000 := by
  simp only [Eng.linear, Bool.and_eq_true, decide_eq_true_eq] at h
  obtain ⟨fits, -⟩ := h
  refine ⟨by simp [Eng.localOk, fits], ?_⟩
  have : spadSize = 0x800000 := rfl
  omega

section
variable {c : Cmd} {s : State} (present : s.pkg.present c.id = true)
include present

theorem barrier_arrives (home : (s.pkg.node c.node).resident = true) (named : c.b.toNat % 256 ∈ c.groups) :
    ∃ t, exec (.ecBar c) s = .next t ∧ (t.pkg.cmd c.id).phase = .arrived ∧
      t.pkg.arrivals = s.pkg.arrivals ++ [arrival s.pkg c false 0 0 0 0 0 []] ∧ SameStorage s.pkg t.pkg :=
  runCmd_arrives present (w := Work.of s.pkg c.id) (t := s.pkg.tlb) (n := s.pkg.fresh) rfl
    (ecBarWork_eq c _ _ (run_arrivalOk (w := Work.of s.pkg c.id) home named))

theorem collective_arrives (fresh : Fresh (s.pkg.cmd c.id)) (home : (s.pkg.node c.node).resident = true)
    (named : c.b.toNat % 256 ∈ c.groups) (count : c.c.toNat ≤ 65536) (op : bits c.b.toNat 11 8 ≤ 4) (type : bits c.b.toNat 15 12 ≤ 2)
    (source : Eng.linear c.a.toNat (4 * c.c.toNat) 4 = true) (dest : Eng.linear c.d.toNat (4 * c.c.toNat) 4 = true)
    (clean : Clean s.pkg (coreOf c.ctx)) :
    ∃ t, exec (.ecColl c) s = .next t ∧ (t.pkg.cmd c.id).phase = .arrived ∧
      t.pkg.arrivals = s.pkg.arrivals ++ [arrival s.pkg c true 0 c.c.toNat (bits c.b.toNat 11 8) (bits c.b.toNat 15 12)
        (bits c.b.toNat 31 16) ((List.range c.c.toNat).map fun i =>
          BitVec.ofNat 32 (field (localBytes s.pkg c c.a.toNat (4 * c.c.toNat)) (4 * i) 4))] ∧ SameStorage s.pkg t.pkg := by
  obtain ⟨ok, low⟩ := localOk_of_linear source
  obtain ⟨w, reads, later⟩ := localRead_quiet s.env (Quiet.start fresh) ok low clean
  obtain ⟨t, n, quiet, -⟩ := later.quiet.pkg
  exact runCmd_arrives present quiet
    (ecCollWork_eq (run_arrivalOk (w := Work.of s.pkg c.id) home named) (by simp [count, op, type]) (by simp [source, dest]) reads)

theorem barrier_away (away : (s.pkg.node c.node).resident = false) :
    ∃ t, exec (.ecBar c) s = .next t ∧ (t.pkg.cmd c.id).status = 9 ∧ t.pkg.arrivals = s.pkg.arrivals :=
  runCmd_fails present (ecBarWork_fails c _ _ (run_arrivalOk_away (w := Work.of s.pkg c.id) away))

theorem barrier_other (home : (s.pkg.node c.node).resident = true) (other : c.b.toNat % 256 ∉ c.groups) :
    ∃ t, exec (.ecBar c) s = .next t ∧ (t.pkg.cmd c.id).status = 0x0F ∧ t.pkg.arrivals = s.pkg.arrivals :=
  runCmd_fails present (ecBarWork_fails c _ _ (run_arrivalOk_other (w := Work.of s.pkg c.id) home other))

end

end Sys2Proof.Proofs.Arrivals

namespace Sys2Proof.Proofs.LocalWords

open Machine StorageFrames EngineWrites

/-! ### Words that a command writes in its core's scratchpad, performed (R98, R101) -/

/-- The bytes of a write of scratchpad words, and the words. -/
def wordBytes : PWrite → List Host.Cell
  | .spad _ cells _ => cells
  | .code _ cells _ => cells
  | _ => []
def wordsFull : PWrite → List Nat
  | .spad _ _ full => full
  | .code _ _ full => full
  | _ => []

/-- A write of scratchpad words of a core, of a codeword that the command rewrites whole among them. -/
def OfCore (core : Nat) (w : PWrite) : Prop := w = .spad core (wordBytes w) (wordsFull w) ∨ w = .code core (wordBytes w) (wordsFull w)

theorem writtenCore_writtenCore (cells cells' : List Host.Cell) (full full' : List Nat) (k : Core) :
    writtenCore cells' full' (writtenCore cells full k) = writtenCore (cells ++ cells') (full ++ full') k := by
  simp only [writtenCore, Memory.setCells, List.foldl_append]

/-- What words written by a command in its core leave: the core's bytes and full bits, and all else but what the command has still to
write and what it has rewritten of its codewords. -/
structure Wrote (id core : Nat) (cells : List Host.Cell) (full : List Nat) (left : List PWrite) (p q : Pkg) : Prop where
  parts  : SameParts (p.modK core (writtenCore cells full)) q
  ctx    : q.ctx = p.ctx
  reg    : q.reg = p.reg
  others : ∀ j, j ≠ id → q.cmd j = p.cmd j
  own    : ∃ mended, q.cmd id = { p.cmd id with mended := mended, writes := left }

theorem modK_writtenCore_nil (p : Pkg) (core : Nat) : SameParts (p.modK core (writtenCore [] [])) p := by
  refine ⟨rfl, rfl, fun m => ?_⟩
  by_cases hm : m = core
  · subst hm
    rw [Pkg.k_modK_self]
    exact ⟨rfl, rfl, rfl, rfl⟩
  · exact .of_eq (Pkg.k_modK_of_ne p _ hm).symm

theorem modK_modK_writtenCore (p : Pkg) (core : Nat) (cells cells' : List Host.Cell) (full full' : List Nat) :
    SameParts (p.modK core (writtenCore (cells ++ cells') (full ++ full')))
      ((p.modK core (writtenCore cells full)).modK core (writtenCore cells' full')) := by
  refine ⟨rfl, rfl, fun m => .of_eq ?_⟩
  by_cases hm : m = core
  · subst hm
    rw [Pkg.k_modK_self, Pkg.k_modK_self, Pkg.k_modK_self, writtenCore_writtenCore]
  · rw [Pkg.k_modK_of_ne _ _ hm, Pkg.k_modK_of_ne _ _ hm, Pkg.k_modK_of_ne _ _ hm]

section
variable {id core : Nat} {cells cells' : List Host.Cell} {full full' : List Nat} {left left' : List PWrite} {p q r : Pkg}

theorem Wrote.trans (a : Wrote id core cells full left p q) (b : Wrote id core cells' full' left' q r) :
    Wrote id core (cells ++ cells') (full ++ full') left' p r where
  parts := ((modK_modK_writtenCore p core cells cells' full full').trans
    (sameParts_modK_modK a.parts core fun h => sameCells_writtenCore h cells' full')).trans b.parts
  ctx := b.ctx.trans a.ctx
  reg := b.reg.trans a.reg
  others j h := (b.others j h).trans (a.others j h)
  own := by
    obtain ⟨m, own⟩ := a.own
    obtain ⟨m', own'⟩ := b.own
    exact ⟨m', by rw [own', own]⟩

theorem Wrote.writes (h : Wrote id core cells full left p q) : (q.cmd id).writes = left := by
  obtain ⟨m, own⟩ := h.own
  rw [own]

theorem Wrote.present (h : Wrote id core cells full left p q) (present : p.present id = true) : q.present id = true := by
  obtain ⟨m, own⟩ := h.own
  show (id != 0 && (q.cmd id).cmd.id == id) = true
  rw [own]
  exact present

end

/-- Nothing written, and what a command has left to write noted. -/
theorem Wrote.of_modCmd {id core : Nat} {p : Pkg} {left : List PWrite} {f : Command → Command}
    (h : ∃ mended, f (p.cmd id) = { p.cmd id with mended := mended, writes := left }) : Wrote id core [] [] left p (p.modCmd id f) where
  parts := (modK_writtenCore_nil p core).trans (.of_fields rfl rfl rfl)
  ctx := rfl
  reg := rfl
  others j other := Pkg.cmd_modCmd_of_ne p f other
  own := by rwa [Pkg.cmd_modCmd_self]

theorem wrote_nothing {id core : Nat} {p q : Pkg} (parts : SameParts p q) (ctx : q.ctx = p.ctx) (reg : q.reg = p.reg)
    (cmds : q.cmds = p.cmds) : Wrote id core [] [] (p.cmd id).writes p q where
  parts := (modK_writtenCore_nil p core).trans parts
  ctx := ctx
  reg := reg
  others j _ := by rw [Pkg.cmd, cmds, Pkg.cmd]
  own := ⟨(p.cmd id).mended, by rw [Pkg.cmd, cmds, Pkg.cmd]⟩

theorem wrote_mendWords (id core : Nat) (full : List Nat) (p : Pkg) :
    Wrote id core [] [] (p.cmd id).writes p (mendWords id core full p) := by
  unfold mendWords
  induction (full.map (· / 16)).eraseDups generalizing p with
  | nil => exact wrote_nothing .rfl rfl rfl rfl
  | cons b bs ih =>
    rw [List.foldl_cons]
    extract_lets old new rest q
    have noted : Wrote id core [] [] (p.cmd id).writes p q := .of_modCmd ⟨_, rfl⟩
    have one (r : Pkg) (h : Wrote id core [] [] (p.cmd id).writes p r) := h.writes ▸ h.trans (ih r)
    split
    · exact one _ (noted.writes ▸ noted.trans
        (wrote_nothing (q := mendCodeword core b q) (sameParts_modK q core _ fun _ => ⟨rfl, rfl, rfl, rfl⟩) rfl rfl rfl))
    · exact one _ noted

theorem wrote_engineWriteBy (carry : List Carry) (after : List Nat) (node id core : Nat) (cells : List Host.Cell) (full : List Nat)
    (p : Pkg) : Wrote id core cells full (p.cmd id).writes p (engineWriteBy carry after node core cells full p) := by
  have parts := sameParts_engineWriteBy carry after node core cells full p
  obtain ⟨q, noted, ctx, reg, cmds⟩ : ∃ q : Pkg, engineWriteBy carry after node core cells full p = q ∧ q.ctx = p.ctx ∧ q.reg = p.reg ∧
      q.cmds = p.cmds := by
    refine ⟨_, rfl, ?_⟩
    unfold engineWriteBy
    extract_lets sets p' q
    obtain ⟨-, -, ctx, -, -, reg, -, cmds, -⟩ := conveyTags_frame core full after p'
    have flags : p'.ctx = p.ctx ∧ p'.reg = p.reg ∧ p'.cmds = p.cmds := by
      simp only [p']
      split <;> exact ⟨rfl, rfl, rfl⟩
    obtain ⟨ctx', reg', cmds'⟩ := flags
    exact ⟨ctx.trans ctx', reg.trans reg', cmds.trans cmds'⟩
  rw [noted] at parts ⊢
  exact ⟨parts, ctx, reg, fun j _ => by rw [Pkg.cmd, cmds, Pkg.cmd], (p.cmd id).mended, by rw [Pkg.cmd, cmds, Pkg.cmd]⟩

theorem wrote_performOne (env : Env) {id core : Nat} {w : PWrite} {p : Pkg} (present : p.present id = true) (of : OfCore core w) :
    Wrote id core (wordBytes w) (wordsFull w) (p.cmd id).writes p (performOne env id w p) := by
  obtain ⟨cells, full, e⟩ : ∃ cells full, cells = wordBytes w ∧ full = wordsFull w := ⟨_, _, rfl, rfl⟩
  rw [OfCore, ← e.1, ← e.2] at of
  rw [← e.1, ← e.2]
  have at_ : performOne env id w p = performW env id w p := by
    rcases of with h | h <;> rw [h] <;> exact if_neg (by simp [present])
  rw [at_]
  rcases of with h | h <;> rw [h]
  · exact wrote_engineWriteBy ..
  · have both := (wrote_engineWriteBy (p.cmd id).carry ((p.cmd id).cmd.closure ++ (p.cmd id).after ++ [id]) (p.cmd id).cmd.node
      id core cells full p).trans (wrote_mendWords id core full _)
    rw [List.append_nil, List.append_nil, (wrote_engineWriteBy ..).writes] at both
    exact both

/-- A command's words performed in order: none is left to write, and all of them are in the core. -/
theorem wrote_performAmong (env : Env) {id core : Nat} (ws : List PWrite) {p : Pkg} (present : p.present id = true)
    (left : (p.cmd id).writes = ws) (of : ∀ w ∈ ws, OfCore core w) :
    Wrote id core (ws.flatMap wordBytes) (ws.flatMap wordsFull) [] p (performAmong env id ws p) := by
  induction ws generalizing p with
  | nil =>
    have none : Wrote id core [] [] (p.cmd id).writes p p := wrote_nothing .rfl rfl rfl rfl
    rwa [left] at none
  | cons w ws ih =>
    obtain ⟨q, taken⟩ : ∃ q, q = p.modCmd id fun c => { c with writes := c.writes.erase w } := ⟨_, rfl⟩
    have begun : Wrote id core [] [] ws p q := taken ▸ .of_modCmd ⟨_, by rw [left, List.erase_cons_head]⟩
    have one := begun.trans (wrote_performOne env (begun.present present) (of w List.mem_cons_self))
    rw [begun.writes] at one
    have step : performAmong env id (w :: ws) p = performAmong env id ws (performOne env id w q) := by rw [taken]; rfl
    rw [step]
    exact one.trans (ih (one.present present) one.writes fun v mem => of v (List.mem_cons_of_mem _ mem))

theorem performable_word {p : Pkg} {c : Command} {core : Nat} {w : PWrite} (of : OfCore core w) (on : p.powerOf core = 0)
    (unit : c.unit = 12) : performable p c w = true := by
  rcases of with h | h <;> rw [h] <;> simp [performable, placesOf, setsLines, inTurn, on, unit]

theorem performPasses_of_none (env : Env) {id : Nat} {p : Pkg} (none : (p.cmd id).writes = []) (n : Nat) :
    performPasses env id n p = p := by
  cases n with
  | zero => rfl
  | succ n => simp [performPasses, none]

/-- A command that has nothing but words of its core left to write, where the core is on, and that waits for nothing else. -/
structure WordsLeft (p : Pkg) (id core : Nat) : Prop where
  present : p.present id = true
  words   : ∀ w ∈ (p.cmd id).writes, OfCore core w
  on      : p.powerOf core = 0
  unit    : (p.cmd id).unit = 12
  late    : (p.cmd id).late = []
  away    : (p.cmd id).away = []

theorem wrote_performPasses (env : Env) {id core : Nat} {p : Pkg} (h : WordsLeft p id core) :
    Wrote id core ((p.cmd id).writes.flatMap wordBytes) ((p.cmd id).writes.flatMap wordsFull) [] p
      (performPasses env id ((p.cmd id).writes.length + 1) p) := by
  have all : (p.cmd id).writes.filter (performable p (p.cmd id)) = (p.cmd id).writes :=
    List.filter_eq_self.2 fun w mem => performable_word (h.words w mem) h.on h.unit
  have done := wrote_performAmong env (p.cmd id).writes h.present rfl h.words
  rw [performPasses, all]
  cases left : (p.cmd id).writes with
  | nil =>
    rw [left] at done
    exact done
  | cons w ws =>
    rw [left] at done
    dsimp only
    rw [performPasses_of_none env done.writes]
    exact done

theorem eq_of_none_left {m : Command} (late : m.late = []) (writes : m.writes = []) :
    { m with late := [] } = { m with mended := m.mended, writes := [] } := by
  cases m
  dsimp only at late writes
  rw [late, writes]

/-- All that such a command has left to write is performed, and nothing keeps it from its completion. -/
theorem wrote_performRest (env : Env) {id core : Nat} {p : Pkg} (h : WordsLeft p id core) :
    (performRest env id p).2 = true ∧
      Wrote id core ((p.cmd id).writes.flatMap wordBytes) ((p.cmd id).writes.flatMap wordsFull) [] p (performRest env id p).1 := by
  have wrote := wrote_performPasses env h
  obtain ⟨q, passes⟩ : ∃ q, q = performPasses env id ((p.cmd id).writes.length + 1) p := ⟨_, rfl⟩
  rw [← passes] at wrote
  obtain ⟨m, own⟩ := wrote.own
  have late : (q.cmd id).late = [] := by rw [own]; exact h.late
  have away : (q.cmd id).away = [] := by rw [own]; exact h.away
  have rest : performRest env id p = (q.modCmd id fun c => { c with late := [] }, true) := by
    unfold performRest
    rw [← passes]
    simp [wrote.present h.present, wrote.writes, late, away]
  rw [rest]
  refine ⟨rfl, ?_⟩
  have cleared : Wrote id core [] [] [] q (q.modCmd id fun c => { c with late := [] }) :=
    .of_modCmd ⟨_, eq_of_none_left late wrote.writes⟩
  have both := wrote.trans cleared
  rwa [List.append_nil, List.append_nil] at both

/-! ### The words of a range (R98) -/

theorem cellsAt_append (a : Nat) (xs ys : List Byte) : cellsAt a (xs ++ ys) = cellsAt a xs ++ cellsAt (a + xs.length) ys := by
  unfold cellsAt
  rw [List.length_append, List.range_add, List.zip_append (by simp), List.map_append, List.zip_map_left, List.map_map]
  congr 1
  apply List.map_congr_left
  intro q _
  simp [Nat.add_assoc]

theorem blocks_words {d n : Nat} (aligned : d % 4 = 0) : Eng.blocks 4 d (4 * n) = (List.range n).map fun i => (d + 4 * i, 4) := by
  unfold Eng.blocks
  split
  · rw [show n = 0 by omega]
    rfl
  · rw [show (d + 4 * n - 1) / 4 - d / 4 + 1 = n by omega]
    apply List.map_congr_left
    intro i mem
    rw [List.mem_range] at mem
    dsimp only
    rw [Prod.mk.injEq]
    omega

/-- One word of a range of linear scratchpad: its four bytes, and its full bit. -/
theorem wordCells_linear (core : Nat) (whole : Nat → Bool) {a : Nat} {bs : List Byte} (len : bs.length = 4) (aligned : a % 4 = 0)
    (fits : a + 4 ≤ spadSize) :
    OfCore core (Eng.wordCells core whole a bs) ∧ wordBytes (Eng.wordCells core whole a bs) = cellsAt a bs ∧
      wordsFull (Eng.wordCells core whole a bs) = [a / 4] := by
  have size : spadSize = 0x800000 := rfl
  have place (i : Nat) (h : i < 4) : Eng.spadByte (a + i) = a + i := if_pos (by omega)
  obtain ⟨b₀, b₁, b₂, b₃, rfl⟩ : ∃ b₀ b₁ b₂ b₃, bs = [b₀, b₁, b₂, b₃] := by
    match bs, len with
    | [b₀, b₁, b₂, b₃], _ => exact ⟨_, _, _, _, rfl⟩
  have cells : (cellsAt a [b₀, b₁, b₂, b₃]).map (fun c => (Eng.spadByte c.1, c.2)) = cellsAt a [b₀, b₁, b₂, b₃] := by
    simp [cellsAt, List.range_succ, place 1, place 2, place 3, show Eng.spadByte a = a from place 0 (by omega)]
  have full : ((cellsAt a [b₀, b₁, b₂, b₃]).map fun c => c.1 / 4).eraseDups = [a / 4] := by
    have quarters : (a + 1) / 4 = a / 4 ∧ (a + 2) / 4 = a / 4 ∧ (a + 3) / 4 = a / 4 := by omega
    simp [cellsAt, List.range_succ, quarters, List.eraseDups_cons]
  have here : Eng.localCells core a [b₀, b₁, b₂, b₃] = .spad core (cellsAt a [b₀, b₁, b₂, b₃]) [a / 4] := by
    unfold Eng.localCells
    rw [if_pos (by omega)]
    dsimp only
    rw [cells, full]
  unfold Eng.wordCells
  rw [here]
  dsimp only
  split
  · exact ⟨.inr rfl, rfl, rfl⟩
  · exact ⟨.inl rfl, rfl, rfl⟩

theorem flatMap_cellsAt (n d : Nat) (bs : List Byte) (len : bs.length = 4 * n) :
    ((List.range n).flatMap fun i => cellsAt (d + 4 * i) ((bs.drop (4 * i)).take 4)) = cellsAt d bs := by
  induction n generalizing d bs with
  | zero => rw [List.eq_nil_of_length_eq_zero len]; rfl
  | succ n ih =>
    have later : ((List.range n).flatMap fun i => cellsAt (d + 4 * (i + 1)) ((bs.drop (4 * (i + 1))).take 4)) =
        cellsAt (d + 4) (bs.drop 4) := by
      rw [← ih (d + 4) (bs.drop 4) (by rw [List.length_drop]; omega)]
      refine List.flatMap_congr fun i _ => ?_
      rw [List.drop_drop, show d + 4 * (i + 1) = d + 4 + 4 * i by omega, show 4 * (i + 1) = 4 + 4 * i by omega]
    rw [List.range_succ_eq_map, List.flatMap_cons, List.flatMap_map, later]
    have first : (bs.take 4).length = 4 := by rw [List.length_take]; omega
    conv => rhs; rw [← List.take_append_drop 4 bs, cellsAt_append, first]
    rfl

/-- The words written to a range of linear scratchpad are its bytes and its full bits. -/
theorem localWrites_linear (core : Nat) {d n : Nat} {bs : List Byte} (len : bs.length = 4 * n) (linear : Eng.linear d (4 * n) 4 = true)
    (some_ : n ≠ 0) :
    (∀ w ∈ Eng.localWrites core d bs, OfCore core w) ∧ (Eng.localWrites core d bs).flatMap wordBytes = cellsAt d bs ∧
      (Eng.localWrites core d bs).flatMap wordsFull = wordsOf d (4 * n) := by
  simp only [Eng.linear, Bool.and_eq_true, decide_eq_true_eq, beq_iff_eq] at linear
  obtain ⟨fits, aligned⟩ := linear
  have words : Eng.localWrites core d bs = (List.range n).map fun i =>
      Eng.wordCells core (Eng.inRange d bs.length) (d + 4 * i) ((bs.drop (4 * i)).take 4) := by
    rw [Eng.localWrites, len, blocks_words aligned, List.map_map]
    apply List.map_congr_left
    intro i _
    simp
  have one (i : Nat) (mem : i ∈ List.range n) := by
    rw [List.mem_range] at mem
    exact wordCells_linear core (Eng.inRange d bs.length) (a := d + 4 * i) (bs := (bs.drop (4 * i)).take 4)
      (by rw [List.length_take, List.length_drop]; omega) (by omega) (by omega)
  rw [words]
  refine ⟨fun w mem => ?_, ?_, ?_⟩
  · obtain ⟨i, at_, rfl⟩ := List.mem_map.1 mem
    exact (one i at_).1
  · rw [List.flatMap_map, ← flatMap_cellsAt n d bs len]
    exact List.flatMap_congr fun i mem => (one i mem).2.1
  · rw [List.flatMap_map, wordsOf, show (d + 4 * n - 1) / 4 - d / 4 + 1 = n by omega, List.map_eq_flatMap]
    refine List.flatMap_congr fun i mem => ?_
    rw [(one i mem).2.2]
    congr 1
    omega

/-! ### A command completed by its episode (R211, R213) -/

/-- What the completion of a command leaves: its words in its core and its token's status; every other command stays but for what it
knows of ended ones, and so does every other token. -/
structure Finished (id status : Nat) (c : Cmd) (cells : List Host.Cell) (full : List Nat) (p q : Pkg) : Prop where
  parts  : SameParts (p.modK (coreOf c.ctx) (writtenCore cells full)) q
  gone   : q.present id = false
  reg    : q.reg = p.reg
  others : ∀ j, j ≠ id → ∃ e, q.cmd j = { p.cmd j with ended := e }
  token  : ((q.c c.ctx).tokens.get c.tok).state = .complete ∧ ((q.c c.ctx).tokens.get c.tok).status = status ∧
    ((q.c c.ctx).tokens.get c.tok).acked = false ∧ ((q.c c.ctx).tokens.get c.tok).cmd = id
  tokens : ∀ x k, ((p.c x).tokens.get k).cmd ≠ id → (q.c x).tokens.get k = (p.c x).tokens.get k

/-- A command that waits for its episode, on a core that is on. -/
structure Arrived (p : Pkg) (id : Nat) (c : Cmd) : Prop where
  present : p.present id = true
  cmd     : (p.cmd id).cmd = c
  phase   : (p.cmd id).phase = .arrived
  late    : (p.cmd id).late = []
  away    : (p.cmd id).away = []
  unit    : (p.cmd id).unit = 12
  on      : p.powerOf (coreOf c.ctx) = 0
  token   : ((p.c c.ctx).tokens.get c.tok).cmd = id

theorem Finished.arrived {id j status : Nat} {c d : Cmd} {cells : List Host.Cell} {full : List Nat} {p q : Pkg}
    (h : Finished id status c cells full p q) (other : j ≠ id) (a : Arrived p j d) : Arrived q j d := by
  obtain ⟨e, same⟩ := h.others j other
  have token : (q.c d.ctx).tokens.get d.tok = (p.c d.ctx).tokens.get d.tok := h.tokens _ _ (by rw [a.token]; exact other)
  have present : (j != 0 && (q.cmd j).cmd.id == j) = true := by
    rw [same]
    exact a.present
  have on : q.powerOf (coreOf d.ctx) = 0 := by
    rw [Pkg.powerOf, Pkg.regv, h.reg]
    exact a.on
  exact ⟨present, same ▸ a.cmd, same ▸ a.phase, same ▸ a.late, same ▸ a.away, same ▸ a.unit, on, token ▸ a.token⟩

/-- What a command knows of those that it consumes, once one of them has ended. -/
def learned (id status : Nat) (c : Command) : Command :=
  if c.cmd.uses.contains id || c.cmd.closure.contains id then { c with ended := c.ended ++ [(id, status)] } else c

theorem cmd_dropCommand (id status j : Nat) (p : Pkg) :
    (dropCommand id status p).cmd j = learned id status ((p.cmds.erase id).get j) :=
  NMap.get_map_values (learned id status) rfl (p.cmds.erase id) j

theorem learned_eq (id status : Nat) (c : Command) : ∃ e, learned id status c = { c with ended := e } := by
  unfold learned
  split
  · exact ⟨_, rfl⟩
  · exact ⟨c.ended, rfl⟩

/-- A dropped command is not outstanding; the others stay but for what they know of ended ones. -/
theorem dropCommand_frame (id status : Nat) (p : Pkg) :
    (dropCommand id status p).present id = false ∧ ∀ j, j ≠ id → ∃ e, (dropCommand id status p).cmd j = { p.cmd j with ended := e } := by
  constructor
  · show (id != 0 && ((dropCommand id status p).cmd id).cmd.id == id) = false
    rw [cmd_dropCommand, NMap.get_erase_self]
    cases id <;> rfl
  · intro j other
    rw [cmd_dropCommand, NMap.get_erase_of_ne _ other]
    exact learned_eq id status (p.cmd j)

theorem finished_completeToken {id status : Nat} {p : Pkg} {c : Cmd} (cmd : (p.cmd id).cmd = c) (phase : (p.cmd id).phase = .started)
    (token : ((p.c c.ctx).tokens.get c.tok).cmd = id) : Finished id status c [] [] p (completeToken id status p) := by
  obtain ⟨gone, others⟩ := dropCommand_frame id status p
  have ctx (x : Nat) : (dropCommand id status p).c x = p.c x := rfl
  unfold completeToken
  dsimp only
  have waits : (p.cmd id).phase ≠ .parked := by
    rw [phase]
    decide
  rw [if_neg waits, cmd]
  refine ⟨(modK_writtenCore_nil p _).trans (.of_fields rfl rfl rfl), gone, rfl, others, ?_, fun x k other => ?_⟩
  · rw [Pkg.c_modC_self, ctx, if_pos token]
    dsimp only
    rw [NMap.get_set_self]
    exact ⟨rfl, rfl, rfl, token⟩
  · by_cases here : x = c.ctx
    · subst here
      rw [Pkg.c_modC_self, ctx, if_pos token]
      have apart : k ≠ c.tok := fun same => other (same ▸ token)
      dsimp only
      rw [NMap.get_set_of_ne _ _ apart]
    · rw [Pkg.c_modC_of_ne _ _ here, ctx]

/-- An arrival's command completes with the episode's status, its words written. -/
theorem finished_finishArrival (env : Env) {id status : Nat} {ws : List PWrite} {p : Pkg} {c : Cmd} (a : Arrived p id c)
    (words : ∀ w ∈ ws, OfCore (coreOf c.ctx) w) :
    Finished id status c (ws.flatMap wordBytes) (ws.flatMap wordsFull) p (finishArrival env id status ws p) := by
  obtain ⟨q, ended⟩ : ∃ q, q = endCommand id status (p.modCmd id fun m => { m with writes := ws }) := ⟨_, rfl⟩
  have own : q.cmd id = { p.cmd id with writes := ws, phase := .started, status := status } := by
    rw [ended, endCommand, Pkg.cmd_modCmd_self, Pkg.cmd_modCmd_self, if_neg (by rw [a.phase]; decide)]
  have others (j : Nat) (other : j ≠ id) : q.cmd j = p.cmd j := by
    rw [ended, endCommand, Pkg.cmd_modCmd_of_ne _ _ other, Pkg.cmd_modCmd_of_ne _ _ other]
  have present : (id != 0 && (q.cmd id).cmd.id == id) = true := by
    rw [own]
    exact a.present
  obtain ⟨cs, outside⟩ : ∃ cs, q = { p with cmds := cs } := ⟨_, ended⟩
  have reg : q.reg = p.reg := by rw [outside]
  have ctx : q.ctx = p.ctx := by rw [outside]
  have parts : SameParts p q := by
    rw [outside]
    exact .of_fields rfl rfl rfl
  have left : WordsLeft q id (coreOf c.ctx) :=
    ⟨present, by rwa [own], by rw [Pkg.powerOf, Pkg.regv, reg]; exact a.on, by rw [own]; exact a.unit, by rw [own]; exact a.late,
      by rw [own]; exact a.away⟩
  obtain ⟨all, wrote⟩ := wrote_performRest env left
  obtain ⟨r, performed⟩ : ∃ r, r = (performRest env id q).1 := ⟨_, rfl⟩
  have finish : finishArrival env id status ws p = completeToken id status r := by
    unfold finishArrival
    dsimp only
    rw [Pkg.cmd_modCmd_self, if_neg (by dsimp only; rw [a.phase]; decide), ← ended, all, if_pos rfl, performed]
  rw [← performed] at wrote
  obtain ⟨m, mine⟩ := wrote.own
  have token : ((r.c c.ctx).tokens.get c.tok).cmd = id := by
    rw [Pkg.c, wrote.ctx, ctx]
    exact a.token
  have done := finished_completeToken (status := status) (by rw [mine, own]; exact a.cmd) (by rw [mine, own]) token
  have cells : SameParts (p.modK (coreOf c.ctx) (writtenCore (ws.flatMap wordBytes) (ws.flatMap wordsFull))) r := by
    have wrote := wrote.parts
    rw [own] at wrote
    exact (sameParts_modK_modK parts _ fun h => sameCells_writtenCore h _ _).trans wrote
  rw [finish]
  refine ⟨cells.trans ((modK_writtenCore_nil r _).symm.trans done.parts), done.gone, done.reg.trans (wrote.reg.trans reg),
    fun j other => ?_, done.token, fun x k other => ?_⟩
  · obtain ⟨e, same⟩ := done.others j other
    exact ⟨e, by rw [same, wrote.others j other, others j other]⟩
  · have before : (r.c x).tokens.get k = (p.c x).tokens.get k := by rw [Pkg.c, wrote.ctx, ctx, Pkg.c]
    rw [done.tokens x k (by rw [before]; exact other), before]

end Sys2Proof.Proofs.LocalWords

namespace Sys2Proof.Proofs.EpisodeOrder

open Machine

/-! ### The members of an episode in order (R214) -/

theorem keyLess_iff (a b : Nat × Nat × Nat × Nat) : keyLess a b = true ↔
    a.1 < b.1 ∨ a.1 = b.1 ∧ (a.2.1 < b.2.1 ∨ a.2.1 = b.2.1 ∧ (a.2.2.1 < b.2.2.1 ∨ a.2.2.1 = b.2.2.1 ∧ a.2.2.2 < b.2.2.2)) := by
  simp [keyLess]

/-- One member does not come after another. -/
def NotAfter (p : Pkg) (a b : Arrival) : Prop := ¬keyLess (memberKey p b) (memberKey p a) = true

theorem perm_insertMember (p : Pkg) (a : Arrival) (as : List Arrival) : (inOrder.insertMember p a as).Perm (a :: as) := by
  induction as with
  | nil => exact .rfl
  | cons b bs ih =>
    rw [inOrder.insertMember]
    split
    · exact (ih.cons b).trans (.swap a b bs)
    · exact .rfl

theorem perm_inOrder (p : Pkg) (as : List Arrival) : (inOrder p as).Perm as := by
  induction as with
  | nil => exact .rfl
  | cons a as ih => exact (perm_insertMember p a _).trans (ih.cons a)

theorem pairwise_insertMember (p : Pkg) (a : Arrival) {as : List Arrival} (h : as.Pairwise (NotAfter p)) :
    (inOrder.insertMember p a as).Pairwise (NotAfter p) := by
  induction as with
  | nil => exact List.pairwise_singleton _ _
  | cons b bs ih =>
    obtain ⟨first, rest⟩ := List.pairwise_cons.1 h
    rw [inOrder.insertMember]
    split
    · next less =>
      refine List.pairwise_cons.2 ⟨fun c mem => ?_, ih rest⟩
      rcases List.mem_cons.1 ((perm_insertMember p a bs).mem_iff.1 mem) with rfl | mem
      · simp only [NotAfter, keyLess_iff] at less ⊢
        omega
      · exact first c mem
    · next notLess =>
      refine List.pairwise_cons.2 ⟨fun c mem => ?_, h⟩
      rcases List.mem_cons.1 mem with rfl | mem
      · exact notLess
      · have after := first c mem
        simp only [NotAfter, keyLess_iff] at notLess after ⊢
        omega

theorem pairwise_inOrder (p : Pkg) (as : List Arrival) : (inOrder p as).Pairwise (NotAfter p) := by
  induction as with
  | nil => exact .nil
  | cons a as ih => exact pairwise_insertMember p a ih

/-- The die of a member. -/
def memberDie (p : Pkg) (a : Arrival) : Nat := dieOf ((p.pcoreOf a.lcore).getD 0)

/-- Members of one package in order of die, logical core and part. -/
def Before (p : Pkg) (a b : Arrival) : Prop :=
  memberDie p a < memberDie p b ∨ (memberDie p a = memberDie p b ∧ (a.lcore < b.lcore ∨ (a.lcore = b.lcore ∧ a.part < b.part)))

theorem keyLess_iff_before {p : Pkg} {a b : Arrival} (same : a.pkg = b.pkg) : keyLess (memberKey p a) (memberKey p b) = true ↔ Before p a b := by
  rw [keyLess_iff]
  simp only [memberKey, Before, memberDie]
  omega

theorem not_before_of_before {p : Pkg} {a b : Arrival} (h : Before p a b) : ¬Before p b a := by
  simp only [Before] at h ⊢
  omega

theorem before_or_before {p : Pkg} {ms : List Arrival} (sorted : ms.Pairwise (Before p)) {a b : Arrival} (ha : a ∈ ms) (hb : b ∈ ms)
    (apart : a ≠ b) : Before p a b ∨ Before p b a := by
  have symm : Std.Symm fun a b => Before p a b ∨ Before p b a := ⟨fun _ _ h => h.symm⟩
  exact (sorted.imp fun h => .inl h : ms.Pairwise fun a b => Before p a b ∨ Before p b a).forall ha hb apart

theorem keyLess_iff_of_mem {p : Pkg} {ms : List Arrival} (pkgs : ∀ a ∈ ms, a.pkg = p.number) {a b : Arrival} (ha : a ∈ ms) (hb : b ∈ ms) :
    keyLess (memberKey p a) (memberKey p b) = true ↔ Before p a b := keyLess_iff_before ((pkgs a ha).trans (pkgs b hb).symm)

section
variable {p : Pkg} {ms : List Arrival} (pkgs : ∀ a ∈ ms, a.pkg = p.number) (sorted : ms.Pairwise (Before p))
include pkgs sorted

/-- The members in order are the only list of them in order. -/
theorem inOrder_eq {as : List Arrival} (perm : ms.Perm as) : inOrder p as = ms := by
  have lists : (inOrder p as).Perm ms := (perm_inOrder p as).trans perm.symm
  have notAfter : ms.Pairwise (NotAfter p) := sorted.imp_of_mem fun ha hb before => by
    rw [NotAfter, keyLess_iff_of_mem pkgs hb ha]
    exact not_before_of_before before
  refine lists.eq_of_pairwise (fun a b ha hb le ge => ?_) (pairwise_inOrder p as) notAfter
  have ha := lists.mem_iff.1 ha
  rw [NotAfter, keyLess_iff_of_mem pkgs hb ha] at le
  rw [NotAfter, keyLess_iff_of_mem pkgs ha hb] at ge
  by_contra apart
  exact (before_or_before sorted ha hb apart).elim ge le

/-- The members before a given one are those that come first in the list. -/
theorem filter_before {m : Arrival} (mem : m ∈ ms) (q : Arrival → Bool) :
    (ms.filter fun a => q a && keyLess (memberKey p a) (memberKey p m)) = (ms.takeWhile (· != m)).filter q := by
  obtain ⟨xs, ys, split, first⟩ := List.eq_append_cons_of_mem mem
  have front : ms.takeWhile (· != m) = xs := by
    rw [split, List.takeWhile_append_of_pos fun x hx => by simpa using fun h : x = m => first (h ▸ hx)]
    simp
  have parts := sorted
  rw [split, List.pairwise_append] at parts
  obtain ⟨-, later, earlier⟩ := parts
  have before : xs.filter (fun a => q a && keyLess (memberKey p a) (memberKey p m)) = xs.filter q := by
    refine List.filter_congr fun a ha => ?_
    have less := (keyLess_iff_of_mem pkgs (split ▸ List.mem_append_left _ ha) mem).2 (earlier a ha m List.mem_cons_self)
    rw [less, Bool.and_true]
  have after : (m :: ys).filter (fun a => q a && keyLess (memberKey p a) (memberKey p m)) = [] := by
    refine List.filter_eq_nil_iff.2 fun a ha => ?_
    have notLess : ¬keyLess (memberKey p a) (memberKey p m) = true := by
      rw [keyLess_iff_of_mem pkgs (split ▸ List.mem_append_right _ ha) mem]
      rcases List.mem_cons.1 ha with rfl | ha
      · simp only [Before]
        omega
      · exact not_before_of_before ((List.pairwise_cons.1 later).1 a ha)
    simp [notLess]
  rw [front]
  conv => lhs; rw [split, List.filter_append, before, after, List.append_nil]

end

/-! ### The status of an episode (R211, R213) -/

/-- Two members whose arrivals do not go together. -/
def Apart (a b : Arrival) : Prop :=
  a.coll ≠ b.coll ∨ (a.coll = true ∧ b.coll = true ∧
    (a.count ≠ b.count ∨ a.op ≠ b.op ∨ a.type ≠ b.type ∨ (a.op = 4 ∧ a.root ≠ b.root)))

/-- The arrivals of an episode disagree: two of them, or a broadcast and its root. -/
def Differ (ms : List Arrival) : Prop :=
  (∃ a ∈ ms, ∃ b ∈ ms, Apart a b) ∨ ∃ a ∈ ms, a.coll = true ∧ a.op = 4 ∧ ∀ b ∈ ms, b.part ≠ a.root

theorem disagree_iff (a : Arrival) (ms : List Arrival) : disagree (a :: ms) = true ↔ ∃ b ∈ a :: ms, Apart a b := by
  unfold disagree
  dsimp only
  rw [List.any_eq_true]
  refine exists_congr fun b => and_congr_right fun _ => ?_
  simp only [Apart, Bool.or_eq_true, Bool.and_eq_true, bne_iff_ne, beq_iff_eq]
  grind

theorem rootless_iff (a : Arrival) (ms : List Arrival) :
    rootless (a :: ms) = true ↔ a.coll = true ∧ a.op = 4 ∧ ∀ b ∈ a :: ms, b.part ≠ a.root := by
  simp only [rootless, Bool.and_eq_true, beq_iff_eq, Bool.not_eq_true', List.any_eq_false, and_assoc, ne_eq]

/-- Where no arrival is apart from the first, no two are apart. -/
theorem not_apart_of_first {a b c : Arrival} (hb : ¬Apart a b) (hc : ¬Apart a c) : ¬Apart b c := by
  unfold Apart at *
  push Not at *
  obtain ⟨coll, rest⟩ := hb
  obtain ⟨coll', rest'⟩ := hc
  refine ⟨coll.symm.trans coll', fun b_ c_ => ?_⟩
  obtain ⟨count, op, type, root⟩ := rest (coll.trans b_) b_
  obtain ⟨count', op', type', root'⟩ := rest' (coll.trans b_) c_
  exact ⟨count.symm.trans count', op.symm.trans op', type.symm.trans type',
    fun four => (root (op.trans four)).symm.trans (root' (op.trans four))⟩

theorem differ_iff (ms : List Arrival) : Differ ms ↔ (disagree ms || rootless ms) = true := by
  cases ms with
  | nil => simp [Differ, disagree, rootless]
  | cons a ms =>
    rw [Bool.or_eq_true, disagree_iff, rootless_iff]
    constructor
    · intro differ
      by_contra neither
      push Not at neither
      obtain ⟨agree, rooted⟩ := neither
      rcases differ with ⟨b, hb, c, hc, apart⟩ | ⟨b, hb, coll, op, none⟩
      · exact not_apart_of_first (agree b hb) (agree c hc) apart
      · have same := agree b hb
        unfold Apart at same
        push Not at same
        obtain ⟨coll', rest⟩ := same
        obtain ⟨-, op', -, root⟩ := rest (coll'.trans coll) coll
        obtain ⟨r, mem, at_⟩ := rooted (coll'.trans coll) (op'.trans op)
        exact none r mem (at_.trans (root (op'.trans op)))
    · rintro (⟨b, hb, apart⟩ | ⟨coll, op, none⟩)
      · exact .inl ⟨a, List.mem_cons_self, b, hb, apart⟩
      · exact .inr ⟨a, List.mem_cons_self, coll, op, none⟩

/-- The status of the episode with what its broadcast's root adds. -/
def statusOf (missing : Bool) (ms : List Arrival) : Nat :=
  if episodeStatus missing ms = 0 && rootless ms then 0x13 else episodeStatus missing ms

theorem statusOf_faulty {missing : Bool} {ms : List Arrival} (plain : ∀ a ∈ ms, a.own ≠ 0x13)
    (h : missing = true ∨ ∃ a ∈ ms, a.own ≠ 0) : statusOf missing ms = 0x12 := by
  have bad : (missing || ms.any fun a => a.own != 0 && a.own != 0x13) = true := by
    rcases h with h | ⟨a, mem, own⟩
    · simp [h]
    · simp only [Bool.or_eq_true, List.any_eq_true]
      exact .inr ⟨a, mem, by simp [own, plain a mem]⟩
  have status : episodeStatus missing ms = 0x12 := if_pos bad
  simp [statusOf, status]

theorem episodeStatus_sound {ms : List Arrival} (sound : ∀ a ∈ ms, a.own = 0) :
    episodeStatus false ms = if disagree ms then 0x13 else 0 := by
  have none : (ms.any fun a => a.own != 0 && a.own != 0x13) = false := List.any_eq_false.2 fun a mem => by simp [sound a mem]
  have plain : (ms.any fun a => a.own == 0x13) = false := List.any_eq_false.2 fun a mem => by simp [sound a mem]
  simp [episodeStatus, none, plain]

theorem statusOf_sound {ms : List Arrival} (sound : ∀ a ∈ ms, a.own = 0) :
    statusOf false ms = if (disagree ms || rootless ms) = true then 0x13 else 0 := by
  rw [statusOf, episodeStatus_sound sound]
  cases disagree ms <;> cases rootless ms <;> rfl

/-! ### The values of an episode (R214) -/

/-- Left to right over the terms that exist. -/
def leftFold (f : Lane → Lane → Lane) : List Lane → Option Lane
  | [] => none
  | x :: ys => some (ys.foldl f x)

theorem collFold_eq (op type : Nat) (xs : List Lane) : collFold op type xs = leftFold (collStep op type) xs := by
  cases xs <;> rfl

/-- A sum, the lesser and the greater of two elements of a type. -/
def addOf (type : Nat) (x y : Lane) : Lane := if type = 0 then laneOf (addF32 x y) else x + y
def leastOf (type : Nat) (x y : Lane) : Lane :=
  if type = 0 then minF32 x y else if (if type = 1 then y.toInt < x.toInt else y.toNat < x.toNat) then y else x
def greatestOf (type : Nat) (x y : Lane) : Lane :=
  if type = 0 then maxF32 x y else if (if type = 1 then x.toInt < y.toInt else x.toNat < y.toNat) then y else x

theorem collStep_add (type : Nat) : collStep 0 type = addOf type := rfl

theorem collStep_least (type : Nat) : collStep 1 type = leastOf type := by
  funext x y
  by_cases float : type = 0
  · simp [collStep, leastOf, float]
  · by_cases signed : type = 1 <;> simp [collStep, leastOf, float, signed, BitVec.slt, BitVec.ult]

theorem collStep_greatest (type : Nat) : collStep 2 type = greatestOf type := by
  funext x y
  by_cases float : type = 0
  · simp [collStep, greatestOf, float]
  · by_cases signed : type = 1 <;> simp [collStep, greatestOf, float, signed, BitVec.slt, BitVec.ult]

section
variable (p : Pkg) (ms : List Arrival)

/-- Element i of the members on a die, combined. -/
def onDie (f : Lane → Lane → Lane) (d i : Nat) : Option Lane := leftFold f ((ms.filter fun a => memberDie p a == d).map (elemAt i))

/-- Element i of the members of both dies, combined. -/
def totalOf (f : Lane → Lane → Lane) (i : Nat) : Lane := (leftFold f ([onDie p ms f 0 i, onDie p ms f 1 i].filterMap id)).getD 0

/-- Element i of the members before a given one. -/
def prefixOf (type : Nat) (a : Arrival) (i : Nat) : Lane :=
  (leftFold (addOf type) ([if memberDie p a = 1 then onDie p ms (addOf type) 0 i else none, leftFold (addOf type)
    (((ms.takeWhile (· != a)).filter fun b => memberDie p b == memberDie p a).map (elemAt i))].filterMap id)).getD 0

/-- Element i of a collective's result for a member. -/
def valueOf (a : Arrival) (i : Nat) : Lane := match a.op with
  | 0 => totalOf p ms (addOf a.type) i
  | 1 => totalOf p ms (leastOf a.type) i
  | 2 => totalOf p ms (greatestOf a.type) i
  | 3 => prefixOf p ms a.type a i
  | _ => ((ms.find? fun b => b.part == a.root).map (elemAt i)).getD 0

end

theorem packagePartial_eq (p : Pkg) (op type i : Nat) (ms : List Arrival) :
    (packagePartial p op type i ms).getD 0 = totalOf p ms (collStep op type) i := by
  unfold packagePartial totalOf onDie
  simp only [collFold_eq]
  rfl

/-- What a package makes of its members, where no two of them are apart, is each one's value. -/
theorem collElem_eq {p : Pkg} {ms : List Arrival} (pkgs : ∀ a ∈ ms, a.pkg = p.number) (sorted : ms.Pairwise (Before p))
    {a : Arrival} (mem : a ∈ ms) (op : a.op ≤ 4) (same : (ms.headD default).op = a.op) (type : (ms.headD default).type = a.type)
    (root : a.op = 4 → ∃ b ∈ ms, b.part = a.root) (i : Nat) :
    collElem p a.op a.type a.root i [] [localPart p (ms.headD default) ms i] ms a = valueOf p ms a i := by
  have part (not4 : a.op ≠ 4) : localPart p (ms.headD default) ms i = totalOf p ms (collStep a.op a.type) i := by
    rw [localPart, same, if_neg not4, type, packagePartial_eq]
  have one (x : Lane) (f : Nat) : (collFold f a.type [x]).getD 0 = x := rfl
  have ops : a.op = 0 ∨ a.op = 1 ∨ a.op = 2 ∨ a.op = 3 ∨ a.op = 4 := by omega
  rcases ops with h | h | h | h | h
  · rw [part (by omega)]
    simp only [h, collElem, one, valueOf, collStep_add]
  · rw [part (by omega)]
    simp only [h, collElem, one, valueOf, collStep_least]
  · rw [part (by omega)]
    simp only [h, collElem, one, valueOf, collStep_greatest]
  · simp only [h, collElem, valueOf, prefixOf, onDie, collFold_eq, collStep_add,
      filter_before pkgs sorted mem fun b => (memberKey p b).2.1 == (memberKey p a).2.1]
    rfl
  · obtain ⟨b, hb, at_⟩ := root h
    simp only [h, collElem, valueOf]
    cases found : ms.find? fun b => b.part == a.root with
    | none => exact absurd (List.find?_eq_none.1 found b hb) (by simp [at_])
    | some b => rfl

end Sys2Proof.Proofs.EpisodeOrder

namespace Sys2Proof.Proofs.Episodes

open Machine StorageFrames EngineWrites LocalWords EpisodeOrder

/-! ### The arrivals of an episode completed one after another (R211, R213) -/

/-- A command that is not outstanding any more, and its token with a status. -/
structure Completed (q : Pkg) (id status : Nat) (c : Cmd) : Prop where
  gone  : q.present id = false
  token : ((q.c c.ctx).tokens.get c.tok).state = .complete ∧ ((q.c c.ctx).tokens.get c.tok).status = status ∧
    ((q.c c.ctx).tokens.get c.tok).acked = false ∧ ((q.c c.ctx).tokens.get c.tok).cmd = id

theorem Completed.of_finished {id status j other : Nat} {c d : Cmd} {cells : List Host.Cell} {full : List Nat} {q r : Pkg}
    (h : Completed q j other d) (f : Finished id status c cells full q r) (apart : j ≠ id) : Completed r j other d := by
  obtain ⟨gone, state, status, acked, cmd⟩ := h
  obtain ⟨e, same⟩ := f.others j apart
  have token : (r.c d.ctx).tokens.get d.tok = (q.c d.ctx).tokens.get d.tok := f.tokens _ _ (by rw [cmd]; exact apart)
  refine ⟨?_, by rw [token]; exact ⟨state, status, acked, cmd⟩⟩
  show (j != 0 && (r.cmd j).cmd.id == j) = false
  rw [same]
  exact gone

/-- Two rows of operations that agree step by step on all storage agree on it together. -/
theorem sameParts_foldl₂ {α : Type} {f g : Pkg → α → Pkg} {as : List α}
    (h : ∀ a ∈ as, ∀ q r, SameParts q r → SameParts (f q a) (g r a)) {q r : Pkg} (same : SameParts q r) :
    SameParts (as.foldl f q) (as.foldl g r) := by
  induction as generalizing q r with
  | nil => exact same
  | cons a as ih => exact ih (fun b mem => h b (List.mem_cons_of_mem _ mem)) (h a List.mem_cons_self q r same)

/-- The command of an arrival. -/
def idOf (a : Arrival) : Nat := a.cmd.getD 0

/-- What an arrival's words make of its core. -/
def writeWords (c : Arrival → Cmd) (words : Arrival → List PWrite) (q : Pkg) (a : Arrival) : Pkg :=
  q.modK (coreOf (c a).ctx) (writtenCore ((words a).flatMap wordBytes) ((words a).flatMap wordsFull))

theorem sameParts_writeWords (c : Arrival → Cmd) (words : Arrival → List PWrite) (a : Arrival) {q r : Pkg} (same : SameParts q r) :
    SameParts (writeWords c words q a) (writeWords c words r a) :=
  sameParts_modK_modK same _ fun h => sameCells_writtenCore h _ _

section
variable {f : Pkg → Arrival → Pkg} {status : Arrival → Nat} {c : Arrival → Cmd} {words : Arrival → List PWrite}

/-- Where each step completes one arrival, all are completed, each with its own words and status. -/
theorem foldl_completed {as : List Arrival} {q : Pkg}
    (step : ∀ a ∈ as, ∀ q, Arrived q (idOf a) (c a) →
      Finished (idOf a) (status a) (c a) ((words a).flatMap wordBytes) ((words a).flatMap wordsFull) q (f q a))
    (apart : (as.map idOf).Nodup) (arrived : ∀ a ∈ as, Arrived q (idOf a) (c a)) :
    (∀ a ∈ as, Completed (as.foldl f q) (idOf a) (status a) (c a)) ∧
      (∀ j other d, j ∉ as.map idOf → Completed q j other d → Completed (as.foldl f q) j other d) ∧
      SameParts (as.foldl (writeWords c words) q) (as.foldl f q) := by
  induction as generalizing q with
  | nil => exact ⟨nofun, fun _ _ _ _ h => h, .rfl⟩
  | cons a as ih =>
    rw [List.map_cons, List.nodup_cons] at apart
    obtain ⟨first, rest⟩ := apart
    have one := step a List.mem_cons_self q (arrived a List.mem_cons_self)
    obtain ⟨done, keeps, parts⟩ := ih (q := f q a) (fun b mem => step b (List.mem_cons_of_mem _ mem)) rest fun b mem =>
      one.arrived (fun same => first (same ▸ List.mem_map_of_mem mem)) (arrived b (List.mem_cons_of_mem _ mem))
    refine ⟨fun b mem => ?_, fun j other d out h => ?_, .trans ?_ parts⟩
    · rcases List.mem_cons.1 mem with rfl | mem
      · exact keeps _ _ _ first ⟨one.gone, one.token⟩
      · exact done b mem
    · rw [List.map_cons, List.mem_cons, not_or] at out
      exact keeps j other d out.2 (h.of_finished one out.1)
    · exact sameParts_foldl₂ (fun b _ q r same => sameParts_writeWords c words b same) one.parts

end

/-! ### EPISODE_COMPLETE within one package (R211) -/

/-- The words of an arrival's result. -/
def resultWords (status : Nat) (value : Arrival → Nat → Lane) (c : Cmd) (a : Arrival) : List PWrite :=
  if (if a.own != 0 then a.own else status) = 0 && a.coll && a.count != 0 then
    Eng.localWrites (coreOf c.ctx) c.d.toNat ((List.range a.count).flatMap fun i => bytesOf 4 (value a i).toNat)
  else []

/-- One arrival completed with the episode's status or its own. -/
def finishMember (env : Env) (status : Nat) (value : Arrival → Nat → Lane) (q : Pkg) (a : Arrival) : Pkg := match a.cmd with
  | none => q
  | some id =>
    finishArrival env id (if a.own != 0 then a.own else status) (resultWords status value (q.cmd id).cmd a) q

theorem completeEpisode_eq (env : Env) (status : Nat) (before all : Nat → List Lane) (as : List Arrival) (p : Pkg) :
    ∃ arrivals, completeEpisode env status before all as p =
      { as.foldl (finishMember env status fun a i => collElem p a.op a.type a.root i (before i) (all i) (inOrder p as) a) p with
        arrivals := arrivals } := by
  unfold completeEpisode
  cases as with
  | nil => exact ⟨_, rfl⟩
  | cons a as => exact ⟨_, rfl⟩

theorem stillComing_iff (p : Pkg) (node g : Nat) (as : List Arrival) : stillComing p node g as = true ↔
    ∃ i ∈ memberParts p node g, (∀ a ∈ as, a.part ≠ i) ∧ i ∉ (p.node node).ended := by
  simp [stillComing]

section
variable {node group number : Nat} {s : State} {ms : List Arrival}

/-- A member that has neither arrived nor ended keeps the episode waiting. -/
theorem exec_episodeComplete_coming (live : s.pkg.live node = true) (perm : ms.Perm (episodeOf s.pkg node group number))
    (coming : ∃ i ∈ memberParts s.pkg node group, (∀ a ∈ ms, a.part ≠ i) ∧ i ∉ (s.pkg.node node).ended) :
    exec (.episodeComplete node group number) s = .next s := by
  obtain ⟨i, member, absent, running⟩ := coming
  have still : stillComing s.pkg node group (inOrder s.pkg (episodeOf s.pkg node group number)) = true :=
    (stillComing_iff ..).2 ⟨i, member, fun a mem => absent a (perm.mem_iff.2 ((perm_inOrder _ _).mem_iff.1 mem)), running⟩
  show execEpisodeComplete node group number s = _
  unfold execEpisodeComplete
  exact if_pos (by simp [live, still])

/-- With every member arrived or ended, an episode of a node that no other package has completes with its status. -/
theorem exec_episodeComplete (some_ : number ≠ 0) (live : s.pkg.live node = true) (alone : (s.pkg.node node).gang = false)
    (perm : ms.Perm (episodeOf s.pkg node group number)) (sorted : ms.Pairwise (Before s.pkg)) (pkgs : ∀ a ∈ ms, a.pkg = s.pkg.number)
    (still : ¬∃ i ∈ memberParts s.pkg node group, (∀ a ∈ ms, a.part ≠ i) ∧ i ∉ (s.pkg.node node).ended) :
    exec (.episodeComplete node group number) s = s.put (completeEpisode s.env
      (statusOf ((memberParts s.pkg node group).any fun i => !ms.any fun a => a.part == i) ms) (fun _ => [])
      (fun i => [localPart s.pkg (ms.headD default) ms i]) ms s.pkg) := by
  have order := inOrder_eq pkgs sorted perm
  have coming : stillComing s.pkg node group ms = false := Bool.eq_false_iff.2 (mt (stillComing_iff ..).1 still)
  have none : gangPkgs s.pkg node = 0 := by simp [gangPkgs, live, alone]
  have far : episodePkgs s.pkg node group = [] := if_pos none
  show execEpisodeComplete node group number s = _
  unfold execEpisodeComplete
  dsimp only
  rw [order, coming, none, far, live]
  simp [some_, statusOf]

end

/-! ### All arrivals of an episode complete together (R211, R213, R214) -/

/-- The command of an arrival, as it is before the episode. -/
def commandOf (p : Pkg) (a : Arrival) : Cmd := (p.cmd (idOf a)).cmd

/-- An arrival of a command that can complete: it waits on a core that is on, and its result has a place. -/
structure CanComplete (p : Pkg) (a : Arrival) : Prop where
  named   : a.cmd.isSome = true
  arrived : Arrived p (idOf a) (commandOf p a)
  place   : a.own = 0 → a.coll = true → Eng.linear (commandOf p a).d.toNat (4 * a.count) 4 = true

theorem length_results (value : Nat → Lane) (n : Nat) : ((List.range n).flatMap fun i => bytesOf 4 (value i).toNat).length = 4 * n := by
  simp [List.length_flatMap, Nat.mul_comm]

/-- An arrival that has its elements written is a collective without a status. -/
theorem resultWords_cases (status : Nat) (value : Arrival → Nat → Lane) (c : Cmd) (a : Arrival) :
    (resultWords status value c a = [] ∧ (a.own ≠ 0 ∨ status ≠ 0 ∨ a.coll = false ∨ a.count = 0)) ∨
      (a.own = 0 ∧ status = 0 ∧ a.coll = true ∧ a.count ≠ 0 ∧ resultWords status value c a =
        Eng.localWrites (coreOf c.ctx) c.d.toNat ((List.range a.count).flatMap fun i => bytesOf 4 (value a i).toNat)) := by
  by_cases own : a.own = 0
  · by_cases writes : status = 0 ∧ a.coll = true ∧ a.count ≠ 0
    · obtain ⟨none, coll, count⟩ := writes
      exact .inr ⟨own, none, coll, count, if_pos (by simp [own, none, coll, count])⟩
    · refine .inl ⟨if_neg (by simpa [own] using writes), ?_⟩
      by_contra all
      push Not at all
      exact writes ⟨all.2.1, by simpa using all.2.2.1, all.2.2.2⟩
  · exact .inl ⟨if_neg (by simp [own]), .inl own⟩

theorem ofCore_resultWords {p : Pkg} {a : Arrival} (h : CanComplete p a) (status : Nat) (value : Arrival → Nat → Lane) :
    ∀ w ∈ resultWords status value (commandOf p a) a, OfCore (coreOf (commandOf p a).ctx) w := by
  rcases resultWords_cases status value (commandOf p a) a with ⟨none, -⟩ | ⟨own, -, coll, count, words⟩
  · rw [none]
    nofun
  · rw [words]
    exact (localWrites_linear _ (length_results _ _) (h.place own coll) count).1

section
variable {p : Pkg} {ms : List Arrival} (can : ∀ a ∈ ms, CanComplete p a) (apart : (ms.map (·.cmd)).Nodup)
include can apart

theorem nodup_idOf : (ms.map idOf).Nodup := by
  have ids : ms.map idOf = (ms.map (·.cmd)).map fun c => c.getD 0 := by rw [List.map_map]; rfl
  rw [ids]
  refine apart.map_on fun x hx y hy same => ?_
  obtain ⟨a, ha, rfl⟩ := List.mem_map.1 hx
  obtain ⟨b, hb, rfl⟩ := List.mem_map.1 hy
  obtain ⟨i, hi⟩ := Option.isSome_iff_exists.1 (can a ha).named
  obtain ⟨j, hj⟩ := Option.isSome_iff_exists.1 (can b hb).named
  rw [hi, hj] at same ⊢
  exact congrArg some same

theorem completeEpisode_frame (env : Env) (status : Nat) (before all : Nat → List Lane) (order : inOrder p ms = ms) :
    (∀ a ∈ ms, Completed (completeEpisode env status before all ms p) (idOf a) (if a.own != 0 then a.own else status) (commandOf p a)) ∧
      SameParts (ms.foldl (writeWords (commandOf p) fun a =>
        resultWords status (fun a i => collElem p a.op a.type a.root i (before i) (all i) ms a) (commandOf p a) a) p)
        (completeEpisode env status before all ms p) := by
  obtain ⟨arrivals, complete⟩ := completeEpisode_eq env status before all ms p
  rw [order] at complete
  obtain ⟨done, -, parts⟩ := foldl_completed (q := p) (c := commandOf p)
    (f := finishMember env status fun a i => collElem p a.op a.type a.root i (before i) (all i) ms a)
    (status := fun a => if a.own != 0 then a.own else status)
    (words := fun a => resultWords status (fun a i => collElem p a.op a.type a.root i (before i) (all i) ms a) (commandOf p a) a)
    (as := ms)
    (fun a mem q arrived => by
      obtain ⟨id, named⟩ := Option.isSome_iff_exists.1 (can a mem).named
      have is : idOf a = id := by rw [idOf, named]; rfl
      unfold finishMember
      rw [named]
      dsimp only
      rw [is] at arrived ⊢
      rw [arrived.cmd]
      exact finished_finishArrival env arrived (ofCore_resultWords (can a mem) status _))
    (nodup_idOf can apart) fun a mem => (can a mem).arrived
  rw [complete]
  exact ⟨fun a mem => ⟨(done a mem).gone, (done a mem).token⟩, parts.trans (.of_fields rfl rfl rfl)⟩

end

/-- What a collective's result leaves in its core, where it has elements. -/
def writeResult (p : Pkg) (ms : List Arrival) (q : Pkg) (a : Arrival) : Pkg :=
  if a.coll = false ∨ a.count = 0 then q else
    engineWrite (coreOf (commandOf p a).ctx)
      (cellsAt (commandOf p a).d.toNat ((List.range a.count).flatMap fun i => bytesOf 4 (valueOf p ms a i).toNat))
      (wordsOf (commandOf p a).d.toNat (4 * a.count)) q

/-- Nothing is written where the episode has a status. -/
theorem sameParts_noResults (p : Pkg) {status : Nat} (bad : status ≠ 0) (value : Arrival → Nat → Lane) (ms : List Arrival) :
    SameParts p (ms.foldl (writeWords (commandOf p) fun a => resultWords status value (commandOf p a) a) p) := by
  have none (a : Arrival) : resultWords status value (commandOf p a) a = [] := by
    rcases resultWords_cases status value (commandOf p a) a with ⟨none, -⟩ | ⟨-, zero, -⟩
    · exact none
    · exact absurd zero bad
  have each := sameParts_foldl₂ (f := fun q _ => q) (g := writeWords (commandOf p) fun a => resultWords status value (commandOf p a) a)
    (as := ms) (fun a _ q r same => by
      unfold writeWords
      dsimp only
      rw [none]
      exact same.trans (modK_writtenCore_nil r _).symm) (q := p) .rfl
  rwa [List.foldl_fixed] at each

theorem sameParts_results {p : Pkg} {ms : List Arrival} (can : ∀ a ∈ ms, CanComplete p a) (sound : ∀ a ∈ ms, a.own = 0)
    {value : Arrival → Nat → Lane} (is : ∀ a ∈ ms, a.coll = true → value a = valueOf p ms a) :
    SameParts (ms.foldl (writeResult p ms) p)
      (ms.foldl (writeWords (commandOf p) fun a => resultWords 0 value (commandOf p a) a) p) := by
  refine sameParts_foldl₂ (fun a mem q r same => ?_) .rfl
  unfold writeResult writeWords
  dsimp only
  rcases resultWords_cases 0 value (commandOf p a) a with ⟨none, why⟩ | ⟨-, -, coll, count, words⟩
  · rw [none, if_pos (by simpa [sound a mem] using why)]
    exact same.trans (modK_writtenCore_nil r _).symm
  · obtain ⟨-, bytes, full⟩ := localWrites_linear (coreOf (commandOf p a).ctx) (length_results (value a) a.count)
      ((can a mem).place (sound a mem) coll) count
    rw [words, bytes, full, is a mem coll, if_neg (by simp [coll, count])]
    exact (sameParts_engineWriteBy [] [] 0 _ _ _ q).symm.trans (sameParts_modK_modK same _ fun h => sameCells_writtenCore h _ _)

/-- Where no two arrivals are apart, the result of a collective's arrival is its value. -/
theorem collElem_eq_valueOf {p : Pkg} {ms : List Arrival} (pkgs : ∀ a ∈ ms, a.pkg = p.number) (sorted : ms.Pairwise (Before p))
    (agree : ¬Differ ms) {a : Arrival} (mem : a ∈ ms) (coll : a.coll = true) (op : a.op ≤ 4) (i : Nat) :
    collElem p a.op a.type a.root i [] [localPart p (ms.headD default) ms i] ms a = valueOf p ms a i := by
  have head : ms.headD default ∈ ms := by
    cases ms with
    | nil => cases mem
    | cons b bs => exact List.mem_cons_self
  unfold Differ at agree
  push Not at agree
  obtain ⟨together, rooted⟩ := agree
  have first := together _ head a mem
  unfold Apart at first
  push Not at first
  obtain ⟨coll', rest⟩ := first
  obtain ⟨-, same, type, -⟩ := rest (coll'.trans coll) coll
  exact collElem_eq pkgs sorted mem op same type (fun four => rooted a mem coll four) i

/-- Settles O35: arrivals by what their commands' accesses come to; an episode by its arrivals completed one after another, each
with its own token and words, and by the order of its members, which fixes what each of them is given. -/
theorem episodesComplete : Obligations.EpisodesComplete := by
  refine ⟨fun c s present fresh => ?_, fun node group number s ms => ?_⟩
  · intro g home
    refine ⟨fun h named => ?_, fun h named count op type source dest clean => ?_, fun away => Arrivals.barrier_away present away,
      fun h other => Arrivals.barrier_other present h other⟩
    · obtain ⟨t, runs, phase, arrivals, storage⟩ := Arrivals.barrier_arrives present h named
      exact ⟨t, _, runs, phase, arrivals, rfl, rfl, rfl, rfl, rfl, rfl, rfl, storage⟩
    · obtain ⟨t, runs, phase, arrivals, storage⟩ :=
        Arrivals.collective_arrives present fresh h named count op type source dest clean
      exact ⟨t, _, runs, phase, arrivals, rfl, rfl, rfl, rfl, rfl, rfl, rfl, rfl, rfl, rfl, rfl, rfl, storage⟩
  · intro p arrived coming missing faulty differ die before cmdOf ends left add least greatest element onDie total value results
    refine ⟨fun zero => ?_, fun some_ live alone perm sorted => ⟨exec_episodeComplete_coming live perm, fun all apart still => ?_⟩⟩
    · show execEpisodeComplete node group number s = _
      exact if_pos (by simp [zero])
    have pkgs (a : Arrival) (mem : a ∈ ms) : a.pkg = p.number := (all a mem).1
    have can (a : Arrival) (mem : a ∈ ms) : CanComplete p a := by
      obtain ⟨-, -, present, -, phase, late, away, on, token, unit, place⟩ := all a mem
      have named : a.cmd.isSome = true := by
        have kept := (List.mem_filter.1 (perm.mem_iff.1 mem)).2
        simp only [Bool.and_eq_true] at kept
        exact kept.2
      exact ⟨named, ⟨present, rfl, phase, late, away, unit, on, token⟩, fun own coll => (place own coll).2⟩
    have order : inOrder p ms = ms := inOrder_eq pkgs sorted .rfl
    obtain ⟨absent, absent_eq⟩ : ∃ b, b = (memberParts p node group).any fun i => !ms.any fun a => a.part == i := ⟨_, rfl⟩
    have missing_iff : absent = true ↔ missing := by simp [absent_eq, missing]
    have runs := exec_episodeComplete some_ live alone perm sorted pkgs still
    rw [← absent_eq] at runs
    obtain ⟨completed, parts⟩ := completeEpisode_frame can apart s.env (statusOf absent ms) (fun _ => [])
      (fun i => [localPart p (ms.headD default) ms i]) order
    obtain ⟨r, done⟩ : ∃ r, completeEpisode s.env (statusOf absent ms) (fun _ => [])
      (fun i => [localPart p (ms.headD default) ms i]) ms p = r := ⟨_, rfl⟩
    rw [done] at runs completed parts
    have ending {of : Arrival → Nat} (same : ∀ a ∈ ms, (if a.own != 0 then a.own else statusOf absent ms) = of a) :
        ends { s with pkg := r } of := by
      refine ⟨runs, fun a mem => ?_⟩
      obtain ⟨gone, state, status, acked, -⟩ := completed a mem
      exact ⟨gone, state, status.trans (same a mem), acked⟩
    have quiet (bad : statusOf absent ms ≠ 0) : SameStorage p r := ((sameParts_noResults p bad _ ms).trans parts).storage
    have sound (h : ¬faulty) (a : Arrival) (mem : a ∈ ms) : a.own = 0 := by
      by_contra own
      exact h ⟨a, mem, own⟩
    have differ_iff : differ ↔ (disagree ms || rootless ms) = true := EpisodeOrder.differ_iff ms
    refine ⟨fun bad => ?_, fun whole fine bad => ?_, fun whole fine agree => ?_⟩
    · have status : statusOf absent ms = 0x12 := statusOf_faulty (fun a mem => (all a mem).2.1) (bad.imp_left missing_iff.2)
      refine ⟨_, ending fun a mem => ?_, quiet (by rw [status]; decide)⟩
      rw [status]
      by_cases own : a.own = 0 <;> simp [own]
    · have none : absent = false := Bool.eq_false_iff.2 (mt missing_iff.1 whole)
      have status : statusOf absent ms = 0x13 := by rw [none, statusOf_sound (sound fine), if_pos (differ_iff.1 bad)]
      refine ⟨_, ending fun a mem => ?_, quiet (by rw [status]; decide)⟩
      simp [sound fine a mem, status]
    · have none : absent = false := Bool.eq_false_iff.2 (mt missing_iff.1 whole)
      have status : statusOf absent ms = 0 := by rw [none, statusOf_sound (sound fine), if_neg (mt differ_iff.2 agree)]
      refine ⟨_, ending fun a mem => ?_, ?_⟩
      · simp [sound fine a mem, status]
      · have written := sameParts_results (p := p) can (sound fine)
          (value := fun a i => collElem p a.op a.type a.root i [] [localPart p (ms.headD default) ms i] ms a)
          fun a mem coll => funext fun i => by
            obtain ⟨-, -, -, -, -, -, -, -, -, -, place⟩ := all a mem
            exact collElem_eq_valueOf pkgs sorted agree mem coll (place (sound fine a mem) coll).1 i
        rw [status] at parts
        exact (written.trans parts).storage

end Sys2Proof.Proofs.Episodes

namespace Sys2Proof.Proofs.Results

open Machine StorageFrames Landing

/-! ### Result ports (R127) -/

theorem landPort_rport {code : Nat} (scalar : vectorPort code = false) (v : Val) (c : Ctx) :
    (landPort code v c).rport.get code = v.toS := by
  simp [landPort, scalar]

theorem landPort_vport {code : Nat} (vector : vectorPort code = true) (v : Val) (c : Ctx) :
    (landPort code v c).vport.get code = v.toV := by
  simp [landPort, vector]

/-- From `c` to `d` nothing has changed but result ports, and of those only ones whose codes are among `changed`. -/
def OnlyPorts (changed : Nat → Prop) (c d : Ctx) : Prop :=
  (∃ r v, d = { c with rport := r, vport := v }) ∧
    ∀ code, ¬changed code → d.rport.get code = c.rport.get code ∧ d.vport.get code = c.vport.get code

theorem OnlyPorts.rfl {changed : Nat → Prop} {c : Ctx} : OnlyPorts changed c c :=
  ⟨⟨_, _, Eq.refl _⟩, fun _ _ => ⟨Eq.refl _, Eq.refl _⟩⟩

theorem OnlyPorts.trans {changed : Nat → Prop} {b c d : Ctx} (first : OnlyPorts changed b c) (second : OnlyPorts changed c d) :
    OnlyPorts changed b d := by
  obtain ⟨⟨_, _, fields⟩, ports⟩ := first
  obtain ⟨⟨r, v, fields'⟩, ports'⟩ := second
  exact ⟨⟨r, v, by rw [fields', fields]⟩,
    fun code h => ⟨(ports' code h).1.trans (ports code h).1, (ports' code h).2.trans (ports code h).2⟩⟩

theorem landPort_only {changed : Nat → Prop} {place : Nat} (h : changed place) (v : Val) (c : Ctx) :
    OnlyPorts changed c (landPort place v c) := by
  have apart {code : Nat} (kept : ¬changed code) : code ≠ place := fun same => kept (same ▸ h)
  unfold landPort
  split
  · exact ⟨⟨_, _, rfl⟩, fun code kept => ⟨rfl, NMap.get_set_of_ne _ _ (apart kept)⟩⟩
  · exact ⟨⟨_, _, rfl⟩, fun code kept => ⟨NMap.get_set_of_ne _ _ (apart kept), rfl⟩⟩

/-- A port receives a value where there is one. -/
def landOptional (code : Nat) (v : Option Val) (c : Ctx) : Ctx := v.elim c fun v => landPort code v c

theorem landOptional_only {changed : Nat → Prop} {place : Nat} (h : changed place) (v : Option Val) (c : Ctx) :
    OnlyPorts changed c (landOptional place v c) := by
  cases v with
  | none => exact .rfl
  | some v => exact landPort_only h v c

/-- What an entry's h port receives: sm.h is of class S, every other one of class V (R127). -/
def secondValue (e : Entry) (w : Vec) : Val := if e.unit = 2 then .s (w.setWidth 64) else .v w

/-- An entry's r port and h port receive what it delivers. -/
def landPorts (e : Entry) (c : Ctx) : Ctx :=
  landOptional (0x080 + e.unit) (e.h.map (secondValue e)) (landOptional (0x070 + e.unit) e.r c)

section
variable (e : Entry) (c : Ctx)

theorem landPorts_only : OnlyPorts (fun code => code = 0x070 + e.unit ∨ code = 0x080 + e.unit) c (landPorts e c) :=
  (landOptional_only (.inl rfl) e.r c).trans (landOptional_only (.inr rfl) _ _)

/-- The h port is another than the r port. -/
theorem landPorts_first :
    (landPorts e c).rport.get (0x070 + e.unit) = (landOptional (0x070 + e.unit) e.r c).rport.get (0x070 + e.unit) ∧
      (landPorts e c).vport.get (0x070 + e.unit) = (landOptional (0x070 + e.unit) e.r c).vport.get (0x070 + e.unit) :=
  (landOptional_only (changed := (· = 0x080 + e.unit)) rfl _ _).2 _ (by omega)

theorem landPorts_r_scalar {v : Val} (delivers : e.r = some v) (scalar : e.unit ∈ [0, 1, 2, 4, 5, 12, 13, 15]) :
    (landPorts e c).rport.get (0x070 + e.unit) = v.toS := by
  have kind : ∀ u ∈ [0, 1, 2, 4, 5, 12, 13, 15], vectorPort (0x070 + u) = false := by decide
  rw [(landPorts_first e c).1, delivers]
  exact landPort_rport (kind _ scalar) v c

theorem landPorts_r_vector {v : Val} (delivers : e.r = some v) (vector : e.unit ∈ [6, 7, 8, 9, 10, 11]) :
    (landPorts e c).vport.get (0x070 + e.unit) = v.toV := by
  have kind : ∀ u ∈ [6, 7, 8, 9, 10, 11], vectorPort (0x070 + u) = true := by decide
  rw [(landPorts_first e c).2, delivers]
  exact landPort_vport (kind _ vector) v c

theorem landPorts_h_scalar {w : Vec} (delivers : e.h = some w) (sm : e.unit = 2) : (landPorts e c).rport.get 0x082 = w.setWidth 64 := by
  rw [landPorts, delivers, sm, Option.map_some, secondValue, if_pos sm]
  exact landPort_rport (code := 0x082) (by decide) _ _

theorem landPorts_h_vector {w : Vec} (delivers : e.h = some w) (vector : e.unit ∈ [4, 5, 9, 11]) :
    (landPorts e c).vport.get (0x080 + e.unit) = w := by
  have kind : ∀ u ∈ [4, 5, 9, 11], u ≠ 2 ∧ vectorPort (0x080 + u) = true := by decide
  obtain ⟨notSm, wide⟩ := kind _ vector
  rw [landPorts, delivers, Option.map_some, secondValue, if_neg notSm]
  exact landPort_vport wide _ _

end

/-! ### Flags and maximum (R65 to R67) -/

/-- The flags that an entry sets: those of its operation, and NS where it saw a NaN. -/
def raised (e : Entry) : Lane := e.flags ||| (if e.ns then BitVec.ofNat 32 fNS else 0)

theorem getLsbD_raised (e : Entry) {i : Nat} (h : i < 7) : (raised e).getLsbD i = (e.flags.getLsbD i || (e.ns && i == 6)) := by
  have ns : ∀ i < 7, (BitVec.ofNat 32 fNS).getLsbD i = (i == 6) := by decide
  cases hns : e.ns <;> simp [raised, hns, ns i h]

/-- R66: the flags that land are or-ed to those that stand. -/
theorem fflags_landFlags (fl : Lane) (c : Ctx) {i : Nat} (h : i < 7) :
    (landFlags fl c).fflags.getLsbD i = (c.fflags.getLsbD i || fl.getLsbD i) := by
  have kept : ∀ i < 7, (cregMask 0x0D0).getLsbD i = true := by decide
  have wide : i < 64 := by omega
  rw [landFlags, Ctx.fflags, Ctx.cr_setCr_self]
  simp [kept i h, wide]

theorem landFlags_cr_of_ne (fl : Lane) (c : Ctx) {code : Nat} (h : code ≠ 0x0D0) : (landFlags fl c).cr code = c.cr code :=
  Ctx.cr_setCr_of_ne _ _ h

/-- c.amax has room for a binary32. -/
theorem setWidth_and_mask (y : Lane) : y.setWidth 64 &&& cregMask 0x0D1 = y.setWidth 64 := by
  apply BitVec.eq_of_toNat_eq
  have small : y.toNat < 2 ^ 64 := Nat.lt_trans y.isLt (by decide)
  show (y.setWidth 64).toNat &&& (2 ^ 32 - 1) = _
  rw [Nat.and_two_pow_sub_one_eq_mod, BitVec.toNat_setWidth, Nat.mod_eq_of_lt small, Nat.mod_eq_of_lt y.isLt]

theorem amax_landAmax (y : Lane) (c : Ctx) : (landAmax (some y) c).amax =
    if FVal.lt (Lane.val (c.amax.setWidth 32)) (Lane.val y) then y.setWidth 64 else c.amax := by
  unfold landAmax
  dsimp only
  split
  · rw [Ctx.amax, Ctx.cr_setCr_self, setWidth_and_mask]
  · rfl

theorem landAmax_cr_of_ne (cand : Option Lane) (c : Ctx) {code : Nat} (h : code ≠ 0x0D1) : (landAmax cand c).cr code = c.cr code := by
  unfold landAmax
  split
  · rfl
  · split
    · exact Ctx.cr_setCr_of_ne _ _ h
    · rfl

/-- Flags and maximum are context registers. -/
theorem landAmax_landFlags (cand : Option Lane) (fl : Lane) (c : Ctx) :
    landAmax cand (landFlags fl c) = { c with creg := (landAmax cand (landFlags fl c)).creg } := by
  unfold landAmax
  split
  · rfl
  · split <;> rfl

/-! ### Registers that an entry writes by itself -/

/-- What every fixed register leaves alone, all of them together do. -/
theorem foldl_landFixed_keeps {α : Type} {read : Ctx → α} (keeps : ∀ c q, read (landFixed c q) = read c) (qs : List (Fixed × Word))
    (c : Ctx) : read (qs.foldl landFixed c) = read c := by
  induction qs generalizing c with
  | nil => rfl
  | cons q qs ih => rw [List.foldl_cons, ih, keeps]

theorem landFixed_rport (c : Ctx) (q : Fixed × Word) : (landFixed c q).rport = c.rport := by
  obtain ⟨fixed, w⟩ := q
  cases fixed <;> rfl

theorem landFixed_vport (c : Ctx) (q : Fixed × Word) : (landFixed c q).vport = c.vport := by
  obtain ⟨fixed, w⟩ := q
  cases fixed <;> rfl

/-- Neither c.fflags nor c.amax is a fixed register. -/
theorem landFixed_cr {code : Nat} (h : code = 0x0D0 ∨ code = 0x0D1) (c : Ctx) (q : Fixed × Word) :
    (landFixed c q).cr code = c.cr code := by
  obtain ⟨fixed, w⟩ := q
  cases fixed with
  | s31 => rfl
  | pred n => rfl
  | lc => exact Ctx.cr_setCr_of_ne _ _ (by omega)
  | lcx => exact Ctx.cr_setCr_of_ne _ _ (by omega)
  | rrb => exact Ctx.cr_setCr_of_ne _ _ (by omega)
  | sc => exact Ctx.cr_setCr_of_ne _ _ (by omega)

/-! ### A result as it lands -/

section
variable (e : Entry) (c : Ctx)

/-- The order in which a result's parts are applied: ports, flags, maximum, and the registers that the entry writes by itself. -/
theorem landResult_eq :
    landResult e c = e.fixed.foldl landFixed (landAmax e.amax (landFlags (raised e) (landPorts e c))) := by
  unfold landResult landPorts
  cases e.h with
  | none => cases e.r <;> rfl
  | some w =>
    by_cases sm : e.unit = 2
    · cases e.r <;> simp [landOptional, secondValue, raised, sm]
    · cases e.r <;> simp [landOptional, secondValue, raised, sm]

theorem landResult_rport : (landResult e c).rport = (landPorts e c).rport := by
  rw [landResult_eq, foldl_landFixed_keeps (read := Ctx.rport) landFixed_rport, landAmax_landFlags]

theorem landResult_vport : (landResult e c).vport = (landPorts e c).vport := by
  rw [landResult_eq, foldl_landFixed_keeps (read := Ctx.vport) landFixed_vport, landAmax_landFlags]

theorem landPorts_cr (code : Nat) : (landPorts e c).cr code = c.cr code := by
  obtain ⟨⟨_, _, fields⟩, -⟩ := landPorts_only e c
  rw [fields]
  rfl

/-- R66: a landing sets the flags that its entry raises, and clears none. -/
theorem fflags_landResult {i : Nat} (h : i < 7) :
    (landResult e c).fflags.getLsbD i = (c.fflags.getLsbD i || e.flags.getLsbD i || (e.ns && i == 6)) := by
  have kept : (landResult e c).fflags = (landFlags (raised e) (landPorts e c)).fflags := by
    rw [landResult_eq, foldl_landFixed_keeps (read := Ctx.fflags) (landFixed_cr (.inl rfl))]
    exact landAmax_cr_of_ne _ _ (by decide)
  rw [kept, fflags_landFlags _ _ h, getLsbD_raised e h, Bool.or_assoc, Ctx.fflags, landPorts_cr, Ctx.fflags]

theorem amax_landResult : (landResult e c).amax = (landAmax e.amax (landFlags (raised e) (landPorts e c))).amax := by
  rw [landResult_eq, foldl_landFixed_keeps (read := Ctx.amax) (landFixed_cr (.inr rfl))]

theorem amax_flags_ports : (landFlags (raised e) (landPorts e c)).amax = c.amax :=
  (landFlags_cr_of_ne _ _ (by decide)).trans (landPorts_cr e c _)

/-- Without a candidate c.amax stands. -/
theorem amax_landResult_none (h : e.amax = none) : (landResult e c).amax = c.amax := by
  rw [amax_landResult, h]
  exact amax_flags_ports e c

/-- R67: the candidate is taken where it is larger. -/
theorem amax_landResult_some {y : Lane} (h : e.amax = some y) : (landResult e c).amax =
    if FVal.lt (Lane.val (c.amax.setWidth 32)) (Lane.val y) then y.setWidth 64 else c.amax := by
  rw [amax_landResult, h, amax_landAmax, amax_flags_ports]

/-- An entry that writes no register by itself changes ports and context registers alone. -/
theorem landResult_fields (h : e.fixed = []) : ∃ g r v, landResult e c = { c with creg := g, rport := r, vport := v } := by
  obtain ⟨⟨r, v, ports⟩, -⟩ := landPorts_only e c
  rw [landResult_eq, h, List.foldl_nil, landAmax_landFlags]
  generalize (landAmax _ _).creg = g
  exact ⟨g, r, v, by rw [ports]⟩

/-- Of the context registers such an entry changes the flags and the maximum alone. -/
theorem landResult_cr_of_ne (h : e.fixed = []) {code : Nat} (notFlags : code ≠ 0x0D0) (notAmax : code ≠ 0x0D1) :
    (landResult e c).cr code = c.cr code := by
  rw [landResult_eq, h, List.foldl_nil, landAmax_cr_of_ne _ _ notAmax, landFlags_cr_of_ne _ _ notFlags, landPorts_cr]

end

/-- Settles O16: a landing result changes its own context alone, by `landResult`: ports, then flags, then the maximum, and last
the registers that the entry writes by itself, which are none of these. -/
theorem resultsLand : Obligations.ResultsLand := by
  unfold Obligations.ResultsLand
  intro env x e p kind q c d
  have lands : q = p.modC x (landResult e) := by simp only [q, landEntry, kind]
  have own : d = landResult e c := by simp only [d, lands, Pkg.c_modC_self, c]
  rw [own]
  refine ⟨fun v delivers => ?_, fun w delivers => ?_, fun i h => fflags_landResult e c h, amax_landResult_none e c,
    fun y => amax_landResult_some e c, fun unwritten => ?_, fun y other => ?_, ?_⟩
  · rw [landResult_rport, landResult_vport]
    exact ⟨landPorts_r_scalar e c delivers, landPorts_r_vector e c delivers⟩
  · rw [landResult_rport, landResult_vport]
    exact ⟨landPorts_h_scalar e c delivers, landPorts_h_vector e c delivers⟩
  · have registers : ∀ code, code ≠ 0x0D0 → code ≠ 0x0D1 → (landResult e c).cr code = c.cr code :=
      fun _ => landResult_cr_of_ne e c unwritten
    have ports : ∀ code, code ≠ 0x070 + e.unit → code ≠ 0x080 + e.unit →
        (landResult e c).rport.get code = c.rport.get code ∧ (landResult e c).vport.get code = c.vport.get code := by
      intro code notR notH
      rw [landResult_rport, landResult_vport]
      exact (landPorts_only e c).2 code (not_or.2 ⟨notR, notH⟩)
    obtain ⟨_, _, _, fields⟩ := landResult_fields e c unwritten
    refine ⟨?_, ?_, ?_, ?_, registers, ports, ?_, ?_, ?_, ?_⟩ <;> simp only [fields, implies_true]
  · rw [lands]
    exact Pkg.c_modC_of_ne _ _ other
  · rw [lands]
    exact (sameParts_modC p x _).storage

/-! ### Flags are sticky (R66) -/

/-- No arithmetic flag set in `c` is clear in `d`. -/
def Sticky (c d : Ctx) : Prop := ∀ i < 7, c.fflags.getLsbD i → d.fflags.getLsbD i

theorem Sticky.of_eq {c d : Ctx} (h : d.fflags = c.fflags) : Sticky c d := fun _ _ set => h ▸ set
theorem Sticky.rfl {c : Ctx} : Sticky c c := .of_eq (Eq.refl _)
theorem Sticky.trans {b c d : Ctx} (first : Sticky b c) (second : Sticky c d) : Sticky b d := fun i h set => second i h (first i h set)

theorem sticky_landResult (e : Entry) (c : Ctx) : Sticky c (landResult e c) := by
  intro i h set
  rw [fflags_landResult e c h, set, Bool.true_or, Bool.true_or]

/-- An update of some context that leaves its flags leaves those of every context. -/
theorem fflags_modC (p : Pkg) (y x : Nat) {f : Ctx → Ctx} (h : ∀ c, (f c).fflags = c.fflags) :
    ((p.modC y f).c x).fflags = (p.c x).fflags := by
  by_cases same : x = y
  · subst same
    rw [Pkg.c_modC_self, h]
  · rw [Pkg.c_modC_of_ne _ _ same]

/-- Operations that each leave a context's flags leave them together. -/
theorem fflags_foldl {α : Type} {x : Nat} {f : Pkg → α → Pkg} (h : ∀ p a, ((f p a).c x).fflags = (p.c x).fflags)
    (as : List α) (p : Pkg) : ((as.foldl f p).c x).fflags = (p.c x).fflags := by
  induction as generalizing p with
  | nil => rfl
  | cons a as ih => rw [List.foldl_cons, ih, h]

theorem fflags_landStore (x : Nat) (e : Entry) (p : Pkg) : ((landStore x e p).c x).fflags = (p.c x).fflags := by
  unfold landStore
  split
  · obtain ⟨-, regs, -⟩ := performWhere_frame x _ p
    exact regs.creg _
  · rfl

theorem fflags_freezeBy (y x : Nat) (p : Pkg) : ((freezeBy y p).c x).fflags = (p.c x).fflags := by
  unfold freezeBy
  split
  · rfl
  · rfl
  · rfl
  · unfold freezeCtx
    rw [Pkg.modK_read_c]
    exact fflags_modC p y x fun _ => rfl

/-- R316: a halt freezes contexts and leaves their flags. -/
theorem fflags_haltEffect (env : Env) (y x : Nat) (whole : Bool) (p : Pkg) :
    ((haltEffect env y whole p).c x).fflags = (p.c x).fflags := by
  unfold haltEffect
  refine fflags_foldl (fun p z => ?_) _ p
  have frozen : ((freezeBy z (p.modC z fun c => { c with watchdog := watchdogCount env c })).c x).fflags = (p.c x).fflags :=
    (fflags_freezeBy z x _).trans (fflags_modC p z x fun _ => rfl)
  dsimp only
  generalize freezeBy z _ = q at frozen ⊢
  split
  · refine (fflags_modC q z x fun _ => ?_).trans frozen
    rfl
  · exact frozen

theorem coreRegWrite_c (n off v : Nat) (p : Pkg) (x : Nat) : (coreRegWrite n off v p).c x = p.c x := by
  unfold coreRegWrite
  split <;> rfl

/-- R312: `sys.cwr` writes registers of the core or of another context. -/
theorem cwrEffect_c_self (x : Nat) (e : Entry) (p : Pkg) : (cwrEffect x e p).c x = p.c x := by
  unfold cwrEffect
  dsimp only
  split
  · exact coreRegWrite_c ..
  · split
    · next named =>
      obtain ⟨-, -, -, other, -⟩ := named
      exact Pkg.c_modC_of_ne _ _ (Ne.symm other)
    · rfl

theorem sticky_landEntry (env : Env) (x : Nat) (e : Entry) (p : Pkg) : Sticky (p.c x) ((landEntry env x e p).c x) := by
  unfold landEntry
  cases e.kind with
  | result =>
    rw [Pkg.c_modC_self]
    exact sticky_landResult e _
  | store => exact .of_eq (fflags_landStore x e p)
  | branch => exact .of_eq (fflags_modC p x x fun c => foldl_landFixed_keeps (read := Ctx.fflags) (landFixed_cr (.inl rfl)) _ c)
  | check =>
    dsimp only
    split
    · exact .of_eq (fflags_modC p x x fun _ => rfl)
    · exact .rfl
  | sysop =>
    dsimp only
    split
    · exact .of_eq (fflags_haltEffect env x x _ p)
    · rw [cwrEffect_c_self]
      exact .rfl

/-- The due entries landed one after the other. -/
theorem sticky_landDue (env : Env) (x : Nat) (p : Pkg) : Sticky (p.c x) ((landDue env x p).c x) := by
  unfold landDue
  generalize (p.c x).flight.filter _ = due
  induction due generalizing p with
  | nil => exact .rfl
  | cons e due ih => exact (sticky_landEntry env x e p).trans (ih _)

theorem sticky_landAll (env : Env) (x : Nat) (p : Pkg) : Sticky (p.c x) ((landAll env x p).c x) := by
  have kept (q : Pkg) : Sticky (q.c x) ((keepUndue x q).c x) := .of_eq (fflags_modC q x x fun _ => rfl)
  cases met : badAmong x (dueStore (p.c x)) p with
  | false =>
    rw [landAll_of_sound met]
    exact (sticky_landDue env x p).trans (kept _)
  | true =>
    have dropped : Sticky (p.c x) ((dropBad x (dueStore (p.c x)) p).c x) := .of_eq (fflags_modC p x x fun _ => rfl)
    have spoiled (q : Pkg) : Sticky (q.c x) ((q.modC x fun c => { c with spoiled := true }).c x) :=
      .of_eq (fflags_modC q x x fun _ => rfl)
    rw [landAll_of_bad met]
    exact (dropped.trans (spoiled _)).trans ((sticky_landDue env x _).trans (kept _))

/-- Settles O17: a result ors its flags to c.fflags, every other kind of entry leaves them, and so does what stands around the
landings. -/
theorem flagsAreSticky : Obligations.FlagsAreSticky := by
  unfold Obligations.FlagsAreSticky
  intro x s t run
  have lands : exec (.entryLanding x) s = .next { s with pkg := landAll s.env x s.pkg } := rfl
  cases lands.symm.trans run
  exact sticky_landAll s.env x s.pkg

end Sys2Proof.Proofs.Results

namespace Sys2Proof.Proofs.ResetValues

open Machine

/-! ### The register values at reset (R310, R337, R360, R389) -/

/-- A map in canonical form reads at a listed key what is listed. -/
theorem get_of_mem {α : Type} [Inhabited α] [DecidableEq α] {m : NMap α} (h : m.wf = true) {k : Nat} {v : α}
    (listed : (k, v) ∈ m) : m.get k = v := by
  obtain ⟨rising, -⟩ := (NMap.wf_iff m).1 h
  clear h
  induction m with
  | nil => cases listed
  | cons e m ih =>
    obtain ⟨first, rest⟩ := List.pairwise_cons.1 rising
    rcases List.mem_cons.1 listed with rfl | later
    · simp [NMap.get]
    · have above : e.1 ≠ k := Nat.ne_of_lt (first _ later)
      rw [NMap.get, if_neg above]
      exact ih later rest

theorem wf_resetRegs : resetRegs.wf = true := by decide +kernel

theorem regv_reset {a : Nat} {v : Word} (listed : (a, v) ∈ resetRegs) : State.reset.pkg.regv a = v.toNat :=
  congrArg BitVec.toNat (get_of_mem wf_resetRegs listed)

theorem regv_reset_core {n : Nat} (h : n < 72) :
    State.reset.pkg.regv (0x01000008 + 0x1000 * n) = 256 ∧ State.reset.pkg.regv (0x01000018 + 0x1000 * n) = 256 := by
  have listed : ∀ e ∈ [(0x01000008 + 0x1000 * n, (0x100 : Word)), (0x01000018 + 0x1000 * n, 0x100)], e ∈ resetRegs := by
    intro e he
    simp only [resetRegs, List.mem_append, List.mem_flatMap, List.mem_range]
    exact .inl (.inl (.inr ⟨n, h, he⟩))
  exact ⟨regv_reset (listed _ (.head _)), regv_reset (listed _ (.tail _ (.head _)))⟩

theorem regv_reset_coreMap {k : Nat} (h : k < 9) : State.reset.pkg.regv (0x03000040 + 8 * k) = 2 ^ 64 - 1 := by
  refine regv_reset (v := 0xFFFFFFFFFFFFFFFF) ?_
  simp only [resetRegs, List.mem_append, List.mem_map, List.mem_range]
  exact .inl (.inr ⟨k, h, rfl⟩)

/-- Settles O58: nothing but the registers of `resetRegs` is listed at reset, and these read as they are listed. -/
theorem resetState : Obligations.ResetState := by
  unfold Obligations.ResetState
  refine ⟨rfl, rfl, rfl, fun _ => rfl, .of_eq rfl rfl rfl, fun _ => ⟨rfl, rfl⟩, fun _ _ => ⟨rfl, rfl⟩, rfl, rfl, ?_, ?_, ?_, ?_,
    fun _ => regv_reset_core, fun _ => regv_reset_coreMap⟩
  · exact regv_reset (v := 2800) (by simp [resetRegs])
  · exact regv_reset (v := 0x4000) (by simp [resetRegs])
  · exact regv_reset (v := 0x40408) (by simp [resetRegs])
  · exact regv_reset (v := 4) (by simp [resetRegs])

end Sys2Proof.Proofs.ResetValues

namespace Sys2Proof.Proofs.Stepping

open Machine

/-! ### The bundle that a fetch finds (R73, R120) -/

/-- The word at an address reads as its four bytes. -/
theorem fetchWord_of_settled {p : Pkg} {x : Nat} (settled : (p.k (coreOf x)).stale = []) (none_ : pending (p.c x) = []) (w : Nat) :
    bytesOf 4 (p.fetchWord x w).toNat = (p.k (coreOf x)).spad.getMany (4 * w) 4 := by
  have word : p.fetchWord x w = BitVec.ofNat 32 (natOf ((p.k (coreOf x)).spad.getMany (4 * w) 4)) := by
    simp [Pkg.fetchWord, settled, none_, viewBytes]
  have len : ((p.k (coreOf x)).spad.getMany (4 * w) 4).length = 4 := by simp [Memory.getMany, NMap.getMany]
  rw [word, BitVec.toNat_ofNat, Nat.mod_eq_of_lt (by simpa [len] using natOf_lt ((p.k (coreOf x)).spad.getMany (4 * w) 4))]
  exact len ▸ bytesOf_natOf _

theorem getMany_words (m : Memory) (w n : Nat) :
    ((List.range n).flatMap fun i => m.getMany (4 * (w + i)) 4) = m.getMany (4 * w) (4 * n) := by
  induction n with
  | zero => rfl
  | succ n ih =>
    rw [List.range_succ, List.flatMap_append, ih]
    simp only [Memory.getMany, NMap.getMany, List.flatMap_cons, List.flatMap_nil, List.append_nil, Nat.mul_succ, List.range_add,
      List.map_append, List.map_map, Function.comp_def, Nat.mul_add, Nat.add_assoc]

theorem fetchBundle_of_settled {p : Pkg} {x a : Nat} (aligned : a % 4 = 0) (settled : (p.k (coreOf x)).stale = [])
    (none_ : pending (p.c x) = []) : p.fetchBundle x a = bundleOfBytes ((p.k (coreOf x)).spad.getMany a 32) := by
  have place : 4 * (a / 4) = a := by omega
  rw [Pkg.fetchBundle]
  simp only [fetchWord_of_settled settled none_, getMany_words]
  rw [place]

/-! ### One step -/

section
variable {s : State} {rest : List Micro} {ch : Nat} (first : s.pkg.micro = .trowel ch :: rest)
include first

/-- The word that a channel fetches does not depend on the parts still to be made. -/
theorem step_trowel {i : Instr} (word : decodeTrowel (trowelWord s.pkg ch) = .ok i) :
    step s = exec i { s with pkg := { s.pkg with micro := rest, focus := ch } } := by
  have same : decodeTrowel (trowelWord { s.pkg with micro := rest } ch) = .ok i := word
  simp only [step, first, same]

theorem step_trowel_reserved {e : Reject} (word : decodeTrowel (trowelWord s.pkg ch) = .error e) :
    step s = .fault .reservedTrowelWord := by
  have same : decodeTrowel (trowelWord { s.pkg with micro := rest } ch) = .error e := word
  simp only [step, first, same]

end

theorem step_event {s : State} (idle : s.pkg.micro = []) : step s =
    if isEvent (nextEvent s.env) && eventAllowed s.pkg (nextEvent s.env) then
      exec (nextEvent s.env) (announce (nextEvent s.env) { s with env := advance s.env })
    else .next { s with env := advance s.env } := by
  rw [step, idle]

/-- Settles O54: one part of a step under way or the next event, and what a fetch finds. -/
theorem stepsRunInstructions : Obligations.StepsRunInstructions := by
  unfold Obligations.StepsRunInstructions
  intro s rest r first
  refine ⟨fun i first => ?_, fun f i first => ?_, fun x first => ?_, fun ch i word first => ?_, fun ch e word first => ?_,
    fun idle => ⟨fun event allowed => ?_, fun none_ => ?_⟩, fun x a => fetchBundle_of_settled⟩
  · rw [step, first]
  · rw [step, first]
  · rw [step, first]
  · exact step_trowel first word
  · exact step_trowel_reserved first word
  · rw [step_event idle, event, allowed]
    rfl
  · rw [step_event idle]
    rcases none_ with h | h <;> simp [h]

end Sys2Proof.Proofs.Stepping

namespace Sys2Proof.Proofs.LocalAddresses

open Machine TriggerFrames

/-! ### Addresses (R71, R152, R154) -/

theorem ea_eq (f : Fire) : ea f = (f.a.toS.toNat + f.b.toS.toNat) % 2 ^ 64 := BitVec.toNat_add ..

theorem laneAddr_eq (f : Fire) (j : Nat) :
    laneAddr f j = (f.a.toS.toNat + f.b.toS.toNat + (f.d.toV.lane j).toNat % 2 ^ 31) % 2 ^ 64 := by
  simp [laneAddr, BitVec.toNat_add]

theorem linearOk_iff {n align a : Nat} : linearOk n align a = true ↔ a % align = 0 ∧ a + n ≤ 0x800000 := by
  simp only [linearOk, Bool.and_eq_true, decide_eq_true_eq, beq_iff_eq]
  exact and_comm

theorem swizzledOk_iff {a : Nat} : swizzledOk a = true ↔ a % 512 = 0 ∧ 0x1000000 ≤ a ∧ a + 512 ≤ 0x1800000 := by
  simp only [swizzledOk, Bool.and_eq_true, decide_eq_true_eq, beq_iff_eq]
  tauto

theorem accOk_iff {align a : Nat} : accOk align a = true ↔ a % align = 0 ∧ 0x2000000 ≤ a ∧ a < 0x2200000 := by
  simp only [accOk, Bool.and_eq_true, decide_eq_true_eq, beq_iff_eq]
  tauto

theorem mem_activeLanes {f : Fire} {j : Nat} : j ∈ activeLanes f ↔ j < 128 ∧ (f.d.toV.lane j).getLsbD 31 = false := by
  simp [activeLanes, laneActive]

/-! ### The range of each operation (R71, R151) -/

section
variable (f : Fire)

theorem lsOk_bytes : ∀ op ∈ [0, 8], lsOk op f = linearOk 1 1 (ea f) := fun _ h => by fin_cases h <;> rfl
theorem lsOk_halves : ∀ op ∈ [1, 9], lsOk op f = linearOk 2 2 (ea f) := fun _ h => by fin_cases h <;> rfl
theorem lsOk_words : ∀ op ∈ [2, 4, 5, 10, 12, 14, 23], lsOk op f = linearOk 4 4 (ea f) := fun _ h => by fin_cases h <;> rfl
theorem lsOk_doubles : ∀ op ∈ [3, 6, 7, 11, 13, 31], lsOk op f = linearOk 8 8 (ea f) := fun _ h => by fin_cases h <;> rfl
theorem lsOk_vectors : ∀ op ∈ [15, 16, 17, 18, 19, 20], lsOk op f = linearOk 512 512 (ea f) := fun _ h => by fin_cases h <;> rfl
theorem lsOk_swizzled : ∀ op ∈ [21, 22], lsOk op f = swizzledOk (ea f) := fun _ h => by fin_cases h <;> rfl
theorem lsOk_lanes : ∀ op ∈ [24, 25], lsOk op f = (activeLanes f).all fun j => linearOk 4 4 (laneAddr f j) :=
  fun _ h => by fin_cases h <;> rfl
theorem lsOk_tagBlocks : ∀ op ∈ [26, 27], lsOk op f = (linearOk 128 128 (ea f) || accOk 8192 (ea f)) := fun _ h => by fin_cases h <;> rfl
theorem lsOk_lines : ∀ op ∈ [28, 29, 30], lsOk op f = accOk 256 (ea f) := fun _ h => by fin_cases h <;> rfl

end

/-! ### The traps (R72, R83) -/

/-- Every row of ls is its own action behind the tests that all of them share. -/
theorem exec_ls {op : Nat} {i : Instr} (h : lsOps[op]? = some i) : ∃ act, ∀ s, exec i s = lsTrigger op act s := by
  obtain ⟨bound, _⟩ := List.getElem?_eq_some_iff.1 h
  have count : op < 32 := bound
  interval_cases op <;> cases h
  all_goals
    dsimp only [exec]
    exact ⟨_, fun _ => rfl⟩

theorem lsTrigger_misplaced {op : Nat} {s : State} (act : Fire → Pkg → Pkg) (bad : lsOk op s.pkg.fire = false) :
    let pc := bundleAddr (s.pkg.c s.pkg.fire.ctx)
    lsTrigger op act s = s.put (sTrap s.env s.pkg.fire.ctx 0x22 pc pc pc s.pkg) := by
  simp [lsTrigger, bad]

theorem lsTrigger_uncorrectable {op : Nat} {s : State} (act : Fire → Pkg → Pkg) (ok : lsOk op s.pkg.fire = true)
    (unsure : s.pkg.fire.sound = false) (bad : lsPoisoned op s.pkg.fire [] s.pkg = true) :
    let pc := bundleAddr (s.pkg.c s.pkg.fire.ctx)
    lsTrigger op act s = s.put (sTrap s.env s.pkg.fire.ctx 0x25 pc pc pc s.pkg) := by
  simp [lsTrigger, ok, unsure, bad]

/-- Settles O12: the range of each operation is one of six forms, and every row of ls tests it first. -/
theorem acceptedAddresses : Obligations.AcceptedAddresses := by
  unfold Obligations.AcceptedAddresses
  refine ⟨?_, fun f op i s unit step => ?_⟩
  · intro f a linear
    have place : ea f = a := ea_eq f
    have scalar (n : Nat) : linearOk n n (ea f) = true ↔ linear n := place ▸ linearOk_iff
    refine ⟨place, ?_, ?_, ?_, ?_, ?_, ?_, ?_, ?_, ?_⟩
    · exact fun op h => lsOk_bytes f op h ▸ scalar 1
    · exact fun op h => lsOk_halves f op h ▸ scalar 2
    · exact fun op h => lsOk_words f op h ▸ scalar 4
    · exact fun op h => lsOk_doubles f op h ▸ scalar 8
    · exact fun op h => lsOk_vectors f op h ▸ scalar 512
    · exact fun op h => lsOk_swizzled f op h ▸ place ▸ swizzledOk_iff
    · intro op h
      simp only [lsOk_lanes f op h, List.all_eq_true, mem_activeLanes, linearOk_iff, laneAddr_eq, and_imp]
    · intro op h
      rw [lsOk_tagBlocks f op h, Bool.or_eq_true, scalar, place, accOk_iff]
    · exact fun op h => lsOk_lines f op h ▸ place ▸ accOk_iff
  · obtain ⟨act, run⟩ := exec_ls (triggerStep_ls unit step)
    rw [run]
    exact ⟨lsTrigger_misplaced act, lsTrigger_uncorrectable act⟩

end Sys2Proof.Proofs.LocalAddresses

namespace Sys2Proof.Proofs.PerformedStores

open Machine StorageFrames EngineWrites

/-! ### The accumulator after a store (R153, R156) -/

/-- The accumulator with the words of a store written or combined, one after the other. -/
def storedAcc (mode : Nat) (words : List (Nat × Lane)) (acc : NMap Lane) : NMap Lane :=
  words.foldl (fun m a => m.set a.1 (accStore mode (m.get a.1) a.2)) acc

theorem apply_acc (n node x : Nat) (st : LStore) (k : Core) : (Core.apply n node x st k).acc = storedAcc st.mode st.acc k.acc := rfl

theorem storedAcc_of_not_mem {mode i : Nat} {words : List (Nat × Lane)} (acc : NMap Lane) (other : ∀ c ∈ words, c.1 ≠ i) :
    (storedAcc mode words acc).get i = acc.get i := by
  induction words generalizing acc with
  | nil => rfl
  | cons c words ih =>
    obtain ⟨this, rest⟩ := List.forall_mem_cons.1 other
    exact (ih _ rest).trans (NMap.get_set_of_ne _ _ this.symm)

/-- Where no word is named twice, each takes its own value once. -/
theorem storedAcc_of_mem {mode : Nat} {words : List (Nat × Lane)} (acc : NMap Lane) (once : (words.map (·.1)).Nodup)
    {c : Nat × Lane} (mem : c ∈ words) : (storedAcc mode words acc).get c.1 = accStore mode (acc.get c.1) c.2 := by
  induction words generalizing acc with
  | nil => cases mem
  | cons d words ih =>
    obtain ⟨fresh, once⟩ := List.nodup_cons.1 once
    have later (e : Nat × Lane) (he : e ∈ words) : e.1 ≠ d.1 := fun same => fresh (List.mem_map.2 ⟨e, he, same⟩)
    rcases List.mem_cons.1 mem with rfl | mem
    · exact (storedAcc_of_not_mem _ later).trans (NMap.get_set_self ..)
    · refine (ih _ once mem).trans ?_
      rw [NMap.get_set_of_ne _ _ (later c mem)]

/-! ### A write of an engine (R77, R191) -/

theorem get_setFull_of_not_mem {ws : List Nat} (m : NMap Bool) {w : Nat} (h : w ∉ ws) :
    (ws.foldl (fun m w => m.set w true) m).get w = m.get w := by
  induction ws generalizing m with
  | nil => rfl
  | cons v ws ih =>
    obtain ⟨this, rest⟩ := not_or.1 (mt List.mem_cons.2 h)
    exact (ih _ rest).trans (NMap.get_set_of_ne _ _ this)

/-- The flags of the words that a write sets full are noted first, where it sets any. -/
def notedFull (carry : List Carry) (n : Nat) (full : List Nat) (p : Pkg) : Pkg :=
  if full.isEmpty then p else p.modStale fun e =>
    e.reflag n full ((carry.find? fun c => c.write == e.number).map fun c => (c.lin, c.swz, c.far))

theorem engineWriteBy_eq (carry : List Carry) (after : List Nat) (node n : Nat) (cells : List Host.Cell) (full : List Nat) (p : Pkg) :
    ∃ f i, engineWriteBy carry after node n cells full p =
      { (conveyTags n full after (notedFull carry n full p)).modK n f with nextWrite := i } := ⟨_, _, rfl⟩

theorem notedFull_same (carry : List Carry) (n : Nat) (full : List Nat) (p : Pkg) (m : Nat) :
    SameCore (p.k m) ((notedFull carry n full p).k m) := by
  unfold notedFull
  split
  · exact .rfl
  · exact modStale_same _ p m

theorem notedFull_fields (carry : List Carry) (n : Nat) (full : List Nat) (p : Pkg) :
    ∃ cores, notedFull carry n full p = { p with core := cores } := by
  unfold notedFull
  split <;> exact ⟨_, rfl⟩

/-- What an engine's write to one core leaves of the package: every other core, but for what is noted of performed writes (log 22). -/
theorem engineWriteBy_frame (carry : List Carry) (after : List Nat) (node n : Nat) (cells : List Host.Cell) (full : List Nat) (p : Pkg) :
    let q := engineWriteBy carry after node n cells full p
    (∀ m, m ≠ n → SameCore (p.k m) (q.k m)) ∧ q.ctx = p.ctx ∧ q.mem = p.mem ∧ q.side = p.side ∧ q.cmds = p.cmds := by
  obtain ⟨f, i, written⟩ := engineWriteBy_eq carry after node n cells full p
  obtain ⟨-, kept, ctx, mem, side, -, -, cmds, -⟩ := conveyTags_frame n full after (notedFull carry n full p)
  obtain ⟨cores, noted⟩ := notedFull_fields carry n full p
  intro q
  simp only [q, written]
  refine ⟨fun m other => ?_, ctx.trans (noted ▸ rfl), mem.trans (noted ▸ rfl), side.trans (noted ▸ rfl), cmds.trans (noted ▸ rfl)⟩
  show SameCore (p.k m) (((conveyTags n full after (notedFull carry n full p)).modK n f).k m)
  rw [Pkg.k_modK_of_ne _ _ other, kept m other]
  exact notedFull_same carry n full p m

theorem forgotten_of_sameCore {k l : Core} (h : SameCore k l) : { l with stale := [] } = { k with stale := [] } := by
  rw [h]

/-- Settles O15: the writes of a store fold over the core's maps; an engine's write is `writtenCore` and notes. -/
theorem storagePerformed : Obligations.StoragePerformed := by
  unfold Obligations.StoragePerformed
  refine ⟨?_, ?_⟩
  · intro x n write node st p q
    have core : q.k n = Core.apply write node x st (p.k n) := Pkg.k_modK_self ..
    rw [core, apply_acc]
    exact ⟨fun a => Core.get_spad_apply .., fun w => Core.get_tags_apply .., fun l => NMap.get_foldl_set .., fun i => storedAcc_of_not_mem _,
      fun once c mem => storedAcc_of_mem _ once mem, fun m => Pkg.k_modK_of_ne _ _, rfl, rfl, rfl, rfl, rfl, rfl⟩
  · intro n cells full p q
    have written : SameCells (writtenCore cells full (p.k n)) (q.k n) := by
      have parts := (sameParts_engineWriteBy [] [] 0 n cells full p).cells n
      rwa [Pkg.k_modK_self] at parts
    obtain ⟨others, fields⟩ := engineWriteBy_frame [] [] 0 n cells full p
    rw [written.spad, written.tags]
    exact ⟨Memory.get_setCells _ _, fun w => get_setFull full _, fun w => get_setFull_of_not_mem _, written.acc, written.lines,
      fun m other => forgotten_of_sameCore (others m other), fields⟩

end Sys2Proof.Proofs.PerformedStores

namespace Sys2Proof.Proofs.HeldAccesses

open Machine StorageFrames Completion Dealing

/-! ### Held accesses released (R330, R363) -/

/-- A command that makes its accesses again: no held access is new. -/
theorem restart_eq (groups : List Nat) (id : Nat) (p : Pkg) :
    ∃ cs hs, restart groups id p = { p with cmds := cs, held := hs } ∧ hs ⊆ p.held := by
  unfold restart
  dsimp only
  split
  · exact ⟨_, _, rfl, List.filter_subset_self ..⟩
  · exact ⟨_, _, rfl, List.Subset.refl _⟩

theorem foldl_restart_eq (groups ids : List Nat) (p : Pkg) :
    ∃ cs hs, ids.foldl (fun p id => restart groups id p) p = { p with cmds := cs, held := hs } ∧ hs ⊆ p.held := by
  induction ids generalizing p with
  | nil => exact ⟨_, _, rfl, List.Subset.refl _⟩
  | cons id ids ih =>
    obtain ⟨cs, hs, made, fewer⟩ := restart_eq groups id p
    obtain ⟨cs', hs', rest, fewer'⟩ := ih (restart groups id p)
    refine ⟨cs', hs', ?_, ?_⟩
    · rw [List.foldl_cons, rest, made]
    · rw [made] at fewer'
      exact List.Subset.trans fewer' fewer

/-- A release changes commands and held accesses alone, and none of those it names stays held. -/
theorem releaseHeld_eq (which : Held → Bool) (p : Pkg) :
    ∃ cs hs, releaseHeld which p = { p with cmds := cs, held := hs } ∧ ∀ h ∈ hs, which h = false := by
  obtain ⟨cs, hs, released, fewer⟩ := foldl_restart_eq (((p.held.filter which).map (·.group)).eraseDups)
    (((p.held.filter which).filterMap (·.cmd)).eraseDups) { p with held := p.held.filter fun h => !which h }
  exact ⟨cs, hs, released, fun h mem => by simpa using (List.mem_filter.1 (fewer mem)).2⟩

/-! ### Held accesses that fail (R188, R345, R349) -/

theorem foldl_held_subset {α : Type} {f : Pkg → α → Pkg} (fewer : ∀ p a, (f p a).held ⊆ p.held) (as : List α) (p : Pkg) :
    (as.foldl f p).held ⊆ p.held := by
  induction as generalizing p with
  | nil => exact List.Subset.refl _
  | cons a as ih => exact List.Subset.trans (ih (f p a)) (fewer p a)

theorem foldl_held_eq {α : Type} {f : Pkg → α → Pkg} (same : ∀ p a, (f p a).held = p.held) (as : List α) (p : Pkg) :
    (as.foldl f p).held = p.held := by
  induction as generalizing p with
  | nil => rfl
  | cons a as ih => exact (ih (f p a)).trans (same p a)

theorem emptyShadows_held (ts : List Nat) (p : Pkg) : (emptyShadows ts p).held = p.held := 
  foldl_held_eq (f := fun p t => modTile t _ p) (fun _ _ => rfl) ts p

theorem emptyFills_held (env : Env) (c : Cmd) (p : Pkg) : (emptyFills env c p).held = p.held := by
  unfold emptyFills
  split
  · exact emptyShadows_held ..
  · rfl

theorem failCommand_held (env : Env) (id status : Nat) (p : Pkg) : (failCommand env id status p).held = p.held := by
  unfold failCommand
  extract_lets m ended freed emptied
  have ends : ended.held = p.held := by
    simp only [ended]
    split <;> rfl
  have frees : freed.held = p.held := by
    simp only [freed]
    split <;> exact ends
  show emptied.held = p.held
  simp only [emptied]
  split
  · exact (emptyFills_held ..).trans frees
  · split
    · exact (emptyShadows_held ..).trans frees
    · exact frees

theorem admitAll_held (clock : Nat) (p : Pkg) : (admitAll clock p).held = p.held := by
  refine foldl_held_eq (fun q n => ?_) _ p
  obtain ⟨⟨cs, admitted⟩, -⟩ := admitParts_frame clock n 16 q
  rw [admitted]

theorem stopNode_held_subset (clock n : Nat) (p : Pkg) : (stopNode clock n p).held ⊆ p.held := by
  unfold stopNode
  extract_lets before ids dropped unbound forgotten
  have drops : dropped.held ⊆ p.held := foldl_held_subset (fun q id => List.filter_subset_self q.held) ids p
  have unbinds : unbound.held = dropped.held := foldl_held_eq (f := fun p x => unbindCtx x p) (fun _ _ => rfl) _ dropped
  have forgets : forgotten.held = unbound.held := rfl
  rw [admitAll_held]
  refine List.Subset.trans (List.filter_subset_self forgotten.held) ?_
  rw [forgets, unbinds]
  exact drops

theorem failNode_held_subset (clock n reason : Nat) (p : Pkg) : (failNode clock n reason p).held ⊆ p.held := by
  unfold failNode
  rw [Pkg.modNode_held]
  exact stopNode_held_subset clock n p

theorem refuseNode_held (dtime : Nat) (n : Node) (reason : Nat) (p : Pkg) : (refuseNode dtime n reason p).held = p.held := by
  unfold refuseNode
  generalize gone : ({ p with nodes := p.nodes.erase n.id, taking := p.taking.filter fun t => t.id != n.id } : Pkg) = r
  obtain ⟨o, said⟩ := gangSay_eq n 1 0 (postCompletion dtime n.id 2 reason 0 0 r)
  rw [said]
  by_cases waits : Waits r (n.id / 2 ^ 48)
  · obtain ⟨w, fq, g, f, posted, -⟩ := postCompletion_waits dtime n.id 2 reason 0 0 r waits
    rw [posted, ← gone]
  · obtain ⟨reg, m, b, l, vs, out, posted, -⟩ := postCompletion_now dtime n.id 2 reason 0 0 r waits
    rw [posted, ← gone]

theorem failUnitRead_held_subset (env : Env) (node core : Nat) (p : Pkg) : (failUnitRead env node core p).held ⊆ p.held := by
  unfold failUnitRead
  split
  · split
    · exact fun _ mem => refuseNode_held .. ▸ mem
    · exact List.Subset.refl _
  · split
    · exact List.Subset.refl _
    · split <;> exact failNode_held_subset ..

/-- None of the accesses that fail stays held. -/
theorem failHeld_held (env : Env) (which : Held → Bool) (status : Held → Nat) (p : Pkg) :
    ∀ h ∈ (failHeld env which status p).held, which h = false := by
  have fewer : (failHeld env which status p).held ⊆ p.held.filter fun h => !which h := by
    unfold failHeld
    refine foldl_held_subset (fun q h => ?_) _ _
    split
    · split
      · exact fun _ mem => failCommand_held .. ▸ mem
      · exact List.Subset.refl _
    · exact failUnitRead_held_subset ..
    · exact List.Subset.refl _
  exact fun h mem => by simpa using (List.mem_filter.1 (fewer mem)).2

end Sys2Proof.Proofs.HeldAccesses

namespace Sys2Proof.Proofs.TileErrors

open Machine

section
variable (p : Pkg)

/-! ### Counts and the start of repairs (R361, R362) -/

theorem setRegBits_eq (a hi lo v : Nat) : ∃ reg, p.setRegBits a hi lo v = { p with reg := reg } := ⟨_, rfl⟩
theorem countUp_eq (a hi lo : Nat) : ∃ reg, countUp a hi lo p = { p with reg := reg } := setRegBits_eq ..

theorem notePlanes_eq (ti : Nat) (latest : Option Nat) : ∃ reg, notePlanes ti latest p = { p with reg := reg } := by
  obtain ⟨reg, any⟩ := setRegBits_eq p (tileReg ti 8) 16 16 (b2n (p.failed.any fun f => f.tile == ti))
  unfold notePlanes
  rw [any]
  cases latest with
  | none => exact ⟨reg, rfl⟩
  | some plane => exact setRegBits_eq ..

theorem failPlane_eq (ti plane category index : Nat) :
    ∃ fs reg, failPlane ti plane category index p = { p with failed := fs, reg := reg } ∧
      ∃ f ∈ fs, f.tile = ti ∧ f.plane = plane := by
  unfold failPlane
  split
  · next known =>
    obtain ⟨f, mem, named⟩ := List.any_eq_true.1 known
    exact ⟨_, _, rfl, f, mem, by simpa using named⟩
  · obtain ⟨reg, noted⟩ := notePlanes_eq { p with
      failed := p.failed ++ [{ tile := ti, plane := plane, category := category, index := index, group := 0 }] } ti (some plane)
    exact ⟨_, reg, noted, _, List.mem_append_right _ (List.mem_singleton_self _), rfl, rfl⟩

theorem startRepair_eq (ti category index plane : Nat) :
    ∃ n rs fs reg, startRepair ti category index plane p = { p with fresh := n, repairs := rs, failed := fs, reg := reg } := by
  unfold startRepair
  dsimp only
  split
  · exact ⟨_, _, _, _, rfl⟩
  split
  · exact ⟨_, _, _, _, rfl⟩
  split
  · exact ⟨_, _, _, _, rfl⟩
  split
  · exact ⟨_, _, _, _, rfl⟩
  · obtain ⟨fs, reg, failed, -⟩ := failPlane_eq p ti plane category index
    exact ⟨_, _, fs, reg, failed⟩

theorem countError_eq (ti plane : Nat) (ci : Nat × Nat) : ∃ n rs fs reg cs,
    countError ti plane ci p = { p with fresh := n, repairs := rs, failed := fs, reg := reg, counts := cs } := by
  unfold countError
  dsimp only
  split
  · obtain ⟨n, rs, fs, reg, started⟩ := startRepair_eq
      { p with counts := p.counts.set (resourceKey ti ci.1 ci.2) (p.counts.get (resourceKey ti ci.1 ci.2) + 1) } ti ci.1 ci.2 plane
    exact ⟨n, rs, fs, reg, _, started⟩
  · exact ⟨_, _, _, _, _, rfl⟩

theorem foldl_countError_eq (ti plane : Nat) (cs : List (Nat × Nat)) : ∃ n rs fs reg ks,
    cs.foldl (fun p c => countError ti plane c p) p = { p with fresh := n, repairs := rs, failed := fs, reg := reg, counts := ks } := by
  induction cs generalizing p with
  | nil => exact ⟨_, _, _, _, _, rfl⟩
  | cons c cs ih =>
    obtain ⟨n, rs, fs, reg, ks, counted⟩ := countError_eq p ti plane c
    obtain ⟨n', rs', fs', reg', ks', rest⟩ := ih (countError ti plane c p)
    exact ⟨n', rs', fs', reg', ks', by rw [List.foldl_cons, rest, counted]⟩

/-! ### Errors in DRAM (R352) -/

variable (dtime : Nat) (e : ErrorSite)

theorem dramError_corrected (h : e.correctable = true) : ∃ n rs fs reg cs, dramError dtime e p =
    { p with fresh := n, repairs := rs, failed := fs, reg := reg, counts := cs,
             faultq := p.faultq ++ [{ source := 1000 + e.tile, time := dtime, kind := 2, tile := e.tile }] } := by
  unfold dramError
  rw [if_pos h]
  dsimp only
  obtain ⟨reg, counted⟩ := countUp_eq p (tileReg e.tile 8) 15 0
  obtain ⟨n, rs, fs, reg', cs, repairs⟩ := foldl_countError_eq
    (postRecord { source := 1000 + e.tile, time := dtime, kind := 2, tile := e.tile } (countUp (tileReg e.tile 8) 15 0 p)) e.tile e.plane
    [(1, 2 ^ 20 * (e.bank % 2 ^ 8) + e.row % 2 ^ 20), (2, e.bank), (3, e.lane)]
  exact ⟨n, rs, fs, reg', cs, by rw [repairs, counted]; rfl⟩

theorem dramError_uncorrectable (h : e.correctable = false) : ∃ n rs fs reg, dramError dtime e p =
    { p with fresh := n, repairs := rs, failed := fs, reg := reg,
             badSector := p.badSector.set (dramDpa e.tile e.plane (32 * (e.row % 128)) / 32) true } := by
  unfold dramError
  rw [if_neg (by simp [h])]
  exact startRepair_eq ..

/-! ### Errors in a core and in a tile's latches (R83, R84, R217) -/

/-- A core with a codeword of its scratchpad poisoned. -/
def poisonCodeword (b : Nat) (k : Core) : Core := { k with poison := k.poison.set b true }

/-- A core with a word of its accumulator uncorrectable. -/
def markWord (i : Nat) (k : Core) : Core := { k with badAcc := k.badAcc.set i true }

theorem poisonCodeword_frame (core b : Nat) : SameStorage p (p.modK core (poisonCodeword b)) ∧
    ((p.modK core (poisonCodeword b)).k core).poison.get b = true := by
  refine ⟨.modK _ _ _ fun _ => ⟨rfl, rfl, rfl, rfl⟩, ?_⟩
  rw [Pkg.k_modK_self]
  exact NMap.get_set_self (p.k core).poison b true

theorem markWord_frame (core i : Nat) : SameStorage p (p.modK core (markWord i)) ∧
    ((p.modK core (markWord i)).k core).badAcc.get i = true := by
  refine ⟨.modK _ _ _ fun _ => ⟨rfl, rfl, rfl, rfl⟩, ?_⟩
  rw [Pkg.k_modK_self]
  exact NMap.get_set_self (p.k core).badAcc i true

theorem localError_scratchpad_corrected (spad : e.tile < 4680) (h : e.correctable = true) : localError dtime e p =
    postRecord { source := 300 + (e.tile - 4608) % 72, time := dtime, kind := 1, pcore := (e.tile - 4608) % 72, detail := e.bank } p := by
  simp [localError, spad, h]

theorem localError_scratchpad_uncorrectable (spad : e.tile < 4680) (h : e.correctable = false) : ∃ cs, localError dtime e p =
    { p.modK ((e.tile - 4608) % 72) (poisonCodeword (e.row % 131072)) with cmds := cs } := by
  simp only [localError, spad, h, decide_true, if_true, Bool.false_eq_true, if_false]
  exact ⟨_, rfl⟩

theorem localError_accumulator (acc : 4680 ≤ e.tile) (h : e.correctable = false) : localError dtime e p =
    p.modK ((e.tile - 4608) % 72) (markWord (e.row % 524288)) := by
  have other : ¬e.tile < 4680 := by omega
  simp only [localError, other, h, decide_false, Bool.false_eq_true, if_false]
  rfl

end

/-- A latch with a parity error, where it holds anything. -/
def spoiledLatch (l : Latch) : Latch := if l.valid then { l with parity := true } else l

theorem spoiledLatch_parity {l : Latch} (h : l.valid = true) : (spoiledLatch l).parity = true := by
  simp [spoiledLatch, h]

theorem tileParity_latch (env : Env) {e : ErrorSite} (p : Pkg) (first : 4752 ≤ e.tile) (last : e.tile < 9360)
    (h : e.correctable = false) : tileParity env e p =
    { p with tiles := p.tiles.modify (e.tile - 4752) fun t =>
        if e.plane = 0 then { t with active := spoiledLatch t.active } else { t with shadow := spoiledLatch t.shadow } } := by
  have tile : (e.tile - 4752) % 4608 = e.tile - 4752 := by omega
  unfold tileParity
  rw [if_neg (by simp [h]), if_pos last, tile]
  rfl

/-! ### CORRECTED_ERROR -/

section
variable {e : ErrorSite} (s : State)

theorem exec_correctedError_dram (tile : e.tile < 4608) (plane : e.plane < 24576) :
    exec (.correctedError e) s = s.put (dramError s.env.dtime e s.pkg) := if_pos ⟨tile, plane⟩

theorem exec_correctedError_local (first : 4608 ≤ e.tile) (last : e.tile < 4752) :
    exec (.correctedError e) s = s.put (localError s.env.dtime e s.pkg) :=
  (if_neg (by omega)).trans (if_pos ⟨first, last⟩)

theorem exec_correctedError_tile (first : 4752 ≤ e.tile) (last : e.tile < 13968) :
    exec (.correctedError e) s = s.put (tileParity s.env e s.pkg) :=
  (if_neg (by omega)).trans ((if_neg (by omega)).trans (if_pos ⟨first, last⟩))

end

/-- An error's row completes, changes no byte, and leaves what `f` says. -/
def ErrorLeaves (e : ErrorSite) (s : State) (f : Pkg → Prop) : Prop :=
  ∃ t, exec (.correctedError e) s = .next t ∧ SameStorage s.pkg t.pkg ∧ f t.pkg

section
variable {e : ErrorSite} {s : State}

theorem correctedError_dram (tile : e.tile < 4608) (plane : e.plane < 24576) : ErrorLeaves e s fun q =>
    if e.correctable then ∃ r ∈ q.faultq, r.kind = 2 ∧ r.tile = e.tile
    else q.badSector.get (dramDpa e.tile e.plane (32 * (e.row % 128)) / 32) = true := by
  refine ⟨_, exec_correctedError_dram s tile plane, ?_⟩
  cases h : e.correctable with
  | true =>
    obtain ⟨n, rs, fs, reg, cs, left⟩ := dramError_corrected s.pkg s.env.dtime e h
    rw [left]
    exact ⟨.of_eq rfl rfl rfl, _, List.mem_append_right _ (List.mem_singleton_self _), rfl, rfl⟩
  | false =>
    obtain ⟨n, rs, fs, reg, left⟩ := dramError_uncorrectable s.pkg s.env.dtime e h
    rw [left]
    exact ⟨.of_eq rfl rfl rfl, by simp⟩

theorem correctedError_scratchpad (first : 4608 ≤ e.tile) (last : e.tile < 4680) : ErrorLeaves e s fun q =>
    if e.correctable then ∃ r ∈ q.faultq, r.kind = 1 ∧ r.pcore = (e.tile - 4608) % 72 ∧ r.detail = e.bank
    else (q.k ((e.tile - 4608) % 72)).poison.get (e.row % 131072) = true := by
  refine ⟨_, exec_correctedError_local s first (by omega), ?_⟩
  cases h : e.correctable with
  | true =>
    rw [localError_scratchpad_corrected _ _ _ last h]
    exact ⟨.of_eq rfl rfl rfl, _, List.mem_append_right _ (List.mem_singleton_self _), rfl, rfl, rfl⟩
  | false =>
    obtain ⟨cs, left⟩ := localError_scratchpad_uncorrectable s.pkg s.env.dtime e last h
    obtain ⟨same, poisoned⟩ := poisonCodeword_frame s.pkg ((e.tile - 4608) % 72) (e.row % 131072)
    rw [left]
    refine ⟨same.trans (.of_eq rfl rfl rfl), ?_⟩
    simp only [Bool.false_eq_true, if_false]
    exact poisoned

theorem correctedError_accumulator (first : 4680 ≤ e.tile) (last : e.tile < 4752) (h : e.correctable = false) :
    ErrorLeaves e s fun q => (q.k ((e.tile - 4608) % 72)).badAcc.get (e.row % 524288) = true := by
  refine ⟨_, exec_correctedError_local s (by omega) last, ?_⟩
  rw [localError_accumulator _ _ _ first h]
  exact markWord_frame ..

theorem correctedError_latch (first : 4752 ≤ e.tile) (last : e.tile < 9360) (h : e.correctable = false) :
    ErrorLeaves e s fun q =>
      let tl := s.pkg.tiles.get (e.tile - 4752)
      let tl' := q.tiles.get (e.tile - 4752)
      if e.plane = 0 then (tl.active.valid = true → tl'.active.parity = true) ∧ tl'.shadow = tl.shadow
      else (tl.shadow.valid = true → tl'.shadow.parity = true) ∧ tl'.active = tl.active := by
  refine ⟨_, exec_correctedError_tile s first (by omega), ?_⟩
  rw [tileParity_latch s.env s.pkg first last h]
  refine ⟨.of_eq rfl rfl rfl, ?_⟩
  simp only [NMap.get_modify_self]
  split
  · exact ⟨spoiledLatch_parity, rfl⟩
  · exact ⟨spoiledLatch_parity, rfl⟩

end

end Sys2Proof.Proofs.TileErrors

namespace Sys2Proof.Proofs.Repairs

open Machine TileErrors HeldAccesses

/-! ### The putty controller's registers (R360) -/

section
variable {ti hi lo n : Nat} (p : Pkg)

theorem bits_setRegBits_self {a v : Nat} (order : lo ≤ hi + 1) (top : hi < 64) :
    bits ((p.setRegBits a hi lo v).regv a) hi lo = v % 2 ^ (hi + 1 - lo) := by
  rw [Pkg.regv_setRegBits_self p a v order top, bits_setBits_self _ _ order]

theorem spend_eq : ∃ reg, spend ti hi lo p = { p with reg := reg } := setRegBits_eq ..
theorem setRemap_eq (v : Nat) : ∃ reg, setRemap ti n v p = { p with reg := reg } := setRegBits_eq ..

theorem bits_spend_self (order : lo ≤ hi + 1) (top : hi < 64) :
    bits ((spend ti hi lo p).regv (tileReg ti 0)) hi lo = bits (p.regv (tileReg ti 0)) hi lo - 1 := by
  have bound := bits_lt (p.regv (tileReg ti 0)) hi lo
  rw [spend, bits_setRegBits_self p order top, Nat.mod_eq_of_lt (by omega)]

theorem sparesLeft_spend {category : Nat} :
    sparesLeft (spend ti (spareBits category).1 (spareBits category).2 p) ti category = sparesLeft p ti category - 1 := by
  have field : (spareBits category).2 ≤ (spareBits category).1 + 1 ∧ (spareBits category).1 < 64 := by
    unfold spareBits
    split <;> decide
  exact bits_spend_self p field.1 field.2

theorem sparesLeft_of_reg {p q : Pkg} {category : Nat} (same : q.reg = p.reg) : sparesLeft q ti category = sparesLeft p ti category := by
  rw [sparesLeft, Pkg.regv, same]
  rfl

theorem remapEntry_spend : remapEntry (spend ti hi lo p) ti n = remapEntry p ti n := by
  have apart : tileReg ti (0x40 + n / 2 * 8) ≠ tileReg ti 0 := by unfold tileReg; omega
  rw [remapEntry, spend, Pkg.regv_setRegBits_of_ne p _ _ _ apart, remapEntry]

theorem remapEntry_drawn {d : Nat} : remapEntry (p.drawn d) ti n = remapEntry p ti n := rfl

theorem remapEntry_setRemap {v : Nat} (h : v < 2 ^ 32) : remapEntry (setRemap ti n v p) ti n = v := by
  rw [remapEntry, setRemap, bits_setRegBits_self p (by omega) (by omega),
    show 32 * (n % 2) + 31 + 1 - 32 * (n % 2) = 32 by omega, Nat.mod_eq_of_lt h]

end

/-! ### A plane remapped (R362) -/

/-- An entry of the remap table that serves a plane from a reserve plane. -/
def servingEntry (plane reserve : Nat) : Nat := plane + 2 ^ 15 * reserve + 2 ^ 31

section
variable {plane reserve : Nat} (inTile : plane < 2 ^ 15) (inReserve : reserve < 2 ^ 9)
include inTile inReserve

theorem servingEntry_lt : servingEntry plane reserve < 2 ^ 32 := by unfold servingEntry; omega

theorem remapUsed_servingEntry : remapUsed (servingEntry plane reserve) = true := by
  have top : servingEntry plane reserve / 2 ^ 31 % 2 = 1 := by unfold servingEntry; omega
  rw [remapUsed, Nat.testBit_eq_decide_div_mod_eq, top]
  rfl

omit inReserve in
theorem bits_servingEntry : bits (servingEntry plane reserve) 14 0 = plane := by
  rw [bits_eq]
  unfold servingEntry
  omega

end

section
variable (ti plane : Nat) (p : Pkg)

/-- The entry that a remap takes: the one that served the plane before, else a free one. -/
def remapSlot : Option Nat :=
  match (List.range 16).find? fun n => remapUsed (remapEntry p ti n) && bits (remapEntry p ti n) 14 0 == plane with
  | some n => some n
  | none => (List.range 16).find? fun n => !remapUsed (remapEntry p ti n)

/-- The reserve plane that a remap takes (log 79). -/
def reservePlane : Nat := (freeReserve p ti).getD (Config.freeNat p.fresh % (freeReserve p ti).length) 0

theorem reservePlane_lt : reservePlane ti p < 2 ^ 9 := by
  unfold reservePlane
  rw [List.getD_eq_getElem?_getD]
  cases at_ : (freeReserve p ti)[Config.freeNat p.fresh % (freeReserve p ti).length]? with
  | none => decide
  | some t => exact List.mem_range.1 (List.mem_filter.1 (List.mem_of_getElem? at_)).1

theorem remapSlot_some (free : ∃ n < 16, remapUsed (remapEntry p ti n) = false) : ∃ n < 16, remapSlot ti plane p = some n := by
  unfold remapSlot
  split
  · next n found => exact ⟨n, List.mem_range.1 (List.mem_of_find?_eq_some found), rfl⟩
  · obtain ⟨m, hm, unused⟩ := free
    obtain ⟨n, found⟩ := Option.isSome_iff_exists.1 (List.find?_isSome (p := fun n => !remapUsed (remapEntry p ti n)).2
      ⟨m, List.mem_range.2 hm, by simp [unused]⟩)
    exact ⟨n, List.mem_range.1 (List.mem_of_find?_eq_some found), found⟩

/-- What a remap makes: its entry, and a budget that falls; an entry that served the plane before leaves the remaps as they are. -/
theorem remapPlane_eq : remapPlane ti plane p = p ∧ remapSlot ti plane p = none ∨
    ∃ n, remapSlot ti plane p = some n ∧ ∃ b : Bool, remapPlane ti plane p =
      let q := spend ti 29 20 ((setRemap ti n (servingEntry plane (reservePlane ti p)) p).drawn 1)
      if b then q else spend ti 34 30 q := by
  unfold remapPlane
  extract_lets old slot
  have same : remapSlot ti plane p = slot := rfl
  clear_value slot
  cases slot with
  | none => exact .inl ⟨rfl, same⟩
  | some n => exact .inr ⟨n, same, old.isSome, rfl⟩

theorem remapPlane_fields : ∃ n reg, remapPlane ti plane p = { p with fresh := n, reg := reg } := by
  rcases remapPlane_eq ti plane p with ⟨kept, -⟩ | ⟨n, -, b, made⟩
  · exact ⟨_, _, kept⟩
  · obtain ⟨r₁, entered⟩ := setRemap_eq (ti := ti) (n := n) p (servingEntry plane (reservePlane ti p))
    obtain ⟨r₂, spent⟩ := spend_eq (ti := ti) (hi := 29) (lo := 20) ({ p with reg := r₁ }.drawn 1)
    obtain ⟨r₃, spent'⟩ := spend_eq (ti := ti) (hi := 34) (lo := 30) { p with fresh := p.fresh + 1, reg := r₂ }
    rw [made, entered, spent]
    cases b with
    | true => exact ⟨_, r₂, rfl⟩
    | false => exact ⟨_, r₃, spent'⟩

theorem remapEntry_remapPlane {n : Nat} (slot : remapSlot ti plane p = some n) (inTile : plane < 2 ^ 15) :
    remapEntry (remapPlane ti plane p) ti n = servingEntry plane (reservePlane ti p) := by
  have entry := remapEntry_setRemap (ti := ti) (n := n) p (servingEntry_lt inTile (reservePlane_lt ti p))
  rcases remapPlane_eq ti plane p with ⟨-, none_⟩ | ⟨m, slot', b, made⟩
  · cases slot.symm.trans none_
  · cases slot.symm.trans slot'
    rw [made]
    cases b with
    | true => exact (remapEntry_spend _).trans ((remapEntry_drawn _).trans entry)
    | false => exact (remapEntry_spend _).trans ((remapEntry_spend _).trans ((remapEntry_drawn _).trans entry))

end
end Sys2Proof.Proofs.Repairs

namespace Sys2Proof.Proofs.RepairRows

open Machine TileErrors HeldAccesses Repairs

/-! ### A step of a repair, and its end (R361) -/

section
variable {tile : Nat} {r : Repair} {s : State}

/-- A repair whose step has ended or begun. -/
def stepped (r : Repair) : Repair := { r with pending := !r.pending, steps := if r.pending then r.steps - 1 else r.steps }

theorem exec_repairStepComplete (under : stepRepair s.pkg tile = some r) :
    exec (.repairStepComplete tile) s = s.put (putRepair r (stepped r) s.pkg) := by
  show execRepairStepComplete tile s = _
  rw [execRepairStepComplete, under]
  cases pending : r.pending <;> simp [stepped, pending]

/-- The package without a repair that is over, the count of its resource restarted. -/
def withoutRepair (tile category : Nat) (r : Repair) (p : Pkg) : Pkg :=
  recount tile category r.index { p with repairs := p.repairs.filter (· != r) }

theorem counts_withoutRepair (tile category : Nat) (r : Repair) (p : Pkg) :
    (withoutRepair tile category r p).counts.get (resourceKey tile category r.index) = 0 :=
  NMap.get_set_self p.counts _ 0

theorem sameStorage_withoutRepair (tile category : Nat) (r : Repair) (p : Pkg) : SameStorage p (withoutRepair tile category r p) :=
  .of_eq rfl rfl rfl

theorem exec_repairComplete (ended : doneRepair s.pkg tile false = some r) :
    let d := repairRecord s.env.dtime 8 r.category tile r.plane
    exec (.repairComplete tile) s = s.put (postRecord d (keepRepair d
      (spend tile (spareBits r.category).1 (spareBits r.category).2 (withoutRepair tile r.category r s.pkg)))) := by
  intro d
  show execRepairComplete tile s = _
  rw [execRepairComplete, ended]
  rfl

theorem repairComplete_leaves (ended : doneRepair s.pkg tile false = some r) :
    ∃ t, exec (.repairComplete tile) s = .next t ∧ SameStorage s.pkg t.pkg ∧ r ∉ t.pkg.repairs ∧
      t.pkg.counts.get (resourceKey tile r.category r.index) = 0 ∧
      sparesLeft t.pkg tile r.category = sparesLeft s.pkg tile r.category - 1 ∧
      ∃ f ∈ t.pkg.faultq, f.kind = 8 ∧ f.code = r.category ∧ f.tile = tile ∧ f.detail = r.plane ∧ t.pkg.flash = s.pkg.flash ++ [f] := by
  refine ⟨_, exec_repairComplete ended, ?_⟩
  have before : sparesLeft (withoutRepair tile r.category r s.pkg) tile r.category = sparesLeft s.pkg tile r.category :=
    sparesLeft_of_reg rfl
  have spares := sparesLeft_spend (ti := tile) (category := r.category) (withoutRepair tile r.category r s.pkg)
  obtain ⟨reg, spent⟩ := spend_eq (ti := tile) (hi := (spareBits r.category).1) (lo := (spareBits r.category).2)
    (withoutRepair tile r.category r s.pkg)
  rw [spent, before] at spares
  rw [spent]
  exact ⟨(sameStorage_withoutRepair tile r.category r s.pkg).trans (.of_eq rfl rfl rfl),
    fun mem => by simpa using (List.mem_filter.1 mem).2, counts_withoutRepair tile r.category r s.pkg,
    (sparesLeft_of_reg (by rfl)).trans spares, _, List.mem_append_right _ (List.mem_singleton_self _), rfl, rfl, rfl, rfl, rfl⟩

/-! ### PLANE_REMAP_COMPLETE (R362) -/

theorem exec_planeRemapComplete_spent (ended : doneRepair s.pkg tile true = some r)
    (none_ : remapsLeft s.pkg tile = 0 ∨ reserveLeft s.pkg tile = 0) : exec (.planeRemapComplete tile) s =
    s.put (failPlane tile r.plane (r.remap.getD 4) r.index { s.pkg with repairs := s.pkg.repairs.filter (· != r) }) := by
  show execPlaneRemapComplete tile s = _
  rw [execPlaneRemapComplete, ended]
  exact if_pos none_

theorem exec_planeRemapComplete (ended : doneRepair s.pkg tile true = some r)
    (left : ¬(remapsLeft s.pkg tile = 0 ∨ reserveLeft s.pkg tile = 0)) :
    let d := repairRecord s.env.dtime 6 (r.remap.getD 4) tile r.plane
    exec (.planeRemapComplete tile) s =
      s.put (postRecord d (keepRepair d (remapPlane tile r.plane (withoutRepair tile (r.remap.getD 4) r s.pkg)))) := by
  intro d
  show execPlaneRemapComplete tile s = _
  rw [execPlaneRemapComplete, ended]
  exact if_neg left

theorem planeRemapComplete_leaves (ended : doneRepair s.pkg tile true = some r)
    (left : ¬(remapsLeft s.pkg tile = 0 ∨ reserveLeft s.pkg tile = 0)) (inTile : r.plane < 24576)
    (free : ∃ n < 16, remapUsed (remapEntry s.pkg tile n) = false) :
    ∃ t, exec (.planeRemapComplete tile) s = .next t ∧
      (∃ n < 16, remapUsed (remapEntry t.pkg tile n) = true ∧ bits (remapEntry t.pkg tile n) 14 0 = r.plane) ∧ SameStorage s.pkg t.pkg ∧
      ∃ f ∈ t.pkg.faultq, f.kind = 6 ∧ f.tile = tile ∧ f.detail = r.plane ∧ t.pkg.flash = s.pkg.flash ++ [f] := by
  refine ⟨_, exec_planeRemapComplete ended left, ?_⟩
  obtain ⟨p, without⟩ : ∃ p, p = withoutRepair tile (r.remap.getD 4) r s.pkg := ⟨_, rfl⟩
  have unused : ∃ n < 16, remapUsed (remapEntry p tile n) = false := without ▸ free
  rw [← without]
  obtain ⟨n, bound, slot⟩ := remapSlot_some tile r.plane p unused
  have small : r.plane < 2 ^ 15 := by omega
  have entry := remapEntry_remapPlane tile r.plane p slot small
  have reserve := reservePlane_lt tile p
  obtain ⟨m, reg, remapped⟩ := remapPlane_fields tile r.plane p
  rw [remapped] at entry ⊢
  refine ⟨⟨n, bound, ?_, ?_⟩, ?_, _, List.mem_append_right _ (List.mem_singleton_self _), rfl, rfl, rfl, ?_⟩
  · exact (congrArg remapUsed entry).trans (remapUsed_servingEntry small reserve)
  · exact (congrArg (bits · 14 0) entry).trans (bits_servingEntry small)
  · rw [without]
    exact .of_eq rfl rfl rfl
  · rw [without]
    rfl

theorem planeRemapComplete_fails (ended : doneRepair s.pkg tile true = some r)
    (none_ : remapsLeft s.pkg tile = 0 ∨ reserveLeft s.pkg tile = 0) :
    ∃ t, exec (.planeRemapComplete tile) s = .next t ∧ ∃ f ∈ t.pkg.failed, f.tile = tile ∧ f.plane = r.plane := by
  refine ⟨_, exec_planeRemapComplete_spent ended none_, ?_⟩
  obtain ⟨fs, reg, left, failed⟩ :=
    failPlane_eq { s.pkg with repairs := s.pkg.repairs.filter (· != r) } tile r.plane (r.remap.getD 4) r.index
  rw [left]
  exact failed

end

/-! ### REPAIR_RESOLVE (R363) -/

section
variable {v : Nat} {s : State}

theorem exec_repairResolve_unnamed (none_ : namedPlane s.pkg v = none) : exec (.repairResolveRemap v) s = .next s ∧
    exec (.repairResolveRelease v) s = .next s ∧ exec (.repairResolveFail v) s = .next s := by
  refine ⟨?_, ?_, ?_⟩
  · show execRepairResolveRemap v s = _
    rw [execRepairResolveRemap, none_]
  · show execRepairResolveRelease v s = _
    rw [execRepairResolveRelease, none_]
  · show execRepairResolveFail v s = _
    rw [execRepairResolveFail, none_]

variable {f : FailedPlane} (named : namedPlane s.pkg v = some f)
include named

theorem exec_repairResolveRemap (left : ¬(remapsLeft s.pkg f.tile = 0 ∨ reserveLeft s.pkg f.tile = 0)) :
    exec (.repairResolveRemap v) s = s.put (notePlanes f.tile none (keepRepair (repairRecord s.env.dtime 6 f.category f.tile f.plane)
      (remapPlane f.tile f.plane (recount f.tile f.category f.index
        (releaseHeld (heldAt f) { s.pkg with failed := s.pkg.failed.filter (· != f) }))))) := by
  show execRepairResolveRemap v s = _
  rw [execRepairResolveRemap, named]
  exact if_neg left

theorem exec_repairResolveRelease : exec (.repairResolveRelease v) s = s.put (forgetRecord f (releaseHeld (heldAt f) s.pkg)) := by
  show execRepairResolveRelease v s = _
  rw [execRepairResolveRelease, named]

theorem exec_repairResolveFail :
    exec (.repairResolveFail v) s = s.put (forgetRecord f (failHeld s.env (heldAt f) (fun _ => 6) s.pkg)) := by
  show execRepairResolveFail v s = _
  rw [execRepairResolveFail, named]

theorem repairResolveRemap_leaves (left : ¬(remapsLeft s.pkg f.tile = 0 ∨ reserveLeft s.pkg f.tile = 0)) :
    ∃ t, exec (.repairResolveRemap v) s = .next t ∧ f ∉ t.pkg.failed ∧ (∀ h ∈ t.pkg.held, heldAt f h = false) ∧
      SameStorage s.pkg t.pkg ∧ ∃ r : FaultRec, r.kind = 6 ∧ r.tile = f.tile ∧ r.detail = f.plane ∧ t.pkg.flash = s.pkg.flash ++ [r] := by
  refine ⟨_, exec_repairResolveRemap named left, ?_⟩
  obtain ⟨cs, hs, released, free⟩ := releaseHeld_eq (heldAt f) { s.pkg with failed := s.pkg.failed.filter (· != f) }
  obtain ⟨p, counted⟩ : ∃ p, p = recount f.tile f.category f.index
    (releaseHeld (heldAt f) { s.pkg with failed := s.pkg.failed.filter (· != f) }) := ⟨_, rfl⟩
  obtain ⟨n, reg, remapped⟩ := remapPlane_fields f.tile f.plane p
  rw [← counted, remapped]
  obtain ⟨reg', noted⟩ := notePlanes_eq
    (keepRepair (repairRecord s.env.dtime 6 f.category f.tile f.plane) { p with fresh := n, reg := reg }) f.tile none
  rw [noted, counted, released]
  exact ⟨fun mem => by simpa using (List.mem_filter.1 mem).2, free, .of_eq rfl rfl rfl, _, rfl, rfl, rfl, rfl⟩

theorem repairResolveRelease_leaves : ∃ t, exec (.repairResolveRelease v) s = .next t ∧
    (∀ h ∈ t.pkg.held, heldAt f h = false) ∧ SameStorage s.pkg t.pkg ∧ t.pkg.nodes = s.pkg.nodes := by
  refine ⟨_, exec_repairResolveRelease named, ?_⟩
  obtain ⟨cs, hs, released, free⟩ := releaseHeld_eq (heldAt f) s.pkg
  rw [released]
  exact ⟨free, .of_eq rfl rfl rfl, rfl⟩

theorem repairResolveFail_leaves : ∃ t, exec (.repairResolveFail v) s = .next t ∧ ∀ h ∈ t.pkg.held, heldAt f h = false :=
  ⟨_, exec_repairResolveFail named, failHeld_held s.env (heldAt f) (fun _ => 6) s.pkg⟩

end

/-- Settles O48: what each kind of error leaves, what a repair's step and its end change, and what a resolve releases. -/
theorem errorsAndRepairs : Obligations.ErrorsAndRepairs := by
  unfold Obligations.ErrorsAndRepairs
  refine ⟨?_, ?_⟩
  · intro e tile s p core next
    exact ⟨correctedError_dram, correctedError_scratchpad, correctedError_latch, correctedError_accumulator,
      fun r under => ⟨_, exec_repairStepComplete under, .of_eq rfl rfl rfl, rfl⟩, fun r ended _ _ => repairComplete_leaves ended⟩
  · intro tile v s p served goes
    have left {n m : Nat} (remaps : 0 < n) (reserve : 0 < m) : ¬(n = 0 ∨ m = 0) := by omega
    exact ⟨fun r ended => ⟨planeRemapComplete_fails ended,
        fun remaps reserve => planeRemapComplete_leaves ended (left remaps reserve)⟩, exec_repairResolve_unnamed,
      fun f named => ⟨fun remaps reserve => repairResolveRemap_leaves named (left remaps reserve),
        repairResolveRelease_leaves named, repairResolveFail_leaves named⟩⟩

end Sys2Proof.Proofs.RepairRows

namespace Sys2Proof.Proofs.CommandsGoOn

open Machine

/-! ### The engine's rows that let a command go on (R97, R187, R188) -/

theorem isHeld_of_not_held {p : Pkg} {id : Nat} (free : ∀ h ∈ p.held, h.cmd ≠ some id) : isHeld p id = false := by
  simpa [isHeld] using free

theorem usesDone_of_absent {p : Pkg} {m : Command} (done : ∀ n ∈ m.cmd.uses, p.present n = false) : usesDone p m = true := by
  simp only [usesDone, List.all_eq_true]
  intro n mem
  simp [done n mem]

theorem usesDone_of_present {p : Pkg} {m : Command} {n : Nat} (mem : n ∈ m.cmd.uses) (there : p.present n = true)
    (late : earlySatisfied p m n = false) : usesDone p m = false := by
  simp only [usesDone, List.all_eq_false]
  exact ⟨n, mem, by simp [there, late]⟩

section
variable {id : Nat} {s : State} (present : s.pkg.present id = true)
include present

/-- A queued command goes on where its queue and the commands it consumes let it; of the replicas some may be gone (R113). -/
theorem engineCommandStart_queued (queued : (s.pkg.cmd id).phase = .queued) (accepted : (s.pkg.cmd id).accepted = true)
    (moving : (s.pkg.c (s.pkg.cmd id).cmd.ctx).queueFrozen = false) (done : usesDone s.pkg (s.pkg.cmd id) = true) :
    ∃ rs, exec (.engineCommandStart id) s = .next { s with pkg := takeStep id { s.pkg with replicas := rs } } ∧
      ∀ r ∈ rs, r ∈ s.pkg.replicas := by
  refine ⟨s.pkg.replicas.filter fun r => !r.by_.any fun b =>
    b.2 == ownerOf (s.pkg.cmd id).cmd && decide (b.1 < (s.pkg.cmd id).wide), ?_, fun r mem => (List.mem_filter.1 mem).1⟩
  show execEngineCommandStart id s = _
  simp [execEngineCommandStart, present, queued, accepted, moving, done, dropReplicas]

theorem engineCommandStart_blocked (queued : (s.pkg.cmd id).phase = .queued) (blocked : usesDone s.pkg (s.pkg.cmd id) = false) :
    exec (.engineCommandStart id) s = .next s := by
  show execEngineCommandStart id s = _
  simp [execEngineCommandStart, present, queued, blocked]

variable (waiting : (s.pkg.cmd id).phase = .waiting) (free : ∀ h ∈ s.pkg.held, h.cmd ≠ some id)
include waiting free

theorem engineCommandStart_waiting (once : (s.pkg.cmd id).again = false) :
    exec (.engineCommandStart id) s = .next { s with pkg := takeStep id (performSome s.env id s.pkg) } := by
  show execEngineCommandStart id s = _
  simp [execEngineCommandStart, present, waiting, once, isHeld_of_not_held free]

theorem tileTake_waiting (unit : (s.pkg.cmd id).unit = 13) (low : 1 ≤ (s.pkg.cmd id).op) (high : (s.pkg.cmd id).op ≤ 4) :
    exec (.tileTake id) s = .next { s with pkg := s.pkg.push [.run (s.pkg.cmd id).instr] } := by
  show execTileTake id s = _
  have unheld : (s.pkg.held.any fun h => h.cmd == some id) = false := isHeld_of_not_held free
  simp [execTileTake, present, waiting, unit, low, high, unheld]

theorem acqwTimeout_waiting (unit : (s.pkg.cmd id).unit = 12) (op : (s.pkg.cmd id).op = 8) (read : (s.pkg.cmd id).progress = 1)
    (first : (s.pkg.cmd id).timedOut = false) (limited : (s.pkg.cmd id).cmd.c ≠ 0)
    (reached : (s.pkg.cmd id).cmd.c.toNat ≤ s.env.dtime) :
    exec (.acqwTimeout id) s =
      .next { s with pkg := (s.pkg.modCmd id fun m => { m with timedOut := true }).push [.run (s.pkg.cmd id).instr] } := by
  show execAcqwTimeout id s = _
  have unheld : (s.pkg.held.any fun h => h.cmd == some id) = false := isHeld_of_not_held free
  have limited : (s.pkg.cmd id).cmd.c ≠ 0#64 := limited
  simp [execAcqwTimeout, present, waiting, unit, op, read, first, limited, reached, unheld]

end

/-- Settles O37: each row by the case of its command, queued or waiting. -/
theorem commandsGoOn : Obligations.CommandsGoOn := by
  unfold Obligations.CommandsGoOn
  intro id s p m present
  exact ⟨fun q => ⟨rfl, .of_eq rfl rfl rfl⟩,
    fun queued accepted moving done => engineCommandStart_queued present queued accepted moving (usesDone_of_absent done),
    fun queued ⟨_, mem, there, late⟩ => engineCommandStart_blocked present queued (usesDone_of_present mem there late),
    fun waiting free once => engineCommandStart_waiting present waiting free once,
    fun waiting free unit low high => tileTake_waiting present waiting free unit low high,
    fun waiting free unit op read first limited reached =>
      acqwTimeout_waiting present waiting free unit op read first limited reached⟩

end Sys2Proof.Proofs.CommandsGoOn

namespace Sys2Proof.Proofs.Fences

open Machine

/-! ### The fence of a core (R107, R153) -/

/-- From p to q nothing has changed of the contexts but what x has in flight, and commands are numbered on as before. -/
structure FlightOnly (x : Nat) (p q : Pkg) : Prop where
  self    : ∃ es, q.c x = { p.c x with flight := es }
  others  : ∀ y, y ≠ x → q.c y = p.c y
  nextCmd : q.nextCmd = p.nextCmd

theorem FlightOnly.trans {x : Nat} {p q r : Pkg} (a : FlightOnly x p q) (b : FlightOnly x q r) : FlightOnly x p r where
  self := by
    obtain ⟨es, hq⟩ := a.self
    obtain ⟨fs, hr⟩ := b.self
    exact ⟨fs, by rw [hr, hq]⟩
  others y h := (b.others y h).trans (a.others y h)
  nextCmd := b.nextCmd.trans a.nextCmd

/-- An update of x's flight in a package with the same contexts. -/
theorem FlightOnly.of_modC {x : Nat} {p q : Pkg} (g : Entry → Entry) (ctx : q.ctx = p.ctx) (nextCmd : q.nextCmd = p.nextCmd) :
    FlightOnly x p (q.modC x fun c => { c with flight := c.flight.map g }) where
  self := ⟨_, by rw [Pkg.c_modC_self, Pkg.c, ctx]; rfl⟩
  others y h := by rw [Pkg.c_modC_of_ne _ _ h, Pkg.c, ctx]; rfl
  nextCmd := nextCmd

theorem joinViews_flightOnly (x n : Nat) (p : Pkg) : FlightOnly x p (joinViews x n p) := .of_modC _ rfl rfl

theorem fenceFetch_flightOnly (x : Nat) (p : Pkg) : FlightOnly x p (fenceFetch x p) := ⟨⟨_, rfl⟩, fun _ _ => rfl, rfl⟩

theorem applyStore_nextCmd (x : Nat) (st : LStore) (p : Pkg) : (applyStore x st p).nextCmd = p.nextCmd := by
  simp only [applyStore, Pkg.modStale, conveyTags]
  split <;> split <;> rfl

/-- One of the stores that are performed together. -/
def performEntry (x : Nat) (p : Pkg) (e : Entry) : Pkg := match e.store with
  | some st => applyStore x st p
  | none => p

theorem performEntry_keeps (x : Nat) (p : Pkg) (e : Entry) :
    (performEntry x p e).ctx = p.ctx ∧ (performEntry x p e).nextCmd = p.nextCmd := by
  unfold performEntry
  cases e.store with
  | none => exact ⟨rfl, rfl⟩
  | some st => exact ⟨(applyStore_frame x st p).1, applyStore_nextCmd x st p⟩

theorem foldl_performEntry_keeps (x : Nat) (es : List Entry) (p : Pkg) :
    (es.foldl (performEntry x) p).ctx = p.ctx ∧ (es.foldl (performEntry x) p).nextCmd = p.nextCmd := by
  induction es generalizing p with
  | nil => exact ⟨rfl, rfl⟩
  | cons e es ih =>
    obtain ⟨ctx, nextCmd⟩ := performEntry_keeps x p e
    exact ⟨(ih _).1.trans ctx, (ih _).2.trans nextCmd⟩

/-- An entry as performing the stores `due` leaves it. -/
def marked (due : List Entry) (e : Entry) : Entry := if due.any (fun d => d.order == e.order) then { e with done := true } else e

theorem marked_kind (due : List Entry) (e : Entry) : (marked due e).kind = e.kind := by unfold marked; split <;> rfl
theorem marked_store (due : List Entry) (e : Entry) : (marked due e).store = e.store := by unfold marked; split <;> rfl
theorem marked_done_of_done (due : List Entry) {e : Entry} (h : e.done = true) : (marked due e).done = true := by
  unfold marked
  split
  · rfl
  · exact h
theorem marked_done_of_mem {due : List Entry} {e : Entry} (h : e ∈ due) : (marked due e).done = true := by
  have named : due.any (fun d => d.order == e.order) = true := List.any_eq_true.2 ⟨e, h, beq_self_eq_true _⟩
  rw [marked, if_pos named]

/-- Performing all pending stores marks every one of them. -/
theorem performAll_eq (x : Nat) (p : Pkg) : ∃ (q : Pkg) (due : List Entry), q.ctx = p.ctx ∧ q.nextCmd = p.nextCmd ∧
    performAll x p = q.modC x (fun c => { c with flight := c.flight.map (marked due) }) ∧
    ∀ e ∈ (p.c x).flight, e.kind = .store → e.store.isSome → e.done = false → e ∈ due := by
  have keeps (es : List Entry) := foldl_performEntry_keeps x es p
  refine ⟨_, _, (keeps _).1, (keeps _).2, rfl, fun e mem kind store open_ => List.mem_filter.2 ⟨mem, ?_⟩⟩
  obtain ⟨st, h⟩ := Option.isSome_iff_exists.1 store
  simp [kind, open_, h]

theorem performAll_flightOnly (x : Nat) (p : Pkg) : FlightOnly x p (performAll x p) := by
  obtain ⟨q, due, ctx, nextCmd, performed, -⟩ := performAll_eq x p
  rw [performed]
  exact .of_modC _ ctx nextCmd

theorem performAll_done (x : Nat) (p : Pkg) :
    ∀ e ∈ ((performAll x p).c x).flight, e.kind = .store → e.store.isSome → e.done = true := by
  obtain ⟨q, due, ctx, -, performed, all⟩ := performAll_eq x p
  intro e mem kind store
  have same : q.c x = p.c x := by rw [Pkg.c, ctx]; rfl
  rw [performed, Pkg.c_modC_self, same] at mem
  obtain ⟨d, there, rfl⟩ := List.mem_map.1 mem
  rw [marked_kind] at kind
  rw [marked_store] at store
  cases open_ : d.done with
  | true => exact marked_done_of_done due open_
  | false => exact marked_done_of_mem (all d there kind store open_)

/-- What a fence does first: views joined, pending stores performed, fetch up to date. -/
def fencedPkg (x : Nat) (p : Pkg) : Pkg := fenceFetch x (performAll x (joinViews x (p.c x).joins p))

theorem fencedPkg_flightOnly (x : Nat) (p : Pkg) : FlightOnly x p (fencedPkg x p) :=
  ((joinViews_flightOnly x _ p).trans (performAll_flightOnly x _)).trans (fenceFetch_flightOnly x _)

theorem fencedPkg_done (x : Nat) (p : Pkg) :
    ∀ e ∈ ((fencedPkg x p).c x).flight, e.kind = .store → e.store.isSome → e.done = true := by
  rw [fencedPkg, fenceFetch, Pkg.modK_read_c]
  exact performAll_done x _

/-- The marks that a fence of a scope sets. -/
def fenceMarks (scope next : Nat) (c : Ctx) : Ctx :=
  { c with fenceMark := if 1 ≤ scope then next else c.fenceMark, fenceWide := if 4 ≤ scope then next else c.fenceWide }

theorem fenceMarks_zero (next : Nat) (c : Ctx) : fenceMarks 0 next c = c := rfl
theorem fenceMarks_flight (scope next : Nat) (c : Ctx) : (fenceMarks scope next c).flight = c.flight := rfl

theorem fenceMarks_regs (scope next : Nat) (c : Ctx) (es : List Entry) : SameRegs c (fenceMarks scope next { c with flight := es }) :=
  ⟨fun _ => rfl, fun _ => rfl, rfl, fun _ => rfl, fun _ => rfl, fun _ => rfl, fun _ => rfl, fun _ => rfl, fun _ => rfl⟩

theorem exec_sysFence (s : State) : ∃ t, exec .sysFence s = .next t ∧ t.env = s.env ∧
    t.pkg.c s.pkg.fire.ctx = fenceMarks s.pkg.fire.b.toS.toNat s.pkg.nextCmd ((fencedPkg s.pkg.fire.ctx s.pkg).c s.pkg.fire.ctx) ∧
    ∀ y, y ≠ s.pkg.fire.ctx → t.pkg.c y = s.pkg.c y := by
  have frame := fencedPkg_flightOnly s.pkg.fire.ctx s.pkg
  generalize scope : s.pkg.fire.b.toS.toNat = sc
  have ran : exec .sysFence s = s.put (if 1 ≤ min sc 5 then (fencedPkg s.pkg.fire.ctx s.pkg).modC s.pkg.fire.ctx fun c =>
      { c with fenceMark := (fencedPkg s.pkg.fire.ctx s.pkg).nextCmd
               fenceWide := if 4 ≤ min sc 5 then (fencedPkg s.pkg.fire.ctx s.pkg).nextCmd else c.fenceWide }
      else fencedPkg s.pkg.fire.ctx s.pkg) := by
    subst scope
    rfl
  refine ⟨_, ran, rfl, ?_⟩
  rcases Nat.eq_zero_or_pos sc with rfl | (marks : 1 ≤ sc)
  · rw [if_neg (by decide : ¬1 ≤ min 0 5)]
    exact ⟨(fenceMarks_zero ..).symm, frame.others⟩
  · have one : 1 ≤ min sc 5 := by omega
    have four : 4 ≤ min sc 5 ↔ 4 ≤ sc := by omega
    simp only [if_pos one, four]
    refine ⟨?_, fun y other => (Pkg.c_modC_of_ne _ _ other).trans (frame.others y other)⟩
    rw [Pkg.c_modC_self, frame.nextCmd, fenceMarks, if_pos marks]

/-- A fence of the core: every pending store performed, the later commands marked, no register and no other context changed. -/
theorem sysFence_leaves (s : State) :
    let x := s.pkg.fire.ctx
    let sc := s.pkg.fire.b.toS.toNat
    let c := s.pkg.c x
    ∃ t, exec .sysFence s = .next t ∧ t.env = s.env ∧ (∀ e ∈ (t.pkg.c x).flight, e.kind = .store → e.store.isSome → e.done = true) ∧
      SameRegs c (t.pkg.c x) ∧ (t.pkg.c x).pc = c.pc ∧ (∀ y, y ≠ x → t.pkg.c y = s.pkg.c y) ∧
      (t.pkg.c x).fenceMark = (if 1 ≤ sc then s.pkg.nextCmd else c.fenceMark) ∧
      (t.pkg.c x).fenceWide = (if 4 ≤ sc then s.pkg.nextCmd else c.fenceWide) := by
  intro x sc c
  obtain ⟨t, ran, env, ctx, others⟩ := exec_sysFence s
  obtain ⟨es, self⟩ := (fencedPkg_flightOnly x s.pkg).self
  refine ⟨t, ran, env, ?_, ?_, ?_, others, ?_, ?_⟩
  · rw [ctx, fenceMarks_flight]
    exact fencedPkg_done x s.pkg
  · rw [ctx, self]
    exact fenceMarks_regs ..
  · rw [ctx, self]
    rfl
  · rw [ctx, self]
    rfl
  · rw [ctx, self]
    rfl

/-! ### What a later command consumes (R107) -/

/-- The package as a command issues: the generator has stepped where the command draws from it (R249). -/
def issuing (unit op : Nat) (f : Fire) (p : Pkg) : Pkg :=
  if unit = 13 ∧ op = 6 ∧ f.hdr.rnd = 6 then p.modC f.ctx fun c => c.setCr 0x0D3 (srsAdvance c.srs) else p

theorem issuing_cmds (unit op : Nat) (f : Fire) (p : Pkg) : (issuing unit op f p).cmds = p.cmds := by
  unfold issuing; split <;> rfl
theorem issuing_nextCmd (unit op : Nat) (f : Fire) (p : Pkg) : (issuing unit op f p).nextCmd = p.nextCmd := by
  unfold issuing; split <;> rfl
theorem issuing_c (unit op : Nat) (f : Fire) (p : Pkg) : ∃ m, (issuing unit op f p).c f.ctx = { p.c f.ctx with creg := m } := by
  unfold issuing
  split
  · exact ⟨_, Pkg.c_modC_self ..⟩
  · exact ⟨_, rfl⟩

/-- The commands that an issue's aux fields name (R187). -/
def namedCommands (f : Fire) (p : Pkg) : List Nat :=
  ((auxTokens f.aux.toS.toNat).map fun t => ((p.c f.ctx).tokens.get t).cmd).filter (· != 0)

/-- What a command consumes: those it names, and the outstanding ones before its context's fence. -/
theorem issueCommand_uses (env : Env) (unit op : Nat) (mk : Cmd → Instr) (f : Fire) (tmpl : NMap (List Byte)) (p : Pkg) :
    let q := issuing unit op f p
    ((issueCommand env unit op mk f tmpl p).cmd p.nextCmd).cmd.uses =
      namedCommands f q ++ ((earlierCommands q f.ctx).filter fun n => decide (n < (q.c f.ctx).fenceMark)).filter q.present := by
  intro q
  rw [← issuing_nextCmd unit op f p]
  unfold issueCommand
  simp only [Pkg.cmd, deliver, addEntry_cmds, Pkg.modC_cmds]
  change (NMap.get (NMap.set q.cmds q.nextCmd _) q.nextCmd).cmd.uses = _
  rw [NMap.get_set_self]
  rfl

theorem mem_earlierCommands {p : Pkg} {x : Nat} {m : Command} (own : m ∈ p.ownCmds x) : m.cmd.id ∈ earlierCommands p x :=
  List.mem_eraseDups.2 (List.mem_append_left _ (List.mem_map.2 ⟨m, own, rfl⟩))

theorem fenced_mem_uses (env : Env) (unit op : Nat) (mk : Cmd → Instr) (f : Fire) (tmpl : NMap (List Byte)) (p : Pkg) (m : Command)
    (own : m ∈ p.ownCmds f.ctx) (present : p.present m.cmd.id = true) (before : m.cmd.id < (p.c f.ctx).fenceMark) :
    m.cmd.id ∈ ((issueCommand env unit op mk f tmpl p).cmd p.nextCmd).cmd.uses := by
  obtain ⟨r, ctx⟩ := issuing_c unit op f p
  have cmds := issuing_cmds unit op f p
  rw [issueCommand_uses]
  refine List.mem_append_right _ (List.mem_filter.2 ⟨List.mem_filter.2 ⟨mem_earlierCommands ?_, decide_eq_true ?_⟩, ?_⟩)
  · rw [Pkg.ownCmds, Pkg.allCmds, cmds, ctx]
    exact own
  · rw [ctx]
    exact before
  · rw [Pkg.present, cmds]
    exact present

end Sys2Proof.Proofs.Fences

namespace Sys2Proof.Proofs.Bindings

open Machine Arrivals Fences

/-! ### Commands that end in one step with nothing to write but late writes -/

theorem endFaulted_eq (id status : Nat) (p : Pkg) : ∃ cs n, endFaulted id status p = { p with cmds := cs, fresh := n } := ⟨_, _, rfl⟩

section
variable {i : Instr} {c : Cmd} {s : State} {body : Eng Unit} {f : Pkg → Prop}
  (row : exec i s = runCmd c body s) (present : s.pkg.present c.id = true) (fresh : Fresh (s.pkg.cmd c.id))
include row present fresh

/-- Accesses that change nothing of commands and storage, and come to late writes alone. -/
theorem ends_of_accepted {q : Pkg} {late : List PWrite}
    (accepted : Accepted body c s { Work.of s.pkg c.id with p := q, late := late })
    (cmds : q.cmds = s.pkg.cmds) (mem : q.mem = s.pkg.mem) (side : q.side = s.pkg.side) (core : q.core = s.pkg.core)
    (holds : ∀ cs, f { q with cmds := cs }) : Ends i c s 0 [] late f := by
  obtain ⟨t, ran, started, g, pkg⟩ := run_started present fresh (by rw [Pkg.cmd, Pkg.cmd, cmds]) fresh.stamp rfl accepted
  refine ⟨t, row.trans ran, started, ?_, ?_⟩
  · rw [pkg]
    exact .of_eq mem side core
  · rw [pkg]
    exact holds _

/-- Accesses of which the first is refused: the command has the status, and nothing to write. -/
theorem ends_of_status {status : Nat} (refused : body ⟨s.env, c⟩ (Work.of s.pkg c.id) = .error (.status status) (Work.of s.pkg c.id))
    (holds : ∀ cs n, f { s.pkg with cmds := cs, fresh := n }) : Ends i c s status [] [] f := by
  have ran : runCmd c body s = s.put (endFaulted c.id status ((Work.of s.pkg c.id).p.modCmd c.id fun m =>
      { (Work.of s.pkg c.id).save m with log := [], parts := [] })) := by simp [runCmd, present, refused]
  obtain ⟨cs, n, faulted⟩ := endFaulted_eq c.id status ((Work.of s.pkg c.id).p.modCmd c.id fun m =>
      { (Work.of s.pkg c.id).save m with log := [], parts := [] })
  refine ⟨_, row.trans ran, ?_, ?_, ?_⟩
  rotate_left
  · rw [faulted]
    exact .of_eq rfl rfl rfl
  · rw [faulted]
    exact holds _ _
  constructor <;> simp [endFaulted, Work.save, Work.of, fresh.writes, fresh.stamp, keptWrites]

end

/-! ### The commands of a closure (R108) -/

section
variable {c : Cmd} {env : Env} {w : Work} (wide : Bool)

theorem closurePerformed_waits (pending : ∃ n ∈ c.closure, w.p.present n = true) :
    closurePerformed wide ⟨env, c⟩ w = .error .wait w := by
  have any : c.closure.any w.p.present = true := List.any_eq_true.2 pending
  unfold closurePerformed
  simp only [Eng.run_bind, Eng.run_read, Eng.run_pkg, any]
  rfl

/-- Once all of a closure have completed, at most replicas change (R113). -/
theorem closurePerformed_done (done : ∀ n ∈ c.closure, w.p.present n = false) :
    ∃ rs, closurePerformed wide ⟨env, c⟩ w = .ok () { w with p := { w.p with replicas := rs } } := by
  have absent : c.closure.any w.p.present = false := List.any_eq_false.2 fun n mem => by simp [done n mem]
  unfold closurePerformed
  simp only [Eng.run_bind, Eng.run_read, Eng.run_pkg, absent]
  cases wide <;> exact ⟨_, rfl⟩

end

/-! ### The fence of the engine, and the stamp (R108, R200) -/

/-- The late write of a stamp, where the commands of `ended` have ended with their statuses. -/
def stampOf (env : Env) (c : Cmd) (ended : List (Nat × Nat)) : PWrite :=
  Eng.localCells (coreOf c.ctx) c.a.toNat (stampBytes (firstFault (c.uses.take c.named) ended) c.seq env.dtime)

theorem ecStampwWork_eq {c : Cmd} {env : Env} {w w' : Work} (place : Eng.linear c.a.toNat 8 8 = true)
    (performed : closurePerformed true ⟨env, c⟩ w = .ok () w') (on : w'.p.powerOf (coreOf c.ctx) = 0) :
    ecStampwWork c ⟨env, c⟩ w = .ok () { w' with late := w'.late ++ [stampOf env c (w'.p.cmd c.id).ended] } := by
  have self : Eng.self ⟨env, c⟩ w' = .ok (w'.p.cmd c.id) w' := rfl
  unfold ecStampwWork
  rw [Eng.run_bind, Eng.run_need 2 place]
  dsimp only
  rw [Eng.run_bind, performed]
  dsimp only
  rw [Eng.run_bind, Eng.run_read]
  dsimp only
  rw [Eng.run_bind, self]
  dsimp only
  rw [Eng.run_bind, awake_on env c w' _ on]
  rfl

section
variable {c : Cmd} {s : State} (present : s.pkg.present c.id = true)
include present

theorem ecFenceE_waits (pending : ∃ n ∈ c.closure, s.pkg.present n = true) :
    ∃ t, exec (.ecFenceE c) s = .next t ∧ (t.pkg.cmd c.id).phase = .waiting := by
  have waits : ecFenceEWork c ⟨s.env, c⟩ (Work.of s.pkg c.id) = .error .wait (Work.of s.pkg c.id) :=
    closurePerformed_waits _ pending
  have ran : runCmd c (ecFenceEWork c) s = s.put ((Work.of s.pkg c.id).p.modCmd c.id fun m =>
      { (Work.of s.pkg c.id).save m with phase := .waiting }) := by simp [runCmd, present, waits]
  refine ⟨_, ran, ?_⟩
  rw [Pkg.cmd_modCmd_self]

variable (done : ∀ n ∈ c.closure, s.pkg.present n = false) (fresh : Fresh (s.pkg.cmd c.id))
include done fresh

theorem ecFenceE_ends : Ends (.ecFenceE c) c s 0 [] [] fun _ => True := by
  obtain ⟨rs, performed⟩ := closurePerformed_done (env := s.env) (w := Work.of s.pkg c.id) (decide (4 ≤ min 5 c.b.toNat)) done
  exact ends_of_accepted (body := ecFenceEWork c) rfl present fresh performed rfl rfl rfl rfl fun _ => trivial

theorem ecStampw_ends (aligned : c.a.toNat % 8 = 0) (inside : c.a.toNat + 8 ≤ 0x800000) (on : s.pkg.powerOf (coreOf c.ctx) = 0) :
    Ends (.ecStampw c) c s 0 [] [stampOf s.env c (s.pkg.cmd c.id).ended] fun _ => True := by
  obtain ⟨rs, performed⟩ := closurePerformed_done (env := s.env) (w := Work.of s.pkg c.id) true done
  have place : Eng.linear c.a.toNat 8 8 = true := by simp [Eng.linear, spadSize, aligned, inside]
  exact ends_of_accepted (body := ecStampwWork c) rfl present fresh ((ecStampwWork_eq place performed on).trans rfl)
    rfl rfl rfl rfl fun _ => trivial

end

/-! ### Bindings (R103, R210) -/

section
variable {c : Cmd} {v : View} {w : Work} (aligned : (c.a.toNat % 64 == 0 && c.d.toNat % 64 == 0 && c.c.toNat % 8 == 0) = true)
  (some_ : c.d.toNat ≠ 0)
include aligned some_

theorem ecBindWork_meets {b : Binding} (mem : b ∈ w.p.binds.filter fun b => b.asid == c.asid)
    (meets : rangesMeet (c.a.toNat, c.d.toNat) (b.base, b.len) = true) : ecBindWork c v w = .error (.status 0x0B) w := by
  unfold ecBindWork
  rw [Eng.run_bind, Eng.run_need 3 aligned]
  dsimp only
  rw [if_neg some_, Eng.run_bind, Eng.run_pkg]
  dsimp only
  rw [Eng.run_bind, run_need_false 0x0B]
  exact (Bool.not_eq_false' _).mpr (List.any_eq_true.2 ⟨b, mem, meets⟩)

theorem ecBindWork_binds (apart : ∀ b ∈ w.p.binds.filter fun b => b.asid == c.asid,
    rangesMeet (c.a.toNat, c.d.toNat) (b.base, b.len) = false)
    (room : (w.p.binds.filter fun b => b.asid == c.asid).length < 4096) :
    ecBindWork c v w = .ok () { w with p := { w.p with binds := w.p.binds ++ [⟨c.asid, c.a.toNat, c.d.toNat, c.c.toNat⟩] } } := by
  unfold ecBindWork
  rw [Eng.run_bind, Eng.run_need 3 aligned]
  dsimp only
  rw [if_neg some_, Eng.run_bind, Eng.run_pkg]
  dsimp only
  rw [Eng.run_bind, Eng.run_need 0x0B]
  · dsimp only
    rw [Eng.run_bind, Eng.run_need 0x0C (decide_eq_true room)]
    rfl
  · exact (Bool.not_eq_true' _).mpr (List.any_eq_false.2 fun b mem => by simp [apart b mem])

end

/-- A command names this binding (R210). -/
def namesBinding (c : Cmd) (b : Binding) : Bool := b.asid == c.asid && b.base == c.a.toNat && b.len == c.d.toNat

theorem namesBinding_iff {c : Cmd} {b : Binding} :
    namesBinding c b = true ↔ b.asid = c.asid ∧ b.base = c.a.toNat ∧ b.len = c.d.toNat := by
  simp [namesBinding, and_assoc]

theorem ecUnbindWork_removes {c : Cmd} {v : View} {w : Work} (named : w.p.binds.any (namesBinding c) = true) :
    ecUnbindWork c v w = .ok () { w with p := { w.p with binds := w.p.binds.filter fun b => !namesBinding c b } } := by
  show (do Eng.need ((← Eng.pkg).binds.any (namesBinding c)) 0x0D; _ : Eng Unit) v w = _
  rw [Eng.run_bind, Eng.run_pkg]
  dsimp only
  rw [Eng.run_bind, Eng.run_need 0x0D named]
  rfl

theorem ecUnbindWork_fails {c : Cmd} {v : View} {w : Work} (unnamed : w.p.binds.any (namesBinding c) = false) :
    ecUnbindWork c v w = .error (.status 0x0D) w := by
  show (do Eng.need ((← Eng.pkg).binds.any (namesBinding c)) 0x0D; _ : Eng Unit) v w = _
  rw [Eng.run_bind, Eng.run_pkg]
  dsimp only
  rw [Eng.run_bind, run_need_false 0x0D unnamed]

section
variable {c : Cmd} {s : State} (present : s.pkg.present c.id = true) (fresh : Fresh (s.pkg.cmd c.id))
include present fresh

section
variable (alignedA : c.a.toNat % 64 = 0) (alignedD : c.d.toNat % 64 = 0) (alignedC : c.c.toNat % 8 = 0) (some_ : 0 < c.d.toNat)
include alignedA alignedD alignedC some_

/-- A bind that meets a live binding of its ASID changes none. -/
theorem ecBind_meets (meets : ∃ b ∈ s.pkg.binds.filter fun b => b.asid == c.asid,
    rangesMeet (c.a.toNat, c.d.toNat) (b.base, b.len) = true) :
    Ends (.ecBind c) c s 0x0B [] [] fun q => q.binds = s.pkg.binds := by
  obtain ⟨b, mem, meets⟩ := meets
  exact ends_of_status (body := ecBindWork c) rfl present fresh
    (ecBindWork_meets (by simp [alignedA, alignedD, alignedC]) some_.ne' mem meets) fun _ _ => rfl

theorem ecBind_binds (apart : ∀ b ∈ s.pkg.binds.filter fun b => b.asid == c.asid,
    rangesMeet (c.a.toNat, c.d.toNat) (b.base, b.len) = false)
    (room : (s.pkg.binds.filter fun b => b.asid == c.asid).length < 4096) :
    Ends (.ecBind c) c s 0 [] [] fun q => q.binds = s.pkg.binds ++ [⟨c.asid, c.a.toNat, c.d.toNat, c.c.toNat⟩] :=
  ends_of_accepted (body := ecBindWork c) rfl present fresh
    ((ecBindWork_binds (w := Work.of s.pkg c.id) (by simp [alignedA, alignedD, alignedC]) some_.ne' apart room).trans rfl)
    rfl rfl rfl rfl fun _ => rfl

end

theorem ecUnbind_removes (named : ∃ b ∈ s.pkg.binds, b.asid = c.asid ∧ b.base = c.a.toNat ∧ b.len = c.d.toNat) :
    Ends (.ecUnbind c) c s 0 [] [] fun q =>
      ∀ b, b ∈ q.binds ↔ b ∈ s.pkg.binds ∧ ¬(b.asid = c.asid ∧ b.base = c.a.toNat ∧ b.len = c.d.toNat) := by
  obtain ⟨b, mem, mine⟩ := named
  refine ends_of_accepted (body := ecUnbindWork c) rfl present fresh
    ((ecUnbindWork_removes (w := Work.of s.pkg c.id) (List.any_eq_true.2 ⟨b, mem, namesBinding_iff.2 mine⟩)).trans rfl)
    rfl rfl rfl rfl fun _ b => ?_
  show b ∈ s.pkg.binds.filter (fun b => !namesBinding c b) ↔ _
  rw [List.mem_filter, ← namesBinding_iff, Bool.not_eq_true', Bool.not_eq_true]

theorem ecUnbind_fails (unnamed : ∀ b ∈ s.pkg.binds, ¬(b.asid = c.asid ∧ b.base = c.a.toNat ∧ b.len = c.d.toNat)) :
    Ends (.ecUnbind c) c s 0x0D [] [] fun q => q.binds = s.pkg.binds :=
  ends_of_status (body := ecUnbindWork c) rfl present fresh
    (ecUnbindWork_fails (w := Work.of s.pkg c.id) (List.any_eq_false.2 fun b mem => mt namesBinding_iff.1 (unnamed b mem))) fun _ _ => rfl

end

/-- Settles O34: a core's fence by what each of its operations does to its context, the engine's rows by what their accesses come
to. None of these looks at B of a bind, an unbind or a stamp (log 105). -/
theorem fencesAndBindings : Obligations.FencesAndBindings := by
  unfold Obligations.FencesAndBindings
  refine ⟨sysFence_leaves, fenced_mem_uses, fun c s present => ⟨ecFenceE_waits present, fun done fresh =>
    ⟨ecFenceE_ends present done fresh, fun aligned inside on => ecStampw_ends present done fresh aligned inside on⟩⟩, ?_⟩
  intro c s present fresh a n live mine ends
  exact ⟨fun alignedA alignedD alignedC some_ => ⟨ecBind_meets present fresh alignedA alignedD alignedC some_,
    ecBind_binds present fresh alignedA alignedD alignedC some_⟩, ecUnbind_removes present fresh, ecUnbind_fails present fresh⟩

end Sys2Proof.Proofs.Bindings

namespace Sys2Proof.Proofs.Encodings

/-! ### The fields of a trowel word (R262) -/

section
variable (op : Nat) (rd ra rb rc : BitVec 5) (fn : BitVec 7) (n : BitVec 16) (s len : Nat)

/-- The bits of a word of the register form, as bits of its fields put side by side. -/
theorem regForm_extract : (regForm op rd ra rb rc fn).extractLsb' s len =
    BitVec.extractLsb' s len (BitVec.ofNat 5 op ++ rd ++ ra ++ rb ++ rc ++ fn) := rfl

@[simp] theorem regForm_op : (regForm op rd ra rb rc fn).extractLsb' 27 5 = BitVec.ofNat 5 op := by
  simp [regForm_extract, BitVec.extractLsb'_append_eq_of_le, -Nat.reduceAdd]
@[simp] theorem regForm_rd : (regForm op rd ra rb rc fn).extractLsb' 22 5 = rd := by
  simp [regForm_extract, BitVec.extractLsb'_append_eq_of_le, BitVec.extractLsb'_append_eq_of_add_le, -Nat.reduceAdd]
@[simp] theorem regForm_ra : (regForm op rd ra rb rc fn).extractLsb' 17 5 = ra := by
  simp [regForm_extract, BitVec.extractLsb'_append_eq_of_le, BitVec.extractLsb'_append_eq_of_add_le, -Nat.reduceAdd]
@[simp] theorem regForm_rb : (regForm op rd ra rb rc fn).extractLsb' 12 5 = rb := by
  simp [regForm_extract, BitVec.extractLsb'_append_eq_of_le, BitVec.extractLsb'_append_eq_of_add_le, -Nat.reduceAdd]
@[simp] theorem regForm_rc : (regForm op rd ra rb rc fn).extractLsb' 7 5 = rc := by
  simp [regForm_extract, BitVec.extractLsb'_append_eq_of_le, BitVec.extractLsb'_append_eq_of_add_le, -Nat.reduceAdd]
@[simp] theorem regForm_fn : (regForm op rd ra rb rc fn).extractLsb' 0 7 = fn := by
  simp [regForm_extract, BitVec.extractLsb'_append_eq_of_add_le, -Nat.reduceAdd]
@[simp] theorem regForm_shift : (regForm op rd ra rb rc fn).extractLsb' 0 5 = fn.extractLsb' 0 5 := by
  simp [regForm_extract, BitVec.extractLsb'_append_eq_of_add_le, -Nat.reduceAdd]

theorem loopForm_extract : (loopForm op n).extractLsb' s len = BitVec.extractLsb' s len (BitVec.ofNat 5 op ++ (0 : BitVec 11) ++ n) := rfl

@[simp] theorem loopForm_op : (loopForm op n).extractLsb' 27 5 = BitVec.ofNat 5 op := by
  simp [loopForm_extract, BitVec.extractLsb'_append_eq_of_le, -Nat.reduceAdd]
@[simp] theorem loopForm_unused : (loopForm op n).extractLsb' 16 11 = 0 := by
  simp [loopForm_extract, BitVec.extractLsb'_append_eq_of_le, BitVec.extractLsb'_append_eq_of_add_le, -Nat.reduceAdd]
@[simp] theorem loopForm_count : (loopForm op n).extractLsb' 0 16 = n := by
  simp [loopForm_extract, BitVec.extractLsb'_append_eq_of_add_le, -Nat.reduceAdd]

end

section
variable {w : BitVec 32} {op : Nat} (opcode : (w.extractLsb' 27 5).toNat = op)
include opcode

/-- A word is of the register form of its fields. -/
theorem regForm_fields : regForm op (w.extractLsb' 22 5) (w.extractLsb' 17 5) (w.extractLsb' 12 5) (w.extractLsb' 7 5)
    (w.extractLsb' 0 7) = w := by
  subst opcode
  show BitVec.ofNat 5 _ ++ _ ++ _ ++ _ ++ _ ++ _ = w
  simp only [BitVec.ofNat_toNat, BitVec.setWidth_eq, BitVec.extractLsb'_append_extractLsb'_eq_extractLsb']
  exact BitVec.extractLsb'_append_extractLsb' (w := 25) (len := 7)

theorem loopForm_fields (unused : w.extractLsb' 16 11 = 0) : loopForm op (w.extractLsb' 0 16) = w := by
  subst opcode
  show BitVec.ofNat 5 _ ++ (0 : BitVec 11) ++ _ = w
  rw [← unused]
  simp only [BitVec.ofNat_toNat, BitVec.setWidth_eq, BitVec.extractLsb'_append_extractLsb'_eq_extractLsb']
  exact BitVec.extractLsb'_append_extractLsb' (w := 16) (len := 16)

/-- A word of which nothing is set but the opcode. -/
theorem regForm_bare (unused : w.extractLsb' 0 27 = 0) : regForm op 0 0 0 0 0 = w := by
  have field (k n : Nat) (inside : k + n ≤ 27) : w.extractLsb' k n = 0 := by
    rw [← BitVec.extractLsb'_extractLsb'_of_le inside, unused]
    ext i hi
    simp
  rw [← regForm_fields opcode, field 22 5 (by decide), field 17 5 (by decide), field 12 5 (by decide), field 7 5 (by decide),
    field 0 7 (by decide)]

end

/-! ### The rows of the decoder's table

Each row asks that the bits that it does not use are 0 and that its register fields name registers. -/

/-- A row of the decoder's table. -/
abbrev row (unused : Bool) (regs : List (BitVec 5)) (i : Instr) : Except Reject Instr :=
  if !unused then .error .unusedField else if regs.all (· < 24) then .ok i else .error .reservedRegister

theorem row_eq_ok {unused : Bool} {regs : List (BitVec 5)} {i j : Instr} :
    row unused regs j = .ok i ↔ unused = true ∧ regs.all wreg = true ∧ j = i := by
  have registers : regs.all (· < 24) = regs.all wreg := rfl
  rw [row, registers]
  cases unused <;> cases regs.all wreg <;> simp

/-! ### The bits below the register fields (R263 to R265) -/

theorem flag_bits : ∀ fn : BitVec 7, fn >>> 1 = 0 → (0 : BitVec 6) ++ BitVec.ofBool (fn.getLsbD 0) = fn := by decide

theorem compare_bits : ∀ fn : BitVec 7, fn >>> 5 = 0 → (0 : BitVec 2) ++ fn.extractLsb' 3 2 ++ fn.extractLsb' 0 3 = fn := by decide

theorem compare_fields : ∀ (m : BitVec 2) (c : BitVec 3), ((0 : BitVec 2) ++ m ++ c) >>> 5 = 0 ∧
    ((0 : BitVec 2) ++ m ++ c).extractLsb' 3 2 = m ∧ ((0 : BitVec 2) ++ m ++ c).extractLsb' 0 3 = c := by decide

theorem shift_fields : ∀ (kind : BitVec 2) (s : BitVec 5), (kind ++ s : BitVec 7).getLsbD 6 = kind.getLsbD 1 ∧
    (kind ++ s : BitVec 7).getLsbD 5 = kind.getLsbD 0 ∧ (kind ++ s : BitVec 7).extractLsb' 0 5 = s := by decide

theorem shift_bits : ∀ (arith imm : Bool) (fn : BitVec 7), fn.getLsbD 6 = arith → fn.getLsbD 5 = imm →
    BitVec.ofBool arith ++ BitVec.ofBool imm ++ fn.extractLsb' 0 5 = fn := by decide

/-! ### From an instruction to its word and back -/

theorem decodeTrowel_of_encodeTrowel {i : Instr} {w : BitVec 32} (wf : i.wf = true) (h : encodeTrowel i = some w) :
    decodeTrowel w = .ok i := by
  cases i
  case twNop | twEndl | twHalt =>
    cases h
    rfl
  case twLoop | twLoopx =>
    cases h
    simp only [decodeTrowel, loopForm_op, loopForm_unused, loopForm_count]
    exact row_eq_ok.2 ⟨rfl, rfl, rfl⟩
  case twLd | twSt | twAddI32 | twSubI32 | twMulI32 | twAddF32 | twSubF32 | twMulF32 | twFmaF32 | twAnd | twOr | twXor | twSel | twHmix
      | twShlReg | twShrReg | twSraReg =>
    cases h
    simp only [decodeTrowel, regForm_op, regForm_rd, regForm_ra, regForm_rb, regForm_rc, regForm_fn, regForm_shift]
    exact row_eq_ok.2 ⟨rfl, by simpa [Instr.wf, and_assoc] using wf, rfl⟩
  case twMin f | twMax f =>
    cases h
    simp only [decodeTrowel, regForm_op, regForm_rd, regForm_ra, regForm_rb, regForm_rc, regForm_fn]
    cases f <;> exact row_eq_ok.2 ⟨rfl, by simpa [Instr.wf, and_assoc] using wf, rfl⟩
  case twShlImm s | twShrImm s | twSraImm s =>
    cases h
    simp only [decodeTrowel, regForm_op, regForm_rd, regForm_ra, regForm_rb, regForm_rc, regForm_fn, regForm_shift, shift_fields]
    exact row_eq_ok.2 ⟨rfl, by simpa [Instr.wf] using wf, rfl⟩
  case twCmp m c =>
    cases h
    obtain ⟨registers, mode⟩ : (wreg _ = true ∧ wreg _ = true) ∧ m ≠ 3 := by simpa [Instr.wf] using wf
    simp only [decodeTrowel, regForm_op, regForm_rd, regForm_ra, regForm_rb, regForm_rc, regForm_fn, compare_fields]
    exact (if_neg mode).trans (row_eq_ok.2 ⟨rfl, by simp [registers], rfl⟩)
  all_goals cases h

/-- A word that a row of a shift accepts is by its bit 5 of the form with an amount or of the form with a register (R265). -/
theorem shift_of_row {w : BitVec 32} {op : Nat} {rd ra rb rc s : BitVec 5} {fn : BitVec 7} {arith : Bool}
    {reg imm : BitVec 5 → BitVec 5 → BitVec 5 → Instr} {i : Instr} (word : regForm op rd ra rb rc fn = w)
    (amount : fn.extractLsb' 0 5 = s) (kind : fn.getLsbD 6 = arith)
    (h : (if fn.getLsbD 5 then row (rb == 0 && rc == 0) [rd, ra] (imm rd ra s)
      else row (rc == 0 && s == 0) [rd, ra, rb] (reg rd ra rb)) = .ok i) :
    (imm rd ra s = i ∧ [rd, ra].all wreg = true ∧ regForm op rd ra 0 0 (BitVec.ofBool arith ++ BitVec.ofBool true ++ s) = w) ∨
    (reg rd ra rb = i ∧ [rd, ra, rb].all wreg = true ∧
      regForm op rd ra rb 0 (BitVec.ofBool arith ++ BitVec.ofBool false ++ (0 : BitVec 5)) = w) := by
  split at h
  · next five =>
    obtain ⟨unused, registers, same⟩ := row_eq_ok.1 h
    obtain ⟨rfl, rfl⟩ : rb = 0 ∧ rc = 0 := by simpa using unused
    exact .inl ⟨same, registers, by rw [← amount, shift_bits arith true fn kind five, word]⟩
  · next five =>
    obtain ⟨unused, registers, same⟩ := row_eq_ok.1 h
    obtain ⟨rfl, rfl⟩ : rc = 0 ∧ s = 0 := by simpa using unused
    have bits := shift_bits arith false fn kind (Bool.eq_false_iff.2 five)
    rw [amount] at bits
    exact .inr ⟨same, registers, by rw [bits, word]⟩

theorem encodeTrowel_of_decodeTrowel {w : BitVec 32} {i : Instr} (h : decodeTrowel w = .ok i) : i.wf = true ∧ encodeTrowel i = some w := by
  have amount : (w.extractLsb' 0 7).extractLsb' 0 5 = w.extractLsb' 0 5 := BitVec.extractLsb'_extractLsb'_of_le (by decide)
  simp only [decodeTrowel] at h
  split at h
  case h_1 _ opcode =>
    obtain ⟨unused, -, rfl⟩ := row_eq_ok.1 h
    simp only [Bool.and_eq_true, beq_iff_eq] at unused
    have word := regForm_fields opcode
    simp only [unused] at word
    exact ⟨rfl, congrArg some word⟩
  case h_2 _ opcode | h_3 _ opcode | h_4 _ opcode | h_5 _ opcode | h_6 _ opcode | h_7 _ opcode | h_8 _ opcode |
      h_9 _ opcode | h_10 _ opcode | h_13 _ opcode | h_14 _ opcode | h_15 _ opcode | h_19 _ opcode | h_20 _ opcode =>
    obtain ⟨unused, registers, rfl⟩ := row_eq_ok.1 h
    simp only [Bool.and_eq_true, beq_iff_eq] at unused
    have word := regForm_fields opcode
    simp only [unused] at word
    exact ⟨by simpa [Instr.wf, and_assoc] using registers, congrArg some word⟩
  case h_11 _ opcode | h_12 _ opcode =>
    obtain ⟨unused, registers, rfl⟩ := row_eq_ok.1 h
    simp only [Bool.and_eq_true, beq_iff_eq] at unused
    have word := regForm_fields opcode
    obtain ⟨rc, fn⟩ := unused
    rw [rc, ← flag_bits _ fn] at word
    exact ⟨by simpa [Instr.wf, and_assoc] using registers, congrArg some word⟩
  case h_18 _ opcode =>
    split at h
    · cases h
    · next mode =>
      obtain ⟨unused, registers, rfl⟩ := row_eq_ok.1 h
      simp only [Bool.and_eq_true, beq_iff_eq] at unused
      have word := regForm_fields opcode
      obtain ⟨⟨rd, rc⟩, fn⟩ := unused
      rw [rd, rc, ← compare_bits _ fn] at word
      exact ⟨by simpa [Instr.wf] using And.intro registers mode, congrArg some word⟩
  case h_21 _ opcode | h_22 _ opcode =>
    obtain ⟨unused, -, rfl⟩ := row_eq_ok.1 h
    exact ⟨rfl, congrArg some (loopForm_fields opcode (beq_iff_eq.1 unused))⟩
  case h_23 _ opcode | h_24 _ opcode =>
    obtain ⟨unused, -, rfl⟩ := row_eq_ok.1 h
    exact ⟨rfl, congrArg some (regForm_bare opcode (beq_iff_eq.1 unused))⟩
  case h_25 => cases h
  case h_16 _ opcode =>
    split at h
    · cases h
    · next logical =>
      obtain ⟨rfl, registers, word⟩ | ⟨rfl, registers, word⟩ := shift_of_row (regForm_fields opcode) amount (Bool.eq_false_iff.2 logical) h
      all_goals exact ⟨by simpa [Instr.wf, and_assoc] using registers, congrArg some word⟩
  case h_17 _ opcode =>
    split at h
    · next arith =>
      obtain ⟨rfl, registers, word⟩ | ⟨rfl, registers, word⟩ := shift_of_row (regForm_fields opcode) amount arith h
      all_goals exact ⟨by simpa [Instr.wf, and_assoc] using registers, congrArg some word⟩
    · next logical =>
      obtain ⟨rfl, registers, word⟩ | ⟨rfl, registers, word⟩ := shift_of_row (regForm_fields opcode) amount (Bool.eq_false_iff.2 logical) h
      all_goals exact ⟨by simpa [Instr.wf, and_assoc] using registers, congrArg some word⟩

theorem encode_of_encodeTrowel {i : Instr} {w : BitVec 32} (h : encodeTrowel i = some w) : encode i = bytesOf 4 w.toNat := by
  unfold encode
  split
  · cases h
  · rw [h]

theorem decodeBytes_trowelWord (w : BitVec 32) : decodeBytes (bytesOf 4 w.toNat) = decodeTrowel w := by
  rw [decodeBytes, if_pos (bytesOf_length ..), natOf_bytesOf, Nat.mod_eq_of_lt w.isLt, BitVec.ofNat_toNat, BitVec.setWidth_eq]

theorem decodeBytes_bundle (w : BitVec 256) : decodeBytes (bytesOf 32 w.toNat) = .ok (.bundleIssue 0 (decodeBundle w)) := by
  rw [decodeBytes, if_neg (by rw [bytesOf_length]; decide), if_pos (bytesOf_length ..), bundleOfBytes, natOf_bytesOf,
    Nat.mod_eq_of_lt w.isLt, BitVec.ofNat_toNat, BitVec.setWidth_eq]

/-! ### Bundles (R120 to R122) -/

theorem ofBool_getLsbD {n : Nat} (w : BitVec n) (k : Nat) : BitVec.ofBool (w.getLsbD k) = w.extractLsb' k 1 := by
  ext i hi
  obtain rfl : i = 0 := by omega
  simp

theorem getLsbD_of_extract {n k : Nat} {w : BitVec n} {b : Bool} (h : w.extractLsb' k 1 = BitVec.ofBool b) : w.getLsbD k = b :=
  BitVec.ofBool_eq_iff_eq.1 ((ofBool_getLsbD w k).trans h)

theorem encodeSlot_extract (s : Slot) (k n : Nat) : (encodeSlot s).extractLsb' k n =
    BitVec.extractLsb' k n (s.guard ++ BitVec.ofBool s.neg ++ s.src ++ s.dst) := rfl

/-- The slot of 24 bits. -/
def slotOf (x : BitVec 24) : Slot :=
  { guard := x.extractLsb' 21 3, neg := x.getLsbD 20, src := x.extractLsb' 10 10, dst := x.extractLsb' 0 10 }

theorem slotOf_encodeSlot (s : Slot) : slotOf (encodeSlot s) = s := by
  have neg : (encodeSlot s).getLsbD 20 = s.neg := getLsbD_of_extract <| by
    simp [encodeSlot_extract, BitVec.extractLsb'_append_eq_of_le, BitVec.extractLsb'_append_eq_of_add_le, -Nat.reduceAdd]
  rw [slotOf, neg]
  simp [encodeSlot_extract, BitVec.extractLsb'_append_eq_of_le, BitVec.extractLsb'_append_eq_of_add_le, -Nat.reduceAdd]

theorem encodeSlot_slotOf (x : BitVec 24) : encodeSlot (slotOf x) = x := by
  show x.extractLsb' 21 3 ++ BitVec.ofBool (x.getLsbD 20) ++ x.extractLsb' 10 10 ++ x.extractLsb' 0 10 = x
  simp only [ofBool_getLsbD, BitVec.extractLsb'_append_extractLsb'_eq_extractLsb']
  exact BitVec.extractLsb'_eq_self

theorem encodeHeader_extract (b : Bundle) (k n : Nat) : (encodeHeader b).extractLsb' k n = BitVec.extractLsb' k n
    (b.kind ++ b.hdr.rnd ++ BitVec.ofBool b.hdr.sat ++ b.hdr.fa ++ b.hdr.fb ++ BitVec.ofBool b.hdr.join ++ b.imm16 ++ b.imm32) := rfl

section
variable {b : Bundle} {a0 a1 a2 a3 a4 a5 a6 a7 : Slot} (slots : b.slots = [a0, a1, a2, a3, a4, a5, a6, a7])
include slots

theorem encodeBundle_extract (k n : Nat) : (encodeBundle b).extractLsb' k n = BitVec.extractLsb' k n
    (encodeHeader b ++ encodeSlot a0 ++ encodeSlot a1 ++ encodeSlot a2 ++ encodeSlot a3 ++ encodeSlot a4 ++ encodeSlot a5 ++
      encodeSlot a6 ++ encodeSlot a7) := by
  rw [encodeBundle, slots]

theorem decodeSlots_encodeBundle : (decodeBundle (encodeBundle b)).slots = b.slots := by
  show [slotOf ((encodeBundle b).extractLsb' 168 24), slotOf ((encodeBundle b).extractLsb' 144 24),
    slotOf ((encodeBundle b).extractLsb' 120 24), slotOf ((encodeBundle b).extractLsb' 96 24),
    slotOf ((encodeBundle b).extractLsb' 72 24), slotOf ((encodeBundle b).extractLsb' 48 24),
    slotOf ((encodeBundle b).extractLsb' 24 24), slotOf ((encodeBundle b).extractLsb' 0 24)] = _
  rw [slots]
  simp [encodeBundle_extract slots, BitVec.extractLsb'_append_eq_of_le, BitVec.extractLsb'_append_eq_of_add_le, slotOf_encodeSlot,
    -Nat.reduceAdd]

theorem decodeHeader_encodeBundle : decodeBundle (encodeBundle b) = { b with slots := (decodeBundle (encodeBundle b)).slots } := by
  have sat : (encodeBundle b).getLsbD 249 = b.hdr.sat := getLsbD_of_extract <| by
    simp [encodeBundle_extract slots, encodeHeader_extract, BitVec.extractLsb'_append_eq_of_le,
      BitVec.extractLsb'_append_eq_of_add_le, -Nat.reduceAdd]
  have join : (encodeBundle b).getLsbD 240 = b.hdr.join := getLsbD_of_extract <| by
    simp [encodeBundle_extract slots, encodeHeader_extract, BitVec.extractLsb'_append_eq_of_le,
      BitVec.extractLsb'_append_eq_of_add_le, -Nat.reduceAdd]
  rw [decodeBundle, sat, join]
  simp [encodeBundle_extract slots, encodeHeader_extract, BitVec.extractLsb'_append_eq_of_le,
    BitVec.extractLsb'_append_eq_of_add_le, -Nat.reduceAdd]

end

theorem decodeBundle_encodeBundle {b : Bundle} (wf : b.wf = true) : decodeBundle (encodeBundle b) = b := by
  have eight : b.slots.length = 8 := by simpa [Bundle.wf] using wf
  match slots : b.slots, eight with
  | [a0, a1, a2, a3, a4, a5, a6, a7], _ => rw [decodeHeader_encodeBundle slots, decodeSlots_encodeBundle slots]

theorem encodeBundle_decodeBundle (w : BitVec 256) : encodeBundle (decodeBundle w) = w := by
  show encodeHeader (decodeBundle w) ++ encodeSlot (slotOf (w.extractLsb' 168 24)) ++ encodeSlot (slotOf (w.extractLsb' 144 24)) ++
     encodeSlot (slotOf (w.extractLsb' 120 24)) ++ encodeSlot (slotOf (w.extractLsb' 96 24)) ++ encodeSlot (slotOf (w.extractLsb' 72 24)) ++
     encodeSlot (slotOf (w.extractLsb' 48 24)) ++ encodeSlot (slotOf (w.extractLsb' 24 24)) ++ encodeSlot (slotOf (w.extractLsb' 0 24)) = w
  have header : encodeHeader (decodeBundle w) = w.extractLsb' 192 64 := by
    show w.extractLsb' 253 3 ++ w.extractLsb' 250 3 ++ BitVec.ofBool (w.getLsbD 249) ++ w.extractLsb' 245 4 ++ w.extractLsb' 241 4 ++
      BitVec.ofBool (w.getLsbD 240) ++ w.extractLsb' 224 16 ++ w.extractLsb' 192 32 = _
    simp only [ofBool_getLsbD, BitVec.extractLsb'_append_extractLsb'_eq_extractLsb']
  simp only [header, encodeSlot_slotOf, BitVec.extractLsb'_append_extractLsb'_eq_extractLsb']
  exact BitVec.extractLsb'_eq_self

/-- Settles O56: both directions go by the fields of a word, row by row of the decoder's table for a trowel word. -/
theorem encodingsRoundTrip : Obligations.EncodingsRoundTrip := by
  unfold Obligations.EncodingsRoundTrip
  refine ⟨fun i w wf encoded => ?_, fun b wf => ?_, encodeBundle_decodeBundle, fun w i decoded => encodeTrowel_of_decodeTrowel decoded⟩
  · have back := decodeTrowel_of_encodeTrowel wf encoded
    exact ⟨back, by rw [encode_of_encodeTrowel encoded, decodeBytes_trowelWord, back]⟩
  · have back := decodeBundle_encodeBundle wf
    exact ⟨back, by rw [encode, decodeBytes_bundle, back]⟩

/-- Settles O55: each word is decoded as it stands, the bundle field by field. -/
theorem wordsDecode : Obligations.WordsDecode := by
  unfold Obligations.WordsDecode
  refine ⟨rfl, rfl, rfl, rfl, rfl, rfl, rfl, rfl, ?_, rfl, rfl, by decide, rfl⟩
  simp [decodeBundle, decodeSlot, Slot.empty, List.range_succ]

end Sys2Proof.Proofs.Encodings

namespace Sys2Proof.Proofs.Traps

open Machine StorageFrames

/-! ### Registers left alone -/

/-- All registers of a context. -/
def registers (c : Ctx) := (c.s, c.v, c.p, c.m, c.creg, c.rport, c.vport, c.tokens, c.tmpl)

/-- An update of fields that hold no register. -/
theorem sameRegs_of_registers {c d : Ctx} (h : registers d = registers c) : SameRegs c d := by
  simp only [registers, Prod.mk.injEq] at h
  obtain ⟨hs, hv, hp, hm, hcreg, hrport, hvport, htokens, htmpl⟩ := h
  constructor <;> simp [*, Ctx.cr]

/-! ### An S-class trap taken (R307, R308) -/

/-- A core at which a context stops issuing. -/
def stopIssue (x : Nat) (k : Core) : Core := if k.running = some x then { k with running := none, quantum := 0 } else k

theorem stopIssue_running (x : Nat) (k : Core) : (stopIssue x k).running ≠ some x := by
  unfold stopIssue
  split
  · exact (Option.some_ne_none x).symm
  · assumption

theorem stopIssue_cells (x : Nat) (k : Core) : SameCells k (stopIssue x k) := by
  unfold stopIssue
  split
  · exact ⟨rfl, rfl, rfl, rfl⟩
  · exact .rfl

/-- A context as an S-class trap leaves it. -/
def trapped (cause pc : Nat) (c : Ctx) : Ctx := { c with left := c.phase, phase := .frozen, cause := cause, pc := pc, watchdog := 0 }

theorem trapped_regs (cause pc : Nat) (c : Ctx) : SameRegs c (trapped cause pc c) :=
  sameRegs_of_registers rfl

section
variable (env : Env) (x cause pc tpc lpc : Nat) (p : Pkg)

theorem sTrap_eq : ∃ f g : Ctx → Ctx, (∀ c, g (f c) = trapped cause pc c) ∧
    sTrap env x cause pc tpc lpc p = { ((p.modC x f).modK (coreOf x) (stopIssue x)).modC x g with
      faultq := p.faultq ++ [trapRecord env.dtime p x cause tpc lpc false 0] } := by
  refine ⟨_, _, ?_, rfl⟩
  exact fun _ => rfl

theorem sTrap_c_self : (sTrap env x cause pc tpc lpc p).c x = trapped cause pc (p.c x) := by
  obtain ⟨f, g, both, e⟩ := sTrap_eq env x cause pc tpc lpc p
  rw [e, ← both]
  show (Pkg.modC _ x g).c x = _
  rw [Pkg.c_modC_self, Pkg.modK_read_c, Pkg.c_modC_self]

theorem sTrap_c_of_ne {y : Nat} (other : y ≠ x) : (sTrap env x cause pc tpc lpc p).c y = p.c y := by
  obtain ⟨f, g, -, e⟩ := sTrap_eq env x cause pc tpc lpc p
  rw [e]
  show (Pkg.modC _ x g).c y = _
  rw [Pkg.c_modC_of_ne _ _ other, Pkg.modK_read_c, Pkg.c_modC_of_ne _ _ other]

theorem sTrap_faultq : (sTrap env x cause pc tpc lpc p).faultq = p.faultq ++
    [{ source := x, time := env.dtime, kind := 3, flags := 2, code := cause, node := p.nodeId x, asid := (p.c x).asid,
       pcore := x / 4, ctx := x % 4, tpc := tpc, lpc := lpc }] := rfl

theorem sTrap_micro : (sTrap env x cause pc tpc lpc p).micro = p.micro := rfl

theorem sTrap_running : ((sTrap env x cause pc tpc lpc p).k (coreOf x)).running ≠ some x := by
  obtain ⟨f, g, -, e⟩ := sTrap_eq env x cause pc tpc lpc p
  rw [e]
  show ((Pkg.modK _ (coreOf x) (stopIssue x)).k (coreOf x)).running ≠ some x
  rw [Pkg.k_modK_self]
  exact stopIssue_running x _

theorem sTrap_parts : SameParts p (sTrap env x cause pc tpc lpc p) := by
  obtain ⟨f, g, -, e⟩ := sTrap_eq env x cause pc tpc lpc p
  rw [e]
  exact ((sameParts_modC p x f).trans (sameParts_modK _ _ _ (stopIssue_cells x))).trans
    ((sameParts_modC _ x g).trans (.of_fields rfl rfl rfl))

end

/-! ### The trap of a bundle at hand (R160, R307) -/

section
variable (env : Env) (x cause : Nat) (p : Pkg)

/-- A context whose check and bad store, where any has landed, its trap has told. -/
def told (c : Ctx) : Ctx := { c with check := none, spoiled := false }

theorem bundleTrap_eq : bundleTrap env x cause p =
    sTrap env x cause (p.c x).pc (((p.c x).check.map (·.1)).getD (p.c x).pc) (p.c x).pc (p.modC x told) := by
  unfold bundleTrap
  dsimp only
  cases (p.c x).check <;> rfl

theorem bundleTrap_c_self : (bundleTrap env x cause p).c x = trapped cause (p.c x).pc (told (p.c x)) := by
  rw [bundleTrap_eq, sTrap_c_self, Pkg.c_modC_self]

theorem bundleTrap_c_of_ne {y : Nat} (other : y ≠ x) : (bundleTrap env x cause p).c y = p.c y := by
  rw [bundleTrap_eq, sTrap_c_of_ne _ _ _ _ _ _ _ other, Pkg.c_modC_of_ne _ _ other]

theorem bundleTrap_micro : (bundleTrap env x cause p).micro = p.micro := by
  rw [bundleTrap_eq, sTrap_micro, Pkg.modC_micro]

theorem bundleTrap_parts : SameParts p (bundleTrap env x cause p) := by
  rw [bundleTrap_eq]
  exact (sameParts_modC p x told).trans (sTrap_parts ..)

theorem bundleTrap_regs : SameRegs (p.c x) ((bundleTrap env x cause p).c x) := by
  rw [bundleTrap_c_self]
  exact (sameRegs_of_registers rfl : SameRegs (p.c x) (told (p.c x))).trans (trapped_regs cause (p.c x).pc (told (p.c x)))

end

/-- From a state in which free values alone have been drawn, the trap of the bundle at hand is taken as from the state itself. -/
theorem bundleTrap_trapped (x cause n : Nat) (s : State) :
    TrappedS x cause (((s.pkg.c x).check.map (·.1)).getD (s.pkg.c x).pc) (s.pkg.c x).pc (s.pkg.c x).pc s
      { s with pkg := bundleTrap s.env x cause (s.pkg.drawn n) } where
  env := rfl
  storage := ((SameParts.of_fields (p := s.pkg) (q := s.pkg.drawn n) rfl rfl rfl).trans (bundleTrap_parts ..)).storage
  others _ other := bundleTrap_c_of_ne s.env x cause (s.pkg.drawn n) other
  regs := bundleTrap_regs s.env x cause (s.pkg.drawn n)
  phase := congrArg Ctx.phase (bundleTrap_c_self ..)
  left := (congrArg Ctx.left (bundleTrap_c_self ..)).trans rfl
  cause := congrArg Ctx.cause (bundleTrap_c_self ..)
  pc := (congrArg Ctx.pc (bundleTrap_c_self ..)).trans rfl
  flight := (congrArg Ctx.flight (bundleTrap_c_self ..)).trans rfl
  watchdog := congrArg Ctx.watchdog (bundleTrap_c_self ..)
  issue := by
    rw [bundleTrap_eq]
    exact sTrap_running _ _ _ _ _ _ _
  record := by
    show (bundleTrap ..).faultq = _
    rw [bundleTrap_eq, sTrap_faultq]
    simp [Pkg.nodeId, told]

end Sys2Proof.Proofs.Traps

namespace Sys2Proof.Proofs.BundleIssue

open Machine StorageFrames Traps

/-! ### Pending stores performed with free values drawn (R153) -/

theorem applyStore_drawn (x n : Nat) (st : LStore) (p : Pkg) : applyStore x st (p.drawn n) = (applyStore x st p).drawn n := by
  simp only [applyStore, conveyTags]
  split <;> split <;> rfl

theorem performEntry_drawn (x n : Nat) (p : Pkg) (e : Entry) :
    Fences.performEntry x (p.drawn n) e = (Fences.performEntry x p e).drawn n := by
  unfold Fences.performEntry
  cases e.store with
  | none => rfl
  | some st => exact applyStore_drawn x n st p

theorem foldl_performEntry_drawn (x n : Nat) (es : List Entry) (p : Pkg) :
    es.foldl (Fences.performEntry x) (p.drawn n) = (es.foldl (Fences.performEntry x) p).drawn n := by
  induction es generalizing p with
  | nil => rfl
  | cons e es ih => rw [List.foldl_cons, performEntry_drawn, ih, List.foldl_cons]

/-- The entries of a context whose stores are performed together. -/
def dueStores (which : Entry → LStore → Bool) (c : Ctx) : List Entry :=
  c.flight.filter fun e => e.kind = .store && !e.done && e.store.any (which e)

theorem performWhere_eq (x : Nat) (which : Entry → LStore → Bool) (p : Pkg) :
    performWhere x which p = ((dueStores which (p.c x)).foldl (Fences.performEntry x) p).modC x fun c =>
      { c with flight := c.flight.map (Fences.marked (dueStores which (p.c x))) } := by
  have due : dueStores which (p.c x) = (p.c x).flight.filter fun e => e.kind = .store && !e.done &&
      (match e.store with | some st => which e st | none => false) :=
    List.filter_congr fun e _ => by cases e.store <;> rfl
  rw [due]
  rfl

/-- What is drawn of free values does not bear on what performing stores writes. -/
theorem performWhere_drawn (x n : Nat) (which : Entry → LStore → Bool) (p : Pkg) :
    performWhere x which (p.drawn n) = (performWhere x which p).drawn n := by
  rw [performWhere_eq, performWhere_eq, Pkg.drawn_read_c, foldl_performEntry_drawn]
  rfl

theorem performAll_drawn_parts (x n : Nat) (p : Pkg) : SameParts (performAll x p) (performAll x (p.drawn n)) := by
  rw [performAll, performAll, performWhere_drawn]
  exact .of_fields rfl rfl rfl

/-! ### A context blocked (R40, R153) -/

section
variable (env : Env) (x n : Nat) (p : Pkg)

/-- A context as blocking leaves it. -/
def waiting (clock : Nat) (c : Ctx) : Ctx := { c with phase := .blocked, blockedAt := clock }

theorem waiting_regs (clock : Nat) (c : Ctx) : SameRegs c (waiting clock c) :=
  sameRegs_of_registers rfl

theorem blockCtx_eq : blockCtx env x p = ((performAll x p).modC x (waiting env.clock)).modK (coreOf x) (stopIssue x) := rfl

theorem blockCtx_c_self : (blockCtx env x p).c x = waiting env.clock ((performAll x p).c x) := by
  rw [blockCtx_eq, Pkg.modK_read_c, Pkg.c_modC_self]

theorem blockCtx_parts : SameParts (performAll x p) (blockCtx env x p) := by
  rw [blockCtx_eq]
  exact (sameParts_modC _ x _).trans (sameParts_modK _ _ _ (stopIssue_cells x))

/-- What a bundle that blocks leaves: its context blocked at it, its pending stores performed, its registers as they were. -/
theorem blockCtx_drawn :
    let q := blockCtx env x (p.drawn n)
    (q.c x).phase = .blocked ∧ (q.c x).pc = (p.c x).pc ∧ SameRegs (p.c x) (q.c x) ∧ SameStorage (performAll x p) q ∧
      q.micro = p.micro := by
  intro q
  obtain ⟨-, regs, pc, -, -, -, -, -, -, -, -, -, micro⟩ := performWhere_frame x (fun _ _ => true) (p.drawn n)
  have self : q.c x = waiting env.clock ((performAll x (p.drawn n)).c x) := blockCtx_c_self ..
  have parts : SameParts (performAll x (p.drawn n)) q := blockCtx_parts ..
  rw [self]
  exact ⟨rfl, pc, regs.trans (waiting_regs ..), ((performAll_drawn_parts x n p).trans parts).storage, micro⟩

end

/-! ### The triggers of a bundle (R133) -/

section
variable {x : Nat} {c : Ctx} {b : Bundle} {ms : List Move} {t u : Trig}

theorem mem_triggers : t ∈ triggers x c b ms ↔
    t.unit < 16 ∧ ∃ m ∈ ms, m.dst = .trigger t.unit t.op ∧ t.fire = fireOf x c b.hdr ms t.unit m.val := by
  simp only [triggers, List.mem_flatMap, List.mem_range, List.mem_filterMap]
  constructor
  · rintro ⟨f, bound, m, mem, h⟩
    split at h
    · next g op dst =>
      split at h
      · next same =>
        cases h
        exact ⟨bound, m, mem, by rw [dst, same], rfl⟩
      · cases h
    · cases h
  · rintro ⟨bound, m, mem, dst, fire⟩
    refine ⟨t.unit, bound, m, mem, ?_⟩
    rw [dst]
    simp [← fire]

/-- What R133 lets one active move of a bundle name: a destination, or the trigger of a unit. -/
def claim : Dst → Dst
  | .trigger f _ => .trigger f 0
  | d => d

theorem clash_eq_false : clash ms = false ↔ (ms.map fun m => claim m.dst).Nodup := by
  induction ms with
  | nil => simp [clash]
  | cons m ms ih =>
    rw [clash, Bool.or_eq_false_iff, ih, List.map_cons, List.nodup_cons, List.any_eq_false, List.mem_map, not_exists]
    refine and_congr_left' (forall_congr' fun n => ?_)
    rw [not_and]
    refine imp_congr_right fun _ => not_congr ?_
    obtain ⟨d, v⟩ := m
    obtain ⟨d', v'⟩ := n
    rw [eq_comm (a := claim d')]
    cases d <;> cases d' <;> simp [claim]

theorem move_unique (apart : clash ms = false) {m n : Move} (hm : m ∈ ms) (hn : n ∈ ms) (same : claim m.dst = claim n.dst) : m = n :=
  List.inj_on_of_nodup_map (clash_eq_false.1 apart) hm hn same

/-- A bundle that is not illegal triggers each unit at most once. -/
theorem trigger_unique (apart : clash ms = false) (ht : t ∈ triggers x c b ms) (hu : u ∈ triggers x c b ms) (same : t.unit = u.unit) :
    t = u := by
  obtain ⟨-, m, hm, dst, fire⟩ := mem_triggers.1 ht
  obtain ⟨-, n, hn, dst', fire'⟩ := mem_triggers.1 hu
  obtain rfl : m = n := move_unique apart hm hn (by rw [dst, dst', same]; rfl)
  obtain ⟨-, op⟩ := Dst.trigger.inj (dst.symm.trans dst')
  obtain ⟨unit, o, f⟩ := t
  obtain ⟨unit', o', f'⟩ := u
  simp only at same op fire fire'
  subst same op
  rw [fire, fire']

theorem clash_of_legal {ts : List Trig} (legal : illegal c b ms ts = false) : clash ms = false := by
  simp only [illegal, Bool.or_eq_false_iff] at legal
  exact legal.1.2

end

/-! ### The token that a wait traps for (R189) -/

section
variable {c : Ctx} {m : Word}

theorem Token.fault_iff {t : Token} : t.fault = true ↔ t.state = .complete ∧ t.status ≠ 0 ∧ t.acked = false := by
  simp [Token.fault, and_assoc]

theorem waitFault_eq_some {k : Nat} (bound : k < 64) (named : m.getLsbD k = true) (faulted : (c.tokens.get k).fault = true)
    (first : ∀ j < k, m.getLsbD j = true → ¬(c.tokens.get j).fault = true) : waitFault c m = some k := by
  rw [waitFault, namedTokens, List.find?_filter, List.find?_range_eq_some]
  refine ⟨by simp [named, faulted], List.mem_range.2 bound, fun j less => ?_⟩
  simpa [imp_iff_not_or] using first j less

theorem waitFault_eq_none (sound : ∀ k < 64, m.getLsbD k = true → ¬(c.tokens.get k).fault = true) : waitFault c m = none := by
  rw [waitFault, namedTokens, List.find?_filter, List.find?_eq_none]
  intro k bound
  simpa using sound k (List.mem_range.1 bound)

end

/-! ### What a bundle's issue meets, in the order of R307, R40 and R146 -/

section
variable (x : Nat) (b : Bundle) (n : Nat) (s : State)

/-- The moves of the bundle, all its triggers, and those that fire. -/
abbrev movesOf : List Move := moves s.env.dtime (s.pkg.c x) b
abbrev triggersOf : List Trig := triggers x (s.pkg.c x) b (movesOf x b s)
abbrev firesOf : List Trig := firing (s.pkg.c x) (triggersOf x b s)
/-- The package as the bundle's own triggers see it, with `n` free values drawn: a view-join bundle joins the views first (R75). -/
abbrev seenBy : Pkg :=
  if b.hdr.join then
    (joinViews x ((s.pkg.c x).joins + 1) (s.pkg.drawn n)).modC x fun c => { c with joins := c.joins + 1 }
  else s.pkg.drawn n

/-- The bundle is neither poisoned nor illegal nor privileged in U mode (R133, R134). -/
structure LegalBundle : Prop where
  sound   : (s.pkg.k (coreOf x)).poison.get ((s.pkg.c x).pc / 64) = false
  form    : illegal (s.pkg.c x) b (movesOf x b s) (triggersOf x b s) = false
  allowed : (!(s.pkg.c x).smode && (triggersOf x b s).any privileged) = false

/-- Besides, every trigger's condition holds, and no token to wait for has faulted (R40, R189). -/
structure ReadyBundle : Prop extends LegalBundle x b s where
  ready : blocking (seenBy x b n s) x (firesOf x b s) = none
  fine  : ((firesOf x b s).find? fun t => t.unit == 12 && t.op == 14).bind (fun t => waitFault (s.pkg.c x) t.fire.b.toS) = none

/-- Besides, every address and every target is accepted (R72, R146). -/
structure AcceptedBundle : Prop extends ReadyBundle x b n s where
  addresses : (firesOf x b s).any badAddress = false
  targets   : (firesOf x b s).any badTarget = false

/-- Besides, no trigger meets uncorrectable data itself (R158). -/
structure SoundBundle : Prop extends AcceptedBundle x b n s where
  data : ((s.pkg.c x).spoiled || (firesOf x b s).any (badData (seenBy x b n s) x (firesOf x b s)) ||
    badOwn (s.pkg.drawn n) x (firesOf x b s)) = false

end

section
variable {x : Nat} {b : Bundle} {n : Nat} {s : State} (draws : accessDraws s.pkg x = n)
include draws

theorem issue_poisoned (h : (s.pkg.k (coreOf x)).poison.get ((s.pkg.c x).pc / 64) = true) :
    exec (.bundleIssue x b) s = .next { s with pkg := dataTrap s.env x (s.pkg.drawn n) } := by
  show execBundleIssue x b s = _
  simp only [execBundleIssue, draws, Pkg.drawn_read_c, Pkg.drawn_read_k, h, State.put_eq, if_true]

theorem issue_illegal (sound : (s.pkg.k (coreOf x)).poison.get ((s.pkg.c x).pc / 64) = false)
    (h : illegal (s.pkg.c x) b (movesOf x b s) (triggersOf x b s) = true) :
    exec (.bundleIssue x b) s = .next { s with pkg := bundleTrap s.env x 0x20 (s.pkg.drawn n) } := by
  show execBundleIssue x b s = _
  simp only [execBundleIssue, draws, Pkg.drawn_read_c, Pkg.drawn_read_k, sound, h, State.put_eq, Bool.false_eq_true, if_false, if_true]

theorem issue_privileged (sound : (s.pkg.k (coreOf x)).poison.get ((s.pkg.c x).pc / 64) = false)
    (form : illegal (s.pkg.c x) b (movesOf x b s) (triggersOf x b s) = false)
    (h : (!(s.pkg.c x).smode && (triggersOf x b s).any privileged) = true) :
    exec (.bundleIssue x b) s = .next { s with pkg := bundleTrap s.env x 0x21 (s.pkg.drawn n) } := by
  show execBundleIssue x b s = _
  simp only [execBundleIssue, draws, Pkg.drawn_read_c, Pkg.drawn_read_k, sound, form, h, State.put_eq, Bool.false_eq_true, if_false,
    if_true]

theorem issue_blocks (h : LegalBundle x b s) {u : Nat} (waits : blocking (seenBy x b n s) x (firesOf x b s) = some u) :
    exec (.bundleIssue x b) s = .next { s with pkg := blockCtx s.env x (s.pkg.drawn n) } := by
  show execBundleIssue x b s = _
  simp only [execBundleIssue, draws, Pkg.drawn_read_c, Pkg.drawn_read_k, h.sound, h.form, h.allowed, waits, State.put_eq,
    Bool.false_eq_true, if_false]

theorem issue_waitFault (h : LegalBundle x b s) (ready : blocking (seenBy x b n s) x (firesOf x b s) = none) {k : Nat}
    (faulted : ((firesOf x b s).find? fun t => t.unit == 12 && t.op == 14).bind (fun t => waitFault (s.pkg.c x) t.fire.b.toS) = some k) :
    exec (.bundleIssue x b) s = .next { s with pkg := waitTrap s.env x k (s.pkg.c x).pc (s.pkg.drawn n) } := by
  show execBundleIssue x b s = _
  simp only [execBundleIssue, draws, Pkg.drawn_read_c, Pkg.drawn_read_k, h.sound, h.form, h.allowed, ready, faulted, State.put_eq,
    Bool.false_eq_true, if_false]

theorem issue_badAddress (h : ReadyBundle x b n s) (bad : (firesOf x b s).any badAddress = true) :
    exec (.bundleIssue x b) s = .next { s with pkg := bundleTrap s.env x 0x22 (s.pkg.drawn n) } := by
  show execBundleIssue x b s = _
  simp only [execBundleIssue, draws, Pkg.drawn_read_c, Pkg.drawn_read_k, h.sound, h.form, h.allowed, h.ready, h.fine, bad, State.put_eq,
    Bool.false_eq_true, if_false, if_true]

theorem issue_badTarget (h : ReadyBundle x b n s) (addresses : (firesOf x b s).any badAddress = false)
    (bad : (firesOf x b s).any badTarget = true) :
    exec (.bundleIssue x b) s = .next { s with pkg := bundleTrap s.env x 0x23 (s.pkg.drawn n) } := by
  show execBundleIssue x b s = _
  simp only [execBundleIssue, draws, Pkg.drawn_read_c, Pkg.drawn_read_k, h.sound, h.form, h.allowed, h.ready, h.fine, addresses, bad,
    State.put_eq, Bool.false_eq_true, if_false, if_true]

theorem issue_badData (h : AcceptedBundle x b n s) (bad : ((s.pkg.c x).spoiled || (firesOf x b s).any (badData (seenBy x b n s) x (firesOf x b s)) ||
    badOwn (s.pkg.drawn n) x (firesOf x b s)) = true) :
    exec (.bundleIssue x b) s = .next { s with pkg := dataTrap s.env x (s.pkg.drawn n) } := by
  show execBundleIssue x b s = _
  simp only [execBundleIssue, draws, Pkg.drawn_read_c, Pkg.drawn_read_k, h.sound, h.form, h.allowed, h.ready, h.fine, h.addresses, h.targets, bad,
    State.put_eq, Bool.false_eq_true, if_false, if_true]

theorem issue_badStore (h : SoundBundle x b n s)
    (bad : badAmong x (performs (firesOf x b s) (s.pkg.c x).joins) (s.pkg.drawn n) = true) :
    exec (.bundleIssue x b) s =
      .next { s with pkg := badTrap s.env x (performs (firesOf x b s) (s.pkg.c x).joins) (s.pkg.drawn n) } := by
  show execBundleIssue x b s = _
  simp only [execBundleIssue, draws, Pkg.drawn_read_c, Pkg.drawn_read_k, h.sound, h.form, h.allowed, h.ready, h.fine, h.addresses, h.targets,
    h.data, bad, State.put_eq, Bool.false_eq_true, if_false, if_true]

end

/-! ### The trap for stores that the bundle performs (R156) -/

theorem dataTrap_eq (env : Env) (x : Nat) (p : Pkg) :
    dataTrap env x p = bundleTrap env x (if (p.c x).check.isSome then 0x24 else 0x25) p := rfl

theorem dropBad_c_self (x : Nat) (which : Entry → LStore → Bool) (p : Pkg) :
    ∃ es, (dropBad x which p).c x = { p.c x with flight := es } := by
  unfold dropBad
  exact ⟨_, Pkg.c_modC_self ..⟩

theorem dropBad_parts (x : Nat) (which : Entry → LStore → Bool) (p : Pkg) : SameParts p (dropBad x which p) := by
  unfold dropBad
  exact sameParts_modC ..

theorem dropBad_micro (x : Nat) (which : Entry → LStore → Bool) (p : Pkg) : (dropBad x which p).micro = p.micro := rfl

/-- What an uncorrectable word leaves where a pending store meets it: the context frozen at its bundle, nothing else changed. -/
theorem badTrap_leaves (env : Env) (x n : Nat) (which : Entry → LStore → Bool) (p : Pkg) :
    let q := badTrap env x which (p.drawn n)
    (q.c x).phase = .frozen ∧ (q.c x).cause = (if (p.c x).check.isSome then 0x24 else 0x25) ∧ (q.c x).pc = (p.c x).pc ∧
      SameRegs (p.c x) (q.c x) ∧ SameStorage p q ∧ q.micro = p.micro := by
  intro q
  obtain ⟨es, self⟩ := dropBad_c_self x which (p.drawn n)
  rw [Pkg.drawn_read_c] at self
  have e : q = bundleTrap env x (if (p.c x).check.isSome then 0x24 else 0x25) (dropBad x which (p.drawn n)) := by
    show badTrap .. = _
    rw [badTrap, dataTrap_eq, self]
  have regs : SameRegs (p.c x) ((dropBad x which (p.drawn n)).c x) := by
    rw [self]
    exact sameRegs_of_registers rfl
  have parts : SameParts p (dropBad x which (p.drawn n)) :=
    (SameParts.of_fields (p := p) (q := p.drawn n) rfl rfl rfl).trans (dropBad_parts ..)
  rw [e]
  refine ⟨?_, ?_, ?_, regs.trans (bundleTrap_regs ..), (parts.trans (bundleTrap_parts ..)).storage, ?_⟩
  · rw [bundleTrap_c_self]; rfl
  · rw [bundleTrap_c_self]; rfl
  · rw [bundleTrap_c_self, self]; rfl
  · rw [bundleTrap_micro, dropBad_micro]; rfl

theorem traps_of_exec {x cause n : Nat} {i : Instr} {s : State}
    (h : exec i s = .next { s with pkg := bundleTrap s.env x cause (s.pkg.drawn n) }) :
    ∃ t, exec i s = .next t ∧ TrappedS x cause (((s.pkg.c x).check.map (·.1)).getD (s.pkg.c x).pc) (s.pkg.c x).pc (s.pkg.c x).pc s t ∧
      t.pkg.micro = s.pkg.micro :=
  ⟨_, h, bundleTrap_trapped x cause n s, bundleTrap_micro s.env x cause (s.pkg.drawn n)⟩

/-! ### The tokens that the bundle's wait names (R189) -/

section
variable {x : Nat} {b : Bundle} {s : State}

/-- The bundle's `ec.wait`, as its issue looks for it. -/
abbrev waitOf (x : Nat) (b : Bundle) (s : State) : Option Trig := (firesOf x b s).find? fun t => t.unit == 12 && t.op == 14

theorem waitOf_eq (legal : LegalBundle x b s) {t : Trig} (mem : t ∈ firesOf x b s) (unit : t.unit = 12) (op : t.op = 14) :
    waitOf x b s = some t := by
  cases found : waitOf x b s with
  | none => exact absurd (List.find?_eq_none.1 found t mem) (by simp [unit, op])
  | some u =>
    have is : u.unit = 12 ∧ u.op = 14 := by simpa using List.find?_some found
    rw [trigger_unique (clash_of_legal legal.form) (List.mem_of_mem_filter mem) (List.mem_of_mem_filter (List.mem_of_find?_eq_some found))
      (unit.trans is.1.symm)]

/-- The wait names token k. -/
def Waits (x : Nat) (b : Bundle) (s : State) (k : Nat) : Prop :=
  ∃ t ∈ firesOf x b s, t.unit = 12 ∧ t.op = 14 ∧ t.fire.b.toS.getLsbD k = true

theorem waitOf_traps (legal : LegalBundle x b s) {k : Nat} (bound : k < 64) (waits : Waits x b s k)
    (faulted : ((s.pkg.c x).tokens.get k).fault = true) (first : ∀ j < k, Waits x b s j → ¬((s.pkg.c x).tokens.get j).fault = true) :
    (waitOf x b s).bind (fun t => waitFault (s.pkg.c x) t.fire.b.toS) = some k := by
  obtain ⟨t, mem, unit, op, named⟩ := waits
  rw [waitOf_eq legal mem unit op]
  exact waitFault_eq_some bound named faulted fun j less other => first j less ⟨t, mem, unit, op, other⟩

theorem waitOf_goes (sound : ∀ k < 64, Waits x b s k → ¬((s.pkg.c x).tokens.get k).fault = true) :
    (waitOf x b s).bind (fun t => waitFault (s.pkg.c x) t.fire.b.toS) = none := by
  cases found : waitOf x b s with
  | none => rfl
  | some t =>
    have is : t.unit = 12 ∧ t.op = 14 := by simpa using List.find?_some found
    exact waitFault_eq_none fun k bound named => sound k bound ⟨t, List.mem_of_find?_eq_some found, is.1, is.2, named⟩

end

/-! ### The conditions of the triggers (R40) -/

section
variable {p : Pkg} {x : Nat} {ts : List Trig} {t : Trig}

theorem blocking_eq_none : blocking p x ts = none ↔ ∀ t ∈ ts, ready p x ts t = true := by
  simp [blocking]

theorem ready_access (unit : t.unit = 4 ∨ t.unit = 5) (ok : lsOk t.op t.fire = true) : ready p x ts t = lsReady t.op t.fire p := by
  simp [ready, unit, ok]

theorem ready_wait (unit : t.unit = 12) (op : t.op = 14) : ready p x ts t = waitReady (p.c x) t.fire.b.toS := by
  simp [ready, unit, op]

theorem isCommand_unit (h : isCommand t = true) : t.unit = 12 ∨ t.unit = 13 := by
  unfold isCommand engineStep at h
  split at h
  · next found =>
    split at found
    · exact .inl ‹_›
    · exact .inr ‹_›
    · cases found
  · cases h

theorem isCommand_ne_wait (h : isCommand t = true) : ¬(t.unit = 12 ∧ t.op = 14) := by
  rintro ⟨unit, op⟩
  rw [isCommand, unit, op] at h
  cases h

theorem ready_command (h : isCommand t = true) : ready p x ts t =
    (((p.c x).tokens.get (takenToken (p.c x) ts t)).done && consumedValid p (p.c x) t && (!(t.unit == 12 && t.op == 3) || kickRoom x p)) := by
  have engine : ¬(t.unit = 4 ∨ t.unit = 5) := by have := isCommand_unit h; omega
  rw [ready, if_neg engine, if_neg (isCommand_ne_wait h), if_pos h]

theorem done_iff {t : Token} : t.done = true ↔ t.state = .complete ∨ t.state = .free := by simp [Token.done]

theorem waitReady_iff {c : Ctx} {m : Word} : waitReady c m = true ↔
    ∀ k < 64, m.getLsbD k = true → (c.tokens.get k).state = .complete ∨ (c.tokens.get k).state = .free := by
  simp [waitReady, namedTokens, done_iff, imp_iff_not_or]

theorem mem_auxTokens {aux k : Nat} : k ∈ auxTokens aux ↔ ∃ o ∈ [0, 7, 14], aux.testBit (o + 6) = true ∧ aux / 2 ^ o % 64 = k := by
  simp only [auxTokens, List.mem_filterMap, List.mem_map, exists_exists_and_eq_and, Option.ite_none_right_eq_some, Option.some.injEq]
  refine exists_congr fun o => and_congr_right fun mem => ?_
  have field : bits aux (o + 6) o = aux / 2 ^ o % 128 := by
    rw [bits_eq, show o + 6 + 1 - o = 7 by omega]
    rfl
  rw [field, Nat.testBit_eq_decide_div_mod_eq, Nat.pow_add, ← Nat.div_div_eq_div_mul]
  generalize aux / 2 ^ o = y
  simp only [decide_eq_true_eq]
  omega

theorem consumedValid_iff {c : Ctx} : consumedValid p c t = true ↔ ∀ o ∈ [0, 7, 14], t.fire.aux.toS.toNat.testBit (o + 6) = true →
    p.present (c.tokens.get (t.fire.aux.toS.toNat / 2 ^ o % 64)).cmd = false ∨
      (p.cmd (c.tokens.get (t.fire.aux.toS.toNat / 2 ^ o % 64)).cmd).accepted = true := by
  simp only [consumedValid, List.all_eq_true, mem_auxTokens, Bool.or_eq_true, Bool.not_eq_true']
  constructor
  · exact fun h o mem named => h _ ⟨o, mem, named, rfl⟩
  · rintro h k ⟨o, mem, named, rfl⟩
    exact h o mem named

theorem kickRoom_iff : kickRoom x p = true ↔ (p.k (coreOf x)).kickq.length < 8 ∨ (p.c x).window.length < 8 := by
  simp [kickRoom]

/-- A kick needs room besides (R40). -/
theorem ready_kick (unit : t.unit = 12) (op : t.op = 3) : ready p x ts t = true ↔
    (((p.c x).tokens.get (takenToken (p.c x) ts t)).state = .complete ∨ ((p.c x).tokens.get (takenToken (p.c x) ts t)).state = .free) ∧
      consumedValid p (p.c x) t = true ∧ ((p.k (coreOf x)).kickq.length < 8 ∨ (p.c x).window.length < 8) := by
  have command : isCommand t = true := by rw [isCommand, unit, op]; rfl
  simp [ready_command command, unit, op, done_iff, kickRoom, and_assoc]

theorem ready_other_command (command : isCommand t = true) (other : t.unit ≠ 12 ∨ t.op ≠ 3) : ready p x ts t = true ↔
    (((p.c x).tokens.get (takenToken (p.c x) ts t)).state = .complete ∨ ((p.c x).tokens.get (takenToken (p.c x) ts t)).state = .free) ∧
      consumedValid p (p.c x) t = true := by
  have kick : (t.unit == 12 && t.op == 3) = false := by simpa [imp_iff_not_or] using other
  simp [ready_command command, kick, done_iff]

theorem ready_unconditional (notLs : ¬(t.unit = 4 ∨ t.unit = 5)) (notCommand : isCommand t = false) (notWait : ¬(t.unit = 12 ∧ t.op = 14)) :
    ready p x ts t = true := by
  simp [ready, notLs, notCommand, notWait]

end

section
variable {op : Nat} {f : Fire} {p : Pkg}

theorem lsReady_full (h : op ∈ [4, 5, 6, 7, 16, 17]) :
    lsReady op f p = true ↔ ∀ w ∈ lsWords op f, p.tagAt f.ctx false (p.c f.ctx).joins w = true := by
  rw [lsReady, if_pos h, List.all_eq_true]

theorem lsReady_empty (h : op ∈ [12, 13, 19]) :
    lsReady op f p = true ↔ ∀ w ∈ lsWords op f, p.tagAt f.ctx false (p.c f.ctx).joins w = false := by
  have apart : ∀ o ∈ [12, 13, 19], o ∉ [4, 5, 6, 7, 16, 17] := by decide
  rw [lsReady, if_neg (apart op h), if_pos h]
  simp

theorem lsReady_line : lsReady 29 f p = p.lineAt f.ctx ((ea f - 0x2000000) / 256) := rfl

theorem lsReady_unconditional (h : op ∉ [4, 5, 6, 7, 12, 13, 16, 17, 19, 29]) : lsReady op f p = true := by
  simp only [List.mem_cons, List.not_mem_nil, or_false, not_or] at h
  simp [lsReady, h]

end

/-! ### A bundle that meets uncorrectable data (R156, R158, R307) -/

theorem any_eq_false_of {α : Type} {f : α → Bool} {as : List α} (h : ¬∃ a ∈ as, f a = true) : as.any f = false :=
  Bool.eq_false_iff.2 (mt List.any_eq_true.1 h)

/-- Whether the bundle's own accesses meet it or the stores that it performs, its context freezes at it. -/
theorem issue_spoilt {x n : Nat} {b : Bundle} {s : State} (draws : accessDraws s.pkg x = n) (accepted : AcceptedBundle x b n s)
    (spoilt : (s.pkg.c x).spoiled = true ∨ (∃ t ∈ firesOf x b s, badData (seenBy x b n s) x (firesOf x b s) t = true) ∨
      badOwn (s.pkg.drawn n) x (firesOf x b s) = true ∨
      badAmong x (performs (firesOf x b s) (s.pkg.c x).joins) (s.pkg.drawn n) = true) :
    ∃ t, exec (.bundleIssue x b) s = .next t ∧ (t.pkg.c x).phase = .frozen ∧
      (t.pkg.c x).cause = (if (s.pkg.c x).check.isSome then 0x24 else 0x25) ∧ (t.pkg.c x).pc = (s.pkg.c x).pc ∧
      SameRegs (s.pkg.c x) (t.pkg.c x) ∧ SameStorage s.pkg t.pkg ∧ t.pkg.micro = s.pkg.micro := by
  cases own : ((s.pkg.c x).spoiled || (firesOf x b s).any (badData (seenBy x b n s) x (firesOf x b s)) ||
      badOwn (s.pkg.drawn n) x (firesOf x b s)) with
  | true =>
    obtain ⟨t, run, trapped, micro⟩ := traps_of_exec (issue_badData draws accepted own)
    exact ⟨t, run, trapped.phase, trapped.cause, trapped.pc, trapped.regs, trapped.storage, micro⟩
  | false =>
    have performed : badAmong x (performs (firesOf x b s) (s.pkg.c x).joins) (s.pkg.drawn n) = true := by
      simp only [Bool.or_eq_false_iff] at own
      obtain ⟨⟨notSpoiled, notMet⟩, notOwn⟩ := own
      rcases spoilt with met | met | met | met
      · exact absurd met (Bool.eq_false_iff.1 notSpoiled)
      · exact absurd (List.any_eq_true.2 met) (Bool.eq_false_iff.1 notMet)
      · exact absurd met (Bool.eq_false_iff.1 notOwn)
      · exact met
    exact ⟨_, issue_badStore draws ⟨accepted, own⟩ performed, badTrap_leaves ..⟩

/-- Settles O19: a bundle's issue by its outcomes in order, and the condition of each kind of trigger. -/
theorem bundlesTrapOrBlock : Obligations.BundlesTrapOrBlock := by
  unfold Obligations.BundlesTrapOrBlock
  refine ⟨fun x b s => ?_, fun p x ts => ⟨blocking_eq_none, fun t => ?_⟩⟩
  · generalize draws : accessDraws s.pkg x = n
    intro c ms all ts p q poisoned bad forbidden traps data waits faulted wrong astray spoilt
    have trap {cause : Nat} (h : exec (.bundleIssue x b) s = .next { s with pkg := bundleTrap s.env x cause (s.pkg.drawn n) }) :
        traps cause := traps_of_exec h
    have allowed_iff : (!c.smode && all.any privileged) = true ↔ forbidden := by simp [forbidden]
    have legal (sound : ¬poisoned) (form : ¬bad) (allowed : ¬forbidden) : LegalBundle x b s :=
      ⟨Bool.eq_false_iff.2 sound, Bool.eq_false_iff.2 form, Bool.eq_false_iff.2 (mt allowed_iff.1 allowed)⟩
    have fault_iff (k : Nat) : (c.tokens.get k).fault = true ↔ faulted k := Token.fault_iff
    refine ⟨fun h => trap (issue_poisoned draws h), fun sound h => trap (issue_illegal draws (Bool.eq_false_iff.2 sound) h),
      fun sound form h => trap (issue_privileged draws (Bool.eq_false_iff.2 sound) (Bool.eq_false_iff.2 form) (allowed_iff.2 h)),
      fun sound form allowed ⟨u, h⟩ => ⟨_, issue_blocks draws (legal sound form allowed) h, blockCtx_drawn ..⟩,
      fun sound form allowed open_ => ⟨fun k bound wait fault first => ?_, fun fine => ?_⟩⟩
    · exact issue_waitFault draws (legal sound form allowed) open_ (waitOf_traps (legal sound form allowed) bound wait ((fault_iff k).2 fault)
        fun j less other => mt (fault_iff j).1 (first j less other))
    · have ready : ReadyBundle x b n s :=
        ⟨legal sound form allowed, open_, waitOf_goes fun k bound wait => mt (fault_iff k).1 (fine k bound wait)⟩
      refine ⟨fun h => trap (issue_badAddress draws ready (List.any_eq_true.2 h)), fun addresses h => ?_, fun addresses targets h => ?_⟩
      · exact trap (issue_badTarget draws ready (any_eq_false_of addresses) (List.any_eq_true.2 h))
      · exact issue_spoilt draws ⟨ready, any_eq_false_of addresses, any_eq_false_of targets⟩ h
  · intro c op ls j aux free valid room
    refine ⟨fun ⟨unit, ok⟩ h => ?_, fun ⟨unit, ok⟩ h => ?_, fun ⟨unit, ok⟩ h => ?_, fun ⟨unit, ok⟩ h => ?_, fun unit h => ?_,
      fun command other => ?_, fun unit kick => ?_, fun notLs0 notLs1 notCommand notWait => ?_⟩
    · rw [ready_access unit ok, lsReady_full h]
    · rw [ready_access unit ok, lsReady_empty h]
    · rw [ready_access unit ok, show t.op = 29 from h, lsReady_line]
    · rw [ready_access unit ok, lsReady_unconditional h]
    · rw [ready_wait unit h, waitReady_iff]
    · rw [ready_other_command command other, consumedValid_iff]
    · rw [ready_kick unit kick, consumedValid_iff]
    · exact ready_unconditional (by omega) notCommand (by omega)

end Sys2Proof.Proofs.BundleIssue

namespace Sys2Proof.Proofs.BundleEffects

open Machine StorageFrames Traps BundleIssue

/-! ### One write of each destination (R130, R133)

Where at most one of the moves writes what is read, the read finds that move's value, and without one what stood there before. -/

theorem foldl_read {α β γ : Type} {f : γ → β → γ} {read : γ → α} {hit : β → Bool} {val : β → α} {ms : List β}
    (step : ∀ m ∈ ms, ∀ c, read (f c m) = if hit m then val m else read c) (once : ms.Pairwise fun m n => ¬(hit m = true ∧ hit n = true))
    (c : γ) : read (ms.foldl f c) = ((ms.find? hit).map val).getD (read c) := by
  induction ms generalizing c with
  | nil => rfl
  | cons m ms ih =>
    obtain ⟨alone, once⟩ := List.pairwise_cons.1 once
    rw [List.foldl_cons, ih (fun n mem => step n (List.mem_cons_of_mem _ mem)) once, step m (List.mem_cons_self ..)]
    cases h : hit m with
    | true =>
      have others : ms.find? hit = none := List.find?_eq_none.2 fun n mem other => alone n mem ⟨h, other⟩
      rw [others, List.find?_cons_of_pos h]
      rfl
    | false =>
      rw [List.find?_cons_of_neg (by simp [h])]
      rfl

/-- The moves of a bundle written one after another, renamed as in the context that the bundle's sources are read from. -/
def writeAll (src : Ctx) (ms : List Move) (c : Ctx) : Ctx := ms.foldl (fun c m => writeDst src c m.val m.dst) c

/-- What moves write: general, vector, predicate, mask and context registers. -/
theorem writeAll_fields (src : Ctx) (ms : List Move) (c : Ctx) :
    ∃ s v p m creg, writeAll src ms c = { c with s := s, v := v, p := p, m := m, creg := creg } := by
  unfold writeAll
  induction ms generalizing c with
  | nil => exact ⟨_, _, _, _, _, rfl⟩
  | cons m ms ih =>
    obtain ⟨s, v, p, k, creg, e⟩ := ih (writeDst src c m.val m.dst)
    refine ⟨s, v, p, k, creg, ?_⟩
    rw [List.foldl_cons, e]
    cases m.dst <;> rfl

theorem getLsbD_setPred (p : BitVec 8) (k : Nat) (x : Bool) {n : Nat} (h : n < 8) :
    (setPred p k x).getLsbD n = if n = k then x else p.getLsbD n := by
  unfold setPred
  cases x
  · by_cases same : n = k
    · subst same; simp [h]
    · simp [h, same]
      omega
  · by_cases same : n = k
    · subst same; simp [h]
    · simp [h, same]
      omega

/-- Renaming keeps the names of vector registers apart (R137). -/
theorem phys_inj (c : Ctx) {j k : Nat} (hj : j < 64) (hk : k < 64) : c.phys j = c.phys k ↔ j = k := by
  unfold Ctx.phys
  split <;> split <;> omega

theorem decodeDst_vector {code : BitVec 10} {k : Nat} (h : decodeDst code = .ok (.v k)) : k < 64 := by
  unfold decodeDst at h
  dsimp only at h
  split at h
  · cases h
  split at h
  · cases h
    omega
  · (repeat' split at h) <;> cases h

/-- A vector register that a move names is one of v0 to v63 (R126). -/
theorem moves_vector {dtime : Nat} {c : Ctx} {b : Bundle} {m : Move} (mem : m ∈ moves dtime c b) {k : Nat} (dst : m.dst = .v k) : k < 64 := by
  obtain ⟨slot, -, moved⟩ := List.mem_filterMap.1 mem
  split at moved
  · split at moved
    · next src d _ decoded =>
      cases moved
      subst dst
      exact decodeDst_vector decoded
    · cases moved
  · cases moved

section
variable {src : Ctx} {ms : List Move} (apart : clash ms = false) (c : Ctx)
include apart

theorem once (d : Dst) : ms.Pairwise fun m n => ¬((m.dst == d) = true ∧ (n.dst == d) = true) := by
  refine (List.pairwise_map.1 (clash_eq_false.1 apart)).imp fun differ ⟨hm, hn⟩ => differ ?_
  rw [beq_iff_eq.1 hm, beq_iff_eq.1 hn]

theorem writeAll_s (n : Nat) :
    (writeAll src ms c).s.get n = ((ms.find? fun m => m.dst == .s n).map fun m => m.val.toS).getD (c.s.get n) := by
  refine foldl_read (read := fun c : Ctx => c.s.get n) (fun m _ c => ?_) (once apart _) c
  cases m.dst with
  | s k => simp [writeDst, NMap.get_set, eq_comm (a := n)]
  | _ => simp [writeDst]

theorem writeAll_m (n : Nat) :
    (writeAll src ms c).m.get n = ((ms.find? fun m => m.dst == .m n).map fun m => m.val.toM).getD (c.m.get n) := by
  refine foldl_read (read := fun c : Ctx => c.m.get n) (fun m _ c => ?_) (once apart _) c
  cases m.dst with
  | m k => simp [writeDst, NMap.get_set, eq_comm (a := n)]
  | _ => simp [writeDst]

theorem writeAll_p {n : Nat} (h : n < 8) :
    (writeAll src ms c).p.getLsbD n = ((ms.find? fun m => m.dst == .p n).map fun m => m.val.toP).getD (c.p.getLsbD n) := by
  refine foldl_read (read := fun c : Ctx => c.p.getLsbD n) (fun m _ c => ?_) (once apart _) c
  cases m.dst with
  | p k => simp [writeDst, getLsbD_setPred _ _ _ h, eq_comm (a := n)]
  | _ => simp [writeDst]

theorem writeAll_cr (code : Nat) : (writeAll src ms c).cr code =
    ((ms.find? fun m => m.dst == .creg code).map fun m => m.val.toS &&& cregMask code).getD (c.cr code) := by
  refine foldl_read (read := fun c : Ctx => c.cr code) (fun m _ c => ?_) (once apart _) c
  cases m.dst with
  | creg k =>
    by_cases same : k = code
    · subst same
      simp [writeDst]
    · simp [writeDst, Ctx.cr_setCr_of_ne _ _ (Ne.symm same), same]
  | _ => simp [writeDst, Ctx.cr]

theorem writeAll_v (named : ∀ m ∈ ms, ∀ k, m.dst = .v k → k < 64) {n : Nat} (h : n < 64) : (writeAll src ms c).v.get (src.phys n) =
    ((ms.find? fun m => m.dst == .v n).map fun m => m.val.toV).getD (c.v.get (src.phys n)) := by
  refine foldl_read (read := fun c : Ctx => c.v.get (src.phys n)) (fun m mem c => ?_) (once apart _) c
  cases dst : m.dst with
  | v k => simp [writeDst, NMap.get_set, phys_inj src h (named m mem k dst), eq_comm (a := n)]
  | _ => simp [writeDst]

end

/-! ### What comes before the moves (R41, R43, R75, R132, R153) -/

/-- From p to q every context keeps its registers, x as well as any other, and the parts of the step still to be made stand. -/
structure KeepsRegs (x : Nat) (p q : Pkg) : Prop where
  regs   : SameRegs (p.c x) (q.c x)
  others : ∀ y, y ≠ x → SameRegs (p.c y) (q.c y)
  micro  : q.micro = p.micro

theorem KeepsRegs.rfl {x : Nat} {p : Pkg} : KeepsRegs x p p := ⟨.refl _, fun _ _ => .refl _, Eq.refl _⟩

theorem KeepsRegs.trans {x : Nat} {p q r : Pkg} (a : KeepsRegs x p q) (b : KeepsRegs x q r) : KeepsRegs x p r :=
  ⟨a.regs.trans b.regs, fun y h => (a.others y h).trans (b.others y h), b.micro.trans a.micro⟩

/-- The issue cycles that the entries of a context in flight still have to go. -/
def lefts (c : Ctx) : List Nat := c.flight.map (·.left)

theorem joinViews_keepsRegs (x n : Nat) (p : Pkg) : KeepsRegs x p (joinViews x n p) := by
  obtain ⟨⟨es, self⟩, others, -⟩ := Fences.joinViews_flightOnly x n p
  refine ⟨?_, fun y h => by rw [others y h]; exact .refl _, rfl⟩
  rw [self]
  exact sameRegs_of_registers rfl

theorem joinViews_self (x n : Nat) (p : Pkg) : ∃ es, (joinViews x n p).c x = { p.c x with flight := es } ∧ es.map (·.left) = lefts (p.c x) :=
  ⟨_, Pkg.c_modC_self .., by rw [List.map_map]; rfl⟩

theorem joinViews_parts (x n : Nat) (p : Pkg) : SameParts p (joinViews x n p) := by
  unfold joinViews
  exact (sameParts_modStale p _).trans (sameParts_modC _ x _)

theorem performAll_keepsRegs (x : Nat) (p : Pkg) : KeepsRegs x p (performAll x p) := by
  obtain ⟨others, regs, -, -, -, -, -, -, -, -, -, -, micro⟩ := performWhere_frame x (fun _ _ => true) p
  exact ⟨regs, fun y h => by rw [performAll, others y h]; exact .refl _, micro⟩

theorem performAll_self (x : Nat) (p : Pkg) : ∃ es, (performAll x p).c x = { p.c x with flight := es } ∧ es.map (·.left) = lefts (p.c x) := by
  obtain ⟨q, due, ctx, -, performed, -⟩ := Fences.performAll_eq x p
  have same : q.c x = p.c x := by rw [Pkg.c, ctx]; rfl
  have left (e : Entry) : (Fences.marked due e).left = e.left := by unfold Fences.marked; split <;> rfl
  refine ⟨(p.c x).flight.map (Fences.marked due), by rw [performed, Pkg.c_modC_self, same], ?_⟩
  rw [List.map_map]
  exact List.map_congr_left fun e _ => left e

/-- The count of rule 5 for another context of the core that was ready (R41). -/
def countWaiting (x : Nat) (p : Pkg) (i : Nat) : Pkg :=
  if 4 * coreOf x + i ≠ x ∧ (p.c (4 * coreOf x + i)).phase = .ready then
    p.modC (4 * coreOf x + i) fun c => { c with waited := c.waited + 1 }
  else p

theorem countWaiting_keeps (x : Nat) (p : Pkg) (i : Nat) :
    (countWaiting x p i).c x = p.c x ∧ KeepsRegs x p (countWaiting x p i) ∧ SameParts p (countWaiting x p i) := by
  unfold countWaiting
  split
  · next other =>
    have self : (p.modC (4 * coreOf x + i) fun c => { c with waited := c.waited + 1 }).c x = p.c x := Pkg.c_modC_of_ne _ _ other.1.symm
    refine ⟨self, ⟨by rw [self]; exact .refl _, fun y _ => ?_, rfl⟩, sameParts_modC ..⟩
    by_cases same : y = 4 * coreOf x + i
    · rw [same, Pkg.c_modC_self]
      exact sameRegs_of_registers rfl
    · rw [Pkg.c_modC_of_ne _ _ same]
      exact .refl _
  · exact ⟨rfl, .rfl, .rfl⟩

theorem foldl_countWaiting_keeps (x : Nat) (is : List Nat) (p : Pkg) :
    (is.foldl (countWaiting x) p).c x = p.c x ∧ KeepsRegs x p (is.foldl (countWaiting x) p) ∧ SameParts p (is.foldl (countWaiting x) p) := by
  induction is generalizing p with
  | nil => exact ⟨rfl, .rfl, .rfl⟩
  | cons i is ih =>
    obtain ⟨self, before, parts⟩ := countWaiting_keeps x p i
    obtain ⟨self', before', parts'⟩ := ih (countWaiting x p i)
    exact ⟨self'.trans self, before.trans before', parts.trans parts'⟩

/-- A context as the issue of a bundle counts it, before the bundle's moves. -/
def counted (ts : List Trig) (join : Bool) (c : Ctx) : Ctx :=
  { c with
    phase := .running, pc := c.pc + 32, flight := c.flight.map fun e => { e with left := e.left - 1 }, watchdog := 0, waited := 0
    divHold := if ts.any divides then 17 else c.divHold - 1
    sortHold := if ts.any sorts then 3 else c.sortHold - 1
    joins := if join then c.joins + 1 else c.joins }

/-- A core at which a context issues (R41). -/
def issuesAt (x : Nat) (k : Core) : Core :=
  { k with last := x % 4, running := some x, quantum := if k.running = some x then k.quantum + 1 else 1 }

theorem issuesAt_cells (x : Nat) (k : Core) : SameCells k (issuesAt x k) := ⟨rfl, rfl, rfl, rfl⟩

theorem counted_regs (ts : List Trig) (join : Bool) (c : Ctx) : SameRegs c (counted ts join c) :=
  sameRegs_of_registers rfl

section
variable (x : Nat) (ts : List Trig) (join : Bool) (p : Pkg)

theorem countIssue_eq : countIssue x ts join p =
    ((List.range 4).foldl (countWaiting x) (p.modC x (counted ts join))).modK (coreOf x) (issuesAt x) := rfl

theorem countIssue_self : (countIssue x ts join p).c x = counted ts join (p.c x) := by
  rw [countIssue_eq, Pkg.modK_read_c, (foldl_countWaiting_keeps ..).1, Pkg.c_modC_self]

theorem countIssue_parts : SameParts p (countIssue x ts join p) := by
  rw [countIssue_eq]
  exact (sameParts_modC p x _).trans ((foldl_countWaiting_keeps ..).2.2.trans (sameParts_modK _ _ _ (issuesAt_cells x)))

theorem countIssue_keepsRegs : KeepsRegs x p (countIssue x ts join p) := by
  have self : SameRegs (p.c x) ((p.modC x (counted ts join)).c x) := by
    rw [Pkg.c_modC_self]
    exact counted_regs ..
  have first : KeepsRegs x p (p.modC x (counted ts join)) :=
    ⟨self, fun y other => by rw [Pkg.c_modC_of_ne _ _ other]; exact .refl _, rfl⟩
  have both := first.trans (foldl_countWaiting_keeps x (List.range 4) _).2.1
  rw [countIssue_eq]
  exact ⟨both.regs, both.others, both.micro⟩

end

/-! ### A bundle issued (R130, R131) -/

section
variable (x : Nat) (b : Bundle) (n : Nat) (s : State)

/-- The views as the bundle's issue joins them (R75). -/
def joinedFor : Pkg := if b.hdr.join then joinViews x ((s.pkg.c x).joins + 1) (s.pkg.drawn n) else s.pkg.drawn n

/-- The package at the bundle's moves: views joined, issue counted, and for an engine trigger the pending stores performed. -/
def prepared : Pkg :=
  let p := countIssue x (firesOf x b s) b.hdr.join (joinedFor x b n s)
  if (firesOf x b s).any fun t => t.unit == 12 || t.unit == 13 then performAll x p else p

theorem joinedFor_self : ∃ es, (joinedFor x b n s).c x = { s.pkg.c x with flight := es } ∧ es.map (·.left) = lefts (s.pkg.c x) := by
  unfold joinedFor
  split
  · exact joinViews_self ..
  · exact ⟨_, rfl, rfl⟩

theorem joinedFor_keepsRegs : KeepsRegs x s.pkg (joinedFor x b n s) := by
  have drawn : KeepsRegs x s.pkg (s.pkg.drawn n) := ⟨.refl _, fun _ _ => .refl _, rfl⟩
  unfold joinedFor
  split
  · exact drawn.trans (joinViews_keepsRegs ..)
  · exact drawn

theorem joinedFor_parts : SameParts s.pkg (joinedFor x b n s) := by
  have drawn : SameParts s.pkg (s.pkg.drawn n) := .of_fields rfl rfl rfl
  unfold joinedFor
  split
  · exact drawn.trans (joinViews_parts ..)
  · exact drawn

theorem countIssue_joinedFor_self (ts : List Trig) (join : Bool) : ∃ es, (countIssue x ts join (joinedFor x b n s)).c x =
    { counted ts join (s.pkg.c x) with flight := es } ∧ es.map (·.left) = (s.pkg.c x).flight.map fun e => e.left - 1 := by
  obtain ⟨es, self, left⟩ := joinedFor_self x b n s
  refine ⟨es.map fun e => { e with left := e.left - 1 }, by rw [countIssue_self, self]; rfl, ?_⟩
  have ticked := congrArg (List.map (· - 1)) left
  rw [lefts, List.map_map, List.map_map] at ticked
  rw [List.map_map]
  exact ticked

theorem prepared_self : ∃ es, (prepared x b n s).c x = { counted (firesOf x b s) b.hdr.join (s.pkg.c x) with flight := es } ∧
    es.map (·.left) = (s.pkg.c x).flight.map fun e => e.left - 1 := by
  obtain ⟨es, self, left⟩ := countIssue_joinedFor_self x b n s (firesOf x b s) b.hdr.join
  unfold prepared
  dsimp only
  split
  · obtain ⟨fs, self', left'⟩ := performAll_self x (countIssue x (firesOf x b s) b.hdr.join (joinedFor x b n s))
    rw [self] at self' left'
    exact ⟨fs, self', left'.trans left⟩
  · exact ⟨es, self, left⟩

theorem prepared_keepsRegs : KeepsRegs x s.pkg (prepared x b n s) := by
  have issues := (joinedFor_keepsRegs x b n s).trans (countIssue_keepsRegs x (firesOf x b s) b.hdr.join _)
  unfold prepared
  dsimp only
  split
  · exact issues.trans (performAll_keepsRegs ..)
  · exact issues

theorem prepared_parts (noEngine : ∀ t ∈ firesOf x b s, t.unit ≠ 12 ∧ t.unit ≠ 13) : SameParts s.pkg (prepared x b n s) := by
  have none_ : ((firesOf x b s).any fun t => t.unit == 12 || t.unit == 13) = false := by simpa using noEngine
  unfold prepared
  rw [none_]
  exact (joinedFor_parts x b n s).trans (countIssue_parts ..)

variable {x b n s}

theorem issue_issues (draws : accessDraws s.pkg x = n) (h : SoundBundle x b n s)
    (stores : badAmong x (performs (firesOf x b s) (s.pkg.c x).joins) (s.pkg.drawn n) = false) (check : (s.pkg.c x).check = none) :
    exec (.bundleIssue x b) s = .next { s with pkg :=
      ((prepared x b n s).modC x (writeAll (s.pkg.c x) (movesOf x b s))).push (inFiringOrder (s.pkg.c x).tmpl (firesOf x b s)) } := by
  show execBundleIssue x b s = _
  simp only [execBundleIssue, draws, Pkg.drawn_read_c, Pkg.drawn_read_k, h.sound, h.form, h.allowed, h.ready, h.fine, h.addresses, h.targets,
    h.data, stores, check, State.put_eq, Bool.false_eq_true, if_false]
  rfl

end

/-- Settles O20: what precedes the moves keeps every register, and each register then reads the one move that names it. -/
theorem bundlesIssue : Obligations.BundlesIssue := by
  unfold Obligations.BundlesIssue
  intro x b s
  generalize draws : accessDraws s.pkg x = n
  intro p c ms ts q poison legal allowed open_ waits sane spoiled own stores check
  have fine : (waitOf x b s).bind (fun t => waitFault c t.fire.b.toS) = none := by
    cases found : waitOf x b s with
    | none => rfl
    | some t =>
      obtain ⟨unit, op⟩ : t.unit = 12 ∧ t.op = 14 := by simpa using List.find?_some found
      exact waits t (List.mem_of_find?_eq_some found) unit op
  have privilege : (!c.smode && (triggersOf x b s).any privileged) = false := by
    rcases allowed with mode | none_
    · simp [mode]
    · rw [List.any_eq_false.2 fun t mem => by simp [none_ t mem], Bool.and_false]
  have sound : SoundBundle x b n s :=
    { sound := poison, form := legal, allowed := privilege, ready := open_, fine := fine
      addresses := List.any_eq_false.2 fun t mem => by simp [sane t mem]
      targets := List.any_eq_false.2 fun t mem => by simp [sane t mem]
      data := by
        rw [show (s.pkg.c x).spoiled = false from spoiled, show badOwn (s.pkg.drawn n) x (firesOf x b s) = false from own,
          List.any_eq_false.2 fun t mem => Bool.eq_false_iff.1 (sane t mem).2.2]
        rfl }
  have apart : clash ms = false := clash_of_legal legal
  obtain ⟨es, self, left⟩ := prepared_self x b n s
  obtain ⟨regs, others, micro⟩ := prepared_keepsRegs x b n s
  obtain ⟨v1, v2, v3, v4, v5, written⟩ := writeAll_fields c ms ((prepared x b n s).c x)
  refine ⟨_, issue_issues draws sound stores check, ?_⟩
  intro d
  have d_eq : d = writeAll c ms ((prepared x b n s).c x) := Pkg.c_modC_self ..
  have kept : d = { (prepared x b n s).c x with s := v1, v := v2, p := v3, m := v4, creg := v5 } := d_eq.trans written
  refine ⟨rfl, ?_, ?_, ?_, ?_, fun k => ?_, fun k => ?_, fun k bound => ?_, fun code => ?_, fun k bound => ?_, fun code => ?_,
    fun k => ?_, fun y other => ?_, fun noEngine => ?_⟩
  · rw [kept, self]; rfl
  · rw [kept, self]; rfl
  · rw [kept, self]; exact left
  · show _ ++ _ = _
    rw [Pkg.modC_micro, micro]
  · rw [d_eq, writeAll_s apart, regs.s]
  · rw [d_eq, writeAll_m apart, regs.m]
  · rw [d_eq, writeAll_p apart _ bound, regs.p]
  · rw [d_eq, writeAll_cr apart, regs.creg]
  · rw [d_eq, writeAll_v apart _ (fun m mem k dst => moves_vector mem dst) bound, regs.v]
  · rw [kept]
    exact ⟨regs.rport code, regs.vport code⟩
  · rw [kept]
    exact regs.tokens k
  · show SameRegs _ ((Pkg.modC _ x _).c y)
    rw [Pkg.c_modC_of_ne _ _ other]
    exact others y other
  · exact ((prepared_parts x b n s noEngine).trans (sameParts_modC _ x (writeAll c ms))).storage.trans (.of_eq rfl rfl rfl)

end Sys2Proof.Proofs.BundleEffects

namespace Sys2Proof.Proofs.ScalarUnits

open Machine

/-! ### Words as numbers -/

theorem add_eq (a b : Word) : a + b = BitVec.ofNat 64 (a.toNat + b.toNat) := BitVec.eq_of_toNat_eq (by simp)

theorem sub_eq (a b : Word) : a - b = BitVec.ofInt 64 (a.toInt - b.toInt) := BitVec.eq_of_toInt_eq (by simp)

theorem sra_eq (a : Word) (n : Nat) : a.sshiftRight n = BitVec.ofInt 64 (a.toInt / 2 ^ n) := by
  rw [← BitVec.ofInt_toInt (x := a.sshiftRight n), BitVec.toInt_sshiftRight, Int.shiftRight_eq_div_pow]
  norm_cast

theorem shl_eq (a : Word) (n : Nat) : a <<< n = BitVec.ofNat 64 (a.toNat * 2 ^ n) := by
  apply BitVec.eq_of_toNat_eq
  simp [Nat.shiftLeft_eq]

theorem add_shl_eq (a b : Word) (n : Nat) : a + b <<< n = BitVec.ofNat 64 (a.toNat + b.toNat * 2 ^ n) :=
  BitVec.eq_of_toNat_eq (by simp [shl_eq])

theorem shr_eq (a : Word) (n : Nat) : a >>> n = BitVec.ofNat 64 (a.toNat / 2 ^ n) := by
  apply BitVec.eq_of_toNat_eq
  rw [BitVec.toNat_ushiftRight, Nat.shiftRight_eq_div_pow, BitVec.toNat_ofNat,
    Nat.mod_eq_of_lt (Nat.lt_of_le_of_lt (Nat.div_le_self ..) a.isLt)]

/-- The bits that leave a word at the top come in below, where the shifted word has none. -/
theorem rol_eq (a : Word) {n : Nat} (h : n < 64) :
    a.rotateLeft n = BitVec.ofNat 64 (a.toNat * 2 ^ n + a.toNat / 2 ^ (64 - n)) := by
  have low : a.toNat / 2 ^ (64 - n) < 2 ^ n := by
    refine Nat.div_lt_of_lt_mul ?_
    rw [← Nat.pow_add, Nat.sub_add_cancel h.le]
    exact a.isLt
  have word : a.toNat / 2 ^ (64 - n) < 2 ^ 64 := Nat.lt_of_le_of_lt (Nat.div_le_self ..) a.isLt
  apply BitVec.eq_of_toNat_eq
  rw [BitVec.toNat_rotateLeft, Nat.mod_eq_of_lt h, Nat.shiftRight_eq_div_pow, BitVec.toNat_ofNat, ← Nat.shiftLeft_eq,
    Nat.shiftLeft_add_eq_or_of_lt low, Nat.or_mod_two_pow, Nat.mod_eq_of_lt word]

theorem minSigned_eq (a b : Word) : (if b.slt a then b else a) = BitVec.ofInt 64 (min a.toInt b.toInt) := by
  rw [BitVec.slt_eq_decide]
  by_cases less : b.toInt < a.toInt
  · simp [less, min_eq_right less.le]
  · simp [less, min_eq_left (not_lt.1 less)]

theorem maxSigned_eq (a b : Word) : (if a.slt b then b else a) = BitVec.ofInt 64 (max a.toInt b.toInt) := by
  rw [BitVec.slt_eq_decide]
  by_cases less : a.toInt < b.toInt
  · simp [less, max_eq_right less.le]
  · simp [less, max_eq_left (not_lt.1 less)]

theorem minUnsigned_eq (a b : Word) : (if b.ult a then b else a) = BitVec.ofNat 64 (min a.toNat b.toNat) := by
  rw [BitVec.ult_eq_decide]
  by_cases less : b.toNat < a.toNat
  · simp [less, min_eq_right less.le]
  · simp [less, min_eq_left (not_lt.1 less)]

theorem maxUnsigned_eq (a b : Word) : (if a.ult b then b else a) = BitVec.ofNat 64 (max a.toNat b.toNat) := by
  rw [BitVec.ult_eq_decide]
  by_cases less : a.toNat < b.toNat
  · simp [less, max_eq_right less.le]
  · simp [less, max_eq_left (not_lt.1 less)]

/-! ### Extensions (R143) -/

/-- Sign extension reads the low bits as a two's complement number. -/
theorem sextWord_eq (w x : Nat) : sextWord w x = (BitVec.ofNat w x).signExtend 64 := by
  rw [sextWord, BitVec.signExtend, BitVec.toInt_eq_toNat_cond, BitVec.toNat_ofNat]
  simp [sextNat]

/-- The sign is the field's highest bit. -/
theorem sextNat_eq {w : Nat} (positive : 0 < w) (x : Nat) :
    sextNat w x = if x % 2 ^ w < 2 ^ (w - 1) then (x % 2 ^ w : Int) else (x % 2 ^ w : Int) - 2 ^ w := by
  obtain ⟨v, rfl⟩ : ∃ v, w = v + 1 := ⟨w - 1, by omega⟩
  have half : 2 * (x % 2 ^ (v + 1)) < 2 ^ (v + 1) ↔ x % 2 ^ (v + 1) < 2 ^ v := by
    rw [Nat.pow_succ (n := 2) (m := v)]
    omega
  simp only [sextNat, half, Nat.add_sub_cancel]
  push_cast
  rfl

theorem extWidth_pos (a : Word) : 0 < extWidth a := by
  simp only [extWidth]
  split <;> omega

/-! ### Counts of bits (R143) -/

theorem clzNat_eq {n x : Nat} (bound : n < 64) (low : 2 ^ (63 - n) ≤ x) (high : x < 2 ^ (64 - n)) : clzNat 64 x = n := by
  have nonzero : x ≠ 0 := by
    have := Nat.two_pow_pos (63 - n)
    omega
  have log : x.log2 = 63 - n := by
    rw [Nat.log2_eq_iff nonzero]
    exact ⟨low, by rwa [show 63 - n + 1 = 64 - n by omega]⟩
  rw [clzNat, if_neg nonzero, log]
  omega

/-- Bit i of a number, as the counts test it. -/
theorem bit_eq_one {b : Word} {i : Nat} : b.toNat / 2 ^ i % 2 = 1 ↔ b.getLsbD i = true := by
  rw [BitVec.getLsbD, Nat.testBit_eq_decide_div_mod_eq, decide_eq_true_iff]

/-- The search for the lowest one stops at the first place of a range where there is one. -/
theorem foldr_first {q : Nat → Prop} [DecidablePred q] {n w z : Nat} (bound : n < w) (here : q n) (below : ∀ m < n, ¬q m) :
    (List.range w).foldr (fun i a => if q i then i else a) z = n := by
  obtain ⟨k, rfl⟩ : ∃ k, w = n + (1 + k) := ⟨w - n - 1, by omega⟩
  have skip : ∀ l : List Nat, (∀ i ∈ l, ¬q i) → ∀ y, l.foldr (fun i a => if q i then i else a) y = y := by
    intro l none_ y
    induction l with
    | nil => rfl
    | cons i l ih =>
      obtain ⟨first, rest⟩ := List.forall_mem_cons.1 none_
      rw [List.foldr_cons, ih rest, if_neg first]
  rw [List.range_add, List.foldr_append, skip _ fun i mem => below i (List.mem_range.1 mem), Nat.add_comm 1, List.range_succ_eq_map]
  simp [here]

theorem ctzNat_eq {b : Word} {n : Nat} (bound : n < 64) (here : b.getLsbD n) (below : ∀ m < n, !b.getLsbD m) : ctzNat b.toNat = n :=
  foldr_first bound (bit_eq_one.2 here) fun m less isOne => by simpa [bit_eq_one.1 isOne] using below m less

theorem popcNat_eq (b : Word) (w : Nat) : popcNat w b.toNat = ((List.range w).filter b.getLsbD).length := by
  have value (i : Nat) : b.toNat / 2 ^ i % 2 = if b.getLsbD i then 1 else 0 := by
    by_cases isOne : b.getLsbD i = true
    · rw [if_pos isOne, bit_eq_one.2 isOne]
    · rw [if_neg isOne]
      have := mt bit_eq_one.1 isOne
      omega
  have count : ∀ (l : List Nat) (k : Nat), l.foldl (fun a i => a + b.toNat / 2 ^ i % 2) k = k + (l.filter b.getLsbD).length := by
    intro l
    induction l with
    | nil => intro k; rfl
    | cons i l ih =>
      intro k
      rw [List.foldl_cons, ih, value, List.filter_cons]
      split
      · rw [List.length_cons]; omega
      · omega
  rw [popcNat, count, Nat.zero_add]

theorem reverse_eq {b x : Word} (bits : ∀ i < 64, x.getLsbD i = b.getLsbD (63 - i)) : b.reverse = x := by
  apply BitVec.eq_of_getLsbD_eq
  intro i h
  rw [bits i h, BitVec.getLsbD_reverse, BitVec.getMsbD]
  simp [h]

/-! ### Bit fields (R143) -/

/-- A field that would pass bit 63 is cut there. -/
theorem fieldOf_eq (b : Word) :
    fieldOf b = (b.toNat % 64, min (b.toNat / 64 % 64 + 1) (64 - b.toNat % 64), b.getLsbD 12) := by
  have cut : (if 64 < b.toNat % 64 + (b.toNat / 64 % 64 + 1) then 64 - b.toNat % 64 else b.toNat / 64 % 64 + 1) =
      min (b.toNat / 64 % 64 + 1) (64 - b.toNat % 64) := by split <;> omega
  rw [fieldOf, cut]

theorem getLsbD_field (a : Word) (lo w i : Nat) :
    (BitVec.ofNat w (a.toNat / 2 ^ lo % 2 ^ w)).getLsbD i = (decide (i < w) && a.getLsbD (lo + i)) := by
  rw [BitVec.getLsbD_ofNat, Nat.testBit_mod_two_pow, Nat.testBit_div_two_pow, Nat.add_comm i, BitVec.getLsbD, ← Bool.and_assoc,
    Bool.and_self]

/-- A field of a word, extended: its own bits below, and above them the sign where the descriptor asks for it. -/
theorem bfx_eq {a b x : Word}
    (bits : let lo := b.toNat % 64
      let w := min (b.toNat / 64 % 64 + 1) (64 - lo)
      ∀ i < 64, x.getLsbD i = if i < w then a.getLsbD (lo + i) else b.getLsbD 12 && a.getLsbD (lo + w - 1)) : bfx a b = x := by
  apply BitVec.eq_of_getLsbD_eq
  intro i h
  rw [bits i h, bfx, fieldOf_eq]
  dsimp only
  have positive : 0 < min (b.toNat / 64 % 64 + 1) (64 - b.toNat % 64) := by omega
  have bound : min (b.toNat / 64 % 64 + 1) (64 - b.toNat % 64) ≤ 64 := by omega
  generalize min (b.toNat / 64 % 64 + 1) (64 - b.toNat % 64) = w at positive bound ⊢
  generalize b.toNat % 64 = lo
  cases b.getLsbD 12 with
  | true =>
    rw [if_pos rfl, sextWord_eq, BitVec.getLsbD_signExtend, BitVec.msb_eq_getLsbD_last, getLsbD_field, getLsbD_field,
      show lo + (w - 1) = lo + w - 1 by omega]
    by_cases inside : i < w <;> simp [h, positive, inside]
  | false =>
    rw [if_neg Bool.false_ne_true, BitVec.getLsbD_ofNat, Nat.testBit_mod_two_pow, Nat.testBit_div_two_pow, Nat.add_comm i, BitVec.getLsbD]
    simp [h]

/-- A word with a field replaced. -/
theorem bfi_eq {a b d x : Word}
    (bits : let lo := b.toNat % 64
      let w := min (b.toNat / 64 % 64 + 1) (64 - lo)
      ∀ i < 64, x.getLsbD i = if lo ≤ i ∧ i < lo + w then d.getLsbD (i - lo) else a.getLsbD i) : bfi a b d = x := by
  apply BitVec.eq_of_getLsbD_eq
  intro i h
  rw [bits i h, bfi, fieldOf_eq]
  dsimp only
  have positive : 0 < min (b.toNat / 64 % 64 + 1) (64 - b.toNat % 64) := by omega
  generalize min (b.toNat / 64 % 64 + 1) (64 - b.toNat % 64) = w at positive ⊢
  generalize b.toNat % 64 = lo
  have replaced : a.toNat - a.toNat / 2 ^ lo % 2 ^ w * 2 ^ lo + d.toNat % 2 ^ w * 2 ^ lo = setBits a.toNat (lo + w - 1) lo d.toNat := by
    rw [setBits, bits_eq, show lo + w - 1 + 1 - lo = w by omega]
  rw [replaced, BitVec.getLsbD_ofNat, testBit_setBits _ _ _ (by omega), show lo + w - 1 + 1 = lo + w by omega]
  simp [h, BitVec.getLsbD]

/-! ### sa0 and sa1 (R143) -/

section
variable {op : Nat} {s : State}

/-- A row of sa0 and sa1 puts the word that its function gives on its way to the unit's r port. -/
theorem saTrigger_lands {value : Word → Word → Word → Word → Word} {x : Word}
    (gives : value s.pkg.fire.a.toS s.pkg.fire.b.toS s.pkg.fire.c.toS s.pkg.fire.d.toS = x) :
    saTrigger op value s = .next (inFlight s.pkg.fire.ctx (landing (b2n s.pkg.fire.alt) op 1 (some (.s x)) none 0) s) := by
  subst gives
  rfl

/-- A row that compares delivers 1 where its comparison holds and 0 where it does not. -/
theorem saTrigger_cond {t : Word → Word → Bool} {q : Prop} (test : t s.pkg.fire.a.toS s.pkg.fire.b.toS = true ↔ q) :
    let lands (x : Word) : Prop := saTrigger op (fun a b _ _ => cond (t a b)) s =
      .next (inFlight s.pkg.fire.ctx (landing (b2n s.pkg.fire.alt) op 1 (some (.s x)) none 0) s)
    (q → lands 1) ∧ (¬q → lands 0) :=
  ⟨fun holds => saTrigger_lands (if_pos (test.2 holds)), fun fails => saTrigger_lands (if_neg (mt test.1 fails))⟩

end

/-- Settles O1: each row delivers its function's word (`saTrigger_lands`, `saTrigger_cond`), which is the one the table of R143 has. -/
theorem integerResults : Obligations.IntegerResults := by
  unfold Obligations.IntegerResults
  intro s a b c d sh w lo fw r bool
  dsimp only [r, bool, Triggers, exec]
  exact ⟨saTrigger_lands (add_eq a b), saTrigger_lands (sub_eq a b), saTrigger_lands rfl, saTrigger_lands rfl, saTrigger_lands rfl,
    saTrigger_lands rfl, saTrigger_lands (shl_eq ..), saTrigger_lands (shr_eq ..), saTrigger_lands (sra_eq ..),
    saTrigger_lands (rol_eq _ (Nat.mod_lt _ (by decide))), saTrigger_lands (minSigned_eq a b), saTrigger_lands (maxSigned_eq a b),
    saTrigger_lands (minUnsigned_eq a b), saTrigger_lands (maxUnsigned_eq a b), saTrigger_cond beq_iff_eq, saTrigger_cond bne_iff_ne,
    saTrigger_cond BitVec.slt_iff_toInt_lt, saTrigger_cond BitVec.ult_iff_lt, saTrigger_cond BitVec.sle_iff_toInt_le,
    saTrigger_cond BitVec.ule_iff_le, fun nonzero => saTrigger_lands (if_pos (bne_iff_ne.2 nonzero)),
    fun zero => saTrigger_lands (if_neg (mt bne_iff_ne.1 (not_not.2 zero))), saTrigger_lands rfl,
    saTrigger_lands (congrArg _ (sextNat_eq (extWidth_pos a) b.toNat)), saTrigger_lands rfl,
    fun zero => ⟨saTrigger_lands (congrArg (BitVec.ofNat 64 <| clzNat 64 <| BitVec.toNat ·) zero),
      saTrigger_lands (congrArg (BitVec.ofNat 64 <| ctzNat <| BitVec.toNat ·) zero)⟩,
    fun n bound low high => saTrigger_lands (congrArg _ (clzNat_eq bound low high)),
    fun n bound here below => saTrigger_lands (congrArg _ (ctzNat_eq bound here below)),
    saTrigger_lands (congrArg _ (popcNat_eq b 64)), fun x bits => saTrigger_lands (reverse_eq bits), saTrigger_lands (add_shl_eq a b _),
    fun x bits => saTrigger_lands (bfx_eq bits), fun x bits => saTrigger_lands (bfi_eq bits)⟩

/-! ### sm (R144) -/

section
variable {op l : Nat} {s : State}

/-- A row of sm puts the words that its function gives on their way to sm.r and sm.h. -/
theorem smTrigger_lands {value : Word → Word → Word → Word × Word} {x y : Int}
    (gives : value s.pkg.fire.a.toS s.pkg.fire.b.toS s.pkg.fire.c.toS = (BitVec.ofInt 64 x, BitVec.ofInt 64 y)) :
    smTrigger op l value s = .next (inFlight s.pkg.fire.ctx
      (landing 2 op l (some (.s (BitVec.ofInt 64 x))) (some ((BitVec.ofInt 64 y).setWidth 4096)) 0) s) := by
  rw [smTrigger, gives]
  rfl

/-- A division is a row of sm whose h port receives 0, eighteen issue cycles on. -/
theorem divTrigger_lands {value : Word → Word → Word} {x : Int}
    (gives : value s.pkg.fire.a.toS s.pkg.fire.b.toS = BitVec.ofInt 64 x) :
    divTrigger op value s = .next (inFlight s.pkg.fire.ctx
      (landing 2 op 18 (some (.s (BitVec.ofInt 64 x))) (some ((BitVec.ofInt 64 0).setWidth 4096)) 0) s) := by
  rw [divTrigger, gives, show BitVec.ofInt 64 0 = 0#64 from rfl, BitVec.setWidth_zero]
  rfl

end

theorem mul_eq_ofInt (a b : Word) : a * b = BitVec.ofInt 64 (a.toNat * b.toNat : Nat) := by
  rw [BitVec.ofInt_natCast]
  exact BitVec.eq_of_toNat_eq (by simp)

theorem mul_add_eq_ofInt (a b c : Word) : a * b + c = BitVec.ofInt 64 (a.toNat * b.toNat + c.toNat : Nat) := by
  rw [BitVec.ofInt_natCast]
  exact BitVec.eq_of_toNat_eq (by simp)

theorem wide_eq (x : Int) : wide x = (BitVec.ofInt 64 x, BitVec.ofInt 64 (x / 2 ^ 64)) := by
  rw [wide, show x >>> 64 = x / 2 ^ 64 from
    (Int.shiftRight_natCast_right x 64).trans (Int.shiftRight_eq_div_pow x 64)]

theorem wide_natCast (x : Nat) : wide x = (BitVec.ofInt 64 x, BitVec.ofInt 64 (x / 2 ^ 64 : Nat)) := by
  rw [wide_eq]
  rfl

/-- The one quotient that has no word, -2^63 by -1, wraps, and its remainder is 0. -/
theorem divSigned_eq {a b : Word} (h : b ≠ 0) :
    divSigned a b = (BitVec.ofInt 64 (a.toInt.tdiv b.toInt), BitVec.ofInt 64 (a.toInt - a.toInt.tdiv b.toInt * b.toInt)) := by
  rw [divSigned, if_neg h]
  split
  next overflow =>
    obtain ⟨rfl, rfl⟩ := overflow
    decide
  next =>
    rw [Int.tmod_def, Int.mul_comm]

theorem divUnsigned_eq {a b : Word} (h : b ≠ 0) :
    divUnsigned a b = (BitVec.ofInt 64 (a.toNat / b.toNat : Nat), BitVec.ofInt 64 (a.toNat % b.toNat : Nat)) := by
  rw [divUnsigned, if_neg h, BitVec.ofInt_natCast, BitVec.ofInt_natCast]

/-- A division by 0 has quotient -1 and leaves the dividend (R144). -/
theorem divide_by_zero (a : Word) :
    divSigned a 0 = (BitVec.ofInt 64 (-1), BitVec.ofInt 64 a.toInt) ∧ divUnsigned a 0 = (BitVec.ofInt 64 (-1), BitVec.ofInt 64 a.toInt) := by
  rw [BitVec.ofInt_toInt]
  exact ⟨rfl, rfl⟩

/-- Settles O2: each row delivers its function's words (`smTrigger_lands`, `divTrigger_lands`), which are those of the table of R144. -/
theorem productsAndQuotients : Obligations.ProductsAndQuotients := by
  unfold Obligations.ProductsAndQuotients
  intro s a b c r
  dsimp only [r, Triggers, exec]
  refine ⟨smTrigger_lands ?_, smTrigger_lands ?_, smTrigger_lands ?_, smTrigger_lands ?_, smTrigger_lands (wide_eq _),
    smTrigger_lands (wide_natCast _), fun zero => ?_, fun nonzero => ?_⟩
  · exact congrArg (·, _) (mul_eq_ofInt a b)
  · exact congrArg (Prod.snd · , 0) (wide_eq _)
  · exact congrArg (Prod.snd · , 0) (wide_natCast _)
  · exact congrArg (·, _) (mul_add_eq_ofInt a b c)
  · obtain ⟨signed, unsigned⟩ := divide_by_zero a
    have value : s.pkg.fire.b.toS = 0 := zero
    refine ⟨divTrigger_lands ?_, divTrigger_lands ?_, divTrigger_lands ?_, divTrigger_lands ?_⟩ <;> rw [value]
    · exact congrArg Prod.fst signed
    · exact congrArg Prod.fst unsigned
    · exact congrArg Prod.snd signed
    · exact congrArg Prod.snd unsigned
  · exact ⟨divTrigger_lands (congrArg Prod.fst (divSigned_eq nonzero)), divTrigger_lands (congrArg Prod.snd (divSigned_eq nonzero)),
      divTrigger_lands (congrArg Prod.fst (divUnsigned_eq nonzero)), divTrigger_lands (congrArg Prod.snd (divUnsigned_eq nonzero))⟩

end Sys2Proof.Proofs.ScalarUnits

namespace Sys2Proof.Proofs.Checks

open Machine

/-! ### Checks (R159, R160) -/

theorem lane_maskLanes (m : Mask) (v : Vec) {j : Nat} (h : j < 128) :
    (maskLanes m v).lane j = if m.getLsbD j then v.lane j else 0 := Vec.lane_tab _ h

/-- A check that lands compares what its trigger took. -/
theorem landEntry_check (env : Env) (x : Nat) {e : Entry} {a b : Vec} (p : Pkg) (kind : e.kind = .check) (first : e.r = some (.v a))
    (second : e.h = some b) : landEntry env x e p =
      if a = b then p else p.modC x fun c => { c with check := some (e.trig, b2n (guarding e.op)) } := by
  have found : mismatches e = true ↔ a ≠ b := by simp [mismatches, kind, first, second, Val.toV]
  rw [landEntry, kind]
  by_cases same : a = b
  · simp [found, same]
  · simp [found, same]

theorem b2n_guarding (op : Nat) : b2n (guarding op) = if op = 3 ∨ op = 4 then 1 else 0 := by simp [b2n, guarding]

/-- Settles O8: every row of ck puts its two vectors in flight, those of `ck.vm` cut to the lanes its mask selects
(`lane_maskLanes`), and `landEntry_check` is their landing. -/
theorem checks : Obligations.Checks := by
  unfold Obligations.Checks
  intro s f trig puts
  dsimp only [puts, Triggers, exec]
  refine ⟨rfl, rfl, ⟨_, _, rfl, fun j h => ?_⟩, rfl, rfl, fun env x e a b kind first second => ?_⟩
  · rw [lane_maskLanes _ _ h, lane_maskLanes _ _ h]
    cases f.c.toM.getLsbD j <;> simp [f]
  · rw [landEntry_check env x s.pkg kind first second, b2n_guarding]
    exact ⟨fun same => if_pos same, fun differ => if_neg differ⟩

end Sys2Proof.Proofs.Checks

namespace Sys2Proof.Proofs.Branches

open Machine

/-! ### Triggers of br (R145 to R149) -/

theorem targetOk_iff {t : Nat} : targetOk t = true ↔ t % 32 = 0 ∧ t < 0x800000 := by
  rw [targetOk, Bool.and_eq_true, beq_iff_eq, decide_eq_true_iff, spadSize]

/-- The entry of a br trigger of a context: its control part and its register writes. -/
def branchEntry (c : Ctx) (op : Nat) (target : Option Nat) (writes : List (Fixed × Word)) : Entry :=
  { unit := 3, op := op, left := 3, order := 0, kind := .branch, target := target, trig := c.pc - 32, fixed := writes }

section
variable {op : Nat} {writes : List (Fixed × Word)} {s : State}

/-- A redirection that will be taken has its effect three issue cycles on, or raises the branch-target fault (R146). -/
theorem brTrigger_taken {taken : Bool} (goes : taken = true) (t : Nat) :
    let x := s.pkg.fire.ctx
    let trig := (s.pkg.c x).pc - 32
    (t % 32 = 0 ∧ t < 0x800000 →
      brTrigger op taken (some t) writes s = .next (inFlight x (branchEntry (s.pkg.c x) op (some t) writes) s)) ∧
    (¬(t % 32 = 0 ∧ t < 0x800000) →
      brTrigger op taken (some t) writes s = .next { s with pkg := sTrap s.env x 0x23 trig trig trig s.pkg }) := by
  refine ⟨fun ok => ?_, fun bad => ?_⟩
  · simp [brTrigger, goes, targetOk_iff.2 ok, inFlight, branchEntry, bundleAddr]
  · simp [brTrigger, goes, Bool.eq_false_iff.2 (mt targetOk_iff.1 bad), bundleAddr]

/-- A trigger that redirects nothing keeps its operand only where it is that of `trap` or `sleep`. -/
theorem brTrigger_passes {taken : Bool} (stays : taken = false) (target : Option Nat) :
    brTrigger op taken target writes s = .next (inFlight s.pkg.fire.ctx
      (branchEntry (s.pkg.c s.pkg.fire.ctx) op (if op = 12 ∨ op = 14 then target else none) writes) s) := by
  simp [brTrigger, stays, inFlight, branchEntry, bundleAddr]

end

/-! ### The return address of `call` (R147) -/

theorem pendingTarget_eq (c : Ctx) (left : Nat) : pendingTarget c left = (pendingRedirect c left).bind fun e =>
    if e.op = 12 then (if c.tvec = 0 then none else some c.tvec) else e.target := by
  unfold pendingTarget
  cases pendingRedirect c left <;> rfl

theorem trapsAt_iff {c : Ctx} {left : Nat} :
    trapsAt c left = true ↔ c.tvec ≠ 0 ∧ ∃ e, pendingRedirect c left = some e ∧ e.op = 12 := by
  simp [trapsAt, Option.any_eq_true]

/-- The address of the bundle three issue cycles on: a `trap` at the next one cancels what the redirections after it give. -/
theorem linkAddr_eq (c : Ctx) :
    let next := (pendingTarget c 1).getD c.pc
    linkAddr c = if trapsAt c 1 then next + 64 else (pendingTarget c 2).getD (next + 32) + 32 := by
  cases cut : trapsAt c 1 <;> simp [linkAddr, landsAt, cut]

/-- The link of a `call` enters before its redirection. -/
theorem execBrCall_ok {s : State} (ok : targetOk s.pkg.fire.b.toS.toNat = true) :
    let x := s.pkg.fire.ctx
    let c := s.pkg.c x
    execBrCall s = .next (inFlight x (branchEntry c 1 (some s.pkg.fire.b.toS.toNat) [])
      (inFlight x { unit := 3, op := 1, left := 1, order := 0, kind := .result, trig := c.pc - 32,
                    fixed := [(.s31, BitVec.ofNat 64 (linkAddr c))] } s)) := by
  intro x c
  rw [execBrCall, if_pos ok]
  refine ((brTrigger_taken rfl _).1 (targetOk_iff.1 ok)).trans ?_
  simp [branchEntry, inFlight, bundleAddr, x, c]

theorem execBrCall_bad {s : State} (bad : ¬targetOk s.pkg.fire.b.toS.toNat = true) :
    execBrCall s = brTrigger 1 true (some s.pkg.fire.b.toS.toNat) [] s := if_neg bad

/-- What `loop` does, in the terms of the claim. -/
theorem loopResult_eq (r : SrcRegs) (a : Word) :
    let n (k : Nat) : Bool := r.p.getLsbD k
    ((loopResult r a).1 = true ↔ r.lc ≠ 0 ∨ (1 ≤ a.toNat % 4 ∧ n 4) ∨ (2 ≤ a.toNat % 4 ∧ n 5) ∨ (a.toNat % 4 = 3 ∧ n 6)) ∧
    (loopResult r a).2 = (if r.lc ≠ 0 then [(Fixed.lc, r.lc - 1)] else []) ++
      [(.pred 4, if r.lc ≠ 0 then 1 else 0), (.pred 5, if n 4 then 1 else 0), (.pred 6, if n 5 then 1 else 0),
       (.pred 7, if n 6 then 1 else 0)] ++ [(.rrb, (r.rrb - 1) &&& 0x1F)] := by
  simp [loopResult, or_assoc]

/-- Settles O10: the rows of br are `brTrigger_taken` and `brTrigger_passes`, and `call` besides puts its link in flight. -/
theorem branchTriggers : Obligations.BranchTriggers := by
  unfold Obligations.BranchTriggers
  intro s f x c trig b ok entry fault jumps rotated shifted
  dsimp only [jumps, Triggers, exec]
  refine ⟨brTrigger_taken rfl b, brTrigger_taken rfl _, brTrigger_taken rfl _, fun bad => ?_, fun good => ?_,
    fun zero => brTrigger_taken (beq_iff_eq.2 zero) b, fun nonzero => brTrigger_passes (beq_eq_false_iff_ne.2 nonzero) _,
    fun nonzero => brTrigger_taken (bne_iff_ne.2 nonzero) b, fun zero => brTrigger_passes (bne_eq_false_iff_eq.2 zero) _, ?_,
    fun left => ?_, fun none_ => ?_, brTrigger_passes rfl _, brTrigger_passes rfl _, ?_,
    brTrigger_passes rfl _, brTrigger_passes rfl _, brTrigger_passes rfl _, brTrigger_passes rfl _⟩
  · rw [execBrCall_bad (mt targetOk_iff.1 bad)]
    exact (brTrigger_taken rfl b).2 bad
  · refine ⟨_, execBrCall_ok (targetOk_iff.2 good), fun cut => ?_, fun uncut => ?_⟩
    · rw [linkAddr_eq, if_pos (trapsAt_iff.2 cut), pendingTarget_eq]; rfl
    · rw [linkAddr_eq, if_neg (mt trapsAt_iff.1 uncut), pendingTarget_eq, pendingTarget_eq]; rfl
  · obtain ⟨goes, writes⟩ := loopResult_eq f.src f.a.toS
    have row : execBrLoop s = brTrigger 5 (loopResult f.src f.a.toS).1 (some b) (loopResult f.src f.a.toS).2 s := rfl
    rw [row, writes]
    exact ⟨fun taken => brTrigger_taken (goes.2 taken) b, fun stays => brTrigger_passes (Bool.eq_false_iff.2 (mt goes.1 stays)) _⟩
  · have taken : (s.pkg.fire.src.lcx != 0) = true := bne_iff_ne.2 left
    simp only [execBrLoopx, taken, if_true]
    exact brTrigger_taken rfl b
  · have stays : (s.pkg.fire.src.lcx != 0) = false := bne_eq_false_iff_eq.2 none_
    simp only [execBrLoopx, stays]
    exact brTrigger_passes rfl _
  · simp only [execBrRot, bne_iff_ne]
    exact brTrigger_passes rfl _

/-! ### The effect of a due branch (R145, R149, R150) -/

/-- The control part of a redirection, taken or not, and of the triggers that only write registers. -/
theorem branchEffect_redirection (env : Env) (x : Nat) {e : Entry} (p : Pkg) (redirection : e.op ≤ 9 ∨ e.op = 13) :
    branchEffect env x e p = match e.target with
      | some t => (p.modC x (markDone e.order)).modC x fun c => { c with pc := t }
      | none => p.modC x (markDone e.order) := by
  unfold branchEffect
  dsimp only
  split
  case h_5 => rfl
  all_goals omega

theorem execBranchEffect_due {x : Nat} {s : State} {e : Entry} {q : Pkg} (due : dueBranch (s.pkg.c x) = some e)
    (effect : branchEffect s.env x e s.pkg = q) : exec (.branchEffect x) s = .next { s with pkg := q } := by
  subst effect
  dsimp only [exec]
  rw [execBranchEffect, due]
  rfl

/-- Settles O11: the row is `branchEffect` of the due entry, one of whose branches its operation chooses. -/
theorem branchEffects : Obligations.BranchEffects := by
  unfold Obligations.BranchEffects
  intro x s c
  refine ⟨fun none_ => ?_, fun e due => ?_⟩
  · have idle : dueBranch (s.pkg.c x) = none := none_
    dsimp only [exec]
    rw [execBranchEffect, idle]
  · intro p goes
    refine ⟨fun redirection => ?_, fun op => ?_, fun op => ?_, fun op => ?_, fun ⟨op, past⟩ => ?_, fun ⟨op, ahead⟩ => ?_⟩
    all_goals refine execBranchEffect_due due ?_
    · exact branchEffect_redirection _ _ _ redirection
    · rw [branchEffect, op]; rfl
    · rw [branchEffect, op]; rfl
    · rw [branchEffect, op]; rfl
    · rw [branchEffect, op]; exact if_pos past
    · rw [branchEffect, op]; exact if_neg (Nat.not_le.2 ahead)

end Sys2Proof.Proofs.Branches

namespace Sys2Proof.Proofs.LoadsAndStores

open Machine TriggerFrames

/-! ### Loads (R151 to R155) -/

/-- The bits of a number that is given bit by bit. -/
theorem testBit_digits_bits (bs : List Bool) (j : Nat) : (digits 1 (bs.map b2n)).testBit j = bs.getD j false := by
  have digit := digit_digits 1 j (bs.map b2n)
  rw [Nat.one_mul, Nat.pow_one] at digit
  rw [Nat.testBit_eq_decide_div_mod_eq, digit]
  by_cases inside : j < bs.length
  · cases bit : bs[j] <;> simp [List.getD_eq_getElem?_getD, inside, bit, b2n]
  · simp [List.getD_eq_getElem?_getD, inside]

/-- A word of 32 bits, as the block of tags is read. -/
theorem getLsbD_block (bit : Nat → Bool) {j : Nat} (h : j < 64) :
    (BitVec.ofNat 64 (digits 1 ((List.range 32).map fun i => b2n (bit i)))).getLsbD j = (decide (j < 32) && bit j) := by
  have bits := testBit_digits_bits ((List.range 32).map bit) j
  rw [List.map_map] at bits
  rw [BitVec.getLsbD_ofNat, decide_eq_true h, Bool.true_and]
  refine bits.trans ?_
  by_cases inside : j < 32 <;> simp [List.getD_eq_getElem?_getD, inside]

/-- Settles O13: an accepted trigger does what its row says (`lsTrigger_accepted`), which is to put the stated entry in flight, after
`acquireTags` where it is tagged. -/
theorem loads : Obligations.Loads := by
  unfold Obligations.Loads
  intro s f x unit a fine word plain scalar vector ready full empties
  have accepts {op : Nat} {act : Fire → Pkg → Pkg} (h : fine op) : lsTrigger op act s = .next { s with pkg := act f s.pkg } :=
    lsTrigger_accepted ⟨h.1, h.2⟩
  dsimp only [plain, full, empties, Triggers, exec]
  refine ⟨accepts, accepts, accepts, accepts, accepts, accepts, accepts, accepts, accepts, accepts, accepts, accepts,
    ⟨_, accepts, fun j bound => ?_⟩, ⟨_, accepts, fun j bound => ?_⟩, ⟨_, fun j bound => ?_, accepts⟩,
    ⟨_, fun j bound => ?_, accepts, accepts⟩, accepts⟩
  · rw [Vec.lane_ofLanes _ bound, List.map_replicate, List.getD_replicate _ bound]
  · rw [Vec.lane_tab _ bound, laneActive]
    cases (f.d.toV.lane j).getLsbD 31 <;> rfl
  · exact getLsbD_block _ bound
  · exact Vec.lane_tab _ bound

/-! ### What stores write (R151, R153, R156) -/

/-- A list with its positions. -/
theorem range_zip_self {α : Type} (l : List α) (d : α) :
    (List.range l.length).zip l = (List.range l.length).map fun i => (i, l.getD i d) := by
  refine List.ext_getElem (by simp) fun i _ h => ?_
  have inside : i < l.length := by simpa using h
  simp [List.getD_eq_getElem?_getD, inside]

theorem cellsAt_bytesOf (a n v : Nat) :
    cellsAt a (bytesOf n v) = (List.range n).map fun k => (a + k, BitVec.ofNat 8 (v / 256 ^ k)) := by
  rw [cellsAt, range_zip_self _ 0, List.map_map, bytesOf_length]
  refine List.map_congr_left fun k mem => ?_
  rw [Function.comp_apply, bytesOf_getD _ _ _ (List.mem_range.1 mem)]

theorem scalarStore_eq (op n : Nat) (full : Bool) (f : Fire) : scalarStore op n full f =
    { bytes := (List.range n).map fun k => (ea f + k, BitVec.ofNat 8 (f.d.toS.toNat / 256 ^ k)),
      tags := if full then (lsWords op f).map fun w => (w, true) else [] } := by
  rw [scalarStore, cellsAt_bytesOf]

theorem length_lsWords {op : Nat} (f : Fire) (h : op ∈ [18, 19, 20, 22]) : (lsWords op f).length = 128 := by
  simp only [List.mem_cons, List.not_mem_nil, or_false] at h
  rcases h with rfl | rfl | rfl | rfl <;> simp [lsWords]

/-- Every lane goes to its own word of the list. -/
theorem vectorStore_eq {op : Nat} (full swzd whole : Bool) (v : Vec) {f : Fire} (lanes : (lsWords op f).length = 128) :
    vectorStore op full swzd whole v f =
      { swz := swzd, whole := whole,
        bytes := (List.range 128).flatMap fun j => (List.range 4).map fun k =>
          (4 * (lsWords op f).getD j 0 + k, BitVec.ofNat 8 ((v.lane j).toNat / 256 ^ k)),
        tags := if full then (lsWords op f).map fun w => (w, true) else [] } := by
  simp only [vectorStore]
  rw [range_zip_self _ 0, lanes, List.flatMap_map]
  simp only [cellsAt_bytesOf]

/-- R154: of the active lanes at one word the highest stands. -/
theorem scatter_eq (f : Fire) :
    let stored := (List.range 128).filter fun j => !(f.d.toV.lane j).getLsbD 31 &&
      !((List.range 128).any fun k => decide (j < k) && !(f.d.toV.lane k).getLsbD 31 && laneAddr f k == laneAddr f j)
    scatter f =
      { bytes := stored.flatMap fun j => (List.range 4).map fun k =>
          (laneAddr f j + k, BitVec.ofNat 8 ((f.src.vreg.lane j).toNat / 256 ^ k)),
        tags := stored.map fun j => (laneAddr f j / 4, true) } := by
  intro stored
  have last : (activeLanes f).filter (fun i => !((activeLanes f).any fun j => decide (i < j) && laneAddr f j == laneAddr f i)) = stored := by
    rw [activeLanes, List.filter_filter]
    refine List.filter_congr fun j _ => ?_
    rw [Bool.and_comm, laneActive, List.any_filter]
    simp only [laneActive, Bool.and_left_comm, Bool.and_assoc]
  simp only [scatter, last, cellsAt_bytesOf]

/-- Settles O14: an accepted trigger puts its store in flight, or makes it at once (`lsTrigger_accepted`), and the store is the one that
the lemmas above write out. -/
theorem stores : Obligations.Stores := by
  unfold Obligations.Stores
  intro s f x a fine lands now bytes fullAll lanes scattered stored
  have store_lands {i : Instr} {op l : Nat} {st : LStore} (store : Fire → LStore)
      (row : exec i s = lsTrigger op (fun f => storeEntry op l f (store f)) s) (writes : store f = st) : lands i op l st := by
    subst writes
    exact fun h => row.trans (lsTrigger_accepted ⟨h.1, h.2⟩)
  have store_now {i : Instr} {op : Nat} {st : LStore} (store : Fire → LStore)
      (row : exec i s = lsTrigger op (fun f => storeNow op (store f) f) s) (writes : store f = st) : now i op st := by
    subst writes
    exact fun h => row.trans (lsTrigger_accepted ⟨h.1, h.2⟩)
  have vector_eq {op : Nat} (full swzd whole : Bool) (h : op ∈ [18, 19, 20, 22]) :=
    vectorStore_eq full swzd whole f.d.toV (length_lsWords f h)
  exact ⟨store_lands (scalarStore 8 1 true) rfl (scalarStore_eq ..), store_lands (scalarStore 9 2 true) rfl (scalarStore_eq ..),
    store_lands (scalarStore 10 4 true) rfl (scalarStore_eq ..), store_lands (scalarStore 11 8 true) rfl (scalarStore_eq ..),
    store_lands (scalarStore 14 4 false) rfl (scalarStore_eq ..),
    store_lands (fun f => vectorStore 18 true false true f.d.toV f) rfl (vector_eq _ _ _ (by decide)),
    store_lands (fun f => vectorStore 20 false false true f.d.toV f) rfl (vector_eq _ _ _ (by decide)),
    store_lands (fun f => vectorStore 22 true true true f.d.toV f) rfl (vector_eq _ _ _ (by decide)),
    store_now (scalarStore 12 4 true) rfl (scalarStore_eq ..), store_now (scalarStore 13 8 true) rfl (scalarStore_eq ..),
    store_now (fun f => vectorStore 19 true false false f.d.toV f) rfl (vector_eq _ _ _ (by decide)),
    store_lands scatter rfl (scatter_eq f), fun below => store_lands tagBlock rfl (if_pos below),
    fun above => store_lands tagBlock rfl (if_neg (Nat.not_lt.2 above)), store_lands lineStore rfl rfl⟩

end Sys2Proof.Proofs.LoadsAndStores

namespace Sys2Proof.Proofs.Tokens

open Machine StorageFrames Traps BundleIssue

/-! ### A U-class trap that has a handler (R37, R150, R309) -/

theorem uTrap_unhandled (env : Env) (cause unit detail tpc : Nat) {x : Nat} {p : Pkg} (none_ : (p.c x).tvec = 0) :
    uTrap env x cause unit detail tpc p = sTrap env x 0x26 tpc (((p.c x).check.map (·.1)).getD tpc) tpc
      (p.modC x fun c => { c with check := none }) := if_pos none_

/-- The trap information of a cause, a unit and a detail (R37). -/
def trapInfo (cause unit detail : Nat) : Nat := detail % 2 ^ 48 * 2 ^ 16 + unit % 256 * 2 ^ 8 + cause

/-- A context as a U-class trap at the bundle `tpc` leaves it, its next bundle the handler's. -/
def handled (info tpc : Nat) (c : Ctx) : Ctx :=
  let d := ((cancelRedirects c).setCr 0x0DA (BitVec.ofNat 64 tpc)).setCr 0x0D9 (BitVec.ofNat 64 info)
  { d with pc := c.tvec, watchdog := 0, phase := match c.phase with | .blocked => .ready | ph => ph
           waited := match c.phase with | .blocked => 0 | _ => c.waited }

theorem tvec_of_cr {c d : Ctx} (h : d.cr 0x0D8 = c.cr 0x0D8) : d.tvec = c.tvec := congrArg BitVec.toNat h

theorem uTrap_handled (env : Env) (cause unit detail tpc : Nat) {x : Nat} {p : Pkg} (handler : (p.c x).tvec ≠ 0) :
    uTrap env x cause unit detail tpc p = p.modC x (handled (trapInfo cause unit detail) tpc) := by
  have same (c : Ctx) : (((cancelRedirects c).setCr 0x0DA (BitVec.ofNat 64 tpc)).setCr 0x0D9
      (BitVec.ofNat 64 (trapInfo cause unit detail))).tvec = c.tvec := by
    refine tvec_of_cr ?_
    simp only [Ctx.cr, Ctx.setCr]
    rw [NMap.get_set_of_ne _ _ (by decide), NMap.get_set_of_ne _ _ (by decide)]
    rfl
  unfold uTrap
  dsimp only
  rw [if_neg handler]
  unfold Pkg.modC handled
  rw [← same]
  rfl

theorem handled_cr_of_ne (info tpc : Nat) (c : Ctx) {code : Nat} (notTpc : code ≠ 0x0DA) (notInfo : code ≠ 0x0D9) :
    (handled info tpc c).cr code = c.cr code := by
  show NMap.get (NMap.set (NMap.set c.creg _ _) _ _) code = _
  rw [NMap.get_set_of_ne _ _ notInfo, NMap.get_set_of_ne _ _ notTpc]
  rfl

theorem handled_info {info : Nat} (tpc : Nat) (c : Ctx) (fits : info < 2 ^ 64) : ((handled info tpc c).cr 0x0D9).toNat = info := by
  have whole (w : Word) : w &&& cregMask 0x0D9 = w := BitVec.and_allOnes
  show (NMap.get (NMap.set _ _ _) 0x0D9 : Word).toNat = _
  rw [NMap.get_set_self, whole, BitVec.toNat_ofNat, Nat.mod_eq_of_lt fits]

theorem handled_tpc (info : Nat) {tpc : Nat} (c : Ctx) (fits : tpc < 2 ^ 32) (aligned : tpc % 32 = 0) :
    ((handled info tpc c).cr 0x0DA).toNat = tpc := by
  have kept : (BitVec.ofNat 64 tpc &&& cregMask 0x0DA).toNat = tpc := by
    obtain ⟨n, rfl⟩ : ∃ n, tpc = 2 ^ 5 * n := ⟨tpc / 32, by omega⟩
    rw [BitVec.toNat_and, BitVec.toNat_ofNat, Nat.mod_eq_of_lt (by omega), show (cregMask 0x0DA).toNat = 2 ^ 5 * (2 ^ 27 - 1) from rfl,
      Nat.mul_comm, Nat.mul_comm (2 ^ 5), ← Nat.shiftLeft_eq, ← Nat.shiftLeft_eq, ← Nat.shiftLeft_and_distrib,
      Nat.and_two_pow_sub_one_eq_mod, Nat.mod_eq_of_lt (by omega)]
  show (NMap.get (NMap.set (NMap.set _ _ _) _ _) 0x0DA : Word).toNat = _
  rw [NMap.get_set_of_ne _ _ (by decide), NMap.get_set_self, kept]

theorem handled_flight (info tpc : Nat) (c : Ctx) :
    (∀ e ∈ (handled info tpc c).flight, redirects e = false) ∧ (handled info tpc c).flight.map (·.fixed) = c.flight.map (·.fixed) := by
  have flight : (handled info tpc c).flight = c.flight.map fun e => if redirects e then { e with done := true } else e := rfl
  rw [flight, List.map_map]
  constructor
  · intro e mem
    obtain ⟨d, -, rfl⟩ := List.mem_map.1 mem
    split
    · simp [redirects]
    · exact Bool.eq_false_iff.2 ‹_›
  · refine List.map_congr_left fun e _ => ?_
    dsimp only [Function.comp_apply]
    split <;> rfl

/-! ### A token reported (R189) -/

/-- A context that has reported its token k. -/
def reported (k : Nat) (c : Ctx) : Ctx := { c with tokens := c.tokens.modify k fun t => { t with acked := true } }

theorem reported_self (k : Nat) (c : Ctx) : ((reported k c).tokens.get k).acked = true := by
  simp [reported]

theorem reported_of_ne {j k : Nat} (c : Ctx) (other : j ≠ k) : (reported k c).tokens.get j = c.tokens.get j :=
  NMap.get_modify_of_ne c.tokens (fun t => { t with acked := true }) other

section
variable (info tpc k : Nat) (c : Ctx)

theorem handled_pc : (handled info tpc c).pc = c.tvec := rfl
theorem handled_watchdog : (handled info tpc c).watchdog = 0 := rfl
theorem handled_s : (handled info tpc c).s = c.s := rfl
theorem handled_v : (handled info tpc c).v = c.v := rfl
theorem handled_p : (handled info tpc c).p = c.p := rfl
theorem handled_m : (handled info tpc c).m = c.m := rfl

end

/-- What reporting a token and a trap with a handler leave of a state. -/
theorem trappedU_reported (x k : Nat) {info tpc : Nat} (s : State) (fits : info < 2 ^ 64) (low : tpc < 2 ^ 32) (aligned : tpc % 32 = 0) :
    TrappedU x tpc info s { s with pkg := (s.pkg.modC x (reported k)).modC x (handled info tpc) } := by
  have self : ((s.pkg.modC x (reported k)).modC x (handled info tpc)).c x = handled info tpc (reported k (s.pkg.c x)) := by
    rw [Pkg.c_modC_self, Pkg.c_modC_self]
  obtain ⟨cut, flight⟩ := handled_flight info tpc (reported k (s.pkg.c x))
  exact {
    env := rfl
    tpc := by rw [self]; exact handled_tpc info _ low aligned
    tinfo := by rw [self]; exact handled_info tpc _ fits
    pc := by rw [self, handled_pc]; rfl
    watchdog := by rw [self, handled_watchdog]
    cut := by rw [self]; exact cut
    flight := by rw [self]; exact flight
    creg := fun code notTpc notInfo => by rw [self]; exact handled_cr_of_ne info tpc _ notTpc notInfo
    sreg := fun _ => by rw [self, handled_s]; rfl
    vreg := fun _ => by rw [self, handled_v]; rfl
    preg := by rw [self, handled_p]; rfl
    mreg := fun _ => by rw [self, handled_m]; rfl
    others := fun y other => by rw [Pkg.c_modC_of_ne _ _ other, Pkg.c_modC_of_ne _ _ other]
    storage := .of_eq rfl rfl rfl }

/-! ### What a wait finds (R189) -/

theorem mem_namedTokens {m : Word} {k : Nat} : k ∈ namedTokens m ↔ k < 64 ∧ m.getLsbD k = true := by
  rw [namedTokens, List.mem_filter, List.mem_range]

section
variable {s : State}

theorem ecWait_found (ready : waitReady (s.pkg.c s.pkg.fire.ctx) s.pkg.fire.b.toS = true)
    (sound : waitFault (s.pkg.c s.pkg.fire.ctx) s.pkg.fire.b.toS = none) :
    exec .ecWait s = .next { s with pkg := foundTokens s.pkg.fire.ctx (namedTokens s.pkg.fire.b.toS) s.pkg } := by
  show execEcWait s = _
  simp [execEcWait, ready, sound]

theorem ecWait_traps (ready : waitReady (s.pkg.c s.pkg.fire.ctx) s.pkg.fire.b.toS = true) {k : Nat}
    (fault : waitFault (s.pkg.c s.pkg.fire.ctx) s.pkg.fire.b.toS = some k) :
    exec .ecWait s = .next { s with pkg := waitTrap s.env s.pkg.fire.ctx k ((s.pkg.c s.pkg.fire.ctx).pc - 32) s.pkg } := by
  show execEcWait s = _
  simp [execEcWait, ready, fault, bundleAddr]

theorem ecWait_blocks (open_ : waitReady (s.pkg.c s.pkg.fire.ctx) s.pkg.fire.b.toS = false) :
    exec .ecWait s = .next { s with
      pkg := blockCtx s.env s.pkg.fire.ctx (s.pkg.modC s.pkg.fire.ctx fun c => { c with pc := (s.pkg.c s.pkg.fire.ctx).pc - 32 }) } := by
  show execEcWait s = _
  simp [execEcWait, open_, bundleAddr]

end

/-- What a wait's trap comes to, with a handler and without. -/
theorem waitTrap_leaves (x k tpc : Nat) (s : State) (low : tpc < 2 ^ 32) (aligned : tpc % 32 = 0) (k64 : k < 64) :
    let c := s.pkg.c x
    let t := c.tokens.get k
    let dense := t.unit = 13 ∧ t.op = 7 ∧ t.status = 0x2C
    let tinfo := (if dense then 3 else 2) + 2 ^ 8 * 12 + 2 ^ 16 * k + 2 ^ 24 * t.status + 2 ^ 32 * (t.unit - 12) + 2 ^ 40 * t.op +
      (if dense then 2 ^ 48 * (t.flags % 8) else 0)
    let q := waitTrap s.env x k tpc s.pkg
    t.status < 256 → 12 ≤ t.unit → t.unit ≤ 13 → t.op < 32 →
      ((q.c x).tokens.get k).acked = true ∧ (∀ j, j ≠ k → (q.c x).tokens.get j = c.tokens.get j) ∧
      (c.tvec ≠ 0 → TrappedU x tpc tinfo s { s with pkg := q }) ∧
      (c.tvec = 0 → (q.c x).phase = .frozen ∧ (q.c x).cause = 0x26 ∧ (q.c x).pc = tpc ∧ SameStorage s.pkg q) := by
  intro c t dense tinfo q status unit12 unit13 op
  have acked : (s.pkg.modC x (reported k)).c x = reported k c := Pkg.c_modC_self ..
  let detail := k + 2 ^ 8 * t.status + 2 ^ 16 * (t.unit - 12) + 2 ^ 24 * t.op + (if dense then 2 ^ 32 * (t.flags % 8) else 0)
  have trap : q = uTrap s.env x (if dense then 0x03 else 0x02) 12 detail tpc (s.pkg.modC x (reported k)) := rfl
  have info : trapInfo (if dense then 3 else 2) 12 detail = tinfo ∧ tinfo < 2 ^ 64 := by
    simp only [trapInfo, detail, tinfo]
    by_cases h : dense
    · simp only [h, if_true]
      omega
    · simp only [h, if_false]
      omega
  by_cases handler : c.tvec = 0
  · have frozen : q = sTrap s.env x 0x26 tpc ((c.check.map (·.1)).getD tpc) tpc
        ((s.pkg.modC x (reported k)).modC x fun c => { c with check := none }) := by
      rw [trap, uTrap_unhandled _ _ _ _ _ (by rw [acked]; exact handler), acked]
      rfl
    have self : q.c x = trapped 0x26 tpc { reported k c with check := none } := by
      rw [frozen, sTrap_c_self, Pkg.c_modC_self, acked]
    rw [self]
    refine ⟨reported_self k c, fun j other => reported_of_ne c other, fun h => absurd handler h, fun _ => ⟨rfl, rfl, rfl, ?_⟩⟩
    rw [frozen]
    exact (((sameParts_modC _ x _).trans (sameParts_modC _ x _)).trans (sTrap_parts ..)).storage
  · have goes : q = (s.pkg.modC x (reported k)).modC x (handled tinfo tpc) := by
      rw [trap, uTrap_handled _ _ _ _ _ (by rw [acked]; exact handler), info.1]
    have self : q.c x = handled tinfo tpc (reported k c) := by rw [goes, Pkg.c_modC_self, acked]
    rw [self]
    refine ⟨reported_self k c, fun j other => reported_of_ne c other, fun _ => ?_, fun h => absurd h handler⟩
    rw [goes]
    exact trappedU_reported x k s info.2 low aligned

/-! ### What a context learns of completed tokens (R100) -/

theorem subset_closureFrom (edges : NMap (List Nat)) (n : Nat) {ids : List Nat} : ∀ i ∈ ids, i ∈ closureFrom edges n ids := by
  induction n generalizing ids with
  | zero => exact fun _ mem => mem
  | succ n ih =>
    intro i mem
    rw [closureFrom]
    split
    · exact mem
    · exact ih i (List.mem_eraseDups.2 (List.mem_append_left _ mem))

/-- The commands of those tokens of a context that have completed. -/
def completedCommands (ks : List Nat) (c : Ctx) : List Nat := ks.filterMap fun k =>
  if (c.tokens.get k).state = .complete ∧ (c.tokens.get k).cmd ≠ 0 then some (c.tokens.get k).cmd else none

theorem mem_completedCommands {ks : List Nat} {c : Ctx} {k : Nat} (mem : k ∈ ks) (complete : (c.tokens.get k).state = .complete)
    (some_ : (c.tokens.get k).cmd ≠ 0) : (c.tokens.get k).cmd ∈ completedCommands ks c :=
  List.mem_filterMap.2 ⟨k, mem, if_pos ⟨complete, some_⟩⟩

theorem foundTokens_nothing {x : Nat} {ks : List Nat} {p : Pkg} (none_ : completedCommands ks (p.c x) = []) :
    foundTokens x ks p = p := by
  show (if (completedCommands ks (p.c x)).isEmpty then _ else _) = _
  rw [if_pos (List.isEmpty_iff.2 none_)]

theorem foundTokens_some {x : Nat} {ks : List Nat} {p : Pkg} (some_ : completedCommands ks (p.c x) ≠ []) :
    foundTokens x ks p = p.modC x fun c =>
      { c with after := ((p.c x).after ++ closureFrom p.edges p.nextCmd (completedCommands ks (p.c x))).eraseDups } := by
  show (if (completedCommands ks (p.c x)).isEmpty then _ else _) = _
  rw [if_neg (mt List.isEmpty_iff.1 some_)]
  rfl

/-- What a context knows of other commands is no register of it. -/
theorem onlyFlight_after (x : Nat) (ids : List Nat) (s : State) :
    OnlyFlight x s { s with pkg := s.pkg.modC x fun c => { c with after := ids } } where
  env := rfl
  storage := .of_eq rfl rfl rfl
  others _ other := Pkg.c_modC_of_ne _ _ other
  regs := by rw [Pkg.c_modC_self]; exact sameRegs_of_registers rfl
  pc := by rw [Pkg.c_modC_self]
  phase := by rw [Pkg.c_modC_self]
  cores := rfl
  cmds := rfl
  nodes := rfl
  reg := rfl
  records := rfl
  held := rfl

theorem onlyFlight_rfl (x : Nat) (s : State) : OnlyFlight x s s :=
  ⟨rfl, .refl _, fun _ _ => rfl, .refl _, rfl, rfl, rfl, rfl, rfl, rfl, rfl, rfl⟩

theorem foundTokens_leaves (x : Nat) (ks : List Nat) (s : State) :
    let c := s.pkg.c x
    let q := foundTokens x ks s.pkg
    (∀ k ∈ ks, (c.tokens.get k).state = .complete → (c.tokens.get k).cmd ≠ 0 → (c.tokens.get k).cmd ∈ (q.c x).after) ∧
      OnlyFlight x s { s with pkg := q } ∧ (q.c x).flight = c.flight := by
  intro c q
  by_cases none_ : completedCommands ks c = []
  · have same : q = s.pkg := foundTokens_nothing none_
    rw [same]
    refine ⟨fun k mem complete some_ => ?_, onlyFlight_rfl x s, rfl⟩
    exact absurd (mem_completedCommands mem complete some_) (none_ ▸ List.not_mem_nil)
  · let ids := (c.after ++ closureFrom s.pkg.edges s.pkg.nextCmd (completedCommands ks c)).eraseDups
    have learns : q = s.pkg.modC x fun c => { c with after := ids } := foundTokens_some none_
    rw [learns]
    refine ⟨fun k mem complete some_ => ?_, onlyFlight_after x ids s, by rw [Pkg.c_modC_self]⟩
    rw [Pkg.c_modC_self]
    exact List.mem_eraseDups.2 (List.mem_append_right _ (subset_closureFrom _ _ _ (mem_completedCommands mem complete some_)))

theorem ecTest_eq (s : State) :
    let x := s.pkg.fire.ctx
    let k := s.pkg.fire.b.toS.toNat % 64
    let t := (s.pkg.c x).tokens.get k
    let r := (if t.state = .complete ∨ t.state = .free then 256 else 0) + (if t.acked then 512 else 0) +
      (if t.state = .complete then t.status else 0)
    let p := (foundTokens x [k] s.pkg).modC x fun c =>
      { c with tokens := c.tokens.modify k fun t => if t.state = .complete then { t with acked := true } else t }
    exec .ecTest s = .next (inFlight x (landing 12 15 1 (some (.s (BitVec.ofNat 64 r))) none 0) { s with pkg := p }) := by
  intro x k t r p
  have value : 256 * b2n t.done + 512 * b2n t.acked + (if t.state = .complete then t.status else 0) = r := by
    have weigh (n : Nat) (b : Bool) : n * b2n b = if b = true then n else 0 := by cases b <;> simp [b2n]
    simp only [r, weigh, done_iff]
  rw [← value]
  rfl

/-! ### Templates (R197) -/

theorem mem_wordsOf {a n w : Nat} (aligned : a % 4 = 0) (some_ : 0 < n) (h : w ∈ wordsOf a (4 * n)) : a / 4 ≤ w ∧ w < a / 4 + n := by
  simp only [wordsOf, List.mem_map, List.mem_range] at h
  omega

theorem sameStorage_modC_drawn (p : Pkg) (x n : Nat) (f : Ctx → Ctx) : SameStorage p ((p.modC x f).drawn n) := .of_eq rfl rfl rfl

theorem ecTmpl_stores (s : State) :
    let x := s.pkg.fire.ctx
    let c := s.pkg.c x
    let a := s.pkg.fire.a.toS.toNat
    let k := s.pkg.fire.b.toS.toNat % 64
    a % 64 = 0 → a + 64 ≤ 0x800000 →
    (s.pkg.fire.sound = false → ∀ w, a / 4 ≤ w → w < a / 4 + 16 → s.pkg.poisonedAt x false c.joins [] w = false) →
      ∃ t, exec .ecTmpl s = .next t ∧ SameStorage s.pkg t.pkg ∧
        (t.pkg.c x).tmpl.get k = (if templateOk (loadBytes s.pkg x a 64) then loadBytes s.pkg x a 64 else []) ∧
        ∀ j, j ≠ k → (t.pkg.c x).tmpl.get j = c.tmpl.get j := by
  intro x c a k aligned inside clean
  have linear : Eng.linear a 64 64 = true := by simp [Eng.linear, spadSize, aligned, inside]
  have sound : (!s.pkg.fire.sound && (wordsOf a 64).any (s.pkg.poisonedAt x false c.joins [])) = false := by
    rw [Bool.and_eq_false_imp, Bool.not_eq_true']
    intro unsound
    refine List.any_eq_false.2 fun w mem => ?_
    obtain ⟨low, high⟩ := mem_wordsOf (n := 16) (by omega) (by decide) mem
    simp [clean unsound w low high]
  let b := loadBytes s.pkg x a 64
  have stores : exec .ecTmpl s = .next { s with
      pkg := (s.pkg.modC x fun c => { c with tmpl := c.tmpl.set k (if templateOk b then b else []) }).drawn (accessDraws s.pkg x) } := by
    show execEcTmpl s = _
    unfold execEcTmpl
    dsimp only
    rw [if_neg (by rw [linear]; decide), if_neg (Bool.eq_false_iff.1 sound)]
    rfl
  refine ⟨_, stores, sameStorage_modC_drawn .., ?_⟩
  dsimp only
  rw [Pkg.drawn_read_c, Pkg.c_modC_self]
  exact ⟨NMap.get_set_self .., fun j other => NMap.get_set_of_ne _ _ other⟩

/-- Settles O24: a wait by the first of its three outcomes that it meets, a test and a template by what their rows compute. -/
theorem tokenOperations : Obligations.TokenOperations := by
  unfold Obligations.TokenOperations
  intro s f x c trig named ended bad
  have fault_iff (k : Nat) : (c.tokens.get k).fault = true ↔ bad k := Token.fault_iff
  refine ⟨fun fine => ?_, fun ks => foundTokens_leaves x ks s, fun k done here bad_ first => ?_, fun k here open_ => ?_, ecTest_eq s,
    ecTmpl_stores s⟩
  · refine ecWait_found (waitReady_iff.2 fun k low mem => (fine k ⟨low, mem⟩).1) (waitFault_eq_none fun k low mem => ?_)
    exact mt (fault_iff k).1 (fine k ⟨low, mem⟩).2
  · intro t dense tinfo status unit12 unit13 op low aligned
    have ready : waitReady c f.b.toS = true := waitReady_iff.2 fun j low mem => done j ⟨low, mem⟩
    have faulted : waitFault c f.b.toS = some k := waitFault_eq_some here.1 here.2 ((fault_iff k).2 bad_) fun j less mem =>
      mt (fault_iff j).1 (first j less ⟨less.trans here.1, mem⟩)
    exact ⟨_, ecWait_traps ready faulted, waitTrap_leaves x k trig s low aligned here.1 status unit12 unit13 op⟩
  · have open_ : waitReady c f.b.toS = false := Bool.eq_false_iff.2 fun ready => open_ (waitReady_iff.1 ready k here.1 here.2)
    refine ⟨_, ecWait_blocks open_, ?_⟩
    obtain ⟨phase, pc, -⟩ := blockCtx_drawn s.env x 0 (s.pkg.modC x fun c => { c with pc := trig })
    exact ⟨phase, pc.trans (congrArg Ctx.pc (Pkg.c_modC_self ..))⟩

end Sys2Proof.Proofs.Tokens

namespace Sys2Proof.Proofs.Kicks

open Machine StorageFrames EngineWrites

/-! ### A kick's notice (R201, R202) -/

/-- The notice of a kick to a core of its own package, as it stands to be offered. -/
def noticeOf (p : Pkg) (c : Cmd) (core : Nat) : Notice where
  id := p.nextNotice
  sender := 512 * p.number + c.ctx
  pkg := bits c.a.toNat 13 8
  core := core
  bytes := noticeBytes p.number (p.lcoreOf (coreOf c.ctx)) c.ctx c
  addr := c.d.toNat % 2 ^ 32
  len := c.c.toNat
  node := c.node
  cmd := c.id

theorem run_target {c : Cmd} {env : Env} {w : Work} {lcore pkg core : Nat} (own : pkg = w.p.number)
    (named : (w.p.node c.node).cores.testBit lcore = true) (place : w.p.pcoreOf lcore = some core) :
    target lcore pkg ⟨env, c⟩ w = .ok (some core) w := by
  unfold target
  simp [Eng.run_bind, Eng.run_read, Eng.run_pkg, own, Eng.run_need _ named, place, Eng.run_pure]

theorem ecKickWork_eq {c : Cmd} {env : Env} {w : Work} {core : Nat} (own : bits c.a.toNat 13 8 = w.p.number)
    (named : (w.p.node c.node).cores.testBit (c.a.toNat % 128) = true) (place : w.p.pcoreOf (c.a.toNat % 128) = some core)
    (buffer : (c.c.toNat % 4 == 0 && (c.c.toNat == 0 ||
      (Eng.localOk (c.d.toNat % 2 ^ 32) c.c.toNat && decide (c.d.toNat % 2 ^ 32 < 0x2000000)))) = true) :
    ecKickWork c ⟨env, c⟩ w = .ok () { w with p :=
      ({ w.p with notices := w.p.notices ++ [noticeOf w.p c core], nextNotice := w.p.nextNotice + 1 }).modCmd c.id fun m =>
        { m with phase := .arrived } } := by
  unfold ecKickWork
  dsimp only
  rw [Eng.run_bind, run_target own named place]
  dsimp only
  rw [Eng.run_bind, Eng.run_need 2 buffer]
  rfl

/-- A kick leaves its notice to be offered, and its token waits. -/
theorem ecKick_stands {c : Cmd} {s : State} {core : Nat} (present : s.pkg.present c.id = true) (own : bits c.a.toNat 13 8 = s.pkg.number)
    (named : (s.pkg.node c.node).cores.testBit (c.a.toNat % 128) = true) (place : s.pkg.pcoreOf (c.a.toNat % 128) = some core)
    (words : c.c.toNat % 4 = 0)
    (buffer : c.c.toNat = 0 ∨ Eng.localOk (c.d.toNat % 2 ^ 32) c.c.toNat = true ∧ c.d.toNat % 2 ^ 32 < 0x2000000) :
    ∃ t, exec (.ecKick c) s = .next t ∧ t.pkg.notices = s.pkg.notices ++ [noticeOf s.pkg c core] ∧
      (t.pkg.cmd c.id).phase = .arrived ∧ SameStorage s.pkg t.pkg := by
  have ok : (c.c.toNat % 4 == 0 && (c.c.toNat == 0 ||
      (Eng.localOk (c.d.toNat % 2 ^ 32) c.c.toNat && decide (c.d.toNat % 2 ^ 32 < 0x2000000)))) = true := by
    simpa [words] using buffer
  have ran := runCmd_accepted present (ecKickWork_eq (env := s.env) (w := Work.of s.pkg c.id) own named place ok)
  generalize left : State.mk s.env _ = t at ran
  have arrived : (t.pkg.cmd c.id).phase = .arrived := by
    rw [← left]
    dsimp only
    rw [Pkg.cmd_modCmd_self, Pkg.cmd_modCmd_self]
    rfl
  refine ⟨t, ?_, by rw [← left]; rfl, arrived, by rw [← left]; exact .of_eq rfl rfl rfl⟩
  show execEcKick c s = _
  rw [execEcKick, ran]
  dsimp only
  rw [if_neg (by rw [arrived]; decide)]

/-! ### What an offer leaves of cores, notices and storage (R203) -/

/-- The part of a core that counts notices (R201). -/
def ring (k : Core) := (k.ringIdx, k.accepted)

theorem ring_modK (p : Pkg) (n : Nat) {f : Core → Core} (keeps : ∀ k, ring (f k) = ring k) (m : Nat) :
    ring ((p.modK n f).k m) = ring (p.k m) := by
  by_cases here : m = n
  · subst here
    rw [Pkg.k_modK_self, keeps]
  · rw [Pkg.k_modK_of_ne _ _ here]

/-- From p to q neither storage nor what any core counts of notices has changed, and the notices are as they were. -/
structure KeepsNotices (p q : Pkg) : Prop where
  parts   : SameParts p q
  rings   : ∀ n, ring (q.k n) = ring (p.k n)
  notices : q.notices = p.notices

theorem KeepsNotices.trans {p q r : Pkg} (a : KeepsNotices p q) (b : KeepsNotices q r) : KeepsNotices p r :=
  ⟨a.parts.trans b.parts, fun n => (b.rings n).trans (a.rings n), b.notices.trans a.notices⟩

theorem KeepsNotices.rfl {p : Pkg} : KeepsNotices p p := ⟨.rfl, fun _ => Eq.refl _, Eq.refl _⟩

theorem keepsNotices_modC (p : Pkg) (x : Nat) (f : Ctx → Ctx) : KeepsNotices p (p.modC x f) :=
  ⟨sameParts_modC p x f, fun _ => rfl, rfl⟩

/-- A change of a core's kick queue. -/
theorem keepsNotices_kickq (p : Pkg) (n : Nat) (f : Core → List Nat) : KeepsNotices p (p.modK n fun k => { k with kickq := f k }) :=
  ⟨sameParts_modK p n _ fun _ => ⟨rfl, rfl, rfl, rfl⟩, ring_modK p n fun _ => rfl, rfl⟩

theorem keepsNotices_shiftWindow (x : Nat) (p : Pkg) : KeepsNotices p (shiftWindow x p) := by
  unfold shiftWindow
  dsimp only
  split
  · split
    · exact (keepsNotices_kickq p _ _).trans (keepsNotices_modC _ x _)
    · exact .rfl
  · exact .rfl

theorem keepsNotices_kickLeave (x id : Nat) (p : Pkg) : KeepsNotices p (kickLeave x id p) :=
  ((keepsNotices_kickq p _ _).trans (keepsNotices_modC _ x _)).trans (keepsNotices_shiftWindow x _)

/-- What follows an acceptance changes no storage and no count. -/
theorem afterAccept_frame (m : Notice) (p : Pkg) :
    SameParts p (afterAccept m p) ∧ ∀ n, ring ((afterAccept m p).k n) = ring (p.k n) := by
  have left : KeepsNotices p (if m.sender / 512 = p.number then kickLeave (p.cmd m.cmd).cmd.ctx m.cmd p else p) := by
    split
    · exact keepsNotices_kickLeave ..
    · exact .rfl
  unfold afterAccept
  extract_lets q
  change KeepsNotices p q at left
  split
  · obtain ⟨ns, cs, o, acknowledged⟩ := Completion.acknowledge_eq m.id q
    rw [acknowledged]
    exact ⟨left.parts.trans (.of_fields rfl rfl rfl), left.rings⟩
  · exact ⟨left.parts, left.rings⟩

/-- An engine's write changes no core's counts of notices. -/
theorem ring_engineWriteBy (carry : List Carry) (after : List Nat) (node n : Nat) (cells : List Host.Cell) (full : List Nat) (p : Pkg)
    (m : Nat) : ring ((engineWriteBy carry after node n cells full p).k m) = ring (p.k m) := by
  have noted : ring ((PerformedStores.notedFull carry n full p).k m) = ring (p.k m) := by
    rw [PerformedStores.notedFull_same carry n full p m]
    rfl
  have conveyed (q : Pkg) : ring ((conveyTags n full after q).k m) = ring (q.k m) := by
    unfold conveyTags
    split
    · rfl
    · exact ring_modK q n (by exact fun _ => rfl) m
  rw [← noted, ← conveyed (PerformedStores.notedFull carry n full p)]
  unfold engineWriteBy
  extract_lets sets p' q
  have written (f : Core → Core) (keeps : ∀ k, ring (f k) = ring k) :
      ring (({ q.modK n f with nextWrite := q.nextWrite + 1 } : Pkg).k m) = ring (q.k m) := ring_modK q n keeps m
  exact written _ fun _ => rfl

/-! ### A notice delivered, or refused (R201, R203) -/

/-- The bytes of a notice with its sequence number in place. -/
def sequenced (m : Notice) (seq : Nat) : List Byte := m.bytes.take 1 ++ [BitVec.ofNat 8 seq] ++ m.bytes.drop 2

/-- A core that has counted a notice of a sender. -/
def countNotice (sender seq : Nat) (k : Core) : Core :=
  { k with ringIdx := (k.ringIdx + 1) % 8, accepted := k.accepted.set sender seq }

theorem deliverNotice_eq (m : Notice) (p : Pkg) :
    let seq := ((p.k m.core).accepted.get m.sender + 1) % 256
    ∃ carry after ns, deliverNotice m p = { (engineWriteBy carry after m.node m.core
      (cellsAt (ringSlot (p.k m.core)) (sequenced m seq)) (wordsOf (ringSlot (p.k m.core)) 32) p).modK m.core (countNotice m.sender seq) with
        notices := ns } := ⟨_, _, _, rfl⟩

theorem deliverNotice_frame (m : Notice) (p : Pkg) :
    let k := p.k m.core
    let seq := (k.accepted.get m.sender + 1) % 256
    let q := deliverNotice m p
    SameParts (engineWrite m.core (cellsAt (ringSlot k) (sequenced m seq)) (wordsOf (ringSlot k) 32) p) q ∧
      ring (q.k m.core) = ((k.ringIdx + 1) % 8, k.accepted.set m.sender seq) := by
  intro k seq q
  obtain ⟨carry, after, ns, delivers⟩ := deliverNotice_eq m p
  rw [show q = _ from delivers]
  generalize writes : engineWriteBy carry after m.node m.core _ _ p = r
  have written : SameParts (engineWrite m.core (cellsAt (ringSlot k) (sequenced m seq)) (wordsOf (ringSlot k) 32) p) r :=
    writes ▸ (sameParts_engineWriteBy [] [] 0 m.core _ _ p).symm.trans (sameParts_engineWriteBy carry after m.node m.core _ _ p)
  have rings : ring (r.k m.core) = (k.ringIdx, k.accepted) := writes ▸ ring_engineWriteBy ..
  refine ⟨(written.trans (sameParts_modK r m.core (countNotice m.sender seq) fun _ => ⟨rfl, rfl, rfl, rfl⟩)).trans (.of_fields rfl rfl rfl), ?_⟩
  show ring ((r.modK m.core (countNotice m.sender seq)).k m.core) = _
  obtain ⟨idx, counts⟩ := Prod.mk.inj rings
  rw [Pkg.k_modK_self]
  simp only [ring, countNotice, idx, counts]

section
variable {env : Env} {m : Notice} {p : Pkg}

theorem offer_delivers (first : waitsBehind p m = false) (own : m.pkg = p.number) (room : ringRoom p m.core = true) :
    offer env m p = afterAccept m (deliverNotice m p) := by
  unfold offer
  rw [first, if_neg Bool.false_ne_true, if_pos own, if_pos room]

/-- A notice refused now. -/
def refuse (clock : Nat) (m : Notice) (p : Pkg) : Pkg :=
  shiftWindow (p.cmd m.cmd).cmd.ctx
    { p with notices := p.notices.map fun e => if e.id = m.id then { e with refusedAt := some clock } else e }

theorem offer_refuses (own : m.pkg = p.number) (full : waitsBehind p m = true ∨ ringRoom p m.core = false) :
    offer env m p = refuse env.clock m p := by
  unfold offer
  extract_lets refuses
  rcases full with behind | full
  · rw [behind]
    rfl
  · rw [if_pos own, full, if_neg Bool.false_ne_true]
    exact ite_self (refuses p)

theorem refuse_frame (clock : Nat) (m : Notice) (p : Pkg) :
    SameParts p (refuse clock m p) ∧ (∀ n, ring ((refuse clock m p).k n) = ring (p.k n)) ∧
      ∀ e ∈ (refuse clock m p).notices, e.id = m.id → e.refusedAt = some clock := by
  generalize marked : p.notices.map (fun e => if e.id = m.id then { e with refusedAt := some clock } else e) = ns
  have keeps := keepsNotices_shiftWindow (p.cmd m.cmd).cmd.ctx { p with notices := ns }
  have refused : refuse clock m p = shiftWindow (p.cmd m.cmd).cmd.ctx { p with notices := ns } := marked ▸ rfl
  rw [refused]
  refine ⟨(SameParts.of_fields rfl rfl rfl : SameParts p { p with notices := ns }).trans keeps.parts, keeps.rings, fun e mem named => ?_⟩
  rw [keeps.notices, ← marked] at mem
  obtain ⟨d, -, rfl⟩ := List.mem_map.1 mem
  split at named <;> rename_i same
  · rw [if_pos same]
  · exact absurd named same

/-- An offer in its own package: delivered, or refused now. -/
theorem offer_leaves (s : State) (own : m.pkg = s.pkg.number) :
    let p := s.pkg
    let k := p.k m.core
    let q := offer s.env m p
    (waitsBehind p m = false → ringRoom p m.core = true →
      SameStorage (engineWrite m.core (cellsAt (ringSlot k)
        (m.bytes.take 1 ++ [BitVec.ofNat 8 ((k.accepted.get m.sender + 1) % 256)] ++ m.bytes.drop 2)) (wordsOf (ringSlot k) 32) p) q ∧
      (q.k m.core).ringIdx = (k.ringIdx + 1) % 8 ∧ (q.k m.core).accepted.get m.sender = (k.accepted.get m.sender + 1) % 256) ∧
    (waitsBehind p m = true ∨ ringRoom p m.core = false → SameStorage p q ∧
      (∀ e ∈ q.notices, e.id = m.id → e.refusedAt = some s.env.clock) ∧ ∀ n, (q.k n).ringIdx = (p.k n).ringIdx) := by
  intro p k q
  constructor
  · intro first room
    have goes : q = afterAccept m (deliverNotice m p) := offer_delivers first own room
    obtain ⟨delivered, ring⟩ := deliverNotice_frame m p
    obtain ⟨after, rings⟩ := afterAccept_frame m (deliverNotice m p)
    obtain ⟨idx, counts⟩ := Prod.mk.inj ((rings m.core).trans ring)
    rw [goes]
    refine ⟨(delivered.trans after).storage, idx, ?_⟩
    rw [counts, NMap.get_set_self]
  · intro full
    have goes : q = refuse s.env.clock m p := offer_refuses own full
    obtain ⟨parts, rings, refused⟩ := refuse_frame s.env.clock m p
    rw [goes]
    exact ⟨parts.storage, refused, fun n => (Prod.mk.inj (rings n)).1⟩

end

/-! ### The rows that offer a notice (R203, R310) -/

section
variable {nid : Nat} {m : Notice} {s : State} (found : s.pkg.notices.find? (fun n => n.id == nid) = some m) (open_ : m.accepted = false)
  (unsent : m.sent = false) (sender : m.sender / 512 = s.pkg.number)
include found open_ unsent sender

theorem noticeOffer_offers (fresh : m.refusedAt = none) : exec (.noticeOffer nid) s = .next { s with pkg := offer s.env m s.pkg } := by
  show execNoticeOffer nid s = _
  simp [execNoticeOffer, found, open_, unsent, sender, fresh]

theorem noticeReoffer_offers {since : Nat} (refused : m.refusedAt = some since)
    (passed : since + backoff s.pkg (coreOf (m.sender % 512)) ≤ s.env.clock) :
    exec (.noticeReoffer nid) s = .next { s with pkg := offer s.env m s.pkg } := by
  show execNoticeReoffer nid s = _
  simp [execNoticeReoffer, found, open_, unsent, sender, refused, passed]

end

theorem noticeReoffer_early {nid since : Nat} {m : Notice} {s : State} (found : s.pkg.notices.find? (fun n => n.id == nid) = some m)
    (refused : m.refusedAt = some since)
    (early : s.env.clock < since + backoff s.pkg (coreOf (m.sender % 512))) : exec (.noticeReoffer nid) s = .next s := by
  show execNoticeReoffer nid s = _
  simp [execNoticeReoffer, found, refused, Nat.not_le.2 early]

/-- Settles O36: a kick's accesses come to its notice; an offer is delivered or refused (`offer_leaves`) whichever row makes it. That a
kick behind an earlier one is refused now is log 38, that words and header are delivered together log 102. -/
theorem kicksAreDelivered : Obligations.KicksAreDelivered := by
  unfold Obligations.KicksAreDelivered
  refine ⟨fun c s present => ?_, fun nid m s => ?_⟩
  · intro lcore n d own named core place words buffer
    obtain ⟨t, goes, notices, arrived, storage⟩ := ecKick_stands present own named place words buffer
    exact ⟨t, noticeOf s.pkg c core, goes, notices, rfl, own, rfl, rfl, rfl, rfl, arrived, rfl, storage⟩
  · intro p k found open_ unsent sender own offered
    have same : m.id = nid := by simpa using List.find?_some found
    have offers {i : Instr} (goes : exec i s = .next { s with pkg := offer s.env m s.pkg }) : offered i := by
      obtain ⟨delivered, refused⟩ := offer_leaves s own
      exact ⟨fun first room => ⟨_, goes, delivered first room⟩, fun full => ⟨_, goes, same ▸ refused full⟩⟩
    exact ⟨fun fresh => offers (noticeOffer_offers found open_ unsent sender fresh),
      fun since refused passed => offers (noticeReoffer_offers found open_ unsent sender refused passed),
      fun since refused early => noticeReoffer_early found refused early⟩

end Sys2Proof.Proofs.Kicks

namespace Sys2Proof.Proofs.Starts

open Machine

/-! ### What a step of a command leaves, by what its accesses come to (R187, R188, R330) -/

/-- Every engine row makes the accesses listed for it, and does nothing else. -/
theorem exec_engineRow : ∀ q ∈ engineRows, ∀ (c : Cmd) (s : State), exec (q.1 c) s = runCmd c (q.2 c) s := by
  intro q mem
  fin_cases mem <;> exact fun _ _ => rfl

/-- The writes of a command that has ended with a status are some of those it had (R188). -/
theorem mem_of_mem_keptWrites {fresh : Nat} {begun : List (Bool × Nat)} {ws : List PWrite} {w : PWrite}
    (h : w ∈ keptWrites fresh begun ws) : w ∈ ws := by
  obtain ⟨q, mem, rfl⟩ := List.mem_map.1 h
  exact List.fst_mem_of_mem_zipIdx (List.mem_filter.1 mem).1

section
variable {c : Cmd} {body : Eng Unit} {s : State} {w : Work} (present : s.pkg.present c.id = true)
include present

theorem runCmd_status {n : Nat} (made : body ⟨s.env, c⟩ (Work.of s.pkg c.id) = .error (.status n) w) :
    runCmd c body s = .next { s with
      pkg := endFaulted c.id n (w.p.modCmd c.id fun m => { w.save m with log := [], parts := [] }) } := by
  simp [runCmd, present, made]

/-- A command that stops where it is, to go on from there. -/
def stopped (id : Nat) (w : Work) : Pkg := w.p.modCmd id fun m => { w.save m with phase := .waiting }

theorem runCmd_held {h : Held} (made : body ⟨s.env, c⟩ (Work.of s.pkg c.id) = .error (.held h) w) :
    runCmd c body s = .next { s with pkg := { stopped c.id w with held := (w.p.held ++ [h]).eraseDups } } := by
  simp [runCmd, present, made, stopped]

theorem runCmd_stops (made : body ⟨s.env, c⟩ (Work.of s.pkg c.id) = .error .wait w ∨
    body ⟨s.env, c⟩ (Work.of s.pkg c.id) = .error .pause w) : runCmd c body s = .next { s with pkg := stopped c.id w } := by
  rcases made with made | made <;> simp [runCmd, present, made, stopped]

theorem runCmd_nodeFails {r : Nat} (made : body ⟨s.env, c⟩ (Work.of s.pkg c.id) = .error (.nodeFail r) w) :
    runCmd c body s = .next { s with pkg := failNode s.env.clock c.node r w.p } := by
  simp [runCmd, present, made]

end

theorem stopped_cmd (id : Nat) (w : Work) : (stopped id w).cmd id = { w.save (w.p.cmd id) with phase := .waiting } :=
  Pkg.cmd_modCmd_self ..

/-- Settles O28: a row of the table makes its accesses by `runCmd`, which has one outcome for each way in which they stop. -/
theorem engineCommandsStart : Obligations.EngineCommandsStart := by
  unfold Obligations.EngineCommandsStart
  intro q row c s w present m made writes next
  have runs {t : State} (ran : runCmd c (q.2 c) s = .next t) : exec (q.1 c) s = .next t := (exec_engineRow q row c s).trans ran
  refine ⟨fun ok => ⟨_, runs (runCmd_accepted present ok), rfl, ?_⟩,
    fun n refused => ⟨_, runs (runCmd_status present refused), rfl, ?_⟩, fun h held => ⟨_, runs (runCmd_held present held), rfl, ?_⟩,
    fun stops => ⟨_, runs (runCmd_stops present stops), rfl, ?_⟩, fun r fails => runs (runCmd_nodeFails present fails)⟩
  · rw [Pkg.cmd_modCmd_self]
    refine ⟨.of_eq rfl rfl rfl, fun n other => Pkg.cmd_modCmd_of_ne _ _ other, fun arrived => ?_, fun open_ => ?_⟩
    · rw [if_pos arrived]
      exact arrived
    · rw [if_neg open_]
      exact ⟨rfl, rfl, rfl, rfl, rfl⟩
  · have ended : (endFaulted c.id n (w.p.modCmd c.id fun m => { w.save m with log := [], parts := [] })).cmd c.id =
        { w.save m with log := [], parts := [], phase := .started, status := n, late := []
                        writes := keptWrites w.p.fresh m.begun writes } := by
      rw [endFaulted, Pkg.drawn_read_cmd, Pkg.cmd_modCmd_self, Pkg.cmd_modCmd_self]
      rfl
    rw [ended]
    exact ⟨.of_eq rfl rfl rfl, rfl, rfl, rfl, rfl, fun x mem => mem_of_mem_keptWrites mem⟩
  · have self : ({ stopped c.id w with held := (w.p.held ++ [h]).eraseDups } : Pkg).cmd c.id = _ := stopped_cmd c.id w
    rw [self]
    exact ⟨.of_eq rfl rfl rfl, rfl, rfl, List.mem_eraseDups.2 (List.mem_append_right _ (List.mem_singleton_self h))⟩
  · rw [stopped_cmd]
    exact ⟨.of_eq rfl rfl rfl, rfl, rfl⟩

end Sys2Proof.Proofs.Starts

namespace Sys2Proof.Proofs.Commands

open Machine

/-! ### Commands whose accesses are all made in one step, quietly (R187) -/

section
variable {i : Instr} {c : Cmd} {s : State} {body : Eng Unit} (row : exec i s = runCmd c body s) (present : s.pkg.present c.id = true)
  (fresh : Fresh (s.pkg.cmd c.id))
include row present fresh

/-- A command whose accesses note walks and draw values alone, and come to writes, late writes and no status. -/
theorem ends_of_laterBy {ws late : List PWrite} {w : Work} {f : Pkg → Prop} (later : LaterBy s.pkg c ws (Work.of s.pkg c.id) w)
    (accepted : body ⟨s.env, c⟩ (Work.of s.pkg c.id) = .ok () { w with late := late })
    (holds : ∀ t n cs, f { s.pkg with tlb := t, fresh := n, cmds := cs }) : Ends i c s 0 (ws.flatMap splitWrite) late f := by
  obtain ⟨u, n, pkg, -⟩ := later.quiet.pkg
  obtain ⟨t, ran, started, g, left⟩ := run_started present fresh (w := { w with late := late }) (by rw [pkg]; rfl)
    (later.stamp.trans fresh.stamp) later.status accepted
  have writes : w.writes = ws := later.writes
  dsimp only at started left
  rw [writes] at started
  rw [pkg] at left
  exact ⟨t, row.trans ran, started, left ▸ .of_eq rfl rfl rfl, left ▸ holds u n _⟩

end

/-! ### Bytes written from an address on -/

theorem setCells_cellsAt (m : Memory) (k : Nat) (bs : List Byte) : m.setCells (cellsAt k bs) = m.setMany k bs := by
  induction bs generalizing m k with
  | nil => rfl
  | cons b bs ih =>
    have first : cellsAt k (b :: bs) = (k, b) :: cellsAt (k + 1) bs := LocalWords.cellsAt_append k [b] bs
    rw [first]
    exact ih (m.set k b) (k + 1)

/-! ### Words of local storage, each read by an access of its own (R98) -/

theorem zip_map_self {α β : Type} (l : List α) (f : α → β) : l.zip (l.map f) = l.map fun x => (x, f x) := by
  rw [← List.zip_map', List.map_id' l]

/-- Bytes at offsets of a range that has been read block by block. -/
theorem bytesFound_blocks {f : Nat → Byte} {g : Nat} (size : BlockSize g) (a n : Nat) :
    Eng.bytesFound (Eng.blocks g a n) ((Eng.blocks g a n).map fun q => .bytes ((List.range q.2).map fun i => f (q.1 + i))) =
      ((List.range n).map fun i => f (a + i)).map some := by
  unfold Eng.bytesFound
  rw [zip_map_self, List.flatMap_map, ← blocks_flatMap size f a n, List.map_flatMap]

theorem bytesThere_some (bs : List Byte) (o n : Nat) : Eng.bytesThere (bs.map some) o n = some ((bs.drop o).take n) := by
  have all (bs : List Byte) : (bs.map some).mapM id = some bs := by
    induction bs with
    | nil => rfl
    | cons b bs ih => simp [ih]
  unfold Eng.bytesThere
  rw [← List.map_drop, ← List.map_take, all]

/-- A block of a range of scratchpad lies in the view of the whole. -/
theorem block_view {a n : Nat} (ok : Eng.localOk a n = true) (low : a < 0x2000000) {q : Nat × Nat} (mem : q ∈ Eng.blocks 4 a n) :
    q.1 < 0x2000000 ∧ decide (spadSize ≤ q.1) = decide (spadSize ≤ a) := by
  obtain ⟨after, inside, -, some_⟩ := blocks_block (.inl rfl) mem
  have size : spadSize = 0x800000 := rfl
  simp only [Eng.localOk, Bool.or_eq_true, Bool.and_eq_true, decide_eq_true_eq] at ok
  rw [decide_eq_decide]
  omega

/-- The byte at an address of its core's scratchpad, as a command reads it through a view. -/
def viewByte (p : Pkg) (c : Cmd) (swzd : Bool) (a : Nat) : Byte :=
  BitVec.ofNat 8 ((Eng.engineWord p (p.cmd c.id) swzd (Eng.spadByte a / 4)).toNat / 256 ^ (Eng.spadByte a % 4))

section
variable {p : Pkg} {c : Cmd} {a n : Nat} (ok : Eng.localOk a n = true) (low : a < 0x2000000)
include ok low

theorem localBytes_blocks : ((Eng.blocks 4 a n).map fun q => Answer.bytes (localBytes p c q.1 q.2)) =
    (Eng.blocks 4 a n).map fun q => .bytes ((List.range q.2).map fun i => viewByte p c (decide (spadSize ≤ a)) (q.1 + i)) :=
  List.map_congr_left fun q mem => by rw [← (block_view ok low mem).2]; rfl

/-- The bytes of a range of scratchpad, found from those of its words. -/
theorem found_words : Eng.bytesFound (Eng.blocks 4 a n) ((Eng.blocks 4 a n).map fun q => .bytes (localBytes p c q.1 q.2)) =
    (localBytes p c a n).map some := by
  rw [localBytes_blocks ok low]
  exact bytesFound_blocks (f := viewByte p c (decide (spadSize ≤ a))) (.inl rfl) a n

/-- The words of a range of scratchpad, each an access of its own. -/
theorem words_quiet (env : Env) {w : Work} (q : Quiet p c w) (clean : Clean p (coreOf c.ctx)) :
    ∃ t, Eng.anyOrder ((Eng.blocks 4 a n).map fun x => Eng.readWord x.1 x.2) ⟨env, c⟩ w =
        .ok ((Eng.blocks 4 a n).map fun x => .bytes (localBytes w.p c x.1 x.2)) t ∧ Later p c w t := by
  obtain ⟨t, reads, later, -⟩ := anyOrder_quiet (v := ⟨env, c⟩) (fun x => x = w.p) (fun x : Nat × Nat => localBytes w.p c x.1 x.2)
    (fun _ => []) (fun x => Eng.readWord x.1 x.2) (Eng.blocks 4 a n) q rfl fun x mem u quiet same =>
      ⟨u, by rw [readWord_quiet env quiet (block_view ok low mem).1 clean, same], .rfl quiet, same⟩
  rw [show ((Eng.blocks 4 a n).flatMap fun _ => ([] : List PWrite)) = [] by simp] at later
  exact ⟨t, reads, later⟩

end

/-- Draws that a read of local storage leaves behind, however many. -/
theorem run_spendLocal {p : Pkg} {c : Cmd} {w : Work} (q : Quiet p c w) (env : Env) (core x : Nat) :
    ∃ t, Eng.spendLocal core x ⟨env, c⟩ w = .ok () t ∧ Later p c w t := by
  unfold Eng.spendLocal
  generalize 0x400000 = each
  exact ⟨_, Eng.run_modPkg _ _ _, q.drawn _⟩

end Sys2Proof.Proofs.Commands

namespace Sys2Proof.Proofs.Synchronising

open Machine Commands

/-! ### Acquires (R208) -/

section
variable {p : Pkg} {c : Cmd} {va k : Nat} {l : Leaf} (env : Env) (served : Served p c va k l) {w : Work} (q : Quiet p c w)
include served q

/-- A read of bytes of one sector from a plainly served address on. -/
theorem readSector_served (n : Nat) :
    ∃ w', Eng.readSector va n ⟨env, c⟩ w = .ok (p.mem.getMany k n) w' ∧ Later p c w w' := by
  obtain ⟨w', placed, later⟩ := place_quiet env served false q
  obtain ⟨t, m, pkg, -⟩ := later.quiet.pkg
  have good : w'.p.badSector.get (k / 32) = false := by rw [pkg]; exact served.sound 0 (by omega)
  have mem : w'.p.mem = p.mem := by rw [pkg]
  refine ⟨w', ?_, later⟩
  unfold Eng.readSector Eng.readPlace
  simp [Eng.run_bind, Eng.run_map, placed, hubCompletion_dram served.dram, Eng.run_pkg, Eng.die, Eng.run_read, good, mem]

/-- The sync word at a plainly served address, read whole. -/
theorem readWord_served (aligned : va % 8 = 0) :
    ∃ w', readWord va ⟨env, c⟩ w = .ok (BitVec.ofNat 64 (natOf (p.mem.getMany k 8))) w' ∧ Later p c w w' := by
  obtain ⟨w', reads, later, -⟩ := readAll_quiet (v := ⟨env, c⟩) (fun _ => True) (fun _ : Nat × Nat => p.mem.getMany k 8)
    (fun x => Eng.readSector x.1 x.2) [(va, 8)] q trivial fun x mem u quiet _ => by
      obtain rfl := List.mem_singleton.1 mem
      obtain ⟨t, reads, later⟩ := readSector_served env served quiet 8
      exact ⟨t, reads, later, trivial⟩
  refine ⟨w', ?_, later⟩
  have one : Eng.blocks 32 va 8 = [(va, 8)] := blocks_one (.inr (.inl rfl)) (by decide) (by omega)
  have bytes : Eng.devRead va 8 ⟨env, c⟩ w = .ok (p.mem.getMany k 8) w' := by
    rw [Eng.devRead, one, reads]
    simp
  unfold readWord Eng.devNum
  simp [Eng.run_bind, Eng.run_map, bytes, Eng.run_pure]

end

section
variable {c : Cmd} {env : Env} {w : Work} (record : Eng.linear (returnAddr c.b) 16 16 = true) (aligned : c.a.toNat % 8 = 0)
  (on : w.p.powerOf (coreOf c.ctx) = 0)
include record aligned on

theorem run_acquireOk : acquireOk c ⟨env, c⟩ w = .ok () w := by
  unfold acquireOk
  rw [Eng.run_bind, Eng.run_need 2 record]
  dsimp only
  rw [Eng.run_bind, Eng.run_need 3 (by simp [aligned])]
  exact awake_on env c w _ on

/-- The write of a return record (R205). -/
def returned (c : Cmd) (old flags : Nat) : PWrite := Eng.localCells (coreOf c.ctx) (returnAddr c.b) (returnRecord old flags)

theorem ecAcqWork_reads {x : Word} {w' : Work} (reads : readWord c.a.toNat ⟨env, c⟩ w = .ok x w') :
    ecAcqWork c ⟨env, c⟩ w = .ok () { w' with late := w'.late ++ [returned c x.toNat 0] } := by
  unfold ecAcqWork
  rw [Eng.run_bind, run_acquireOk record aligned on]
  dsimp only
  rw [Eng.run_bind, reads]
  rfl

/-- What an acquire with a condition does after its tests. -/
def acquireOn (env : Env) (c : Cmd) (m : Command) : Eng Unit := do
  let late := m.timedOut || (c.c != 0 && decide (c.c.toNat ≤ env.dtime))
  if late && m.progress == 1 then writeReturn c m.lastRead 2
  else
    let x ← readWord c.a.toNat
    if late then writeReturn c x.toNat 2
    else if acqCond (bits c.b.toNat 26 24) x c.d then writeReturn c x.toNat 0
    else
      Eng.modSelf fun m => { m with progress := 1, lastRead := x.toNat }
      modify fun w => { w with replay := [], got := [] }
      Eng.wait

theorem ecAcqwWork_eq (cond : bits c.b.toNat 26 24 < 6) :
    ecAcqwWork c ⟨env, c⟩ w = acquireOn env c (w.p.cmd c.id) ⟨env, c⟩ w := by
  have self : Eng.self ⟨env, c⟩ w = .ok (w.p.cmd c.id) w := rfl
  unfold ecAcqwWork
  dsimp only
  rw [Eng.run_bind, Eng.run_need 0x0E (by simpa using cond)]
  dsimp only
  rw [Eng.run_bind, run_acquireOk record aligned on]
  dsimp only
  rw [Eng.run_bind, self]
  rfl

end

theorem late_iff (env : Env) (m : Command) (c : Cmd) :
    (m.timedOut || (c.c != 0 && decide (c.c.toNat ≤ env.dtime))) = true ↔ m.timedOut = true ∨ (c.c ≠ 0 ∧ c.c.toNat ≤ env.dtime) := by
  simp

section
variable {c : Cmd} {env : Env} {m : Command} {w : Work}

theorem acquireOn_last (reached : m.timedOut = true ∨ (c.c ≠ 0 ∧ c.c.toNat ≤ env.dtime)) (read : m.progress = 1) :
    acquireOn env c m ⟨env, c⟩ w = .ok () { w with late := w.late ++ [returned c m.lastRead 2] } := by
  unfold acquireOn
  rw [(late_iff env m c).2 reached, read]
  rfl

variable {x : Word} {w' : Work} (reads : readWord c.a.toNat ⟨env, c⟩ w = .ok x w')
include reads

theorem acquireOn_late (reached : m.timedOut = true ∨ (c.c ≠ 0 ∧ c.c.toNat ≤ env.dtime)) (unread : m.progress ≠ 1) :
    acquireOn env c m ⟨env, c⟩ w = .ok () { w' with late := w'.late ++ [returned c x.toNat 2] } := by
  unfold acquireOn
  rw [(late_iff env m c).2 reached, if_neg (by simpa using unread), Eng.run_bind, reads]
  rfl

variable (early : ¬(m.timedOut = true ∨ (c.c ≠ 0 ∧ c.c.toNat ≤ env.dtime)))
include early

theorem acquireOn_meets (meets : acqCond (bits c.b.toNat 26 24) x c.d = true) :
    acquireOn env c m ⟨env, c⟩ w = .ok () { w' with late := w'.late ++ [returned c x.toNat 0] } := by
  unfold acquireOn
  rw [Bool.eq_false_iff.2 (mt (late_iff env m c).1 early), if_neg (by simp), Eng.run_bind, reads]
  dsimp only
  rw [meets]
  rfl

/-- An acquire keeps the value that does not meet its condition, and waits. -/
theorem acquireOn_waits (fails : acqCond (bits c.b.toNat 26 24) x c.d = false) :
    acquireOn env c m ⟨env, c⟩ w = .error .wait { w' with
      p := w'.p.modCmd c.id fun m => { m with progress := 1, lastRead := x.toNat }, replay := [], got := [] } := by
  unfold acquireOn
  rw [Bool.eq_false_iff.2 (mt (late_iff env m c).1 early), if_neg (by simp), Eng.run_bind, reads]
  dsimp only
  rw [fails]
  rfl

end

/-! ### What a synchronisation command comes to -/

/-- The row starts its command with a return to write, and changes nothing else. -/
def Reads (i : Instr) (c : Cmd) (s : State) (old flags : Nat) : Prop :=
  ∃ t, exec i s = .next t ∧ Started (t.pkg.cmd c.id) 0 [] [returned c old flags] ∧ SameStorage s.pkg t.pkg

/-- The row starts its command with late writes, and has written bytes from a place of device memory on. -/
def Leaves (i : Instr) (c : Cmd) (s : State) (k n : Nat) (bs : List Byte) (late : List PWrite) : Prop :=
  ∃ t, exec i s = .next t ∧ Started (t.pkg.cmd c.id) 0 [] late ∧ (∀ m, t.pkg.k m = s.pkg.k m) ∧
    (∀ z, t.pkg.side.get z = s.pkg.side.get z) ∧ (∀ j < n, t.pkg.mem.get (k + j) = bs.getD j 0) ∧
    ∀ z, z < k ∨ k + n ≤ z → t.pkg.mem.get z = s.pkg.mem.get z

section
variable {i : Instr} {c : Cmd} {s : State} {body : Eng Unit} (row : exec i s = runCmd c body s) (present : s.pkg.present c.id = true)
  (fresh : Fresh (s.pkg.cmd c.id))
include row present fresh

theorem reads_of_later {old flags : Nat} {w : Work} (later : Later s.pkg c (Work.of s.pkg c.id) w)
    (accepted : body ⟨s.env, c⟩ (Work.of s.pkg c.id) = .ok () { w with late := w.late ++ [returned c old flags] }) :
    Reads i c s old flags := by
  have none_ : w.late = [] := later.late
  rw [none_] at accepted
  obtain ⟨t, goes, started, storage, -⟩ := ends_of_laterBy (f := fun _ => True) row present fresh later accepted fun _ _ _ => trivial
  exact ⟨t, goes, started, storage⟩

theorem leaves_of_accepted {k n : Nat} {bs : List Byte} {w : Work} (accepted : Accepted body c s w) (len : bs.length = n)
    (cmd : w.p.cmd c.id = s.pkg.cmd c.id) (core : w.p.core = s.pkg.core) (side : w.p.side = s.pkg.side)
    (mem : w.p.mem = s.pkg.mem.setCells (cellsAt k bs)) (writes : w.writes = []) (stamp : w.stamp = none) (status : w.status = 0) :
    Leaves i c s k n bs w.late := by
  obtain ⟨t, ran, started, g, left⟩ := run_started present fresh cmd stamp status accepted
  rw [writes] at started
  have bytes (z : Nat) : t.pkg.mem.get z = if k ≤ z ∧ z < k + n then bs.getD (z - k) 0 else s.pkg.mem.get z := by
    rw [left, Pkg.modCmd_mem, mem, setCells_cellsAt, Memory.get_setMany, len]
  refine ⟨t, row.trans ran, started, fun m => ?_, fun z => ?_, fun j low => ?_, fun z out => ?_⟩
  · rw [left, Pkg.k, Pkg.modCmd_core, core, Pkg.k]
  · rw [left, Pkg.modCmd_side, side]
  · rw [bytes, if_pos (by omega), Nat.add_sub_cancel_left]
  · rw [bytes, if_neg (by omega)]

end

/-! ### Releases (R104, R209) -/

/-- What the replicas of other dies hold has no part in how an address is served. -/
theorem served_replicas {p : Pkg} {c : Cmd} {va k : Nat} {l : Leaf} (h : Served p c va k l) (rs : List Replica) :
    Served { p with replicas := rs } c va k l :=
  ⟨h.range, h.walk, h.cached, h.kind, h.state, h.writable, h.dirty, h.free, h.unstaged, h.place, h.dram, h.plane, h.repair, h.sound⟩

theorem run_releaseWait {c : Cmd} {env : Env} {w : Work} {va : Nat} (performed : covered w.p c va = false) :
    ∃ rs, Eng.releaseWait va ⟨env, c⟩ w = .ok () { w with p := { w.p with replicas := rs } } := by
  unfold Eng.releaseWait
  rw [Eng.run_bind, Eng.run_read]
  dsimp only
  rw [Eng.run_bind, Eng.run_pkg]
  dsimp only
  rw [performed]
  exact ⟨_, rfl⟩

section
variable {c : Cmd} {s : State} {l : Leaf} {k : Nat} (present : s.pkg.present c.id = true) (fresh : Fresh (s.pkg.cmd c.id))
include present fresh

theorem ecRel_leaves (served : Served s.pkg c c.a.toNat k l) (aligned : c.a.toNat % 8 = 0) (performed : covered s.pkg c c.a.toNat = false) :
    Leaves (.ecRel c) c s k 8 (bytesOf 8 (if c.b.getLsbD 0 then BitVec.ofNat 64 (natOf (s.pkg.mem.getMany k 8)) + c.d else c.d).toNat)
      [] := by
  obtain ⟨rs, waited⟩ := run_releaseWait (c := c) (env := s.env) (w := Work.of s.pkg c.id) (va := c.a.toNat) performed
  let r : Pkg := { s.pkg with replicas := rs }
  let v : Work := { Work.of s.pkg c.id with p := r }
  have quiet : Quiet r c v := Quiet.start (p := r) fresh
  obtain ⟨w, t, n, stores, writes, late, stamp, status, pkg⟩ :=
    releaseStore_quiet s.env (served_replicas served rs) (c.b.getLsbD 0) c.d quiet
  have accepted : Accepted (ecRelWork c) c s w := by
    unfold Accepted ecRelWork
    rw [Eng.run_bind, Eng.run_need 3 (by simp [aligned])]
    dsimp only
    rw [Eng.run_bind, waited]
    exact stores
  have none_ : w.late = [] := late
  have leaves := leaves_of_accepted (i := .ecRel c) (k := k) rfl present fresh accepted (bytesOf_length 8 _) (by rw [pkg]; rfl)
    (by rw [pkg]; rfl) (by rw [pkg]; rfl) (by rw [pkg]; rfl) writes (stamp.trans fresh.stamp) status
  rwa [none_] at leaves

end

/-! ### Atomics (R205, R206) -/

/-- The one access of an atomic: it reads its element, and updates it where its operation does. -/
def amoAccess (c : Cmd) : Eng (List Byte) := do
  let op := opCode c.b
  let n := atomicBytes (opType c.b)
  let w ← Eng.place c.a.toNat (op != 0)
  let p ← Eng.pkg
  if p.badSector.get (w.1 / 32) then Eng.uncorrectable c.a.toNat (some w.1)
  if w.2 then Eng.modPkg (observeNew c.ctx (w.1 / 32))
  let bs := p.mem.getMany w.1 n
  let r := atomicNew op (opType c.b) (natOf bs) (c.d.toNat % 2 ^ (8 * n)) (c.c.toNat % 2 ^ (8 * n))
  let env := (← read).env
  if op != 0 then Eng.modPkg (performW env c.id (.dev none w.2 (cellsAt w.1 (bytesOf n r.1))))
  return bs

/-- An atomic's result on an element's old value (R206). -/
def amoResult (c : Cmd) (old : Nat) : Nat × Bool :=
  atomicNew (opCode c.b) (opType c.b) old (c.d.toNat % 2 ^ (8 * atomicBytes (opType c.b))) (c.c.toNat % 2 ^ (8 * atomicBytes (opType c.b)))

section
variable {c : Cmd} {env : Env} {w : Work}

theorem ecAmoWork_eq (defined : atomicOk (opCode c.b) (opType c.b) = true) (record : Eng.linear (returnAddr c.b) 16 16 = true)
    (aligned : c.a.toNat % atomicBytes (opType c.b) = 0) (first : atomicBehind w.p c (opCode c.b) [c.a.toNat] = false)
    (on : w.p.powerOf (coreOf c.ctx) = 0) {bs : List Byte} {w' : Work} (makes : Eng.access (amoAccess c) ⟨env, c⟩ w = .ok bs w') :
    ecAmoWork c ⟨env, c⟩ w = .ok () { w' with late := w'.late ++ [returned c (natOf bs) (b2n (amoResult c (natOf bs)).2)] } := by
  unfold ecAmoWork
  rw [Eng.run_bind, Eng.run_need 0x0E defined]
  dsimp only
  rw [Eng.run_bind, Eng.run_need 2 record]
  dsimp only
  rw [Eng.run_bind, Eng.run_need 3 (by simp [aligned])]
  dsimp only
  rw [Eng.run_bind, Eng.run_pkg]
  dsimp only
  rw [first, if_neg Bool.false_ne_true, Eng.run_bind, awake_on env c w _ on]
  dsimp only
  change (Eng.access (amoAccess c) >>= fun old => writeReturn c (natOf old) (b2n (amoResult c (natOf old)).2)) ⟨env, c⟩ w = _
  rw [Eng.run_bind, makes]
  rfl

variable {p : Pkg} {k : Nat} {l : Leaf} (served : Served p c c.a.toNat k l) (q : Quiet p c w)
include served q

/-- The place that an atomic's access goes to, in a sound sector. -/
theorem place_sound (wr : Bool) : ∃ w', Eng.place c.a.toNat wr ⟨env, c⟩ w = .ok (k, false) w' ∧ Later p c w w' ∧
    w'.p.badSector.get (k / 32) = false ∧ w'.p.mem.getMany k (atomicBytes (opType c.b)) = p.mem.getMany k (atomicBytes (opType c.b)) := by
  obtain ⟨w', placed, later⟩ := place_quiet env served wr q
  obtain ⟨t, n, pkg, -⟩ := later.quiet.pkg
  exact ⟨w', placed, later, by rw [pkg]; exact served.sound 0 (by omega), by rw [pkg]⟩

theorem amoAccess_reads (load : opCode c.b = 0) :
    ∃ w', amoAccess c ⟨env, c⟩ w = .ok (p.mem.getMany k (atomicBytes (opType c.b))) w' ∧ Later p c w w' := by
  obtain ⟨w', placed, later, good, mem⟩ := place_sound (env := env) served q false
  refine ⟨w', ?_, later⟩
  unfold amoAccess
  simp [Eng.run_bind, Eng.run_map, load, placed, Eng.run_pkg, good, Eng.run_read, mem]

theorem amoAccess_updates (update : opCode c.b ≠ 0) :
    let bs := p.mem.getMany k (atomicBytes (opType c.b))
    ∃ w', Later p c w w' ∧ amoAccess c ⟨env, c⟩ w = .ok bs { w' with
      p := performW env c.id (.dev none false (cellsAt k (bytesOf (atomicBytes (opType c.b)) (amoResult c (natOf bs)).1))) w'.p } := by
  obtain ⟨w', placed, later, good, mem⟩ := place_sound (env := env) served q (opCode c.b != 0)
  refine ⟨w', later, ?_⟩
  unfold amoAccess
  simp [Eng.run_bind, Eng.run_map, placed, Eng.run_pkg, good, Eng.run_read, mem, update, Eng.run_modPkg, amoResult]

end

/-- A write to device memory of a command that has no other left. -/
theorem performW_dev (env : Env) (id : Nat) (cells : List Host.Cell) {p : Pkg} (none_ : (p.cmd id).writes = []) :
    ∃ cs, performW env id (.dev none false cells) p = { writeCells cells p with cmds := cs } ∧
      (performW env id (.dev none false cells) p).cmd id = p.cmd id := by
  show ∃ cs, beginSector id (.dev none false cells) (writeCells cells p) = _ ∧ (beginSector id (.dev none false cells) (writeCells cells p)).cmd id = _
  unfold beginSector
  cases sectorOf (.dev none false cells) with
  | none => exact ⟨_, rfl, rfl⟩
  | some sector =>
    refine ⟨_, rfl, ?_⟩
    have same : (writeCells cells p).cmd id = p.cmd id := rfl
    rw [Pkg.cmd_modCmd_self, same, none_]
    rfl

/-- An access made at once by a quiet command, whatever it changes. -/
theorem access_once {p : Pkg} {c : Cmd} {v : View} {m : Eng (List Byte)} {bs : List Byte} {w t : Work} (q : Quiet p c w)
    (h : m v w = .ok bs t) : Eng.access m v w = .ok bs { t with replay := [], got := .bytes bs :: w.got } := by
  unfold Eng.access
  simp [q.replay, q.whole, h]

section
variable {c : Cmd} {s : State} {l : Leaf} {k : Nat} (present : s.pkg.present c.id = true) (fresh : Fresh (s.pkg.cmd c.id))
  (on : s.pkg.powerOf (coreOf c.ctx) = 0) (served : Served s.pkg c c.a.toNat k l)
  (defined : atomicOk (opCode c.b) (opType c.b) = true) (record : Eng.linear (returnAddr c.b) 16 16 = true)
  (aligned : c.a.toNat % atomicBytes (opType c.b) = 0) (first : atomicBehind s.pkg c (opCode c.b) [c.a.toNat] = false)
include present fresh on served defined record aligned first

theorem ecAmo_reads (load : opCode c.b = 0) :
    let old := natOf (s.pkg.mem.getMany k (atomicBytes (opType c.b)))
    Reads (.ecAmo c) c s old (b2n (amoResult c old).2) := by
  intro old
  obtain ⟨w, reads, later⟩ := amoAccess_reads (env := s.env) served (Quiet.start fresh) load
  obtain ⟨w', makes, later, -⟩ := access_quiet (Quiet.start fresh) reads later
  exact reads_of_later rfl present fresh later
    (ecAmoWork_eq (w := Work.of s.pkg c.id) defined record aligned first on makes)

theorem ecAmo_leaves (update : opCode c.b ≠ 0) :
    let n := atomicBytes (opType c.b)
    let old := natOf (s.pkg.mem.getMany k n)
    Leaves (.ecAmo c) c s k n (bytesOf n (amoResult c old).1) [returned c old (b2n (amoResult c old).2)] := by
  intro n old
  obtain ⟨w, later, updates⟩ := amoAccess_updates (env := s.env) served (Quiet.start fresh) update
  obtain ⟨t, m, pkg, -⟩ := later.quiet.pkg
  have same : w.p.cmd c.id = s.pkg.cmd c.id := by rw [pkg]; rfl
  obtain ⟨cs, written, cmd⟩ := performW_dev s.env c.id (cellsAt k (bytesOf n (amoResult c old).1)) (p := w.p) (by rw [same]; exact fresh.writes)
  have none_ : w.late = [] := later.late
  have makes := ecAmoWork_eq (w := Work.of s.pkg c.id) defined record aligned first on (access_once (Quiet.start fresh) updates)
  dsimp only at makes
  rw [none_] at makes
  refine leaves_of_accepted (k := k) rfl present fresh (body := ecAmoWork c) makes (bytesOf_length n _) (cmd.trans same) ?_ ?_ ?_
    later.writes (later.stamp.trans fresh.stamp) later.status
  all_goals
    dsimp only
    rw [written, pkg]
    rfl

end

/-! ### Atomic vectors (R205 to R207) -/

/-- The element that contribution `i` of an atomic vector is applied to. -/
def element (c : Cmd) (i : Nat) : Nat := c.a.toNat + i * max 1 (bits c.b.toNat 63 40) * atomicBytes (opType c.b)

/-- An atomic vector's contribution to one element, of the bytes of its list. -/
def contribution (p : Pkg) (c : Cmd) (bs : List Byte) (i : Nat) : PWrite :=
  .amo (element c i) none false (placeOf p c.asid (element c i)) (opType c.b) (opCode c.b)
    (BitVec.ofNat 64 (field bs (i * atomicBytes (opType c.b)) (atomicBytes (opType c.b))))

/-- The access of an atomic vector to one element, once the list's bytes have been found. -/
def contribute (c : Cmd) (found : List (Option Byte)) (q : Nat × Nat) : Eng (List Byte) :=
  match Eng.bytesThere found (q.1 * atomicBytes (opType c.b)) (atomicBytes (opType c.b)) with
  | none => throw .pause
  | some bs => do
    let v : Word := BitVec.ofNat 64 (natOf bs)
    if Eng.inOutput (← Eng.pkg) c.node q.2 then
      let l ← Eng.stagedLeaf q.2
      if (← Eng.pkg).badSector.get (l.2 / 32) then Eng.uncorrectable q.2 (some l.2)
      Eng.emitWrite (.amo q.2 (some l.1) false q.2 (opType c.b) (opCode c.b) v)
    else
      let w ← Eng.place q.2 true
      if (← Eng.pkg).badSector.get (w.1 / 32) then Eng.uncorrectable q.2 (some w.1)
      Eng.emitWrite (.amo q.2 none w.2 w.1 (opType c.b) (opCode c.b) v)

theorem atomicBytes_pos (type : Nat) : 0 < atomicBytes type := by
  unfold atomicBytes
  split <;> decide

theorem contribute_quiet {p : Pkg} {c : Cmd} (env : Env) {bs : List Byte} {i : Nat} {w : Work} (q : Quiet p c w)
    (served : Serves p c (element c i) (atomicBytes (opType c.b))) :
    ∃ t, contribute c (bs.map some) (i, element c i) ⟨env, c⟩ w = .ok [] t ∧ LaterBy p c [contribution p c bs i] w t := by
  have plain := served (element c i) (Nat.le_refl _) (Nat.lt_add_of_pos_right (atomicBytes_pos _))
  obtain ⟨t, placed, later⟩ := place_quiet env plain true q
  obtain ⟨u, n, pkg, -⟩ := q.pkg
  obtain ⟨u', n', pkg', -⟩ := later.quiet.pkg
  have unstaged : Eng.inOutput w.p c.node (element c i) = false := by rw [pkg]; exact plain.unstaged
  have sound : t.p.badSector.get (placeOf p c.asid (element c i) / 32) = false := by rw [pkg']; exact plain.sound 0 (by omega)
  refine ⟨{ t with writes := t.writes ++ [contribution p c bs i] }, ?_, ⟨⟨later.quiet.pkg, later.quiet.leaves, later.quiet.whole,
    later.quiet.replay, later.quiet.pending, later.quiet.quiet⟩, by simp [later.writes], later.late, later.stamp, later.status⟩⟩
  unfold contribute
  rw [bytesThere_some]
  simp [Eng.run_bind, Eng.run_pkg, unstaged, placed, sound]
  rfl

theorem contributions_quiet {p : Pkg} {c : Cmd} (env : Env) (bs : List Byte) {n : Nat} {w : Work} (q : Quiet p c w)
    (served : ∀ i < n, Serves p c (element c i) (atomicBytes (opType c.b))) :
    ∃ t, (do discard (Eng.anyOrder (((List.range n).zip ((List.range n).map (element c))).map (contribute c (bs.map some)))); Eng.settle :
        Eng Unit) ⟨env, c⟩ w = .ok () t ∧ LaterBy p c ((List.range n).map (contribution p c bs)) w t := by
  obtain ⟨t, writes, later⟩ := writeAll_quiet (v := ⟨env, c⟩) (fun i => [contribution p c bs i])
    (fun i => contribute c (bs.map some) (i, element c i)) (List.range n) q fun i inside u quiet => by
      exact contribute_quiet env quiet (served i (List.mem_range.1 inside))
  refine ⟨t, ?_, (List.flatMap_pure_eq_map (contribution p c bs) _) ▸ later⟩
  rw [zip_map_self, List.map_map]
  exact writes

/-- Contributions are performed whole, one by one. -/
theorem split_contributions (p : Pkg) (c : Cmd) (bs : List Byte) (is : List Nat) :
    (is.map (contribution p c bs)).flatMap splitWrite = is.map (contribution p c bs) := by
  rw [List.flatMap_map]
  exact List.flatMap_pure_eq_map ..

section
variable {c : Cmd} {s : State} (commuting : commutes (opCode c.b) = true) (defined : atomicOk (opCode c.b) (opType c.b) = true)
  (some_ : 0 < c.c.toNat) (few : c.c.toNat ≤ 2 ^ 20) (low : c.d.toNat + c.c.toNat * atomicBytes (opType c.b) ≤ spadSize)
  (aligned : c.a.toNat % atomicBytes (opType c.b) = 0)
  (first : atomicBehind s.pkg c (opCode c.b) ((List.range c.c.toNat).map (element c)) = false)
include commuting defined some_ few low aligned first

/-- What an atomic vector does once its tests hold. -/
theorem ecAmorWork_eq :
    ecAmorWork c ⟨s.env, c⟩ (Work.of s.pkg c.id) = (do
      Eng.awake (coreOf c.ctx)
      let as ← Eng.anyOrder ((Eng.blocks 4 c.d.toNat (c.c.toNat * atomicBytes (opType c.b))).map fun q => Eng.readWord q.1 q.2)
      Eng.spendLocal (coreOf c.ctx) c.ctx
      discard (Eng.anyOrder (((List.range c.c.toNat).zip ((List.range c.c.toNat).map (element c))).map
        (contribute c (Eng.bytesFound (Eng.blocks 4 c.d.toNat (c.c.toNat * atomicBytes (opType c.b))) as))))
      Eng.settle : Eng Unit) ⟨s.env, c⟩ (Work.of s.pkg c.id) := by
  unfold ecAmorWork
  dsimp only
  rw [Eng.run_bind, Eng.run_need 0x0E (by simp [commuting, defined]; omega)]
  dsimp only
  rw [if_neg (by omega), Eng.run_bind, Eng.run_need 2 (decide_eq_true low)]
  dsimp only
  rw [Eng.run_bind, Eng.run_need 3 (by simp [aligned])]
  dsimp only
  rw [Eng.run_bind, Eng.run_pkg]
  dsimp only
  change (if atomicBehind s.pkg c (opCode c.b) ((List.range c.c.toNat).map (element c)) then _ else _ : Eng Unit) _ _ = _
  rw [first]
  rfl


theorem ecAmor_ends (present : s.pkg.present c.id = true) (fresh : Fresh (s.pkg.cmd c.id)) (clean : Clean s.pkg (coreOf c.ctx))
    (served : ∀ i < c.c.toNat, Serves s.pkg c (element c i) (atomicBytes (opType c.b))) :
    Ends (.ecAmor c) c s 0 ((List.range c.c.toNat).map
      (contribution s.pkg c (localBytes s.pkg c c.d.toNat (c.c.toNat * atomicBytes (opType c.b))))) [] fun _ => True := by
  have ok : Eng.localOk c.d.toNat (c.c.toNat * atomicBytes (opType c.b)) = true := by
    rw [Eng.localOk, decide_eq_true low]
    rfl
  have view : c.d.toNat < 0x2000000 := by
    have size : spadSize = 0x800000 := rfl
    omega
  obtain ⟨t, reads, toRead⟩ := words_quiet ok view s.env (Quiet.start fresh) clean
  obtain ⟨u, drawn, toDrawn⟩ := run_spendLocal toRead.quiet s.env (coreOf c.ctx) c.ctx
  obtain ⟨v, writes, toWritten⟩ := contributions_quiet s.env
    (localBytes s.pkg c c.d.toNat (c.c.toNat * atomicBytes (opType c.b))) toDrawn.quiet served
  have later := (toRead.trans toDrawn).trans toWritten
  have accepted : ecAmorWork c ⟨s.env, c⟩ (Work.of s.pkg c.id) = .ok () { v with late := [] } := by
    rw [ecAmorWork_eq commuting defined some_ few low aligned first, Eng.run_bind, awake_on s.env c (Work.of s.pkg c.id) _ clean.1]
    dsimp only
    rw [Eng.run_bind, reads]
    dsimp only
    rw [Eng.run_bind, drawn]
    dsimp only
    rw [show (Work.of s.pkg c.id).p = s.pkg from rfl, found_words ok view, writes, show [] = v.late from later.late.symm]
  have ends := ends_of_laterBy (i := .ecAmor c) (f := fun _ => True) rfl present fresh later accepted fun _ _ _ => trivial
  rwa [List.nil_append, List.nil_append, split_contributions] at ends

end

/-! ### The obligation -/

section
variable {c : Cmd} {s : State} {l : Leaf} {k : Nat} (present : s.pkg.present c.id = true) (fresh : Fresh (s.pkg.cmd c.id))
  (on : s.pkg.powerOf (coreOf c.ctx) = 0) (record : Eng.linear (returnAddr c.b) 16 16 = true) (aligned : c.a.toNat % 8 = 0)
include present fresh on record aligned

theorem ecAcq_reads (served : Served s.pkg c c.a.toNat k l) :
    Reads (.ecAcq c) c s (BitVec.ofNat 64 (natOf (s.pkg.mem.getMany k 8))).toNat 0 := by
  obtain ⟨w, reads, later⟩ := readWord_served s.env served (Quiet.start fresh) aligned
  exact reads_of_later rfl present fresh later (ecAcqWork_reads (w := Work.of s.pkg c.id) record aligned on reads)

section
variable (cond : bits c.b.toNat 26 24 < 6)
include cond

theorem ecAcqw_last (reached : (s.pkg.cmd c.id).timedOut = true ∨ (c.c ≠ 0 ∧ c.c.toNat ≤ s.env.dtime))
    (read : (s.pkg.cmd c.id).progress = 1) : Reads (.ecAcqw c) c s (s.pkg.cmd c.id).lastRead 2 :=
  reads_of_later rfl present fresh (.rfl (Quiet.start fresh))
    ((ecAcqwWork_eq (w := Work.of s.pkg c.id) record aligned on cond).trans (acquireOn_last reached read))

variable (served : Served s.pkg c c.a.toNat k l)
include served

theorem ecAcqw_late (reached : (s.pkg.cmd c.id).timedOut = true ∨ (c.c ≠ 0 ∧ c.c.toNat ≤ s.env.dtime))
    (unread : (s.pkg.cmd c.id).progress ≠ 1) :
    Reads (.ecAcqw c) c s (BitVec.ofNat 64 (natOf (s.pkg.mem.getMany k 8))).toNat 2 := by
  obtain ⟨w, reads, later⟩ := readWord_served s.env served (Quiet.start fresh) aligned
  exact reads_of_later rfl present fresh later
    ((ecAcqwWork_eq (w := Work.of s.pkg c.id) record aligned on cond).trans (acquireOn_late reads reached unread))

variable (early : ¬((s.pkg.cmd c.id).timedOut = true ∨ (c.c ≠ 0 ∧ c.c.toNat ≤ s.env.dtime)))
include early

theorem ecAcqw_meets (meets : acqCond (bits c.b.toNat 26 24) (BitVec.ofNat 64 (natOf (s.pkg.mem.getMany k 8))) c.d = true) :
    Reads (.ecAcqw c) c s (BitVec.ofNat 64 (natOf (s.pkg.mem.getMany k 8))).toNat 0 := by
  obtain ⟨w, reads, later⟩ := readWord_served s.env served (Quiet.start fresh) aligned
  exact reads_of_later rfl present fresh later
    ((ecAcqwWork_eq (w := Work.of s.pkg c.id) record aligned on cond).trans (acquireOn_meets reads early meets))

theorem ecAcqw_waits (fails : acqCond (bits c.b.toNat 26 24) (BitVec.ofNat 64 (natOf (s.pkg.mem.getMany k 8))) c.d = false) :
    ∃ t, exec (.ecAcqw c) s = .next t ∧ SameStorage s.pkg t.pkg ∧ (t.pkg.cmd c.id).phase = .waiting ∧
      (t.pkg.cmd c.id).progress = 1 ∧ (t.pkg.cmd c.id).lastRead = (BitVec.ofNat 64 (natOf (s.pkg.mem.getMany k 8))).toNat := by
  obtain ⟨w, reads, later⟩ := readWord_served s.env served (Quiet.start fresh) aligned
  obtain ⟨t, n, pkg, -⟩ := later.quiet.pkg
  have waits := (ecAcqwWork_eq (w := Work.of s.pkg c.id) record aligned on cond).trans (acquireOn_waits (m := s.pkg.cmd c.id) reads early fails)
  refine ⟨_, Starts.runCmd_stops present (.inl waits), ?_, ?_⟩
  · dsimp only [Starts.stopped]
    rw [pkg]
    exact .of_eq rfl rfl rfl
  · dsimp only
    rw [Starts.stopped_cmd]
    simp [Work.save]

end

end

/-- Settles O29: each row's accesses are made at a place that is served, and come to the return or the bytes that it states. -/
theorem syncCommands : Obligations.SyncCommands := by
  unfold Obligations.SyncCommands
  intro c s l k present fresh on p m a x ret reads leaves record
  refine ⟨fun served aligned linear => ?_, fun cond aligned linear => ⟨fun reached read => ?_, fun served => ⟨fun reached unread => ?_,
    fun early meets => ?_, fun early fails => ?_⟩⟩, fun served aligned performed => ?_,
    fun served defined linear aligned first => ⟨fun update => ?_, fun load => ?_⟩,
    fun commuting defined some_ few low aligned served first clean => ?_⟩
  · exact ecAcq_reads present fresh on linear aligned served
  · exact ecAcqw_last present fresh on linear aligned cond reached read
  · exact ecAcqw_late present fresh on linear aligned cond served reached unread
  · exact ecAcqw_meets present fresh on linear aligned cond served early meets
  · exact ecAcqw_waits present fresh on linear aligned cond served early fails
  · exact ecRel_leaves present fresh served aligned performed
  · exact ecAmo_leaves present fresh on served defined linear aligned first update
  · exact ecAmo_reads present fresh on served defined linear aligned first load
  · exact ecAmor_ends commuting defined some_ few low aligned first present fresh clean served

end Sys2Proof.Proofs.Synchronising

namespace Sys2Proof.Proofs.Completing

open Machine

/-! ### A late write whose place the command's own write moves (R87, R349, R363)

The late write has bytes in two pages of an output region, of which the first has a stage page and the second has none yet: the second
byte's place is that of its columned leaf, by the region's shape record. The command's other write gives that record another first
plane, which has failed. -/

/-- A columned leaf of the region whose shape record is at 0x1000. -/
def columned : Leaf := { entry := 4, shapeAt := 0x1000 }

/-- The byte of the record that says the region's first plane. -/
def firstPlane : PWrite := .dev none false [(0x1018, 1)]

/-- A byte in each of two pages. -/
def twoPages : PWrite := .staged columned [(0, 1), (65536, 1)]

/-- A started command with both. -/
def moving : Command := { cmd := { id := 1 }, phase := .started, writes := [firstPlane], late := [twoPages] }

def movingPkg : Pkg :=
  { cmds := [(1, moving)], nodes := [(0, { stage := [(0, 0)] })], failed := [{ tile := 16, plane := 1, group := 0 }],
    ctx := [(0, { tokens := [(0, { cmd := 1 })] })] }

theorem sound_firstPlane : Sound movingPkg 1 firstPlane where
  planes := by decide
  core := fun n h => by cases h
  here := fun k n cells h => by cases h
  adds := fun n add words lines h => by cases h
  staged := fun va h => by cases h
  only := fun h => by cases h

theorem sound_twoPages : Sound movingPkg 1 twoPages where
  planes := by decide
  core := fun n h => by cases h
  here := fun k n cells h => by cases h
  adds := fun n add words lines h => by cases h
  staged := fun va h => by cases h; decide
  only := fun h => by cases h

/-- Once its other write has been performed the late one goes to a failed plane, and the command is held there. -/
theorem held_movingPkg : ∃ t, exec (.tokenComplete 1) { pkg := movingPkg } = .next t ∧ t.pkg.present 1 = true :=
  ⟨_, rfl, by decide⟩

/-- Refutes O38: the late write of `movingPkg` is as `Sound` asks where it stands, and at a failed plane once the command's other write has
been performed, so that the token does not complete. -/
theorem not_tokensComplete : ¬ Obligations.TokensComplete := by
  unfold Obligations.TokensComplete
  intro h
  obtain ⟨t, held, present⟩ := held_movingPkg
  obtain ⟨u, completes, -, -, gone, -⟩ := h 1 { pkg := movingPkg } (by decide) (by decide) (by decide) (by decide) (by decide) (by decide)
    (by decide) (by decide)
    (fun w mem => by
      obtain rfl | rfl : w = firstPlane ∨ w = twoPages := by simpa [movingPkg, moving, Pkg.cmd, NMap.get] using mem
      · exact sound_firstPlane
      · exact sound_twoPages)
    (fun w mem => by
      obtain rfl : w = firstPlane := by simpa [movingPkg, moving, Pkg.cmd, NMap.get] using mem
      exact .inr ⟨fun core add words lines is => (by cases is), by decide⟩)
    (fun w mem core add words lines is => by
      obtain rfl : w = twoPages := by simpa [movingPkg, moving, Pkg.cmd, NMap.get] using mem
      cases is)
  have same : u = t := by
    rw [held] at completes
    injection completes with same
    exact same.symm
  rw [same, present] at gone
  exact Bool.noConfusion gone

end Sys2Proof.Proofs.Completing

namespace Sys2Proof.Proofs.Copies

open Machine Commands

/-! ### The bytes of a range, found by accesses of their own (R98) -/

/-- Accesses to the blocks of a range come to its bytes. -/
def Finds (env : Env) (p : Pkg) (c : Cmd) (w : Work) (size : Nat) (get : Nat → Nat → Eng (List Byte)) (src n : Nat) (bs : List Byte) :
    Prop :=
  ∃ as t, Eng.anyOrder ((Eng.blocks size src n).map fun q => get q.1 q.2) ⟨env, c⟩ w = .ok as t ∧ Later p c w t ∧
    Eng.bytesFound (Eng.blocks size src n) as = bs.map some

section
variable {p : Pkg} {c : Cmd} (env : Env) {src n : Nat} {w : Work} (q : Quiet p c w)
include q

theorem finds_words (ok : Eng.localOk src n = true) (low : src < 0x2000000) (clean : Clean p (coreOf c.ctx)) :
    Finds env p c w 4 Eng.readWord src n (localBytes w.p c src n) := by
  obtain ⟨t, reads, later⟩ := words_quiet ok low env q clean
  exact ⟨_, t, reads, later, found_words ok low⟩

/-- The sectors of a range of device memory that is served plainly, each an access of its own. -/
theorem sectors_quiet (served : Serves p c src n) :
    ∃ t, Eng.anyOrder ((Eng.blocks 32 src n).map fun x => Eng.readSector x.1 x.2) ⟨env, c⟩ w =
        .ok ((Eng.blocks 32 src n).map fun x => .bytes (bytesAt p c.asid x.1 x.2)) t ∧ Later p c w t := by
  obtain ⟨t, reads, later, -⟩ := anyOrder_quiet (v := ⟨env, c⟩) (fun _ => True) (fun x : Nat × Nat => bytesAt p c.asid x.1 x.2)
    (fun _ => []) (fun x => Eng.readSector x.1 x.2) (Eng.blocks 32 src n) q trivial fun x mem u quiet _ => by
      obtain ⟨after, inside, small, some_⟩ := blocks_block (.inr (.inl rfl)) mem
      obtain ⟨t, reads, later⟩ := readSector_quiet env (Serves.sub served after inside) some_ small quiet
      exact ⟨t, reads, later, trivial⟩
  rw [show ((Eng.blocks 32 src n).flatMap fun _ => ([] : List PWrite)) = [] by simp] at later
  exact ⟨t, reads, later⟩

theorem finds_sectors (served : Serves p c src n) : Finds env p c w 32 Eng.readSector src n (bytesAt p c.asid src n) := by
  obtain ⟨t, reads, later⟩ := sectors_quiet env q served
  exact ⟨_, t, reads, later, bytesFound_blocks (f := fun a => p.mem.get (placeOf p c.asid a)) (.inr (.inl rfl)) src n⟩

end

/-! ### The bytes of a range, put at a destination a block at a time (R98, R192, R194) -/

/-- Writes of bytes to the blocks of a destination, each one write. -/
def Puts (env : Env) (p : Pkg) (c : Cmd) (kd : Nat) (dest : Dest) (dst : Nat) (bs : List Byte) (g : Nat × Nat → PWrite) : Prop :=
  ∀ q ∈ Eng.blocks (sideBlock kd) dst bs.length, ∀ {u : Work}, Quiet p c u →
    ∃ t, writeTo dest (Eng.inRange dst bs.length) (cellsAt q.1 ((bs.drop (q.1 - dst)).take q.2)) ⟨env, c⟩ u = .ok [] t ∧
      LaterBy p c [g q] u t

theorem laterBy_emitted {p : Pkg} {c : Cmd} {u t : Work} (later : Later p c u t) (x : PWrite) :
    LaterBy p c [x] u { t with writes := t.writes ++ [x] } :=
  ⟨⟨later.quiet.pkg, later.quiet.leaves, later.quiet.whole, later.quiet.replay, later.quiet.pending, later.quiet.quiet⟩,
    by simp [later.writes], later.late, later.stamp, later.status⟩

theorem headD_cellsAt {bs : List Byte} (some_ : 0 < bs.length) (a : Nat) : ((cellsAt a bs).headD (0, 0)).1 = a := by
  cases bs with
  | nil => cases some_
  | cons b bs => simp [cellsAt, List.range_succ_eq_map]

theorem cellsAt_sub {a k : Nat} (low : k ≤ a) (bs : List Byte) : (cellsAt a bs).map (fun c => (c.1 - k, c.2)) = cellsAt (a - k) bs := by
  unfold cellsAt
  rw [List.map_map]
  refine List.map_congr_left fun q _ => ?_
  dsimp only [Function.comp_apply]
  rw [Nat.sub_add_comm low]

section
variable {p : Pkg} {c : Cmd} (env : Env) {dst : Nat} {bs : List Byte}

theorem puts_sectors (served : Serves p c dst bs.length) : Puts env p c 0 .dev dst bs fun q =>
    .dev (some q.1) false (cellsAt (placeOf p c.asid q.1) ((bs.drop (q.1 - dst)).take q.2)) := by
  intro q mem u quiet
  obtain ⟨after, inside, small, some_⟩ := blocks_block (.inr (.inl rfl)) mem
  obtain ⟨t, goes, later⟩ := sectorWrite_quiet env (Serves.sub served after inside) (bs := (bs.drop (q.1 - dst)).take q.2)
    (by simp; omega) some_ quiet
  refine ⟨_, ?_, laterBy_emitted later _⟩
  unfold writeTo
  dsimp only
  rw [Eng.run_bind, goes]
  rfl

/-- Bytes of one word, put in a core's storage. -/
theorem writeTo_core {core a : Nat} (whole : Nat → Bool) {bs : List Byte} (some_ : 0 < bs.length) {u : Work}
    (on : u.p.powerOf core = 0) :
    writeTo (.core core) whole (cellsAt a bs) ⟨env, c⟩ u = .ok [] { u with writes := u.writes ++ [Eng.wordCells core whole a bs] } := by
  unfold writeTo Eng.wordCells Eng.localCells
  dsimp only
  rw [Eng.run_bind, awake_on env c u core on, headD_cellsAt some_]
  dsimp only
  by_cases low : a < 0x2000000
  · rw [if_neg (by omega), if_pos low]
    dsimp only
    cases whole (a / 64) <;> rfl
  · rw [if_pos (by omega), if_neg low, Eng.run_emitWrite]
    rw [cellsAt_sub (Nat.le_of_not_lt low)]

theorem puts_words {core : Nat} (on : p.powerOf core = 0) : Puts env p c 1 (.core core) dst bs fun q =>
    Eng.wordCells core (Eng.inRange dst bs.length) q.1 ((bs.drop (q.1 - dst)).take q.2) := by
  intro q mem u quiet
  obtain ⟨after, inside, small, some_⟩ := blocks_block (.inl rfl) mem
  obtain ⟨t, n, pkg, -⟩ := quiet.pkg
  exact ⟨_, writeTo_core env _ (by simp; omega) (by rw [pkg]; exact on), laterBy_emitted (.rfl quiet) _⟩

variable {w : Work} {size : Nat} {get : Nat → Nat → Eng (List Byte)} {src kd : Nat} {dest : Dest} {g : Nat × Nat → PWrite}

/-- A copy of consecutive bytes, where they are found at the source and put at the destination. -/
theorem copyRange_quiet (finds : Finds env p c w size get src bs.length bs) (puts : Puts env p c kd dest dst bs g) :
    ∃ t, copyRange size get kd src dst bs.length dest ⟨env, c⟩ w = .ok () t ∧
      LaterBy p c ((Eng.blocks (sideBlock kd) dst bs.length).map g) w t := by
  obtain ⟨as, u, reads, toRead, found⟩ := finds
  obtain ⟨t, writes, toWritten⟩ := writeAll_quiet (v := ⟨env, c⟩) (fun x => [g x])
    (fun q => writeTo dest (Eng.inRange dst bs.length) (cellsAt q.1 ((bs.drop (q.1 - dst)).take q.2)))
    (Eng.blocks (sideBlock kd) dst bs.length) toRead.quiet fun x mem v quiet => by exact puts x mem quiet
  refine ⟨t, ?_, (List.flatMap_pure_eq_map g _) ▸ toRead.trans toWritten⟩
  unfold copyRange
  rw [Eng.run_bind, reads]
  dsimp only
  rw [found]
  simp only [bytesThere_some]
  exact writes

end

/-! ### Copies of a linear range (R192, R193) -/

/-- What a linear copy without a stamp does, its operands accepted. -/
theorem ecCopylWork_eq {c : Cmd} {ks kd : Nat} (unstamped : c.b.getLsbD 4 = false) (some_ : 0 < c.c.toNat) (fits : c.c.toNat < 2 ^ 32)
    (kinds : c.b.toNat % 4 = ks ∧ c.b.toNat / 4 % 4 = kd) (known : ks < 2 ∧ kd < 3)
    (source : sideOk ks (sideAddr ks c.a.toNat) c.c.toNat = true) (place : sideOk kd (sideAddr kd c.d.toNat) c.c.toNat = true) (v : View)
    (w : Work) :
    ecCopylWork c v w = (do
      let dest ← destOf kd c.d.toNat
      if ks != 0 then Eng.awake (coreOf c.ctx)
      copyRange (sideBlock ks) (sideRead ks) kd (sideAddr ks c.a.toNat) (sideAddr kd c.d.toNat) c.c.toNat dest
      if ks != 0 then Eng.spendLocal (coreOf c.ctx) c.ctx : Eng Unit) v w := by
  obtain ⟨rfl, rfl⟩ := kinds
  have accepted : copyKinds c.b.toNat v w = .ok (c.b.toNat % 4, c.b.toNat / 4 % 4) w := by
    unfold copyKinds
    rw [Eng.run_bind, Eng.run_need 0x0E (by simp [known])]
    rfl
  unfold ecCopylWork
  rw [Eng.run_bind, accepted]
  dsimp only
  rw [Eng.run_bind, Eng.run_need 0x0E (decide_eq_true fits)]
  dsimp only
  rw [unstamped, Bool.not_false, Bool.true_or, Eng.run_bind, Eng.run_need 3 rfl]
  dsimp only
  rw [Eng.run_bind, Eng.run_need 2 (by rw [source, place]; rfl)]
  dsimp only
  rw [withStamp, if_neg Bool.false_ne_true, if_pos (by simpa using Nat.pos_iff_ne_zero.1 some_)]

theorem copyl_quiet {p : Pkg} {c : Cmd} {env : Env} {w : Work} {ks kd src dst : Nat} {bs : List Byte} {dest : Dest}
    {g : Nat × Nat → PWrite} (q : Quiet p c w) (on : p.powerOf (coreOf c.ctx) = 0)
    (named : ∀ {u}, destOf kd c.d.toNat ⟨env, c⟩ u = .ok dest u) (finds : Finds env p c w (sideBlock ks) (sideRead ks) src bs.length bs)
    (puts : Puts env p c kd dest dst bs g) :
    ∃ t, (do
        let dest ← destOf kd c.d.toNat
        if ks != 0 then Eng.awake (coreOf c.ctx)
        copyRange (sideBlock ks) (sideRead ks) kd src dst bs.length dest
        if ks != 0 then Eng.spendLocal (coreOf c.ctx) c.ctx : Eng Unit) ⟨env, c⟩ w = .ok () t ∧
      LaterBy p c ((Eng.blocks (sideBlock kd) dst bs.length).map g) w t := by
  obtain ⟨t, copies, later⟩ := copyRange_quiet env finds puts
  obtain ⟨u, n, pkg, -⟩ := q.pkg
  rw [Eng.run_bind, named]
  dsimp only
  by_cases device : ks = 0
  · rw [if_neg (by simpa using device), Eng.run_bind, copies]
    dsimp only
    rw [if_neg (by simpa using device)]
    exact ⟨t, rfl, later⟩
  · obtain ⟨v, spent, toSpent⟩ := run_spendLocal later.quiet env (coreOf c.ctx) c.ctx
    rw [if_pos (by simpa using device), Eng.run_bind, awake_on env c w _ (by rw [pkg]; exact on)]
    dsimp only
    rw [Eng.run_bind, copies]
    dsimp only
    rw [if_pos (by simpa using device), spent]
    have whole := later.trans toSpent
    rw [List.append_nil] at whole
    exact ⟨v, rfl, whole⟩

theorem bytesAt_length (p : Pkg) (asid va n : Nat) : (bytesAt p asid va n).length = n := by simp [bytesAt]
theorem localBytes_length (p : Pkg) (c : Cmd) (a n : Nat) : (localBytes p c a n).length = n := by simp [localBytes]

theorem sideOk_local {a n : Nat} (ok : Eng.localOk a n = true) : sideOk 1 a n = true := by
  unfold sideOk
  rw [ok]
  simp

/-- A package with the tiles and the channels of another. -/
def Apart (p q : Pkg) : Prop := q.tiles = p.tiles ∧ q.chans = p.chans

section
variable {c : Cmd} {s : State} (present : s.pkg.present c.id = true) (fresh : Fresh (s.pkg.cmd c.id))
  (on : s.pkg.powerOf (coreOf c.ctx) = 0) (unstamped : c.b.getLsbD 4 = false) (fits : c.c.toNat < 2 ^ 32)
include present fresh on unstamped fits

theorem ecCopyl_ends {ks kd : Nat} {bs : List Byte} {dest : Dest} {g : Nat × Nat → PWrite} (some_ : 0 < c.c.toNat) (len : bs.length = c.c.toNat)
    (kind : c.b.toNat % 16 = ks + 4 * kd) (known : ks < 2 ∧ kd < 3)
    (source : sideOk ks (sideAddr ks c.a.toNat) c.c.toNat = true) (place : sideOk kd (sideAddr kd c.d.toNat) c.c.toNat = true)
    (named : ∀ {u}, destOf kd c.d.toNat ⟨s.env, c⟩ u = .ok dest u)
    (finds : Finds s.env s.pkg c (Work.of s.pkg c.id) (sideBlock ks) (sideRead ks) (sideAddr ks c.a.toNat) bs.length bs)
    (puts : Puts s.env s.pkg c kd dest (sideAddr kd c.d.toNat) bs g) :
    Ends (.ecCopyl c) c s 0 (((Eng.blocks (sideBlock kd) (sideAddr kd c.d.toNat) bs.length).map g).flatMap splitWrite) [] (Apart s.pkg) := by
  obtain ⟨t, copies, later⟩ := copyl_quiet (Quiet.start fresh) on named finds puts
  rw [len] at copies
  refine ends_of_laterBy (i := .ecCopyl c) rfl present fresh later (late := []) ?_ fun _ _ _ => ⟨rfl, rfl⟩
  rw [ecCopylWork_eq unstamped some_ fits (ks := ks) (kd := kd) (by omega) known source place, copies, show [] = t.late from later.late.symm]

section
variable (some_ : 0 < c.c.toNat)
include some_

section
variable (place : Eng.localOk (c.d.toNat % 2 ^ 32) c.c.toNat = true)
include place

theorem ecCopyl_toLocal {ks : Nat} {bs : List Byte} (len : bs.length = c.c.toNat) (known : ks < 2) (kind : c.b.toNat % 16 = ks + 4)
    (source : sideOk ks (sideAddr ks c.a.toNat) c.c.toNat = true)
    (finds : Finds s.env s.pkg c (Work.of s.pkg c.id) (sideBlock ks) (sideRead ks) (sideAddr ks c.a.toNat) c.c.toNat bs) :
    Ends (.ecCopyl c) c s 0 ((Eng.localWrites (coreOf c.ctx) (c.d.toNat % 2 ^ 32) bs).flatMap splitWrite) [] (Apart s.pkg) :=
  ecCopyl_ends present fresh on unstamped fits (kd := 1) some_ len kind ⟨known, by decide⟩ source (sideOk_local place) rfl
    (by rwa [len]) (puts_words s.env on)

end

theorem ecCopyl_toDevice {ks : Nat} {bs : List Byte} (len : bs.length = c.c.toNat) (known : ks < 2) (kind : c.b.toNat % 16 = ks)
    (place : Serves s.pkg c c.d.toNat c.c.toNat) (source : sideOk ks (sideAddr ks c.a.toNat) c.c.toNat = true)
    (finds : Finds s.env s.pkg c (Work.of s.pkg c.id) (sideBlock ks) (sideRead ks) (sideAddr ks c.a.toNat) c.c.toNat bs) :
    Ends (.ecCopyl c) c s 0 ((granuleWrites s.pkg c.asid c.d.toNat bs).flatMap splitWrite) [] (Apart s.pkg) :=
  ecCopyl_ends present fresh on unstamped fits (kd := 0) some_ len kind ⟨known, by decide⟩ source rfl rfl
    (by rwa [len]) (puts_sectors s.env (by rw [len]; exact place))

end

/-- R192 to R194: a linear copy in each of the four directions. -/
theorem ecCopyl_directions (some_ : 0 < c.c.toNat) :
    let kind := c.b.toNat % 16
    let src := c.a.toNat % 2 ^ 32
    let dst := c.d.toNat % 2 ^ 32
    let n := c.c.toNat
    let ends (ws : List PWrite) : Prop := Ends (.ecCopyl c) c s 0 (ws.flatMap splitWrite) [] (Apart s.pkg)
    (kind = 5 → Clean s.pkg (coreOf c.ctx) → Eng.localOk src n = true → src < 0x2000000 → Eng.localOk dst n = true →
      ends (Eng.localWrites (coreOf c.ctx) dst (localBytes s.pkg c src n))) ∧
    (kind = 4 → Serves s.pkg c c.a.toNat n → Eng.localOk dst n = true →
      ends (Eng.localWrites (coreOf c.ctx) dst (bytesAt s.pkg c.asid c.a.toNat n))) ∧
    (kind = 1 → Clean s.pkg (coreOf c.ctx) → Eng.localOk src n = true → src < 0x2000000 → Serves s.pkg c c.d.toNat n →
      ends (granuleWrites s.pkg c.asid c.d.toNat (localBytes s.pkg c src n))) ∧
    (kind = 0 → Serves s.pkg c c.a.toNat n → Serves s.pkg c c.d.toNat n →
      ends (granuleWrites s.pkg c.asid c.d.toNat (bytesAt s.pkg c.asid c.a.toNat n))) := by
  intro kind src dst n ends
  have start := Quiet.start (c := c) fresh
  refine ⟨fun is clean source low place => ?_, fun is source place => ?_, fun is clean source low place => ?_, fun is source place => ?_⟩
  · exact ecCopyl_toLocal present fresh on unstamped fits some_ place (ks := 1) (localBytes_length ..) (by decide) is (sideOk_local source)
      (finds_words s.env start source low clean)
  · exact ecCopyl_toLocal present fresh on unstamped fits some_ place (ks := 0) (bytesAt_length ..) (by decide) is rfl
      (finds_sectors s.env start source)
  · exact ecCopyl_toDevice present fresh on unstamped fits some_ (ks := 1) (localBytes_length ..) (by decide) is place (sideOk_local source)
      (finds_words s.env start source low clean)
  · exact ecCopyl_toDevice present fresh on unstamped fits some_ (ks := 0) (bytesAt_length ..) (by decide) is place rfl
      (finds_sectors s.env start source)

end

/-! ### Commands that note something of themselves before their accesses (R204, R332) -/

/-- A package that has noted walks and drawn values, and whose commands are others. -/
def Noted (p q : Pkg) : Prop := ∃ t n cs, q = { p with tlb := t, fresh := n, cmds := cs }

/-- A command that is still to be started, and has no write and no status. -/
structure Unstarted (m : Command) : Prop where
  phase  : m.phase ≠ .arrived
  writes : m.writes = []
  status : m.status = 0

theorem ends_of_noted {i : Instr} {c : Cmd} {s : State} {body : Eng Unit} {w : Work} (row : exec i s = runCmd c body s)
    (present : s.pkg.present c.id = true) (accepted : Accepted body c s w) (noted : Noted s.pkg w.p) (unstarted : Unstarted (w.p.cmd c.id))
    (stamp : w.stamp = none) (status : w.status = 0) :
    Ends i c s 0 (w.writes.flatMap splitWrite) w.late (Apart s.pkg) := by
  obtain ⟨t, n, cs, pkg⟩ := noted
  refine ⟨_, row.trans (runCmd_accepted present accepted), ?_, ?_, ?_⟩
  · constructor <;> simp [unstarted.phase, stamp, status, Work.save, unstarted.writes, unstarted.status]
  · dsimp only [Pkg.modCmd]
    rw [pkg]
    exact .of_eq rfl rfl rfl
  · dsimp only [Pkg.modCmd]
    rw [pkg]
    exact ⟨rfl, rfl⟩

/-- The work of a command that has changed what it notes of itself, and is as quiet as before. -/
theorem quiet_modCmd {p : Pkg} {c : Cmd} (fresh : Fresh (p.cmd c.id)) (f : Command → Command) :
    Quiet (p.modCmd c.id f) c { Work.of p c.id with p := p.modCmd c.id f } where
  pkg := ⟨p.tlb, p.fresh, rfl, fun _ mem => .inl mem⟩
  leaves := fun e mem => by simp [Work.of, fresh.leaves] at mem
  whole := fresh.whole
  replay := fresh.log
  pending := rfl
  quiet := rfl

/-! ### Pulls (R204) -/

theorem senderBytes_length (p : Pkg) (kick : Command) (a n : Nat) : (senderBytes p kick a n).length = n := by simp [senderBytes]

/-- What the puller notes of itself takes no part in what it finds. -/
theorem senderBytes_modCmd (p : Pkg) (id k d a n : Nat) :
    let q := p.modCmd id fun m => { m with detail := d }
    senderBytes q (q.cmd k) a n = senderBytes p (p.cmd k) a n := by
  intro q
  by_cases self : k = id
  · have same : q.cmd k = { p.cmd k with detail := d } := by rw [self]; exact Pkg.cmd_modCmd_self ..
    rw [same]
    rfl
  · have same : q.cmd k = p.cmd k := Pkg.cmd_modCmd_of_ne _ _ self
    rw [same]
    rfl

/-- The byte at an address of a sender's scratchpad, as a pull finds it through a view. -/
def pulledByte (p : Pkg) (kick : Command) (swzd : Bool) (a : Nat) : Byte :=
  BitVec.ofNat 8 ((Eng.pulledWord p kick swzd (Eng.spadByte a / 4)).toNat / 256 ^ (Eng.spadByte a % 4))

section
variable {p : Pkg} {c : Cmd} (env : Env) {m : Notice} {src n : Nat} {w : Work} (q : Quiet p c w)
  (clean : Clean p (coreOf (m.sender % 512)))
include q clean

theorem pullWord_quiet : pullWord m src n ⟨env, c⟩ w = .ok (senderBytes w.p (w.p.cmd m.cmd) src n) w := by
  obtain ⟨t, k, pkg, -⟩ := q.pkg
  have sound : (w.p.k (coreOf (m.sender % 512))).poison.get (Eng.spadByte src / 64) = false := by rw [pkg]; exact clean.2 _
  unfold pullWord
  dsimp only
  rw [Eng.run_bind, Eng.run_pkg]
  dsimp only
  rw [Eng.run_bind, awake_on env c w _ (by rw [pkg]; exact clean.1)]
  dsimp only
  rw [sound, if_neg Bool.false_ne_true, Eng.run_bind, Eng.spendWord, Eng.run_bind, Eng.run_get]
  dsimp only
  rw [q.whole]
  rfl

theorem finds_pulled (ok : Eng.localOk src n = true) (low : src < 0x2000000) :
    Finds env p c w 4 (pullWord m) src n (senderBytes w.p (w.p.cmd m.cmd) src n) := by
  obtain ⟨t, reads, later, -⟩ := anyOrder_quiet (v := ⟨env, c⟩) (fun x => x = w.p)
    (fun x : Nat × Nat => (List.range x.2).map fun i => pulledByte w.p (w.p.cmd m.cmd) (decide (spadSize ≤ src)) (x.1 + i))
    (fun _ => []) (fun x => pullWord m x.1 x.2) (Eng.blocks 4 src n) q rfl fun x mem u quiet same =>
      ⟨u, by rw [pullWord_quiet env quiet clean, same, ← (block_view ok low mem).2]; rfl, .rfl quiet, same⟩
  rw [show ((Eng.blocks 4 src n).flatMap fun _ => ([] : List PWrite)) = [] by simp] at later
  exact ⟨_, t, reads, later, bytesFound_blocks (f := pulledByte w.p (w.p.cmd m.cmd) (decide (spadSize ≤ src))) (.inl rfl) src n⟩

theorem pull_quiet {dst : Nat} (ok : Eng.localOk src n = true) (low : src < 0x2000000) (on : p.powerOf (coreOf c.ctx) = 0) :
    ∃ t, (do
        copyRange 4 (pullWord m) 1 src dst n (.core (coreOf c.ctx))
        Eng.spendLocal (coreOf (m.sender % 512)) (m.sender % 512) : Eng Unit) ⟨env, c⟩ w = .ok () t ∧
      LaterBy p c (Eng.localWrites (coreOf c.ctx) dst (senderBytes w.p (w.p.cmd m.cmd) src n)) w t := by
  have len := senderBytes_length w.p (w.p.cmd m.cmd) src n
  obtain ⟨t, copies, later⟩ := copyRange_quiet env (dst := dst) (kd := 1) (by rw [len]; exact finds_pulled env q clean ok low) (puts_words env on)
  obtain ⟨u, spent, toSpent⟩ := run_spendLocal later.quiet env (coreOf (m.sender % 512)) (m.sender % 512)
  rw [len] at copies
  have whole := later.trans toSpent
  rw [List.append_nil] at whole
  refine ⟨u, ?_, whole⟩
  rw [Eng.run_bind, copies]
  exact spent

end

/-- What a pull does once it has its notice. -/
def pullRest (c : Cmd) (n : Notice) : Eng Unit := do
  let off := c.b.toNat % 2 ^ 32
  let len := c.c.toNat
  let d := c.d.toNat % 2 ^ 32
  Eng.need (off % 4 == 0 && len % 4 == 0 && decide (off + len ≤ n.len)) 2
  if len != 0 then
    Eng.need (Eng.localOk d len && decide (d < 0x2000000)) 2
    if n.sender / 512 = (← Eng.pkg).number then
      copyRange 4 (pullWord n) 1 (n.addr + off) d len (.core (coreOf c.ctx))
      Eng.spendLocal (coreOf (n.sender % 512)) (n.sender % 512)
    else
      Eng.need (edgeUp (← Eng.pkg) (n.sender / 512)) 0x10
      Eng.modPkg fun p => (emit (.message (n.sender / 512) {
        source := p.number, target := n.sender / 512, kind := 8, sequence := n.cmd,
        data := bytesOf 8 c.id ++ bytesOf 4 off ++ bytesOf 4 len }) p).modCmd c.id fun m => { m with phase := .arrived }

section
variable {c : Cmd} {m : Notice} (words : c.b.toNat % 2 ^ 32 % 4 = 0 ∧ c.c.toNat % 4 = 0) (some_ : 0 < c.c.toNat)
  (inside : c.b.toNat % 2 ^ 32 + c.c.toNat ≤ m.len) (place : Eng.localOk (c.d.toNat % 2 ^ 32) c.c.toNat = true)
  (linear : c.d.toNat % 2 ^ 32 < 0x2000000)
include words some_ inside place linear

theorem pullRest_eq (v : View) {w : Work} (here : m.sender / 512 = w.p.number) :
    pullRest c m v w = (do
      copyRange 4 (pullWord m) 1 (m.addr + c.b.toNat % 2 ^ 32) (c.d.toNat % 2 ^ 32) c.c.toNat (.core (coreOf c.ctx))
      Eng.spendLocal (coreOf (m.sender % 512)) (m.sender % 512) : Eng Unit) v w := by
  obtain ⟨offset, whole⟩ := words
  unfold pullRest
  rw [Eng.run_bind, Eng.run_need 2 (by rw [offset, whole, decide_eq_true inside]; rfl)]
  dsimp only
  rw [if_pos (by simpa using Nat.pos_iff_ne_zero.1 some_), Eng.run_bind, Eng.run_need 2 (by rw [place, decide_eq_true linear]; rfl)]
  dsimp only
  rw [Eng.run_bind, Eng.run_pkg]
  dsimp only
  rw [if_pos here]

variable {s : State} (slot : 0x7FFF00 ≤ c.a.toNat ∧ c.a.toNat ≤ 0x7FFFE0 ∧ c.a.toNat % 32 = 0)
  (sound : (s.pkg.cmd c.id).badRecord = false) (named : slotNotice s.pkg (coreOf c.ctx) c.local0 = some m)
  (buffer : (field c.local0 0 4).testBit 31 = true) (here : m.sender / 512 = s.pkg.number)
include slot sound named buffer here

/-- What a pull of a notice of its own package does, its operands accepted. -/
theorem ecPullWork_eq :
    ∃ w, ecPullWork c ⟨s.env, c⟩ (Work.of s.pkg c.id) = (do
        copyRange 4 (pullWord m) 1 (m.addr + c.b.toNat % 2 ^ 32) (c.d.toNat % 2 ^ 32) c.c.toNat (.core (coreOf c.ctx))
        Eng.spendLocal (coreOf (m.sender % 512)) (m.sender % 512) : Eng Unit) ⟨s.env, c⟩ w ∧
      (w = Work.of s.pkg c.id ∨
        w = { Work.of s.pkg c.id with p := s.pkg.modCmd c.id fun n => { n with detail := m.id + 1 } }) := by
  obtain ⟨after, before, aligned⟩ := slot
  have good : Eng.soundRecord ⟨s.env, c⟩ (Work.of s.pkg c.id) = .ok () (Work.of s.pkg c.id) := by
    have self : Eng.self ⟨s.env, c⟩ (Work.of s.pkg c.id) = .ok (s.pkg.cmd c.id) (Work.of s.pkg c.id) := rfl
    unfold Eng.soundRecord
    rw [Eng.run_bind, self]
    dsimp only
    rw [sound]
    rfl
  unfold ecPullWork
  dsimp only
  rw [Eng.run_bind, Eng.run_need 2 (by simp [after, before, aligned])]
  dsimp only
  rw [Eng.run_bind, good]
  dsimp only
  rw [Eng.run_bind, Eng.run_pkg]
  dsimp only
  rw [show (Work.of s.pkg c.id).p = s.pkg from rfl, named]
  dsimp only
  rw [Eng.run_bind, Eng.run_need 0x11 buffer]
  dsimp only
  by_cases kept : c.b.getLsbD 32 = true
  · rw [kept, if_neg (by decide)]
    exact ⟨_, pullRest_eq words some_ inside place linear _ here, .inl rfl⟩
  · rw [Bool.eq_false_iff.2 kept, if_pos (by decide)]
    exact ⟨_, pullRest_eq words some_ inside place linear _ here, .inr rfl⟩

/-- R204: a pull of a notice of its own package reads the sender's buffer. -/
theorem ecPull_ends (present : s.pkg.present c.id = true) (fresh : Fresh (s.pkg.cmd c.id)) (on : s.pkg.powerOf (coreOf c.ctx) = 0)
    (source : Eng.localOk (m.addr + c.b.toNat % 2 ^ 32) c.c.toNat = true) (low : m.addr + c.b.toNat % 2 ^ 32 < 0x2000000)
    (clean : Clean s.pkg (coreOf (m.sender % 512))) :
    Ends (.ecPull c) c s 0 ((Eng.localWrites (coreOf c.ctx) (c.d.toNat % 2 ^ 32)
      (senderBytes s.pkg (s.pkg.cmd m.cmd) (m.addr + c.b.toNat % 2 ^ 32) c.c.toNat)).flatMap splitWrite) [] (Apart s.pkg) := by
  obtain ⟨w, does, noted⟩ := ecPullWork_eq words some_ inside place linear slot sound named buffer here
  rcases noted with same | same
  · obtain ⟨t, pulls, later⟩ := pull_quiet s.env (m := m) (dst := c.d.toNat % 2 ^ 32) (Quiet.start fresh) clean source low on
    rw [same, pulls] at does
    refine ends_of_laterBy (i := .ecPull c) rfl present fresh later (late := []) ?_ fun _ _ _ => ⟨rfl, rfl⟩
    rw [does, show [] = t.late from later.late.symm]
  · obtain ⟨t, pulls, later⟩ := pull_quiet s.env (m := m) (dst := c.d.toNat % 2 ^ 32) (quiet_modCmd fresh fun n => { n with detail := m.id + 1 })
      clean source low on
    rw [same, pulls] at does
    dsimp only at later
    rw [senderBytes_modCmd] at later
    obtain ⟨u, n, pkg, -⟩ := later.quiet.pkg
    have self : t.p.cmd c.id = { s.pkg.cmd c.id with detail := m.id + 1 } := by rw [pkg]; exact NMap.get_set_self s.pkg.cmds c.id _
    have ends := ends_of_noted (i := .ecPull c) rfl present does ⟨u, n, _, pkg⟩ (by rw [self]; exact ⟨fresh.phase, fresh.writes, fresh.status⟩)
      (later.stamp.trans fresh.stamp) later.status
    rwa [show t.late = [] from later.late, show t.writes = _ from later.writes] at ends

end

/-! ### Page hashes (R273) -/

section
variable {p : Pkg} {c : Cmd} (env : Env)

theorem hashSector_quiet {va n : Nat} (served : Serves p c va n) (some_ : 0 < n) (small : va % 32 + n ≤ 32) {w : Work} (q : Quiet p c w) :
    ∃ t, hashSector va n ⟨env, c⟩ w = .ok (bytesAt p c.asid va n) t ∧ Later p c w t := by
  have plain := served va (Nat.le_refl _) (Nat.lt_add_of_pos_right some_)
  obtain ⟨u, translated, toLeaf⟩ := translate_quiet env plain false false q
  obtain ⟨x, m, pkg, -⟩ := toLeaf.quiet.pkg
  have dram : isDram (leafPlace u.p (pageLeaf p c.asid va) va) = true := by rw [pkg]; exact plain.dram
  obtain ⟨t, reads, toRead⟩ := readSector_quiet env served some_ small toLeaf.quiet
  refine ⟨t, ?_, toLeaf.trans toRead⟩
  unfold hashSector
  rw [Eng.run_bind, translated]
  dsimp only
  rw [Eng.run_bind, Eng.run_pkg]
  dsimp only
  rw [Eng.run_bind, Eng.run_need 0x39 dram]
  exact reads

/-- A write emitted by an access of its own. -/
theorem write_quiet {w : Work} (q : Quiet p c w) (x : PWrite) : ∃ t, Eng.write x ⟨env, c⟩ w = .ok () t ∧ LaterBy p c [x] w t := by
  obtain ⟨t, emits, later, -⟩ := access_quiet q (Eng.run_emitWrite x ⟨env, c⟩ w) (laterBy_emitted (.rfl q) x)
  refine ⟨t, ?_, later⟩
  unfold Eng.write
  rw [Eng.run_discard, emits]

/-- The write of the hash of page i. -/
def pageHash (p : Pkg) (c : Cmd) (i : Nat) : PWrite :=
  Eng.localCells (coreOf c.ctx) (c.d.toNat + 8 * i) (bytesOf 8
    (phash c.c ((List.range 16).map fun g => bytesAt p c.asid (c.a.toNat + 65536 * i + 4096 * g) 4096)).toNat)

theorem bytesAt_slice (p : Pkg) (asid va : Nat) {n o k : Nat} (inside : o + k ≤ n) :
    ((bytesAt p asid va n).drop o).take k = bytesAt p asid (va + o) k := by
  apply List.ext_getElem
  · simp [bytesAt]
    omega
  · intro i low _
    simp [bytesAt, Nat.add_assoc]

theorem hashPage_quiet {i : Nat} (served : Serves p c (c.a.toNat + 65536 * i) 65536) (on : p.powerOf (coreOf c.ctx) = 0) {w : Work}
    (q : Quiet p c w) : ∃ t, hashPage c i ⟨env, c⟩ w = .ok () t ∧ LaterBy p c [pageHash p c i] w t := by
  obtain ⟨u, reads, toRead, -⟩ := readAll_quiet (v := ⟨env, c⟩) (fun _ => True) (fun x : Nat × Nat => bytesAt p c.asid x.1 x.2)
    (fun x => hashSector x.1 x.2) (Eng.blocks 32 (c.a.toNat + 65536 * i) 65536) q trivial fun x mem v quiet _ => by
      obtain ⟨after, inside, small, some_⟩ := blocks_block (.inr (.inl rfl)) mem
      obtain ⟨t, reads, later⟩ := hashSector_quiet env (Serves.sub served after inside) some_ small quiet
      exact ⟨t, reads, later, trivial⟩
  have bytes : (Eng.blocks 32 (c.a.toNat + 65536 * i) 65536).flatMap (fun x => bytesAt p c.asid x.1 x.2) =
      bytesAt p c.asid (c.a.toNat + 65536 * i) 65536 :=
    blocks_flatMap (.inr (.inl rfl)) (fun a => p.mem.get (placeOf p c.asid a)) _ _
  have granules : ((List.range 16).map fun g => ((bytesAt p c.asid (c.a.toNat + 65536 * i) 65536).drop (4096 * g)).take 4096) =
      (List.range 16).map fun g => bytesAt p c.asid (c.a.toNat + 65536 * i + 4096 * g) 4096 :=
    List.map_congr_left fun g low => bytesAt_slice p c.asid _ (by have := List.mem_range.1 low; omega)
  obtain ⟨x, m, pkg, -⟩ := toRead.quiet.pkg
  obtain ⟨t, writes, toWritten⟩ := write_quiet env toRead.quiet (pageHash p c i)
  refine ⟨t, ?_, toRead.trans toWritten⟩
  unfold hashPage
  rw [Eng.run_bind, reads]
  dsimp only
  rw [Eng.run_bind, awake_on env c u _ (by rw [pkg]; exact on), bytes, granules]
  exact writes

theorem hashPages_quiet (is : List Nat) (served : ∀ i ∈ is, Serves p c (c.a.toNat + 65536 * i) 65536)
    (on : p.powerOf (coreOf c.ctx) = 0) {w : Work} (q : Quiet p c w) :
    ∃ t, hashPages c is ⟨env, c⟩ w = .ok () t ∧ LaterBy p c (is.map (pageHash p c)) w t := by
  induction is generalizing w with
  | nil => exact ⟨w, rfl, .rfl q⟩
  | cons i is ih =>
    obtain ⟨u, hashes, toHashed⟩ := hashPage_quiet env (served i List.mem_cons_self) on q
    obtain ⟨t, rest, toRest⟩ := ih (fun j mem => served j (List.mem_cons_of_mem _ mem)) toHashed.quiet
    refine ⟨t, ?_, toHashed.trans toRest⟩
    have tried : Eng.attempt (hashPage c i) ⟨env, c⟩ w = .ok (.ok ()) u := by
      unfold Eng.attempt
      rw [hashes]
    unfold hashPages
    rw [Eng.run_bind, tried]
    exact rest

end

/-- R273: a `chk` writes the hash of each page. -/
theorem ecxChk_ends {c : Cmd} {s : State} (present : s.pkg.present c.id = true) (fresh : Fresh (s.pkg.cmd c.id))
    (on : s.pkg.powerOf (coreOf c.ctx) = 0) (aligned : c.a.toNat % 65536 = 0)
    (linear : Eng.linear c.d.toNat (8 * (c.b.toNat % 2 ^ 16)) 8 = true) (served : Serves s.pkg c c.a.toNat (65536 * (c.b.toNat % 2 ^ 16))) :
    Ends (.ecxChk c) c s 0 (((List.range (c.b.toNat % 2 ^ 16)).map (pageHash s.pkg c)).flatMap splitWrite) [] (Apart s.pkg) := by
  obtain ⟨t, hashes, later⟩ := hashPages_quiet s.env (List.range (c.b.toNat % 2 ^ 16))
    (fun i low => Serves.sub served (Nat.le_add_right _ _) (by have := List.mem_range.1 low; omega)) on (Quiet.start fresh)
  refine ends_of_laterBy (i := .ecxChk c) rfl present fresh later (late := []) ?_ fun _ _ _ => ⟨rfl, rfl⟩
  rw [show [] = t.late from later.late.symm]
  unfold ecxChkWork
  rw [Eng.run_bind, Eng.run_need 3 (by simp [aligned])]
  dsimp only
  rw [Eng.run_bind, Eng.run_need 2 linear]
  exact hashes

/-! ### Prefetches (R91, R117, R200) -/

/-- A package with other lines on their way, marks and records. -/
def Prefetched (p q : Pkg) : Prop := ∃ ls marks records, q = { p with lines := ls, poisonTbl := marks, faultq := records }

theorem Prefetched.rfl {p : Pkg} : Prefetched p p := ⟨p.lines, p.poisonTbl, p.faultq, Eq.refl _⟩

theorem Prefetched.trans {p q r : Pkg} (a : Prefetched p q) (b : Prefetched q r) : Prefetched p r := by
  obtain ⟨ls, marks, records, rfl⟩ := a
  obtain ⟨ls', marks', records', rfl⟩ := b
  exact ⟨ls', marks', records', Eq.refl _⟩

theorem Prefetched.foldl {α : Type} {f : Pkg → α → Pkg} (each : ∀ p a, Prefetched p (f p a)) (as : List α) (p : Pkg) :
    Prefetched p (as.foldl f p) := by
  induction as generalizing p with
  | nil => exact .rfl
  | cons a as ih => exact (each p a).trans (ih (f p a))

theorem prefetched_markTable (dtime asid va d : Nat) (p : Pkg) : Prefetched p (markTable dtime asid va d p) := by
  unfold markTable
  split
  · exact .rfl
  · exact ⟨p.lines, _, _, rfl⟩

theorem prefetched_prefetchLines (dtime asid va n : Nat) (p : Pkg) : Prefetched p (prefetchLines dtime asid va n p) := by
  refine .foldl (fun p q => ?_) _ p
  split
  · split
    · exact .foldl (fun p i => ⟨_, p.poisonTbl, p.faultq, rfl⟩) _ p
    · exact .rfl
  · exact prefetched_markTable ..
  · exact .rfl

/-- R200: a prefetch changes no byte. -/
theorem ecPref_ends {c : Cmd} {s : State} (present : s.pkg.present c.id = true) (fresh : Fresh (s.pkg.cmd c.id)) :
    Ends (.ecPref c) c s 0 [] [] (Apart s.pkg) := by
  obtain ⟨ls, marks, records, fetched⟩ := prefetched_prefetchLines s.env.dtime c.asid c.a.toNat c.b.toNat s.pkg
  have accepted : Accepted (ecPrefWork c) c s { Work.of s.pkg c.id with p := prefetchLines s.env.dtime c.asid c.a.toNat c.b.toNat s.pkg } :=
    rfl
  obtain ⟨t, ran, started, g, left⟩ := run_started present fresh (by dsimp only; rw [fetched]; rfl) fresh.stamp rfl accepted
  dsimp only at left
  rw [fetched] at left
  exact ⟨t, ran, started, left ▸ .of_eq rfl rfl rfl, left ▸ ⟨rfl, rfl⟩⟩

end Sys2Proof.Proofs.Copies

namespace Sys2Proof.Proofs.Templates

open Machine Commands Copies

/-! ### Values grouped by a key -/

/-- The values at a key of an association list. -/
def valuesAt {α : Type} (m : List (Nat × List α)) (k : Nat) : List α := ((m.find? fun g => g.1 == k).map (·.2)).getD []

/-- Keys rise, and each has a value. -/
def Grouped {α : Type} (m : List (Nat × List α)) : Prop := m.Pairwise (fun a b => a.1 < b.1) ∧ ∀ g ∈ m, g.2 ≠ []

section
variable {α : Type} {m : List (Nat × List α)}

theorem valuesAt_cons (g : Nat × List α) (k : Nat) : valuesAt (g :: m) k = if g.1 = k then g.2 else valuesAt m k := by
  unfold valuesAt
  rw [List.find?_cons]
  by_cases h : g.1 = k
  · rw [if_pos h, beq_iff_eq.2 h]
    rfl
  · rw [if_neg h, beq_eq_false_iff_ne.2 h]

theorem valuesAt_of_lt {k : Nat} (above : ∀ g ∈ m, k < g.1) : valuesAt m k = [] := by
  unfold valuesAt
  rw [List.find?_eq_none.2 fun g mem => by have := above g mem; simp; omega]
  rfl

theorem valuesAt_of_mem (h : Grouped m) {g : Nat × List α} (mem : g ∈ m) : valuesAt m g.1 = g.2 := by
  induction m with
  | nil => cases mem
  | cons e m ih =>
    obtain ⟨rises, some_⟩ := h
    obtain ⟨above, rises⟩ := List.pairwise_cons.1 rises
    rw [valuesAt_cons]
    rcases List.mem_cons.1 mem with rfl | mem
    · exact if_pos rfl
    · rw [if_neg (by have := above g mem; omega)]
      exact ih ⟨rises, fun f inside => some_ f (List.mem_cons_of_mem _ inside)⟩ mem

theorem mem_of_valuesAt {k : Nat} (some_ : valuesAt m k ≠ []) : (k, valuesAt m k) ∈ m := by
  induction m with
  | nil => exact absurd rfl some_
  | cons e m ih =>
    rw [valuesAt_cons] at some_ ⊢
    by_cases h : e.1 = k
    · rw [if_pos h, ← h]
      exact List.mem_cons_self
    · rw [if_neg h] at some_ ⊢
      exact List.mem_cons_of_mem _ (ih some_)

theorem mem_addAt {k : Nat} {x : α} {g : Nat × List α} (mem : g ∈ addAt k x m) : g.1 = k ∨ g ∈ m := by
  induction m with
  | nil => simp_all [addAt]
  | cons e m ih =>
    unfold addAt at mem
    split at mem
    · rcases List.mem_cons.1 mem with rfl | mem
      · exact .inl rfl
      · exact .inr (List.mem_cons_of_mem _ mem)
    · split at mem
      · rcases List.mem_cons.1 mem with rfl | mem
        · exact .inl rfl
        · exact .inr mem
      · rcases List.mem_cons.1 mem with rfl | mem
        · exact .inr List.mem_cons_self
        · exact (ih mem).imp id (List.mem_cons_of_mem _)

theorem grouped_addAt (h : Grouped m) (k : Nat) (x : α) :
    Grouped (addAt k x m) ∧ ∀ j, valuesAt (addAt k x m) j = if j = k then x :: valuesAt m k else valuesAt m j := by
  induction m with
  | nil =>
    refine ⟨⟨List.pairwise_singleton _ _, by simp [addAt]⟩, fun j => ?_⟩
    show valuesAt [(k, [x])] j = _
    rw [valuesAt_cons]
    by_cases same : j = k
    · rw [if_pos same.symm, if_pos same]
      rfl
    · rw [if_neg (Ne.symm same), if_neg same]
  | cons e m ih =>
    obtain ⟨rises, some_⟩ := h
    obtain ⟨above, rises⟩ := List.pairwise_cons.1 rises
    have rest : Grouped m := ⟨rises, fun f inside => some_ f (List.mem_cons_of_mem _ inside)⟩
    unfold addAt
    split
    · next same =>
      refine ⟨⟨List.pairwise_cons.2 ⟨fun g mem => by rw [← same]; exact above g mem, rises⟩, ?_⟩, fun j => ?_⟩
      · intro g mem
        rcases List.mem_cons.1 mem with rfl | mem
        · exact List.cons_ne_nil _ _
        · exact rest.2 g mem
      · rw [valuesAt_cons, valuesAt_cons, valuesAt_cons, if_pos same, same]
        by_cases here : j = k
        · rw [if_pos here, if_pos here.symm]
        · rw [if_neg here, if_neg (Ne.symm here), if_neg (Ne.symm here)]
    · split
      · next other low =>
        have up : ∀ g ∈ e :: m, k < g.1 := fun g mem => by
          rcases List.mem_cons.1 mem with rfl | mem
          · exact low
          · exact low.trans (above g mem)
        refine ⟨⟨List.pairwise_cons.2 ⟨up, List.pairwise_cons.2 ⟨above, rises⟩⟩, ?_⟩, fun j => ?_⟩
        · intro g mem
          rcases List.mem_cons.1 mem with rfl | mem
          · exact List.cons_ne_nil _ _
          · exact some_ g mem
        · rw [valuesAt_of_lt up, valuesAt_cons]
          by_cases here : j = k
          · rw [if_pos here, if_pos here.symm]
          · rw [if_neg here, if_neg (Ne.symm here)]
      · next other high =>
        obtain ⟨⟨rises', some_'⟩, values⟩ := ih rest
        refine ⟨⟨List.pairwise_cons.2 ⟨fun g mem => ?_, rises'⟩, ?_⟩, fun j => ?_⟩
        · rcases mem_addAt mem with same | mem
          · omega
          · exact above g mem
        · intro g mem
          rcases List.mem_cons.1 mem with rfl | mem
          · exact some_ _ List.mem_cons_self
          · exact some_' g mem
        · rw [valuesAt_cons, valuesAt_cons, valuesAt_cons, values, if_neg other]
          by_cases here : j = k
          · rw [if_pos here, if_neg (by omega), if_pos here]
          · rw [if_neg here, if_neg here]

end

section
variable {α : Type} (key : α → Nat) (xs : List α)

theorem grouped_groupBy : Grouped (groupBy key xs) ∧ ∀ k, valuesAt (groupBy key xs) k = xs.filter fun x => key x == k := by
  induction xs with
  | nil => exact ⟨⟨.nil, fun _ mem => nomatch mem⟩, fun _ => rfl⟩
  | cons x xs ih =>
    obtain ⟨grouped, values⟩ := ih
    obtain ⟨grouped', values'⟩ := grouped_addAt grouped (key x) x
    refine ⟨grouped', fun k => ?_⟩
    show valuesAt (addAt (key x) x (groupBy key xs)) k = _
    rw [values', List.filter_cons]
    by_cases same : key x = k
    · rw [if_pos same.symm, beq_iff_eq.2 same, if_pos rfl, ← same, values]
    · rw [if_neg (Ne.symm same), beq_eq_false_iff_ne.2 same, if_neg Bool.false_ne_true, values]

/-- A group holds the values of its key, in their order. -/
theorem group_values {g : Nat × List α} (mem : g ∈ groupBy key xs) : g.2 = xs.filter fun x => key x == g.1 := by
  obtain ⟨grouped, values⟩ := grouped_groupBy key xs
  rw [← valuesAt_of_mem grouped mem, values]

theorem group_ne_nil {g : Nat × List α} (mem : g ∈ groupBy key xs) : g.2 ≠ [] := (grouped_groupBy key xs).1.2 g mem

/-- A value of a group has the group's key, and is one of those grouped. -/
theorem mem_group {g : Nat × List α} (mem : g ∈ groupBy key xs) {x : α} (inside : x ∈ g.2) : x ∈ xs ∧ key x = g.1 := by
  rw [group_values key xs mem] at inside
  obtain ⟨inside, same⟩ := List.mem_filter.1 inside
  exact ⟨inside, beq_iff_eq.1 same⟩

/-- The group of a value. -/
theorem group_of_mem {x : α} (inside : x ∈ xs) : ∃ g ∈ groupBy key xs, g.1 = key x ∧ x ∈ g.2 := by
  obtain ⟨-, values⟩ := grouped_groupBy key xs
  have here : x ∈ valuesAt (groupBy key xs) (key x) := by
    rw [values]
    exact List.mem_filter.2 ⟨inside, beq_self_eq_true _⟩
  exact ⟨_, mem_of_valuesAt (List.ne_nil_of_mem here), rfl, here⟩

theorem find?_group {g : Nat × List α} (mem : g ∈ groupBy key xs) : (groupBy key xs).find? (fun h => h.1 == g.1) = some g := by
  obtain ⟨⟨rises, -⟩, -⟩ := grouped_groupBy key xs
  generalize groupBy key xs = m at mem rises
  induction m with
  | nil => cases mem
  | cons e m ih =>
    obtain ⟨above, rises⟩ := List.pairwise_cons.1 rises
    rw [List.find?_cons]
    rcases List.mem_cons.1 mem with rfl | mem
    · rw [beq_self_eq_true]
    · rw [beq_eq_false_iff_ne.2 (by have := above g mem; omega)]
      exact ih mem rises

/-- Whether a key has so many values. -/
theorem any_groupBy (k : Nat) {n : Nat} (some_ : n ≠ 0) :
    (groupBy key xs).any (fun g => g.1 == k && g.2.length == n) = ((xs.filter fun x => key x == k).length == n) := by
  obtain ⟨grouped, values⟩ := grouped_groupBy key xs
  rw [Bool.eq_iff_iff, List.any_eq_true, beq_iff_eq]
  constructor
  · rintro ⟨g, mem, is⟩
    simp only [Bool.and_eq_true, beq_iff_eq] at is
    obtain ⟨rfl, len⟩ := is
    rw [← group_values key xs mem, len]
  · intro len
    rw [← values] at len
    have held : valuesAt (groupBy key xs) k ≠ [] := List.ne_nil_of_length_pos (by omega)
    exact ⟨_, mem_of_valuesAt held, by simp [len]⟩

end


/-! ### Values without repeats -/

theorem filter_eraseDups {α : Type} [DecidableEq α] (f : α → Bool) (xs : List α) : xs.eraseDups.filter f = (xs.filter f).eraseDups := by
  induction h : xs.length using Nat.strongRecOn generalizing xs with
  | _ n ih =>
    cases xs with
    | nil => rfl
    | cons a as =>
      have rest := ih _ (by rw [← h]; exact Nat.lt_succ_of_le (List.length_filter_le _ _)) (as.filter fun b => !b == a) rfl
      rw [List.eraseDups_cons, List.filter_cons, List.filter_cons, rest, List.filter_comm]
      by_cases good : f a = true
      · rw [if_pos good, if_pos good, List.eraseDups_cons]
      · rw [if_neg good, if_neg good]
        congr 1
        refine List.filter_eq_self.2 fun b mem => ?_
        have : f b = true := (List.mem_filter.1 mem).2
        by_cases same : b = a
        · exact absurd (same ▸ this) good
        · simp [same]

/-! ### What is written of several bytes for one place (R194) -/

section
variable (fresh : Nat) (cells : List Host.Cell)

/-- The byte written of those for a place, the place's number in its list given. -/
def lastAt (q : Nat × Nat) : Host.Cell :=
  match cells.filter fun c => c.1 == q.1 with
  | [c] => c
  | cs => cs.getD (Config.freeNat (fresh + q.2) % cs.length) (q.1, 0)

theorem lastOf_eq : lastOf fresh cells = ((cells.map (·.1)).eraseDups).zipIdx.map (lastAt fresh cells) := by
  unfold lastOf lastAt
  rfl

/-- A place of one of the bytes is written with one of those for it. -/
theorem lastAt_mem {q : Nat × Nat} (place : q ∈ ((cells.map (·.1)).eraseDups).zipIdx) :
    lastAt fresh cells q ∈ cells.filter fun c => c.1 == q.1 := by
  obtain ⟨c, mem, same⟩ := List.mem_map.1 (List.mem_eraseDups.1 (List.fst_mem_of_mem_zipIdx place))
  have some_ : c ∈ cells.filter fun c => c.1 == q.1 := List.mem_filter.2 ⟨mem, beq_iff_eq.2 same⟩
  unfold lastAt
  split
  · next one => exact one ▸ List.mem_singleton_self _
  · rw [List.getD_eq_getElem _ _ (Nat.mod_lt _ (List.length_pos_of_mem some_))]
    exact List.getElem_mem _

theorem lastOf_mem {b : Host.Cell} (mem : b ∈ lastOf fresh cells) : b ∈ cells := by
  rw [lastOf_eq] at mem
  obtain ⟨q, place, rfl⟩ := List.mem_map.1 mem
  exact (List.mem_filter.1 (lastAt_mem fresh cells place)).1

theorem lastOf_places : (lastOf fresh cells).map (·.1) = (cells.map (·.1)).eraseDups := by
  have first : ((cells.map (·.1)).eraseDups).zipIdx.map (fun q => (lastAt fresh cells q).1) = ((cells.map (·.1)).eraseDups).zipIdx.map (·.1) :=
    List.map_congr_left fun q place => beq_iff_eq.1 (List.mem_filter.1 (lastAt_mem fresh cells place)).2
  rw [lastOf_eq, List.map_map]
  exact first.trans (List.zipIdx_map_fst ..)

end

/-! ### Units written one after the other, each with a choice of its own -/

section
variable {p : Pkg} {c : Cmd} {v : View} {α β : Type} [DecidableEq α] [Inhabited β] (P : α → β → Prop) (g : β → PWrite) (m : α → Eng (List Byte))

theorem anyOrder_picks : ∀ (us : List α) {w : Work}, us.Nodup → Quiet p c w →
    (∀ u ∈ us, ∀ {w : Work}, Quiet p c w → ∃ b t, P u b ∧ m u v w = .ok [] t ∧ LaterBy p c [g b] w t) →
    ∃ pick : α → β, (∀ u ∈ us, P u (pick u)) ∧
      ∃ as t, Eng.anyOrder (us.map m) v w = .ok as t ∧ LaterBy p c (us.map fun u => g (pick u)) w t := by
  intro us
  induction us with
  | nil => exact fun {w} _ q _ => ⟨fun _ => default, fun _ mem => absurd mem List.not_mem_nil, [], w, Eng.run_pure _ v w, .rfl q⟩
  | cons u us ih =>
    intro w nodup q each
    obtain ⟨fresh, nodup⟩ := List.nodup_cons.1 nodup
    obtain ⟨b, t, good, makes, later⟩ := each u List.mem_cons_self q
    obtain ⟨t', makes, later, -⟩ := access_quiet q makes later
    obtain ⟨pick, picks, as, r, rest, toRest⟩ := ih nodup later.quiet (fun x mem => each x (List.mem_cons_of_mem _ mem))
    have others : ∀ x ∈ us, Function.update pick u b x = pick x := fun x mem =>
      Function.update_of_ne (fun same => fresh (by rwa [same] at mem)) ..
    refine ⟨Function.update pick u b, fun x mem => ?_, .bytes [] :: as, r, ?_, ?_⟩
    · rcases List.mem_cons.1 mem with rfl | mem
      · rwa [Function.update_self]
      · rw [others x mem]
        exact picks x mem
    · have one : Eng.among (m u) v w = .ok (.bytes []) t' := by
        unfold Eng.among
        rw [makes]
      simp only [List.map_cons, Eng.anyOrder, Eng.run_bind, one, rest]
      rfl
    · rw [List.map_cons, Function.update_self, List.map_congr_left fun x mem => congrArg g (others x mem)]
      exact later.trans toRest

end

/-! ### The bytes of a template, read a sector at a time (R198) -/

theorem foldl_min_spec (l : List Nat) (a : Nat) :
    l.foldl min a ≤ a ∧ (∀ x ∈ l, l.foldl min a ≤ x) ∧ (l.foldl min a = a ∨ l.foldl min a ∈ l) := by
  induction l generalizing a with
  | nil => simp
  | cons b l ih =>
    obtain ⟨below, all, one⟩ := ih (min a b)
    simp only [List.foldl_cons, List.mem_cons, forall_eq_or_imp]
    refine ⟨by omega, ⟨by omega, all⟩, ?_⟩
    rcases one with one | one
    · rcases Nat.le_total a b with h | h
      · exact .inl (by omega)
      · exact .inr (.inl (by omega))
    · exact .inr (.inr one)

theorem foldl_max_spec (l : List Nat) (a : Nat) :
    a ≤ l.foldl max a ∧ (∀ x ∈ l, x ≤ l.foldl max a) ∧ (l.foldl max a = a ∨ l.foldl max a ∈ l) := by
  induction l generalizing a with
  | nil => simp
  | cons b l ih =>
    obtain ⟨above, all, one⟩ := ih (max a b)
    simp only [List.foldl_cons, List.mem_cons, forall_eq_or_imp]
    refine ⟨by omega, ⟨by omega, all⟩, ?_⟩
    rcases one with one | one
    · rcases Nat.le_total a b with h | h
      · exact .inr (.inl (by omega))
      · exact .inl (by omega)
    · exact .inr (.inr one)

/-- The lowest and the highest address of a group. -/
def lowest (g : Nat × List Nat) : Nat := g.2.foldl min (g.2.headD 0)
def highest (g : Nat × List Nat) : Nat := g.2.foldl max 0

theorem lowest_mem {g : Nat × List Nat} (some_ : g.2 ≠ []) : lowest g ∈ g.2 := by
  obtain ⟨-, -, one | one⟩ := foldl_min_spec g.2 (g.2.headD 0)
  · rw [lowest, one, List.headD_eq_head?_getD, List.head?_eq_some_head some_]
    exact List.head_mem some_
  · exact one

theorem le_of_mem_span {g : Nat × List Nat} {a : Nat} (mem : a ∈ g.2) : lowest g ≤ a ∧ a ≤ highest g :=
  ⟨(foldl_min_spec g.2 _).2.1 a mem, (foldl_max_spec g.2 0).2.1 a mem⟩

theorem highest_mem {g : Nat × List Nat} (some_ : g.2 ≠ []) : highest g ∈ g.2 := by
  obtain ⟨-, all, one | one⟩ := foldl_max_spec g.2 0
  · have zero := all _ (lowest_mem some_)
    rw [one, Nat.le_zero] at zero
    rw [highest, one, ← zero]
    exact lowest_mem some_
  · exact one

/-- An address is served plainly. -/
abbrev Plain (p : Pkg) (c : Cmd) (a : Nat) : Prop := Served p c a (placeOf p c.asid a) (pageLeaf p c.asid a)

theorem placeOf_near {p : Pkg} {c : Cmd} {a i : Nat} (plain : Plain p c a) (near : a % 4096 + i < 4096) :
    placeOf p c.asid (a + i) = placeOf p c.asid a + i := by
  have same : walk p c.asid (a + i) = walk p c.asid a := walk_page p c.asid (by omega)
  have leaf : pageLeaf p c.asid (a + i) = pageLeaf p c.asid a := by simp only [pageLeaf, same]
  rw [placeOf, leaf, leafPlace_add plain.walk plain.kind near]
  rfl

/-- The bytes of device memory from the lowest address of a group to the highest. -/
def spanned (p : Pkg) (c : Cmd) (g : Nat × List Nat) : List Byte := p.mem.getMany (placeOf p c.asid (lowest g)) (highest g + 1 - lowest g)

theorem spanned_get {p : Pkg} {c : Cmd} {as : List Nat} {g : Nat × List Nat} (mem : g ∈ groupBy (fun a => a / 32) as)
    (plain : ∀ a ∈ as, Plain p c a) {a : Nat} (inside : a ∈ g.2) : (spanned p c g)[a - lowest g]? = some (p.mem.get (placeOf p c.asid a)) := by
  obtain ⟨above, below⟩ := le_of_mem_span inside
  obtain ⟨low, key⟩ := mem_group _ _ mem (lowest_mem (group_ne_nil _ _ mem))
  obtain ⟨-, key'⟩ := mem_group _ _ mem inside
  have near := placeOf_near (i := a - lowest g) (plain _ low) (by omega)
  rw [show lowest g + (a - lowest g) = a by omega] at near
  rw [near]
  show ((List.range _).map fun i => p.mem.get (placeOf p c.asid (lowest g) + i))[a - lowest g]? = _
  rw [List.getElem?_map, List.getElem?_range (by omega)]
  rfl

/-- The groups of the source's addresses, each read by an access of its own. -/
theorem groups_quiet {p : Pkg} {c : Cmd} (env : Env) {as : List Nat} (plain : ∀ a ∈ as, Plain p c a) {w : Work} (q : Quiet p c w) :
    ∃ t, Eng.anyOrder ((groupBy (fun a => a / 32) as).map fun g => Eng.readSector (lowest g) (highest g + 1 - lowest g)) ⟨env, c⟩ w =
        .ok ((groupBy (fun a => a / 32) as).map fun g => .bytes (spanned p c g)) t ∧ Later p c w t := by
  obtain ⟨t, reads, later, -⟩ := anyOrder_quiet (v := ⟨env, c⟩) (fun _ => True) (spanned p c) (fun _ => [])
    (fun g => Eng.readSector (lowest g) (highest g + 1 - lowest g)) (groupBy (fun a => a / 32) as) q trivial fun g mem u quiet _ => by
      obtain ⟨low, -⟩ := mem_group _ _ mem (lowest_mem (group_ne_nil _ _ mem))
      obtain ⟨t, reads, later⟩ := Synchronising.readSector_served env (plain _ low) quiet (highest g + 1 - lowest g)
      exact ⟨t, reads, later, trivial⟩
  rw [show ((groupBy (fun a => a / 32) as).flatMap fun _ => ([] : List PWrite)) = [] by simp] at later
  exact ⟨t, reads, later⟩

/-- The byte at an address, of those that have been read. -/
def valueIn (ks : Nat) (found : List ((Nat × List Nat) × Answer)) (a : Nat) : Option Byte :=
  match found.find? fun q => q.1.1 == a / sideBlock ks with
  | some (g, .bytes bs) => bs[a - g.2.foldl min (g.2.headD 0)]?
  | _ => none

theorem valueIn_groups {p : Pkg} {c : Cmd} {as : List Nat} (plain : ∀ a ∈ as, Plain p c a) {a : Nat} (inside : a ∈ as) :
    valueIn 0 ((groupBy (fun a => a / 32) as).map fun g => (g, .bytes (spanned p c g))) a = some (p.mem.get (placeOf p c.asid a)) := by
  obtain ⟨g, mem, key, held⟩ := group_of_mem (fun a => a / 32) as inside
  have found : ((groupBy (fun a => a / 32) as).map fun g => (g, Answer.bytes (spanned p c g))).find? (fun q => q.1.1 == a / sideBlock 0) =
      some (g, .bytes (spanned p c g)) := by
    rw [List.find?_map]
    have one := find?_group (fun a => a / 32) as mem
    rw [key] at one
    exact congrArg (Option.map fun g => (g, Answer.bytes (spanned p c g))) one
  unfold valueIn
  rw [found]
  exact spanned_get mem plain held

/-! ### The units that are written of a template's bytes (R98, R194, R198) -/

/-- The write of bytes at local addresses of a core's storage, in one word. -/
def putCells (core : Nat) (whole : Nat → Bool) (cells : List Host.Cell) : PWrite :=
  let first := (cells.headD (0, 0)).1
  let spad := cells.map fun b => (Eng.spadByte b.1, b.2)
  let full := (spad.map fun b => b.1 / 4).eraseDups
  if 0x2000000 ≤ first then .accBytes core (cells.map fun b => (b.1 - 0x2000000, b.2))
  else if whole (first / 64) then .code core spad full else .spad core spad full

theorem writeTo_putCells (env : Env) {c : Cmd} {core : Nat} (whole : Nat → Bool) (cells : List Host.Cell) {u : Work}
    (on : u.p.powerOf core = 0) :
    writeTo (.core core) whole cells ⟨env, c⟩ u = .ok [] { u with writes := u.writes ++ [putCells core whole cells] } := by
  unfold writeTo putCells
  dsimp only
  rw [Eng.run_bind, awake_on env c u core on]
  dsimp only
  split
  · rfl
  · split <;> rfl

theorem mapM_some {α β : Type} {f : α → Option β} {g : α → β} {l : List α} (each : ∀ x ∈ l, f x = some (g x)) :
    l.mapM f = some (l.map g) := by
  induction l with
  | nil => rfl
  | cons x l ih =>
    rw [List.mapM_cons, each x List.mem_cons_self, ih fun y mem => each y (List.mem_cons_of_mem _ mem)]
    rfl

theorem nodup_copyUnits (kd : Nat) (bytes : List (Nat × Nat)) : (copyUnits kd bytes).Nodup := by
  obtain ⟨rises, -⟩ := (grouped_groupBy (fun q : Nat × Nat => q.2 / sideBlock kd) bytes).1
  refine List.pairwise_map.2 (rises.imp_of_mem fun {g h} memG memH low same => ?_)
  obtain ⟨x, inside⟩ := List.exists_mem_of_ne_nil _ (group_ne_nil _ _ memG)
  have here := (mem_group _ _ memG inside).2
  have there := (mem_group _ _ memH (same ▸ inside)).2
  omega

theorem mem_unit {kd : Nat} {bytes u : List (Nat × Nat)} (unit : u ∈ copyUnits kd bytes) :
    u ≠ [] ∧ ∀ q ∈ u, q ∈ bytes := by
  obtain ⟨g, mem, rfl⟩ := List.mem_map.1 unit
  exact ⟨group_ne_nil _ _ mem, fun q inside => (mem_group _ _ mem inside).1⟩

/-- What the bytes picked for a unit are: one for each of its places, each of a source of the unit. -/
def Picks (p : Pkg) (c : Cmd) (u : List (Nat × Nat)) (cells : List Host.Cell) : Prop :=
  cells.map (·.1) = (u.map (·.2)).eraseDups ∧ ∀ b ∈ cells, ∃ q ∈ u, q.2 = b.1 ∧ p.mem.get (placeOf p c.asid q.1) = b.2

/-- The access that writes a unit. -/
def unitWork (kd : Nat) (value : Nat → Option Byte) (tos : List (Nat × Dest)) (whole : Nat → Nat → Bool) (u : List (Nat × Nat)) :
    Eng (List Byte) := do
  match u.mapM fun q => (value q.1).map fun b => (q.2, b) with
  | none => throw .pause
  | some all =>
    let cells := lastOf (← Eng.pkg).fresh all
    Eng.modPkg fun p => p.drawn all.length
    let h := (cells.headD (0, 0)).1 / 2 ^ 32
    match tos.find? fun t => t.1 == h with
    | some t => writeTo t.2 (whole h) (if kd = 0 then cells else cells.map fun c => (c.1 % 2 ^ 32, c.2))
    | none => pure []

theorem picks_lastOf {p : Pkg} {c : Cmd} (fresh : Nat) (u : List (Nat × Nat)) :
    Picks p c u (lastOf fresh (u.map fun q => (q.2, p.mem.get (placeOf p c.asid q.1)))) := by
  constructor
  · rw [lastOf_places, List.map_map]
    rfl
  · intro b mem
    obtain ⟨q, inside, rfl⟩ := List.mem_map.1 (lastOf_mem _ _ mem)
    exact ⟨q, inside, rfl, rfl⟩

section
variable {p : Pkg} {c : Cmd} (env : Env) {core : Nat} (on : p.powerOf core = 0) {value : Nat → Option Byte} {tos : List (Nat × Dest)}
  (whole : Nat → Nat → Bool) (named : tos.find? (fun t => t.1 == 0) = some (0, .core core))
include on named

theorem unitWork_quiet {u : List (Nat × Nat)} (low : ∀ q ∈ u, q.2 < 2 ^ 32)
    (found : ∀ q ∈ u, value q.1 = some (p.mem.get (placeOf p c.asid q.1))) {w : Work} (q : Quiet p c w) :
    ∃ cells t, Picks p c u cells ∧ unitWork 1 value tos whole u ⟨env, c⟩ w = .ok [] t ∧
      LaterBy p c [putCells core (whole 0) cells] w t := by
  obtain ⟨cells, are⟩ : ∃ cells, cells = lastOf w.p.fresh (u.map fun q => (q.2, p.mem.get (placeOf p c.asid q.1))) := ⟨_, rfl⟩
  have picks : Picks p c u cells := are ▸ picks_lastOf _ u
  have places : ∀ b ∈ cells, b.1 < 2 ^ 32 := fun b mem => by
    obtain ⟨r, inside, same, -⟩ := picks.2 b mem
    exact same ▸ low r inside
  have head : (cells.headD (0, 0)).1 / 2 ^ 32 = 0 := by
    cases cells with
    | nil => rfl
    | cons b bs => exact Nat.div_eq_of_lt (places b List.mem_cons_self)
  have cut : (cells.map fun c => (c.1 % 2 ^ 32, c.2)) = cells := by
    refine (List.map_congr_left fun b mem => ?_).trans (List.map_id' cells)
    rw [Nat.mod_eq_of_lt (places b mem)]
  have drawn := q.drawn u.length
  obtain ⟨t, n, pkg, -⟩ := drawn.quiet.pkg
  refine ⟨cells, _, picks, ?_, laterBy_emitted drawn (putCells core (whole 0) cells)⟩
  unfold unitWork
  rw [mapM_some (g := fun q => (q.2, p.mem.get (placeOf p c.asid q.1))) fun r inside => by rw [found r inside]; rfl]
  dsimp only
  rw [Eng.run_bind, Eng.run_pkg]
  dsimp only
  rw [← are, Eng.run_bind, Eng.run_modPkg, List.length_map, head, named]
  dsimp only
  rw [if_neg (by decide), cut]
  exact writeTo_putCells env (whole 0) cells (by rw [pkg]; exact on)

end

/-! ### A template's bytes copied from device memory to the issuing core (R196, R198) -/

theorem run_mapM_destOf (hs : List Nat) (v : View) (w : Work) :
    (hs.mapM fun h => do return (h, ← destOf 1 (h * 2 ^ 32)) : Eng (List (Nat × Dest))) v w =
      .ok (hs.map fun h => (h, Dest.core (coreOf v.cmd.ctx))) w := by
  induction hs generalizing w with
  | nil => rfl
  | cons h hs ih =>
    have one : (do return (h, ← destOf 1 (h * 2 ^ 32)) : Eng (Nat × Dest)) v w = .ok (h, Dest.core (coreOf v.cmd.ctx)) w := rfl
    rw [List.mapM_cons, Eng.run_bind, one]
    dsimp only
    rw [Eng.run_bind, ih]
    rfl

theorem find?_dest {hs : List Nat} (mem : 0 ∈ hs) (d : Dest) : (hs.map fun h => (h, d)).find? (fun t => t.1 == 0) = some (0, d) := by
  rw [List.find?_map]
  cases found : hs.find? ((fun t => t.1 == 0) ∘ fun h => (h, d)) with
  | none => exact absurd (List.find?_eq_none.1 found 0 mem) (by simp)
  | some h =>
    obtain rfl : h = 0 := by simpa using List.find?_some found
    rfl

/-- The codewords of the destination that are written whole. -/
def rewritten (bytes : List (Nat × Nat)) (z : Nat) : Bool := (((bytes.map (·.2)).filter fun b => b / 64 == z).eraseDups).length == 64

/-- The reads of a template's bytes from device memory. -/
def sectorsOf (p : Pkg) (c : Cmd) (bytes : List (Nat × Nat)) : List ((Nat × List Nat) × Answer) :=
  (groupBy (fun a => a / 32) (bytes.map (·.1))).map fun g => (g, .bytes (spanned p c g))

theorem whole_rewritten (bytes : List (Nat × Nat)) :
    (fun w => (groupBy (fun a => a / 64) ((bytes.map (·.2)).eraseDups)).any fun g => g.1 == 0 * 2 ^ 26 + w && g.2.length == 64) =
      rewritten bytes := by
  funext z
  rw [Nat.zero_mul, Nat.zero_add, any_groupBy _ _ _ (by decide), filter_eraseDups]
  rfl

section
variable {p : Pkg} {c : Cmd} (env : Env) {bytes : List (Nat × Nat)} (on : p.powerOf (coreOf c.ctx) = 0) (some_ : bytes ≠ [])
  (plain : ∀ q ∈ bytes, Plain p c q.1) (low : ∀ q ∈ bytes, q.2 < 2 ^ 32)
include on some_ plain low

theorem units_quiet {w : Work} (q : Quiet p c w) :
    ∃ pick : List (Nat × Nat) → List Host.Cell, (∀ u ∈ copyUnits 1 bytes, Picks p c u (pick u)) ∧
      ∃ t, (do
          discard (Eng.anyOrder ((copyUnits 1 bytes).map (unitWork 1 (valueIn 0 (sectorsOf p c bytes))
            (((bytes.map fun q => q.2 / 2 ^ 32).eraseDups).map fun h => (h, Dest.core (coreOf c.ctx)))
            fun h w => (groupBy (fun a => a / 64) ((bytes.map (·.2)).eraseDups)).any fun g => g.1 == h * 2 ^ 26 + w && g.2.length == 64)))
          Eng.settle : Eng Unit) ⟨env, c⟩ w = .ok () t ∧
        LaterBy p c ((copyUnits 1 bytes).map fun u => putCells (coreOf c.ctx) (rewritten bytes) (pick u)) w t := by
  have named : (((bytes.map fun q => q.2 / 2 ^ 32).eraseDups).map fun h => (h, Dest.core (coreOf c.ctx))).find? (fun t => t.1 == 0) =
      some (0, .core (coreOf c.ctx)) := by
    obtain ⟨b, mem⟩ := List.exists_mem_of_ne_nil _ some_
    exact find?_dest (List.mem_eraseDups.2 (List.mem_map.2 ⟨b, mem, Nat.div_eq_of_lt (low b mem)⟩)) _
  obtain ⟨pick, picks, as, t, writes, later⟩ := anyOrder_picks (v := ⟨env, c⟩) (Picks p c)
    (putCells (coreOf c.ctx) (rewritten bytes)) (unitWork 1 (valueIn 0 (sectorsOf p c bytes)) _ _) (copyUnits 1 bytes)
    (nodup_copyUnits 1 bytes) q fun u unit v quiet => by
      obtain ⟨-, inside⟩ := mem_unit unit
      obtain ⟨cells, t, picks, makes, later⟩ := unitWork_quiet env on
        (fun h w => (groupBy (fun a => a / 64) ((bytes.map (·.2)).eraseDups)).any fun g => g.1 == h * 2 ^ 26 + w && g.2.length == 64)
        named (fun r mem => low r (inside r mem))
        (fun r mem => valueIn_groups (as := bytes.map (·.1)) (fun a held => by
          obtain ⟨r, mem, rfl⟩ := List.mem_map.1 held
          exact plain r mem) (List.mem_map_of_mem (inside r mem))) quiet
      rw [whole_rewritten] at later
      exact ⟨cells, t, picks, makes, later⟩
  refine ⟨pick, picks, t, ?_, later⟩
  rw [Eng.run_bind, Eng.run_discard, writes]
  exact settle_quiet later.quiet

theorem copyBytes_quiet {w : Work} (q : Quiet p c w) :
    ∃ pick : List (Nat × Nat) → List Host.Cell, (∀ u ∈ copyUnits 1 bytes, Picks p c u (pick u)) ∧
      ∃ t, copyBytes 0 1 bytes ⟨env, c⟩ w = .ok () t ∧
        LaterBy p c ((copyUnits 1 bytes).map fun u => putCells (coreOf c.ctx) (rewritten bytes) (pick u)) w t := by
  obtain ⟨u, reads, toRead⟩ := groups_quiet env (as := bytes.map (·.1)) (fun a held => by
    obtain ⟨r, mem, rfl⟩ := List.mem_map.1 held
    exact plain r mem) q
  obtain ⟨pick, picks, t, writes, later⟩ := units_quiet env on some_ plain low toRead.quiet
  refine ⟨pick, picks, t, ?_, toRead.trans later⟩
  unfold copyBytes
  dsimp only
  rw [Eng.run_bind, run_mapM_destOf]
  dsimp only
  rw [if_neg (by decide), Eng.run_bind]
  have made : Eng.anyOrder ((groupBy (fun a => a / sideBlock 0) (bytes.map (·.1))).map fun g =>
      sideRead 0 (g.2.foldl min (g.2.headD 0)) (g.2.foldl max 0 + 1 - g.2.foldl min (g.2.headD 0))) ⟨env, c⟩ w = _ := reads
  rw [made]
  dsimp only
  have found : (groupBy (fun a => a / sideBlock 0) (bytes.map (·.1))).zip ((groupBy (fun a => a / 32) (bytes.map (·.1))).map fun g =>
      Answer.bytes (spanned p c g)) = sectorsOf p c bytes := zip_map_self _ _
  rw [if_neg (by decide), found]
  exact writes

end

/-! ### Copies by a template (R196, R198) -/

/-- The addresses of an element on both sides. -/
def elementSource (c : Cmd) (o : Int × Int) : Nat := (((c.a.toNat : Int) + o.1) % 2 ^ 64).toNat
def elementPlace (c : Cmd) (o : Int × Int) : Nat :=
  swizzleSide (templateOf c.tmpl).xform 1 (((c.d.toNat : Int) + o.2) % 2 ^ 64).toNat % 2 ^ 32

/-- The bytes that a copy by a template moves, by source and destination. -/
def moves (c : Cmd) : List (Nat × Nat) :=
  (templateOffsets (templateOf c.tmpl)).flatMap fun o => (List.range (2 ^ (templateOf c.tmpl).esize)).map fun i =>
    (elementSource c o + i, elementPlace c o + i)

/-- The elements of a copy from device memory to local storage, before their places are cut to local addresses. -/
def elements (c : Cmd) : List (Nat × Nat) := (templateOffsets (templateOf c.tmpl)).map fun o =>
  (elementSource c o, swizzleSide (templateOf c.tmpl).xform 1 (((c.d.toNat : Int) + o.2) % 2 ^ 64).toNat)

theorem elements_eq (c : Cmd) : ((templateOffsets (templateOf c.tmpl)).map fun o =>
    (swizzleSide (templateOf c.tmpl).xform 0 (((c.a.toNat : Int) + o.1) % 2 ^ 64).toNat,
      swizzleSide (templateOf c.tmpl).xform 1 (((c.d.toNat : Int) + o.2) % 2 ^ 64).toNat)) = elements c := by
  have device (x a : Nat) : swizzleSide x 0 a = a := if_neg (by simp)
  simp only [device]
  rfl

theorem exists_offset (t : Template) : ∃ o, o ∈ templateOffsets t := by
  unfold templateOffsets
  dsimp only
  have first (i : Nat) : 0 ∈ List.range (max 1 (t.e.getD i 0)) := List.mem_range.2 (by omega)
  exact ⟨_, List.mem_flatMap.2 ⟨0, first 3, List.mem_flatMap.2 ⟨0, first 2, List.mem_flatMap.2 ⟨0, first 1, List.mem_map.2 ⟨0, first 0, rfl⟩⟩⟩⟩⟩

section
variable {c : Cmd} (templated : c.tmpl ≠ []) (moved : (templateOf c.tmpl).xform ≠ 2) (unstamped : (templateOf c.tmpl).cmode ≠ 1)
  (kinds : c.c.toNat % 16 = 4)
  (places : ∀ o ∈ templateOffsets (templateOf c.tmpl), elementSource c o % 2 ^ (templateOf c.tmpl).esize = 0 ∧
    Eng.localOk (elementPlace c o) (2 ^ (templateOf c.tmpl).esize) = true)
include templated moved unstamped kinds places

theorem ecCopyWork_eq (v : View) (w : Work) :
    ecCopyWork c v w = (do
      copyBytes 0 1 (moves c)
      Eng.need true 3 : Eng Unit) v w := by
  have accepted : copyKinds c.c.toNat v w = .ok (0, 1) w := by
    unfold copyKinds
    rw [Eng.run_bind, Eng.run_need 0x0E (by simp; omega), show c.c.toNat % 4 = 0 by omega, show c.c.toNat / 4 % 4 = 1 by omega]
    rfl
  unfold ecCopyWork
  rw [Eng.run_bind, Eng.run_need 0x0A (by simpa using templated)]
  dsimp only
  rw [Eng.run_bind, accepted]
  dsimp only
  rw [Eng.run_bind, Eng.run_need 3 (by simp [unstamped])]
  dsimp only
  rw [elements_eq, Eng.run_bind, Eng.run_need 2 (by
    rw [List.all_eq_true.2 fun e mem => ?_, Bool.or_true]
    obtain ⟨o, offset, rfl⟩ := List.mem_map.1 mem
    exact sideOk_local (places o offset).2)]
  dsimp only
  rw [if_neg moved, Eng.run_bind, Eng.run_pure]
  dsimp only
  rw [Eng.run_bind, Eng.run_need 2 rfl]
  dsimp only
  rw [beq_eq_false_iff_ne.2 unstamped, withStamp, if_neg Bool.false_ne_true, if_neg moved]
  have aligned : ∀ e ∈ elements c, ((0 != 0 || e.1 % 2 ^ (templateOf c.tmpl).esize == 0) &&
      (1 != 0 || e.2 % 2 ^ (templateOf c.tmpl).esize == 0)) = true := fun e mem => by
    obtain ⟨o, offset, rfl⟩ := List.mem_map.1 mem
    simp [(places o offset).1]
  rw [List.filter_eq_self.2 aligned, List.all_eq_true.2 aligned, elements, List.flatMap_map]
  rfl

end

/-- R196, R198: a copy by a template from device memory to the issuing core. -/
theorem ecCopy_ends {c : Cmd} {s : State} (present : s.pkg.present c.id = true) (fresh : Fresh (s.pkg.cmd c.id))
    (on : s.pkg.powerOf (coreOf c.ctx) = 0) (templated : c.tmpl ≠ []) (moved : (templateOf c.tmpl).xform ≠ 2)
    (unstamped : (templateOf c.tmpl).cmode ≠ 1) (kinds : c.c.toNat % 16 = 4)
    (places : ∀ o ∈ templateOffsets (templateOf c.tmpl), elementSource c o % 2 ^ (templateOf c.tmpl).esize = 0 ∧
      Serves s.pkg c (elementSource c o) (2 ^ (templateOf c.tmpl).esize) ∧
      Eng.localOk (elementPlace c o) (2 ^ (templateOf c.tmpl).esize) = true) :
    ∃ pick : List (Nat × Nat) → List Host.Cell, (∀ u ∈ copyUnits 1 (moves c), Picks s.pkg c u (pick u)) ∧
      Ends (.ecCopy c) c s 0 (((copyUnits 1 (moves c)).map fun u =>
        putCells (coreOf c.ctx) (rewritten (moves c)) (pick u)).flatMap splitWrite) [] (Apart s.pkg) := by
  have some_ : moves c ≠ [] := by
    obtain ⟨o, offset⟩ := exists_offset (templateOf c.tmpl)
    exact List.ne_nil_of_mem (List.mem_flatMap.2 ⟨o, offset, List.mem_map_of_mem (List.mem_range.2 (Nat.two_pow_pos _))⟩)
  have each (q : Nat × Nat) (mem : q ∈ moves c) : Plain s.pkg c q.1 ∧ q.2 < 2 ^ 32 := by
    obtain ⟨o, offset, inside⟩ := List.mem_flatMap.1 mem
    obtain ⟨i, low, rfl⟩ := List.mem_map.1 inside
    obtain ⟨-, served, ok⟩ := places o offset
    have short := List.mem_range.1 low
    have size : spadSize = 0x800000 := rfl
    simp only [Eng.localOk, Bool.or_eq_true, Bool.and_eq_true, decide_eq_true_eq] at ok
    exact ⟨served _ (Nat.le_add_right _ _) (Nat.add_lt_add_left short _), by dsimp only; omega⟩
  obtain ⟨pick, picks, t, copies, later⟩ := copyBytes_quiet s.env on some_ (fun q mem => (each q mem).1) (fun q mem => (each q mem).2)
    (Quiet.start fresh)
  refine ⟨pick, picks, ends_of_laterBy (i := .ecCopy c) rfl present fresh later (late := []) ?_ fun _ _ _ => ⟨rfl, rfl⟩⟩
  rw [ecCopyWork_eq templated moved unstamped kinds fun o offset => ⟨(places o offset).1, (places o offset).2.2⟩, Eng.run_bind, copies,
    show [] = t.late from later.late.symm]
  rfl

end Sys2Proof.Proofs.Templates

namespace Sys2Proof.Proofs.Retiling

open Machine Commands Copies

/-! ### Work that leaves the parts of its command alone

Only `Eng.each` takes up what earlier steps have kept of a command's parts; no access, and nothing that an access is made of, does. -/

/-- The work that a computation leaves, whether it stops or not. -/
def left {α : Type} : EStateM.Result Stop Work α → Work
  | .ok _ w => w
  | .error _ w => w

def Steady {α : Type} (m : Eng α) : Prop := ∀ v w, (left (m v w)).parts = w.parts

section
variable {α β : Type}

theorem Steady.bind {m : Eng α} {f : α → Eng β} (first : Steady m) (next : ∀ a, Steady (f a)) : Steady (m >>= f) := by
  intro v w
  have one := first v w
  rw [Eng.run_bind]
  cases made : m v w with
  | ok a t =>
    rw [made] at one
    exact (next a v t).trans one
  | error e t =>
    rw [made] at one
    exact one

theorem Steady.map {m : Eng α} {f : α → β} (first : Steady m) : Steady (f <$> m) := by
  intro v w
  have one := first v w
  rw [Eng.run_map]
  cases made : m v w with
  | ok a t =>
    rw [made] at one
    exact one
  | error e t =>
    rw [made] at one
    exact one

theorem steady_pure (a : α) : Steady (pure a : Eng α) := fun _ _ => rfl
theorem steady_throw (e : Stop) : Steady (throw e : Eng α) := fun _ _ => rfl
theorem steady_fail (n : Nat) : Steady (Eng.fail n : Eng α) := fun _ _ => rfl
theorem steady_read : Steady (read : Eng View) := fun _ _ => rfl
theorem steady_get : Steady (get : Eng Work) := fun _ _ => rfl
theorem steady_pkg : Steady Eng.pkg := fun _ _ => rfl
theorem steady_self : Steady Eng.self := fun _ _ => rfl
theorem steady_modPkg (f : Pkg → Pkg) : Steady (Eng.modPkg f) := fun _ _ => rfl
theorem steady_emitWrite (x : PWrite) : Steady (Eng.emitWrite x) := fun _ _ => rfl

theorem Steady.ite {c : Prop} [Decidable c] {a b : Eng α} (yes : Steady a) (no : Steady b) : Steady (if c then a else b) := by
  split
  · exact yes
  · exact no

theorem steady_need (b : Bool) (n : Nat) : Steady (Eng.need b n) := .ite (steady_pure _) (steady_fail n)

theorem steady_uncorrectable (va : Nat) (dpa : Option Nat) : Steady (Eng.uncorrectable va dpa : Eng α) := fun _ _ => rfl
theorem steady_hold (kind va dpa group : Nat) : Steady (Eng.hold kind va dpa group : Eng α) := fun _ _ => rfl
theorem steady_holdNew (kind flags code va : Nat) : Steady (Eng.holdNew kind flags code va : Eng α) := fun _ _ => rfl

end

/-! #### Places -/

theorem steady_leafBy (va : Nat) (got : Walk) : Steady (Eng.leafBy va got) := by
  unfold Eng.leafBy
  refine .bind steady_read fun v => .bind steady_get fun w => .bind (steady_modPkg _) fun _ => ?_
  cases got with
  | trans => exact steady_holdNew _ _ _ _
  | hostDown => exact .bind (steady_modPkg _) fun _ => steady_fail _
  | poisoned d => exact .bind (steady_modPkg _) fun _ => steady_fail _
  | leaf l =>
    dsimp only
    have kept : Steady (do modify fun w => { w with leaves := w.leaves ++ [(v.cmd.asid, va / 65536, l)] }; return l : Eng Leaf) :=
      fun _ _ => rfl
    exact .ite (.bind (steady_modPkg _) fun _ => .bind (steady_holdNew _ _ _ _) fun _ => kept) kept

theorem steady_leafFor (va : Nat) : Steady (Eng.leafFor va) := by
  unfold Eng.leafFor
  refine .bind steady_read fun v => .bind (steady_need _ _) fun _ => .bind steady_get fun w => ?_
  split
  · exact steady_pure _
  · exact steady_leafBy _ _

theorem steady_reach (va k : Nat) : Steady (Eng.reach va k) := by
  unfold Eng.reach
  refine .bind steady_pkg fun p => .bind steady_read fun v => ?_
  dsimp only
  have wait : Steady (Eng.wait : Eng Unit) := fun _ _ => rfl
  have host : Steady (if !isDram k then (do
        Eng.need (p.cxl || dpaKind (k % 2 ^ 56) != 2) 4
        if !p.hostUp then (do
          Eng.modPkg (countUp 0x07000000 47 32)
          Eng.fail 7) else pure () : Eng Unit) else pure ()) :=
    .ite (.bind (steady_need _ _) fun _ => .ite (.bind (steady_modPkg _) fun _ => steady_fail _) (steady_pure _)) (steady_pure _)
  have pending := Steady.ite (c := Eng.pendingAt p k = true) (.bind wait fun _ => host) host
  split
  · exact .bind (steady_modPkg _) fun _ => .bind (steady_hold _ _ _ _) fun _ => pending
  · exact pending

theorem steady_goThrough (l : Leaf) (va : Nat) (wr dirty : Bool) : Steady (Eng.goThrough l va wr dirty) := by
  unfold Eng.goThrough
  refine .bind steady_read fun v => ?_
  dsimp only
  have dirtied : Steady (if wr && dirty && bits l.entry 5 5 == 0 then (do
      Eng.reach va l.at_
      Eng.modPkg (setDirty l)) else pure () : Eng Unit) := .ite (.bind (steady_reach _ _) fun _ => steady_modPkg _) (steady_pure _)
  have moved (p : Pkg) := Steady.ite (c := Eng.moveHold p v.cmd.asid va = true) (.bind (steady_hold (α := Unit) 0 va 0 0) fun _ => dirtied) dirtied
  exact .ite (.bind (steady_modPkg _) fun _ => .bind (steady_holdNew _ _ _ _) fun _ => .bind steady_pkg moved) (.bind steady_pkg moved)

theorem steady_translate (va : Nat) (wr dirty : Bool) : Steady (Eng.translate va wr dirty) := by
  unfold Eng.translate
  exact .bind (steady_leafFor _) fun l => .bind (steady_need _ _) fun _ => .bind (steady_goThrough _ _ _ _) fun _ => steady_pure _

theorem steady_place (va : Nat) (wr : Bool) : Steady (Eng.place va wr) := by
  unfold Eng.place
  refine .bind steady_read fun v => .bind steady_pkg fun p => .bind (steady_translate _ _ _) fun l => .bind steady_pkg fun p => ?_
  dsimp only
  have there : Steady (do Eng.reach va (leafPlace p l va); pure (leafPlace p l va, l.priv) : Eng (Nat × Bool)) :=
    .bind (steady_reach _ _) fun _ => steady_pure _
  refine .ite ?_ there
  split
  · exact steady_pure _
  · refine .ite (.bind (steady_reach _ _) fun _ => ?_) there
    split
    · exact .bind (steady_throw _) fun _ => there
    · exact .bind (steady_modPkg _) fun _ => steady_pure _

theorem steady_stagedLeaf (va : Nat) : Steady (Eng.stagedLeaf va) := by
  unfold Eng.stagedLeaf
  exact .bind (steady_translate _ _ _) fun l => .bind steady_pkg fun p => .bind steady_read fun v => .bind (steady_reach _ _) fun _ =>
    steady_pure _

/-! #### Reads and writes -/

theorem steady_hubCompletion (k : Nat) : Steady (Eng.hubCompletion k) := by
  unfold Eng.hubCompletion
  refine .bind steady_pkg fun p => .bind steady_read fun v => .ite ?_ (steady_pure _)
  exact .ite (.bind (steady_modPkg _) fun _ => .bind (steady_fail (α := Unit) 7) fun _ => steady_modPkg _) (steady_modPkg _)

theorem steady_readPlace (va k n : Nat) (priv : Bool) : Steady (Eng.readPlace va k n priv) := by
  unfold Eng.readPlace
  refine .bind (steady_hubCompletion k) fun _ => .bind steady_pkg fun p => .bind (.map steady_read) fun d => .bind steady_read fun v => ?_
  dsimp only
  have bytes : Steady (if priv = true then (do
      Eng.modPkg fun _ => (cachedSector p.fresh d v.cmd.ctx (k / 32) p).2.drawn 1
      return (((cachedSector p.fresh d v.cmd.ctx (k / 32) p).1.drop (k % 32)).take n)) else return p.mem.getMany k n : Eng (List Byte)) :=
    .ite (.bind (steady_modPkg _) fun _ => steady_pure _) (steady_pure _)
  exact .ite (.bind (steady_uncorrectable (α := Unit) va (some k)) fun _ => bytes) bytes

theorem steady_readSector (va n : Nat) : Steady (Eng.readSector va n) := by
  unfold Eng.readSector
  exact .bind (steady_place _ _) fun w => steady_readPlace _ _ _ _

theorem steady_sectorWrite (cells : List Host.Cell) : Steady (Eng.sectorWrite cells) := by
  unfold Eng.sectorWrite
  exact .bind steady_read fun v => .bind steady_pkg fun p => .ite (.bind (steady_stagedLeaf _) fun _ => steady_pure _)
    (.bind (steady_place _ _) fun w => steady_pure _)

theorem steady_sideWrite (va o : Nat) (bs : List Byte) : Steady (Eng.sideWrite va o bs) := by
  unfold Eng.sideWrite
  exact .bind steady_read fun v => .bind steady_pkg fun p => .ite (.bind (steady_stagedLeaf _) fun _ => steady_pure _)
    (.bind (steady_place _ _) fun w => steady_pure _)

theorem Steady.access {m : Eng (List Byte)} (h : Steady m) : Steady (Eng.access m) := by
  intro v w
  unfold Eng.access
  split
  · rfl
  · rfl
  · rfl
  · dsimp only
    split
    · rfl
    · obtain ⟨u, same, is⟩ : ∃ u : Work, u.parts = w.parts ∧ (if w.whole = true then w else { w with p := w.p.drawn 1 }) = u := by
        refine ⟨_, ?_, rfl⟩
        split <;> rfl
      have one := h v u
      rw [is]
      cases made : m v u with
      | ok bs t =>
        rw [made] at one
        exact one.trans same
      | error e t =>
        rw [made] at one
        dsimp only
        split
        · rfl
        · exact one.trans same

theorem Steady.among {m : Eng (List Byte)} (h : Steady m) : Steady (Eng.among m) := by
  intro v w
  have one := h.access v w
  unfold Eng.among
  cases made : Eng.access m v w with
  | ok bs t =>
    rw [made] at one
    exact one
  | error e t =>
    rw [made] at one
    cases e <;> exact one

theorem Steady.anyOrder {ms : List (Eng (List Byte))} (each : ∀ m ∈ ms, Steady m) : Steady (Eng.anyOrder ms) := by
  induction ms with
  | nil => exact steady_pure _
  | cons m ms ih =>
    unfold Eng.anyOrder
    exact .bind (each m List.mem_cons_self).among fun a => .bind (ih fun n mem => each n (List.mem_cons_of_mem _ mem)) fun _ => steady_pure _

theorem steady_settle : Steady Eng.settle := by
  unfold Eng.settle
  refine .bind steady_get fun w => ?_
  split
  · exact steady_pure _
  · exact fun _ _ => rfl

section
variable {α : Type} {β : Type}

theorem Steady.mapM {m : α → Eng β} (each : ∀ x, Steady (m x)) (xs : List α) : Steady (xs.mapM m) := by
  induction xs with
  | nil => exact steady_pure _
  | cons x xs ih =>
    rw [List.mapM_cons]
    exact .bind (each x) fun _ => .bind ih fun _ => steady_pure _

theorem Steady.forIn {m : α → Eng Unit} (each : ∀ x, Steady (m x)) (xs : List α) :
    Steady (forIn xs () fun x _ => do m x; pure (.yield ()) : Eng Unit) := by
  induction xs with
  | nil => exact steady_pure _
  | cons x xs ih =>
    rw [List.forIn_cons]
    exact .bind (.bind (each x) fun _ => steady_pure _) fun r => by
      cases r
      · exact steady_pure _
      · exact ih

end

theorem steady_devWrite (va : Nat) (bs : List Byte) : Steady (Eng.devWrite va bs) := by
  unfold Eng.devWrite
  refine .bind (.map (.anyOrder fun m mem => ?_)) fun _ => steady_settle
  obtain ⟨q, -, rfl⟩ := List.mem_map.1 mem
  exact .bind (steady_sectorWrite _) fun x => steady_emitWrite x

theorem steady_writeBlock (r : Shape) (f : BlockForm) (q kt nt : Nat) (bs : List Byte) : Steady (writeBlock r f q kt nt bs) := by
  unfold writeBlock
  exact .bind (.forIn (fun i => steady_devWrite _ _) _) fun _ => steady_pure _

theorem steady_readRows (rows : List (List (Nat × Nat))) : Steady (readRows rows Eng.readSector) := by
  unfold readRows
  refine .bind (.mapM (fun row => .anyOrder fun m mem => ?_) rows) fun as => .bind steady_settle fun _ => steady_pure _
  obtain ⟨q, -, rfl⟩ := List.mem_map.1 mem
  exact steady_readSector _ _

/-! ### Parts that do not depend on each other, all made in one step (log 25) -/

/-- What has stopped a part, if anything has. -/
def stopOf (m : Eng Unit) : Eng (Option Stop) := fun v u => match m v u with
  | .ok _ u => .ok none u
  | .error (.nodeFail r) u => .error (.nodeFail r) u
  | .error e u => .ok (some e) u

theorem run_stopOf {m : Eng Unit} {v : View} {w t : Work} (made : m v w = .ok () t) : stopOf m v w = .ok none t := by
  unfold stopOf
  rw [made]

section
variable {p : Pkg} {c : Cmd} {v : View} {α : Type} (g : α → List PWrite) (m : α → Eng Unit) (steady : ∀ x, Steady (m x))
include steady

omit steady in
theorem run_set (t : Work) (w : Work) : (set t : Eng PUnit) v w = .ok ⟨⟩ t := rfl

theorem each_quiet : ∀ (xs : List α) {w : Work}, Quiet p c w → w.parts = [] →
    (∀ x ∈ xs, ∀ {u : Work}, Quiet p c u → ∃ t, m x v u = .ok () t ∧ LaterBy p c (g x) u t) →
    ∃ t, Eng.each (xs.map m) v w = .ok () t ∧ LaterBy p c (xs.flatMap g) w t := by
  intro xs
  induction xs with
  | nil => exact fun {w} q _ _ => ⟨w, settle_quiet q, .rfl q⟩
  | cons x xs ih =>
    intro w q none_ makes
    have open_ : w.blocked = false := by
      unfold Work.blocked
      rw [q.quiet, q.pending]
      rfl
    obtain ⟨t, made, later⟩ := makes x List.mem_cons_self (u := { w with replay := [], got := [], parts := [], pending := none, quiet := false })
      ⟨q.pkg, q.leaves, q.whole, rfl, rfl, rfl⟩
    have still : t.parts = [] := by
      have one := steady x v { w with replay := [], got := [], parts := [], pending := none, quiet := false }
      rw [made] at one
      exact one
    obtain ⟨u, is⟩ : ∃ u : Work, u = { t with
        replay := w.replay, got := w.got, quiet := w.quiet, kept := t.kept ++ [t.got.reverse ++ t.replay], pending := w.pending } := ⟨_, rfl⟩
    have toNext : LaterBy p c (g x) w u := by
      rw [is]
      exact ⟨⟨later.quiet.pkg, later.quiet.leaves, later.quiet.whole, q.replay, q.pending, q.quiet⟩, later.writes, later.late, later.stamp,
        later.status⟩
    obtain ⟨r, rest, toRest⟩ := ih toNext.quiet (by rw [is]; exact still) fun y mem => makes y (List.mem_cons_of_mem _ mem)
    refine ⟨r, ?_, toNext.trans toRest⟩
    rw [List.map_cons]
    unfold Eng.each
    rw [Eng.run_bind, Eng.run_get]
    dsimp only
    rw [none_, open_]
    rw [Eng.run_bind, run_set]
    dsimp only [List.headD_nil, List.tail_nil]
    change (stopOf (m x) >>= _) v { w with replay := [], got := [], parts := [], pending := none, quiet := false } = _
    rw [Eng.run_bind, run_stopOf made]
    dsimp only
    rw [Eng.run_bind, Eng.run_modify]
    dsimp only
    rw [← is]
    exact rest

end

/-! ### Units of a packed sequence (R49, R199) -/

theorem natOf_append (xs ys : List Byte) : natOf (xs ++ ys) = natOf xs + 2 ^ (8 * xs.length) * natOf ys := by
  unfold natOf
  rw [List.map_append, digits_append, List.length_map]

theorem natOf_drop_take (bs : List Byte) (n : Nat) : natOf (bs.drop n) = natOf bs / 2 ^ (8 * n) ∧ natOf (bs.take n) = natOf bs % 2 ^ (8 * n) := by
  rcases Nat.le_total n bs.length with inside | outside
  · have whole : natOf bs = natOf (bs.take n) + 2 ^ (8 * n) * natOf (bs.drop n) := by
      conv => lhs; rw [← List.take_append_drop n bs, natOf_append, List.length_take, Nat.min_eq_left inside]
    have low : natOf (bs.take n) < 2 ^ (8 * n) := by
      have := natOf_lt (bs.take n)
      rwa [List.length_take, Nat.min_eq_left inside] at this
    rw [whole, Nat.add_mul_div_left _ _ (Nat.two_pow_pos _), Nat.add_mul_mod_self_left, Nat.div_eq_of_lt low, Nat.mod_eq_of_lt low]
    exact ⟨(Nat.zero_add _).symm, rfl⟩
  · have low : natOf bs < 2 ^ (8 * n) := (natOf_lt bs).trans_le (Nat.pow_le_pow_right (by decide) (by omega))
    rw [List.drop_eq_nil_of_le outside, List.take_of_length_le outside, Nat.div_eq_of_lt low, Nat.mod_eq_of_lt low]
    exact ⟨rfl, rfl⟩

/-- Bits of a number cut to so many bits, where they lie below the cut. -/
theorem bits_of_cut (x : Nat) {n o w : Nat} (below : o + w ≤ n) : x % 2 ^ n / 2 ^ o % 2 ^ w = x / 2 ^ o % 2 ^ w := by
  refine Nat.eq_of_testBit_eq fun i => ?_
  simp only [Nat.testBit_mod_two_pow, Nat.testBit_div_two_pow]
  by_cases low : i < w
  · simp [low, show o + i < n by omega, Nat.add_comm]
  · simp [low]

/-- The w bits from bit x of a byte string on, as R199 reads them. -/
def unitAt (w : Nat) (bs : List Byte) (x : Nat) : Nat := field bs (x / 8) 4 / 2 ^ (x % 8) % 2 ^ w

theorem unitAt_eq {w : Nat} (narrow : w ≤ 24) (bs : List Byte) (x : Nat) : unitAt w bs x = natOf bs / 2 ^ x % 2 ^ w := by
  unfold unitAt field
  rw [(natOf_drop_take _ 4).2, (natOf_drop_take bs _).1, bits_of_cut _ (by omega), Nat.div_div_eq_div_mul, ← Nat.pow_add, Nat.div_add_mod]

/-- A unit read from a slice of the string that holds all its bits. -/
theorem unitAt_slice {w : Nat} (narrow : w ≤ 24) (bs : List Byte) {o n x : Nat} (inside : x + w ≤ 8 * n) :
    unitAt w ((bs.drop o).take n) x = unitAt w bs (8 * o + x) := by
  rw [unitAt_eq narrow, unitAt_eq narrow, (natOf_drop_take _ n).2, (natOf_drop_take bs o).1, bits_of_cut _ inside, Nat.div_div_eq_div_mul,
    ← Nat.pow_add]

theorem radix_lt {a n b m : Nat} (high : a < n) (low : b < m) : a * m + b < n * m :=
  calc a * m + b < a * m + m := Nat.add_lt_add_left low _
    _ = (a + 1) * m := (Nat.succ_mul a m).symm
    _ ≤ n * m := Nat.mul_le_mul_right m high

/-! ### Rows of bytes and the planes of a block (R87, R199) -/

section
variable {p : Pkg} {c : Cmd} (env : Env)

theorem sectors_data (asid va n : Nat) :
    ((Eng.blocks 32 va n).map fun x => Answer.bytes (bytesAt p asid x.1 x.2)).flatMap Answer.data = bytesAt p asid va n := by
  rw [List.flatMap_map]
  exact blocks_flatMap (.inr (.inl rfl)) (fun a => p.mem.get (placeOf p asid a)) va n

theorem mapM_rows (spans : List (Nat × Nat)) (served : ∀ s ∈ spans, Serves p c s.1 s.2) {w : Work} (q : Quiet p c w) :
    ∃ t, ((spans.map fun s => Eng.blocks 32 s.1 s.2).mapM fun row => Eng.anyOrder (row.map fun x => Eng.readSector x.1 x.2)) ⟨env, c⟩ w =
        .ok (spans.map fun s => (Eng.blocks 32 s.1 s.2).map fun x => .bytes (bytesAt p c.asid x.1 x.2)) t ∧ Later p c w t := by
  induction spans generalizing w with
  | nil => exact ⟨w, rfl, .rfl q⟩
  | cons s spans ih =>
    obtain ⟨u, reads, toRead⟩ := sectors_quiet env q (served s List.mem_cons_self)
    obtain ⟨t, rest, toRest⟩ := ih (fun x mem => served x (List.mem_cons_of_mem _ mem)) toRead.quiet
    refine ⟨t, ?_, toRead.trans toRest⟩
    rw [List.map_cons, List.mapM_cons, Eng.run_bind, reads]
    dsimp only
    rw [Eng.run_bind, rest]
    rfl

/-- Rows of bytes of device memory, each served plainly. -/
theorem readRows_quiet (spans : List (Nat × Nat)) (served : ∀ s ∈ spans, Serves p c s.1 s.2) {w : Work} (q : Quiet p c w) :
    ∃ t, readRows (spans.map fun s => Eng.blocks 32 s.1 s.2) Eng.readSector ⟨env, c⟩ w = .ok (spans.map fun s => bytesAt p c.asid s.1 s.2) t ∧
      Later p c w t := by
  obtain ⟨t, reads, later⟩ := mapM_rows env spans served q
  refine ⟨t, ?_, later⟩
  unfold readRows
  rw [Eng.run_bind, reads]
  dsimp only
  rw [Eng.run_bind, settle_quiet later.quiet]
  dsimp only
  rw [List.map_map, Eng.run_pure]
  congr 1
  exact List.map_congr_left fun s _ => sectors_data ..

/-- Rows numbered from 0. -/
theorem readSpans_quiet (n : Nat) (span : Nat → Nat × Nat) (served : ∀ k < n, Serves p c (span k).1 (span k).2) {w : Work} (q : Quiet p c w) :
    ∃ t, readRows ((List.range n).map fun k => Eng.blocks 32 (span k).1 (span k).2) Eng.readSector ⟨env, c⟩ w =
        .ok ((List.range n).map fun k => bytesAt p c.asid (span k).1 (span k).2) t ∧ Later p c w t := by
  obtain ⟨t, reads, later⟩ := readRows_quiet env ((List.range n).map span) (fun s mem => by
    obtain ⟨k, low, rfl⟩ := List.mem_map.1 mem
    exact served k (List.mem_range.1 low)) q
  rw [List.map_map, List.map_map] at reads
  exact ⟨t, reads, later⟩

variable (r : Shape) (f : BlockForm) (q kt nt : Nat)

/-- The address of a plane of a block. -/
def planeAt (i : Nat) : Nat := r.base + 4096 * blockGranule r f q kt nt i

/-- The writes of a block's planes. -/
def planeWrites (p : Pkg) (asid : Nat) (bs : List Byte) : List PWrite :=
  (List.range f.pb).flatMap fun i => granuleWrites p asid (planeAt r f q kt nt i) ((bs.drop (4096 * i)).take 4096)

theorem planes_quiet (bs : List Byte) (is : List Nat) (served : ∀ i ∈ is, Serves p c (planeAt r f q kt nt i) 4096) {w : Work} (start : Quiet p c w) :
    ∃ t, (forIn is () fun i _ => do
        Eng.devWrite (planeAt r f q kt nt i) ((bs.drop (4096 * i)).take 4096)
        pure (.yield ()) : Eng Unit) ⟨env, c⟩ w = .ok () t ∧
      LaterBy p c (is.flatMap fun i => granuleWrites p c.asid (planeAt r f q kt nt i) ((bs.drop (4096 * i)).take 4096)) w t := by
  induction is generalizing w with
  | nil => exact ⟨w, rfl, .rfl start⟩
  | cons i is ih =>
    obtain ⟨u, writes, toWritten⟩ := devWrite_quiet env (bs := (bs.drop (4096 * i)).take 4096) start
      (Serves.sub (served i List.mem_cons_self) (Nat.le_refl _) (Nat.add_le_add_left (List.length_take_le _ _) _))
    obtain ⟨t, rest, toRest⟩ := ih (fun j mem => served j (List.mem_cons_of_mem _ mem)) toWritten.quiet
    refine ⟨t, ?_, toWritten.trans toRest⟩
    rw [Eng.run_forIn_cons, Eng.run_bind, writes]
    exact rest

theorem writeBlock_quiet (bs : List Byte) (served : ∀ i < f.pb, Serves p c (planeAt r f q kt nt i) 4096) {w : Work} (start : Quiet p c w) :
    ∃ t, writeBlock r f q kt nt bs ⟨env, c⟩ w = .ok () t ∧ LaterBy p c (planeWrites r f q kt nt p c.asid bs) w t := by
  obtain ⟨t, writes, later⟩ := planes_quiet env r f q kt nt bs (List.range f.pb) (fun i mem => served i (List.mem_range.1 mem)) start
  refine ⟨t, ?_, later⟩
  unfold writeBlock
  rw [Eng.run_bind]
  have loop : (forIn (List.range f.pb) PUnit.unit fun i _ => do
      Eng.devWrite (r.base + 4096 * blockGranule r f q kt nt i) ((bs.drop (4096 * i)).take 4096)
      pure (.yield PUnit.unit) : Eng PUnit) ⟨env, c⟩ w = .ok () t := writes
  rw [loop]
  rfl

/-- The write of the side slot of the plane at an address that is served plainly. -/
def slotWrite (p : Pkg) (asid va : Nat) (bs : List Byte) : PWrite :=
  .side (some va) none (cellsAt (sideAt (dpaTile (placeOf p asid va)) (dpaPlane (placeOf p asid va))) bs)

theorem slotWrite_quiet {va : Nat} (served : Serves p c va 4096) (bs : List Byte) {w : Work} (start : Quiet p c w) :
    ∃ t, (discard (Eng.access (do Eng.emitWrite (← Eng.sideWrite va 0 bs))) : Eng Unit) ⟨env, c⟩ w = .ok () t ∧
      LaterBy p c [slotWrite p c.asid va bs] w t := by
  have plain := served va (Nat.le_refl _) (by omega)
  obtain ⟨u, m, pkg, -⟩ := start.pkg
  obtain ⟨x, placed, toPlaced⟩ := place_quiet env plain true start
  have unstaged : Eng.inOutput w.p c.node va = false := by rw [pkg]; exact plain.unstaged
  have writes : (do Eng.emitWrite (← Eng.sideWrite va 0 bs) : Eng (List Byte)) ⟨env, c⟩ w =
      .ok [] { x with writes := x.writes ++ [slotWrite p c.asid va bs] } := by
    unfold Eng.sideWrite
    simp only [Eng.run_bind, Eng.run_read, Eng.run_pkg, unstaged]
    rw [if_neg Bool.false_ne_true, Eng.run_bind, placed]
    rfl
  obtain ⟨t, emits, later, -⟩ := access_quiet start writes (laterBy_emitted toPlaced _)
  exact ⟨t, by rw [Eng.run_discard, emits], later⟩

end

/-! ### One block of a region (R199) -/

/-- The scales' rows of a block. -/
def scaleRows (f : BlockForm) : Nat := if f.bs = 0 then 0 else f.kd / f.bs

/-- The first bit, in the source, of a row of a block. -/
def firstBit (r : Shape) (f : BlockForm) (q kt nt k : Nat) : Nat := ((q * (r.kt * f.ku) + kt * f.ku + k) * (r.nt * 64) + nt * 64) * f.w

/-- The bytes that hold a row, and those of a row of its scales. -/
def rowSpan (c : Cmd) (r : Shape) (f : BlockForm) (q kt nt k : Nat) : Nat × Nat :=
  (c.a.toNat + firstBit r f q kt nt k / 8, (firstBit r f q kt nt k + 64 * f.w + 7) / 8 - firstBit r f q kt nt k / 8)
def scaleSpan (c : Cmd) (r : Shape) (f : BlockForm) (q kt nt i : Nat) : Nat × Nat :=
  (c.c.toNat + (q * r.kt * scaleRows f + kt * scaleRows f + i) * (r.nt * 64) + nt * 64, 64)

/-- The part of a retile that one block is. -/
def blockWork (c : Cmd) (r : Shape) (f : BlockForm) : Nat × Nat × Nat → Eng Unit
  | (q, kt, nt) => do
    let rows ← readRows ((List.range f.ku).map fun k => Eng.blocks 32 (rowSpan c r f q kt nt k).1 (rowSpan c r f q kt nt k).2) Eng.readSector
    let scales ← readRows ((List.range (scaleRows f)).map fun i =>
      Eng.blocks 32 (scaleSpan c r f q kt nt i).1 (scaleSpan c r f q kt nt i).2) Eng.readSector
    writeBlock r f q kt nt (blockBytes f ((c.b.toNat % 2 ^ 32).testBit 27) fun k n =>
      unitAt f.w (rows.getD k []) (firstBit r f q kt nt k % 8 + f.w * n))
    discard (Eng.access (do
      Eng.emitWrite (← Eng.sideWrite (r.base + 4096 * blockGranule r f q kt nt 0) 0 (sideScales scales))))

theorem steady_blockWork (c : Cmd) (r : Shape) (f : BlockForm) (x : Nat × Nat × Nat) : Steady (blockWork c r f x) := by
  obtain ⟨q, kt, nt⟩ := x
  exact .bind (steady_readRows _) fun rows => .bind (steady_readRows _) fun scales => .bind (steady_writeBlock _ _ _ _ _ _) fun _ =>
    .map (.access (.bind (steady_sideWrite _ _ _) fun x => steady_emitWrite x))

/-- The writes of a block, of the rows and the scales' rows that it reads. -/
def blockWrites (p : Pkg) (c : Cmd) (r : Shape) (f : BlockForm) : Nat × Nat × Nat → List PWrite
  | (q, kt, nt) =>
    let rows := (List.range f.ku).map fun k => bytesAt p c.asid (rowSpan c r f q kt nt k).1 (rowSpan c r f q kt nt k).2
    let scales := (List.range (scaleRows f)).map fun i => bytesAt p c.asid (scaleSpan c r f q kt nt i).1 (scaleSpan c r f q kt nt i).2
    planeWrites r f q kt nt p c.asid (blockBytes f ((c.b.toNat % 2 ^ 32).testBit 27) fun k n =>
      unitAt f.w (rows.getD k []) (firstBit r f q kt nt k % 8 + f.w * n)) ++
    [slotWrite p c.asid (planeAt r f q kt nt 0) (sideScales scales)]

/-- All that a block reads and writes is served plainly. -/
structure ServedBlock (p : Pkg) (c : Cmd) (r : Shape) (f : BlockForm) (q kt nt : Nat) : Prop where
  rows   : ∀ k < f.ku, Serves p c (rowSpan c r f q kt nt k).1 (rowSpan c r f q kt nt k).2
  scales : ∀ i < scaleRows f, Serves p c (scaleSpan c r f q kt nt i).1 (scaleSpan c r f q kt nt i).2
  planes : ∀ i < f.pb, Serves p c (planeAt r f q kt nt i) 4096

theorem blockWork_quiet {p : Pkg} {c : Cmd} (env : Env) {r : Shape} {f : BlockForm} (some_ : 0 < f.pb) {q kt nt : Nat}
    (served : ServedBlock p c r f q kt nt) {w : Work} (start : Quiet p c w) :
    ∃ t, blockWork c r f (q, kt, nt) ⟨env, c⟩ w = .ok () t ∧ LaterBy p c (blockWrites p c r f (q, kt, nt)) w t := by
  obtain ⟨u, rows, toRows⟩ := readSpans_quiet env f.ku (rowSpan c r f q kt nt) served.rows start
  obtain ⟨v, scales, toScales⟩ := readSpans_quiet env (scaleRows f) (scaleSpan c r f q kt nt) served.scales toRows.quiet
  obtain ⟨x, planes, toPlanes⟩ := writeBlock_quiet env r f q kt nt (blockBytes f ((c.b.toNat % 2 ^ 32).testBit 27) fun k n =>
      unitAt f.w (((List.range f.ku).map fun k => bytesAt p c.asid (rowSpan c r f q kt nt k).1 (rowSpan c r f q kt nt k).2).getD k [])
        (firstBit r f q kt nt k % 8 + f.w * n)) served.planes toScales.quiet
  obtain ⟨t, slot, toSlot⟩ := slotWrite_quiet env (served.planes 0 some_)
    (sideScales ((List.range (scaleRows f)).map fun i => bytesAt p c.asid (scaleSpan c r f q kt nt i).1 (scaleSpan c r f q kt nt i).2))
    toPlanes.quiet
  refine ⟨t, ?_, ((toRows.trans toScales).trans toPlanes).trans toSlot⟩
  unfold blockWork
  dsimp only
  rw [Eng.run_bind]
  rw [rows]
  dsimp only
  rw [Eng.run_bind, scales]
  dsimp only
  rw [Eng.run_bind, planes]
  exact slot

/-! ### Where a block lies in its source, its scales and its region (R87, R199) -/

theorem blockForm_bounds (fmt : Nat) : (blockForm fmt).w ≤ 24 ∧ 0 < (blockForm fmt).ku ∧ 0 < (blockForm fmt).pb := by
  unfold blockForm
  split <;> decide

/-- The bytes of the source, and of its scales. -/
def sourceBytes (r : Shape) (f : BlockForm) : Nat := (r.planes / f.pb * (r.kt * f.ku) * (r.nt * 64) * f.w + 7) / 8
def scaleBytes (r : Shape) (f : BlockForm) : Nat := r.planes / f.pb * r.kt * scaleRows f * (r.nt * 64)

section
variable {r : Shape} {f : BlockForm} {q kt nt : Nat} (inside : q < r.planes / f.pb ∧ kt < r.kt ∧ nt < r.nt)
include inside

theorem row_inside {k : Nat} (low : k < f.ku) :
    firstBit r f q kt nt k + 64 * f.w ≤ r.planes / f.pb * (r.kt * f.ku) * (r.nt * 64) * f.w := by
  obtain ⟨plane, column, member⟩ := inside
  have row : q * (r.kt * f.ku) + kt * f.ku + k < r.planes / f.pb * (r.kt * f.ku) := by
    rw [Nat.add_assoc]
    exact radix_lt plane (radix_lt column low)
  calc firstBit r f q kt nt k + 64 * f.w = ((q * (r.kt * f.ku) + kt * f.ku + k) * (r.nt * 64) + (nt * 64 + 64)) * f.w := by
        rw [firstBit, ← Nat.add_mul, Nat.add_assoc]
    _ ≤ (q * (r.kt * f.ku) + kt * f.ku + k + 1) * (r.nt * 64) * f.w := by
        refine Nat.mul_le_mul_right _ ?_
        rw [Nat.succ_mul]
        exact Nat.add_le_add_left (by omega) _
    _ ≤ _ := Nat.mul_le_mul_right _ (Nat.mul_le_mul_right _ row)

theorem scale_inside {i : Nat} (low : i < scaleRows f) :
    (q * r.kt * scaleRows f + kt * scaleRows f + i) * (r.nt * 64) + nt * 64 + 64 ≤ scaleBytes r f := by
  obtain ⟨plane, column, member⟩ := inside
  have row : q * r.kt * scaleRows f + kt * scaleRows f + i < r.planes / f.pb * r.kt * scaleRows f := by
    rw [← Nat.add_mul]
    exact radix_lt (radix_lt plane column) low
  calc (q * r.kt * scaleRows f + kt * scaleRows f + i) * (r.nt * 64) + nt * 64 + 64
      ≤ (q * r.kt * scaleRows f + kt * scaleRows f + i + 1) * (r.nt * 64) := by
        rw [Nat.succ_mul, Nat.add_assoc]
        exact Nat.add_le_add_left (by omega) _
    _ ≤ _ := Nat.mul_le_mul_right _ row

theorem plane_inside {i : Nat} (low : i < f.pb) :
    4096 * blockGranule r f q kt nt i + 4096 ≤ r.size := by
  obtain ⟨plane, column, member⟩ := inside
  have block : f.pb * q + i < r.planes :=
    calc f.pb * q + i = q * f.pb + i := by rw [Nat.mul_comm]
      _ < r.planes / f.pb * f.pb := radix_lt plane low
      _ ≤ r.planes := Nat.div_mul_le_self _ _
  have granule : blockGranule r f q kt nt i < r.kt * r.nt * r.planes :=
    calc blockGranule r f q kt nt i = ((f.pb * q + i) * r.nt + nt) * r.kt + kt := by unfold blockGranule; ring
      _ < r.planes * r.nt * r.kt := radix_lt (radix_lt block member) column
      _ = r.kt * r.nt * r.planes := by ring
  unfold Shape.size
  omega

theorem rowSpan_inside (c : Cmd) {k : Nat} (low : k < f.ku) :
    c.a.toNat ≤ (rowSpan c r f q kt nt k).1 ∧
      (rowSpan c r f q kt nt k).1 + (rowSpan c r f q kt nt k).2 ≤ c.a.toNat + sourceBytes r f := by
  have bits := row_inside inside low
  unfold rowSpan sourceBytes
  dsimp only
  omega

theorem servedBlock {p : Pkg} {c : Cmd} (source : Serves p c c.a.toNat (sourceBytes r f))
    (scales : f.bs ≠ 0 → Serves p c c.c.toNat (scaleBytes r f)) (region : Serves p c r.base r.size) : ServedBlock p c r f q kt nt where
  rows k low := Serves.sub source (rowSpan_inside inside c low).1 (rowSpan_inside inside c low).2
  scales i low := by
    have scaled : f.bs ≠ 0 := fun none_ => by
      rw [scaleRows, if_pos none_] at low
      exact absurd low (Nat.not_lt_zero _)
    have rows := scale_inside inside low
    refine Serves.sub (scales scaled) ?_ ?_
    · unfold scaleSpan
      dsimp only
      omega
    · unfold scaleSpan
      dsimp only
      omega
  planes i low := by
    have granule := plane_inside inside low
    exact Serves.sub region (Nat.le_add_right _ _) (by unfold planeAt; omega)

/-! ### What a block's units and scales are -/

theorem unit_eq {p : Pkg} {c : Cmd} (narrow : f.w ≤ 24) {k n : Nat} (low : k < f.ku) (col : n < 64) :
    unitAt f.w (((List.range f.ku).map fun k => bytesAt p c.asid (rowSpan c r f q kt nt k).1 (rowSpan c r f q kt nt k).2).getD k [])
        (firstBit r f q kt nt k % 8 + f.w * n) =
      packedUnit f.w (bytesAt p c.asid c.a.toNat (sourceBytes r f))
        ((q * (r.kt * f.ku) + kt * f.ku + k) * (r.nt * 64) + nt * 64 + n) := by
  have row : ((List.range f.ku).map fun k => bytesAt p c.asid (rowSpan c r f q kt nt k).1 (rowSpan c r f q kt nt k).2).getD k [] =
      ((bytesAt p c.asid c.a.toNat (sourceBytes r f)).drop (firstBit r f q kt nt k / 8)).take (rowSpan c r f q kt nt k).2 := by
    have span := (rowSpan_inside inside c low).2
    rw [List.getD_eq_getElem _ _ (by simpa using low), List.getElem_map, List.getElem_range,
      bytesAt_slice p c.asid _ (by unfold rowSpan at span ⊢; dsimp only at span ⊢; omega)]
    rfl
  have unit : f.w * n + f.w ≤ 64 * f.w :=
    calc f.w * n + f.w = f.w * (n + 1) := (Nat.mul_succ _ _).symm
      _ ≤ f.w * 64 := Nat.mul_le_mul_left _ col
      _ = 64 * f.w := Nat.mul_comm _ _
  have at_ : 8 * (firstBit r f q kt nt k / 8) + (firstBit r f q kt nt k % 8 + f.w * n) =
      f.w * ((q * (r.kt * f.ku) + kt * f.ku + k) * (r.nt * 64) + nt * 64 + n) := by
    rw [← Nat.add_assoc, Nat.div_add_mod, firstBit]
    ring
  rw [row, unitAt_slice narrow _ (by unfold rowSpan; dsimp only; omega), at_]
  rfl

omit inside in
theorem bytesAt_getD (p : Pkg) (asid va : Nat) {n i : Nat} (low : i < n) :
    (bytesAt p asid va n).getD i 0 = p.mem.get (placeOf p asid (va + i)) := by
  unfold bytesAt
  rw [List.getD_eq_getElem _ _ (by simpa using low), List.getElem_map, List.getElem_range]

theorem scale_eq {p : Pkg} {c : Cmd} :
    sideScales ((List.range (scaleRows f)).map fun i => bytesAt p c.asid (scaleSpan c r f q kt nt i).1 (scaleSpan c r f q kt nt i).2) =
      (List.range 256).map fun z => if z / 64 < scaleRows f then (bytesAt p c.asid c.c.toNat (scaleBytes r f)).getD
        ((q * r.kt * scaleRows f + kt * scaleRows f + z / 64) * (r.nt * 64) + nt * 64 + z % 64) 0 else 0 := by
  unfold sideScales
  refine List.map_congr_left fun z _ => ?_
  split
  · next low =>
    have rows := scale_inside inside low
    rw [List.getD_eq_getElem (l := (List.range (scaleRows f)).map _) _ (by simpa using low), List.getElem_map, List.getElem_range]
    have short := Nat.mod_lt z (show 0 < 64 by decide)
    unfold scaleSpan
    dsimp only
    rw [bytesAt_getD _ _ _ short, bytesAt_getD _ _ _ (by omega)]
    rw [← Nat.add_assoc, ← Nat.add_assoc]
  · next high =>
    rw [List.getD_eq_default (l := (List.range (scaleRows f)).map _) _ (by simpa using high)]
    rfl

end

theorem blockBytes_congr {f : BlockForm} (some_ : 0 < f.ku) (t : Bool) {u v : Nat → Nat → Nat} (same : ∀ k < f.ku, ∀ n < 64, u k n = v k n) :
    blockBytes f t u = blockBytes f t v := by
  unfold blockBytes
  dsimp only
  congr 2
  refine List.map_congr_left fun pos mem => ?_
  have low := List.mem_range.1 mem
  split
  · exact same _ (Nat.mod_lt _ some_) _ (Nat.div_lt_of_lt_mul (by rwa [Nat.mul_comm]))
  · exact same _ (Nat.div_lt_of_lt_mul low) _ (Nat.mod_lt _ (by decide))

/-! ### Retiles (R199) -/

theorem mem_regionBlocks {r : Shape} {pb : Nat} {x : Nat × Nat × Nat} (mem : x ∈ regionBlocks r pb) :
    x.1 < r.planes / pb ∧ x.2.1 < r.kt ∧ x.2.2 < r.nt := by
  obtain ⟨q, plane, mem⟩ := List.mem_flatMap.1 mem
  obtain ⟨kt, column, mem⟩ := List.mem_flatMap.1 mem
  obtain ⟨nt, member, rfl⟩ := List.mem_map.1 mem
  exact ⟨List.mem_range.1 plane, List.mem_range.1 column, List.mem_range.1 member⟩

/-- A command that has read its region's record. -/
def noteRegion (r : Shape) (m : Command) : Command := { m with region := some r }

theorem run_regionFor {c : Cmd} {env : Env} {p : Pkg} {base none_ : Nat} {r : Shape} (fresh : Fresh (p.cmd c.id)) (at_ : RegionAt p c base r)
    (ok : r.ok = true) :
    regionFor c.asid base none_ ⟨env, c⟩ (Work.of p c.id) = .ok r { Work.of p c.id with p := p.modCmd c.id (noteRegion r) } := by
  have self : Eng.self ⟨env, c⟩ (Work.of p c.id) = .ok (p.cmd c.id) (Work.of p c.id) := rfl
  have slot : ((findSlot p c.asid).bind fun s => badTable p s.at_) = none := by
    cases found : findSlot p c.asid with
    | none => rfl
    | some s => exact at_.slot s found
  have reads : Eng.regionIn c.asid base none_ ⟨env, c⟩ (Work.of p c.id) = .ok r (Work.of p c.id) := by
    unfold Eng.regionIn
    rw [Eng.run_bind, Eng.run_read]
    dsimp only
    rw [Eng.run_bind, Eng.run_pkg]
    dsimp only
    rw [show (Work.of p c.id).p = p from rfl, slot, at_.region]
    dsimp only
    rw [at_.record]
    rfl
  unfold regionFor regionOnce
  rw [Eng.run_bind, Eng.run_bind, self]
  dsimp only
  rw [fresh.region]
  dsimp only
  rw [Eng.run_bind, reads]
  dsimp only
  show (Eng.need r.ok 1 >>= fun _ => pure r : Eng Shape) ⟨env, c⟩ { Work.of p c.id with p := p.modCmd c.id (noteRegion r) } = _
  rw [Eng.run_bind, Eng.run_need 1 ok]
  rfl

section
variable {c : Cmd} {s : State} {r : Shape} (fresh : Fresh (s.pkg.cmd c.id)) (at_ : RegionAt s.pkg c c.d.toNat r)
  (fmt : 1 ≤ c.b.toNat % 2 ^ 32 / 2 ^ 28 ∧ c.b.toNat % 2 ^ 32 / 2 ^ 28 ≤ 14) (clear : bits (c.b.toNat % 2 ^ 32) 26 16 = 0) (ok : r.ok = true)
  (whole : r.planes % (blockForm (c.b.toNat % 2 ^ 32 / 2 ^ 28)).pb = 0)
include fresh at_ fmt clear ok whole

/-- What a retile does, its operands accepted. -/
theorem ecRetileWork_eq :
    ecRetileWork c ⟨s.env, c⟩ (Work.of s.pkg c.id) = (do
      Eng.each ((regionBlocks r (blockForm (c.b.toNat % 2 ^ 32 / 2 ^ 28)).pb).map (blockWork c r (blockForm (c.b.toNat % 2 ^ 32 / 2 ^ 28))))
      Eng.writeLate (.dev none false (cellsAt (r.at_ + 28) (bytesOf 4 (c.b.toNat % 2 ^ 32)))) : Eng Unit) ⟨s.env, c⟩
        { Work.of s.pkg c.id with p := s.pkg.modCmd c.id (noteRegion r) } := by
  unfold ecRetileWork
  dsimp only
  rw [Eng.run_bind, Eng.run_need 1 (by rw [decide_eq_true fmt.1, decide_eq_true fmt.2, clear]; rfl)]
  dsimp only
  rw [Eng.run_bind, run_regionFor fresh at_ ok]
  dsimp only
  rw [Eng.run_bind, Eng.run_need 1 (beq_iff_eq.2 whole)]
  rfl

end

/-! What a command notes of itself has no part in how an address is served. -/

section
variable (p : Pkg) (f : Command → Command) (id asid va : Nat)

theorem walk_modCmd : walk (p.modCmd id f) asid va = walk p asid va := rfl

theorem pageLeaf_modCmd : pageLeaf (p.modCmd id f) asid va = pageLeaf p asid va := by
  unfold pageLeaf
  rw [walk_modCmd]

theorem placeOf_modCmd : placeOf (p.modCmd id f) asid va = placeOf p asid va := by
  unfold placeOf
  rw [pageLeaf_modCmd]
  rfl

end

theorem served_modCmd {p : Pkg} {c : Cmd} {va k : Nat} {l : Leaf} (h : Served p c va k l) (f : Command → Command) :
    Served (p.modCmd c.id f) c va k l :=
  ⟨h.range, (walk_modCmd p f c.id c.asid va).trans h.walk, h.cached, h.kind, h.state, h.writable, h.dirty, h.free, h.unstaged, h.place, h.dram,
    h.plane, h.repair, h.sound⟩

theorem serves_modCmd {p : Pkg} {c : Cmd} {va n : Nat} (h : Serves p c va n) (f : Command → Command) : Serves (p.modCmd c.id f) c va n := by
  intro a above below
  rw [placeOf_modCmd, pageLeaf_modCmd]
  exact served_modCmd (h a above below) f

/-- The writes of a block of a retile, as R199 has them: the units of the source, packed, and the scales. -/
def retiled (p : Pkg) (c : Cmd) (r : Shape) (f : BlockForm) (x : Nat × Nat × Nat) : List PWrite :=
  planeWrites r f x.1 x.2.1 x.2.2 p c.asid (blockBytes f ((c.b.toNat % 2 ^ 32).testBit 27) fun k n =>
    packedUnit f.w (bytesAt p c.asid c.a.toNat (sourceBytes r f))
      ((x.1 * (r.kt * f.ku) + x.2.1 * f.ku + k) * (r.nt * 64) + x.2.2 * 64 + n)) ++
  [slotWrite p c.asid (planeAt r f x.1 x.2.1 x.2.2 0) ((List.range 256).map fun z => if z / 64 < scaleRows f then
    (bytesAt p c.asid c.c.toNat (scaleBytes r f)).getD
      ((x.1 * r.kt * scaleRows f + x.2.1 * scaleRows f + z / 64) * (r.nt * 64) + x.2.2 * 64 + z % 64) 0 else 0)]

theorem blockWrites_eq {p : Pkg} {c : Cmd} {r : Shape} {f : BlockForm} (narrow : f.w ≤ 24) (some_ : 0 < f.ku) {x : Nat × Nat × Nat}
    (mem : x ∈ regionBlocks r f.pb) : blockWrites p c r f x = retiled p c r f x := by
  obtain ⟨q, kt, nt⟩ := x
  have inside := mem_regionBlocks mem
  unfold blockWrites retiled
  dsimp only
  rw [scale_eq inside, blockBytes_congr some_ _ fun k low n col => unit_eq inside narrow low col]

theorem retiled_modCmd (p : Pkg) (id : Nat) (g : Command → Command) (c : Cmd) (r : Shape) (f : BlockForm) (x : Nat × Nat × Nat) :
    retiled (p.modCmd id g) c r f x = retiled p c r f x := by
  simp only [retiled, planeWrites, granuleWrites, slotWrite, bytesAt, placeOf_modCmd, Pkg.modCmd_mem]

/-- R199: a retile of a correct format, source and region. -/
theorem ecRetile_ends {c : Cmd} {s : State} {r : Shape} {f : BlockForm} (present : s.pkg.present c.id = true)
    (fresh : Fresh (s.pkg.cmd c.id)) (at_ : RegionAt s.pkg c c.d.toNat r) (form : f = blockForm (c.b.toNat % 2 ^ 32 / 2 ^ 28))
    (fmt : 1 ≤ c.b.toNat % 2 ^ 32 / 2 ^ 28 ∧ c.b.toNat % 2 ^ 32 / 2 ^ 28 ≤ 14) (clear : bits (c.b.toNat % 2 ^ 32) 26 16 = 0) (ok : r.ok = true)
    (whole : r.planes % f.pb = 0) (source : Serves s.pkg c c.a.toNat (sourceBytes r f))
    (scales : f.bs ≠ 0 → Serves s.pkg c c.c.toNat (scaleBytes r f)) (region : Serves s.pkg c r.base r.size) :
    Ends (.ecRetile c) c s 0 (((regionBlocks r f.pb).flatMap (retiled s.pkg c r f)).flatMap splitWrite)
      [.dev none false (cellsAt (r.at_ + 28) (bytesOf 4 (c.b.toNat % 2 ^ 32)))] (Apart s.pkg) := by
  obtain ⟨narrow, deep, some_⟩ : f.w ≤ 24 ∧ 0 < f.ku ∧ 0 < f.pb := form ▸ blockForm_bounds _
  obtain ⟨t, makes, later⟩ := each_quiet (v := ⟨s.env, c⟩) (blockWrites (s.pkg.modCmd c.id (noteRegion r)) c r f) (blockWork c r f)
    (steady_blockWork c r f) (regionBlocks r f.pb) (quiet_modCmd fresh (noteRegion r)) fresh.parts fun x mem u quiet =>
      blockWork_quiet s.env some_ (servedBlock (mem_regionBlocks mem) (serves_modCmd source _) (fun scaled => serves_modCmd (scales scaled) _)
        (serves_modCmd region _)) quiet
  obtain ⟨m, n, pkg, -⟩ := later.quiet.pkg
  have self : t.p.cmd c.id = noteRegion r (s.pkg.cmd c.id) := by rw [pkg]; exact NMap.get_set_self s.pkg.cmds c.id _
  have writes : t.writes = (regionBlocks r f.pb).flatMap (retiled s.pkg c r f) :=
    later.writes.trans (List.flatMap_congr fun x mem => (blockWrites_eq narrow deep mem).trans (retiled_modCmd ..))
  have late : t.late = [] := later.late
  have accepted : Accepted (ecRetileWork c) c s
      { t with late := [.dev none false (cellsAt (r.at_ + 28) (bytesOf 4 (c.b.toNat % 2 ^ 32)))] } := by
    unfold Accepted
    rw [ecRetileWork_eq fresh at_ fmt clear ok (form ▸ whole), ← form, Eng.run_bind, makes]
    dsimp only
    rw [Eng.run_writeLate, late]
    rfl
  have ends := ends_of_noted (i := .ecRetile c) rfl present accepted ⟨m, n, _, pkg⟩
    (by dsimp only; rw [self]; exact ⟨fresh.phase, fresh.writes, fresh.status⟩) (later.stamp.trans fresh.stamp) later.status
  dsimp only at ends
  rwa [writes] at ends

end Sys2Proof.Proofs.Retiling

namespace Sys2Proof.Proofs.Copying

open Machine Copies Templates Retiling

/-- Settles O30: each of the six rows makes its accesses on served storage in one step, and what they come to is what it states. -/
theorem copyCommands : Obligations.CopyCommands := by
  unfold Obligations.CopyCommands
  intro c s present fresh on p core a d n ends
  refine ⟨fun unstamped some_ fits => ecCopyl_directions present fresh on unstamped fits some_, ?_, ?_, ?_, ?_, ?_⟩
  · intro t w src dst moves whole write templated moved unstamped kinds places
    exact ecCopy_ends present fresh on templated moved unstamped kinds places
  · intro m after before aligned sound named buffer off dst offset words some_ inside place linear here source low clean
    exact ecPull_ends ⟨offset, words⟩ some_ inside place linear ⟨after, before, aligned⟩ sound named buffer here present fresh on source low clean
  · intro r at_ b f nq nb units unit scale plane written least most clear ok whole source scales region
    exact ecRetile_ends present fresh at_ rfl ⟨least, most⟩ clear ok whole source scales region
  · intro k aligned linear served
    exact ecxChk_ends present fresh on aligned linear served
  · exact ecPref_ends present fresh

end Sys2Proof.Proofs.Copying
